-- ==== Sys2Proof/Word.lean ====
section
/-!
DEFINITION. The word types and the type of sparse maps.
-/
namespace Sys2Proof

/-- A scalar register or a special register (64 bits). -/
abbrev Word := BitVec 64

/-- The smallest addressable unit (R4). -/
abbrev Byte := BitVec 8

/-- A map from numbers: entries in strictly rising order of key, none equal to what an unlisted key reads as. What an
unlisted key reads as is given at each use. The operations are in Machine/Sparse.lean. -/
abbrev Sparse (α : Type) := List (Nat × α)

end Sys2Proof
end

