-- ==== Sys2Proof/Config.lean ====
section
/-!
DEFINITION. What an implementation fixes and the manual leaves open: free values and keys. None has a body that a proof
could use.
-/
namespace Sys2Proof

/-- A byte of HBM4E whose contents the manual leaves undefined (R355, R48), by event and address (log 9). -/
opaque Config.freeByte : Nat → Nat → Byte

/-- The poison tag of such a line, by event and line (log 9). -/
opaque Config.freeTag : Nat → Nat → Bool

/-- The vendor's LMS public key in the boot ROM (R358): the identifier I of 16 bytes and the root of 32 (log 12). -/
opaque Config.vendorKey : List Byte

/-- The LMS signature of 2,668 bytes under the device key with a one-time key index (R359, log 12). -/
opaque Config.deviceSign : Nat → List Byte → List Byte

/-- The KIND of the TIMING trap of a collective issued while the core's previous one runs (R203, R335), which the manual leaves
open, and the rest of its record (log 17). -/
opaque Config.collKind : BitVec 4

opaque Config.collDetail : Word

/-- The index that names an NBC line in an EARLYREAD record (R84, R335, log 17). -/
opaque Config.nbcIndex : Nat

/-- Whether a row of a bank fails the built-in memory test (R48), by the SCYC of the step and the row (log 20). -/
opaque Config.rowFails : Nat → Nat → Bool

/-- Whether the training of a CXL port that a write of RETRAIN starts succeeds (R51, R357), by the SCYC of the write and the port (log 105). -/
opaque Config.linkTrains : Nat → Nat → Bool

/-- Whether the peer of a Gramer port has a reference of its own or is the root (R322), by SCYC and port: a fact of another package
(log 106). -/
opaque Config.peerRef : Nat → Nat → Bool

/-- The MAC address of an Ethernet port (R302), by port (log 108). -/
opaque Config.portMac : Nat → BitVec 48

/-- The index record of a sparse block whose form has no index plane, by its descriptor (log 51). -/
opaque Config.sparseRecord : Nat → BitVec 128

end Sys2Proof
end

