-- ==== Sys2Proof/Syntax.lean ====
section
/-!
DEFINITION. The operand types and the one inductive `Instr`: a constructor for every row of the
opcode table: 174 slot words, the idle header and 79 steps of the part that are no words of code.
-/
namespace Sys2Proof

/-- The extension of a slot word (R128): `none` for L = 0, `some e` for L = 1 with LEND = e. -/
abbrev Ext := Option (BitVec 8)

/-- Slot classes (R120): S0 and S1 share the S map. -/
inductive Cls where
  | s | m | x | e | v
  deriving DecidableEq, Repr

/-- SZ of MA and MX words (Table 8.5): 1, 2, 4 or 8 bytes. -/
inductive Sz where
  | b | h | w | d
  deriving DecidableEq, Repr

/-- SZ of MT words (Table 8.5). -/
inductive Aw where
  | w | d
  deriving DecidableEq, Repr

/-- TY (Table 8.5, Table 11.1). -/
inductive LaneTy where
  | f32 | bf16x2 | f16x2 | i32 | n32 | i16x2 | i8x4
  deriving DecidableEq, Repr

/-- CC of CMP (Table 8.5). -/
inductive ScalarCc where
  | eq | ne | lt | le | gt | ge | ltn | len
  deriving DecidableEq, Repr

/-- CC of VCMP (Table 8.5). -/
inductive VecCc where
  | eq | ne | lt | le | gt | ge | un | ord
  deriving DecidableEq, Repr

/-- Scope of FENCE (Table 8.5, Table 13.3). -/
inductive Scope where
  | strand | core | panel | die | package | hedge | host | system
  deriving DecidableEq, Repr

/-- FORM of MMA (Table 8.5, Table 12.1). -/
inductive MmaForm where
  | bf16 | f16 | f8 | f4 | i8 | t2i8 | sp
  deriving DecidableEq, Repr

/-- FMT of ACRD (Table 8.5). -/
inductive AcrdFmt where
  | bf16 | f16 | f32 | f8e4 | f8e5 | i8 | f4e2 | i4
  deriving DecidableEq, Repr

/-- Element codes of VQNT and VDQNT (Table 2.5 codes 0 to 4). -/
inductive ElemCode where
  | f8e4 | f8e5 | i8 | f4e2 | i4
  deriving DecidableEq, Repr

/-- Rounding mode (Table 2.6). -/
inductive Rm where
  | rne | rtz | rup | rdn
  deriving DecidableEq, Repr

/-- Overflow mode (Table 2.6). -/
inductive Ovf where
  | sat | nan
  deriving DecidableEq, Repr

/-- A base register (R131): BB = 0 names an s register, BB = 1 one of b0 to b7. -/
inductive Base where
  | s (r : BitVec 5)
  | b (r : BitVec 3)
  deriving DecidableEq, Repr

/-- The instructions: one constructor per row of the opcode table, in the table's order. The arguments of a slot word are
its fields as Table 8.4 places them; `e` is its extension. The arguments of a step that is no word
are what distinguishes one such step from another (which register, page, panel, run ...), or what an outside party
brings (the value written, the temperature sampled). -/
inductive Instr where
  /-- ADD (R163): Writes the sum of two scalar registers, modulo 2^64. -/
  | add (p : BitVec 3) (d : BitVec 5) (a : BitVec 5) (b : BitVec 5)
  /-- SUB (R163): Writes the difference of two scalar registers, modulo 2^64. -/
  | sub (p : BitVec 3) (d : BitVec 5) (a : BitVec 5) (b : BitVec 5)
  /-- AND (R163): Writes the bitwise AND of two scalar registers. -/
  | and (p : BitVec 3) (d : BitVec 5) (a : BitVec 5) (b : BitVec 5)
  /-- OR (R163): Writes the bitwise OR of two scalar registers. -/
  | or (p : BitVec 3) (d : BitVec 5) (a : BitVec 5) (b : BitVec 5)
  /-- XOR (R163): Writes the bitwise XOR of two scalar registers. -/
  | xor (p : BitVec 3) (d : BitVec 5) (a : BitVec 5) (b : BitVec 5)
  /-- SHL (R163): Shifts a scalar left by a register amount, giving 0 for amounts of 64 or more. -/
  | shl (p : BitVec 3) (d : BitVec 5) (a : BitVec 5) (b : BitVec 5)
  /-- SHR (R163): Shifts a scalar right by a register amount and fills with zeros. -/
  | shr (p : BitVec 3) (d : BitVec 5) (a : BitVec 5) (b : BitVec 5)
  /-- SAR (R163): Shifts a scalar right by a register amount and fills with copies of the sign bit. -/
  | sar (p : BitVec 3) (d : BitVec 5) (a : BitVec 5) (b : BitVec 5)
  /-- MUL (R163): Writes the low 64 bits of a product after 3 sc. -/
  | mul (p : BitVec 3) (d : BitVec 5) (a : BitVec 5) (b : BitVec 5)
  /-- MULH (R163): Writes the high 64 bits of the signed 128-bit product. -/
  | mulh (p : BitVec 3) (d : BitVec 5) (a : BitVec 5) (b : BitVec 5)
  /-- MULHN (R163): Writes the high 64 bits of the unsigned 128-bit product. -/
  | mulhn (p : BitVec 3) (d : BitVec 5) (a : BitVec 5) (b : BitVec 5)
  /-- DIV (R164): Writes the signed quotient, rounded toward zero, with defined results for division by zero and for overflow. -/
  | div (p : BitVec 3) (d : BitVec 5) (a : BitVec 5) (b : BitVec 5)
  /-- DIVN (R164): Writes the unsigned quotient, with a defined result for division by zero. -/
  | divn (p : BitVec 3) (d : BitVec 5) (a : BitVec 5) (b : BitVec 5)
  /-- REM (R164): Writes the signed remainder, which takes the sign of the dividend. -/
  | rem (p : BitVec 3) (d : BitVec 5) (a : BitVec 5) (b : BitVec 5)
  /-- REMN (R164): Writes the unsigned remainder. -/
  | remn (p : BitVec 3) (d : BitVec 5) (a : BitVec 5) (b : BitVec 5)
  /-- MIN (R163): Writes the signed minimum of two scalars. -/
  | min (p : BitVec 3) (d : BitVec 5) (a : BitVec 5) (b : BitVec 5)
  /-- MAX (R163): Writes the signed maximum of two scalars. -/
  | max (p : BitVec 3) (d : BitVec 5) (a : BitVec 5) (b : BitVec 5)
  /-- MINN (R163): Writes the unsigned minimum of two scalars. -/
  | minn (p : BitVec 3) (d : BitVec 5) (a : BitVec 5) (b : BitVec 5)
  /-- MAXN (R163): Writes the unsigned maximum of two scalars. -/
  | maxn (p : BitVec 3) (d : BitVec 5) (a : BitVec 5) (b : BitVec 5)
  /-- CLZ (R165): Counts the zero bits above the highest one bit of a scalar. -/
  | clz (p : BitVec 3) (d : BitVec 5) (a : BitVec 5)
  /-- POPC (R165): Counts the one bits of a scalar. -/
  | popc (p : BitVec 3) (d : BitVec 5) (a : BitVec 5)
  /-- MOV (R166): Copies one scalar register to another. -/
  | mov (p : BitVec 3) (d : BitVec 5) (a : BitVec 5)
  /-- MOV_TO_B (R166): Writes bits [19:0] of a scalar into a rotating base register. -/
  | movToB (p : BitVec 3) (d : BitVec 3) (a : BitVec 5)
  /-- MOV_FROM_B (R166): Writes a rotating base register into a scalar, zero-extended. -/
  | movFromB (p : BitVec 3) (d : BitVec 5) (a : BitVec 3)
  /-- CMP (R168): Compares two scalars under a signed or unsigned condition and writes a predicate. -/
  | cmp (p : BitVec 3) (q : BitVec 3) (a : BitVec 5) (b : BitVec 5) (cc : ScalarCc)
  /-- SEL (R168): Writes one of two scalars, chosen by a predicate. -/
  | sel (p : BitVec 3) (d : BitVec 5) (a : BitVec 5) (b : BitVec 5) (q : BitVec 3)
  /-- BFX (R165): Extracts a bit field of a scalar, zero-extended. -/
  | bfx (p : BitVec 3) (d : BitVec 5) (a : BitVec 5) (n : BitVec 6) (pos : BitVec 6)
  /-- BFI (R165): Inserts the low bits of a scalar into a bit field of the destination. -/
  | bfi (p : BitVec 3) (d : BitVec 5) (a : BitVec 5) (n : BitVec 6) (pos : BitVec 6)
  /-- PAND (R169): Writes the AND of two predicates. -/
  | pand (p : BitVec 3) (d : BitVec 3) (a : BitVec 3) (b : BitVec 3)
  /-- POR (R169): Writes the OR of two predicates. -/
  | por (p : BitVec 3) (d : BitVec 3) (a : BitVec 3) (b : BitVec 3)
  /-- PXOR (R169): Writes the XOR of two predicates. -/
  | pxor (p : BitVec 3) (d : BitVec 3) (a : BitVec 3) (b : BitVec 3)
  /-- PNOT (R169): Writes the inverse of a predicate. -/
  | pnot (p : BitVec 3) (d : BitVec 3) (a : BitVec 3)
  /-- ADDI (R163): Adds a sign-extended immediate to a scalar. -/
  | addi (p : BitVec 3) (e : Ext) (d : BitVec 5) (a : BitVec 5) (i : BitVec 12)
  /-- ANDI (R163): ANDs a scalar with a sign-extended immediate. -/
  | andi (p : BitVec 3) (e : Ext) (d : BitVec 5) (a : BitVec 5) (i : BitVec 12)
  /-- ORI (R163): ORs a scalar with a sign-extended immediate. -/
  | ori (p : BitVec 3) (e : Ext) (d : BitVec 5) (a : BitVec 5) (i : BitVec 12)
  /-- XORI (R163): XORs a scalar with a sign-extended immediate. -/
  | xori (p : BitVec 3) (e : Ext) (d : BitVec 5) (a : BitVec 5) (i : BitVec 12)
  /-- SHLI (R163): Shifts a scalar left by an immediate amount. -/
  | shli (p : BitVec 3) (d : BitVec 5) (a : BitVec 5) (n : BitVec 6)
  /-- SHRI (R163): Shifts a scalar right logically by an immediate amount. -/
  | shri (p : BitVec 3) (d : BitVec 5) (a : BitVec 5) (n : BitVec 6)
  /-- SARI (R163): Shifts a scalar right arithmetically by an immediate amount. -/
  | sari (p : BitVec 3) (d : BitVec 5) (a : BitVec 5) (n : BitVec 6)
  /-- LI (R167): Loads a sign-extended immediate into a scalar. -/
  | li (p : BitVec 3) (e : Ext) (d : BitVec 5) (i : BitVec 17)
  /-- LIH (R167): Shifts a scalar left by 16 and ORs in a 16-bit immediate. -/
  | lih (p : BitVec 3) (d : BitVec 5) (i : BitVec 16)
  /-- GETSR (R170): Reads a special register into a scalar; for CTLDATA it reads the control register at CTLADDR. -/
  | getsr (p : BitVec 3) (d : BitVec 5) (n : BitVec 10)
  /-- SETSR (R170): Writes a scalar to a special register at issue + 1, or for CTLDATA to the control register at CTLADDR. -/
  | setsr (p : BitVec 3) (a : BitVec 5) (n : BitVec 10)
  /-- SPILL (R171): Stores a scalar into a spill slot and allocates a cell on first use. -/
  | spill (p : BitVec 3) (a : BitVec 5) (k : BitVec 6)
  /-- FILL (R171): Reads a spill slot back into a scalar. -/
  | fill (p : BitVec 3) (d : BitVec 5) (k : BitVec 6)
  /-- BR (R172): Branches on a predicate to a relative target after one delay bundle. -/
  | br (q : BitVec 3) (e : Ext) (n : Bool) (o : BitVec 21)
  /-- JMP (R172): Jumps to an absolute instruction-store address after one delay bundle. -/
  | jmp (p : BitVec 3) (a : BitVec 14)
  /-- JMPR (R172): Jumps to the address held in a scalar. -/
  | jmpr (p : BitVec 3) (a : BitVec 5)
  /-- CALL (R172): Transfers to a relative target and writes the return address into a link register. -/
  | call (p : BitVec 3) (e : Ext) (d : BitVec 5) (o : BitVec 17)
  /-- RET (R172): Returns to the address held in a scalar. -/
  | ret (p : BitVec 3) (a : BitVec 5)
  /-- LPSET (R174): Sets the loop count, the number of rotating bases and the stage predicates. -/
  | lpset (p : BitVec 3) (a : BitVec 5) (n : BitVec 4)
  /-- LOOP (R175): Decrements the loop count, shifts the stage predicates, rotates the bases and branches while any stage is live. -/
  | loop (p : BitVec 3) (e : Ext) (o : BitVec 21)
  /-- END (R176): Ends the strand; when the holder executes it, its panel strand is finished. -/
  | endStrand
  /-- BAR (R177): Records the strand's arrival at its next timed barrier and waits for the release. -/
  | bar
  /-- TRAP (R178): Raises a precise SOFT trap carrying a 16-bit code. -/
  | trap (c : BitVec 16)
  /-- ERET (R179): Ends the firmware trap handler and issues the return point at + 2. -/
  | eret
  /-- FENCE (R180): Writes a status word that reports the covered writes of a scope. -/
  | fence (d : BitVec 5) (sc : Scope)
  /-- DRIFT (R183): Reads the phase error and moves the oscillator trim by a clamped amount. -/
  | drift (d : BitVec 5) (a : BitVec 5)
  /-- IDLE (R123): An idle bundle, which issues nothing for LEND + 1 cycles. -/
  | idle (n : BitVec 8)
  /-- LDS (R187): Loads 1 to 8 bytes from the own scratchpad at base plus a scaled offset. -/
  | lds (p : BitVec 3) (e : Ext) (d : BitVec 5) (base : Base) (z : Sz) (o : BitVec 8)
  /-- LDS_INDEXED (R187): Loads 1 to 8 bytes from the own scratchpad at base plus an index register. -/
  | ldsIndexed (p : BitVec 3) (d : BitVec 5) (base : Base) (z : Sz) (x : BitVec 5)
  /-- STS (R187): Stores 1 to 8 bytes to the own scratchpad at base plus a scaled offset. -/
  | sts (p : BitVec 3) (e : Ext) (d : BitVec 5) (base : Base) (z : Sz) (o : BitVec 8)
  /-- STS_INDEXED (R187): Stores 1 to 8 bytes to the own scratchpad at base plus an index register. -/
  | stsIndexed (p : BitVec 3) (d : BitVec 5) (base : Base) (z : Sz) (x : BitVec 5)
  /-- LDL (R188): Loads 1 to 8 bytes from the latent store through a handle at a scaled offset. -/
  | ldl (p : BitVec 3) (e : Ext) (d : BitVec 5) (h : BitVec 4) (z : Sz) (o : BitVec 8)
  /-- LDL_INDEXED (R188): Loads 1 to 8 bytes from the latent store through a handle at an index register. -/
  | ldlIndexed (p : BitVec 3) (d : BitVec 5) (h : BitVec 4) (z : Sz) (x : BitVec 5)
  /-- STL (R188): Stores 1 to 8 bytes to the latent store through a handle at a scaled offset. -/
  | stl (p : BitVec 3) (e : Ext) (d : BitVec 5) (h : BitVec 4) (z : Sz) (o : BitVec 8)
  /-- STL_INDEXED (R188): Stores 1 to 8 bytes to the latent store through a handle at an index register. -/
  | stlIndexed (p : BitVec 3) (d : BitVec 5) (h : BitVec 4) (z : Sz) (x : BitVec 5)
  /-- XLAT (R189): Forms a handle from a virtual span through the span cache and starts a walk on a miss. -/
  | xlat (p : BitVec 3) (h : BitVec 4) (a : BitVec 5) (b : BitVec 5)
  /-- HCHK (R190): Copies a handle's status into a scalar and its residency into a predicate. -/
  | hchk (p : BitVec 3) (d : BitVec 5) (h : BitVec 4) (q : BitVec 3)
  /-- HINV (R191): Privileged: starts a shoot-down of a range of groups. -/
  | hinv (p : BitVec 3) (a : BitVec 5) (b : BitVec 5)
  /-- AADD (R192): Atomically adds to a latent-store word and returns the old value. -/
  | aadd (p : BitVec 3) (d : BitVec 5) (h : BitVec 4) (i : BitVec 5) (x : BitVec 5) (z : Aw)
  /-- AMIN (R192): Atomic signed minimum on a latent-store word. -/
  | amin (p : BitVec 3) (d : BitVec 5) (h : BitVec 4) (i : BitVec 5) (x : BitVec 5) (z : Aw)
  /-- AMAX (R192): Atomic signed maximum on a latent-store word. -/
  | amax (p : BitVec 3) (d : BitVec 5) (h : BitVec 4) (i : BitVec 5) (x : BitVec 5) (z : Aw)
  /-- AMINN (R192): Atomic unsigned minimum on a latent-store word. -/
  | aminn (p : BitVec 3) (d : BitVec 5) (h : BitVec 4) (i : BitVec 5) (x : BitVec 5) (z : Aw)
  /-- AMAXN (R192): Atomic unsigned maximum on a latent-store word. -/
  | amaxn (p : BitVec 3) (d : BitVec 5) (h : BitVec 4) (i : BitVec 5) (x : BitVec 5) (z : Aw)
  /-- AAND (R192): Atomic AND on a latent-store word. -/
  | aand (p : BitVec 3) (d : BitVec 5) (h : BitVec 4) (i : BitVec 5) (x : BitVec 5) (z : Aw)
  /-- AOR (R192): Atomic OR on a latent-store word. -/
  | aor (p : BitVec 3) (d : BitVec 5) (h : BitVec 4) (i : BitVec 5) (x : BitVec 5) (z : Aw)
  /-- AXOR (R192): Atomic XOR on a latent-store word. -/
  | axor (p : BitVec 3) (d : BitVec 5) (h : BitVec 4) (i : BitVec 5) (x : BitVec 5) (z : Aw)
  /-- ASWP (R192): Atomic swap on a latent-store word. -/
  | aswp (p : BitVec 3) (d : BitVec 5) (h : BitVec 4) (i : BitVec 5) (x : BitVec 5) (z : Aw)
  /-- ACAS (R192): Atomic compare-and-swap on a latent-store word. -/
  | acas (p : BitVec 3) (d : BitVec 5) (h : BitVec 4) (i : BitVec 5) (x : BitVec 5) (z : Aw)
  /-- QINIT (R193): Initialises a slice-resident queue for a tenant. -/
  | qinit (p : BitVec 3) (a : BitVec 5) (b : BitVec 5)
  /-- QENQ (R193): Enqueues a value on a slice queue, handing it to the oldest waiter if there is one. -/
  | qenq (p : BitVec 3) (d : BitVec 5) (a : BitVec 5) (b : BitVec 5)
  /-- QDEQ (R195): Dequeues from a slice queue, blocking the context while the queue is empty. -/
  | qdeq (p : BitVec 3) (d : BitVec 5) (a : BitVec 5)
  /-- QTRY (R193): Tries to dequeue and reports success in a predicate. -/
  | qtry (p : BitVec 3) (d : BitVec 5) (a : BitVec 5) (q : BitVec 3)
  /-- QLEN (R193): Returns the entry count of a slice queue. -/
  | qlen (p : BitVec 3) (d : BitVec 5) (a : BitVec 5)
  /-- RLD (R199): Loads from another strand's scratchpad over the mesh. -/
  | rld (p : BitVec 3) (e : Ext) (d : BitVec 5) (k : BitVec 5) (a : BitVec 5) (z : Sz) (o : BitVec 5)
  /-- RST (R199): Stores into another strand's scratchpad over the mesh. -/
  | rst (p : BitVec 3) (e : Ext) (d : BitVec 5) (k : BitVec 5) (a : BitVec 5) (z : Sz) (o : BitVec 5)
  /-- VLD (R219): Loads one scratchpad line into a vector register. -/
  | vld (p : BitVec 3) (e : Ext) (v : BitVec 5) (base : Base) (o : BitVec 8) (m : BitVec 3)
  /-- VST (R219): Stores the unmasked lanes of a vector into a scratchpad line. -/
  | vst (p : BitVec 3) (e : Ext) (v : BitVec 5) (base : Base) (o : BitVec 8) (m : BitVec 3)
  /-- VLDS (R220): Loads lanes from scratchpad words at a scalar stride. -/
  | vlds (p : BitVec 3) (e : Ext) (v : BitVec 5) (a : BitVec 5) (b : BitVec 5) (m : BitVec 3)
  /-- VLDX (R221): Gathers lanes from scratchpad addresses given by an index vector. -/
  | vldx (p : BitVec 3) (e : Ext) (v : BitVec 5) (a : BitVec 5) (b : BitVec 5) (m : BitVec 3)
  /-- VSTX (R221): Scatters lanes to scratchpad addresses given by an index vector. -/
  | vstx (p : BitVec 3) (e : Ext) (v : BitVec 5) (a : BitVec 5) (b : BitVec 5) (m : BitVec 3)
  /-- VLDL (R222): Loads one latent-store line through a handle into a vector register. -/
  | vldl (p : BitVec 3) (e : Ext) (v : BitVec 5) (h : BitVec 4) (o : BitVec 8) (m : BitVec 3)
  /-- VSTL (R222): Stores the unmasked lanes of a vector into a latent-store line through a handle. -/
  | vstl (p : BitVec 3) (e : Ext) (v : BitVec 5) (h : BitVec 4) (o : BitVec 8) (m : BitVec 3)
  /-- VADD (R223): Element-wise addition. -/
  | vadd (p : BitVec 3) (e : Ext) (v : BitVec 5) (a : BitVec 5) (b : BitVec 5) (t : LaneTy) (m : BitVec 3)
  /-- VSUB (R223): Element-wise subtraction. -/
  | vsub (p : BitVec 3) (e : Ext) (v : BitVec 5) (a : BitVec 5) (b : BitVec 5) (t : LaneTy) (m : BitVec 3)
  /-- VMUL (R223): Element-wise multiplication. -/
  | vmul (p : BitVec 3) (e : Ext) (v : BitVec 5) (a : BitVec 5) (b : BitVec 5) (t : LaneTy) (m : BitVec 3)
  /-- VFMA (R223): Element-wise fused multiply-add into the destination. -/
  | vfma (p : BitVec 3) (e : Ext) (v : BitVec 5) (a : BitVec 5) (b : BitVec 5) (t : LaneTy) (m : BitVec 3)
  /-- VFMS (R223): Element-wise fused multiply-subtract from the destination. -/
  | vfms (p : BitVec 3) (e : Ext) (v : BitVec 5) (a : BitVec 5) (b : BitVec 5) (t : LaneTy) (m : BitVec 3)
  /-- VMIN (R224): Element-wise minimum. -/
  | vmin (p : BitVec 3) (e : Ext) (v : BitVec 5) (a : BitVec 5) (b : BitVec 5) (t : LaneTy) (m : BitVec 3)
  /-- VMAX (R224): Element-wise maximum. -/
  | vmax (p : BitVec 3) (e : Ext) (v : BitVec 5) (a : BitVec 5) (b : BitVec 5) (t : LaneTy) (m : BitVec 3)
  /-- VABS (R224): Element-wise absolute value. -/
  | vabs (p : BitVec 3) (e : Ext) (v : BitVec 5) (a : BitVec 5) (t : LaneTy) (m : BitVec 3)
  /-- VNEG (R224): Element-wise negation. -/
  | vneg (p : BitVec 3) (e : Ext) (v : BitVec 5) (a : BitVec 5) (t : LaneTy) (m : BitVec 3)
  /-- VDIV (R225): Element-wise IEEE division, correctly rounded. -/
  | vdiv (p : BitVec 3) (e : Ext) (v : BitVec 5) (a : BitVec 5) (b : BitVec 5) (t : LaneTy) (m : BitVec 3)
  /-- VSQRT (R225): Element-wise IEEE square root. -/
  | vsqrt (p : BitVec 3) (e : Ext) (v : BitVec 5) (a : BitVec 5) (t : LaneTy) (m : BitVec 3)
  /-- VSQRT_PV (R225): Pivot square root: a non-positive or NaN element gives the canonical NaN and sets PIVOT. -/
  | vsqrtPv (p : BitVec 3) (e : Ext) (v : BitVec 5) (a : BitVec 5) (t : LaneTy) (m : BitVec 3)
  /-- VRCP (R226): Correctly rounded reciprocal. -/
  | vrcp (p : BitVec 3) (e : Ext) (v : BitVec 5) (a : BitVec 5) (t : LaneTy) (m : BitVec 3)
  /-- VRSQ (R226): Correctly rounded reciprocal square root. -/
  | vrsq (p : BitVec 3) (e : Ext) (v : BitVec 5) (a : BitVec 5) (t : LaneTy) (m : BitVec 3)
  /-- VEXP2 (R226): Correctly rounded base-2 exponential. -/
  | vexp2 (p : BitVec 3) (e : Ext) (v : BitVec 5) (a : BitVec 5) (t : LaneTy) (m : BitVec 3)
  /-- VLOG2 (R226): Correctly rounded base-2 logarithm. -/
  | vlog2 (p : BitVec 3) (e : Ext) (v : BitVec 5) (a : BitVec 5) (t : LaneTy) (m : BitVec 3)
  /-- VSINPI (R226): Correctly rounded sin(pi·a). -/
  | vsinpi (p : BitVec 3) (e : Ext) (v : BitVec 5) (a : BitVec 5) (t : LaneTy) (m : BitVec 3)
  /-- VCOSPI (R226): Correctly rounded cos(pi·a). -/
  | vcospi (p : BitVec 3) (e : Ext) (v : BitVec 5) (a : BitVec 5) (t : LaneTy) (m : BitVec 3)
  /-- VCMP (R227): Compares the lanes of two vectors and writes a mask. -/
  | vcmp (p : BitVec 3) (e : Ext) (d : BitVec 3) (cc : VecCc) (a : BitVec 5) (b : BitVec 5) (t : LaneTy) (m : BitVec 3)
  /-- VSEL (R228): Selects each lane from one of two vectors under a mask. -/
  | vsel (p : BitVec 3) (e : Ext) (v : BitVec 5) (a : BitVec 5) (b : BitVec 5) (ms : BitVec 3)
  /-- VAND (R229): Bitwise AND of two vectors. -/
  | vand (p : BitVec 3) (e : Ext) (v : BitVec 5) (a : BitVec 5) (b : BitVec 5) (m : BitVec 3)
  /-- VOR (R229): Bitwise OR of two vectors. -/
  | vor (p : BitVec 3) (e : Ext) (v : BitVec 5) (a : BitVec 5) (b : BitVec 5) (m : BitVec 3)
  /-- VXOR (R229): Bitwise XOR of two vectors. -/
  | vxor (p : BitVec 3) (e : Ext) (v : BitVec 5) (a : BitVec 5) (b : BitVec 5) (m : BitVec 3)
  /-- VNOT (R229): Bitwise inverse of a vector. -/
  | vnot (p : BitVec 3) (e : Ext) (v : BitVec 5) (a : BitVec 5) (m : BitVec 3)
  /-- VSHL (R229): Element-wise left shift. -/
  | vshl (p : BitVec 3) (e : Ext) (v : BitVec 5) (a : BitVec 5) (b : BitVec 5) (t : LaneTy) (m : BitVec 3)
  /-- VSHR (R229): Element-wise logical right shift. -/
  | vshr (p : BitVec 3) (e : Ext) (v : BitVec 5) (a : BitVec 5) (b : BitVec 5) (t : LaneTy) (m : BitVec 3)
  /-- VSAR (R229): Element-wise arithmetic right shift. -/
  | vsar (p : BitVec 3) (e : Ext) (v : BitVec 5) (a : BitVec 5) (b : BitVec 5) (t : LaneTy) (m : BitVec 3)
  /-- MAND (R230): AND of two mask registers. -/
  | mand (p : BitVec 3) (e : Ext) (d : BitVec 3) (a : BitVec 3) (b : BitVec 3)
  /-- MOR (R230): OR of two mask registers. -/
  | mor (p : BitVec 3) (e : Ext) (d : BitVec 3) (a : BitVec 3) (b : BitVec 3)
  /-- MNOT (R230): Inverse of a mask register. -/
  | mnot (p : BitVec 3) (e : Ext) (d : BitVec 3) (a : BitVec 3)
  /-- VPOPM (R230): Writes the number of set bits of a mask into a holder scalar. -/
  | vpopm (p : BitVec 3) (e : Ext) (d : BitVec 5) (a : BitVec 3)
  /-- VCVT (R231): Converts the lanes between the accepted type pairs. -/
  | vcvt (p : BitVec 3) (e : Ext) (v : BitVec 5) (a : BitVec 5) (st : LaneTy) (t : LaneTy) (m : BitVec 3)
  /-- VQNT (R233): Encodes 32 elements as one block with its descriptor. -/
  | vqnt (p : BitVec 3) (e : Ext) (v : BitVec 5) (a : BitVec 5) (ec : ElemCode) (t : LaneTy)
  /-- VDQNT (R234): Decodes a block held in a vector register. -/
  | vdqnt (p : BitVec 3) (e : Ext) (v : BitVec 5) (a : BitVec 5) (ec : ElemCode) (t : LaneTy)
  /-- VPACK (R232): Narrows two vectors into one packed vector. -/
  | vpack (p : BitVec 3) (e : Ext) (v : BitVec 5) (a : BitVec 5) (b : BitVec 5) (t : LaneTy) (m : BitVec 3)
  /-- VUNPK (R232): Widens the selected half of a packed vector. -/
  | vunpk (p : BitVec 3) (e : Ext) (v : BitVec 5) (a : BitVec 5) (hi : Bool) (t : LaneTy) (m : BitVec 3)
  /-- VPERM (R235): Permutes lanes by an index vector. -/
  | vperm (p : BitVec 3) (e : Ext) (v : BitVec 5) (a : BitVec 5) (b : BitVec 5) (m : BitVec 3)
  /-- VBCAST (R235): Broadcasts a scalar to every unmasked lane. -/
  | vbcast (p : BitVec 3) (e : Ext) (v : BitVec 5) (a : BitVec 5) (m : BitVec 3)
  /-- VEXT (R235): Extracts one lane into a holder scalar. -/
  | vext (p : BitVec 3) (e : Ext) (d : BitVec 5) (a : BitVec 5) (n : BitVec 4)
  /-- VINS (R235): Inserts a scalar into one lane. -/
  | vins (p : BitVec 3) (e : Ext) (v : BitVec 5) (a : BitVec 5) (n : BitVec 4)
  /-- VRSUM (R236): Sums the selected elements exactly through XA into lane 0. -/
  | vrsum (p : BitVec 3) (e : Ext) (v : BitVec 5) (a : BitVec 5) (t : LaneTy) (m : BitVec 3)
  /-- VRMAX (R237): Writes the largest selected element into lane 0. -/
  | vrmax (p : BitVec 3) (e : Ext) (v : BitVec 5) (a : BitVec 5) (t : LaneTy) (m : BitVec 3)
  /-- VRMIN (R237): Writes the smallest selected element into lane 0. -/
  | vrmin (p : BitVec 3) (e : Ext) (v : BitVec 5) (a : BitVec 5) (t : LaneTy) (m : BitVec 3)
  /-- VDOT (R236): Computes the exact dot product of two vectors into lane 0. -/
  | vdot (p : BitVec 3) (e : Ext) (v : BitVec 5) (a : BitVec 5) (b : BitVec 5) (t : LaneTy) (m : BitVec 3)
  /-- VDELTA (R238): Writes the L-infinity distance of two vectors into lane 0. -/
  | vdelta (p : BitVec 3) (e : Ext) (v : BitVec 5) (a : BitVec 5) (b : BitVec 5) (t : LaneTy) (m : BitVec 3)
  /-- VRND (R239): Pops a random-bits vector into a vector register. -/
  | vrnd (p : BitVec 3) (e : Ext) (v : BitVec 5) (m : BitVec 3)
  /-- VGAUSS (R240): Pops a random-bits vector and writes normal deviates. -/
  | vgauss (p : BitVec 3) (e : Ext) (v : BitVec 5) (m : BitVec 3)
  /-- XCP (R241): Copies a register lane by lane from another cluster. -/
  | xcp (p : BitVec 3) (e : Ext) (v : BitVec 5) (a : BitVec 5) (n : BitVec 3) (m : BitVec 3)
  /-- XBC (R241): Broadcasts lane c of another cluster's register to every lane. -/
  | xbc (p : BitVec 3) (e : Ext) (v : BitVec 5) (a : BitVec 5) (n : BitVec 3) (m : BitVec 3)
  /-- TLD (R245): Loads a tile from the scratchpad, two rows per bank cycle. -/
  | tld (p : BitVec 3) (e : Ext) (t : BitVec 4) (base : Base) (r : BitVec 5) (o : BitVec 7)
  /-- TST (R245): Stores a tile to the scratchpad. -/
  | tst (p : BitVec 3) (e : Ext) (t : BitVec 4) (base : Base) (r : BitVec 5) (o : BitVec 7)
  /-- TLDL (R246): Streams a tile from 128 latent-store lines through a handle at a scaled offset. -/
  | tldl (p : BitVec 3) (e : Ext) (t : BitVec 4) (h : BitVec 4) (o : BitVec 13)
  /-- TLDL_INDEXED (R246): Streams a tile from the latent store through a handle at an index register. -/
  | tldlIndexed (p : BitVec 3) (t : BitVec 4) (h : BitVec 4) (i : BitVec 5)
  /-- TSTL (R246): Streams a tile to 128 latent-store lines through a handle at a scaled offset. -/
  | tstl (p : BitVec 3) (e : Ext) (t : BitVec 4) (h : BitVec 4) (o : BitVec 13)
  /-- TSTL_INDEXED (R246): Streams a tile to the latent store through a handle at an index register. -/
  | tstlIndexed (p : BitVec 3) (t : BitVec 4) (h : BitVec 4) (i : BitVec 5)
  /-- TZERO (R247): Clears a tile register and its poison marks. -/
  | tzero (p : BitVec 3) (d : BitVec 4)
  /-- TTR (R247): Transposes a 16-bit tile. -/
  | ttr (p : BitVec 3) (d : BitVec 4) (a : BitVec 4)
  /-- TCP (R247): Copies a tile together with its poison marks. -/
  | tcp (p : BitVec 3) (d : BitVec 4) (a : BitVec 4)
  /-- LATCH (R248): Loads a stationary latch from a B tile, popping descriptors and forming the pre-adds. -/
  | latch (p : BitVec 3) (n : BitVec 2) (a : BitVec 4)
  /-- MMA (R251): Multiplies a tile by a latch in seven-product order and merges the terms into an accumulator. -/
  | mma (p : BitVec 3) (c : BitVec 2) (a : BitVec 4) (l : BitVec 2) (f : MmaForm)
  /-- MMA_CL (R258): Multiplies a tile by a latch in classical order and merges the terms into an accumulator. -/
  | mmaCl (p : BitVec 3) (c : BitVec 2) (a : BitVec 4) (l : BitVec 2) (f : MmaForm)
  /-- ACZ (R261): Clears an accumulator and sets its anchor. -/
  | acz (p : BitVec 3) (e : Ext) (a : BitVec 2) (i : BitVec 12)
  /-- ACRD (R262): Reads an accumulator out into a tile, rounding each element. -/
  | acrd (p : BitVec 3) (d : BitVec 4) (n : BitVec 2) (f : AcrdFmt) (r : Rm) (ov : Ovf) (hi : Bool)
  /-- ACADD (R263): Merges one accumulator into another. -/
  | acadd (p : BitVec 3) (n : BitVec 2) (m : BitVec 2)
  /-- ACWR (R264): Sets an accumulator from the values of a tile. -/
  | acwr (p : BitVec 3) (n : BitVec 2) (a : BitVec 4)
  /-- ACSAVE (R265): Privileged: saves an accumulator to the scratchpad as records. -/
  | acsave (p : BitVec 3) (e : Ext) (n : BitVec 2) (base : Base) (o : BitVec 7)
  /-- ACREST (R265): Privileged: restores an accumulator from scratchpad records. -/
  | acrest (p : BitVec 3) (e : Ext) (n : BitVec 2) (base : Base) (o : BitVec 7)
  /-- MSTAT (R266): Reads MSTAT into a scalar and clears the returned flags. -/
  | mstat (p : BitVec 3) (d : BitVec 5)
  /-- STAGE (R206): Increments the panel's stage counter, which releases the copy entries of that stage. -/
  | stage (p : BitVec 3)
  /-- CPY (R207): Reads a copy-entry image from the scratchpad, checks it and runs it as a timed or untimed copy. -/
  | cpy (p : BitVec 3) (e : Ext) (base : Base) (o : BitVec 11)
  /-- DISCARD (R208): Cancels pending write-backs of a handle range that perform after d. -/
  | discard (p : BitVec 3) (h : BitVec 4) (b : BitVec 5) (c : BitVec 5)
  /-- PGREQ (R209): Requests that a span page be brought into its HBM4E frame, and writes a status word. -/
  | pgreq (p : BitVec 3) (d : BitVec 5) (h : BitVec 4) (c : BitVec 5)
  /-- SQLD (R210): Pushes the 32 descriptors of a scratchpad line into the scale queue. -/
  | sqld (p : BitVec 3) (e : Ext) (base : Base) (o : BitVec 11)
  /-- SQPSH (R210): Pushes one descriptor into the scale queue. -/
  | sqpsh (p : BitVec 3) (a : BitVec 5)
  /-- SQCLR (R210): Empties the scale queue. -/
  | sqclr (p : BitVec 3)
  /-- SEND (R201): Sends scratchpad lines to a receive slot of another rank. -/
  | send (p : BitVec 3) (a : BitVec 5) (b : BitVec 5) (c : BitVec 5) (f : BitVec 3)
  /-- RECV (R201): Arms a receive slot for lines from a sender. -/
  | recv (p : BitVec 3) (a : BitVec 5) (b : BitVec 5) (c : BitVec 5) (f : BitVec 3)
  /-- NRED (R204): Reduces the accumulators of a group of ranks into the root's accumulator. -/
  | nred (p : BitVec 3) (n : BitVec 2) (b : BitVec 5) (f : BitVec 7)
  /-- NBC (R205): Broadcasts scratchpad lines from the root to a group of ranks. -/
  | nbc (p : BitVec 3) (a : BitVec 5) (b : BitVec 5) (c : BitVec 5) (f : BitVec 7)
  /-- RQSEED (R211): Sets the random seed, resets POS and empties the random-bits queue. -/
  | rqseed (p : BitVec 3) (a : BitVec 5)
  /-- RQPOS (R211): Sets POS and empties the random-bits queue. -/
  | rqpos (p : BitVec 3) (a : BitVec 5)
  /-- CONTROL_REGISTER_WRITE (R350): A write to a control-space register that has no behaviour of its own. -/
  | controlRegisterWrite (host : Bool) (off : Nat) (v : BitVec 64)
  /-- ETHCNT_CLEAR (R350): Any write to ETHCNTp clears both of its counters. -/
  | ethcntClear (port : Nat)
  /-- HOST_MEMORY_WRITE (R278): A host posted write through BAR2 performs in HBM4E or the latent store in acceptance order. -/
  | hostMemoryWrite (addr : Nat) (bytes : List (BitVec 8))
  /-- HOST_MEMORY_READ (R278): A host read through BAR2 performs after the host's earlier posted writes and returns data. -/
  | hostMemoryRead (addr : Nat) (n : Nat)
  /-- COMMIT (R41): A write of MEMCTL.COMMIT checks the shadow slot table and schedules the switch to it. -/
  | commit (part : Nat)
  /-- SLOT_TABLE_SWITCH (R41): At a frame start after the old admissions have performed, the controller switches to the new slot table. -/
  | slotTableSwitch (part : Nat)
  /-- MAINTENANCE_SLOT (R43): A maintenance slot issues the highest-priority due command. -/
  | maintenanceSlot (part : Nat) (pc : Nat)
  /-- PER_BANK_REFRESH_DUE (R42): The REFINT interval expires and a per-bank refresh falls due. -/
  | perBankRefreshDue (part : Nat) (pc : Nat)
  /-- REFRESH_MANAGEMENT_DUE (R42): A bank's activation count reaches LEVEL and a refresh-management command falls due. -/
  | refreshManagementDue (part : Nat) (pc : Nat) (bank : Nat)
  /-- TEST (R48): A write of PARKSEL.TEST starts the built-in memory test of a parked bank. -/
  | test (part : Nat)
  /-- FAQPOP (R41): Any write removes the oldest fault-address entry. -/
  | faqpop (part : Nat)
  /-- FAULT_ADDRESS_ENTRY (R45): A fault-address entry is written or dropped, and the driver is signalled. -/
  | faultAddressEntry (part : Nat) (entry : BitVec 128)
  /-- HBM_ACCESS_PERFORM (R40): An admitted access performs at sigma + 80, with ECC and poison handling. -/
  | hbmAccessPerform (id : Nat)
  /-- HBM_READ_DELIVER (R39): Read data and poison tags are delivered at t + 512. -/
  | hbmReadDeliver (id : Nat)
  /-- CXLDOWN (R51): A CXL port's link goes down and its outstanding page copies complete poisoned. -/
  | cxldown (port : Nat)
  /-- RETRAIN (R357): A write of CXLPST.RETRAIN retrains a CXL port. -/
  | retrain (port : Nat) (ok : Bool)
  /-- EVICTION_COMPLETE (R52): The device completes the last write of an eviction; BUSY falls and STAT is set. -/
  | evictionComplete (ok : Bool)
  /-- SPAN_WALK_COMPLETE (R56): An untimed page-table walk completes and fills the span cache. -/
  | spanWalkComplete (die : Nat) (space : Nat) (group : Nat)
  /-- SDCTL_GO (R61): Starts a shoot-down, whose revoking cycle is the take plus 64. -/
  | sdctlGo (part : Nat)
  /-- SHOOTDOWN_REVOKE (R61): At rho, covered handles are revoked, span-cache entries dropped and epochs incremented. -/
  | shootdownRevoke (parts : Nat)
  /-- PREFETCH_READ_PRESENT (R76): The access processor presents source reads of open entries as staging space allows. -/
  | prefetchReadPresent (run : Nat)
  /-- COPY_ENTRY_START (R71): A released copy entry starts at its start cycle and takes its channel. -/
  | copyEntryStart (run : Nat)
  /-- COPY_LINE_TRANSFER (R72): A copy line is read from its source and lands at its landing cycle. -/
  | copyLineTransfer (run : Nat) (line : Nat)
  /-- WRITEBACK_PRESENT (R72): A write-back line is presented to the memory controller. -/
  | writebackPresent (run : Nat) (line : Nat)
  /-- WRITEBACK_RETRY (R79): At a frame start, a refused write-back is presented again. -/
  | writebackRetry (id : Nat)
  /-- LATE_WARNING (R78): A line not yet buffered, or too little write-back space, freezes the panel and sets LATE. -/
  | lateWarning (run : Nat)
  /-- UNTIMED_REQUEST_SERVE (R81): The access processor serves an untimed CPY from its delivery queue in free cycles. -/
  | untimedRequestServe (ap : Nat)
  /-- PGREQ_COMPLETE (R82): A page copy completes and sets RES in the page table, the span caches and live handles. -/
  | pgreqComplete (id : Nat) (ok : Bool)
  /-- QUEUE_OPERATION (R95): The queue engine performs an untimed queue operation when it arrives. -/
  | queueOperation (id : Nat)
  /-- CONTEXT_WAKE (R117): A blocked context becomes ready when its queue delivers or a delivery-queue place frees. -/
  | contextWake (core : Nat) (ctx : Nat)
  /-- CONTEXT_SWITCH (R116): A 12 sc switch hands the core's issue cycles to another context or back to the holder. -/
  | contextSwitch (core : Nat) (ctx : Nat)
  /-- RANDOM_QUEUE_REFILL (R111): At the end of an sc, the generator appends a random-bits vector to a queue that is not full. -/
  | randomQueueRefill (core : Nat)
  /-- RCINV_GO (R101): Starts a reuse-cache invalidation with effect cycle rho. -/
  | rcinvGo (die : Nat)
  /-- RC_INVALIDATE_EFFECT (R101): At rho, V is cleared in every matching reuse-cache header. -/
  | rcInvalidateEffect (die : Nat)
  /-- BARRIER_RELEASE (R177): A barrier releases at the latest arrival plus Lb, and the waiting strands issue. -/
  | barrierRelease (panel : Nat)
  /-- FENCE_DRAIN_DONE (R181): In a non-holder context, the covered writes have performed and the FENCE status is written. -/
  | fenceDrainDone (core : Nat) (ctx : Nat)
  /-- LAUNCH_RECORD_TAKE (R298): A launch record is taken from a PCIe window, checked and queued or refused. -/
  | launchRecordTake (tenant : Nat)
  /-- ETH_LAUNCH_FRAME (R302): An Ethernet launch frame is checked, authenticated and taken, refused or dropped. -/
  | ethLaunchFrame (port : Nat) (frame : List (BitVec 8))
  /-- EVTPOP (R299): Any write removes the oldest event of a tenant's event ring. -/
  | evtpop (tenant : Nat)
  /-- CANCEL (R307): A write of TENCTL.CANCEL cancels the tenant's active run and freezes its panels. -/
  | cancel (tenant : Nat)
  /-- FLUSH (R297): A write of TENCTL.FLUSH refuses every queued run that has not started, with code CANCELLED. -/
  | flush (tenant : Nat)
  /-- RUN_START (R304): A run at the head of its queue is validated, then started or refused. -/
  | runStart (tenant : Nat)
  /-- STEP_BEGIN (R307): The walker reads a step row, loads the loop registers and readies the root nodes. -/
  | stepBegin (run : Nat)
  /-- NODE_COMPLETE (R274): A node completes, and the walker writes its header and decrements its successors. -/
  | nodeComplete (run : Nat) (node : Nat)
  /-- REUSE_GATE_DECISION (R309): The walker decides for a gated node whether to compute it or skip it. -/
  | reuseGateDecision (run : Nat) (node : Nat)
  /-- SIGNAL_NODE (R306): A signal node appends a TYPE 1 event once its predecessors' writes have performed. -/
  | signalNode (run : Nat) (node : Nat)
  /-- RUN_RETIRE (R307): A run retires and appends its event once there is room in the ring. -/
  | runRetire (run : Nat)
  /-- OVERLAY_LOAD (R289): The dispatcher loads a CODE section into an instruction-store slot and writes its tag. -/
  | overlayLoad (panel : Nat)
  /-- PANEL_START (R288): A placed panel starts at the first SCYC at which every start condition holds. -/
  | panelStart (panel : Nat)
  /-- CORE_FREE (R291): A core is freed after the last activity that involves it. -/
  | coreFree (core : Nat)
  /-- PREEMPT_SAVE (R343): At P the panel stops issuing, drains into shadow and carried records, and its save begins. -/
  | preemptSave (panel : Nat)
  /-- SAVE_COMPLETE (R343): The save image of a pre-empted core is complete. -/
  | saveComplete (panel : Nat) (core : Nat)
  /-- PANEL_RESUME (R347): A saved panel is placed again, restored and resumed, and its records are applied at their DUE. -/
  | panelResume (panel : Nat)
  /-- START_MARKER (R318): A package receives its first start marker, loads SCYC and forwards the marker. -/
  | startMarker (port : Nat) (scyc : BitVec 64)
  /-- SYNC_MARKER (R319): A sync marker arrives and the phase error E is measured. -/
  | syncMarker (port : Nat) (err : BitVec 32)
  /-- SYNCLOSS (R322): Lost alignment, or a reference silent for too long, fails the package's hedge panels. -/
  | syncloss (lost : Bool)
  /-- LINK_TRAINING (R317): A Gramer port is trained to a whole-cycle latency and set UP. -/
  | linkTraining (port : Nat) (lat : Nat) (peer : Nat)
  /-- GRAMER_LINK_DOWN (R331): A Gramer link fails and its port sets UP to 0. -/
  | gramerLinkDown (port : Nat)
  /-- FREEZE_BEGIN (R324): A freeze window begins and every part of the panel stops. -/
  | freezeBegin (panel : Nat)
  /-- FREEZE_END (R324): A freeze window ends at a multiple of 128 sc and the panel's PCYC advances again. -/
  | freezeEnd (panel : Nat)
  /-- POWER_INTERVAL_END (R329): At the end of each 100 us interval, FDUTY is adjusted. -/
  | powerIntervalEnd (avg : BitVec 32)
  /-- TEMPERATURE_SAMPLE (R330): TJ is sampled every 8,192 sc, and admission and freeze duty are updated. -/
  | temperatureSample (tj : BitVec 8)
  /-- HARDWARE_FAULT_DETECT (R338): A hardware fault is detected and is masked, poisons data or fails the affected panels. -/
  | hardwareFaultDetect (cls : Nat) (unit : Nat) (ten : Option Nat) (detail : BitVec 32)
  /-- FAULT_REPORT_ENTRY (R339): A fault-report entry is written and the host is signalled. -/
  | faultReportEntry (entry : BitVec 128)
  /-- ILLEGAL_BUNDLE (R143): A bundle with a reserved opcode, a bad header or another decode-time fault raises ILLEGAL, commits no slot and stops issue. -/
  | illegalBundle (cause : Nat) (smask : BitVec 13) (word : BitVec 32)
  /-- PARK (R48): A write of PARKSEL.PARK parks a bank or releases it, and clearing PARK during a self-test stops the test and sets TSTAT to 3. -/
  | park (part : Nat) (on : Bool)
  /-- FUNDAMENTAL_RESET (R315): A fundamental reset zeroes SCYC and starts the boot ROM. -/
  | fundamentalReset
  /-- BOOTCTL_GO (R358): A write of BOOTCTL.GO makes the boot ROM verify the staged firmware image. -/
  | bootctlGo
  /-- BOOT_VERIFY_DONE (R358): Verification ends: the image is refused, or it is measured, loaded and the firmware context started. -/
  | bootVerifyDone
  /-- BOOTCTL_RESTART (R358): Restarts a halted firmware context at ENTRY without verification. -/
  | bootctlRestart
  /-- READY (R358): The firmware writes BOOTSTAT.READY, after which launch records are taken. -/
  | ready
  /-- ATTCTL_GO (R359): Starts an attestation report over M, the nonce and the log. -/
  | attctlGo
  /-- ATTEST_REPORT_COMPLETE (R359): The key index is persisted and the LMS signature is written, which ends BUSY. -/
  | attestReportComplete
  /-- EVCTL_GO (R52): Starts the eviction engine's copy of an HBM4E page to the second tier. -/
  | evctlGo
  /-- PANEL_PLACE (R287): The dispatcher chooses the next panel task and places it by a translation. -/
  | panelPlace
  /-- SYNCCTL_START (R318): Starts the hedge on the root, or loads SCYC for a hedge of one package. -/
  | syncctlStart
  /-- FRQPOP (R340): Any write removes the oldest fault-report entry. -/
  | frqpop
  /-- PARTCTL_GO (R354): Checks the partition shadows and, if they pass, commits a partition change. -/
  | partctlGo
  /-- PARTITION_CHANGE (R355): At the change cycle, the live fields switch, a shoot-down runs and the involved blocks reset. -/
  | partitionChange
  deriving DecidableEq, Repr

end Sys2Proof
end

