-- ==== Sys2Proof/WellFormed.lean ====
section
/-!
DEFINITION. Well-formed instructions: the operand values that the entry of an instruction accepts (R132: a code that the
entry does not accept raises ILLEGAL with cause FIELD).
-/
namespace Sys2Proof

/-- LEND[7:3] = 0 in VR and VC words (Table 8.4). -/
def Ext.vrOk : Ext → Bool
  | none => true
  | some l => decide (l.toNat < 8)

/-- Floating lane types (Table 11.1). -/
def LaneTy.isFloat : LaneTy → Bool
  | .f32 | .bf16x2 | .f16x2 => true
  | .i32 | .n32 | .i16x2 | .i8x4 => false

/-- The types of VCMP (R227). -/
def LaneTy.cmpOk : LaneTy → Bool
  | .f32 | .i32 | .n32 => true
  | .bf16x2 | .f16x2 | .i16x2 | .i8x4 => false

/-- The packed types of VPACK and VUNPK (Table 11.5). -/
def LaneTy.isPacked : LaneTy → Bool
  | .bf16x2 | .f16x2 | .i16x2 | .i8x4 => true
  | .f32 | .i32 | .n32 => false

/-- The pairs of Table 11.4, as (destination, source). -/
def cvtPair : LaneTy → LaneTy → Bool
  | .i32, .f32 | .n32, .f32 | .f32, .i32 | .f32, .n32 | .n32, .i32 | .i32, .n32 => true
  | .f16x2, .bf16x2 | .bf16x2, .f16x2 | .i16x2, .bf16x2 | .i16x2, .f16x2 => true
  | .bf16x2, .i16x2 | .f16x2, .i16x2 => true
  | _, _ => false

/-- .un and .ord are accepted with .f32 only (R227). -/
def VecCc.okFor : VecCc → LaneTy → Bool
  | .un, .f32 | .ord, .f32 => true
  | .un, _ | .ord, _ => false
  | _, _ => true

/-- A register number is even. -/
def evenReg (r : BitVec 5) : Bool := decide (r.toNat % 2 = 0)

/-- The operand values that the entry accepts (R132 and the entries named in the opcode tables). A step that is no word has
no encoding to check. -/
def Instr.wf : Instr → Bool
  | .add _ _ _ _ => true
  | .sub _ _ _ _ => true
  | .and _ _ _ _ => true
  | .or _ _ _ _ => true
  | .xor _ _ _ _ => true
  | .shl _ _ _ _ => true
  | .shr _ _ _ _ => true
  | .sar _ _ _ _ => true
  | .mul _ _ _ _ => true
  | .mulh _ _ _ _ => true
  | .mulhn _ _ _ _ => true
  | .div _ _ _ _ => true
  | .divn _ _ _ _ => true
  | .rem _ _ _ _ => true
  | .remn _ _ _ _ => true
  | .min _ _ _ _ => true
  | .max _ _ _ _ => true
  | .minn _ _ _ _ => true
  | .maxn _ _ _ _ => true
  | .clz _ _ _ => true
  | .popc _ _ _ => true
  | .mov _ _ _ => true
  | .movToB _ _ _ => true
  | .movFromB _ _ _ => true
  | .cmp _ _ _ _ _ => true
  | .sel _ _ _ _ _ => true
  | .bfx _ _ _ _ _ => true
  | .bfi _ _ _ _ _ => true
  | .pand _ _ _ _ => true
  | .por _ _ _ _ => true
  | .pxor _ _ _ _ => true
  | .pnot _ _ _ => true
  | .addi _ _ _ _ _ => true
  | .andi _ _ _ _ _ => true
  | .ori _ _ _ _ _ => true
  | .xori _ _ _ _ _ => true
  | .shli _ _ _ _ => true
  | .shri _ _ _ _ => true
  | .sari _ _ _ _ => true
  | .li _ _ _ _ => true
  | .lih _ _ _ => true
  | .getsr _ _ _ => true
  | .setsr _ _ _ => true
  | .spill _ _ _ => true
  | .fill _ _ _ => true
  | .br _ _ _ _ => true
  | .jmp _ _ => true
  | .jmpr _ _ => true
  | .call _ _ _ _ => true
  | .ret _ _ => true
  | .lpset _ _ _ => true
  | .loop _ _ _ => true
  | .endStrand => true
  | .bar => true
  | .trap _ => true
  | .eret => true
  | .fence _ _ => true
  | .drift _ _ => true
  | .idle _ => true
  | .lds _ _ _ _ _ _ => true
  | .ldsIndexed _ _ _ _ _ => true
  | .sts _ _ _ _ _ _ => true
  | .stsIndexed _ _ _ _ _ => true
  | .ldl _ _ _ _ _ _ => true
  | .ldlIndexed _ _ _ _ _ => true
  | .stl _ _ _ _ _ _ => true
  | .stlIndexed _ _ _ _ _ => true
  | .xlat _ _ _ _ => true
  | .hchk _ _ _ _ => true
  | .hinv _ _ _ => true
  | .aadd _ _ _ _ _ _ => true
  | .amin _ _ _ _ _ _ => true
  | .amax _ _ _ _ _ _ => true
  | .aminn _ _ _ _ _ _ => true
  | .amaxn _ _ _ _ _ _ => true
  | .aand _ _ _ _ _ _ => true
  | .aor _ _ _ _ _ _ => true
  | .axor _ _ _ _ _ _ => true
  | .aswp _ _ _ _ _ _ => true
  | .acas _ _ _ _ _ _ => true
  | .qinit _ _ _ => true
  | .qenq _ _ _ _ => true
  | .qdeq _ _ _ => true
  | .qtry _ _ _ _ => true
  | .qlen _ _ _ => true
  | .rld _ _ _ _ _ _ _ => true
  | .rst _ _ _ _ _ _ _ => true
  | .vld _ _ _ _ _ _ => true
  | .vst _ _ _ _ _ _ => true
  | .vlds _ e _ _ _ _ => Ext.vrOk e
  | .vldx _ e _ _ _ _ => Ext.vrOk e
  | .vstx _ e _ _ _ _ => Ext.vrOk e
  | .vldl _ _ _ _ _ _ => true
  | .vstl _ _ _ _ _ _ => true
  | .vadd _ e _ _ _ _ _ => Ext.vrOk e
  | .vsub _ e _ _ _ _ _ => Ext.vrOk e
  | .vmul _ e _ _ _ _ _ => Ext.vrOk e
  | .vfma _ e _ _ _ _ _ => Ext.vrOk e
  | .vfms _ e _ _ _ _ _ => Ext.vrOk e
  | .vmin _ e _ _ _ _ _ => Ext.vrOk e
  | .vmax _ e _ _ _ _ _ => Ext.vrOk e
  | .vabs _ e _ _ _ _ => Ext.vrOk e
  | .vneg _ e _ _ _ _ => Ext.vrOk e
  | .vdiv _ e _ _ _ t _ => Ext.vrOk e && t.isFloat
  | .vsqrt _ e _ _ t _ => Ext.vrOk e && t.isFloat
  | .vsqrtPv _ e _ _ t _ => Ext.vrOk e && t.isFloat
  | .vrcp _ e _ _ t _ => Ext.vrOk e && t.isFloat
  | .vrsq _ e _ _ t _ => Ext.vrOk e && t.isFloat
  | .vexp2 _ e _ _ t _ => Ext.vrOk e && t.isFloat
  | .vlog2 _ e _ _ t _ => Ext.vrOk e && t.isFloat
  | .vsinpi _ e _ _ t _ => Ext.vrOk e && t.isFloat
  | .vcospi _ e _ _ t _ => Ext.vrOk e && t.isFloat
  | .vcmp _ e _ cc _ _ t _ => Ext.vrOk e && t.cmpOk && cc.okFor t
  | .vsel _ e _ _ _ _ => Ext.vrOk e
  | .vand _ e _ _ _ _ => Ext.vrOk e
  | .vor _ e _ _ _ _ => Ext.vrOk e
  | .vxor _ e _ _ _ _ => Ext.vrOk e
  | .vnot _ e _ _ _ => Ext.vrOk e
  | .vshl _ e _ _ _ t _ => Ext.vrOk e && !t.isFloat
  | .vshr _ e _ _ _ t _ => Ext.vrOk e && !t.isFloat
  | .vsar _ e _ _ _ t _ => Ext.vrOk e && !t.isFloat
  | .mand _ e _ _ _ => Ext.vrOk e
  | .mor _ e _ _ _ => Ext.vrOk e
  | .mnot _ e _ _ => Ext.vrOk e
  | .vpopm _ e _ _ => Ext.vrOk e
  | .vcvt _ e _ _ st t _ => Ext.vrOk e && cvtPair t st
  | .vqnt _ e _ a _ t => Ext.vrOk e && t.isFloat && (t != .f32 || evenReg a)
  | .vdqnt _ e v _ _ t => Ext.vrOk e && t.isFloat && (t != .f32 || evenReg v)
  | .vpack _ e _ _ _ t _ => Ext.vrOk e && t.isPacked
  | .vunpk _ e _ _ _ t _ => Ext.vrOk e && t.isPacked
  | .vperm _ e _ _ _ _ => Ext.vrOk e
  | .vbcast _ e _ _ _ => Ext.vrOk e
  | .vext _ e _ _ _ => Ext.vrOk e
  | .vins _ e _ _ _ => Ext.vrOk e
  | .vrsum _ e _ _ _ _ => Ext.vrOk e
  | .vrmax _ e _ _ _ _ => Ext.vrOk e
  | .vrmin _ e _ _ _ _ => Ext.vrOk e
  | .vdot _ e _ _ _ _ _ => Ext.vrOk e
  | .vdelta _ e _ _ _ t _ => Ext.vrOk e && t.isFloat
  | .vrnd _ e _ _ => Ext.vrOk e
  | .vgauss _ e _ _ => Ext.vrOk e
  | .xcp _ e _ _ _ _ => Ext.vrOk e
  | .xbc _ e _ _ _ _ => Ext.vrOk e
  | .tld _ _ _ _ _ _ => true
  | .tst _ _ _ _ _ _ => true
  | .tldl _ _ _ _ _ => true
  | .tldlIndexed _ _ _ _ => true
  | .tstl _ _ _ _ _ => true
  | .tstlIndexed _ _ _ _ => true
  | .tzero _ _ => true
  | .ttr _ _ _ => true
  | .tcp _ _ _ => true
  | .latch _ _ _ => true
  | .mma _ _ _ _ _ => true
  | .mmaCl _ _ _ _ f => (f != .t2i8 && f != .sp)
  | .acz _ _ _ _ => true
  | .acrd _ _ _ f _ _ hi => (!hi || f == .f32)
  | .acadd _ _ _ => true
  | .acwr _ _ _ => true
  | .acsave _ _ _ _ _ => true
  | .acrest _ _ _ _ _ => true
  | .mstat _ _ => true
  | .stage _ => true
  | .cpy _ _ _ _ => true
  | .discard _ _ _ _ => true
  | .pgreq _ _ _ _ => true
  | .sqld _ _ _ _ => true
  | .sqpsh _ _ => true
  | .sqclr _ => true
  | .send _ _ _ _ _ => true
  | .recv _ _ _ _ _ => true
  | .nred _ _ _ _ => true
  | .nbc _ _ _ _ _ => true
  | .rqseed _ _ => true
  | .rqpos _ _ => true
  | .controlRegisterWrite _ _ _ => true
  | .ethcntClear _ => true
  | .hostMemoryWrite _ _ => true
  | .hostMemoryRead _ _ => true
  | .commit _ => true
  | .slotTableSwitch _ => true
  | .maintenanceSlot _ _ => true
  | .perBankRefreshDue _ _ => true
  | .refreshManagementDue _ _ _ => true
  | .test _ => true
  | .faqpop _ => true
  | .faultAddressEntry _ _ => true
  | .hbmAccessPerform _ => true
  | .hbmReadDeliver _ => true
  | .cxldown _ => true
  | .retrain _ _ => true
  | .evictionComplete _ => true
  | .spanWalkComplete _ _ _ => true
  | .sdctlGo _ => true
  | .shootdownRevoke _ => true
  | .prefetchReadPresent _ => true
  | .copyEntryStart _ => true
  | .copyLineTransfer _ _ => true
  | .writebackPresent _ _ => true
  | .writebackRetry _ => true
  | .lateWarning _ => true
  | .untimedRequestServe _ => true
  | .pgreqComplete _ _ => true
  | .queueOperation _ => true
  | .contextWake _ _ => true
  | .contextSwitch _ _ => true
  | .randomQueueRefill _ => true
  | .rcinvGo _ => true
  | .rcInvalidateEffect _ => true
  | .barrierRelease _ => true
  | .fenceDrainDone _ _ => true
  | .launchRecordTake _ => true
  | .ethLaunchFrame _ _ => true
  | .evtpop _ => true
  | .cancel _ => true
  | .flush _ => true
  | .runStart _ => true
  | .stepBegin _ => true
  | .nodeComplete _ _ => true
  | .reuseGateDecision _ _ => true
  | .signalNode _ _ => true
  | .runRetire _ => true
  | .overlayLoad _ => true
  | .panelStart _ => true
  | .coreFree _ => true
  | .preemptSave _ => true
  | .saveComplete _ _ => true
  | .panelResume _ => true
  | .startMarker _ _ => true
  | .syncMarker _ _ => true
  | .syncloss _ => true
  | .linkTraining _ _ _ => true
  | .gramerLinkDown _ => true
  | .freezeBegin _ => true
  | .freezeEnd _ => true
  | .powerIntervalEnd _ => true
  | .temperatureSample _ => true
  | .hardwareFaultDetect _ _ _ _ => true
  | .faultReportEntry _ => true
  | .illegalBundle _ _ _ => true
  | .park _ _ => true
  | .fundamentalReset => true
  | .bootctlGo => true
  | .bootVerifyDone => true
  | .bootctlRestart => true
  | .ready => true
  | .attctlGo => true
  | .attestReportComplete => true
  | .evctlGo => true
  | .panelPlace => true
  | .syncctlStart => true
  | .frqpop => true
  | .partctlGo => true
  | .partitionChange => true

end Sys2Proof
end

