-- ==== Sys2Proof/Decode.lean ====
section
/-!
DEFINITION. The decoder and the encoder of slot words and idle headers (08, Tables 8.1 to 8.10). The bundle around a
slot word (headers, delta slots, the checks across words) is in Machine/Bundle.lean.
-/
namespace Sys2Proof

/-- The n bits of w from bit lo up (R4), as a number. -/
def fld (w lo n : Nat) : Nat := w / 2 ^ lo % 2 ^ n

/-- The n bits of w from bit lo up (R4). -/
def bf (w lo n : Nat) : BitVec n := BitVec.ofNat n (w / 2 ^ lo)

/-- Bit lo of w. -/
def bt (w lo : Nat) : Bool := fld w lo 1 == 1

/-! Codes of Table 8.5 and Table 2.6. -/

def Sz.code : Sz → Nat
  | .b => 0 | .h => 1 | .w => 2 | .d => 3

def Sz.ofCode : Nat → Sz
  | 0 => .b | 1 => .h | 2 => .w | _ => .d

def Aw.code : Aw → Nat
  | .w => 0 | .d => 1

def Aw.ofCode : Nat → Aw
  | 0 => .w | _ => .d

def LaneTy.code : LaneTy → Nat
  | .f32 => 0 | .bf16x2 => 1 | .f16x2 => 2 | .i32 => 3 | .n32 => 4 | .i16x2 => 5 | .i8x4 => 6

def LaneTy.ofCode : Nat → Option LaneTy
  | 0 => some .f32 | 1 => some .bf16x2 | 2 => some .f16x2 | 3 => some .i32 | 4 => some .n32
  | 5 => some .i16x2 | 6 => some .i8x4 | _ => none

def ScalarCc.code : ScalarCc → Nat
  | .eq => 0 | .ne => 1 | .lt => 2 | .le => 3 | .gt => 4 | .ge => 5 | .ltn => 6 | .len => 7

def ScalarCc.ofCode : Nat → ScalarCc
  | 0 => .eq | 1 => .ne | 2 => .lt | 3 => .le | 4 => .gt | 5 => .ge | 6 => .ltn | _ => .len

def VecCc.code : VecCc → Nat
  | .eq => 0 | .ne => 1 | .lt => 2 | .le => 3 | .gt => 4 | .ge => 5 | .un => 6 | .ord => 7

def VecCc.ofCode : Nat → VecCc
  | 0 => .eq | 1 => .ne | 2 => .lt | 3 => .le | 4 => .gt | 5 => .ge | 6 => .un | _ => .ord

def Scope.code : Scope → Nat
  | .strand => 0 | .core => 1 | .panel => 2 | .die => 3 | .package => 4 | .hedge => 5 | .host => 6
  | .system => 7

def Scope.ofCode : Nat → Scope
  | 0 => .strand | 1 => .core | 2 => .panel | 3 => .die | 4 => .package | 5 => .hedge | 6 => .host
  | _ => .system

def MmaForm.code : MmaForm → Nat
  | .bf16 => 0 | .f16 => 1 | .f8 => 2 | .f4 => 3 | .i8 => 4 | .t2i8 => 5 | .sp => 6

def MmaForm.ofCode : Nat → Option MmaForm
  | 0 => some .bf16 | 1 => some .f16 | 2 => some .f8 | 3 => some .f4 | 4 => some .i8
  | 5 => some .t2i8 | 6 => some .sp | _ => none

def AcrdFmt.code : AcrdFmt → Nat
  | .bf16 => 0 | .f16 => 1 | .f32 => 2 | .f8e4 => 3 | .f8e5 => 4 | .i8 => 5 | .f4e2 => 6 | .i4 => 7

def AcrdFmt.ofCode : Nat → AcrdFmt
  | 0 => .bf16 | 1 => .f16 | 2 => .f32 | 3 => .f8e4 | 4 => .f8e5 | 5 => .i8 | 6 => .f4e2 | _ => .i4

def ElemCode.code : ElemCode → Nat
  | .f8e4 => 0 | .f8e5 => 1 | .i8 => 2 | .f4e2 => 3 | .i4 => 4

def ElemCode.ofCode : Nat → Option ElemCode
  | 0 => some .f8e4 | 1 => some .f8e5 | 2 => some .i8 | 3 => some .f4e2 | 4 => some .i4 | _ => none

def Rm.code : Rm → Nat
  | .rne => 0 | .rtz => 1 | .rup => 2 | .rdn => 3

def Rm.ofCode : Nat → Rm
  | 0 => .rne | 1 => .rtz | 2 => .rup | _ => .rdn

def Ovf.code : Ovf → Nat
  | .sat => 0 | .nan => 1

def Ovf.ofCode : Nat → Ovf
  | 0 => .sat | _ => .nan

/-- BB (R131). -/
def Base.kind : Base → Nat
  | .s _ => 0 | .b _ => 1

/-- BASE (R131). -/
def Base.num : Base → Nat
  | .s r => r.toNat | .b r => r.toNat

/-- BB and BASE (R131): with BB = 1, BASE[4:3] = 0. -/
def Base.ofFields (kind num : Nat) : Option Base :=
  if kind = 0 then some (.s (BitVec.ofNat 5 num))
  else if num < 8 then some (.b (BitVec.ofNat 3 num)) else none

/-- L (R126). -/
def Ext.bit : Ext → Nat
  | none => 0 | some _ => 1

/-- ILLEGAL causes found at decode (Table 8.11, codes 0 to 9). -/
inductive IllCause where
  | opcode | field | dualwrite | port | header | lend | wide | slotclass | nodelta | delay
  deriving DecidableEq, Repr

/-- The cause code (Table 8.11). -/
def IllCause.code : IllCause → Nat
  | .opcode => 0 | .field => 1 | .dualwrite => 2 | .port => 3 | .header => 4 | .lend => 5
  | .wide => 6 | .slotclass => 7 | .nodelta => 8 | .delay => 9

/-- The candidate instruction of a word of slot class S (Tables 8.4 to 8.10); `none`: a field
written 0 is not 0, or a code is reserved (R132, R139). -/
def decodeS (op w : Nat) (e : Ext) : Option Instr :=
  match op with
  | 0 =>
      if fld w 0 7 = 0 then some (.add (bf w 23 3) (bf w 17 5) (bf w 12 5) (bf w 7 5)) else none
  | 1 =>
      if fld w 0 7 = 0 then some (.sub (bf w 23 3) (bf w 17 5) (bf w 12 5) (bf w 7 5)) else none
  | 2 =>
      if fld w 0 7 = 0 then some (.and (bf w 23 3) (bf w 17 5) (bf w 12 5) (bf w 7 5)) else none
  | 3 =>
      if fld w 0 7 = 0 then some (.or (bf w 23 3) (bf w 17 5) (bf w 12 5) (bf w 7 5)) else none
  | 4 =>
      if fld w 0 7 = 0 then some (.xor (bf w 23 3) (bf w 17 5) (bf w 12 5) (bf w 7 5)) else none
  | 5 =>
      if fld w 0 7 = 0 then some (.shl (bf w 23 3) (bf w 17 5) (bf w 12 5) (bf w 7 5)) else none
  | 6 =>
      if fld w 0 7 = 0 then some (.shr (bf w 23 3) (bf w 17 5) (bf w 12 5) (bf w 7 5)) else none
  | 7 =>
      if fld w 0 7 = 0 then some (.sar (bf w 23 3) (bf w 17 5) (bf w 12 5) (bf w 7 5)) else none
  | 8 =>
      if fld w 0 7 = 0 then some (.mul (bf w 23 3) (bf w 17 5) (bf w 12 5) (bf w 7 5)) else none
  | 9 =>
      if fld w 0 7 = 0 then some (.mulh (bf w 23 3) (bf w 17 5) (bf w 12 5) (bf w 7 5)) else none
  | 10 =>
      if fld w 0 7 = 0 then some (.mulhn (bf w 23 3) (bf w 17 5) (bf w 12 5) (bf w 7 5)) else none
  | 11 =>
      if fld w 0 7 = 0 then some (.div (bf w 23 3) (bf w 17 5) (bf w 12 5) (bf w 7 5)) else none
  | 12 =>
      if fld w 0 7 = 0 then some (.divn (bf w 23 3) (bf w 17 5) (bf w 12 5) (bf w 7 5)) else none
  | 13 =>
      if fld w 0 7 = 0 then some (.rem (bf w 23 3) (bf w 17 5) (bf w 12 5) (bf w 7 5)) else none
  | 14 =>
      if fld w 0 7 = 0 then some (.remn (bf w 23 3) (bf w 17 5) (bf w 12 5) (bf w 7 5)) else none
  | 15 =>
      if fld w 0 7 = 0 then some (.min (bf w 23 3) (bf w 17 5) (bf w 12 5) (bf w 7 5)) else none
  | 16 =>
      if fld w 0 7 = 0 then some (.max (bf w 23 3) (bf w 17 5) (bf w 12 5) (bf w 7 5)) else none
  | 17 =>
      if fld w 0 7 = 0 then some (.minn (bf w 23 3) (bf w 17 5) (bf w 12 5) (bf w 7 5)) else none
  | 18 =>
      if fld w 0 7 = 0 then some (.maxn (bf w 23 3) (bf w 17 5) (bf w 12 5) (bf w 7 5)) else none
  | 19 =>
      if fld w 0 12 = 0 then some (.clz (bf w 23 3) (bf w 17 5) (bf w 12 5)) else none
  | 20 =>
      if fld w 0 12 = 0 then some (.popc (bf w 23 3) (bf w 17 5) (bf w 12 5)) else none
  | 21 =>
      if fld w 0 2 = 0 then (if fld w 2 10 = 0 then some (.mov (bf w 23 3) (bf w 17 5) (bf w 12 5)) else none)
      else if fld w 0 2 = 1 then (if fld w 2 10 = 0 ∧ fld w 20 2 = 0 then some (.movToB (bf w 23 3) (bf w 17 3) (bf w 12 5)) else none)
      else if fld w 0 2 = 2 then (if fld w 2 10 = 0 ∧ fld w 15 2 = 0 then some (.movFromB (bf w 23 3) (bf w 17 5) (bf w 12 3)) else none)
      else none
  | 22 =>
      if fld w 20 2 = 0 ∧ fld w 3 4 = 0 then some (.cmp (bf w 23 3) (bf w 17 3) (bf w 12 5) (bf w 7 5) (ScalarCc.ofCode (fld w 0 3))) else none
  | 23 =>
      if fld w 3 4 = 0 then some (.sel (bf w 23 3) (bf w 17 5) (bf w 12 5) (bf w 7 5) (bf w 0 3)) else none
  | 24 =>
      some (.bfx (bf w 23 3) (bf w 17 5) (bf w 12 5) (bf w 6 6) (bf w 0 6))
  | 25 =>
      some (.bfi (bf w 23 3) (bf w 17 5) (bf w 12 5) (bf w 6 6) (bf w 0 6))
  | 26 =>
      if fld w 20 2 = 0 ∧ fld w 15 2 = 0 ∧ fld w 10 2 = 0 ∧ fld w 0 7 = 0 then some (.pand (bf w 23 3) (bf w 17 3) (bf w 12 3) (bf w 7 3)) else none
  | 27 =>
      if fld w 20 2 = 0 ∧ fld w 15 2 = 0 ∧ fld w 10 2 = 0 ∧ fld w 0 7 = 0 then some (.por (bf w 23 3) (bf w 17 3) (bf w 12 3) (bf w 7 3)) else none
  | 28 =>
      if fld w 20 2 = 0 ∧ fld w 15 2 = 0 ∧ fld w 10 2 = 0 ∧ fld w 0 7 = 0 then some (.pxor (bf w 23 3) (bf w 17 3) (bf w 12 3) (bf w 7 3)) else none
  | 29 =>
      if fld w 20 2 = 0 ∧ fld w 15 2 = 0 ∧ fld w 0 12 = 0 then some (.pnot (bf w 23 3) (bf w 17 3) (bf w 12 3)) else none
  | 32 =>
      some (.addi (bf w 23 3) e (bf w 17 5) (bf w 12 5) (bf w 0 12))
  | 33 =>
      some (.andi (bf w 23 3) e (bf w 17 5) (bf w 12 5) (bf w 0 12))
  | 34 =>
      some (.ori (bf w 23 3) e (bf w 17 5) (bf w 12 5) (bf w 0 12))
  | 35 =>
      some (.xori (bf w 23 3) e (bf w 17 5) (bf w 12 5) (bf w 0 12))
  | 36 =>
      if fld w 6 6 = 0 then some (.shli (bf w 23 3) (bf w 17 5) (bf w 12 5) (bf w 0 6)) else none
  | 37 =>
      if fld w 6 6 = 0 then some (.shri (bf w 23 3) (bf w 17 5) (bf w 12 5) (bf w 0 6)) else none
  | 38 =>
      if fld w 6 6 = 0 then some (.sari (bf w 23 3) (bf w 17 5) (bf w 12 5) (bf w 0 6)) else none
  | 39 =>
      some (.li (bf w 23 3) e (bf w 17 5) (bf w 0 17))
  | 40 =>
      if fld w 16 1 = 0 then some (.lih (bf w 23 3) (bf w 17 5) (bf w 0 16)) else none
  | 42 =>
      if fld w 10 7 = 0 then some (.getsr (bf w 23 3) (bf w 17 5) (bf w 0 10)) else none
  | 43 =>
      if fld w 17 5 = 0 ∧ fld w 10 2 = 0 then some (.setsr (bf w 23 3) (bf w 12 5) (bf w 0 10)) else none
  | 44 =>
      if fld w 17 5 = 0 ∧ fld w 6 6 = 0 then some (.spill (bf w 23 3) (bf w 12 5) (bf w 0 6)) else none
  | 45 =>
      if fld w 6 11 = 0 then some (.fill (bf w 23 3) (bf w 17 5) (bf w 0 6)) else none
  | 48 =>
      some (.br (bf w 23 3) e (bt w 21) (bf w 0 21))
  | 49 =>
      if fld w 0 2 = 0 ∧ fld w 16 6 = 0 then some (.jmp (bf w 23 3) (bf w 2 14)) else none
  | 50 =>
      if fld w 17 5 = 0 ∧ fld w 0 12 = 0 then some (.jmpr (bf w 23 3) (bf w 12 5)) else none
  | 51 =>
      some (.call (bf w 23 3) e (bf w 17 5) (bf w 0 17))
  | 52 =>
      if fld w 17 5 = 0 ∧ fld w 0 12 = 0 then some (.ret (bf w 23 3) (bf w 12 5)) else none
  | 53 =>
      if fld w 17 5 = 0 ∧ fld w 4 8 = 0 then some (.lpset (bf w 23 3) (bf w 12 5) (bf w 0 4)) else none
  | 54 =>
      if fld w 21 1 = 0 then some (.loop (bf w 23 3) e (bf w 0 21)) else none
  | 55 =>
      if fld w 0 22 = 0 ∧ fld w 23 3 = 0 then some .endStrand else none
  | 56 =>
      if fld w 0 22 = 0 ∧ fld w 23 3 = 0 then some .bar else none
  | 57 =>
      if fld w 16 6 = 0 ∧ fld w 23 3 = 0 then some (.trap (bf w 0 16)) else none
  | 58 =>
      if fld w 0 22 = 0 ∧ fld w 23 3 = 0 then some .eret else none
  | 59 =>
      if fld w 3 14 = 0 ∧ fld w 23 3 = 0 then some (.fence (bf w 17 5) (Scope.ofCode (fld w 0 3))) else none
  | 60 =>
      if fld w 0 12 = 0 ∧ fld w 23 3 = 0 then some (.drift (bf w 17 5) (bf w 12 5)) else none
  | _ => none

/-- The major opcodes of slot class S (R139 lists the others as reserved). -/
def opsS : List Nat := [0, 1, 2, 3, 4, 5, 6, 7, 8, 9, 10, 11, 12, 13, 14, 15, 16, 17, 18, 19, 20, 21, 22, 23, 24, 25, 26, 27, 28, 29, 32, 33, 34, 35, 36, 37, 38, 39, 40, 42, 43, 44, 45, 48, 49, 50, 51, 52, 53, 54, 55, 56, 57, 58, 59, 60]

/-- The candidate instruction of a word of slot class M (Tables 8.4 to 8.10); `none`: a field
written 0 is not 0, or a code is reserved (R132, R139). -/
def decodeM (op w : Nat) (e : Ext) : Option Instr :=
  match op with
  | 0 =>
      if fld w 8 1 = 0 then ((Base.ofFields (fld w 16 1) (fld w 11 5)).bind fun base => some (.lds (bf w 23 3) e (bf w 17 5) base (Sz.ofCode (fld w 9 2)) (bf w 0 8)))
      else if fld w 8 1 = 1 then (if fld w 0 3 = 0 then (Base.ofFields (fld w 16 1) (fld w 11 5)).bind fun base => some (.ldsIndexed (bf w 23 3) (bf w 17 5) base (Sz.ofCode (fld w 9 2)) (bf w 3 5)) else none)
      else none
  | 1 =>
      if fld w 8 1 = 0 then ((Base.ofFields (fld w 16 1) (fld w 11 5)).bind fun base => some (.sts (bf w 23 3) e (bf w 17 5) base (Sz.ofCode (fld w 9 2)) (bf w 0 8)))
      else if fld w 8 1 = 1 then (if fld w 0 3 = 0 then (Base.ofFields (fld w 16 1) (fld w 11 5)).bind fun base => some (.stsIndexed (bf w 23 3) (bf w 17 5) base (Sz.ofCode (fld w 9 2)) (bf w 3 5)) else none)
      else none
  | 2 =>
      if fld w 8 1 = 0 then (if fld w 15 2 = 0 then some (.ldl (bf w 23 3) e (bf w 17 5) (bf w 11 4) (Sz.ofCode (fld w 9 2)) (bf w 0 8)) else none)
      else if fld w 8 1 = 1 then (if fld w 15 2 = 0 ∧ fld w 0 3 = 0 then some (.ldlIndexed (bf w 23 3) (bf w 17 5) (bf w 11 4) (Sz.ofCode (fld w 9 2)) (bf w 3 5)) else none)
      else none
  | 3 =>
      if fld w 8 1 = 0 then (if fld w 15 2 = 0 then some (.stl (bf w 23 3) e (bf w 17 5) (bf w 11 4) (Sz.ofCode (fld w 9 2)) (bf w 0 8)) else none)
      else if fld w 8 1 = 1 then (if fld w 15 2 = 0 ∧ fld w 0 3 = 0 then some (.stlIndexed (bf w 23 3) (bf w 17 5) (bf w 11 4) (Sz.ofCode (fld w 9 2)) (bf w 3 5)) else none)
      else none
  | 4 =>
      if fld w 21 1 = 0 ∧ fld w 0 7 = 0 then some (.xlat (bf w 23 3) (bf w 17 4) (bf w 12 5) (bf w 7 5)) else none
  | 5 =>
      if fld w 16 1 = 0 ∧ fld w 3 9 = 0 then some (.hchk (bf w 23 3) (bf w 17 5) (bf w 12 4) (bf w 0 3)) else none
  | 6 =>
      if fld w 17 5 = 0 ∧ fld w 0 7 = 0 then some (.hinv (bf w 23 3) (bf w 12 5) (bf w 7 5)) else none
  | 8 =>
      if fld w 0 2 = 0 then some (.aadd (bf w 23 3) (bf w 17 5) (bf w 13 4) (bf w 8 5) (bf w 3 5) (Aw.ofCode (fld w 2 1))) else none
  | 9 =>
      if fld w 0 2 = 0 then some (.amin (bf w 23 3) (bf w 17 5) (bf w 13 4) (bf w 8 5) (bf w 3 5) (Aw.ofCode (fld w 2 1))) else none
  | 10 =>
      if fld w 0 2 = 0 then some (.amax (bf w 23 3) (bf w 17 5) (bf w 13 4) (bf w 8 5) (bf w 3 5) (Aw.ofCode (fld w 2 1))) else none
  | 11 =>
      if fld w 0 2 = 0 then some (.aminn (bf w 23 3) (bf w 17 5) (bf w 13 4) (bf w 8 5) (bf w 3 5) (Aw.ofCode (fld w 2 1))) else none
  | 12 =>
      if fld w 0 2 = 0 then some (.amaxn (bf w 23 3) (bf w 17 5) (bf w 13 4) (bf w 8 5) (bf w 3 5) (Aw.ofCode (fld w 2 1))) else none
  | 13 =>
      if fld w 0 2 = 0 then some (.aand (bf w 23 3) (bf w 17 5) (bf w 13 4) (bf w 8 5) (bf w 3 5) (Aw.ofCode (fld w 2 1))) else none
  | 14 =>
      if fld w 0 2 = 0 then some (.aor (bf w 23 3) (bf w 17 5) (bf w 13 4) (bf w 8 5) (bf w 3 5) (Aw.ofCode (fld w 2 1))) else none
  | 15 =>
      if fld w 0 2 = 0 then some (.axor (bf w 23 3) (bf w 17 5) (bf w 13 4) (bf w 8 5) (bf w 3 5) (Aw.ofCode (fld w 2 1))) else none
  | 16 =>
      if fld w 0 2 = 0 then some (.aswp (bf w 23 3) (bf w 17 5) (bf w 13 4) (bf w 8 5) (bf w 3 5) (Aw.ofCode (fld w 2 1))) else none
  | 17 =>
      if fld w 0 2 = 0 then some (.acas (bf w 23 3) (bf w 17 5) (bf w 13 4) (bf w 8 5) (bf w 3 5) (Aw.ofCode (fld w 2 1))) else none
  | 20 =>
      if fld w 17 5 = 0 ∧ fld w 0 7 = 0 then some (.qinit (bf w 23 3) (bf w 12 5) (bf w 7 5)) else none
  | 21 =>
      if fld w 0 7 = 0 then some (.qenq (bf w 23 3) (bf w 17 5) (bf w 12 5) (bf w 7 5)) else none
  | 22 =>
      if fld w 0 12 = 0 then some (.qdeq (bf w 23 3) (bf w 17 5) (bf w 12 5)) else none
  | 23 =>
      if fld w 3 9 = 0 then some (.qtry (bf w 23 3) (bf w 17 5) (bf w 12 5) (bf w 0 3)) else none
  | 24 =>
      if fld w 0 12 = 0 then some (.qlen (bf w 23 3) (bf w 17 5) (bf w 12 5)) else none
  | 26 =>
      some (.rld (bf w 23 3) e (bf w 17 5) (bf w 12 5) (bf w 7 5) (Sz.ofCode (fld w 5 2)) (bf w 0 5))
  | 27 =>
      some (.rst (bf w 23 3) e (bf w 17 5) (bf w 12 5) (bf w 7 5) (Sz.ofCode (fld w 5 2)) (bf w 0 5))
  | _ => none

/-- The major opcodes of slot class M (R139 lists the others as reserved). -/
def opsM : List Nat := [0, 1, 2, 3, 4, 5, 6, 8, 9, 10, 11, 12, 13, 14, 15, 16, 17, 20, 21, 22, 23, 24, 26, 27]

/-- The candidate instruction of a word of slot class V (Tables 8.4 to 8.10); `none`: a field
written 0 is not 0, or a code is reserved (R132, R139). -/
def decodeV (op w : Nat) (e : Ext) : Option Instr :=
  match op with
  | 0 =>
      (Base.ofFields (fld w 16 1) (fld w 11 5)).bind fun base => some (.vld (bf w 23 3) e (bf w 17 5) base (bf w 3 8) (bf w 0 3))
  | 1 =>
      (Base.ofFields (fld w 16 1) (fld w 11 5)).bind fun base => some (.vst (bf w 23 3) e (bf w 17 5) base (bf w 3 8) (bf w 0 3))
  | 2 =>
      if fld w 4 3 = 0 ∧ fld w 0 1 = 0 then some (.vlds (bf w 23 3) e (bf w 17 5) (bf w 12 5) (bf w 7 5) (bf w 1 3)) else none
  | 3 =>
      if fld w 4 3 = 0 ∧ fld w 0 1 = 0 then some (.vldx (bf w 23 3) e (bf w 17 5) (bf w 12 5) (bf w 7 5) (bf w 1 3)) else none
  | 4 =>
      if fld w 4 3 = 0 ∧ fld w 0 1 = 0 then some (.vstx (bf w 23 3) e (bf w 17 5) (bf w 12 5) (bf w 7 5) (bf w 1 3)) else none
  | 5 =>
      if fld w 15 2 = 0 then some (.vldl (bf w 23 3) e (bf w 17 5) (bf w 11 4) (bf w 3 8) (bf w 0 3)) else none
  | 6 =>
      if fld w 15 2 = 0 then some (.vstl (bf w 23 3) e (bf w 17 5) (bf w 11 4) (bf w 3 8) (bf w 0 3)) else none
  | 8 =>
      if fld w 0 1 = 0 then (LaneTy.ofCode (fld w 4 3)).bind fun t => some (.vadd (bf w 23 3) e (bf w 17 5) (bf w 12 5) (bf w 7 5) t (bf w 1 3)) else none
  | 9 =>
      if fld w 0 1 = 0 then (LaneTy.ofCode (fld w 4 3)).bind fun t => some (.vsub (bf w 23 3) e (bf w 17 5) (bf w 12 5) (bf w 7 5) t (bf w 1 3)) else none
  | 10 =>
      if fld w 0 1 = 0 then (LaneTy.ofCode (fld w 4 3)).bind fun t => some (.vmul (bf w 23 3) e (bf w 17 5) (bf w 12 5) (bf w 7 5) t (bf w 1 3)) else none
  | 11 =>
      if fld w 0 1 = 0 then (LaneTy.ofCode (fld w 4 3)).bind fun t => some (.vfma (bf w 23 3) e (bf w 17 5) (bf w 12 5) (bf w 7 5) t (bf w 1 3)) else none
  | 12 =>
      if fld w 0 1 = 0 then (LaneTy.ofCode (fld w 4 3)).bind fun t => some (.vfms (bf w 23 3) e (bf w 17 5) (bf w 12 5) (bf w 7 5) t (bf w 1 3)) else none
  | 13 =>
      if fld w 0 1 = 0 then (LaneTy.ofCode (fld w 4 3)).bind fun t => some (.vmin (bf w 23 3) e (bf w 17 5) (bf w 12 5) (bf w 7 5) t (bf w 1 3)) else none
  | 14 =>
      if fld w 0 1 = 0 then (LaneTy.ofCode (fld w 4 3)).bind fun t => some (.vmax (bf w 23 3) e (bf w 17 5) (bf w 12 5) (bf w 7 5) t (bf w 1 3)) else none
  | 15 =>
      if fld w 7 5 = 0 ∧ fld w 0 1 = 0 then (LaneTy.ofCode (fld w 4 3)).bind fun t => some (.vabs (bf w 23 3) e (bf w 17 5) (bf w 12 5) t (bf w 1 3)) else none
  | 16 =>
      if fld w 7 5 = 0 ∧ fld w 0 1 = 0 then (LaneTy.ofCode (fld w 4 3)).bind fun t => some (.vneg (bf w 23 3) e (bf w 17 5) (bf w 12 5) t (bf w 1 3)) else none
  | 17 =>
      if fld w 0 1 = 0 then (LaneTy.ofCode (fld w 4 3)).bind fun t => some (.vdiv (bf w 23 3) e (bf w 17 5) (bf w 12 5) (bf w 7 5) t (bf w 1 3)) else none
  | 18 =>
      if fld w 0 1 = 0 then (if fld w 7 5 = 0 then (LaneTy.ofCode (fld w 4 3)).bind fun t => some (.vsqrt (bf w 23 3) e (bf w 17 5) (bf w 12 5) t (bf w 1 3)) else none)
      else if fld w 0 1 = 1 then (if fld w 7 5 = 0 then (LaneTy.ofCode (fld w 4 3)).bind fun t => some (.vsqrtPv (bf w 23 3) e (bf w 17 5) (bf w 12 5) t (bf w 1 3)) else none)
      else none
  | 19 =>
      if fld w 7 5 = 0 ∧ fld w 0 1 = 0 then (LaneTy.ofCode (fld w 4 3)).bind fun t => some (.vrcp (bf w 23 3) e (bf w 17 5) (bf w 12 5) t (bf w 1 3)) else none
  | 20 =>
      if fld w 7 5 = 0 ∧ fld w 0 1 = 0 then (LaneTy.ofCode (fld w 4 3)).bind fun t => some (.vrsq (bf w 23 3) e (bf w 17 5) (bf w 12 5) t (bf w 1 3)) else none
  | 21 =>
      if fld w 7 5 = 0 ∧ fld w 0 1 = 0 then (LaneTy.ofCode (fld w 4 3)).bind fun t => some (.vexp2 (bf w 23 3) e (bf w 17 5) (bf w 12 5) t (bf w 1 3)) else none
  | 22 =>
      if fld w 7 5 = 0 ∧ fld w 0 1 = 0 then (LaneTy.ofCode (fld w 4 3)).bind fun t => some (.vlog2 (bf w 23 3) e (bf w 17 5) (bf w 12 5) t (bf w 1 3)) else none
  | 23 =>
      if fld w 7 5 = 0 ∧ fld w 0 1 = 0 then (LaneTy.ofCode (fld w 4 3)).bind fun t => some (.vsinpi (bf w 23 3) e (bf w 17 5) (bf w 12 5) t (bf w 1 3)) else none
  | 24 =>
      if fld w 7 5 = 0 ∧ fld w 0 1 = 0 then (LaneTy.ofCode (fld w 4 3)).bind fun t => some (.vcospi (bf w 23 3) e (bf w 17 5) (bf w 12 5) t (bf w 1 3)) else none
  | 25 =>
      (LaneTy.ofCode (fld w 4 3)).bind fun t => some (.vcmp (bf w 23 3) e (bf w 19 3) (VecCc.ofCode (2 * fld w 17 2 + fld w 0 1)) (bf w 12 5) (bf w 7 5) t (bf w 1 3))
  | 26 =>
      if fld w 4 3 = 0 ∧ fld w 0 1 = 0 then some (.vsel (bf w 23 3) e (bf w 17 5) (bf w 12 5) (bf w 7 5) (bf w 1 3)) else none
  | 27 =>
      if fld w 4 3 = 0 ∧ fld w 0 1 = 0 then some (.vand (bf w 23 3) e (bf w 17 5) (bf w 12 5) (bf w 7 5) (bf w 1 3)) else none
  | 28 =>
      if fld w 4 3 = 0 ∧ fld w 0 1 = 0 then some (.vor (bf w 23 3) e (bf w 17 5) (bf w 12 5) (bf w 7 5) (bf w 1 3)) else none
  | 29 =>
      if fld w 4 3 = 0 ∧ fld w 0 1 = 0 then some (.vxor (bf w 23 3) e (bf w 17 5) (bf w 12 5) (bf w 7 5) (bf w 1 3)) else none
  | 30 =>
      if fld w 4 8 = 0 ∧ fld w 0 1 = 0 then some (.vnot (bf w 23 3) e (bf w 17 5) (bf w 12 5) (bf w 1 3)) else none
  | 31 =>
      if fld w 0 1 = 0 then (LaneTy.ofCode (fld w 4 3)).bind fun t => some (.vshl (bf w 23 3) e (bf w 17 5) (bf w 12 5) (bf w 7 5) t (bf w 1 3)) else none
  | 32 =>
      if fld w 0 1 = 0 then (LaneTy.ofCode (fld w 4 3)).bind fun t => some (.vshr (bf w 23 3) e (bf w 17 5) (bf w 12 5) (bf w 7 5) t (bf w 1 3)) else none
  | 33 =>
      if fld w 0 1 = 0 then (LaneTy.ofCode (fld w 4 3)).bind fun t => some (.vsar (bf w 23 3) e (bf w 17 5) (bf w 12 5) (bf w 7 5) t (bf w 1 3)) else none
  | 34 =>
      if fld w 20 2 = 0 ∧ fld w 15 2 = 0 ∧ fld w 10 2 = 0 ∧ fld w 0 7 = 0 then some (.mand (bf w 23 3) e (bf w 17 3) (bf w 12 3) (bf w 7 3)) else none
  | 35 =>
      if fld w 20 2 = 0 ∧ fld w 15 2 = 0 ∧ fld w 10 2 = 0 ∧ fld w 0 7 = 0 then some (.mor (bf w 23 3) e (bf w 17 3) (bf w 12 3) (bf w 7 3)) else none
  | 36 =>
      if fld w 20 2 = 0 ∧ fld w 15 2 = 0 ∧ fld w 0 12 = 0 then some (.mnot (bf w 23 3) e (bf w 17 3) (bf w 12 3)) else none
  | 37 =>
      if fld w 15 2 = 0 ∧ fld w 0 12 = 0 then some (.vpopm (bf w 23 3) e (bf w 17 5) (bf w 12 3)) else none
  | 38 =>
      if fld w 10 2 = 0 ∧ fld w 0 1 = 0 then (LaneTy.ofCode (fld w 7 3)).bind fun st => (LaneTy.ofCode (fld w 4 3)).bind fun t => some (.vcvt (bf w 23 3) e (bf w 17 5) (bf w 12 5) st t (bf w 1 3)) else none
  | 39 =>
      if fld w 10 2 = 0 ∧ fld w 0 4 = 0 then (ElemCode.ofCode (fld w 7 3)).bind fun ec => (LaneTy.ofCode (fld w 4 3)).bind fun t => some (.vqnt (bf w 23 3) e (bf w 17 5) (bf w 12 5) ec t) else none
  | 40 =>
      if fld w 10 2 = 0 ∧ fld w 0 4 = 0 then (ElemCode.ofCode (fld w 7 3)).bind fun ec => (LaneTy.ofCode (fld w 4 3)).bind fun t => some (.vdqnt (bf w 23 3) e (bf w 17 5) (bf w 12 5) ec t) else none
  | 41 =>
      if fld w 0 1 = 0 then (LaneTy.ofCode (fld w 4 3)).bind fun t => some (.vpack (bf w 23 3) e (bf w 17 5) (bf w 12 5) (bf w 7 5) t (bf w 1 3)) else none
  | 42 =>
      if fld w 8 4 = 0 ∧ fld w 0 1 = 0 then (LaneTy.ofCode (fld w 4 3)).bind fun t => some (.vunpk (bf w 23 3) e (bf w 17 5) (bf w 12 5) (bt w 7) t (bf w 1 3)) else none
  | 43 =>
      if fld w 4 3 = 0 ∧ fld w 0 1 = 0 then some (.vperm (bf w 23 3) e (bf w 17 5) (bf w 12 5) (bf w 7 5) (bf w 1 3)) else none
  | 44 =>
      if fld w 4 8 = 0 ∧ fld w 0 1 = 0 then some (.vbcast (bf w 23 3) e (bf w 17 5) (bf w 12 5) (bf w 1 3)) else none
  | 45 =>
      if fld w 11 1 = 0 ∧ fld w 0 7 = 0 then some (.vext (bf w 23 3) e (bf w 17 5) (bf w 12 5) (bf w 7 4)) else none
  | 46 =>
      if fld w 11 1 = 0 ∧ fld w 0 7 = 0 then some (.vins (bf w 23 3) e (bf w 17 5) (bf w 12 5) (bf w 7 4)) else none
  | 48 =>
      if fld w 7 5 = 0 ∧ fld w 0 1 = 0 then (LaneTy.ofCode (fld w 4 3)).bind fun t => some (.vrsum (bf w 23 3) e (bf w 17 5) (bf w 12 5) t (bf w 1 3)) else none
  | 49 =>
      if fld w 7 5 = 0 ∧ fld w 0 1 = 0 then (LaneTy.ofCode (fld w 4 3)).bind fun t => some (.vrmax (bf w 23 3) e (bf w 17 5) (bf w 12 5) t (bf w 1 3)) else none
  | 50 =>
      if fld w 7 5 = 0 ∧ fld w 0 1 = 0 then (LaneTy.ofCode (fld w 4 3)).bind fun t => some (.vrmin (bf w 23 3) e (bf w 17 5) (bf w 12 5) t (bf w 1 3)) else none
  | 51 =>
      if fld w 0 1 = 0 then (LaneTy.ofCode (fld w 4 3)).bind fun t => some (.vdot (bf w 23 3) e (bf w 17 5) (bf w 12 5) (bf w 7 5) t (bf w 1 3)) else none
  | 52 =>
      if fld w 0 1 = 0 then (LaneTy.ofCode (fld w 4 3)).bind fun t => some (.vdelta (bf w 23 3) e (bf w 17 5) (bf w 12 5) (bf w 7 5) t (bf w 1 3)) else none
  | 54 =>
      if fld w 4 13 = 0 ∧ fld w 0 1 = 0 then some (.vrnd (bf w 23 3) e (bf w 17 5) (bf w 1 3)) else none
  | 55 =>
      if fld w 4 13 = 0 ∧ fld w 0 1 = 0 then some (.vgauss (bf w 23 3) e (bf w 17 5) (bf w 1 3)) else none
  | 56 =>
      if fld w 10 2 = 0 ∧ fld w 4 3 = 0 ∧ fld w 0 1 = 0 then some (.xcp (bf w 23 3) e (bf w 17 5) (bf w 12 5) (bf w 7 3) (bf w 1 3)) else none
  | 57 =>
      if fld w 10 2 = 0 ∧ fld w 4 3 = 0 ∧ fld w 0 1 = 0 then some (.xbc (bf w 23 3) e (bf w 17 5) (bf w 12 5) (bf w 7 3) (bf w 1 3)) else none
  | _ => none

/-- The major opcodes of slot class V (R139 lists the others as reserved). -/
def opsV : List Nat := [0, 1, 2, 3, 4, 5, 6, 8, 9, 10, 11, 12, 13, 14, 15, 16, 17, 18, 19, 20, 21, 22, 23, 24, 25, 26, 27, 28, 29, 30, 31, 32, 33, 34, 35, 36, 37, 38, 39, 40, 41, 42, 43, 44, 45, 46, 48, 49, 50, 51, 52, 54, 55, 56, 57]

/-- The candidate instruction of a word of slot class X (Tables 8.4 to 8.10); `none`: a field
written 0 is not 0, or a code is reserved (R132, R139). -/
def decodeX (op w : Nat) (e : Ext) : Option Instr :=
  match op with
  | 0 =>
      (Base.ofFields (fld w 17 1) (fld w 12 5)).bind fun base => some (.tld (bf w 23 3) e (bf w 18 4) base (bf w 7 5) (bf w 0 7))
  | 1 =>
      (Base.ofFields (fld w 17 1) (fld w 12 5)).bind fun base => some (.tst (bf w 23 3) e (bf w 18 4) base (bf w 7 5) (bf w 0 7))
  | 2 =>
      if fld w 13 1 = 0 then (some (.tldl (bf w 23 3) e (bf w 18 4) (bf w 14 4) (bf w 0 13)))
      else if fld w 13 1 = 1 then (if fld w 0 8 = 0 then some (.tldlIndexed (bf w 23 3) (bf w 18 4) (bf w 14 4) (bf w 8 5)) else none)
      else none
  | 3 =>
      if fld w 13 1 = 0 then (some (.tstl (bf w 23 3) e (bf w 18 4) (bf w 14 4) (bf w 0 13)))
      else if fld w 13 1 = 1 then (if fld w 0 8 = 0 then some (.tstlIndexed (bf w 23 3) (bf w 18 4) (bf w 14 4) (bf w 8 5)) else none)
      else none
  | 4 =>
      if fld w 0 18 = 0 then some (.tzero (bf w 23 3) (bf w 18 4)) else none
  | 5 =>
      if fld w 0 14 = 0 then some (.ttr (bf w 23 3) (bf w 18 4) (bf w 14 4)) else none
  | 6 =>
      if fld w 0 14 = 0 then some (.tcp (bf w 23 3) (bf w 18 4) (bf w 14 4)) else none
  | 7 =>
      if fld w 18 2 = 0 ∧ fld w 0 14 = 0 then some (.latch (bf w 23 3) (bf w 20 2) (bf w 14 4)) else none
  | 8 =>
      if fld w 8 1 = 0 then (if fld w 18 2 = 0 ∧ fld w 0 8 = 0 then (MmaForm.ofCode (fld w 9 3)).bind fun f => some (.mma (bf w 23 3) (bf w 20 2) (bf w 14 4) (bf w 12 2) f) else none)
      else if fld w 8 1 = 1 then (if fld w 18 2 = 0 ∧ fld w 0 8 = 0 then (MmaForm.ofCode (fld w 9 3)).bind fun f => some (.mmaCl (bf w 23 3) (bf w 20 2) (bf w 14 4) (bf w 12 2) f) else none)
      else none
  | 9 =>
      if fld w 12 8 = 0 then some (.acz (bf w 23 3) e (bf w 20 2) (bf w 0 12)) else none
  | 10 =>
      if fld w 0 9 = 0 then some (.acrd (bf w 23 3) (bf w 18 4) (bf w 16 2) (AcrdFmt.ofCode (fld w 13 3)) (Rm.ofCode (fld w 11 2)) (Ovf.ofCode (fld w 10 1)) (bt w 9)) else none
  | 11 =>
      if fld w 18 2 = 0 ∧ fld w 0 16 = 0 then some (.acadd (bf w 23 3) (bf w 20 2) (bf w 16 2)) else none
  | 12 =>
      if fld w 18 2 = 0 ∧ fld w 0 14 = 0 then some (.acwr (bf w 23 3) (bf w 20 2) (bf w 14 4)) else none
  | 13 =>
      if fld w 18 2 = 0 ∧ fld w 7 5 = 0 then (Base.ofFields (fld w 17 1) (fld w 12 5)).bind fun base => some (.acsave (bf w 23 3) e (bf w 20 2) base (bf w 0 7)) else none
  | 14 =>
      if fld w 18 2 = 0 ∧ fld w 7 5 = 0 then (Base.ofFields (fld w 17 1) (fld w 12 5)).bind fun base => some (.acrest (bf w 23 3) e (bf w 20 2) base (bf w 0 7)) else none
  | 15 =>
      if fld w 0 17 = 0 then some (.mstat (bf w 23 3) (bf w 17 5)) else none
  | _ => none

/-- The major opcodes of slot class X (R139 lists the others as reserved). -/
def opsX : List Nat := [0, 1, 2, 3, 4, 5, 6, 7, 8, 9, 10, 11, 12, 13, 14, 15]

/-- The candidate instruction of a word of slot class E (Tables 8.4 to 8.10); `none`: a field
written 0 is not 0, or a code is reserved (R132, R139). -/
def decodeE (op w : Nat) (e : Ext) : Option Instr :=
  match op with
  | 0 =>
      if fld w 0 22 = 0 then some (.stage (bf w 23 3)) else none
  | 1 =>
      if fld w 17 5 = 0 then (Base.ofFields (fld w 16 1) (fld w 11 5)).bind fun base => some (.cpy (bf w 23 3) e base (bf w 0 11)) else none
  | 2 =>
      if fld w 21 1 = 0 ∧ fld w 0 7 = 0 then some (.discard (bf w 23 3) (bf w 17 4) (bf w 12 5) (bf w 7 5)) else none
  | 3 =>
      if fld w 16 1 = 0 ∧ fld w 0 7 = 0 then some (.pgreq (bf w 23 3) (bf w 17 5) (bf w 12 4) (bf w 7 5)) else none
  | 4 =>
      if fld w 17 5 = 0 then (Base.ofFields (fld w 16 1) (fld w 11 5)).bind fun base => some (.sqld (bf w 23 3) e base (bf w 0 11)) else none
  | 5 =>
      if fld w 0 17 = 0 then some (.sqpsh (bf w 23 3) (bf w 17 5)) else none
  | 6 =>
      if fld w 0 22 = 0 then some (.sqclr (bf w 23 3)) else none
  | 8 =>
      if fld w 3 4 = 0 then some (.send (bf w 23 3) (bf w 17 5) (bf w 12 5) (bf w 7 5) (bf w 0 3)) else none
  | 9 =>
      if fld w 3 4 = 0 then some (.recv (bf w 23 3) (bf w 17 5) (bf w 12 5) (bf w 7 5) (bf w 0 3)) else none
  | 10 =>
      if fld w 19 3 = 0 ∧ fld w 7 5 = 0 then some (.nred (bf w 23 3) (bf w 17 2) (bf w 12 5) (bf w 0 7)) else none
  | 11 =>
      some (.nbc (bf w 23 3) (bf w 17 5) (bf w 12 5) (bf w 7 5) (bf w 0 7))
  | 12 =>
      if fld w 0 17 = 0 then some (.rqseed (bf w 23 3) (bf w 17 5)) else none
  | 13 =>
      if fld w 0 17 = 0 then some (.rqpos (bf w 23 3) (bf w 17 5)) else none
  | _ => none

/-- The major opcodes of slot class E (R139 lists the others as reserved). -/
def opsE : List Nat := [0, 1, 2, 3, 4, 5, 6, 8, 9, 10, 11, 12, 13]


/-- The opcode maps by slot class (R133 to R138). -/
def opsOf : Cls → List Nat
  | .s => opsS | .m => opsM | .x => opsX | .e => opsE | .v => opsV

/-- The candidate instruction of a word of a class. -/
def decodeBody : Cls → Nat → Nat → Ext → Option Instr
  | .s => decodeS | .m => decodeM | .x => decodeX | .e => decodeE | .v => decodeV

/-- The slot class of an instruction's words; `none` for the idle header and for a step that is no word. -/
def Instr.cls : Instr → Option Cls
  | .add _ _ _ _ => some .s
  | .sub _ _ _ _ => some .s
  | .and _ _ _ _ => some .s
  | .or _ _ _ _ => some .s
  | .xor _ _ _ _ => some .s
  | .shl _ _ _ _ => some .s
  | .shr _ _ _ _ => some .s
  | .sar _ _ _ _ => some .s
  | .mul _ _ _ _ => some .s
  | .mulh _ _ _ _ => some .s
  | .mulhn _ _ _ _ => some .s
  | .div _ _ _ _ => some .s
  | .divn _ _ _ _ => some .s
  | .rem _ _ _ _ => some .s
  | .remn _ _ _ _ => some .s
  | .min _ _ _ _ => some .s
  | .max _ _ _ _ => some .s
  | .minn _ _ _ _ => some .s
  | .maxn _ _ _ _ => some .s
  | .clz _ _ _ => some .s
  | .popc _ _ _ => some .s
  | .mov _ _ _ => some .s
  | .movToB _ _ _ => some .s
  | .movFromB _ _ _ => some .s
  | .cmp _ _ _ _ _ => some .s
  | .sel _ _ _ _ _ => some .s
  | .bfx _ _ _ _ _ => some .s
  | .bfi _ _ _ _ _ => some .s
  | .pand _ _ _ _ => some .s
  | .por _ _ _ _ => some .s
  | .pxor _ _ _ _ => some .s
  | .pnot _ _ _ => some .s
  | .addi _ _ _ _ _ => some .s
  | .andi _ _ _ _ _ => some .s
  | .ori _ _ _ _ _ => some .s
  | .xori _ _ _ _ _ => some .s
  | .shli _ _ _ _ => some .s
  | .shri _ _ _ _ => some .s
  | .sari _ _ _ _ => some .s
  | .li _ _ _ _ => some .s
  | .lih _ _ _ => some .s
  | .getsr _ _ _ => some .s
  | .setsr _ _ _ => some .s
  | .spill _ _ _ => some .s
  | .fill _ _ _ => some .s
  | .br _ _ _ _ => some .s
  | .jmp _ _ => some .s
  | .jmpr _ _ => some .s
  | .call _ _ _ _ => some .s
  | .ret _ _ => some .s
  | .lpset _ _ _ => some .s
  | .loop _ _ _ => some .s
  | .endStrand => some .s
  | .bar => some .s
  | .trap _ => some .s
  | .eret => some .s
  | .fence _ _ => some .s
  | .drift _ _ => some .s
  | .idle _ => none
  | .lds _ _ _ _ _ _ => some .m
  | .ldsIndexed _ _ _ _ _ => some .m
  | .sts _ _ _ _ _ _ => some .m
  | .stsIndexed _ _ _ _ _ => some .m
  | .ldl _ _ _ _ _ _ => some .m
  | .ldlIndexed _ _ _ _ _ => some .m
  | .stl _ _ _ _ _ _ => some .m
  | .stlIndexed _ _ _ _ _ => some .m
  | .xlat _ _ _ _ => some .m
  | .hchk _ _ _ _ => some .m
  | .hinv _ _ _ => some .m
  | .aadd _ _ _ _ _ _ => some .m
  | .amin _ _ _ _ _ _ => some .m
  | .amax _ _ _ _ _ _ => some .m
  | .aminn _ _ _ _ _ _ => some .m
  | .amaxn _ _ _ _ _ _ => some .m
  | .aand _ _ _ _ _ _ => some .m
  | .aor _ _ _ _ _ _ => some .m
  | .axor _ _ _ _ _ _ => some .m
  | .aswp _ _ _ _ _ _ => some .m
  | .acas _ _ _ _ _ _ => some .m
  | .qinit _ _ _ => some .m
  | .qenq _ _ _ _ => some .m
  | .qdeq _ _ _ => some .m
  | .qtry _ _ _ _ => some .m
  | .qlen _ _ _ => some .m
  | .rld _ _ _ _ _ _ _ => some .m
  | .rst _ _ _ _ _ _ _ => some .m
  | .vld _ _ _ _ _ _ => some .v
  | .vst _ _ _ _ _ _ => some .v
  | .vlds _ _ _ _ _ _ => some .v
  | .vldx _ _ _ _ _ _ => some .v
  | .vstx _ _ _ _ _ _ => some .v
  | .vldl _ _ _ _ _ _ => some .v
  | .vstl _ _ _ _ _ _ => some .v
  | .vadd _ _ _ _ _ _ _ => some .v
  | .vsub _ _ _ _ _ _ _ => some .v
  | .vmul _ _ _ _ _ _ _ => some .v
  | .vfma _ _ _ _ _ _ _ => some .v
  | .vfms _ _ _ _ _ _ _ => some .v
  | .vmin _ _ _ _ _ _ _ => some .v
  | .vmax _ _ _ _ _ _ _ => some .v
  | .vabs _ _ _ _ _ _ => some .v
  | .vneg _ _ _ _ _ _ => some .v
  | .vdiv _ _ _ _ _ _ _ => some .v
  | .vsqrt _ _ _ _ _ _ => some .v
  | .vsqrtPv _ _ _ _ _ _ => some .v
  | .vrcp _ _ _ _ _ _ => some .v
  | .vrsq _ _ _ _ _ _ => some .v
  | .vexp2 _ _ _ _ _ _ => some .v
  | .vlog2 _ _ _ _ _ _ => some .v
  | .vsinpi _ _ _ _ _ _ => some .v
  | .vcospi _ _ _ _ _ _ => some .v
  | .vcmp _ _ _ _ _ _ _ _ => some .v
  | .vsel _ _ _ _ _ _ => some .v
  | .vand _ _ _ _ _ _ => some .v
  | .vor _ _ _ _ _ _ => some .v
  | .vxor _ _ _ _ _ _ => some .v
  | .vnot _ _ _ _ _ => some .v
  | .vshl _ _ _ _ _ _ _ => some .v
  | .vshr _ _ _ _ _ _ _ => some .v
  | .vsar _ _ _ _ _ _ _ => some .v
  | .mand _ _ _ _ _ => some .v
  | .mor _ _ _ _ _ => some .v
  | .mnot _ _ _ _ => some .v
  | .vpopm _ _ _ _ => some .v
  | .vcvt _ _ _ _ _ _ _ => some .v
  | .vqnt _ _ _ _ _ _ => some .v
  | .vdqnt _ _ _ _ _ _ => some .v
  | .vpack _ _ _ _ _ _ _ => some .v
  | .vunpk _ _ _ _ _ _ _ => some .v
  | .vperm _ _ _ _ _ _ => some .v
  | .vbcast _ _ _ _ _ => some .v
  | .vext _ _ _ _ _ => some .v
  | .vins _ _ _ _ _ => some .v
  | .vrsum _ _ _ _ _ _ => some .v
  | .vrmax _ _ _ _ _ _ => some .v
  | .vrmin _ _ _ _ _ _ => some .v
  | .vdot _ _ _ _ _ _ _ => some .v
  | .vdelta _ _ _ _ _ _ _ => some .v
  | .vrnd _ _ _ _ => some .v
  | .vgauss _ _ _ _ => some .v
  | .xcp _ _ _ _ _ _ => some .v
  | .xbc _ _ _ _ _ _ => some .v
  | .tld _ _ _ _ _ _ => some .x
  | .tst _ _ _ _ _ _ => some .x
  | .tldl _ _ _ _ _ => some .x
  | .tldlIndexed _ _ _ _ => some .x
  | .tstl _ _ _ _ _ => some .x
  | .tstlIndexed _ _ _ _ => some .x
  | .tzero _ _ => some .x
  | .ttr _ _ _ => some .x
  | .tcp _ _ _ => some .x
  | .latch _ _ _ => some .x
  | .mma _ _ _ _ _ => some .x
  | .mmaCl _ _ _ _ _ => some .x
  | .acz _ _ _ _ => some .x
  | .acrd _ _ _ _ _ _ _ => some .x
  | .acadd _ _ _ => some .x
  | .acwr _ _ _ => some .x
  | .acsave _ _ _ _ _ => some .x
  | .acrest _ _ _ _ _ => some .x
  | .mstat _ _ => some .x
  | .stage _ => some .e
  | .cpy _ _ _ _ => some .e
  | .discard _ _ _ _ => some .e
  | .pgreq _ _ _ _ => some .e
  | .sqld _ _ _ _ => some .e
  | .sqpsh _ _ => some .e
  | .sqclr _ => some .e
  | .send _ _ _ _ _ => some .e
  | .recv _ _ _ _ _ => some .e
  | .nred _ _ _ _ => some .e
  | .nbc _ _ _ _ _ => some .e
  | .rqseed _ _ => some .e
  | .rqpos _ _ => some .e
  | .controlRegisterWrite _ _ _ => none
  | .ethcntClear _ => none
  | .hostMemoryWrite _ _ => none
  | .hostMemoryRead _ _ => none
  | .commit _ => none
  | .slotTableSwitch _ => none
  | .maintenanceSlot _ _ => none
  | .perBankRefreshDue _ _ => none
  | .refreshManagementDue _ _ _ => none
  | .test _ => none
  | .faqpop _ => none
  | .faultAddressEntry _ _ => none
  | .hbmAccessPerform _ => none
  | .hbmReadDeliver _ => none
  | .cxldown _ => none
  | .retrain _ _ => none
  | .evictionComplete _ => none
  | .spanWalkComplete _ _ _ => none
  | .sdctlGo _ => none
  | .shootdownRevoke _ => none
  | .prefetchReadPresent _ => none
  | .copyEntryStart _ => none
  | .copyLineTransfer _ _ => none
  | .writebackPresent _ _ => none
  | .writebackRetry _ => none
  | .lateWarning _ => none
  | .untimedRequestServe _ => none
  | .pgreqComplete _ _ => none
  | .queueOperation _ => none
  | .contextWake _ _ => none
  | .contextSwitch _ _ => none
  | .randomQueueRefill _ => none
  | .rcinvGo _ => none
  | .rcInvalidateEffect _ => none
  | .barrierRelease _ => none
  | .fenceDrainDone _ _ => none
  | .launchRecordTake _ => none
  | .ethLaunchFrame _ _ => none
  | .evtpop _ => none
  | .cancel _ => none
  | .flush _ => none
  | .runStart _ => none
  | .stepBegin _ => none
  | .nodeComplete _ _ => none
  | .reuseGateDecision _ _ => none
  | .signalNode _ _ => none
  | .runRetire _ => none
  | .overlayLoad _ => none
  | .panelStart _ => none
  | .coreFree _ => none
  | .preemptSave _ => none
  | .saveComplete _ _ => none
  | .panelResume _ => none
  | .startMarker _ _ => none
  | .syncMarker _ _ => none
  | .syncloss _ => none
  | .linkTraining _ _ _ => none
  | .gramerLinkDown _ => none
  | .freezeBegin _ => none
  | .freezeEnd _ => none
  | .powerIntervalEnd _ => none
  | .temperatureSample _ => none
  | .hardwareFaultDetect _ _ _ _ => none
  | .faultReportEntry _ => none
  | .illegalBundle _ _ _ => none
  | .park _ _ => none
  | .fundamentalReset => none
  | .bootctlGo => none
  | .bootVerifyDone => none
  | .bootctlRestart => none
  | .ready => none
  | .attctlGo => none
  | .attestReportComplete => none
  | .evctlGo => none
  | .panelPlace => none
  | .syncctlStart => none
  | .frqpop => none
  | .partctlGo => none
  | .partitionChange => none

/-- Whether the format of an instruction takes an extension (Table 8.4), and the extension it carries. -/
def Instr.extInfo : Instr → Bool × Ext
  | .add _ _ _ _ => (false, none)
  | .sub _ _ _ _ => (false, none)
  | .and _ _ _ _ => (false, none)
  | .or _ _ _ _ => (false, none)
  | .xor _ _ _ _ => (false, none)
  | .shl _ _ _ _ => (false, none)
  | .shr _ _ _ _ => (false, none)
  | .sar _ _ _ _ => (false, none)
  | .mul _ _ _ _ => (false, none)
  | .mulh _ _ _ _ => (false, none)
  | .mulhn _ _ _ _ => (false, none)
  | .div _ _ _ _ => (false, none)
  | .divn _ _ _ _ => (false, none)
  | .rem _ _ _ _ => (false, none)
  | .remn _ _ _ _ => (false, none)
  | .min _ _ _ _ => (false, none)
  | .max _ _ _ _ => (false, none)
  | .minn _ _ _ _ => (false, none)
  | .maxn _ _ _ _ => (false, none)
  | .clz _ _ _ => (false, none)
  | .popc _ _ _ => (false, none)
  | .mov _ _ _ => (false, none)
  | .movToB _ _ _ => (false, none)
  | .movFromB _ _ _ => (false, none)
  | .cmp _ _ _ _ _ => (false, none)
  | .sel _ _ _ _ _ => (false, none)
  | .bfx _ _ _ _ _ => (false, none)
  | .bfi _ _ _ _ _ => (false, none)
  | .pand _ _ _ _ => (false, none)
  | .por _ _ _ _ => (false, none)
  | .pxor _ _ _ _ => (false, none)
  | .pnot _ _ _ => (false, none)
  | .addi _ e _ _ _ => (true, e)
  | .andi _ e _ _ _ => (true, e)
  | .ori _ e _ _ _ => (true, e)
  | .xori _ e _ _ _ => (true, e)
  | .shli _ _ _ _ => (false, none)
  | .shri _ _ _ _ => (false, none)
  | .sari _ _ _ _ => (false, none)
  | .li _ e _ _ => (true, e)
  | .lih _ _ _ => (false, none)
  | .getsr _ _ _ => (false, none)
  | .setsr _ _ _ => (false, none)
  | .spill _ _ _ => (false, none)
  | .fill _ _ _ => (false, none)
  | .br _ e _ _ => (true, e)
  | .jmp _ _ => (false, none)
  | .jmpr _ _ => (false, none)
  | .call _ e _ _ => (true, e)
  | .ret _ _ => (false, none)
  | .lpset _ _ _ => (false, none)
  | .loop _ e _ => (true, e)
  | .endStrand => (false, none)
  | .bar => (false, none)
  | .trap _ => (false, none)
  | .eret => (false, none)
  | .fence _ _ => (false, none)
  | .drift _ _ => (false, none)
  | .idle _ => (false, none)
  | .lds _ e _ _ _ _ => (true, e)
  | .ldsIndexed _ _ _ _ _ => (false, none)
  | .sts _ e _ _ _ _ => (true, e)
  | .stsIndexed _ _ _ _ _ => (false, none)
  | .ldl _ e _ _ _ _ => (true, e)
  | .ldlIndexed _ _ _ _ _ => (false, none)
  | .stl _ e _ _ _ _ => (true, e)
  | .stlIndexed _ _ _ _ _ => (false, none)
  | .xlat _ _ _ _ => (false, none)
  | .hchk _ _ _ _ => (false, none)
  | .hinv _ _ _ => (false, none)
  | .aadd _ _ _ _ _ _ => (false, none)
  | .amin _ _ _ _ _ _ => (false, none)
  | .amax _ _ _ _ _ _ => (false, none)
  | .aminn _ _ _ _ _ _ => (false, none)
  | .amaxn _ _ _ _ _ _ => (false, none)
  | .aand _ _ _ _ _ _ => (false, none)
  | .aor _ _ _ _ _ _ => (false, none)
  | .axor _ _ _ _ _ _ => (false, none)
  | .aswp _ _ _ _ _ _ => (false, none)
  | .acas _ _ _ _ _ _ => (false, none)
  | .qinit _ _ _ => (false, none)
  | .qenq _ _ _ _ => (false, none)
  | .qdeq _ _ _ => (false, none)
  | .qtry _ _ _ _ => (false, none)
  | .qlen _ _ _ => (false, none)
  | .rld _ e _ _ _ _ _ => (true, e)
  | .rst _ e _ _ _ _ _ => (true, e)
  | .vld _ e _ _ _ _ => (true, e)
  | .vst _ e _ _ _ _ => (true, e)
  | .vlds _ e _ _ _ _ => (true, e)
  | .vldx _ e _ _ _ _ => (true, e)
  | .vstx _ e _ _ _ _ => (true, e)
  | .vldl _ e _ _ _ _ => (true, e)
  | .vstl _ e _ _ _ _ => (true, e)
  | .vadd _ e _ _ _ _ _ => (true, e)
  | .vsub _ e _ _ _ _ _ => (true, e)
  | .vmul _ e _ _ _ _ _ => (true, e)
  | .vfma _ e _ _ _ _ _ => (true, e)
  | .vfms _ e _ _ _ _ _ => (true, e)
  | .vmin _ e _ _ _ _ _ => (true, e)
  | .vmax _ e _ _ _ _ _ => (true, e)
  | .vabs _ e _ _ _ _ => (true, e)
  | .vneg _ e _ _ _ _ => (true, e)
  | .vdiv _ e _ _ _ _ _ => (true, e)
  | .vsqrt _ e _ _ _ _ => (true, e)
  | .vsqrtPv _ e _ _ _ _ => (true, e)
  | .vrcp _ e _ _ _ _ => (true, e)
  | .vrsq _ e _ _ _ _ => (true, e)
  | .vexp2 _ e _ _ _ _ => (true, e)
  | .vlog2 _ e _ _ _ _ => (true, e)
  | .vsinpi _ e _ _ _ _ => (true, e)
  | .vcospi _ e _ _ _ _ => (true, e)
  | .vcmp _ e _ _ _ _ _ _ => (true, e)
  | .vsel _ e _ _ _ _ => (true, e)
  | .vand _ e _ _ _ _ => (true, e)
  | .vor _ e _ _ _ _ => (true, e)
  | .vxor _ e _ _ _ _ => (true, e)
  | .vnot _ e _ _ _ => (true, e)
  | .vshl _ e _ _ _ _ _ => (true, e)
  | .vshr _ e _ _ _ _ _ => (true, e)
  | .vsar _ e _ _ _ _ _ => (true, e)
  | .mand _ e _ _ _ => (true, e)
  | .mor _ e _ _ _ => (true, e)
  | .mnot _ e _ _ => (true, e)
  | .vpopm _ e _ _ => (true, e)
  | .vcvt _ e _ _ _ _ _ => (true, e)
  | .vqnt _ e _ _ _ _ => (true, e)
  | .vdqnt _ e _ _ _ _ => (true, e)
  | .vpack _ e _ _ _ _ _ => (true, e)
  | .vunpk _ e _ _ _ _ _ => (true, e)
  | .vperm _ e _ _ _ _ => (true, e)
  | .vbcast _ e _ _ _ => (true, e)
  | .vext _ e _ _ _ => (true, e)
  | .vins _ e _ _ _ => (true, e)
  | .vrsum _ e _ _ _ _ => (true, e)
  | .vrmax _ e _ _ _ _ => (true, e)
  | .vrmin _ e _ _ _ _ => (true, e)
  | .vdot _ e _ _ _ _ _ => (true, e)
  | .vdelta _ e _ _ _ _ _ => (true, e)
  | .vrnd _ e _ _ => (true, e)
  | .vgauss _ e _ _ => (true, e)
  | .xcp _ e _ _ _ _ => (true, e)
  | .xbc _ e _ _ _ _ => (true, e)
  | .tld _ e _ _ _ _ => (true, e)
  | .tst _ e _ _ _ _ => (true, e)
  | .tldl _ e _ _ _ => (true, e)
  | .tldlIndexed _ _ _ _ => (false, none)
  | .tstl _ e _ _ _ => (true, e)
  | .tstlIndexed _ _ _ _ => (false, none)
  | .tzero _ _ => (false, none)
  | .ttr _ _ _ => (false, none)
  | .tcp _ _ _ => (false, none)
  | .latch _ _ _ => (false, none)
  | .mma _ _ _ _ _ => (false, none)
  | .mmaCl _ _ _ _ _ => (false, none)
  | .acz _ e _ _ => (true, e)
  | .acrd _ _ _ _ _ _ _ => (false, none)
  | .acadd _ _ _ => (false, none)
  | .acwr _ _ _ => (false, none)
  | .acsave _ e _ _ _ => (true, e)
  | .acrest _ e _ _ _ => (true, e)
  | .mstat _ _ => (false, none)
  | .stage _ => (false, none)
  | .cpy _ e _ _ => (true, e)
  | .discard _ _ _ _ => (false, none)
  | .pgreq _ _ _ _ => (false, none)
  | .sqld _ e _ _ => (true, e)
  | .sqpsh _ _ => (false, none)
  | .sqclr _ => (false, none)
  | .send _ _ _ _ _ => (false, none)
  | .recv _ _ _ _ _ => (false, none)
  | .nred _ _ _ _ => (false, none)
  | .nbc _ _ _ _ _ => (false, none)
  | .rqseed _ _ => (false, none)
  | .rqpos _ _ => (false, none)
  | .controlRegisterWrite _ _ _ => (false, none)
  | .ethcntClear _ => (false, none)
  | .hostMemoryWrite _ _ => (false, none)
  | .hostMemoryRead _ _ => (false, none)
  | .commit _ => (false, none)
  | .slotTableSwitch _ => (false, none)
  | .maintenanceSlot _ _ => (false, none)
  | .perBankRefreshDue _ _ => (false, none)
  | .refreshManagementDue _ _ _ => (false, none)
  | .test _ => (false, none)
  | .faqpop _ => (false, none)
  | .faultAddressEntry _ _ => (false, none)
  | .hbmAccessPerform _ => (false, none)
  | .hbmReadDeliver _ => (false, none)
  | .cxldown _ => (false, none)
  | .retrain _ _ => (false, none)
  | .evictionComplete _ => (false, none)
  | .spanWalkComplete _ _ _ => (false, none)
  | .sdctlGo _ => (false, none)
  | .shootdownRevoke _ => (false, none)
  | .prefetchReadPresent _ => (false, none)
  | .copyEntryStart _ => (false, none)
  | .copyLineTransfer _ _ => (false, none)
  | .writebackPresent _ _ => (false, none)
  | .writebackRetry _ => (false, none)
  | .lateWarning _ => (false, none)
  | .untimedRequestServe _ => (false, none)
  | .pgreqComplete _ _ => (false, none)
  | .queueOperation _ => (false, none)
  | .contextWake _ _ => (false, none)
  | .contextSwitch _ _ => (false, none)
  | .randomQueueRefill _ => (false, none)
  | .rcinvGo _ => (false, none)
  | .rcInvalidateEffect _ => (false, none)
  | .barrierRelease _ => (false, none)
  | .fenceDrainDone _ _ => (false, none)
  | .launchRecordTake _ => (false, none)
  | .ethLaunchFrame _ _ => (false, none)
  | .evtpop _ => (false, none)
  | .cancel _ => (false, none)
  | .flush _ => (false, none)
  | .runStart _ => (false, none)
  | .stepBegin _ => (false, none)
  | .nodeComplete _ _ => (false, none)
  | .reuseGateDecision _ _ => (false, none)
  | .signalNode _ _ => (false, none)
  | .runRetire _ => (false, none)
  | .overlayLoad _ => (false, none)
  | .panelStart _ => (false, none)
  | .coreFree _ => (false, none)
  | .preemptSave _ => (false, none)
  | .saveComplete _ _ => (false, none)
  | .panelResume _ => (false, none)
  | .startMarker _ _ => (false, none)
  | .syncMarker _ _ => (false, none)
  | .syncloss _ => (false, none)
  | .linkTraining _ _ _ => (false, none)
  | .gramerLinkDown _ => (false, none)
  | .freezeBegin _ => (false, none)
  | .freezeEnd _ => (false, none)
  | .powerIntervalEnd _ => (false, none)
  | .temperatureSample _ => (false, none)
  | .hardwareFaultDetect _ _ _ _ => (false, none)
  | .faultReportEntry _ => (false, none)
  | .illegalBundle _ _ _ => (false, none)
  | .park _ _ => (false, none)
  | .fundamentalReset => (false, none)
  | .bootctlGo => (false, none)
  | .bootVerifyDone => (false, none)
  | .bootctlRestart => (false, none)
  | .ready => (false, none)
  | .attctlGo => (false, none)
  | .attestReportComplete => (false, none)
  | .evctlGo => (false, none)
  | .panelPlace => (false, none)
  | .syncctlStart => (false, none)
  | .frqpop => (false, none)
  | .partctlGo => (false, none)
  | .partitionChange => (false, none)

/-- Whether L = 1 is legal on the instruction's words (R128). -/
def Instr.takesExt (i : Instr) : Bool := i.extInfo.1

/-- The extension that an instruction carries. -/
def Instr.ext (i : Instr) : Ext := i.extInfo.2

/-- The predicate that governs an instruction (R127): q0 for the words whose QP must be 0, and for BR, whose QP is the
branch condition. -/
def Instr.pred : Instr → BitVec 3
  | .add p _ _ _ => p
  | .sub p _ _ _ => p
  | .and p _ _ _ => p
  | .or p _ _ _ => p
  | .xor p _ _ _ => p
  | .shl p _ _ _ => p
  | .shr p _ _ _ => p
  | .sar p _ _ _ => p
  | .mul p _ _ _ => p
  | .mulh p _ _ _ => p
  | .mulhn p _ _ _ => p
  | .div p _ _ _ => p
  | .divn p _ _ _ => p
  | .rem p _ _ _ => p
  | .remn p _ _ _ => p
  | .min p _ _ _ => p
  | .max p _ _ _ => p
  | .minn p _ _ _ => p
  | .maxn p _ _ _ => p
  | .clz p _ _ => p
  | .popc p _ _ => p
  | .mov p _ _ => p
  | .movToB p _ _ => p
  | .movFromB p _ _ => p
  | .cmp p _ _ _ _ => p
  | .sel p _ _ _ _ => p
  | .bfx p _ _ _ _ => p
  | .bfi p _ _ _ _ => p
  | .pand p _ _ _ => p
  | .por p _ _ _ => p
  | .pxor p _ _ _ => p
  | .pnot p _ _ => p
  | .addi p _ _ _ _ => p
  | .andi p _ _ _ _ => p
  | .ori p _ _ _ _ => p
  | .xori p _ _ _ _ => p
  | .shli p _ _ _ => p
  | .shri p _ _ _ => p
  | .sari p _ _ _ => p
  | .li p _ _ _ => p
  | .lih p _ _ => p
  | .getsr p _ _ => p
  | .setsr p _ _ => p
  | .spill p _ _ => p
  | .fill p _ _ => p
  | .br _ _ _ _ => 0
  | .jmp p _ => p
  | .jmpr p _ => p
  | .call p _ _ _ => p
  | .ret p _ => p
  | .lpset p _ _ => p
  | .loop p _ _ => p
  | .endStrand => 0
  | .bar => 0
  | .trap _ => 0
  | .eret => 0
  | .fence _ _ => 0
  | .drift _ _ => 0
  | .idle _ => 0
  | .lds p _ _ _ _ _ => p
  | .ldsIndexed p _ _ _ _ => p
  | .sts p _ _ _ _ _ => p
  | .stsIndexed p _ _ _ _ => p
  | .ldl p _ _ _ _ _ => p
  | .ldlIndexed p _ _ _ _ => p
  | .stl p _ _ _ _ _ => p
  | .stlIndexed p _ _ _ _ => p
  | .xlat p _ _ _ => p
  | .hchk p _ _ _ => p
  | .hinv p _ _ => p
  | .aadd p _ _ _ _ _ => p
  | .amin p _ _ _ _ _ => p
  | .amax p _ _ _ _ _ => p
  | .aminn p _ _ _ _ _ => p
  | .amaxn p _ _ _ _ _ => p
  | .aand p _ _ _ _ _ => p
  | .aor p _ _ _ _ _ => p
  | .axor p _ _ _ _ _ => p
  | .aswp p _ _ _ _ _ => p
  | .acas p _ _ _ _ _ => p
  | .qinit p _ _ => p
  | .qenq p _ _ _ => p
  | .qdeq p _ _ => p
  | .qtry p _ _ _ => p
  | .qlen p _ _ => p
  | .rld p _ _ _ _ _ _ => p
  | .rst p _ _ _ _ _ _ => p
  | .vld p _ _ _ _ _ => p
  | .vst p _ _ _ _ _ => p
  | .vlds p _ _ _ _ _ => p
  | .vldx p _ _ _ _ _ => p
  | .vstx p _ _ _ _ _ => p
  | .vldl p _ _ _ _ _ => p
  | .vstl p _ _ _ _ _ => p
  | .vadd p _ _ _ _ _ _ => p
  | .vsub p _ _ _ _ _ _ => p
  | .vmul p _ _ _ _ _ _ => p
  | .vfma p _ _ _ _ _ _ => p
  | .vfms p _ _ _ _ _ _ => p
  | .vmin p _ _ _ _ _ _ => p
  | .vmax p _ _ _ _ _ _ => p
  | .vabs p _ _ _ _ _ => p
  | .vneg p _ _ _ _ _ => p
  | .vdiv p _ _ _ _ _ _ => p
  | .vsqrt p _ _ _ _ _ => p
  | .vsqrtPv p _ _ _ _ _ => p
  | .vrcp p _ _ _ _ _ => p
  | .vrsq p _ _ _ _ _ => p
  | .vexp2 p _ _ _ _ _ => p
  | .vlog2 p _ _ _ _ _ => p
  | .vsinpi p _ _ _ _ _ => p
  | .vcospi p _ _ _ _ _ => p
  | .vcmp p _ _ _ _ _ _ _ => p
  | .vsel p _ _ _ _ _ => p
  | .vand p _ _ _ _ _ => p
  | .vor p _ _ _ _ _ => p
  | .vxor p _ _ _ _ _ => p
  | .vnot p _ _ _ _ => p
  | .vshl p _ _ _ _ _ _ => p
  | .vshr p _ _ _ _ _ _ => p
  | .vsar p _ _ _ _ _ _ => p
  | .mand p _ _ _ _ => p
  | .mor p _ _ _ _ => p
  | .mnot p _ _ _ => p
  | .vpopm p _ _ _ => p
  | .vcvt p _ _ _ _ _ _ => p
  | .vqnt p _ _ _ _ _ => p
  | .vdqnt p _ _ _ _ _ => p
  | .vpack p _ _ _ _ _ _ => p
  | .vunpk p _ _ _ _ _ _ => p
  | .vperm p _ _ _ _ _ => p
  | .vbcast p _ _ _ _ => p
  | .vext p _ _ _ _ => p
  | .vins p _ _ _ _ => p
  | .vrsum p _ _ _ _ _ => p
  | .vrmax p _ _ _ _ _ => p
  | .vrmin p _ _ _ _ _ => p
  | .vdot p _ _ _ _ _ _ => p
  | .vdelta p _ _ _ _ _ _ => p
  | .vrnd p _ _ _ => p
  | .vgauss p _ _ _ => p
  | .xcp p _ _ _ _ _ => p
  | .xbc p _ _ _ _ _ => p
  | .tld p _ _ _ _ _ => p
  | .tst p _ _ _ _ _ => p
  | .tldl p _ _ _ _ => p
  | .tldlIndexed p _ _ _ => p
  | .tstl p _ _ _ _ => p
  | .tstlIndexed p _ _ _ => p
  | .tzero p _ => p
  | .ttr p _ _ => p
  | .tcp p _ _ => p
  | .latch p _ _ => p
  | .mma p _ _ _ _ => p
  | .mmaCl p _ _ _ _ => p
  | .acz p _ _ _ => p
  | .acrd p _ _ _ _ _ _ => p
  | .acadd p _ _ => p
  | .acwr p _ _ => p
  | .acsave p _ _ _ _ => p
  | .acrest p _ _ _ _ => p
  | .mstat p _ => p
  | .stage p => p
  | .cpy p _ _ _ => p
  | .discard p _ _ _ => p
  | .pgreq p _ _ _ => p
  | .sqld p _ _ _ => p
  | .sqpsh p _ => p
  | .sqclr p => p
  | .send p _ _ _ _ => p
  | .recv p _ _ _ _ => p
  | .nred p _ _ _ => p
  | .nbc p _ _ _ _ => p
  | .rqseed p _ => p
  | .rqpos p _ => p
  | .controlRegisterWrite _ _ _ => 0
  | .ethcntClear _ => 0
  | .hostMemoryWrite _ _ => 0
  | .hostMemoryRead _ _ => 0
  | .commit _ => 0
  | .slotTableSwitch _ => 0
  | .maintenanceSlot _ _ => 0
  | .perBankRefreshDue _ _ => 0
  | .refreshManagementDue _ _ _ => 0
  | .test _ => 0
  | .faqpop _ => 0
  | .faultAddressEntry _ _ => 0
  | .hbmAccessPerform _ => 0
  | .hbmReadDeliver _ => 0
  | .cxldown _ => 0
  | .retrain _ _ => 0
  | .evictionComplete _ => 0
  | .spanWalkComplete _ _ _ => 0
  | .sdctlGo _ => 0
  | .shootdownRevoke _ => 0
  | .prefetchReadPresent _ => 0
  | .copyEntryStart _ => 0
  | .copyLineTransfer _ _ => 0
  | .writebackPresent _ _ => 0
  | .writebackRetry _ => 0
  | .lateWarning _ => 0
  | .untimedRequestServe _ => 0
  | .pgreqComplete _ _ => 0
  | .queueOperation _ => 0
  | .contextWake _ _ => 0
  | .contextSwitch _ _ => 0
  | .randomQueueRefill _ => 0
  | .rcinvGo _ => 0
  | .rcInvalidateEffect _ => 0
  | .barrierRelease _ => 0
  | .fenceDrainDone _ _ => 0
  | .launchRecordTake _ => 0
  | .ethLaunchFrame _ _ => 0
  | .evtpop _ => 0
  | .cancel _ => 0
  | .flush _ => 0
  | .runStart _ => 0
  | .stepBegin _ => 0
  | .nodeComplete _ _ => 0
  | .reuseGateDecision _ _ => 0
  | .signalNode _ _ => 0
  | .runRetire _ => 0
  | .overlayLoad _ => 0
  | .panelStart _ => 0
  | .coreFree _ => 0
  | .preemptSave _ => 0
  | .saveComplete _ _ => 0
  | .panelResume _ => 0
  | .startMarker _ _ => 0
  | .syncMarker _ _ => 0
  | .syncloss _ => 0
  | .linkTraining _ _ _ => 0
  | .gramerLinkDown _ => 0
  | .freezeBegin _ => 0
  | .freezeEnd _ => 0
  | .powerIntervalEnd _ => 0
  | .temperatureSample _ => 0
  | .hardwareFaultDetect _ _ _ _ => 0
  | .faultReportEntry _ => 0
  | .illegalBundle _ _ _ => 0
  | .park _ _ => 0
  | .fundamentalReset => 0
  | .bootctlGo => 0
  | .bootVerifyDone => 0
  | .bootctlRestart => 0
  | .ready => 0
  | .attctlGo => 0
  | .attestReportComplete => 0
  | .evctlGo => 0
  | .panelPlace => 0
  | .syncctlStart => 0
  | .frqpop => 0
  | .partctlGo => 0
  | .partitionChange => 0

/-- A slot word with the LEND value it takes (R126 to R139): the instruction, or the ILLEGAL cause with the lowest code. -/
def decodeSlot (c : Cls) (w : BitVec 32) (lend : BitVec 8) : Except IllCause Instr :=
  let n := w.toNat
  let e : Ext := if bt n 22 then some lend else none
  let op := n / 2 ^ 26
  if (opsOf c).contains op then
    match decodeBody c op n e with
    | none => .error .field
    | some i =>
      if i.wf then
        if e.isSome && !i.takesExt then .error .lend else .ok i
      else .error .field
  else .error .opcode

/-- An idle bundle (R123): bits [21:0] and bit 30 are 0 and STOP is 1. -/
def decodeIdle (w : BitVec 32) : Option Instr :=
  let n := w.toNat
  if fld n 0 22 = 0 ∧ fld n 30 1 = 0 ∧ fld n 31 1 = 1 then some (.idle (bf n 22 8)) else none

/-- A word of major opcode op whose fields hold the given values at the given lowest bits. -/
def asm (op : Nat) (fs : List (Nat × Nat)) : Nat :=
  fs.foldl (fun n f => n + f.1 * 2 ^ f.2) (op * 2 ^ 26)

/-- The slot word of an instruction, from the encoding tables (Tables 8.4 to 8.10); `none` for a row with no slot word. -/
def Instr.wordNat : Instr → Option Nat
  | .add p d a b => some (asm 0 [(p.toNat, 23), (d.toNat, 17), (a.toNat, 12), (b.toNat, 7)])
  | .sub p d a b => some (asm 1 [(p.toNat, 23), (d.toNat, 17), (a.toNat, 12), (b.toNat, 7)])
  | .and p d a b => some (asm 2 [(p.toNat, 23), (d.toNat, 17), (a.toNat, 12), (b.toNat, 7)])
  | .or p d a b => some (asm 3 [(p.toNat, 23), (d.toNat, 17), (a.toNat, 12), (b.toNat, 7)])
  | .xor p d a b => some (asm 4 [(p.toNat, 23), (d.toNat, 17), (a.toNat, 12), (b.toNat, 7)])
  | .shl p d a b => some (asm 5 [(p.toNat, 23), (d.toNat, 17), (a.toNat, 12), (b.toNat, 7)])
  | .shr p d a b => some (asm 6 [(p.toNat, 23), (d.toNat, 17), (a.toNat, 12), (b.toNat, 7)])
  | .sar p d a b => some (asm 7 [(p.toNat, 23), (d.toNat, 17), (a.toNat, 12), (b.toNat, 7)])
  | .mul p d a b => some (asm 8 [(p.toNat, 23), (d.toNat, 17), (a.toNat, 12), (b.toNat, 7)])
  | .mulh p d a b => some (asm 9 [(p.toNat, 23), (d.toNat, 17), (a.toNat, 12), (b.toNat, 7)])
  | .mulhn p d a b => some (asm 10 [(p.toNat, 23), (d.toNat, 17), (a.toNat, 12), (b.toNat, 7)])
  | .div p d a b => some (asm 11 [(p.toNat, 23), (d.toNat, 17), (a.toNat, 12), (b.toNat, 7)])
  | .divn p d a b => some (asm 12 [(p.toNat, 23), (d.toNat, 17), (a.toNat, 12), (b.toNat, 7)])
  | .rem p d a b => some (asm 13 [(p.toNat, 23), (d.toNat, 17), (a.toNat, 12), (b.toNat, 7)])
  | .remn p d a b => some (asm 14 [(p.toNat, 23), (d.toNat, 17), (a.toNat, 12), (b.toNat, 7)])
  | .min p d a b => some (asm 15 [(p.toNat, 23), (d.toNat, 17), (a.toNat, 12), (b.toNat, 7)])
  | .max p d a b => some (asm 16 [(p.toNat, 23), (d.toNat, 17), (a.toNat, 12), (b.toNat, 7)])
  | .minn p d a b => some (asm 17 [(p.toNat, 23), (d.toNat, 17), (a.toNat, 12), (b.toNat, 7)])
  | .maxn p d a b => some (asm 18 [(p.toNat, 23), (d.toNat, 17), (a.toNat, 12), (b.toNat, 7)])
  | .clz p d a => some (asm 19 [(p.toNat, 23), (d.toNat, 17), (a.toNat, 12)])
  | .popc p d a => some (asm 20 [(p.toNat, 23), (d.toNat, 17), (a.toNat, 12)])
  | .mov p d a => some (asm 21 [(p.toNat, 23), (d.toNat, 17), (a.toNat, 12)])
  | .movToB p d a => some (asm 21 [(p.toNat, 23), (d.toNat, 17), (a.toNat, 12), (1, 0)])
  | .movFromB p d a => some (asm 21 [(p.toNat, 23), (d.toNat, 17), (a.toNat, 12), (2, 0)])
  | .cmp p q a b cc => some (asm 22 [(p.toNat, 23), (q.toNat, 17), (a.toNat, 12), (b.toNat, 7), (cc.code, 0)])
  | .sel p d a b q => some (asm 23 [(p.toNat, 23), (d.toNat, 17), (a.toNat, 12), (b.toNat, 7), (q.toNat, 0)])
  | .bfx p d a n pos => some (asm 24 [(p.toNat, 23), (d.toNat, 17), (a.toNat, 12), (n.toNat, 6), (pos.toNat, 0)])
  | .bfi p d a n pos => some (asm 25 [(p.toNat, 23), (d.toNat, 17), (a.toNat, 12), (n.toNat, 6), (pos.toNat, 0)])
  | .pand p d a b => some (asm 26 [(p.toNat, 23), (d.toNat, 17), (a.toNat, 12), (b.toNat, 7)])
  | .por p d a b => some (asm 27 [(p.toNat, 23), (d.toNat, 17), (a.toNat, 12), (b.toNat, 7)])
  | .pxor p d a b => some (asm 28 [(p.toNat, 23), (d.toNat, 17), (a.toNat, 12), (b.toNat, 7)])
  | .pnot p d a => some (asm 29 [(p.toNat, 23), (d.toNat, 17), (a.toNat, 12)])
  | .addi p e d a i => some (asm 32 [(p.toNat, 23), (Ext.bit e, 22), (d.toNat, 17), (a.toNat, 12), (i.toNat, 0)])
  | .andi p e d a i => some (asm 33 [(p.toNat, 23), (Ext.bit e, 22), (d.toNat, 17), (a.toNat, 12), (i.toNat, 0)])
  | .ori p e d a i => some (asm 34 [(p.toNat, 23), (Ext.bit e, 22), (d.toNat, 17), (a.toNat, 12), (i.toNat, 0)])
  | .xori p e d a i => some (asm 35 [(p.toNat, 23), (Ext.bit e, 22), (d.toNat, 17), (a.toNat, 12), (i.toNat, 0)])
  | .shli p d a n => some (asm 36 [(p.toNat, 23), (d.toNat, 17), (a.toNat, 12), (n.toNat, 0)])
  | .shri p d a n => some (asm 37 [(p.toNat, 23), (d.toNat, 17), (a.toNat, 12), (n.toNat, 0)])
  | .sari p d a n => some (asm 38 [(p.toNat, 23), (d.toNat, 17), (a.toNat, 12), (n.toNat, 0)])
  | .li p e d i => some (asm 39 [(p.toNat, 23), (Ext.bit e, 22), (d.toNat, 17), (i.toNat, 0)])
  | .lih p d i => some (asm 40 [(p.toNat, 23), (d.toNat, 17), (i.toNat, 0)])
  | .getsr p d n => some (asm 42 [(p.toNat, 23), (d.toNat, 17), (n.toNat, 0)])
  | .setsr p a n => some (asm 43 [(p.toNat, 23), (a.toNat, 12), (n.toNat, 0)])
  | .spill p a k => some (asm 44 [(p.toNat, 23), (a.toNat, 12), (k.toNat, 0)])
  | .fill p d k => some (asm 45 [(p.toNat, 23), (d.toNat, 17), (k.toNat, 0)])
  | .br q e n o => some (asm 48 [(q.toNat, 23), (Ext.bit e, 22), (n.toNat, 21), (o.toNat, 0)])
  | .jmp p a => some (asm 49 [(p.toNat, 23), (a.toNat, 2)])
  | .jmpr p a => some (asm 50 [(p.toNat, 23), (a.toNat, 12)])
  | .call p e d o => some (asm 51 [(p.toNat, 23), (Ext.bit e, 22), (d.toNat, 17), (o.toNat, 0)])
  | .ret p a => some (asm 52 [(p.toNat, 23), (a.toNat, 12)])
  | .lpset p a n => some (asm 53 [(p.toNat, 23), (a.toNat, 12), (n.toNat, 0)])
  | .loop p e o => some (asm 54 [(p.toNat, 23), (Ext.bit e, 22), (o.toNat, 0)])
  | .endStrand => some (asm 55 [])
  | .bar => some (asm 56 [])
  | .trap c => some (asm 57 [(c.toNat, 0)])
  | .eret => some (asm 58 [])
  | .fence d sc => some (asm 59 [(d.toNat, 17), (sc.code, 0)])
  | .drift d a => some (asm 60 [(d.toNat, 17), (a.toNat, 12)])
  | .lds p e d base z o => some (asm 0 [(p.toNat, 23), (Ext.bit e, 22), (d.toNat, 17), (base.kind, 16), (base.num, 11), (z.code, 9), (o.toNat, 0)])
  | .ldsIndexed p d base z x => some (asm 0 [(p.toNat, 23), (d.toNat, 17), (base.kind, 16), (base.num, 11), (z.code, 9), (x.toNat, 3), (1, 8)])
  | .sts p e d base z o => some (asm 1 [(p.toNat, 23), (Ext.bit e, 22), (d.toNat, 17), (base.kind, 16), (base.num, 11), (z.code, 9), (o.toNat, 0)])
  | .stsIndexed p d base z x => some (asm 1 [(p.toNat, 23), (d.toNat, 17), (base.kind, 16), (base.num, 11), (z.code, 9), (x.toNat, 3), (1, 8)])
  | .ldl p e d h z o => some (asm 2 [(p.toNat, 23), (Ext.bit e, 22), (d.toNat, 17), (h.toNat, 11), (z.code, 9), (o.toNat, 0)])
  | .ldlIndexed p d h z x => some (asm 2 [(p.toNat, 23), (d.toNat, 17), (h.toNat, 11), (z.code, 9), (x.toNat, 3), (1, 8)])
  | .stl p e d h z o => some (asm 3 [(p.toNat, 23), (Ext.bit e, 22), (d.toNat, 17), (h.toNat, 11), (z.code, 9), (o.toNat, 0)])
  | .stlIndexed p d h z x => some (asm 3 [(p.toNat, 23), (d.toNat, 17), (h.toNat, 11), (z.code, 9), (x.toNat, 3), (1, 8)])
  | .xlat p h a b => some (asm 4 [(p.toNat, 23), (h.toNat, 17), (a.toNat, 12), (b.toNat, 7)])
  | .hchk p d h q => some (asm 5 [(p.toNat, 23), (d.toNat, 17), (h.toNat, 12), (q.toNat, 0)])
  | .hinv p a b => some (asm 6 [(p.toNat, 23), (a.toNat, 12), (b.toNat, 7)])
  | .aadd p d h i x z => some (asm 8 [(p.toNat, 23), (d.toNat, 17), (h.toNat, 13), (i.toNat, 8), (x.toNat, 3), (z.code, 2)])
  | .amin p d h i x z => some (asm 9 [(p.toNat, 23), (d.toNat, 17), (h.toNat, 13), (i.toNat, 8), (x.toNat, 3), (z.code, 2)])
  | .amax p d h i x z => some (asm 10 [(p.toNat, 23), (d.toNat, 17), (h.toNat, 13), (i.toNat, 8), (x.toNat, 3), (z.code, 2)])
  | .aminn p d h i x z => some (asm 11 [(p.toNat, 23), (d.toNat, 17), (h.toNat, 13), (i.toNat, 8), (x.toNat, 3), (z.code, 2)])
  | .amaxn p d h i x z => some (asm 12 [(p.toNat, 23), (d.toNat, 17), (h.toNat, 13), (i.toNat, 8), (x.toNat, 3), (z.code, 2)])
  | .aand p d h i x z => some (asm 13 [(p.toNat, 23), (d.toNat, 17), (h.toNat, 13), (i.toNat, 8), (x.toNat, 3), (z.code, 2)])
  | .aor p d h i x z => some (asm 14 [(p.toNat, 23), (d.toNat, 17), (h.toNat, 13), (i.toNat, 8), (x.toNat, 3), (z.code, 2)])
  | .axor p d h i x z => some (asm 15 [(p.toNat, 23), (d.toNat, 17), (h.toNat, 13), (i.toNat, 8), (x.toNat, 3), (z.code, 2)])
  | .aswp p d h i x z => some (asm 16 [(p.toNat, 23), (d.toNat, 17), (h.toNat, 13), (i.toNat, 8), (x.toNat, 3), (z.code, 2)])
  | .acas p d h i x z => some (asm 17 [(p.toNat, 23), (d.toNat, 17), (h.toNat, 13), (i.toNat, 8), (x.toNat, 3), (z.code, 2)])
  | .qinit p a b => some (asm 20 [(p.toNat, 23), (a.toNat, 12), (b.toNat, 7)])
  | .qenq p d a b => some (asm 21 [(p.toNat, 23), (d.toNat, 17), (a.toNat, 12), (b.toNat, 7)])
  | .qdeq p d a => some (asm 22 [(p.toNat, 23), (d.toNat, 17), (a.toNat, 12)])
  | .qtry p d a q => some (asm 23 [(p.toNat, 23), (d.toNat, 17), (a.toNat, 12), (q.toNat, 0)])
  | .qlen p d a => some (asm 24 [(p.toNat, 23), (d.toNat, 17), (a.toNat, 12)])
  | .rld p e d k a z o => some (asm 26 [(p.toNat, 23), (Ext.bit e, 22), (d.toNat, 17), (k.toNat, 12), (a.toNat, 7), (z.code, 5), (o.toNat, 0)])
  | .rst p e d k a z o => some (asm 27 [(p.toNat, 23), (Ext.bit e, 22), (d.toNat, 17), (k.toNat, 12), (a.toNat, 7), (z.code, 5), (o.toNat, 0)])
  | .vld p e v base o m => some (asm 0 [(p.toNat, 23), (Ext.bit e, 22), (v.toNat, 17), (base.kind, 16), (base.num, 11), (o.toNat, 3), (m.toNat, 0)])
  | .vst p e v base o m => some (asm 1 [(p.toNat, 23), (Ext.bit e, 22), (v.toNat, 17), (base.kind, 16), (base.num, 11), (o.toNat, 3), (m.toNat, 0)])
  | .vlds p e v a b m => some (asm 2 [(p.toNat, 23), (Ext.bit e, 22), (v.toNat, 17), (a.toNat, 12), (b.toNat, 7), (m.toNat, 1)])
  | .vldx p e v a b m => some (asm 3 [(p.toNat, 23), (Ext.bit e, 22), (v.toNat, 17), (a.toNat, 12), (b.toNat, 7), (m.toNat, 1)])
  | .vstx p e v a b m => some (asm 4 [(p.toNat, 23), (Ext.bit e, 22), (v.toNat, 17), (a.toNat, 12), (b.toNat, 7), (m.toNat, 1)])
  | .vldl p e v h o m => some (asm 5 [(p.toNat, 23), (Ext.bit e, 22), (v.toNat, 17), (h.toNat, 11), (o.toNat, 3), (m.toNat, 0)])
  | .vstl p e v h o m => some (asm 6 [(p.toNat, 23), (Ext.bit e, 22), (v.toNat, 17), (h.toNat, 11), (o.toNat, 3), (m.toNat, 0)])
  | .vadd p e v a b t m => some (asm 8 [(p.toNat, 23), (Ext.bit e, 22), (v.toNat, 17), (a.toNat, 12), (b.toNat, 7), (t.code, 4), (m.toNat, 1)])
  | .vsub p e v a b t m => some (asm 9 [(p.toNat, 23), (Ext.bit e, 22), (v.toNat, 17), (a.toNat, 12), (b.toNat, 7), (t.code, 4), (m.toNat, 1)])
  | .vmul p e v a b t m => some (asm 10 [(p.toNat, 23), (Ext.bit e, 22), (v.toNat, 17), (a.toNat, 12), (b.toNat, 7), (t.code, 4), (m.toNat, 1)])
  | .vfma p e v a b t m => some (asm 11 [(p.toNat, 23), (Ext.bit e, 22), (v.toNat, 17), (a.toNat, 12), (b.toNat, 7), (t.code, 4), (m.toNat, 1)])
  | .vfms p e v a b t m => some (asm 12 [(p.toNat, 23), (Ext.bit e, 22), (v.toNat, 17), (a.toNat, 12), (b.toNat, 7), (t.code, 4), (m.toNat, 1)])
  | .vmin p e v a b t m => some (asm 13 [(p.toNat, 23), (Ext.bit e, 22), (v.toNat, 17), (a.toNat, 12), (b.toNat, 7), (t.code, 4), (m.toNat, 1)])
  | .vmax p e v a b t m => some (asm 14 [(p.toNat, 23), (Ext.bit e, 22), (v.toNat, 17), (a.toNat, 12), (b.toNat, 7), (t.code, 4), (m.toNat, 1)])
  | .vabs p e v a t m => some (asm 15 [(p.toNat, 23), (Ext.bit e, 22), (v.toNat, 17), (a.toNat, 12), (t.code, 4), (m.toNat, 1)])
  | .vneg p e v a t m => some (asm 16 [(p.toNat, 23), (Ext.bit e, 22), (v.toNat, 17), (a.toNat, 12), (t.code, 4), (m.toNat, 1)])
  | .vdiv p e v a b t m => some (asm 17 [(p.toNat, 23), (Ext.bit e, 22), (v.toNat, 17), (a.toNat, 12), (b.toNat, 7), (t.code, 4), (m.toNat, 1)])
  | .vsqrt p e v a t m => some (asm 18 [(p.toNat, 23), (Ext.bit e, 22), (v.toNat, 17), (a.toNat, 12), (t.code, 4), (m.toNat, 1)])
  | .vsqrtPv p e v a t m => some (asm 18 [(p.toNat, 23), (Ext.bit e, 22), (v.toNat, 17), (a.toNat, 12), (t.code, 4), (m.toNat, 1), (1, 0)])
  | .vrcp p e v a t m => some (asm 19 [(p.toNat, 23), (Ext.bit e, 22), (v.toNat, 17), (a.toNat, 12), (t.code, 4), (m.toNat, 1)])
  | .vrsq p e v a t m => some (asm 20 [(p.toNat, 23), (Ext.bit e, 22), (v.toNat, 17), (a.toNat, 12), (t.code, 4), (m.toNat, 1)])
  | .vexp2 p e v a t m => some (asm 21 [(p.toNat, 23), (Ext.bit e, 22), (v.toNat, 17), (a.toNat, 12), (t.code, 4), (m.toNat, 1)])
  | .vlog2 p e v a t m => some (asm 22 [(p.toNat, 23), (Ext.bit e, 22), (v.toNat, 17), (a.toNat, 12), (t.code, 4), (m.toNat, 1)])
  | .vsinpi p e v a t m => some (asm 23 [(p.toNat, 23), (Ext.bit e, 22), (v.toNat, 17), (a.toNat, 12), (t.code, 4), (m.toNat, 1)])
  | .vcospi p e v a t m => some (asm 24 [(p.toNat, 23), (Ext.bit e, 22), (v.toNat, 17), (a.toNat, 12), (t.code, 4), (m.toNat, 1)])
  | .vcmp p e d cc a b t m => some (asm 25 [(p.toNat, 23), (Ext.bit e, 22), (d.toNat, 19), (cc.code / 2, 17), (cc.code % 2, 0), (a.toNat, 12), (b.toNat, 7), (t.code, 4), (m.toNat, 1)])
  | .vsel p e v a b ms => some (asm 26 [(p.toNat, 23), (Ext.bit e, 22), (v.toNat, 17), (a.toNat, 12), (b.toNat, 7), (ms.toNat, 1)])
  | .vand p e v a b m => some (asm 27 [(p.toNat, 23), (Ext.bit e, 22), (v.toNat, 17), (a.toNat, 12), (b.toNat, 7), (m.toNat, 1)])
  | .vor p e v a b m => some (asm 28 [(p.toNat, 23), (Ext.bit e, 22), (v.toNat, 17), (a.toNat, 12), (b.toNat, 7), (m.toNat, 1)])
  | .vxor p e v a b m => some (asm 29 [(p.toNat, 23), (Ext.bit e, 22), (v.toNat, 17), (a.toNat, 12), (b.toNat, 7), (m.toNat, 1)])
  | .vnot p e v a m => some (asm 30 [(p.toNat, 23), (Ext.bit e, 22), (v.toNat, 17), (a.toNat, 12), (m.toNat, 1)])
  | .vshl p e v a b t m => some (asm 31 [(p.toNat, 23), (Ext.bit e, 22), (v.toNat, 17), (a.toNat, 12), (b.toNat, 7), (t.code, 4), (m.toNat, 1)])
  | .vshr p e v a b t m => some (asm 32 [(p.toNat, 23), (Ext.bit e, 22), (v.toNat, 17), (a.toNat, 12), (b.toNat, 7), (t.code, 4), (m.toNat, 1)])
  | .vsar p e v a b t m => some (asm 33 [(p.toNat, 23), (Ext.bit e, 22), (v.toNat, 17), (a.toNat, 12), (b.toNat, 7), (t.code, 4), (m.toNat, 1)])
  | .mand p e d a b => some (asm 34 [(p.toNat, 23), (Ext.bit e, 22), (d.toNat, 17), (a.toNat, 12), (b.toNat, 7)])
  | .mor p e d a b => some (asm 35 [(p.toNat, 23), (Ext.bit e, 22), (d.toNat, 17), (a.toNat, 12), (b.toNat, 7)])
  | .mnot p e d a => some (asm 36 [(p.toNat, 23), (Ext.bit e, 22), (d.toNat, 17), (a.toNat, 12)])
  | .vpopm p e d a => some (asm 37 [(p.toNat, 23), (Ext.bit e, 22), (d.toNat, 17), (a.toNat, 12)])
  | .vcvt p e v a st t m => some (asm 38 [(p.toNat, 23), (Ext.bit e, 22), (v.toNat, 17), (a.toNat, 12), (st.code, 7), (t.code, 4), (m.toNat, 1)])
  | .vqnt p e v a ec t => some (asm 39 [(p.toNat, 23), (Ext.bit e, 22), (v.toNat, 17), (a.toNat, 12), (ec.code, 7), (t.code, 4)])
  | .vdqnt p e v a ec t => some (asm 40 [(p.toNat, 23), (Ext.bit e, 22), (v.toNat, 17), (a.toNat, 12), (ec.code, 7), (t.code, 4)])
  | .vpack p e v a b t m => some (asm 41 [(p.toNat, 23), (Ext.bit e, 22), (v.toNat, 17), (a.toNat, 12), (b.toNat, 7), (t.code, 4), (m.toNat, 1)])
  | .vunpk p e v a hi t m => some (asm 42 [(p.toNat, 23), (Ext.bit e, 22), (v.toNat, 17), (a.toNat, 12), (hi.toNat, 7), (t.code, 4), (m.toNat, 1)])
  | .vperm p e v a b m => some (asm 43 [(p.toNat, 23), (Ext.bit e, 22), (v.toNat, 17), (a.toNat, 12), (b.toNat, 7), (m.toNat, 1)])
  | .vbcast p e v a m => some (asm 44 [(p.toNat, 23), (Ext.bit e, 22), (v.toNat, 17), (a.toNat, 12), (m.toNat, 1)])
  | .vext p e d a n => some (asm 45 [(p.toNat, 23), (Ext.bit e, 22), (d.toNat, 17), (a.toNat, 12), (n.toNat, 7)])
  | .vins p e v a n => some (asm 46 [(p.toNat, 23), (Ext.bit e, 22), (v.toNat, 17), (a.toNat, 12), (n.toNat, 7)])
  | .vrsum p e v a t m => some (asm 48 [(p.toNat, 23), (Ext.bit e, 22), (v.toNat, 17), (a.toNat, 12), (t.code, 4), (m.toNat, 1)])
  | .vrmax p e v a t m => some (asm 49 [(p.toNat, 23), (Ext.bit e, 22), (v.toNat, 17), (a.toNat, 12), (t.code, 4), (m.toNat, 1)])
  | .vrmin p e v a t m => some (asm 50 [(p.toNat, 23), (Ext.bit e, 22), (v.toNat, 17), (a.toNat, 12), (t.code, 4), (m.toNat, 1)])
  | .vdot p e v a b t m => some (asm 51 [(p.toNat, 23), (Ext.bit e, 22), (v.toNat, 17), (a.toNat, 12), (b.toNat, 7), (t.code, 4), (m.toNat, 1)])
  | .vdelta p e v a b t m => some (asm 52 [(p.toNat, 23), (Ext.bit e, 22), (v.toNat, 17), (a.toNat, 12), (b.toNat, 7), (t.code, 4), (m.toNat, 1)])
  | .vrnd p e v m => some (asm 54 [(p.toNat, 23), (Ext.bit e, 22), (v.toNat, 17), (m.toNat, 1)])
  | .vgauss p e v m => some (asm 55 [(p.toNat, 23), (Ext.bit e, 22), (v.toNat, 17), (m.toNat, 1)])
  | .xcp p e v a n m => some (asm 56 [(p.toNat, 23), (Ext.bit e, 22), (v.toNat, 17), (a.toNat, 12), (n.toNat, 7), (m.toNat, 1)])
  | .xbc p e v a n m => some (asm 57 [(p.toNat, 23), (Ext.bit e, 22), (v.toNat, 17), (a.toNat, 12), (n.toNat, 7), (m.toNat, 1)])
  | .tld p e t base r o => some (asm 0 [(p.toNat, 23), (Ext.bit e, 22), (t.toNat, 18), (base.kind, 17), (base.num, 12), (r.toNat, 7), (o.toNat, 0)])
  | .tst p e t base r o => some (asm 1 [(p.toNat, 23), (Ext.bit e, 22), (t.toNat, 18), (base.kind, 17), (base.num, 12), (r.toNat, 7), (o.toNat, 0)])
  | .tldl p e t h o => some (asm 2 [(p.toNat, 23), (Ext.bit e, 22), (t.toNat, 18), (h.toNat, 14), (o.toNat, 0)])
  | .tldlIndexed p t h i => some (asm 2 [(p.toNat, 23), (t.toNat, 18), (h.toNat, 14), (i.toNat, 8), (1, 13)])
  | .tstl p e t h o => some (asm 3 [(p.toNat, 23), (Ext.bit e, 22), (t.toNat, 18), (h.toNat, 14), (o.toNat, 0)])
  | .tstlIndexed p t h i => some (asm 3 [(p.toNat, 23), (t.toNat, 18), (h.toNat, 14), (i.toNat, 8), (1, 13)])
  | .tzero p d => some (asm 4 [(p.toNat, 23), (d.toNat, 18)])
  | .ttr p d a => some (asm 5 [(p.toNat, 23), (d.toNat, 18), (a.toNat, 14)])
  | .tcp p d a => some (asm 6 [(p.toNat, 23), (d.toNat, 18), (a.toNat, 14)])
  | .latch p n a => some (asm 7 [(p.toNat, 23), (n.toNat, 20), (a.toNat, 14)])
  | .mma p c a l f => some (asm 8 [(p.toNat, 23), (c.toNat, 20), (a.toNat, 14), (l.toNat, 12), (f.code, 9)])
  | .mmaCl p c a l f => some (asm 8 [(p.toNat, 23), (c.toNat, 20), (a.toNat, 14), (l.toNat, 12), (f.code, 9), (1, 8)])
  | .acz p e a i => some (asm 9 [(p.toNat, 23), (Ext.bit e, 22), (a.toNat, 20), (i.toNat, 0)])
  | .acrd p d n f r ov hi => some (asm 10 [(p.toNat, 23), (d.toNat, 18), (n.toNat, 16), (f.code, 13), (r.code, 11), (ov.code, 10), (hi.toNat, 9)])
  | .acadd p n m => some (asm 11 [(p.toNat, 23), (n.toNat, 20), (m.toNat, 16)])
  | .acwr p n a => some (asm 12 [(p.toNat, 23), (n.toNat, 20), (a.toNat, 14)])
  | .acsave p e n base o => some (asm 13 [(p.toNat, 23), (Ext.bit e, 22), (n.toNat, 20), (base.kind, 17), (base.num, 12), (o.toNat, 0)])
  | .acrest p e n base o => some (asm 14 [(p.toNat, 23), (Ext.bit e, 22), (n.toNat, 20), (base.kind, 17), (base.num, 12), (o.toNat, 0)])
  | .mstat p d => some (asm 15 [(p.toNat, 23), (d.toNat, 17)])
  | .stage p => some (asm 0 [(p.toNat, 23)])
  | .cpy p e base o => some (asm 1 [(p.toNat, 23), (Ext.bit e, 22), (base.kind, 16), (base.num, 11), (o.toNat, 0)])
  | .discard p h b c => some (asm 2 [(p.toNat, 23), (h.toNat, 17), (b.toNat, 12), (c.toNat, 7)])
  | .pgreq p d h c => some (asm 3 [(p.toNat, 23), (d.toNat, 17), (h.toNat, 12), (c.toNat, 7)])
  | .sqld p e base o => some (asm 4 [(p.toNat, 23), (Ext.bit e, 22), (base.kind, 16), (base.num, 11), (o.toNat, 0)])
  | .sqpsh p a => some (asm 5 [(p.toNat, 23), (a.toNat, 17)])
  | .sqclr p => some (asm 6 [(p.toNat, 23)])
  | .send p a b c f => some (asm 8 [(p.toNat, 23), (a.toNat, 17), (b.toNat, 12), (c.toNat, 7), (f.toNat, 0)])
  | .recv p a b c f => some (asm 9 [(p.toNat, 23), (a.toNat, 17), (b.toNat, 12), (c.toNat, 7), (f.toNat, 0)])
  | .nred p n b f => some (asm 10 [(p.toNat, 23), (n.toNat, 17), (b.toNat, 12), (f.toNat, 0)])
  | .nbc p a b c f => some (asm 11 [(p.toNat, 23), (a.toNat, 17), (b.toNat, 12), (c.toNat, 7), (f.toNat, 0)])
  | .rqseed p a => some (asm 12 [(p.toNat, 23), (a.toNat, 17)])
  | .rqpos p a => some (asm 13 [(p.toNat, 23), (a.toNat, 17)])
  | .idle _ => none
  | .controlRegisterWrite _ _ _ => none
  | .ethcntClear _ => none
  | .hostMemoryWrite _ _ => none
  | .hostMemoryRead _ _ => none
  | .commit _ => none
  | .slotTableSwitch _ => none
  | .maintenanceSlot _ _ => none
  | .perBankRefreshDue _ _ => none
  | .refreshManagementDue _ _ _ => none
  | .test _ => none
  | .faqpop _ => none
  | .faultAddressEntry _ _ => none
  | .hbmAccessPerform _ => none
  | .hbmReadDeliver _ => none
  | .cxldown _ => none
  | .retrain _ _ => none
  | .evictionComplete _ => none
  | .spanWalkComplete _ _ _ => none
  | .sdctlGo _ => none
  | .shootdownRevoke _ => none
  | .prefetchReadPresent _ => none
  | .copyEntryStart _ => none
  | .copyLineTransfer _ _ => none
  | .writebackPresent _ _ => none
  | .writebackRetry _ => none
  | .lateWarning _ => none
  | .untimedRequestServe _ => none
  | .pgreqComplete _ _ => none
  | .queueOperation _ => none
  | .contextWake _ _ => none
  | .contextSwitch _ _ => none
  | .randomQueueRefill _ => none
  | .rcinvGo _ => none
  | .rcInvalidateEffect _ => none
  | .barrierRelease _ => none
  | .fenceDrainDone _ _ => none
  | .launchRecordTake _ => none
  | .ethLaunchFrame _ _ => none
  | .evtpop _ => none
  | .cancel _ => none
  | .flush _ => none
  | .runStart _ => none
  | .stepBegin _ => none
  | .nodeComplete _ _ => none
  | .reuseGateDecision _ _ => none
  | .signalNode _ _ => none
  | .runRetire _ => none
  | .overlayLoad _ => none
  | .panelStart _ => none
  | .coreFree _ => none
  | .preemptSave _ => none
  | .saveComplete _ _ => none
  | .panelResume _ => none
  | .startMarker _ _ => none
  | .syncMarker _ _ => none
  | .syncloss _ => none
  | .linkTraining _ _ _ => none
  | .gramerLinkDown _ => none
  | .freezeBegin _ => none
  | .freezeEnd _ => none
  | .powerIntervalEnd _ => none
  | .temperatureSample _ => none
  | .hardwareFaultDetect _ _ _ _ => none
  | .faultReportEntry _ => none
  | .illegalBundle _ _ _ => none
  | .park _ _ => none
  | .fundamentalReset => none
  | .bootctlGo => none
  | .bootVerifyDone => none
  | .bootctlRestart => none
  | .ready => none
  | .attctlGo => none
  | .attestReportComplete => none
  | .evctlGo => none
  | .panelPlace => none
  | .syncctlStart => none
  | .frqpop => none
  | .partctlGo => none
  | .partitionChange => none

/-- The header of a bundle that holds one word of a class alone: the presence bit of S0, M, X, E or V0, LEND, and STOP
(Table 8.1). -/
def headerFor (c : Cls) (e : Ext) : Nat :=
  (match c with | .s => 1 | .m => 4 | .x => 8 | .e => 16 | .v => 32)
    + (match e with | none => 0 | some l => l.toNat * 2 ^ 22) + 2 ^ 31

/-- The words of a bundle that holds one well-formed instruction alone: a header and its slot word, or an idle header.
A step of the part that is no word has none. -/
def encode (i : Instr) : List (BitVec 32) :=
  match i with
  | .idle n => [BitVec.ofNat 32 (n.toNat * 2 ^ 22 + 2 ^ 31)]
  | i =>
    match i.cls, i.wordNat with
    | some c, some w => [BitVec.ofNat 32 (headerFor c i.ext), BitVec.ofNat 32 w]
    | _, _ => []

/-- How many bits the opcode table fixes in the words of an instruction; 0 for a step of the part. -/
def Instr.fixedBits : Instr → Nat
  | .addi .. | .andi .. | .ori .. | .xori .. | .li .. | .br .. | .call .. | .rld .. | .rst .. | .vld .. | .vst ..
  | .vcmp .. | .tld .. | .tst .. => 6
  | .bfx .. | .bfi .. | .loop .. | .lds .. | .sts .. | .vadd .. | .vsub .. | .vmul .. | .vfma .. | .vfms .. | .vmin ..
  | .vmax .. | .vdiv .. | .vshl .. | .vshr .. | .vsar .. | .vpack .. | .vdot .. | .vdelta .. | .tldl .. | .tstl ..
  | .nbc .. => 7
  | .lih .. | .vldl .. | .vstl .. => 8
  | .ldl .. | .stl .. | .aadd .. | .amin .. | .amax .. | .aminn .. | .amaxn .. | .aand .. | .aor .. | .axor ..
  | .aswp .. | .acas .. | .vcvt .. => 9
  | .vlds .. | .vldx .. | .vstx .. | .vsel .. | .vand .. | .vor .. | .vxor .. | .vperm .. => 10
  | .sel .. | .ldsIndexed .. | .stsIndexed .. | .vunpk .. | .cpy .. | .sqld .. | .send .. | .recv .. => 11
  | .vabs .. | .vneg .. | .vsqrt .. | .vsqrtPv .. | .vrcp .. | .vrsq .. | .vexp2 .. | .vlog2 .. | .vsinpi ..
  | .vcospi .. | .vqnt .. | .vdqnt .. | .vrsum .. | .vrmax .. | .vrmin .. | .xcp .. | .xbc .. => 12
  | .cmp .. | .shli .. | .shri .. | .sari .. | .ldlIndexed .. | .stlIndexed .. | .acsave .. | .acrest .. => 13
  | .add .. | .sub .. | .and .. | .or .. | .xor .. | .shl .. | .shr .. | .sar .. | .mul .. | .mulh .. | .mulhn ..
  | .div .. | .divn .. | .rem .. | .remn .. | .min .. | .max .. | .minn .. | .maxn .. | .getsr .. | .setsr ..
  | .qenq .. | .vext .. | .vins .. | .acz .. => 14
  | .jmp .. | .xlat .. | .vnot .. | .vbcast .. | .discard .. | .pgreq .. | .nred .. => 15
  | .trap .. | .qtry .. | .tldlIndexed .. | .tstlIndexed .. | .acrd .. => 16
  | .hchk .. => 17
  | .spill .. | .fill .. | .mma .. | .mmaCl .. => 18
  | .clz .. | .popc .. | .mov .. | .hinv .. | .qinit .. | .qdeq .. | .qlen .. | .mand .. | .mor .. => 19
  | .pand .. | .por .. | .pxor .. | .lpset .. | .vpopm .. | .vrnd .. | .vgauss .. => 20
  | .movToB .. | .movFromB .. | .ttr .. | .tcp .. => 21
  | .drift .. | .mnot .. => 22
  | .pnot .. | .latch .. | .acwr .. => 23
  | .jmpr .. | .ret .. | .fence .. | .mstat .. | .sqpsh .. | .rqseed .. | .rqpos .. => 24
  | .tzero .. | .acadd .. => 25
  | .stage .. | .sqclr .. => 29
  | .endStrand | .bar | .eret => 32
  | .idle _ => 24
  | _ => 0

/-- Of two readings the one whose row fixes more bits; the first of equals. -/
def closerRow (c : Cls) (w : BitVec 32) (b : Option (Cls × Instr)) : Option (Cls × Instr) :=
  match decodeSlot c w 0 with
  | .error _ => b
  | .ok i =>
    match b with
    | none => some (c, i)
    | some x => if x.2.fixedBits < i.fixedBits then some (c, i) else b

/-- The slot class in which `decodeTableWord` reads a word: of the classes whose map takes it, the one whose row fixes most of its bits;
of equals the first of S, M, V, X and E. None for what is an idle header before that. -/
def tableClass (w : BitVec 32) : Option (Cls × Instr) :=
  let b := closerRow .e w (closerRow .x w (closerRow .v w (closerRow .m w (closerRow .s w none))))
  match b, decodeIdle w with
  | some x, some i => if x.2.fixedBits < i.fixedBits then none else b
  | _, _ => b

/-- The instruction that the decoder reads from one 32-bit word of the opcode table. A slot word does not name its
slot class; its header does. Here the closest row is taken (DESIGN CHOICE, log 7), with LEND 0, and an idle header
last. -/
def decodeTableWord (nbits w : Nat) : Option Instr :=
  if nbits = 32 then
    match tableClass (BitVec.ofNat 32 w) with
    | some (_, i) => some i
    | none => decodeIdle (BitVec.ofNat 32 w)
  else none

end Sys2Proof
end

