-- ==== Sys2Proof/Machine/Sparse.lean ====
section
/-!
DEFINITION. Sparse maps in their one canonical form, and byte strings. Every memory and every register file of the state
is such a map.
-/
namespace Sys2Proof.Machine

/-- The value at k; `d` is what an unlisted key reads as. -/
def spGet {α : Type} (d : α) : Sparse α → Nat → α
  | [], _ => d
  | (j, v) :: m, k => if j = k then v else spGet d m k

/-- All entries but those of k. -/
def spErase {α : Type} : Sparse α → Nat → Sparse α
  | [], _ => []
  | (j, v) :: m, k => if j = k then spErase m k else (j, v) :: spErase m k

/-- An entry put in its place by key. -/
def spInsert {α : Type} (k : Nat) (v : α) : Sparse α → Sparse α
  | [] => [(k, v)]
  | (j, u) :: m => if k < j then (k, v) :: (j, u) :: m else (j, u) :: spInsert k v m

/-- The map with v at k; the default removes the entry, so that equal maps are equal data. -/
def spPut {α : Type} [DecidableEq α] (d : α) (m : Sparse α) (k : Nat) (v : α) : Sparse α :=
  if v = d then spErase m k else spInsert k v (spErase m k)

/-- The canonical form: keys strictly rising, no entry equal to the default. -/
def spWf {α : Type} [DecidableEq α] (d : α) : Sparse α → Bool
  | [] => true
  | [(_, v)] => decide (v ≠ d)
  | (j, v) :: (k, u) :: m => decide (v ≠ d) && decide (j < k) && spWf d ((k, u) :: m)

/-- The map whose value at k < n is f k. -/
def spBuild {α : Type} [DecidableEq α] (d : α) (n : Nat) (f : Nat → α) : Sparse α :=
  (List.range n).filterMap fun k => let v := f k; if v = d then none else some (k, v)

/-- The values at k, k + 1, …, k + n - 1. -/
def spDense {α : Type} (d : α) : Sparse α → Nat → Nat → List α
  | _, _, 0 => []
  | [], k, n + 1 => d :: spDense d [] (k + 1) n
  | (j, v) :: m, k, n + 1 => if j = k then v :: spDense d m (k + 1) n else d :: spDense d ((j, v) :: m) (k + 1) n

/-- The map of a list of values from key 0. -/
def spOf {α : Type} [DecidableEq α] (d : α) (l : List α) : Sparse α :=
  l.zipIdx.filterMap fun x => if x.1 = d then none else some (x.2, x.1)

/-- Two maps below n joined value by value. -/
def spZip {α : Type} [DecidableEq α] (d : α) (n : Nat) (f : α → α → α) (a b : Sparse α) : Sparse α :=
  spOf d (List.zipWith f (spDense d a 0 n) (spDense d b 0 n))

/-- The map with f applied at k. -/
def spUpd {α : Type} [DecidableEq α] (d : α) (m : Sparse α) (k : Nat) (f : α → α) : Sparse α :=
  spPut d m k (f (spGet d m k))

/-! ## Bytes -/

/-- The n bytes from address a. -/
def bytesAt (m : Sparse Byte) (a n : Nat) : List Byte :=
  (List.range n).map fun i => spGet 0 m (a + i)

/-- The memory with the bytes stored from address a. -/
def putBytes : Sparse Byte → Nat → List Byte → Sparse Byte
  | m, _, [] => m
  | m, a, b :: bs => putBytes (spPut 0 m a b) (a + 1) bs

/-- The memory with those bytes stored from address a whose mask entry is true. -/
def putMasked : Sparse Byte → Nat → List Bool → List Byte → Sparse Byte
  | m, a, k :: ks, b :: bs => putMasked (if k then spPut 0 m a b else m) (a + 1) ks bs
  | m, _, _, _ => m

/-- A little-endian number (R4). -/
def leNat : List Byte → Nat
  | [] => 0
  | b :: bs => b.toNat + 256 * leNat bs

/-- The n little-endian bytes of a number (R4). -/
def natLe : Nat → Nat → List Byte
  | 0, _ => []
  | n + 1, v => BitVec.ofNat 8 v :: natLe n (v / 256)

/-- The number in the n bytes from address a. -/
def natAt (m : Sparse Byte) (a n : Nat) : Nat := leNat (bytesAt m a n)

/-- x put before the first element that does not come before it. -/
def insertBy {α : Type} (before : α → α → Bool) (x : α) : List α → List α
  | [] => [x]
  | y :: l => if before y x then y :: insertBy before x l else x :: y :: l

/-- A list in order; elements of which neither comes before the other keep theirs. -/
def sortBy {α : Type} (before : α → α → Bool) (l : List α) : List α := l.foldr (insertBy before) []

/-- The element of a list, or a default. -/
def nth {α : Type} (d : α) (l : List α) (n : Nat) : α := l.getD n d

end Sys2Proof.Machine
end

