-- ==== Sys2Proof/Machine/Numeric.lean ====
section
/-!
DEFINITION. Numbers as they lie in memory (02): formats, rounding, conversion, block form and XA. A real number is an
exact dyadic number, m times 2 to the e; a real result that is not dyadic is held to more bits than any format has, with
one sticky bit below them, so that every rounding of it is the rounding of the exact value.
-/
namespace Sys2Proof.Machine

/-- A real number, an infinity or NaN. A zero keeps a sign. `fin m e` is m * 2^e with m not 0. -/
inductive Num where
  | nan
  | inf (neg : Bool)
  | zero (neg : Bool)
  | fin (m : Int) (e : Int)
  deriving DecidableEq, Repr

/-- floor (log2 n) for n > 0; 0 for 0. -/
def log2 (n : Nat) : Nat := Nat.log2 n

/-- 2^e as a factor of a number: m * 2^e for e not below 0, and the floor for e below 0. -/
def shiftInt (m : Int) (e : Int) : Int :=
  if e ≥ 0 then m * 2 ^ e.toNat else m / 2 ^ (-e).toNat

/-- m * 2^e, a zero with the given sign. -/
def Num.mk' (m e : Int) (zneg : Bool) : Num := if m = 0 then .zero zneg else .fin m e

def Num.isNan : Num → Bool
  | .nan => true | _ => false

def Num.isInf : Num → Bool
  | .inf _ => true | _ => false

def Num.isZero : Num → Bool
  | .zero _ => true | _ => false

/-- The sign: negative. -/
def Num.neg? : Num → Bool
  | .nan => false | .inf n => n | .zero n => n | .fin m _ => decide (m < 0)

def Num.negate : Num → Num
  | .nan => .nan | .inf n => .inf (!n) | .zero n => .zero (!n) | .fin m e => .fin (-m) e

/-- The exact sum of two finite non-zero values. -/
def addDy (m e n f : Int) : Int × Int :=
  if e ≤ f then (m + n * 2 ^ (f - e).toNat, e) else (m * 2 ^ (e - f).toNat + n, f)

/-- IEEE addition before rounding; `rdn` gives the sign of an exact zero sum of unlike signs (R223). -/
def Num.add (rdn : Bool) : Num → Num → Num
  | .nan, _ => .nan
  | _, .nan => .nan
  | .inf a, .inf b => if a = b then .inf a else .nan
  | .inf a, _ => .inf a
  | _, .inf b => .inf b
  | .zero a, .zero b => if a = b then .zero a else .zero rdn
  | .zero _, x => x
  | x, .zero _ => x
  | .fin m e, .fin n f => let r := addDy m e n f; Num.mk' r.1 r.2 rdn

/-- IEEE multiplication before rounding; infinity times zero is NaN. -/
def Num.mul : Num → Num → Num
  | .nan, _ => .nan
  | _, .nan => .nan
  | .inf _, .zero _ => .nan
  | .zero _, .inf _ => .nan
  | .inf a, x => .inf (a != x.neg?)
  | x, .inf b => .inf (x.neg? != b)
  | .zero a, x => .zero (a != x.neg?)
  | x, .zero b => .zero (x.neg? != b)
  | .fin m e, .fin n f => .fin (m * n) (e + f)

/-- x < y for numbers that are not NaN; zeros are equal. -/
def Num.lt : Num → Num → Bool
  | .nan, _ => false
  | _, .nan => false
  | .inf a, .inf b => a && !b
  | .inf a, _ => a
  | _, .inf b => !b
  | .zero _, .zero _ => false
  | .zero _, .fin n _ => decide (0 < n)
  | .fin m _, .zero _ => decide (m < 0)
  | .fin m e, .fin n f => decide ((addDy m e (-n) f).1 < 0)

/-- x = y for numbers that are not NaN; zeros are equal. -/
def Num.eqv (x y : Num) : Bool := !x.isNan && !y.isNan && !x.lt y && !y.lt x

def Num.abs : Num → Num
  | .nan => .nan | .inf _ => .inf false | .zero _ => .zero false | .fin m e => .fin m.natAbs e

/-- floor (log2 |x|) of a finite non-zero value. -/
def expOf (m e : Int) : Int := (log2 m.natAbs : Int) + e

/-! ## Rounding (R28, R29) -/

/-- m / 2^k rounded to an integer; k above 0. -/
def roundShift (rm : Rm) (m : Int) (k : Nat) : Int :=
  let q := m / 2 ^ k
  let r := m % 2 ^ k
  match rm with
  | .rdn => q
  | .rup => if r = 0 then q else q + 1
  | .rtz => if r = 0 ∨ m ≥ 0 then q else q + 1
  | .rne =>
    if 2 * r < 2 ^ k then q else if 2 * r > 2 ^ k then q + 1 else if q % 2 = 0 then q else q + 1

/-- m * 2^e rounded to a multiple of 2^q, as that multiple. -/
def roundAt (rm : Rm) (m e q : Int) : Int :=
  if e ≥ q then m * 2 ^ (e - q).toNat else roundShift rm m (q - e).toNat

/-- A format: total bits, precision p with the leading bit, exponent of the smallest normal, and whether it is an IEEE
format with infinities (Table 2.2, R17, R18). -/
structure Fmt where
  bits : Nat
  p : Nat
  emin : Int
  emax : Int
  ieee : Bool
  deriving DecidableEq, Repr

def fp32 : Fmt := ⟨32, 24, -126, 127, true⟩
def fp16 : Fmt := ⟨16, 11, -14, 15, true⟩
def bf16 : Fmt := ⟨16, 8, -126, 127, true⟩
def f8e5 : Fmt := ⟨8, 3, -14, 15, true⟩
def f8e4 : Fmt := ⟨8, 4, -6, 8, false⟩
def f4e2 : Fmt := ⟨4, 2, 0, 2, false⟩

/-- The sign bit of a format. -/
def Fmt.signBit (f : Fmt) (neg : Bool) : Nat := if neg then 2 ^ (f.bits - 1) else 0

/-- The canonical NaN code (Table 2.2, R17, R18). -/
def Fmt.nanCode (f : Fmt) : Nat :=
  if f.ieee then 2 ^ (f.bits - 1) - 2 ^ (f.p - 2) else 2 ^ (f.bits - 1)

/-- The code of an infinity, for IEEE formats. -/
def Fmt.infCode (f : Fmt) (neg : Bool) : Nat := f.signBit neg + (2 ^ (f.bits - 1) - 2 ^ (f.p - 1))

/-- The code of the largest finite value (480 in F8E4, 6 in F4E2). -/
def Fmt.maxCode (f : Fmt) (neg : Bool) : Nat :=
  f.signBit neg + (if f.ieee then 2 ^ (f.bits - 1) - 2 ^ (f.p - 1) - 1 else 2 ^ (f.bits - 1) - 1)

/-- The code of a zero: F8E4 and F4E2 have no negative zero. -/
def Fmt.zeroCode (f : Fmt) (neg : Bool) : Nat := if f.ieee then f.signBit neg else 0

/-- The value of a code (Tables 2.2 and 2.3, R16 to R18). -/
def Fmt.decode (f : Fmt) (c : Nat) : Num :=
  let c := c % 2 ^ f.bits
  let neg := decide (c ≥ 2 ^ (f.bits - 1))
  let mag := c % 2 ^ (f.bits - 1)
  let e := mag / 2 ^ (f.p - 1)
  let m := mag % 2 ^ (f.p - 1)
  let top := 2 ^ (f.bits - f.p) - 1
  if f.ieee && e == top then (if m = 0 then .inf neg else .nan)
  else if !f.ieee && neg && mag == 0 then .nan
  else if e = 0 then Num.mk' (if neg then -(m : Int) else m) (f.emin - (f.p - 1)) neg
  else
    let s : Int := (m + 2 ^ (f.p - 1) : Nat)
    .fin (if neg then -s else s) (f.emin + (e - 1) - (f.p - 1))

/-- The multiple of the rounding step nearest to m * 2^e by mode, and the step (R29: an unbounded exponent above the
range and subnormal spacing below it). -/
def roundUnbounded (f : Fmt) (rm : Rm) (m e : Int) : Int × Int :=
  let q := max (expOf m e) f.emin - (f.p - 1)
  (roundAt rm m e q, q)

/-- What a rounding did (R217). -/
structure RFlags where
  of : Bool
  uf : Bool
  nx : Bool
  deriving DecidableEq, Repr

def RFlags.none : RFlags := ⟨false, false, false⟩

/-- The code of k * 2^q, a representable value. -/
def Fmt.encodeFin (f : Fmt) (k q : Int) : Nat :=
  let neg := decide (k < 0)
  let e := expOf k q
  let frac := shiftInt k.natAbs (q - (max e f.emin - (f.p - 1)))
  let lead : Int := if e < f.emin then 0 else e - f.emin
  f.signBit neg + (frac + lead * 2 ^ (f.p - 1)).toNat

/-- round_to_format with the flags of R217: overflow, tiny after rounding and inexact, inexact. -/
def roundTo (f : Fmt) (rm : Rm) (ovf : Ovf) : Num → Nat × RFlags
  | .nan => (f.nanCode, .none)
  | .inf n =>
    (if f.ieee then f.infCode n else if ovf = .sat then f.maxCode n else f.nanCode, .none)
  | .zero n => (f.zeroCode n, .none)
  | .fin m e =>
    let neg := decide (m < 0)
    let r := roundUnbounded f rm m e
    let k := r.1
    let q := r.2
    let inexact := decide ((addDy m e (-k) q).1 ≠ 0)
    let large := decide (k ≠ 0) && decide (expOf k q > f.emax)
    if large then
      (if f.ieee then
        (if rm = .rne ∨ (rm = .rup ∧ ¬ neg) ∨ (rm = .rdn ∧ neg) then f.infCode neg else f.maxCode neg)
       else if ovf = .sat then f.maxCode neg else f.nanCode,
       ⟨true, false, true⟩)
    else
      let qu := expOf m e - (f.p - 1)
      let ku := roundAt rm m e qu
      let tiny := decide (expOf ku qu < f.emin)
      (if k = 0 then f.zeroCode neg else f.encodeFin k q, ⟨false, tiny && inexact, inexact⟩)

/-- round_to_format (R29). -/
def roundToFormat (f : Fmt) (rm : Rm) (ovf : Ovf) (x : Num) : Nat := (roundTo f rm ovf x).1

/-- Conversion to an integer range (R15), as the integer, whether it was NaN, infinite or out of range, and whether it
was inexact. -/
def roundToInt (rm : Rm) (lo hi : Int) : Num → Int × Bool × Bool
  | .nan => (0, true, false)
  | .inf n => (if n then lo else hi, true, false)
  | .zero _ => (0, false, false)
  | .fin m e =>
    let k := roundAt rm m e 0
    if k < lo then (lo, true, false) else if k > hi then (hi, true, false)
    else (k, false, decide ((addDy m e (-k) 0).1 ≠ 0))

/-- An integer as a number. -/
def Num.ofInt (k : Int) : Num := Num.mk' k 0 false

/-! ## Quotients and roots, with one sticky bit -/

/-- A non-negative real strictly between k * 2^q and (k + 1) * 2^q, or k * 2^q itself. -/
def sticky (neg : Bool) (k : Nat) (exact : Bool) (q : Int) : Num :=
  let v : Int := if exact then 2 * k else 2 * k + 1
  Num.mk' (if neg then -v else v) (q - 1) neg

/-- |m| / |n| with at least 64 quotient bits. -/
def quotNum (neg : Bool) (m : Nat) (e : Int) (n : Nat) (f : Int) : Num :=
  let sh := 66 + log2 n
  let a := m * 2 ^ sh
  sticky neg (a / n) (decide (a % n = 0)) (e - f - sh)

/-- Integer square root by bits from bit i down. -/
def isqrtAux : Nat → Nat → Nat → Nat
  | 0, _, r => r
  | i + 1, n, r =>
    let t := r + 2 ^ i
    isqrtAux i n (if t * t ≤ n then t else r)

/-- The integer square root. -/
def isqrt (n : Nat) : Nat := isqrtAux (log2 n / 2 + 1) n 0

/-- The square root of m * 2^e, with at least 64 bits. -/
def sqrtNum (m : Nat) (e : Int) : Num :=
  let sh : Nat := 140 + (if e % 2 = 0 then 0 else 1)
  let a := m * 2 ^ sh
  let r := isqrt a
  sticky false r (decide (r * r = a)) ((e - sh) / 2)

/-! ## Integers in fields -/

/-- The w-bit field as a signed number. -/
def sext (w c : Nat) : Int := let c := c % 2 ^ w; if c < 2 ^ (w - 1) then c else (c : Int) - 2 ^ w

/-- The w-bit code of an integer, modulo 2^w. -/
def wrapTo (w : Nat) (k : Int) : Nat := (k % (2 ^ w : Int)).toNat

/-- An integer held within bounds. -/
def clamp (lo hi k : Int) : Int := if k < lo then lo else if k > hi then hi else k

/-! ## Block form (R22 to R26, R30) -/

/-- scale_value(c) = (1 + m/4) * 2^(e - 31), as (4 + m) * 2^(e - 33) (R23). -/
def scaleNum (c : Nat) : Int × Int := ((4 + c % 4 : Nat), (c / 4 % 64 : Nat) - 33)

/-- The bits of an element code (Table 2.5); 0 for a reserved code. -/
def codeWidth : Nat → Nat
  | 0 | 1 | 2 => 8 | 3 | 4 => 4 | 5 => 2 | _ => 0

/-- The parts of R24 that the descriptor alone decides. -/
def descInvalid (width d : Nat) : Bool :=
  let code := fld d 0 4
  let sp := fld d 4 3
  fld d 8 8 == 255 || codeWidth code != width || decide (sp > 4) || (sp != 0 && code == 5) || fld d 7 1 == 1

/-- The exact value of an element code (Tables 2.1 to 2.4). -/
def elemNum (code bits : Nat) : Num :=
  match code with
  | 0 => f8e4.decode bits
  | 1 => f8e5.decode bits
  | 2 => Num.ofInt (sext 8 bits)
  | 3 => f4e2.decode bits
  | 4 => Num.ofInt (sext 4 bits)
  | 5 => match bits % 4 with | 0 => .zero false | 1 => .fin 1 0 | 3 => .fin (-1) 0 | _ => .nan
  | _ => .nan

/-- v * scale_value, exact. -/
def scaleBy (c : Nat) (v : Num) : Num :=
  match v with
  | .fin m e => let s := scaleNum c; .fin (m * s.1) (e + s.2)
  | v => v

/-- block_value of an element of a valid block (R26). -/
def blockValue (elem d : Nat) : Num := scaleBy (fld d 8 8) (elemNum (fld d 0 4) elem)

/-- fmt_max of a block target (Table 2.8). -/
def fmtMax : ElemCode → Nat
  | .f8e4 => 480 | .f8e5 => 57344 | .i8 => 127 | .f4e2 => 6 | .i4 => 7

/-- amax <= fmt_max * scale_value(c). -/
def scaleFits (t : ElemCode) (amax : Num) (c : Nat) : Bool :=
  let s := scaleNum c
  !(Num.fin (fmtMax t * s.1) s.2).lt amax

/-- The lowest code from c on that fits, or 0xFE. -/
def computeScaleFrom (t : ElemCode) (amax : Num) : Nat → Nat → Nat
  | 0, _ => 0xFE
  | n + 1, c => if scaleFits t amax c then c else computeScaleFrom t amax n (c + 1)

/-- compute_scale (R30). -/
def computeScale (t : ElemCode) (amax : Num) : Nat := computeScaleFrom t amax 255 0

/-- The largest of two magnitudes. -/
def maxNum (a b : Num) : Num := if a.lt b then b else a

/-- x / scale_value(c). -/
def divScale (c : Nat) : Num → Num
  | .fin m e => let s := scaleNum c; quotNum (decide (m < 0)) m.natAbs e s.1.toNat s.2
  | x => x

end Sys2Proof.Machine

namespace Sys2Proof

/-- The bits of an element of a target. -/
def ElemCode.width : ElemCode → Nat
  | .f8e4 | .f8e5 | .i8 => 8 | .f4e2 | .i4 => 4

end Sys2Proof

namespace Sys2Proof.Machine

/-- One element of block_encode (R30). -/
def encodeElem (t : ElemCode) (rm : Rm) (ovf : Ovf) (c : Nat) (x : Num) : Nat :=
  let q := divScale c x
  match t with
  | .f8e4 => roundToFormat f8e4 rm ovf q
  | .f8e5 => roundToFormat f8e5 rm ovf q
  | .f4e2 => roundToFormat f4e2 rm ovf q
  | .i8 => wrapTo 8 (roundToInt rm (-128) 127 q).1
  | .i4 => wrapTo 4 (roundToInt rm (-8) 7 q).1

/-- block_encode (R30): the descriptor and the elements. -/
def blockEncode (t : ElemCode) (rm : Rm) (ovf : Ovf) (xs : List Num) : Nat × List Nat :=
  let isInt := t == .i8 || t == .i4
  if isInt && xs.any (fun x => x.isNan || x.isInf) then (t.code + 0xFF * 256, xs.map fun _ => 0)
  else
    let amax := xs.foldl (fun a x => if x.isNan || x.isInf then a else maxNum a x.abs) (.zero false)
    let c := computeScale t amax
    (t.code + c * 256, xs.map (encodeElem t rm ovf c))

/-- Elements of w bits packed from bit 0 up (R20), as a number. -/
def packBits (w : Nat) : List Nat → Nat
  | [] => 0
  | x :: xs => x % 2 ^ w + 2 ^ w * packBits w xs

/-! ## XA (R31 to R34) -/

/-- The tag of an XA element (Table 2.9). -/
inductive XTag where
  | finite | pinf | ninf | nan
  deriving DecidableEq, Repr

def XTag.code : XTag → Nat
  | .finite => 0 | .pinf => 1 | .ninf => 2 | .nan => 3

def XTag.ofCode : Nat → XTag
  | 0 => .finite | 1 => .pinf | 2 => .ninf | _ => .nan

/-- An XA element (Table 2.9). -/
structure Xa where
  v : BitVec 128
  tag : XTag
  ovf : Bool
  high : Bool
  count : Nat
  deriving DecidableEq, Repr

/-- The cleared element (R31). -/
def Xa.zero : Xa := ⟨0, .finite, false, false, 0⟩

/-- tag_join (Table 2.10). -/
def tagJoin : XTag → XTag → XTag
  | .finite, t => t
  | t, .finite => t
  | .pinf, .pinf => .pinf
  | .ninf, .ninf => .ninf
  | _, _ => .nan

/-- special_tag; finite for a finite term. -/
def specialTag : Num → XTag
  | .nan => .nan | .inf true => .ninf | .inf false => .pinf | .zero _ | .fin _ _ => .finite

/-- A finite term in window steps, rounded once to nearest even (R32). -/
def windowSteps (anchor : Int) : Num → Int
  | .fin m e => roundAt .rne m e (anchor - 104)
  | _ => 0

/-- xa_add (R32). -/
def xaAdd (x : Xa) (p : Num) (anchor : Int) : Xa :=
  let full := decide (x.count = 0xFFFFFF)
  let ovf := x.ovf || full
  let count := if full then x.count else x.count + 1
  let special := p.isNan || p.isInf
  let k := windowSteps anchor p
  let above := !special && (decide (k < -(2 ^ 103)) || decide (k > 2 ^ 103 - 1))
  { v := if ovf then 0 else if special || above then x.v else x.v + BitVec.ofInt 128 k
    tag := if special then tagJoin x.tag (specialTag p) else x.tag
    ovf := ovf
    high := x.high || above
    count := count }

/-- xa_merge (R33). -/
def xaMerge (d s : Xa) : Xa :=
  let n := d.count + s.count
  let ovf := d.ovf || s.ovf || decide (n > 0xFFFFFF)
  { v := if ovf then 0 else d.v + s.v
    tag := tagJoin d.tag s.tag
    ovf := ovf
    high := d.high || s.high
    count := min n 0xFFFFFF }

/-- xa_merge into an element; terms of another anchor leave a NaN tag (R203, R250, R263). -/
def takeOwn (same : Bool) (x y : Xa) : Xa :=
  let z := xaMerge x y
  if same then z else { z with tag := .nan }

/-- xa_read (R34): the exact value passed to rounding. -/
def xaRead (x : Xa) (anchor : Int) : Num :=
  if x.tag = .nan ∨ x.ovf ∨ x.high then .nan
  else if x.tag = .pinf then .inf false
  else if x.tag = .ninf then .inf true
  else Num.mk' x.v.toInt (anchor - 104) false

/-- vec_sum (R236), with the flags of its final rounding. -/
def vecSum (terms : List Num) (rm : Rm) : Nat × RFlags :=
  let big := terms.foldl (fun a t => match t with
    | .fin m e => some (match a with | none => expOf m e | some b => max b (expOf m e))
    | _ => a) (none : Option Int)
  let anchor := match big with | none => 0 | some b => b + 6
  let x := terms.foldl (fun x t => xaAdd x t anchor) Xa.zero
  roundTo fp32 rm .sat (xaRead x anchor)

end Sys2Proof.Machine
end

