-- ==== Sys2Proof/Machine/State.lean ====
section
/-!
DEFINITION. The state of one Stolran D8 package, its reasons to stop, and the state right after a fundamental reset.
-/
namespace Sys2Proof.Machine

/-! ## Registers and records of a core -/

/-- A handle register (Table 4.2), 256 bits. -/
structure Handle where
  v : Bool
  w : Bool
  sp : Bool
  hst : BitVec 3
  npgm1 : BitVec 6
  ten : BitVec 4
  gen : BitVec 16
  vbase : BitVec 32
  pbase : BitVec 32
  pin : Bool
  valid : BitVec 64
  res : BitVec 64
  deriving DecidableEq, Repr

/-- A handle register at reset: every field 0 (R58). -/
def Handle.zero : Handle := ⟨false, false, false, 0, 0, 0, 0, 0, 0, false, 0, 0⟩

/-- The clock that a pending action counts in: schedule cycles of the package, or PCYC of a panel. -/
inductive Clk where
  | scyc
  | panel (pid : Nat)
  deriving DecidableEq, Repr

/-- The instruction that owns an action (R379): core, context, slot (0 S0, 1 S1, 2 M, 3 X, 4 E, 5 + c Vc; 13 for none), its
word as issued, its bundle address and its issue cycle, which lies below 0 when SCYC has been loaded with a lower count since (R315). -/
structure Own where
  core : Nat
  ctx : Nat
  slot : Nat
  word : BitVec 32
  baddr : BitVec 16
  issue : Int
  deriving DecidableEq, Repr

/-- The owner of an action that belongs to no instruction. -/
def Own.none (core : Nat) : Own := ⟨core, 0, 13, 0, 0, 0⟩

/-- What a trap is, with the fields of R335. -/
inductive TrapKind where
  | illegal (sub arg : Nat)
  | priv
  | align (addr : Word) (h : Option (BitVec 4))
  | range (addr : Word) (h : Option (BitVec 4))
  | handle (h : BitVec 4) (hst : BitVec 3) (off : Word)
  | poison (kind cluster reg row : Nat)
  | bankconf (bank line c1 c2 : Nat)
  | meshcoll (link r1 r2 : Nat)
  | earlyread (line kind idx ap : Nat)
  | timing (kind : Nat) (arg : Word)
  | sqimbal (held : Nat) (push : Bool)
  | queue (q reason : Nat)
  | link (port op : Nat)
  | soft (code : BitVec 16)
  | fault (cls : Nat) (detail : BitVec 32)
  deriving DecidableEq, Repr

/-- A trap found, before the first is chosen: its kind, its step in the order of R185, and the marked slots, word and bundle
address of R379. -/
structure TrapCand where
  kind : TrapKind
  step : Nat
  smask : BitVec 13
  word : BitVec 32
  baddr : BitVec 16
  deriving DecidableEq, Repr

/-- The trap record TREC0 to TREC7 (R334, R335). -/
structure TrapRec where
  t0 : Word
  t1 : Word
  t2 : Word
  t3 : Word
  t4 : Word
  t5 : Word
  t6 : Word
  t7 : Word
  deriving DecidableEq, Repr

/-- All fields reset to 0 (R334). -/
def TrapRec.zero : TrapRec := ⟨0, 0, 0, 0, 0, 0, 0, 0⟩

/-- The state of a context (R104); `ended` and `trapped` contexts are idle ones whose registers still stand; `halted` is the
firmware context of R337. -/
inductive CtxState where
  | idle | ready | running | blocked | ended | trapped | halted
  deriving DecidableEq, Repr

/-- Why a context issues nothing yet; a fence keeps its issue cycle. -/
inductive Wait where
  | none
  | bar
  | qdeq (q : Nat) (rd : BitVec 5)
  | qgot (x : Word) (rd : BitVec 5) (poison : Bool)
  | qres
  | fence (scope : Nat) (rd : BitVec 5) (at_ : Int)
  | deliver (rd : Option (BitVec 5))
  | ctl
  deriving DecidableEq, Repr

/-- A write of a context that failed, for the FENCEs to come (R180): when it was issued, its reporting scope, the lines lost, and the
status bits of Table 9.7. -/
structure FailedWrite where
  at_ : Int
  scope : Nat
  lost : Nat
  link : Bool
  refused : Bool
  poison : Bool
  deriving DecidableEq, Repr

/-- A replay register (R129): the slot word and the LEND value it issued with. -/
structure Replay where
  word : BitVec 32
  lend : BitVec 8
  deriving DecidableEq, Repr

/-- What follows a delay bundle (R146): nothing pending, the bundle after the delay bundle, or a target. -/
inductive Delay where
  | none
  | fall
  | target (a : BitVec 16)
  deriving DecidableEq, Repr

/-- A context (R104, Table 7.1). -/
structure Ctx where
  st : CtxState
  s : Sparse Word
  mark : Sparse Bool
  h : Sparse Handle
  q : BitVec 8
  pc : BitVec 16
  delay : Delay
  lastPc : BitVec 16
  count : BitVec 32
  nrot : BitVec 4
  ctxb : BitVec 3
  stride : Word
  spill : Sparse (BitVec 16)
  replay : Sparse (Option Replay)
  trec : TrapRec
  tenant : Nat
  run : Nat
  rank : Nat
  psize : Nat
  bars : Nat
  failed : List FailedWrite
  wait : Wait
  next : Nat
  nextWaiter : BitVec 10
  inHandler : Bool
  ctlAddr : Word
  cands : List TrapCand
  deriving DecidableEq, Repr

/-- A context at reset and at strand start but for its entry point and bindings (Table 7.1): registers 0, q0 = 1, spill map and
replay registers empty. -/
def Ctx.idle : Ctx :=
  { st := .idle, s := [], mark := [], h := [], q := 1, pc := 0, delay := .none, lastPc := 0, count := 0,
    nrot := 0, ctxb := 0, stride := 0, spill := [], replay := [], trec := .zero, tenant := 0, run := 0,
    rank := 0, psize := 0, bars := 0, failed := [], wait := .none, next := 0, nextWaiter := 0,
    inHandler := false, ctlAddr := 0, cands := [] }

/-- A tile register (R107): rows of 1,024 bits and the poison mark of each row (R244). -/
structure Tile where
  rows : Sparse (BitVec 1024)
  marks : BitVec 64
  deriving DecidableEq, Repr

/-- A cleared tile. -/
def Tile.zero : Tile := ⟨[], 0⟩

/-- A stationary latch (R248): the rows as read, the kind record (a tile-control value), the descriptors popped, in order. -/
structure Latch where
  full : Bool
  rows : Sparse (BitVec 1024)
  kind : Word
  descs : List (BitVec 16)
  deriving DecidableEq, Repr

/-- An empty latch (Table 7.1). -/
def Latch.empty : Latch := ⟨false, [], 0, []⟩

/-- An accumulator (R31): elements by 64 * row + column, and the anchor. -/
structure Acc where
  el : Sparse Xa
  anchor : Int
  deriving DecidableEq, Repr

/-- As after ACZ with anchor 0 (Table 7.1). -/
def Acc.zero : Acc := ⟨[], 0⟩

/-- A receive slot (R200, R201): destination address, sender rank, Gramer port, lines, next line, and the arming RECV. -/
structure RecvSlot where
  addr : Nat
  sender : Nat
  port : Nat
  lines : Nat
  nxt : Nat
  own : Own
  deriving DecidableEq, Repr

/-- The units of a core, by their last busy cycle in PCYC (R244, R201, R203): tile engine, array, latent-store read and write
bundles of TLDL and TSTL, SEND source reads, collective; `engRead` is the last cycles of SEND, NBC, CPY and SQLD
source reads; and the word, the issue cycle and the lines or rows of the collective last issued (R345). -/
structure Units where
  tileEnd : Nat
  arrayEnd : Nat
  rdEnd : Nat
  wrEnd : Nat
  sendEnd : Nat
  collEnd : Nat
  collWord : BitVec 32
  collFrom : Nat
  collLen : Nat
  deriving DecidableEq, Repr

/-- Free units. -/
def Units.zero : Units := ⟨0, 0, 0, 0, 0, 0, 0, 0, 0⟩

/-- The random-bits queue and its identity fields (R111, R112). -/
structure RandQ where
  held : Nat
  pos : BitVec 46
  seed : Word
  node : BitVec 16
  step : BitVec 32
  rank : BitVec 16
  deriving DecidableEq, Repr

def RandQ.zero : RandQ := ⟨0, 0, 0, 0, 0, 0⟩

/-- A core (R104 to R114, Table 7.1). Register files of the clusters are keyed 32 * cluster + register (v), 8 * cluster +
register (m). -/
structure CoreSt where
  ctxs : Sparse Ctx
  panel : Option Nat
  cur : Nat
  curSince : Nat
  b : Sparse (BitVec 20)
  v : Sparse (BitVec 512)
  vMark : Sparse Bool
  m : Sparse (BitVec 16)
  t : Sparse Tile
  tc : Sparse Word
  latch : Sparse Latch
  acc : Sparse Acc
  sq : List (BitVec 16)
  rq : RandQ
  mctl : Word
  mstat : Word
  vstat : Word
  cpstat : Word
  spcfg : Word
  sp : Sparse Byte
  spPoison : Sparse Bool
  spPend : Sparse (Option (Nat × Nat × Nat))
  istore : Sparse Byte
  ovtag : Sparse Word
  recv : Sparse (Option RecvSlot)
  units : Units
  deriving DecidableEq, Repr

/-- A core at reset. -/
def CoreSt.idle : CoreSt :=
  { ctxs := [], panel := none, cur := 0, curSince := 0, b := [], v := [], vMark := [], m := [], t := [],
    tc := [], latch := [], acc := [], sq := [], rq := .zero, mctl := 0, mstat := 0, vstat := 0, cpstat := 0,
    spcfg := 0, sp := [], spPoison := [], spPend := [], istore := [], ovtag := [], recv := [], units := .zero }

/-! ## Pending actions -/

/-- A line of 64 bytes on its way: its bytes as a number, its poison tag, and whether it stands for a line of a page that is not
resident (R60). -/
structure Line where
  data : BitVec 512
  poison : Bool
  absent : Bool
  deriving DecidableEq, Repr

/-- Where the data of a scalar load go, and how many bytes. -/
structure LoadTo where
  ctx : Nat
  rd : BitVec 5
  deriving DecidableEq, Repr

/-- Atomic operations (Table 6.5). -/
inductive AOp where
  | add | min | max | minn | maxn | and | or | xor | swp | cas
  deriving DecidableEq, Repr

/-- Slice-queue operations (R95). -/
inductive QOp where
  | init (ten : Nat)
  | enq (x : Word)
  | deq
  | try_ (qd : BitVec 3)
  | len
  deriving DecidableEq, Repr

/-- A latent-store place: die, and byte on the die. -/
structure LsAddr where
  die : Nat
  byte : Nat
  deriving DecidableEq, Repr

/-- An MMA in flight (R250): its fields, the latches and the tile controls as they stood at issue, and the rows and descriptors
read so far. -/
structure MmaRun where
  n : Nat
  t : Nat
  form : MmaForm
  cl : Bool
  latch : Latch
  latch2 : Latch
  tca : Word
  tcb : Word
  anchor : Int
  trunc : Nat
  rowsA : Sparse (BitVec 1024)
  rowsB : Sparse (BitVec 1024)
  descs : List (BitVec 16)
  part : Option (Nat × List Xa)
  deriving DecidableEq, Repr

/-- A line in flight to a scratchpad: a timed landing of an access processor, a line of its residency bitmap, an untimed landing, an NBC
line, or a line for a receive slot, which is checked at its landing; a line lost in a Gramer link lands nothing (R74, R201, R202). -/
inductive LandKind where
  | ap
  | map
  | free (run : Nat)
  | bc
  | recv (slot : Nat) (sender : Nat) (port : Nat) (lost : Bool)
  deriving DecidableEq, Repr

/-- An action that falls due. The actions before `spLoad` are writes of registers at the start of their cycle (or, with the
`late` bit of the pending record, seen in the next cycle, R244); the others are accesses in their bank or
perform cycle. -/
inductive Act where
  | wS (ctx : Nat) (r : BitVec 5) (v : Word) (poison : Bool)
  | wQ (ctx : Nat) (q : BitVec 3) (v : Bool)
  | wH (ctx : Nat) (h : BitVec 4) (v : Handle)
  | wB (r : BitVec 3) (v : BitVec 20)
  | wV (cl : Nat) (r : BitVec 5) (mask : BitVec 16) (v : BitVec 512) (poison : Bool)
  | wM (cl : Nat) (r : BitVec 3) (v : BitVec 16)
  | wFlag (reg : Nat) (bits : Word)
  | wClear (reg : Nat) (bits : Word)
  | wSr (ctx : Nat) (n : Nat) (v : Word)
  | wLp (ctx : Nat) (count : BitVec 32) (nrot : BitVec 4)
  | wSpill (ctx : Nat) (k : Nat) (cell : BitVec 16) (v : Word)
  | wRow (t row : Nat) (v : BitVec 1024) (mark : Bool)
  | wHalf (t row half : Nat) (v : BitVec 512) (mark first : Bool)
  | wTile (t : Nat) (v : Tile)
  | wLatch (n : Nat) (l : Latch)
  | wAcc (n : Nat) (a : Acc)
  | wMma (r : MmaRun)
  | wNred (n g0 : Nat) (anchor : Int) (x : Sparse Xa) (away : List Nat)
  | sqClear
  | sqPush (xs : List (BitVec 16))
  | rqSet (seed : Option Word) (pos : BitVec 46)
  | stage
  | fenceSt (ctx : Nat) (rd : BitVec 5) (scope : Nat)
  | arm (slot : Nat) (r : RecvSlot)
  | spLoad (a n : Nat) (ld : LoadTo)
  | spStore (a : Nat) (bs : List Byte)
  | vLoad (cl : Nat) (r : BitVec 5) (mask : BitVec 16) (line : Nat)
  | vStore (cl line : Nat) (mask : BitVec 16) (v : BitVec 512)
  | vGather (cl : Nat) (r : BitVec 5) (mask : BitVec 16) (addrs : List Nat) (todo : List Nat) (acc : BitVec 512)
      (poison : Bool)
  | vIdxLoad (cl : Nat) (r : BitVec 5) (mask : BitVec 16) (addrs : List Nat) (j : Nat) (acc : BitVec 512)
      (poison : Bool)
  | vIdxStore (cl : Nat) (mask : BitVec 16) (addrs : List Nat) (j : Nat) (v : BitVec 512)
  | tld (t a stride j : Nat)
  | tst (a stride j : Nat) (r0 r1 : BitVec 1024) (t : Nat)
  | tldl (t : Nat) (x : Handle) (o i : Nat) (bad : Bool)
  | tstl (t : Nat) (x : Handle) (o i : Nat)
  | sqPop (k : Nat)
  | wAccTile (n : Nat) (f32 : Bool) (codes : Sparse Nat) (tiles : List (Nat × Word × Tile))
  | latchRd (n t j : Nat) (l : Latch)
  | mmaRd (j : Nat) (r : MmaRun)
  | tileRd (d t j : Nat) (tr : Bool) (x : Tile)
  | acsave (a j : Nat) (x : Acc)
  | acrest (n a j : Nat) (x : Acc)
  | sqldRd (line : Nat)
  | cpyImage (a : Nat) (hs : Sparse Handle)
  | cpyLine (run line a : Nat)
  | rldReq (target a n m : Nat) (ld : LoadTo)
  | rstReq (target a : Nat) (bs : List Byte)
  | sendRd (a target slot lines i m port : Nat)
  | nbcRd (a g0 n lines i mb : Nat)
  | nredRd (n g0 k : Nat) (cores bad : List Nat) (anchor : Int) (x : Sparse Xa)
  | nbcExpect (a n i port : Nat)
  | nredLink (n : Nat)
  | pendSet (line n kind idx ap : Nat)
  | collCheck (g0 n : Nat) (sig : Word × Word)
  | land (core a : Nat) (bs : List Byte) (poison : Bool) (kind : LandKind)
  | lsStore (p : LsAddr) (mask : List Bool) (bs : List Byte)
  | lsLand (p : LsAddr) (bs : List Byte) (poison : Bool) (run : Nat)
  | lsAtomic (p : LsAddr) (op : AOp) (w : Nat) (x y : Nat) (ld : LoadTo)
  | qArrive (op : QOp) (q : Nat) (rd : BitVec 5)
  | discard (tenant lo hi : Nat)
  | drift (adj : Int)
  | spanUse (die space group : Nat)
  | fwShoot (a b : Word)
  | trapAt (k : TrapKind)
  | portOut (port dst slot lat : Nat) (line : Line)
  | portPass (port : Nat)
  | pgAsk (h : Handle) (page : Nat) (rd : BitVec 5)
  | qAsk (op : QOp) (q : Nat) (rd : BitVec 5)
  deriving DecidableEq, Repr

/-- A pending action: its clock and cycle, whether it is seen only in the next cycle, the owning instruction. -/
structure Pend where
  clk : Clk
  due : Nat
  late : Bool
  own : Own
  act : Act
  deriving DecidableEq, Repr

/-- A link of the on-die network in use by a packet in one cycle (R196, R197), in the coding of TREC4 of MESHCOLL; `arr` is
the cycle in which the packet is delivered. -/
structure LinkUse where
  clk : Clk
  due : Nat
  link : Nat
  rank : Nat
  own : Own
  arr : Nat
  deriving DecidableEq, Repr

/-- The bundle being issued: who issues it, the slot word in hand, and what its words have asked for so far (R143: nothing of it
takes effect unless the whole bundle commits). -/
structure Issue where
  core : Nat
  ctx : Nat
  clk : Clk
  t : Nat
  slot : Nat
  clusters : List Nat
  word : BitVec 32
  baddr : BitVec 16
  nextAddr : BitVec 16
  cycles : Nat
  pops : List Nat
  out : List Pend
  links : List LinkUse
  traps : List TrapCand
  hold : Bool
  xfer : Delay
  ended : Bool
  wait : Wait
  soft : Option (BitVec 16)
  eret : Bool
  units : Units
  deriving DecidableEq, Repr

/-- No bundle in hand. -/
def Issue.none : Issue :=
  { core := 0, ctx := 0, clk := .scyc, t := 0, slot := 0, clusters := [], word := 0, baddr := 0,
    nextAddr := 0, cycles := 1, pops := [], out := [], links := [], traps := [], hold := false, xfer := .none,
    ended := false, wait := .none, soft := Option.none, eret := false, units := .zero }

/-! ## Panels -/

/-- A holder rank of a panel (R284, R287): its declared package and declared package core index, and the package core
index it is placed on. -/
structure RankPos where
  pkg : Nat
  decl : Nat
  core : Nat
  deriving DecidableEq, Repr

/-- Where a panel stands: placed and waiting for its start conditions, running, ended (its last holder END has executed), failed
(R336), saved (R343). -/
inductive PState where
  | placed | running | ended | failed | saved
  deriving DecidableEq, Repr

/-- A freeze window (R324): its first frozen SCYC, and its end once that is fixed. -/
structure Freeze where
  start : Nat
  stop : Option Nat
  deriving DecidableEq, Repr

/-- A barrier arrival (R177): barrier, rank, PCYC. -/
structure Arrival where
  bar : Nat
  rank : Nat
  at_ : Nat
  deriving DecidableEq, Repr

/-- A panel (R282 to R293, R316). While it is frozen `pcyc` is the PCYC that its windows hold back; `meshAt` is the cycle of a collision on a
link, from which on no packet is delivered (R198); `idle` names the cores that nothing of the panel concerned any more when the last cycle
ended (R291); `fresh` says that it has been resumed and has not issued since (R279); `lost` names the copies of arrivals that did not come through,
by barrier, rank and port (R177). -/
structure Panel where
  pid : Nat
  run : Nat
  node : Nat
  tenant : Nat
  part : Nat
  prio : Nat
  ranks : List RankPos
  pcs : List (BitVec 16)
  help : Nat
  hpcs : List (BitVec 16)
  here : Nat
  hedge : Bool
  erchk : Bool
  image : BitVec 32
  ovmask : Nat
  ovl : List Nat
  dx : Int
  dy : Int
  phbias : Nat
  st : PState
  annS : Option Nat
  startS : Nat
  pcyc : Nat
  frz : List Freeze
  frozen : Bool
  stage : Nat
  stageAt : List (Nat × Nat)
  arrivals : List Arrival
  lost : List (Nat × Nat × Nat)
  ends : List (Nat × Nat)
  endAt : Option Nat
  failAt : Option Nat
  failRec : Option (Nat × Nat × TrapRec)
  preempt : Option Nat
  meshAt : Option Nat
  saveMask : List Nat
  trunc : Nat
  lateAt : List (Nat × Option Nat)
  idle : List Nat
  fresh : Bool
  deriving DecidableEq, Repr

/-! ## Copies, requests, runs -/

/-- A copy entry (Table 5.1), decoded. -/
structure CopyEntry where
  stg : Nat
  chan : Nat
  rate : Nat
  srck : Nat
  dstk : Nat
  rbm : Bool
  sh : Nat
  dh : Nat
  dgrp : Nat
  lines : Nat
  delay : Nat
  dmask : Nat
  portc : Nat
  soff : Nat
  doff : Nat
  rbma : Nat
  deriving DecidableEq, Repr

/-- A copy entry or CPY that is open, running or waiting (R70 to R82). `idx` is its index in its schedule, 0x3FFF for a CPY.
`staged` holds the source lines buffered and `nreq` counts the lines whose source read has been presented. -/
structure CopyRun where
  id : Nat
  pid : Option Nat
  node : Option (Nat × Nat)
  idx : Nat
  hor : Nat
  e : CopyEntry
  ap : Nat
  own : Own
  timed : Bool
  cpy : Bool
  tenant : Nat
  fw : Bool
  sH : Handle
  dH : Handle
  opened : Bool
  rel : Option Nat
  start : Option Nat
  begun : Bool
  started : Bool
  sent : Nat
  revS : Bool
  revD : Bool
  nreq : Nat
  tried : Nat
  staged : Sparse (Option Line)
  moved : Sparse (Option Line)
  flags : List Nat
  written : Nat
  failed : Nat
  poisoned : Bool
  done : Bool
  deriving DecidableEq, Repr

/-- What a main-memory access is for: the source lines of a copy from `line` on, or its writes; a unit of a host access (R278), of a
page copy of PGREQ (R82), a line of an eviction (R52); `dropped` is a write that DISCARD has cancelled (R83). -/
inductive ReqFor where
  | copyRead (run line n : Nat)
  | copyWrite (run line n : Nat)
  | host (id : Nat)
  | page (id : Nat)
  | evict (id : Nat)
  | dropped
  deriving DecidableEq, Repr

/-- A request of the memory controllers for a 128-byte unit (R37 to R39), admitted when `sigma` holds a slot start; a write-back
waiting in its access processor, to be presented again at a frame start (R79); or an untimed access that waits for a free slot. `pch`
counts pseudo-channels of the package (96 to a stack), `who` is a slot code, `addr` the unit's address, `mask` its bytes, `l0` and `l1`
its lines, `asked` the cycle of its first presentation, `present` that of the one that was admitted; these lie below 0 when SCYC has been
loaded with a lower count since (R315). -/
structure HbmReq where
  id : Nat
  part : Nat
  pch : Nat
  bank : Nat
  who : Nat
  ap : Nat
  chan : Nat
  asked : Int
  present : Int
  sigma : Option Int
  addr : Nat
  write : Bool
  mask : BitVec 128
  l0 : Line
  l1 : Line
  use : ReqFor
  performed : Bool
  deriving DecidableEq, Repr

/-- A request in a delivery queue (R81, R82). -/
inductive Untimed where
  | cpy (run : Nat)
  | page (id : Nat)
  deriving DecidableEq, Repr

/-- A page copy of PGREQ (R82): `line` counts its 128-byte units written, `asked` says that the next one is with a memory controller,
`down` that its port has gone down. -/
structure PageReq where
  id : Nat
  ap : Nat
  core : Nat
  ctx : Nat
  tenant : Nat
  fw : Bool
  vpage : Nat
  frame : Nat
  bk : Bool
  back : Nat
  own : Own
  started : Bool
  revoked : Bool
  down : Bool
  line : Nat
  asked : Bool
  deriving DecidableEq, Repr

/-- A host access that the port die has accepted (R278): its next BAR2 offset, for a write the bytes left and for a read the bytes read,
how many bytes are left, whether a unit of it is with a memory controller, and the SCYC of its acceptance. -/
structure HostAcc where
  id : Nat
  write : Bool
  addr : Nat
  bytes : List Byte
  left : Nat
  asked : Bool
  since : Nat
  deriving DecidableEq, Repr

/-- A queue operation on its way to a queue engine without a stated arrival (R95, R194). -/
structure QueueReq where
  id : Nat
  q : Nat
  op : QOp
  rd : BitVec 5
  core : Nat
  ctx : Nat
  own : Own
  deriving DecidableEq, Repr

/-- A span-cache entry (R56): the space (tenant 0 to 15, firmware 16), the group, the leaf block as 64 page-table entries of
128 bits, and whether it is pinned. The list runs from the most to the least recently used. -/
structure SpanEnt where
  space : Nat
  group : Nat
  leaf : List (BitVec 128)
  pinned : Bool
  deriving DecidableEq, Repr

/-- A node of a run's pattern (Table 16.5). -/
structure Node where
  kind : Nat
  gated : Bool
  trset : Bool
  trunc : Nat
  npred : Nat
  tile : Nat
  gbind : Nat
  gcol : Nat
  psec : Nat
  csec : Nat
  ibind : Nat
  ilines : Nat
  olines : Nat
  ifmt : Nat
  ioff : Nat
  value : Word
  rmap : BitVec 64
  period : Nat
  kbound : Nat
  thresh : BitVec 32
  deriving DecidableEq, Repr

/-- Where a node of the current step stands. -/
inductive NodeSt where
  | waiting | ready | gated | launched | running | finished | complete | failed
  deriving DecidableEq, Repr

/-- A node's progress in the current step: its remaining count, its state, whether the walker owes its header a write
(R100), and its panel; for a hedge panel whether the other packages have been told that its part here is complete, and which of them have
said so of theirs (R274, R293). -/
structure NodeRun where
  count : Nat
  st : NodeSt
  cached : Bool
  pid : Option Nat
  told : Bool
  others : List Nat
  deriving DecidableEq, Repr

/-- A launch record in a record buffer (R303); a record from an Ethernet port has its port, the source and destination addresses of its
frame, and SEQ. Host accesses with numbers below `after` were accepted before it (R273). -/
structure RecBuf where
  rec_ : List Byte
  reply : Option (Nat × List Byte × Nat)
  after : Nat
  deriving DecidableEq, Repr

/-- A panel record (Table 15.3): `ranks` gives declared package, declared core index and entry PC. -/
structure PanelRec where
  sec : Nat
  help : Nat
  erchk : Bool
  hedge : Bool
  ovl : List Nat
  ovmask : Nat
  ranks : List (Nat × Nat × BitVec 16)
  hpcs : List (BitVec 16)
  deriving DecidableEq, Repr

/-- A copy schedule (R67). -/
structure CopySched where
  sec : Nat
  hor : Nat
  entries : List CopyEntry
  deriving DecidableEq, Repr

/-- A run (R300 to R307). -/
structure Run where
  id : Nat
  tenant : Nat
  part : Nat
  rec_ : List Byte
  reply : Option (Nat × List Byte × Nat)
  precs : List PanelRec
  scheds : List CopySched
  bind : Sparse Handle
  nodes : List Node
  edges : List (Nat × Nat)
  nstep : Nat
  step : Nat
  rowRead : Bool
  k : List Word
  gslot : List Nat
  prog : List NodeRun
  cancel : Option (Nat × Nat)
  patid : Nat
  image : BitVec 32
  deriving DecidableEq, Repr

/-- A panel saved by pre-emption (R343 to R347): the panel, the cores of its ranks as saved, the actions still due, its copies, the
save slots (partition, slot) by rank, and the tenant's epoch; `late` are the lines that have left a Gramer port since (R212). -/
structure Saved where
  panel : Panel
  cores : List CoreSt
  pend : List Pend
  links : List LinkUse
  copies : List CopyRun
  slots : List (Nat × Nat)
  epoch : Nat
  complete : List Nat
  late : List Pend
  deriving DecidableEq, Repr

/-- An event of a tenant's ring (Table 16.2). -/
abbrev Event := BitVec 128

/-- What leaves the package: MSI-X messages with the address and data of their vector, completions and replies, frames and packets, in
order (R356, R359, R302, R197). -/
inductive Output where
  | msix (vector : Nat) (addr : Word) (data : BitVec 32)
  | readData (bytes : List Byte)
  | unsupported
  | reply (port : Nat) (frame : List Byte)
  | packet (port : Nat) (enter : Nat) (dst slot : Nat) (line : Line)
  | lineBc (port pid at_ g0 n a : Nat) (line : Line)
  | accRows (port pid g0 rank : Nat) (a : Acc)
  | cxlWrite (addr : Nat) (line : Line)
  | marker (port : Nat) (scyc : Nat)
  | startMarker (port : Nat) (scyc : Nat)
  | panelTrap (pid at_ rank : Nat) (r : TrapRec)
  | panelDone (pid : Nat)
  | csEntry (tenant tag index reason : Nat)
  deriving DecidableEq, Repr

/-- An entry of the agenda: a step of the part; what another package of a hedge panel sends: a line of its SEND or NBC leaving a
Gramer port here, the latest barrier arrival of a package, the END of its last strand, the flight time of a link between two other packages and
the cores of another one that are not free (R177, R203, R287), a STAGE of a rank 0 that lies there, the rows of a member of an NRED, a trap of one of its strands, or of one here that it found (R333), the
completion of its part (R293); a read of n bytes of BAR0 by the host, and a write of bytes (R350); what happens to the memories: a read finds an HBM4E line's symbol faulty,
correctable or not, and what it then holds (R44), a line comes from the second tier with poison (R51); the firmware's write of the
non-volatile store (R46, R359, log 93). -/
inductive Input where
  | instr (i : Instr)
  | remoteLine (port pid at_ sender target slot : Nat) (line : Line)
  | remoteArrive (pid rank bar at_ port : Nat)
  | remoteLat (a b lat : Nat) (up : Bool)
  | remoteBusy (pkg : Nat) (cores : List Nat)
  | remoteEnd (pid rank at_ : Nat)
  | remoteStage (pid : Nat)
  | remoteLineBc (pid at_ g0 n a : Nat) (line : Line)
  | remoteAcc (pid g0 rank : Nat) (a : Acc)
  | remoteTrap (pid at_ rank : Nat) (r : TrapRec)
  | remoteDone (pid pkg : Nat)
  | hostCtlRead (off n : Nat)
  | hostCtlWrite (off : Nat) (bytes : List Byte)
  | lineFault (addr : Nat) (data : BitVec 512) (correctable : Bool)
  | devicePoison (addr : Nat)
  | nvWrite (off : Nat) (bytes : List Byte)
  deriving DecidableEq, Repr

/-- A timed entry of the agenda. -/
structure Sched where
  clk : Clk
  due : Nat
  ev : Input
  deriving DecidableEq, Repr

/-- Variants (R2). -/
inductive Variant where
  | d8 | d8h | d8e
  deriving DecidableEq, Repr

/-- A walk of the page table in progress (R56): die, space and group. -/
structure Walk where
  die : Nat
  space : Nat
  group : Nat
  pin : Bool
  deriving DecidableEq, Repr

/-- A shoot-down or invalidation in progress (R61): its blocks, space (0 to 15, 16 the firmware's; none for every tenant of the
blocks), first group, groups (0 for every group) and rho. -/
structure Shoot where
  parts : List Nat
  tenants : List Nat
  fw : Bool
  group : Nat
  count : Nat
  rho : Nat
  drain : Option (List Nat)
  deriving DecidableEq, Repr

/-- A bank's place: partition-independent stack, pseudo-channel, bank (R36). -/
structure BankId where
  stack : Nat
  pch : Nat
  bank : Nat
  deriving DecidableEq, Repr

/-- A memory controller's maintenance state of one pseudo-channel (R42, R43): activation counts by bank, the due commands
(true: refresh management, with its bank; false: per-bank refresh), oldest first, the next bank to refresh, and the slot starts
taken for maintenance. -/
structure PchSt where
  acts : Sparse Nat
  due : List (Bool × Nat)
  nextBank : Nat
  taken : List Nat
  deriving DecidableEq, Repr

def PchSt.zero : PchSt := ⟨[], [], 0, []⟩

/-- HBM4E contents that the manual leaves undefined (R355, R48): the event's number, a range of addresses, and one bank of it
when the event concerned a bank alone. -/
structure Undef where
  epoch : Nat
  lo : Nat
  hi : Nat
  bank : Option BankId
  deriving DecidableEq, Repr

/-- The mapping and the contents of the quarters of a partition change as they stood before it, for the host accesses numbered below
`before` that are still to perform (R355). -/
structure OldMap where
  before : Nat
  quarters : List Nat
  live : Sparse (Option Word)
  hbm : Sparse (Option Byte)
  poison : Sparse (Option Bool)
  faulty : Sparse Bool
  undef : List Undef
  deriving DecidableEq, Repr

/-- The eviction in progress (R52): its pages, whether a line was poisoned, the lines written, and whether the next one is being read. -/
structure Evict where
  id : Nat
  src : Nat
  dst : Nat
  poisoned : Bool
  line : Nat
  asked : Bool
  deriving DecidableEq, Repr

/-- A partition change under way (R354, R355): its change cycle, the partition numbers involved, those of them that the shadows enable, the
quarters involved. -/
structure PartChange where
  rho : Nat
  parts : List Nat
  after : List Nat
  quarters : List Nat
  deriving DecidableEq, Repr

/-! ## The package -/

/-- The state of one package: everything the manual gives it, as plain data. Fields that are the model's own are marked so. -/
structure State where
  variant : Variant
  /-- power is on (R330) -/
  power : Bool
  scyc : Nat
  /-- inputs and timed steps still to come (the model's own, log 1 and log 5) -/
  agenda : List Sched
  pend : List Pend
  links : List LinkUse
  /-- the bundle in hand (the model's own, log 8) -/
  cur : Issue
  /-- free-value counter (the model's own, log 9) -/
  free : Nat
  cores : Sparse CoreSt
  panels : List Panel
  nextPid : Nat
  /-- HBM4E bytes; an unlisted byte reads as 0, or as a free value where the manual leaves the contents undefined -/
  hbm : Sparse (Option Byte)
  hbmPoison : Sparse (Option Bool)
  hbmUndef : List Undef
  /-- HBM4E lines with one faulty symbol, which every read corrects (R44) -/
  hbmFaulty : Sparse Bool
  ls : Sparse Byte
  lsPoison : Sparse Bool
  second : Sparse Byte
  secondPoison : Sparse Bool
  nv : Sparse Byte
  /-- control-space registers, by byte offset, as differences from their reset values -/
  ctl : Sparse (Option Word)
  live : Sparse (Option Word)
  launch : Sparse Byte
  tenkey : Sparse Byte
  launchFull : List Nat
  events : Sparse (List Event)
  failrec : Sparse TrapRec
  faq : Sparse (List (BitVec 128))
  frq : List (BitVec 128)
  out : List Output
  epochs : Sparse Nat
  spans : Sparse (List SpanEnt)
  walks : List Walk
  shoots : List Shoot
  reqs : List HbmReq
  nextId : Nat
  /-- maintenance by pseudo-channel of the package -/
  pchs : Sparse PchSt
  /-- running self-tests: partition, bank, next row, whether a row has failed (R48) -/
  tests : List (Nat × BankId × Nat × Bool)
  copies : List CopyRun
  wbq : List HbmReq
  /-- untimed accesses that wait for a free slot, in arrival order (R37, R81) -/
  uq : List HbmReq
  /-- host accesses accepted and not finished, in order (R278) -/
  hostq : List HostAcc
  dqueues : Sparse (List Untimed)
  pages : List PageReq
  chans : List (Nat × Nat × Nat × Nat)
  queueReqs : List QueueReq
  runs : List Run
  pass : Sparse Nat
  saved : List Saved
  linklat : Sparse Word
  /-- by Gramer port, the SCYC in which its UP was last set, and last cleared (R202) -/
  portUpAt : Sparse Nat
  portDownAt : Sparse Nat
  drift : Sparse Word
  /-- LINKLAT.LAT and UP of the ports that join two other packages, by 64 * package + package, as those have told it (R177, R203; the model's own,
  log 118) -/
  farLat : Sparse (Nat × Bool)
  /-- the cores of each other package that are not free there, as it has told it (R287; the model's own, log 119) -/
  awayBusy : Sparse (List Nat)
  /-- SCYC since which REFV has been 0 (R322) -/
  refSilent : Nat
  /-- SCYC has been loaded by a hedge start since the last reset (R315, R318) -/
  hedgeLoaded : Bool
  /-- the port whose start marker is still to be sent on by the other up ports (R318) -/
  markerFrom : Option Nat
  /-- no access is admitted to a slot before this SCYC (R315) -/
  admitFrom : Nat
  evict : Option Evict
  partChange : Option PartChange
  /-- mappings that host accesses accepted before a partition change still go by, oldest first (R355) -/
  olds : List OldMap
  /-- ENTRY of the firmware image that was loaded (R358) -/
  fwEntry : Nat
  attM : BitVec 256
  attLog : List (BitVec 256)
  attBuf : Sparse Byte
  fdutyAt : List (Nat × Nat)
  /-- mean power of the last ten intervals, in mW (R328, R329) -/
  power10 : List Nat
  /-- units presented this cycle, by 4 * access processor + channel (R76) -/
  units : Sparse Nat
  /-- the dispatcher has halted (R338) -/
  dispHalt : Bool
  /-- launch-record buffers by 64 * tenant + index (R303) -/
  bufs : Sparse (Option RecBuf)
  deriving DecidableEq, Repr

/-- Why the machine stops. -/
inductive Fault where
  /-- `step`, when the package's power stages are off (R330: THERMAL): nothing runs until a fundamental reset. Safe: the part
  itself does nothing in this state. -/
  | powerOff
  deriving DecidableEq, Repr

/-- Why an instruction is refused. -/
inductive Refusal where
  /-- `exec`, for an instruction whose meaning has not been written yet. Safe: no claim about it can be proved. -/
  | notModelled (mnemonic : String)
  deriving DecidableEq, Repr

/-- The package right after a fundamental reset (R315, R358): SCYC 0, only the PCIe port and the boot ROM run, every table at
its reset values; no program. -/
def State.reset : State :=
  { variant := .d8, power := true, scyc := 0, agenda := [], pend := [], links := [], cur := .none, free := 0,
    cores := [], panels := [], nextPid := 1, hbm := [], hbmPoison := [], hbmUndef := [], hbmFaulty := [], ls := [],
    lsPoison := [], second := [], secondPoison := [], nv := [], ctl := [], live := [], launch := [],
    tenkey := [], launchFull := [], events := [], failrec := [], faq := [], frq := [], out := [], epochs := [],
    spans := [], walks := [], shoots := [], reqs := [], nextId := 1, pchs := [], tests := [],
    copies := [], wbq := [], uq := [], hostq := [], dqueues := [], pages := [], chans := [],
    queueReqs := [], runs := [], pass := [], saved := [], linklat := [], portUpAt := [], portDownAt := [], drift := [],
    refSilent := 0, hedgeLoaded := false, markerFrom := none, admitFrom := 0, evict := none, partChange := none,
    olds := [], farLat := [], awayBusy := [], fwEntry := 0, attM := 0, attLog := [], attBuf := [], fdutyAt := [], power10 := [], units := [], dispHalt := false, bufs := [] }

end Sys2Proof.Machine
end

