-- ==== Sys2Proof/Machine/Ops.lean ====
section
/-!
DEFINITION. The named operations over registers, memories and the bundle in hand: reading and writing each register file, what
a slot word may do to the bundle in hand, the order of traps (R185), taking a trap (R334 to R337) and the return from one
(R179).
-/
namespace Sys2Proof.Machine

/-- The outcome of an instruction. -/
abbrev Out := Host.Outcome State Fault Refusal

/-! ## Cores, contexts, panels -/

def State.core (s : State) (c : Nat) : CoreSt := spGet CoreSt.idle s.cores c

def State.setCore (s : State) (c : Nat) (x : CoreSt) : State := { s with cores := spPut CoreSt.idle s.cores c x }

def State.updCore (s : State) (c : Nat) (f : CoreSt → CoreSt) : State := s.setCore c (f (s.core c))

def CoreSt.ctx (c : CoreSt) (k : Nat) : Ctx := spGet Ctx.idle c.ctxs k

def CoreSt.updCtx (c : CoreSt) (k : Nat) (f : Ctx → Ctx) : CoreSt :=
  { c with ctxs := spPut Ctx.idle c.ctxs k (f (c.ctx k)) }

def State.ctx (s : State) (c k : Nat) : Ctx := (s.core c).ctx k

def State.updCtx (s : State) (c k : Nat) (f : Ctx → Ctx) : State := s.updCore c (·.updCtx k f)

/-- Cores on the package (Table 0.2). -/
def State.ncores (s : State) : Nat := match s.variant with | .d8h => 128 | .d8 | .d8e => 256

/-- Compute dies and latent-store dies (Table 0.2). -/
def State.ndies (s : State) : Nat := match s.variant with | .d8h => 1 | .d8 | .d8e => 2

/-- Gramer ports (Table 0.2). -/
def State.gramer (s : State) : Nat := match s.variant with | .d8 => 32 | .d8h => 16 | .d8e => 0

/-- CXL ports (Table 0.2). -/
def State.cxl (s : State) : Nat := match s.variant with | .d8 => 4 | .d8h => 2 | .d8e => 0

/-- The panel of a number. -/
def State.panel? (s : State) (pid : Nat) : Option Panel := s.panels.find? fun p => p.pid == pid

def State.updPanel (s : State) (pid : Nat) (f : Panel → Panel) : State :=
  { s with panels := s.panels.map fun p => if p.pid = pid then f p else p }

/-- The panel that holds a core (R104). -/
def State.panelOn (s : State) (c : Nat) : Option Panel := (s.core c).panel.bind s.panel?

/-- The firmware context (R104): context 3 of package core 0. -/
def isFwCtx (c k : Nat) : Bool := c == 0 && k == 3

/-- The context holds its core's panel (R104). -/
def State.holds (s : State) (c k : Nat) : Bool := k == 0 && (s.core c).panel.isSome

/-- The clock in which a context issues: PCYC of its panel, or schedule cycles. -/
def State.clkOf (s : State) (c k : Nat) : Clk :=
  if isFwCtx c k then .scyc
  else match (s.core c).panel with | some p => .panel p | none => .scyc

/-- The present cycle of a clock. -/
def State.now (s : State) : Clk → Nat
  | .scyc => s.scyc
  | .panel p => match s.panel? p with | some x => x.pcyc | none => 0

/-- The clock of a panel that stands still in this cycle (R325). -/
def State.clkFrozen (s : State) : Clk → Bool
  | .scyc => false
  | .panel p => match s.panel? p with | some x => x.frozen | none => false

/-- A bundle whose untimed queue operation has not been answered: nothing of it takes effect yet, so that a QUEUE trap is precise (R194). -/
def State.queueHeld (s : State) (o : Own) : Bool :=
  s.queueReqs.any fun r => r.own.core == o.core && r.own.ctx == o.ctx && r.own.issue == o.issue

/-- The die of a package core (R6). -/
def dieOf (core : Nat) : Nat := core / 128

/-! ## Registers -/

/-- s0 reads zero (Table 7.1). -/
def Ctx.rdS (c : Ctx) (r : BitVec 5) : Word := if r = 0 then 0 else spGet 0 c.s r.toNat

/-- A write to s0 is discarded (Table 7.1). The poison mark follows R186. -/
def Ctx.wrS (c : Ctx) (r : BitVec 5) (v : Word) (poison : Bool) : Ctx :=
  if r = 0 then c
  else { c with s := spPut 0 c.s r.toNat v, mark := spPut false c.mark r.toNat poison }

/-- q0 reads 1 (Table 7.1). -/
def Ctx.rdQ (c : Ctx) (q : BitVec 3) : Bool := if q = 0 then true else c.q.getLsbD q.toNat

/-- Bit i of x set to v. -/
def setBit {w : Nat} (x : BitVec w) (i : Nat) (v : Bool) : BitVec w :=
  if v then x ||| BitVec.ofNat w (2 ^ i) else x &&& ~~~ (BitVec.ofNat w (2 ^ i))

/-- A write to q0 is discarded (Table 7.1). -/
def Ctx.wrQ (c : Ctx) (q : BitVec 3) (v : Bool) : Ctx :=
  if q = 0 then c else { c with q := setBit c.q q.toNat v }

def Ctx.rdH (c : Ctx) (h : BitVec 4) : Handle := spGet Handle.zero c.h h.toNat

def Ctx.wrH (c : Ctx) (h : BitVec 4) (v : Handle) : Ctx := { c with h := spPut Handle.zero c.h h.toNat v }

def CoreSt.rdB (c : CoreSt) (b : BitVec 3) : BitVec 20 := spGet 0 c.b b.toNat

def CoreSt.wrB (c : CoreSt) (b : BitVec 3) (v : BitVec 20) : CoreSt := { c with b := spPut 0 c.b b.toNat v }

def CoreSt.rdV (c : CoreSt) (cl : Nat) (r : BitVec 5) : BitVec 512 := spGet 0 c.v (32 * cl + r.toNat)

def CoreSt.vMarked (c : CoreSt) (cl : Nat) (r : BitVec 5) : Bool := spGet false c.vMark (32 * cl + r.toNat)

/-- m0 reads as all ones (Table 7.1, R215). -/
def CoreSt.rdM (c : CoreSt) (cl : Nat) (m : BitVec 3) : BitVec 16 :=
  if m = 0 then BitVec.allOnes 16 else spGet 0 c.m (8 * cl + m.toNat)

/-- A write to m0 is discarded (Table 7.1). -/
def CoreSt.wrM (c : CoreSt) (cl : Nat) (m : BitVec 3) (v : BitVec 16) : CoreSt :=
  if m = 0 then c else { c with m := spPut 0 c.m (8 * cl + m.toNat) v }

/-- Lane j of a vector (R21). -/
def lane (v : BitVec 512) (j : Nat) : BitVec 32 := v.extractLsb' (32 * j) 32

/-- The lanes of a vector, as numbers. -/
def lanes (v : BitVec 512) : List Nat := (List.range 16).map fun j => (lane v j).toNat

/-- A vector from its lanes, lane 0 first. -/
def ofLanes (l : List Nat) : BitVec 512 := BitVec.ofNat 512 (packBits 32 l)

/-- Lane j from `new` where bit j of the mask is 1, and from `old` elsewhere (R215). -/
def blend (mask : BitVec 16) (new old : BitVec 512) : BitVec 512 :=
  ofLanes ((List.range 16).map fun j =>
    if mask.getLsbD j then (lane new j).toNat else (lane old j).toNat)

/-- A write of the unmasked lanes (R215), and of the poison mark (R218): a poisoned source sets it, another write that
replaces every lane clears it, a write that leaves a lane keeps it. -/
def CoreSt.wrV (c : CoreSt) (cl : Nat) (r : BitVec 5) (mask : BitVec 16) (v : BitVec 512) (poison : Bool) :
    CoreSt :=
  let k := 32 * cl + r.toNat
  { c with
    v := spPut 0 c.v k (blend mask v (spGet 0 c.v k))
    vMark := spPut false c.vMark k
      (if poison then true else if mask = BitVec.allOnes 16 then false else spGet false c.vMark k) }

def CoreSt.tile (c : CoreSt) (t : Nat) : Tile := spGet Tile.zero c.t t

def CoreSt.tcReg (c : CoreSt) (t : Nat) : Word := spGet 0 c.tc t

def CoreSt.accum (c : CoreSt) (n : Nat) : Acc := spGet Acc.zero c.acc n

def CoreSt.latchN (c : CoreSt) (n : Nat) : Latch := spGet Latch.empty c.latch n

def CoreSt.setTile (c : CoreSt) (t : Nat) (x : Tile) : CoreSt := { c with t := spPut Tile.zero c.t t x }

def CoreSt.setAcc (c : CoreSt) (n : Nat) (x : Acc) : CoreSt := { c with acc := spPut Acc.zero c.acc n x }

def Tile.row (t : Tile) (r : Nat) : BitVec 1024 := spGet 0 t.rows r

def Tile.marked (t : Tile) (r : Nat) : Bool := t.marks.getLsbD r

/-- A whole row written with its mark (R244). -/
def Tile.setRow (t : Tile) (r : Nat) (v : BitVec 1024) (mark : Bool) : Tile :=
  { rows := spPut 0 t.rows r v, marks := setBit t.marks r mark }

def Acc.elem (a : Acc) (i j : Nat) : Xa := spGet Xa.zero a.el (64 * i + j)

/-! Fields of a tile-control value (Table 7.2). -/

def tcEw (w : Word) : Nat := fld w.toNat 0 3
def tcRows (w : Word) : Nat := fld w.toNat 3 6 + 64 * fld w.toNat 9 1 + 1
def tcRlen (w : Word) : Nat := fld w.toNat 10 10 + 1
def tcBlk (w : Word) : Bool := bt w.toNat 20

/-- Bits of an element of a tile by EW: 32, 16, 8, 4, 2 (Table 7.2). -/
def ewBits (ew : Nat) : Nat := match ew with | 0 => 32 | 1 => 16 | 2 => 8 | 3 => 4 | _ => 2

/-- A value that SETSR accepts for a tile-control register (R106). -/
def tcOk (w : Word) : Bool :=
  decide (w.toNat < 2 ^ 21) && decide (tcEw w ≤ 4) && decide (tcRows w ≤ 64)
    && decide (tcRlen w * ewBits (tcEw w) ≤ 1024)

/-! ## The bundle in hand -/

/-- The core and the context that issue. -/
def State.me (s : State) : CoreSt := s.core s.cur.core

def State.myCtx (s : State) : Ctx := s.me.ctx s.cur.ctx

/-- A scalar register of the issuing context, as it stands at issue (R162, R185). -/
def State.rdS (s : State) (r : BitVec 5) : Word := s.myCtx.rdS r

def State.rdQ (s : State) (q : BitVec 3) : Bool := s.myCtx.rdQ q

def State.rdH (s : State) (h : BitVec 4) : Handle := s.myCtx.rdH h

/-- The issuing context holds its core's panel. -/
def State.isHolder (s : State) : Bool := s.holds s.cur.core s.cur.ctx

/-- The issuing context is the firmware context. -/
def State.isFw (s : State) : Bool := isFwCtx s.cur.core s.cur.ctx

/-- The owner of what the word in hand does (R379). -/
def State.own (s : State) : Own :=
  ⟨s.cur.core, s.cur.ctx, s.cur.slot, s.cur.word, s.cur.baddr, s.cur.t⟩

/-- An action of the word in hand, due `off` cycles after issue. -/
def State.emit (s : State) (off : Nat) (a : Act) : State :=
  { s with cur := { s.cur with out := s.cur.out ++ [⟨s.cur.clk, s.cur.t + off, false, s.own, a⟩] } }

/-- As `emit`, for a write that is seen from the cycle after its own (R244). -/
def State.emitLate (s : State) (off : Nat) (a : Act) : State :=
  { s with cur := { s.cur with out := s.cur.out ++ [⟨s.cur.clk, s.cur.t + off, true, s.own, a⟩] } }

/-- A scalar result of the word in hand at `off`. -/
def State.emitS (s : State) (off : Nat) (d : BitVec 5) (v : Word) : State :=
  s.emit off (.wS s.cur.ctx d v false)

/-- The step of a trap in the check order of R185; decode causes and HOLDER come first (R333). -/
def TrapKind.step : TrapKind → Nat
  | .illegal sub _ => if sub ≤ 10 then 0 else if sub = 20 then 1 else if sub = 19 then 9 else 10
  | .handle _ _ _ => 2
  | .align _ _ => 3
  | .range _ (some _) => 2
  | .range _ none => 4
  | .timing 0 _ => 5
  | .poison 2 _ _ _ => 9
  | .poison _ _ _ _ => 6
  | .bankconf _ _ _ _ => 7
  | .earlyread _ _ _ _ => 8
  | .priv | .timing _ _ | .meshcoll _ _ _ | .sqimbal _ _ | .queue _ _ | .link _ _ | .soft _ | .fault _ _ => 10

/-- The cause code (R332). -/
def TrapKind.code : TrapKind → Nat
  | .illegal _ _ => 1 | .priv => 2 | .align _ _ => 3 | .range _ _ => 4 | .handle _ _ _ => 5
  | .poison _ _ _ _ => 6 | .bankconf _ _ _ _ => 7 | .meshcoll _ _ _ => 8 | .earlyread _ _ _ _ => 9
  | .timing _ _ => 10 | .sqimbal _ _ => 11 | .queue _ _ => 12 | .link _ _ => 13 | .soft _ => 14
  | .fault _ _ => 15

/-- The ILLEGAL cause code of TREC0.SUB (R334). -/
def TrapKind.sub : TrapKind → Nat
  | .illegal sub _ => sub
  | _ => 0

/-- TREC4 (R335). -/
def TrapKind.t4 : TrapKind → Word
  | .illegal sub arg => if sub = 19 then BitVec.ofNat 64 (arg % 256) else 0
  | .priv => 0
  | .align a _ => a
  | .range a _ => a
  | .handle h hst _ => BitVec.ofNat 64 (h.toNat + 16 * hst.toNat)
  | .poison k c r row => BitVec.ofNat 64 (k % 4 + 4 * (c % 8) + 32 * (r % 32) + 1024 * (row % 64))
  | .bankconf b l c1 c2 => BitVec.ofNat 64 (b % 32 + 32 * (l % 8192) + 2 ^ 18 * (c1 % 16) + 2 ^ 22 * (c2 % 16))
  | .meshcoll l _ _ => BitVec.ofNat 64 l
  | .earlyread l k i ap =>
    BitVec.ofNat 64 (l % 8192 + 8192 * (k % 2) + 2 ^ 16 * (i % 2 ^ 14) + 2 ^ 30 * (ap % 16))
  | .timing k _ => BitVec.ofNat 64 (k % 16)
  | .sqimbal held push => BitVec.ofNat 64 (held % 128 + 128 * push.toNat)
  | .queue q r => BitVec.ofNat 64 (q % 2048 + 2048 * (r % 8))
  | .link p op => BitVec.ofNat 64 (p % 32 + 32 * (op % 4))
  | .soft c => BitVec.ofNat 64 c.toNat
  | .fault c _ => BitVec.ofNat 64 (c % 256)

/-- The handle of TREC5 for ALIGN and RANGE (R335). -/
def handleField (h : Option (BitVec 4)) : Word :=
  match h with | none => 0 | some h => BitVec.ofNat 64 (h.toNat + 16)

/-- TREC5 (R335). -/
def TrapKind.t5 : TrapKind → Word
  | .align _ h => handleField h
  | .range _ h => handleField h
  | .handle _ _ off => off
  | .meshcoll _ r1 r2 => BitVec.ofNat 64 (r1 % 2 ^ 16 + 2 ^ 16 * (r2 % 2 ^ 16))
  | .timing _ a => a
  | .fault _ d => BitVec.ofNat 64 d.toNat
  | .illegal _ _ | .priv | .poison _ _ _ _ | .bankconf _ _ _ _ | .earlyread _ _ _ _ | .sqimbal _ _
  | .queue _ _ | .link _ _ | .soft _ => 0

/-- The first bit that is 1, or 13. -/
def firstSlot (m : BitVec 13) : Nat := ((List.range 13).find? fun i => m.getLsbD i).getD 13

/-- The rank of a trap found in the order of R185: step, then cause code for the last step, then slot. -/
def TrapCand.key (t : TrapCand) : Nat :=
  (t.step * 16 + (if t.step = 10 then t.kind.code else 0)) * 16 + firstSlot t.smask

/-- The trap that is recorded (R185): the first in the order; the one found first on a tie. -/
def firstTrap : List TrapCand → Option TrapCand
  | [] => none
  | t :: ts =>
    match firstTrap ts with
    | none => some t
    | some u => if u.key < t.key then some u else some t

/-- A trap of the word in hand that marks the given slots (R143, R379). -/
def State.trapMask (s : State) (mask : BitVec 13) (k : TrapKind) (step : Nat) : State :=
  { s with cur := { s.cur with traps := s.cur.traps ++ [⟨k, step, mask, s.cur.word, s.cur.baddr⟩] } }

/-- The slots of the word in hand: those of its clusters, or its own. -/
def Issue.slots (c : Issue) : BitVec 13 :=
  match c.clusters with
  | [] => BitVec.ofNat 13 (2 ^ c.slot)
  | l => l.foldl (fun m i => m ||| BitVec.ofNat 13 (2 ^ (5 + i))) 0

/-- A trap of the word in hand. ILLEGAL marks every slot that it concerns; another trap of a word that several clusters execute
belongs to the lowest of them (R143, R379). -/
def State.trap (s : State) (k : TrapKind) : State :=
  s.trapMask (match k with | .illegal _ _ => s.cur.slots | _ => BitVec.ofNat 13 (2 ^ s.cur.slot)) k k.step

/-- A word that only the holder may issue (R105): ILLEGAL with cause HOLDER elsewhere, whatever its predicate. -/
def State.holderOp (s : State) (body : State → State) : State :=
  if s.isHolder then body s else s.trap (.illegal 10 0)

/-- ILLEGAL with cause IMMVAL (Table 8.11). -/
def State.immval (s : State) : State := s.trap (.illegal 20 0)

/-- POISON for each marked scalar register read at issue (R186). -/
def State.useS (s : State) : List (BitVec 5) → State
  | [] => s
  | r :: rs =>
    (if r ≠ 0 ∧ spGet false s.myCtx.mark r.toNat then s.trap (.poison 0 0 r.toNat 0) else s).useS rs

/-- A word whose predicate reads 0 does nothing (R127); otherwise its scalar sources are read (R186) and it acts. -/
def State.slotOp (s : State) (p : BitVec 3) (srcs : List (BitVec 5)) (body : State → State) : State :=
  if s.rdQ p then body (s.useS srcs) else s

/-- The word's own checks alone, without any effect. -/
def State.checksOf (s t : State) : State := { s with cur := { s.cur with traps := t.cur.traps } }

/-- As `slotOp`, for a privileged word (R133): PRIV outside the firmware context, found with the word's other traps of the cycle (R185). -/
def State.privOp (s : State) (p : BitVec 3) (srcs : List (BitVec 5)) (body : State → State) : State :=
  s.slotOp p srcs fun s => if s.isFw then body s else (s.checksOf (body s)).trap .priv

/-! ## Traps -/

/-- The trap record (R334, R335) of a trap in context k of core c. -/
def trapRec (s : State) (c k : Nat) (t : TrapCand) (ret : BitVec 16) : TrapRec :=
  let x := s.ctx c k
  let clk := s.clkOf c k
  { t0 := BitVec.ofNat 64 (t.kind.code + 2 ^ 8 * (t.kind.sub % 256) + 2 ^ 16 * t.smask.toNat
      + 2 ^ 29 * (s.holds c k).toNat + 2 ^ 30 * (k % 4) + 2 ^ 32 * t.baddr.toNat + 2 ^ 48 * (x.rank % 2 ^ 16))
    t1 := BitVec.ofNat 64 (t.word.toNat + 2 ^ 32 * ret.toNat)
    t2 := BitVec.ofNat 64 (match clk with | .scyc => 0 | .panel _ => s.now clk)
    t3 := BitVec.ofNat 64 s.scyc
    t4 := t.kind.t4
    t5 := t.kind.t5
    t6 := 0
    t7 := 0 }

end Sys2Proof.Machine
end

