-- ==== Sys2Proof/Machine/Operands.lean ====
section
/-!
DEFINITION. Operand forms: extended immediates and offsets (R128), scratchpad and handle operands (R187, R188, R59), the phase
rule (R89, R91).
-/
namespace Sys2Proof.Machine

/-- A signed field, widened by its extension: the eight LEND bits stand above its most significant bit (R128). -/
def extInt {w : Nat} (o : BitVec w) : Ext → Int
  | none => o.toInt
  | some l => sext (w + 8) (l.toNat * 2 ^ w + o.toNat)

/-- An integer as a 64-bit value, modulo 2^64. -/
def word (k : Int) : Word := BitVec.ofInt 64 k

/-- An immediate sign-extended to 64 bits (R163). -/
def immWord {w : Nat} (i : BitVec w) (e : Ext) : Word := word (extInt i e)

end Sys2Proof.Machine

namespace Sys2Proof

/-- Bytes of SZ (Table 8.5). -/
def Sz.bytes : Sz → Nat
  | .b => 1 | .h => 2 | .w => 4 | .d => 8

/-- The scalar register that a base names, if it names one. -/
def Base.sregs : Base → List (BitVec 5)
  | .s r => [r]
  | .b _ => []

end Sys2Proof

namespace Sys2Proof.Machine

/-- The value of a base register: an s register, or one of b0 to b7 zero-extended (R131, R187). -/
def State.baseVal (s : State) : Base → Word
  | .s r => s.rdS r
  | .b r => (s.me.rdB r).zeroExtend 64

/-- base + offset * scale, modulo 2^64. -/
def State.baseOff {w : Nat} (s : State) (b : Base) (o : BitVec w) (e : Ext) (scale : Nat) : Word :=
  s.baseVal b + word (extInt o e * scale)

/-- The scratchpad's size, 0x5_0000 (R108). -/
def spSize : Nat := 0x50000

/-- ALIGN and RANGE of a scratchpad access of n bytes at a (R187, R108). -/
def State.spCheck (s : State) (a : Word) (align n : Nat) (ok : State → State) : State :=
  if a.toNat % align ≠ 0 then s.trap (.align a none)
  else if a.toNat + n > spSize then s.trap (.range a none)
  else ok s

/-- A base operand: a b register needs the holder (R105). -/
def State.baseOp (s : State) (b : Base) (body : State → State) : State :=
  match b with
  | .s _ => body s
  | .b _ => s.holderOp body

/-! ## Handles (R58, R59) -/

/-- Bit i of a span bitmap. -/
def spanBit (m : BitVec 64) (i : Nat) : Bool := i < 64 && m.getLsbD i

/-- The pages from byte o to byte o + n - 1 all have their bit. -/
def pagesOk (m : BitVec 64) (o n : Nat) : Bool :=
  (List.range ((o + n - 1) / 65536 - o / 65536 + 1)).all fun i => spanBit m (o / 65536 + i)

/-- The handle check of Table 4.4, in order: the first failing row. `wr`: the access writes; `lsp`: it is an access of the
latent store. -/
def handleCheck (h : BitVec 4) (x : Handle) (o n : Nat) (wr lsp : Bool) : Option TrapKind :=
  let off := BitVec.ofNat 64 o
  if !x.v then some (.handle h x.hst off)
  else if o + n > (x.npgm1.toNat + 1) * 65536 then some (.range off (some h))
  else if !pagesOk x.valid o n then some (.handle h x.hst off)
  else if wr && !x.w then some (.handle h x.hst off)
  else if x.sp != lsp then some (.handle h x.hst off)
  else none

/-- The latent-store place of span byte o (R59, R86, Table 4.1). -/
def handlePlace (x : Handle) (o : Nat) : LsAddr :=
  let f := (x.pbase.toNat + o / 65536) % 2 ^ 32
  ⟨f / 2 ^ 15 % 2, f % 2 ^ 15 * 65536 + o % 65536⟩

/-- The physical HBM4E address of span byte o (R59). -/
def handleAddr (x : Handle) (o : Nat) : Nat := (x.pbase.toNat + o / 65536) % 2 ^ 32 * 65536 + o % 65536

/-- The line number of a latent-store byte (R86). -/
def LsAddr.line (p : LsAddr) : Nat := p.byte / 64

/-! ## The phase rule (R89, R91) -/

/-- The declared die-local index of the issuing strand's core (R89). -/
def State.declIdx (s : State) : Nat :=
  match s.panelOn s.cur.core with
  | some p => match p.ranks[s.myCtx.rank]? with | some r => r.decl % 128 | none => s.cur.core % 128
  | none => s.cur.core % 128

/-- (L - c - p - bias - phi) mod 128 = 0 (Table 6.1): bias 0 for a read, 64 for a write. -/
def phaseOk (line c p bias : Nat) (ownDie : Bool) : Bool :=
  ((line : Int) - c - p - bias - (if ownDie then 0 else 64)) % 128 == 0

/-- The line is on the die of the issuing core. -/
def State.ownDie (s : State) (die : Nat) : Bool := die == dieOf s.cur.core

/-- An untimed latent-store read waits for every earlier store or atomic of its context to the line (R272). -/
def State.lsBusy (s : State) (p : LsAddr) : Bool :=
  s.pend.any fun x => x.own.core == s.cur.core && x.own.ctx == s.cur.ctx &&
    (match x.act with
     | .lsStore q _ _ => q.die == p.die && q.line == p.line
     | .lsAtomic q _ _ _ _ _ => q.die == p.die && q.line == p.line
     | _ => false)

/-- An untimed read of a scratchpad line waits for every earlier store of its context to it (R272). -/
def State.spBusy (s : State) (core line : Nat) : Bool :=
  !s.isHolder && s.pend.any fun x => x.own.core == s.cur.core && x.own.ctx == s.cur.ctx &&
    (match x.act with
     | .spStore a _ => core == s.cur.core && a / 64 == line
     | .rstReq c a _ => core == c && a / 64 == line
     | _ => false)

/-- A read held at issue for this cycle. -/
def State.holdFor (s : State) (busy : Bool) (ok : State → State) : State :=
  if busy then { s with cur := { s.cur with hold := true } } else ok s

/-- The core's latent-store bundle is lent or in stream use in the present PCYC (R73, R244): reads, then writes. -/
def State.bundleUse (s : State) (c : Nat) (wr : Bool) : Option Nat :=
  let u := (s.core c).units
  let v := if c = s.cur.core then s.cur.units else u
  let t := s.now (s.clkOf c 0)
  if (if wr then max u.wrEnd v.wrEnd else max u.rdEnd v.rdEnd) > t then some (if wr then 3 else 2) else none

/-- A_src of a copy (Table 5.3; R80: 520 for a timed CPY from HBM4E). -/
def CopyRun.srcLat (r : CopyRun) : Nat :=
  match r.e.srck with
  | 0 => if r.cpy then 520 else 8
  | 1 => if (handlePlace r.sH r.e.soff).die = r.ap / 8 then 24 else 40
  | _ => 12

/-- B_dst of a copy (Table 5.3); for an HBM4E destination, 4 sc to the presentation (R72). -/
def CopyRun.dstLat (r : CopyRun) : Nat :=
  match r.e.dstk with
  | 0 => 16
  | 1 => if (handlePlace r.dH r.e.doff).die = r.ap / 8 then 20 else 36
  | _ => 4

/-- The access processors lend the port core's bundle in the present cycle (R73). -/
def State.bundleLent (s : State) (c : Nat) (wr : Bool) : Bool :=
  s.copies.any fun r =>
    !r.done && r.timed && 16 * r.ap + r.e.portc == c &&
    (match r.start, r.pid with
     | some st, some pid =>
       let t := s.now (.panel pid)
       if wr then r.e.dstk == 1 && decide (t ≥ st + r.srcLat) && decide (t < st + r.srcLat + r.e.lines)
       else r.e.srck == 1 && decide (t ≥ st) && decide (t < st + r.e.lines)
     | _, _ => false)

/-- The checks and the timing of a latent-store access of the word in hand to the line of p: TIMING in the holder
(R89, R244, R73), a wait elsewhere (R91, R272). -/
def State.lsGate (s : State) (p : LsAddr) (wr : Bool) (ok : State → State) : State :=
  let own := s.ownDie p.die
  let bias := if wr then 64 else 0
  if s.isHolder then
    if !phaseOk p.line s.declIdx s.cur.t bias own then
      s.trap (.timing 0 (BitVec.ofNat 64 (p.line % 2 ^ 25 + 2 ^ 25 * p.die)))
    else if s.bundleLent s.cur.core wr then s.trap (.timing 6 0)
    else match s.bundleUse s.cur.core wr with
      | some u => s.trap (.timing 2 (BitVec.ofNat 64 u))
      | none => ok s
  else if !phaseOk p.line (s.cur.core % 128) s.scyc bias own || (!wr && s.lsBusy p)
      || s.bundleLent s.cur.core wr || (s.bundleUse s.cur.core wr).isSome then
    { s with cur := { s.cur with hold := true } }
  else ok s

/-- A word that also uses the core's latent-store read bundle: TIMING in a line cycle of a TLDL (R244), a wait outside the holder. -/
def State.readFree (s : State) (ok : State → State) : State :=
  match s.bundleUse s.cur.core false with
  | none => ok s
  | some u => if s.isHolder then s.trap (.timing 2 (BitVec.ofNat 64 u)) else { s with cur := { s.cur with hold := true } }

/-- The key of a latent-store byte in the state's map. -/
def LsAddr.key (p : LsAddr) : Nat := p.die * 0x80000000 + p.byte

/-- n bytes of the latent store. -/
def State.lsBytes (s : State) (p : LsAddr) (n : Nat) : List Byte := bytesAt s.ls p.key n

/-- The poison tag of the line of p (R88). -/
def State.lsTag (s : State) (p : LsAddr) : Bool := spGet false s.lsPoison (p.key / 64)

end Sys2Proof.Machine
end

