-- ==== Sys2Proof/Machine/Control.lean ====
section
/-!
DEFINITION. The control space (19, R350): where its registers lie, their reset values, their writable bits, and what a read
returns. The effect of a write stands with the unit that it starts; the write itself is `ctlWrite` in Machine/ControlWrite.lean.
-/
namespace Sys2Proof.Machine

/-! Offsets (Table 19.1 and the tables it names). -/

def offTen (t : Nat) : Nat := 0x1000 * t
def offTencfg (t : Nat) : Nat := 0x10000 + 8 * t
def offTenseq (t : Nat) : Nat := 0x10080 + 8 * t
def offTenkey (t : Nat) : Nat := 0x10100 + 32 * t
def offSyncctl : Nat := 0x40000
def offPwrctl : Nat := 0x40008
def offPwravg : Nat := 0x40010
def offTemp : Nat := 0x40018
def offFrq : Nat := 0x41000
def offFaultctl : Nat := 0x41020
def offSavebase (j : Nat) : Nat := 0x41028 + 8 * j
def offSaveslots (j : Nat) : Nat := 0x41048 + 8 * j
def offMemil (j : Nat) : Nat := 0x42000 + 8 * j
def offNetbnd : Nat := 0x42020
def offPartctl : Nat := 0x42028
def offPartrho : Nat := 0x42030
def offCxldec (i : Nat) : Nat := 0x43000 + 8 * i
def offCxlpst (i : Nat) : Nat := 0x43040 + 8 * i
def offEvsrc : Nat := 0x43080
def offEvdst : Nat := 0x43088
def offEvctl : Nat := 0x43090
def offBootctl : Nat := 0x44000
def offBootstat : Nat := 0x44008
def offAttm : Nat := 0x44010
def offAttnonce : Nat := 0x44030
def offAttctl : Nat := 0x44050
def offAttbuf : Nat := 0x45000
def offEthcnt (p : Nat) : Nat := 0x46000 + 8 * p
def offPart (j : Nat) : Nat := 0x80000 + 0x10000 * j
def offMemslot (j i : Nat) : Nat := offPart j + 8 * i
def offMemctl (j : Nat) : Nat := offPart j + 0x40
def offRefctl (j : Nat) : Nat := offPart j + 0x48
def offRmctl (j : Nat) : Nat := offPart j + 0x50
def offParksel (j : Nat) : Nat := offPart j + 0x58
def offFaq (j : Nat) : Nat := offPart j + 0x60
def offTroot (j t : Nat) : Nat := offPart j + 0x1000 + 8 * t
def offTrootf (j : Nat) : Nat := offPart j + 0x1080
def offSdaddr (j : Nat) : Nat := offPart j + 0x1088
def offSdcnt (j : Nat) : Nat := offPart j + 0x1090
def offSdctl (j : Nat) : Nat := offPart j + 0x1098
def offSdrho (j : Nat) : Nat := offPart j + 0x10A0
def offRchbase (j : Nat) : Nat := offPart j + 0x2000
def offRcdbase (j : Nat) : Nat := offPart j + 0x2008
def offRccfg (j : Nat) : Nat := offPart j + 0x2010
def offRcten (j t : Nat) : Nat := offPart j + 0x2018 + 8 * t
def offRcinv (j : Nat) : Nat := offPart j + 0x2098
def offRcirho (j : Nat) : Nat := offPart j + 0x20A0
def offLserr (j : Nat) : Nat := offPart j + 0x20A8
def offMsix : Nat := 0xF0000

/-- The thermal design power in watts (Table 0.1). -/
def tdp : Variant → Nat
  | .d8 => 2200 | .d8h => 1200 | .d8e => 2050

/-- Reset value of a register of a partition's three blocks (Tables 3.5, 4.5, 6.9), by offset in the partition's area. -/
def partReset (o : Nat) : Nat :=
  if o < 0x40 then (if o / 8 % 2 = 0 then 0x1111111111111110 else 0x1111111111111111)
  else if o = 0x48 then 200
  else if o = 0x50 then 256 + 32 * 2 ^ 10 + 128 * 2 ^ 20
  else 0

/-- The reset value of the stored part of a control register; the MSI-X vectors are masked, as PCI Express resets them (log 104). -/
def ctlReset (v : Variant) (off : Nat) : Word :=
  BitVec.ofNat 64
    (if 0x10000 ≤ off ∧ off < 0x10080 then 8
     else if off = offSyncctl then 2 ^ 8
     else if off = offPwrctl then tdp v + 2 ^ 15
     else if off = offTemp then 95 * 2 ^ 8 + 105 * 2 ^ 16
     else if off = offMemil 0 then (if v = .d8h then 3 else 5)
     else if off = offNetbnd then (if v = .d8h then 4 else 0)
     else if 0x80000 ≤ off ∧ off < 0xC0000 then partReset (off % 0x10000)
     else if 0xF0000 ≤ off ∧ off < 0xF0200 ∧ off % 16 = 8 then 2 ^ 32
     else 0)

/-- The stored value of a control register. -/
def State.ctlGet (s : State) (off : Nat) : Word :=
  match spGet none s.ctl off with
  | some w => w
  | none => ctlReset s.variant off

/-- The stored value set. -/
def State.ctlSet (s : State) (off : Nat) (v : Word) : State :=
  { s with ctl := spPut none s.ctl off (if v = ctlReset s.variant off then none else some v) }

/-- A field of a stored control register. -/
def State.ctlFld (s : State) (off lo n : Nat) : Nat := fld (s.ctlGet off).toNat lo n

/-- A field set. -/
def setFld (w : Word) (lo n v : Nat) : Word :=
  BitVec.ofNat 64 (w.toNat - fld w.toNat lo n * 2 ^ lo + v % 2 ^ n * 2 ^ lo)

def State.ctlSetFld (s : State) (off lo n v : Nat) : State := s.ctlSet off (setFld (s.ctlGet off) lo n v)

/-! ## Partitions (R352, R353) -/

/-- A live field: MEMIL or NETBND as in effect. -/
def State.liveGet (s : State) (off : Nat) : Nat :=
  match spGet none s.live off with
  | some w => w.toNat
  | none => fld (ctlReset s.variant off).toNat 0 3

/-- Partition j exists (live EN). -/
def State.partOn (s : State) (j : Nat) : Bool := j < 4 && s.liveGet (offMemil j) % 2 == 1

/-- NQ of a span code (Table 19.3). -/
def spanNq (c : Nat) : Nat := match c with | 0 => 1 | 1 => 2 | _ => 4

/-- The live quarters of partition j. -/
def State.partNq (s : State) (j : Nat) : Nat := spanNq (s.liveGet (offMemil j) / 2 % 4)

/-- The partition that holds quarter q. -/
def State.partOf (s : State) (q : Nat) : Option Nat :=
  (List.range 4).find? fun j => s.partOn j && decide (j ≤ q) && decide (q < j + s.partNq j)

/-- HBM4E bytes of the package (Table 3.1). -/
def hbmSize : Variant → Nat
  | .d8h => 0x3000000000 | .d8 | .d8e => 0x6000000000

/-- The HBM4E range of partition j: base and size (R352). -/
def State.partRange (s : State) (j : Nat) : Nat × Nat := (0x1800000000 * j, 0x1800000000 * s.partNq j)

/-- The quarter of a core. -/
def quarterOf (core : Nat) : Nat := core / 64

/-- The partition that owns an HBM4E address. -/
def State.partOfAddr (s : State) (a : Nat) : Option Nat := s.partOf (a / 0x1800000000)

/-! ## Status that is computed -/

/-- The fault-address queue of a partition; the fault-report queue is `frq`. -/
def State.faqOf (s : State) (j : Nat) : List (BitVec 128) := spGet [] s.faq j

def State.eventsOf (s : State) (t : Nat) : List Event := spGet [] s.events t

def headLo (q : List (BitVec 128)) : Word := match q with | [] => 0 | e :: _ => e.extractLsb' 0 64

def headHi (q : List (BitVec 128)) : Word := match q with | [] => 0 | e :: _ => e.extractLsb' 64 64

/-- Save slots of partition j in use. -/
def State.slotsUsed (s : State) (j : Nat) : Nat :=
  (s.saved.map fun x => (x.slots.filter fun y => y.1 == j).length).foldl (· + ·) 0
    + (s.panels.map fun p => if p.preempt.isSome && p.st != .saved then
        ((p.saveMask.filter fun y => y / 4096 == j).length) else 0).foldl (· + ·) 0

/-- A page T of the dispatcher block (Table 16.1). -/
def tenantRead (s : State) (t o : Nat) : Word :=
  if o = 0x100 then BitVec.ofNat 64 (s.eventsOf t).length
  else if o = 0x108 then headLo (s.eventsOf t)
  else if o = 0x110 then headHi (s.eventsOf t)
  else if 0x200 ≤ o ∧ o < 0x240 then
    let r := spGet TrapRec.zero s.failrec t
    match (o - 0x200) / 8 with
    | 0 => r.t0 | 1 => r.t1 | 2 => r.t2 | 3 => r.t3 | 4 => r.t4 | 5 => r.t5 | 6 => r.t6 | _ => r.t7
  else 0

/-- A register of partition j's area. -/
def partRead (s : State) (j o : Nat) : Word :=
  let off := offPart j + o
  if o = 0x60 then headLo (s.faqOf j)
  else if o = 0x68 then headHi (s.faqOf j)
  else if o = 0x70 then setFld (s.ctlGet off) 0 9 (s.faqOf j).length
  else if o = 0x2010 then setFld (s.ctlGet off) 0 14 (min 8192 (s.ctlFld off 0 14))
  else s.ctlGet off

/-- A block of an absent unit (R350). -/
def absentBlock (v : Variant) (off : Nat) : Bool :=
  match v with
  | .d8 => false
  | .d8h => 0xA0000 ≤ off && off < 0xC0000
  | .d8e => 0x43000 ≤ off && off < 0x44000

/-- What a read of the control register at an 8-byte-aligned offset returns (R350); offsets that are not listed read 0. -/
def State.ctlRead (s : State) (off : Nat) : Word :=
  if absentBlock s.variant off then 0
  else if off < 0x10000 then tenantRead s (off / 0x1000) (off % 0x1000)
  else if off < 0x10100 then s.ctlGet off
  else if off < 0x40000 then 0
  else if off < 0x41000 then s.ctlGet off
  else if off = offFrq then headLo s.frq
  else if off = offFrq + 8 then headHi s.frq
  else if off = offFrq + 16 then setFld (s.ctlGet off) 0 9 s.frq.length
  else if off = offFrq + 24 then 0
  else if 0x41048 ≤ off ∧ off < 0x41068 then
    let j := (off - 0x41048) / 8
    let slots := fld (s.ctlGet off).toNat 0 12
    BitVec.ofNat 64 (slots + (slots - s.slotsUsed j) * 2 ^ 16)
  else if 0x42000 ≤ off ∧ off < 0x42028 then
    if s.variant = .d8h ∧ (off = offMemil 2 ∨ off = offMemil 3) then 0
    else BitVec.ofNat 64 (fld (s.ctlGet off).toNat 0 3 + s.liveGet off * 2 ^ 32)
  else if 0x44010 ≤ off ∧ off < 0x44030 then s.attM.extractLsb' (8 * (off - 0x44010)) 64
  else if 0x44030 ≤ off ∧ off < 0x44050 then 0
  else if 0x45000 ≤ off ∧ off < 0x46000 then BitVec.ofNat 64 (natAt s.attBuf (off - 0x45000) 8)
  else if 0x80000 ≤ off ∧ off < 0xC0000 then partRead s ((off - 0x80000) / 0x10000) (off % 0x10000)
  else s.ctlGet off

/-! ## Messages and queues -/

/-- Something leaves the package. -/
def State.send (s : State) (o : Output) : State := { s with out := s.out ++ [o] }

/-- The pending-bit array (log 104). -/
def offPba : Nat := offMsix + 0x200

/-- A vector is masked in the MSI-X table (log 104). -/
def State.msixMasked (s : State) (v : Nat) : Bool := s.ctlFld (offMsix + 16 * v + 8) 32 1 == 1

/-- The message of a vector, as its entry of the table gives it. -/
def State.msixOut (s : State) (v : Nat) : Output :=
  .msix v (s.ctlGet (offMsix + 16 * v)) ((s.ctlGet (offMsix + 16 * v + 8)).extractLsb' 0 32)

/-- Raises an MSI-X vector (R359): a message, or, while the vector is masked, its pending bit (R350). -/
def State.msix (s : State) (v : Nat) : State := if s.msixMasked v then s.ctlSetFld offPba v 1 1 else s.send (s.msixOut v)

/-- A vector whose mask has been cleared sends its pending message. -/
def State.msixFree (s : State) (v : Nat) : State :=
  if s.ctlFld offPba v 1 = 1 ∧ !s.msixMasked v then (s.ctlSetFld offPba v 1 0).send (s.msixOut v) else s

/-- An entry of the agenda put at its end. -/
def State.sched (s : State) (clk : Clk) (due : Nat) (ev : Input) : State :=
  { s with agenda := s.agenda ++ [⟨clk, due, ev⟩] }

def State.schedI (s : State) (clk : Clk) (due : Nat) (i : Instr) : State := s.sched clk due (.instr i)

end Sys2Proof.Machine
end

