-- ==== Sys2Proof/Machine/Flags.lean ====
section
/-!
DEFINITION. Flag computations: the sticky bits of VSTAT, MSTAT and CPSTAT (Table 7.6, R217), and compare conditions.
-/
namespace Sys2Proof.Machine

/-! Bits of VSTAT (Table 7.6). -/

def vsNV : Nat := 1
def vsDZ : Nat := 2
def vsOF : Nat := 4
def vsUF : Nat := 8
def vsNX : Nat := 16
def vsDESCBAD : Nat := 32
def vsPIVOT : Nat := 64

/-! Bits of MSTAT (Table 7.6). -/

def msMNAN : Nat := 1
def msDESCBAD : Nat := 2
def msXHIGH : Nat := 4
def msXOVF : Nat := 8
def msRESIDUE : Nat := 16

/-! Bits of CPSTAT (Table 7.6). -/

def csLATE : Nat := 1
def csREVD : Nat := 2
def csZERO : Nat := 4

/-- The bits OF, UF and NX of a rounding (R217). -/
def RFlags.bits (f : RFlags) : Nat :=
  (if f.of then vsOF else 0) + (if f.uf then vsUF else 0) + (if f.nx then vsNX else 0)

/-- Sticky flags joined. -/
def orNat (a b : Nat) : Nat := a ||| b

end Sys2Proof.Machine

namespace Sys2Proof

/-- The condition of CMP (R168). -/
def ScalarCc.holds (cc : ScalarCc) (a b : Word) : Bool :=
  match cc with
  | .eq => a == b
  | .ne => a != b
  | .lt => a.slt b
  | .le => a.sle b
  | .gt => b.slt a
  | .ge => b.sle a
  | .ltn => a.ult b
  | .len => a.ule b

end Sys2Proof

namespace Sys2Proof.Machine

/-- The condition of VCMP on FP32 elements (R227). -/
def VecCc.holdsF (cc : VecCc) (a b : Num) : Bool :=
  let un := a.isNan || b.isNan
  match cc with
  | .eq => a.eqv b
  | .ne => !a.eqv b
  | .lt => a.lt b
  | .le => a.lt b || a.eqv b
  | .gt => b.lt a
  | .ge => b.lt a || a.eqv b
  | .un => un
  | .ord => !un

/-- The condition of VCMP on integer elements (R227). -/
def VecCc.holdsI (cc : VecCc) (a b : Int) : Bool :=
  match cc with
  | .eq => a == b
  | .ne => a != b
  | .lt => decide (a < b)
  | .le => decide (a ≤ b)
  | .gt => decide (b < a)
  | .ge => decide (b ≤ a)
  | .un => false
  | .ord => true

end Sys2Proof.Machine
end

