-- ==== Sys2Proof/Machine/Scalar.lean ====
section
/-!
DEFINITION. The scalar and system words that transfer no control (09, R162 to R171, R180 to R183).
-/
namespace Sys2Proof.Machine

/-! ## Arithmetic and logic (Table 9.1) -/

/-- A scalar word with two register sources and one result at `off`. -/
def State.alu (s : State) (p : BitVec 3) (d a b : BitVec 5) (off : Nat) (f : Word → Word → Word) : Out :=
  .next (s.slotOp p [a, b] fun s => s.emitS off d (f (s.rdS a) (s.rdS b)))

/-- A scalar word with one register source and an immediate, with its result at +1. -/
def State.aluI (s : State) (p : BitVec 3) (d a : BitVec 5) (i : Word) (f : Word → Word → Word) : Out :=
  .next (s.slotOp p [a] fun s => s.emitS 1 d (f (s.rdS a) i))

/-- SHL: 0 for amounts of 64 or more. -/
def shlW (a b : Word) : Word := if b.toNat ≥ 64 then 0 else a <<< b.toNat

/-- SHR: 0 for amounts of 64 or more. -/
def shrW (a b : Word) : Word := if b.toNat ≥ 64 then 0 else a >>> b.toNat

/-- SAR: copies of bit 63 for amounts of 64 or more. -/
def sarW (a b : Word) : Word := if b.toNat ≥ 64 then (if a.msb then BitVec.allOnes 64 else 0) else a.sshiftRight b.toNat

/-- Bits [127:64] of the signed product. -/
def mulhW (a b : Word) : Word := BitVec.ofInt 64 (a.toInt * b.toInt / 2 ^ 64)

/-- Bits [127:64] of the unsigned product. -/
def mulhnW (a b : Word) : Word := BitVec.ofNat 64 (a.toNat * b.toNat / 2 ^ 64)

/-- DIV (R164): toward zero; -1 for a divisor of 0; -2^63 by -1 gives -2^63. -/
def divW (a b : Word) : Word := if b = 0 then BitVec.allOnes 64 else BitVec.ofInt 64 (a.toInt.tdiv b.toInt)

/-- DIVN (R164). -/
def divnW (a b : Word) : Word := if b = 0 then BitVec.allOnes 64 else a / b

/-- REM (R164): the sign of the dividend; a for a divisor of 0. -/
def remW (a b : Word) : Word := if b = 0 then a else BitVec.ofInt 64 (a.toInt.tmod b.toInt)

/-- REMN (R164). -/
def remnW (a b : Word) : Word := if b = 0 then a else a % b

def execAdd (p : BitVec 3) (d a b : BitVec 5) (s : State) : Out := s.alu p d a b 1 (· + ·)
def execSub (p : BitVec 3) (d a b : BitVec 5) (s : State) : Out := s.alu p d a b 1 (· - ·)
def execAnd (p : BitVec 3) (d a b : BitVec 5) (s : State) : Out := s.alu p d a b 1 (· &&& ·)
def execOr (p : BitVec 3) (d a b : BitVec 5) (s : State) : Out := s.alu p d a b 1 (· ||| ·)
def execXor (p : BitVec 3) (d a b : BitVec 5) (s : State) : Out := s.alu p d a b 1 (· ^^^ ·)
def execShl (p : BitVec 3) (d a b : BitVec 5) (s : State) : Out := s.alu p d a b 1 shlW
def execShr (p : BitVec 3) (d a b : BitVec 5) (s : State) : Out := s.alu p d a b 1 shrW
def execSar (p : BitVec 3) (d a b : BitVec 5) (s : State) : Out := s.alu p d a b 1 sarW
def execMul (p : BitVec 3) (d a b : BitVec 5) (s : State) : Out := s.alu p d a b 3 (· * ·)
def execMulh (p : BitVec 3) (d a b : BitVec 5) (s : State) : Out := s.alu p d a b 3 mulhW
def execMulhn (p : BitVec 3) (d a b : BitVec 5) (s : State) : Out := s.alu p d a b 3 mulhnW
def execDiv (p : BitVec 3) (d a b : BitVec 5) (s : State) : Out := s.alu p d a b 20 divW
def execDivn (p : BitVec 3) (d a b : BitVec 5) (s : State) : Out := s.alu p d a b 20 divnW
def execRem (p : BitVec 3) (d a b : BitVec 5) (s : State) : Out := s.alu p d a b 20 remW
def execRemn (p : BitVec 3) (d a b : BitVec 5) (s : State) : Out := s.alu p d a b 20 remnW

/-- The smaller, signed. -/
def minW (a b : Word) : Word := if a.sle b then a else b

/-- The larger, signed. -/
def maxW (a b : Word) : Word := if a.sle b then b else a

/-- The smaller, unsigned. -/
def minnW (a b : Word) : Word := if a.ule b then a else b

/-- The larger, unsigned. -/
def maxnW (a b : Word) : Word := if a.ule b then b else a

def execMin (p : BitVec 3) (d a b : BitVec 5) (s : State) : Out := s.alu p d a b 1 minW
def execMax (p : BitVec 3) (d a b : BitVec 5) (s : State) : Out := s.alu p d a b 1 maxW
def execMinn (p : BitVec 3) (d a b : BitVec 5) (s : State) : Out := s.alu p d a b 1 minnW
def execMaxn (p : BitVec 3) (d a b : BitVec 5) (s : State) : Out := s.alu p d a b 1 maxnW

/-- Zero bits above the highest one bit; 64 for 0 (R165). -/
def clzW (a : Word) : Word := if a = 0 then 64 else BitVec.ofNat 64 (63 - log2 a.toNat)

/-- The number of one bits among the low n of a number. -/
def popc : Nat → Nat → Nat
  | 0, _ => 0
  | n + 1, x => x % 2 + popc n (x / 2)

def execClz (p : BitVec 3) (d a : BitVec 5) (s : State) : Out :=
  .next (s.slotOp p [a] fun s => s.emitS 1 d (clzW (s.rdS a)))

def execPopc (p : BitVec 3) (d a : BitVec 5) (s : State) : Out :=
  .next (s.slotOp p [a] fun s => s.emitS 1 d (BitVec.ofNat 64 (popc 64 (s.rdS a).toNat)))

def execMov (p : BitVec 3) (d a : BitVec 5) (s : State) : Out :=
  .next (s.slotOp p [a] fun s => s.emitS 1 d (s.rdS a))

/-- MOV bd, sa (R166): bits [19:0]. -/
def execMovToB (p : BitVec 3) (d : BitVec 3) (a : BitVec 5) (s : State) : Out :=
  .next (s.holderOp fun s => s.slotOp p [a] fun s => s.emit 1 (.wB d ((s.rdS a).setWidth 20)))

/-- MOV sd, ba (R166): zero-extended. -/
def execMovFromB (p : BitVec 3) (d : BitVec 5) (a : BitVec 3) (s : State) : Out :=
  .next (s.holderOp fun s => s.slotOp p [] fun s => s.emitS 1 d ((s.me.rdB a).zeroExtend 64))

def execCmp (p q : BitVec 3) (a b : BitVec 5) (cc : ScalarCc) (s : State) : Out :=
  .next (s.slotOp p [a, b] fun s => s.emit 1 (.wQ s.cur.ctx q (cc.holds (s.rdS a) (s.rdS b))))

def execSel (p : BitVec 3) (d a b : BitVec 5) (q : BitVec 3) (s : State) : Out :=
  .next (s.slotOp p [a, b] fun s => s.emitS 1 d (if s.rdQ q then s.rdS a else s.rdS b))

/-- BFX (R165): `n` holds len - 1. -/
def execBfx (p : BitVec 3) (d a : BitVec 5) (n pos : BitVec 6) (s : State) : Out :=
  .next (s.slotOp p [a] fun s =>
    if pos.toNat + (n.toNat + 1) > 64 then s.immval
    else s.emitS 1 d (BitVec.ofNat 64 (fld (s.rdS a).toNat pos.toNat (n.toNat + 1))))

/-- The bits [pos + len - 1 : pos] of x replaced with the low len bits of a. -/
def insertField (x a : Word) (pos len : Nat) : Word := setFld x pos len a.toNat

def execBfi (p : BitVec 3) (d a : BitVec 5) (n pos : BitVec 6) (s : State) : Out :=
  .next (s.slotOp p [a, d] fun s =>
    if pos.toNat + (n.toNat + 1) > 64 then s.immval
    else s.emitS 1 d (insertField (s.rdS d) (s.rdS a) pos.toNat (n.toNat + 1)))

/-- A predicate operation (R169). -/
def State.predOp (s : State) (p d : BitVec 3) (f : State → Bool) : Out :=
  .next (s.slotOp p [] fun s => s.emit 1 (.wQ s.cur.ctx d (f s)))

def execPand (p d a b : BitVec 3) (s : State) : Out := s.predOp p d fun s => s.rdQ a && s.rdQ b
def execPor (p d a b : BitVec 3) (s : State) : Out := s.predOp p d fun s => s.rdQ a || s.rdQ b
def execPxor (p d a b : BitVec 3) (s : State) : Out := s.predOp p d fun s => s.rdQ a != s.rdQ b
def execPnot (p d a : BitVec 3) (s : State) : Out := s.predOp p d fun s => !s.rdQ a

def execAddi (p : BitVec 3) (e : Ext) (d a : BitVec 5) (i : BitVec 12) (s : State) : Out :=
  s.aluI p d a (immWord i e) (· + ·)
def execAndi (p : BitVec 3) (e : Ext) (d a : BitVec 5) (i : BitVec 12) (s : State) : Out :=
  s.aluI p d a (immWord i e) (· &&& ·)
def execOri (p : BitVec 3) (e : Ext) (d a : BitVec 5) (i : BitVec 12) (s : State) : Out :=
  s.aluI p d a (immWord i e) (· ||| ·)
def execXori (p : BitVec 3) (e : Ext) (d a : BitVec 5) (i : BitVec 12) (s : State) : Out :=
  s.aluI p d a (immWord i e) (· ^^^ ·)
def execShli (p : BitVec 3) (d a : BitVec 5) (n : BitVec 6) (s : State) : Out :=
  s.aluI p d a (n.zeroExtend 64) shlW
def execShri (p : BitVec 3) (d a : BitVec 5) (n : BitVec 6) (s : State) : Out :=
  s.aluI p d a (n.zeroExtend 64) shrW
def execSari (p : BitVec 3) (d a : BitVec 5) (n : BitVec 6) (s : State) : Out :=
  s.aluI p d a (n.zeroExtend 64) sarW

def execLi (p : BitVec 3) (e : Ext) (d : BitVec 5) (i : BitVec 17) (s : State) : Out :=
  .next (s.slotOp p [] fun s => s.emitS 1 d (immWord i e))

def execLih (p : BitVec 3) (d : BitVec 5) (i : BitVec 16) (s : State) : Out :=
  .next (s.slotOp p [d] fun s => s.emitS 1 d ((s.rdS d <<< 16) ||| i.zeroExtend 64))

/-! ## Special registers (R115, R170) -/

/-- Holder registers of Table 7.5. -/
def holderSr (n : Nat) : Bool := n == 9 || n == 10 || n == 11 || n == 13 || (0x50 ≤ n && n < 0x60)

/-- Numbers of Table 7.5. -/
def srKnown (n : Nat) : Bool :=
  n < 0x47 || (0x50 ≤ n && n < 0x60) || (0x80 ≤ n && n < 0x88) || (0x90 ≤ n && n < 0x94) || n == 0xA0 || n == 0xA1

/-- The registers that SETSR may write. -/
def srWritable (n : Nat) : Bool :=
  (7 ≤ n && n ≤ 13) || (0x50 ≤ n && n < 0x60) || n == 0xA0 || n == 0xA1

/-- CAPS (Table 7.6). -/
def capsVal (s : State) : Word :=
  BitVec.ofNat 64 (s.ncores + 2 ^ 9 * (4 * s.ndies) + 2 ^ 13 * s.ndies + 2 ^ 15 * s.gramer + 2 ^ 21 * s.cxl
    + 2 ^ 24 * 4 + 2 ^ 27)

/-- The run of a number. -/
def State.run? (s : State) (id : Nat) : Option Run := s.runs.find? fun r => r.id == id

/-- SEED of a launch record (Table 16.3). -/
def Run.seed (r : Run) : Word := BitVec.ofNat 64 (leNat ((r.rec_.drop 0x40).take 8))

/-- LPCTL as read (Table 7.6): CTXB reads 0 outside the holder. -/
def lpctlVal (s : State) : Word :=
  let x := s.myCtx
  BitVec.ofNat 64 (x.count.toNat + 2 ^ 32 * x.nrot.toNat + (if s.isHolder then 2 ^ 36 * x.ctxb.toNat else 0))

/-- Bit k is 1 when spill slot k of the context is live (R113). -/
def spmapVal (x : Ctx) : Word :=
  BitVec.ofNat 64 ((List.range 64).foldl (fun n k => n + if spGet 0xFFFF x.spill k = 0xFFFF then 0 else 2 ^ k) 0)

/-- TREC0 to TREC7. -/
def TrapRec.reg (r : TrapRec) : Nat → Word
  | 0 => r.t0 | 1 => r.t1 | 2 => r.t2 | 3 => r.t3 | 4 => r.t4 | 5 => r.t5 | 6 => r.t6 | _ => r.t7

/-- RQID of a context that is not the holder: NODE and STEP of its run, its own rank. -/
def rqidVal (s : State) : Word :=
  if s.isHolder then
    let q := s.me.rq
    BitVec.ofNat 64 (q.node.toNat + 2 ^ 16 * q.step.toNat + 2 ^ 48 * q.rank.toNat)
  else
    let node := match s.panelOn s.cur.core with | some p => if s.isFw then 0 else p.node | none => 0
    let step := match s.run? s.myCtx.run with | some r => r.step | none => 0
    BitVec.ofNat 64 (node % 2 ^ 16 + 2 ^ 16 * (step % 2 ^ 32) + 2 ^ 48 * (s.myCtx.rank % 2 ^ 16))

/-- What GETSR reads (Tables 7.5 and 7.6), for a number of the table. -/
def srRead (s : State) (n : Nat) : Word :=
  let x := s.myCtx
  let c := s.me
  let pan := if s.isFw then none else s.panelOn s.cur.core
  let nat := BitVec.ofNat 64
  if n = 0 then nat s.scyc
  else if n = 1 then nat (match pan with | some p => p.pcyc | none => 0)
  else if n = 2 then nat (match pan with | some p => p.stage % 256 | none => 0)
  else if n = 3 then capsVal s
  else if n = 4 then
    nat (s.cur.ctx % 4 + 4 * (s.cur.core % 256) + 2 ^ 10 * (x.tenant % 16) + 2 ^ 14 * s.isHolder.toNat
      + 2 ^ 15 * s.isFw.toNat)
  else if n = 5 then nat (x.rank % 2 ^ 16 + 2 ^ 16 * (x.psize % 2 ^ 16))
  else if n = 6 then nat (match pan with | some p => p.phbias % 128 | none => 0)
  else if n = 7 then x.stride
  else if n = 8 then lpctlVal s
  else if n = 9 then c.mctl
  else if n = 10 then c.mstat
  else if n = 11 then c.vstat
  else if n = 12 then c.cpstat
  else if n = 13 then c.spcfg
  else if n = 14 then spmapVal x
  else if n = 15 then (if s.isHolder then c.rq.pos.zeroExtend 64 else 0)
  else if n < 0x20 then
    (match s.run? x.run with | some r => nth 0 r.k (n - 0x10) | none => 0)
  else if n < 0x40 then spGet 0 s.linklat (n - 0x20)
  else if n = 0x40 then nat (s.ctlFld offSyncctl 2 6 + 64 * s.ctlFld offSyncctl 8 7)
  else if n < 0x45 then spGet 0 c.ovtag (n - 0x41)
  else if n = 0x45 then
    (if s.isHolder then c.rq.seed else match s.run? x.run with | some r => r.seed | none => 0)
  else if n = 0x46 then rqidVal s
  else if n < 0x60 then c.tcReg (n - 0x50)
  else if n < 0x88 then x.trec.reg (n - 0x80)
  else if n = 0x90 then setFld (spGet 0 s.drift 0) 38 1 (s.ctlFld offSyncctl 1 1)
  else if n < 0x94 then spGet 0 s.drift (n - 0x90)
  else if n = 0xA0 then x.ctlAddr
  else s.ctlRead (x.ctlAddr.toNat / 8 * 8)

/-- GETSR (R170, R115): SRNUM, HOLDER and PRIV. -/
def execGetsr (p : BitVec 3) (d : BitVec 5) (n : BitVec 10) (s : State) : Out :=
  let k := n.toNat
  .next (if holderSr k && !s.isHolder then s.trap (.illegal 10 0)
    else s.slotOp p [] fun s =>
      if !srKnown k then s.trap (.illegal 13 0)
      else if (k == 0xA0 || k == 0xA1) && !s.isFw then s.trap .priv
      else s.emitS 1 d (srRead s k))

/-- A live spill cell in the core (R113). -/
def CoreSt.anyCell (c : CoreSt) : Bool :=
  (List.range 4).any fun k => (c.ctx k).spill.any fun e => e.2 != 0xFFFF

/-- A live spill cell in accumulator n (R113). -/
def CoreSt.accSpilled (c : CoreSt) (n : Nat) : Bool :=
  (List.range 4).any fun k => (c.ctx k).spill.any fun e =>
    e.2 != 0xFFFF && !e.2.getLsbD 15 && e.2.toNat / 512 % 64 / 16 == n

/-- The value a special register refuses, as its ILLEGAL cause (Table 7.6, R106, R113). -/
def srRefuse (s : State) (n : Nat) (v : Word) : Option Nat :=
  if n = 8 ∧ fld v.toNat 32 4 > 8 then some 15
  else if n = 9 ∧ fld v.toNat 0 3 > 4 then some 15
  else if n = 13 ∧ s.me.anyCell then some 18
  else if 0x50 ≤ n ∧ n < 0x60 ∧ !tcOk v then some 16
  else none

/-- The context's next bundle issues no earlier than n cycles on (R351, log 15). -/
def State.issueAfter (s : State) (n : Nat) : State := { s with cur := { s.cur with cycles := max n s.cur.cycles } }

/-- SETSR (R170, R115): takes effect at issue + 1; RW1C registers clear the bits written 1. A write through CTLDATA holds issue until the
port die has performed it and what it starts (R351). -/
def execSetsr (p : BitVec 3) (a : BitVec 5) (n : BitVec 10) (s : State) : Out :=
  let k := n.toNat
  .next (if holderSr k && !s.isHolder then s.trap (.illegal 10 0)
    else s.slotOp p [a] fun s =>
      if !srKnown k then s.trap (.illegal 13 0)
      else if !srWritable k then s.trap (.illegal 14 0)
      else if (k == 0xA0 || k == 0xA1) && !s.isFw then s.trap .priv
      else match srRefuse s k (s.rdS a) with
        | some c => s.trap (.illegal c 0)
        | none =>
          if k = 10 ∨ k = 11 ∨ k = 12 then s.emit 1 (.wClear k (s.rdS a))
          else if k = 0xA1 then (s.emit 1 (.wSr s.cur.ctx k (s.rdS a))).issueAfter 2
          else s.emit 1 (.wSr s.cur.ctx k (s.rdS a)))

/-! ## Spill and fill (R113, R171) -/

/-- The cells of an SPCFG group, in element order. -/
def groupCell (g i : Nat) : BitVec 16 := BitVec.ofNat 16 (g * 512 + i)

/-- The cells of a context's bank. -/
def bankCell (ctx r : Nat) : BitVec 16 := BitVec.ofNat 16 (2 ^ 15 + 32 * ctx + r)

/-- The value in a cell. -/
def CoreSt.cellGet (c : CoreSt) (x : BitVec 16) : Word :=
  let n := x.toNat
  if x.getLsbD 15 then spGet 0 (c.ctx (n / 32 % 4)).s (n % 32)
  else
    let e := (c.accum (n / 512 / 16)).elem (n % 512 / 8) (4 * (n / 512 % 16) + n % 8 / 2)
    e.v.extractLsb' (64 * (n % 2)) 64

/-- A cell written: a half of the value word of an accumulator element, or a register of a bank. -/
def CoreSt.cellSet (c : CoreSt) (x : BitVec 16) (v : Word) : CoreSt :=
  let n := x.toNat
  if x.getLsbD 15 then c.updCtx (n / 32 % 4) fun y => { y with s := spPut 0 y.s (n % 32) v }
  else
    let k := 64 * (n % 512 / 8) + (4 * (n / 512 % 16) + n % 8 / 2)
    let a := c.accum (n / 512 / 16)
    let e := spGet Xa.zero a.el k
    let w := if n % 2 = 0 then (e.v.extractLsb' 64 64) ++ v else v ++ (e.v.extractLsb' 0 64)
    c.setAcc (n / 512 / 16) { a with el := spPut Xa.zero a.el k { e with v := w } }

/-- The spill writes still due on a core: context, slot and cell. -/
def spillsDue (c : Nat) (l : List Pend) : List (Nat × Nat × BitVec 16) :=
  l.filterMap fun x => if x.own.core = c then
    (match x.act with | .wSpill k i cell _ => some (k, i, cell) | _ => none) else none

/-- Cells in use on a core: live ones and those of spills still due. -/
def cellsUsed (s : State) : List (BitVec 16) :=
  ((List.range 4).flatMap fun k => (s.me.ctx k).spill.map (·.2))
    ++ (spillsDue s.cur.core (s.pend ++ s.cur.out)).map fun x => x.2.2

/-- The first free cell of a sequence of n cells. -/
def freeCell (used : List (BitVec 16)) (f : Nat → BitVec 16) (n : Nat) : Option (BitVec 16) :=
  ((List.range n).find? fun i => !used.contains (f i)).map f

/-- Context k of the core in hand holds a strand (R285). -/
def State.strandIn (s : State) (k : Nat) : Bool := (s.me.ctx k).st != .idle && (s.me.ctx k).st != .ended

/-- The next free cell of the spill region (R113): the lowest set SPCFG group first, then the reserved banks whose context holds no
strand (R285). -/
def State.nextCell (s : State) : Option (BitVec 16) :=
  if s.me.panel.isNone then none
  else
    let used := cellsUsed s
    let grp := (List.range 64).findSome? fun g =>
      if bt s.me.spcfg.toNat g then freeCell used (groupCell g) 512 else none
    match grp with
    | some c => some c
    | none => (List.range 3).findSome? fun i =>
        if (s.me.ctx 0).ctxb.getLsbD i && !s.strandIn (i + 1) then freeCell used (bankCell (i + 1)) 32 else none

/-- The cell that a spill slot has or gets. -/
def State.slotCell (s : State) (k : Nat) : Option (BitVec 16) :=
  let c := spGet 0xFFFF s.myCtx.spill k
  if c ≠ 0xFFFF then some c
  else match (spillsDue s.cur.core (s.pend ++ s.cur.out)).find? fun x => x.1 == s.cur.ctx && x.2.1 == k with
    | some x => some x.2.2
    | none => s.nextCell

def execSpill (p : BitVec 3) (a : BitVec 5) (k : BitVec 6) (s : State) : Out :=
  .next (s.slotOp p [a] fun s =>
    match s.slotCell k.toNat with
    | none => s.trap (.illegal 17 0)
    | some c => s.emit 6 (.wSpill s.cur.ctx k.toNat c (s.rdS a)))

def execFill (p : BitVec 3) (d : BitVec 5) (k : BitVec 6) (s : State) : Out :=
  .next (s.slotOp p [] fun s =>
    let c := spGet 0xFFFF s.myCtx.spill k.toNat
    if c = 0xFFFF then s.trap (.illegal 17 0) else s.emitS 6 d (s.me.cellGet c))

/-! ## FENCE, DRIFT, idle bundles -/

/-- A Gramer port's link: UP, LAT and PEER (Table 7.6). -/
def State.portUp (s : State) (i : Nat) : Bool := bt (spGet 0 s.linklat i).toNat 16

def State.portLat (s : State) (i : Nat) : Nat := fld (spGet 0 s.linklat i).toNat 0 16

def State.portPeer (s : State) (i : Nat) : Nat := fld (spGet 0 s.linklat i).toNat 24 6

/-- The package's index in the hedge. -/
def State.hid (s : State) : Nat := s.ctlFld offSyncctl 2 6

/-- The trained ports of this package that join it to the other packages of a panel, up or down: LAT stays (R177, R331). -/
def State.joinPorts (s : State) (p : Panel) : List Nat :=
  (List.range s.gramer).filter fun i => s.portLat i != 0 && s.portPeer i != p.here && p.ranks.any fun r => r.pkg == s.portPeer i

/-- The largest LAT of some ports, or 0. -/
def State.maxLat (s : State) (l : List Nat) : Nat := l.foldl (fun m i => max m (s.portLat i)) 0

/-- The largest LAT of the ports that join two other packages of some (R177, R203); with `up`, of those that are up. -/
def State.farMax (s : State) (pkgs : List Nat) (up : Bool) : Nat :=
  s.farLat.foldl (fun m e => if pkgs.contains (e.1 / 64) && pkgs.contains (e.1 % 64) && (!up || e.2.2) then max m e.2.1 else m) 0

/-- The largest LAT over the ports that join the packages of a panel, up or down (R177, R293). -/
def State.panelLat (s : State) (p : Panel) : Nat := max (s.maxLat (s.joinPorts p)) (s.farMax (p.ranks.map (·.pkg)) false)

/-- The LINKLAT of a HEDGE fence, over the ports that are up (R180). -/
def State.fenceLat (s : State) : Nat :=
  if s.isHolder then match s.panelOn s.cur.core with
    | some p => max (s.maxLat ((s.joinPorts p).filter s.portUp)) (s.farMax (p.ranks.map (·.pkg)) true)
    | none => 0
  else s.maxLat ((List.range s.gramer).filter s.portUp)

/-- The offset of a fence's status cycle (Table 7.7). -/
def fenceOff (lat : Nat) : Scope → Nat
  | .strand => 1 | .core => 2 | .panel => 8 | .die => 24 | .package => 48 | .hedge => 48 + 2 * lat
  | .host => 2048 | .system => 4096

/-- FENCE (R180, R181): a status word at its status cycle; outside the holder, a fence of PANEL scope or wider first waits for
its covered writes. -/
def execFence (d : BitVec 5) (sc : Scope) (s : State) : Out :=
  .next (if s.isHolder || decide (sc.code < 2) then s.emit (fenceOff s.fenceLat sc) (.fenceSt s.cur.ctx d sc.code)
    else { s with cur := { s.cur with wait := .fence sc.code d s.cur.t } })

/-- E of DRIFT0. -/
def driftE (s : State) : BitVec 32 := (spGet 0 s.drift 0).extractLsb' 0 32

/-- DRIFT (R183, R320): moves the trim by at most the step limit; 0 on the root, without a reference, and with no link up. -/
def execDrift (d a : BitVec 5) (s : State) : Out :=
  let s := s.useS [a]
  .next (if s.gramer = 0 then s.trap (.illegal 11 0)
    else if !s.isFw then s.trap .priv
    else
      let d0 := (spGet 0 s.drift 0).toNat
      let anyUp := (List.range s.gramer).any s.portUp
      if !anyUp || !bt d0 37 || s.ctlFld offSyncctl 1 1 == 1 then s.emitS 1 d 0
      else
        let e := (driftE s).toInt
        let lim : Int := fld (s.rdS a).toNat 0 16
        (s.emitS 1 d (word e)).emit 1 (.drift (clamp (-lim) lim (-(e.tdiv 16)))))

/-- An idle bundle (R123): nothing issues for `n` + 1 cycles. -/
def execIdle (n : BitVec 8) (s : State) : Out :=
  .next { s with cur := { s.cur with cycles := n.toNat + 1 } }

end Sys2Proof.Machine
end

