-- ==== Sys2Proof/Machine/Translate.lean ====
section
/-!
DEFINITION. Main-memory bytes, page tables, spans and revocation (03 R36, R44; 04).
-/
namespace Sys2Proof.Machine

/-! ## HBM4E and the second tier as bytes -/

/-- The stacks of partition j with NQ quarters are 2j to 2j + 2 NQ - 1 (R352); hbm_place (R36). -/
def hbmPlace (j nq a : Nat) : BankId × Nat × Nat × Nat :=
  let u := (a - 0x1800000000 * j) / 128
  let n := 96 * (2 * nq)
  let p := u % n
  let l := u / n
  (⟨2 * j + p / 96, p % 96, l % 32⟩, l / 256, l / 32 % 8, a / 64 % 2)

/-- The place of an HBM4E address under the live partitions. -/
def State.placeOf (s : State) (a : Nat) : BankId × Nat × Nat × Nat :=
  match s.partOfAddr a with
  | some j => hbmPlace j (s.partNq j) a
  | none => hbmPlace 0 4 a

/-- The latest event that left an address undefined, if any (R355, R48). -/
def State.undefAt (s : State) (a : Nat) : Option Nat :=
  (s.hbmUndef.find? fun u => decide (u.lo ≤ a) && decide (a < u.hi)
    && (match u.bank with | none => true | some b => (s.placeOf a).1 == b)).map (·.epoch)

/-- A byte of HBM4E. -/
def State.hbmByte (s : State) (a : Nat) : Byte :=
  match spGet none s.hbm a with
  | some b => b
  | none => match s.undefAt a with | some n => Config.freeByte n a | none => 0

/-- The poison tag of the line of an HBM4E address. -/
def State.hbmTag (s : State) (a : Nat) : Bool :=
  match spGet none s.hbmPoison (a / 64) with
  | some b => b
  | none => match s.undefAt a with | some n => Config.freeTag n (a / 64) | none => false

/-- A byte of HBM4E written. A byte equal to what an unlisted address reads as is not listed. -/
def State.hbmSet (s : State) (a : Nat) (b : Byte) : State :=
  { s with hbm := spPut none s.hbm a (if (s.undefAt a).isNone && b == 0 then none else some b) }

def State.hbmSetTag (s : State) (a : Nat) (t : Bool) : State :=
  { s with hbmPoison := spPut none s.hbmPoison (a / 64) (if (s.undefAt a).isNone && !t then none else some t) }

/-- Bytes of HBM4E. -/
def State.hbmBytes (s : State) (a n : Nat) : List Byte := (List.range n).map fun i => s.hbmByte (a + i)

/-- Bytes of HBM4E written where the mask is true. -/
def State.hbmPut (s : State) : Nat → List Bool → List Byte → State
  | a, k :: ks, b :: bs => (if k then s.hbmSet a b else s).hbmPut (a + 1) ks bs
  | _, _, _ => s

/-- A number of n little-endian bytes in HBM4E. -/
def State.hbmNat (s : State) (a n : Nat) : Nat := leNat (s.hbmBytes a n)

/-- The second-tier window (R35). -/
def secondBase : Nat := 0x100000000000

def secondEnd : Nat := 0x200000000000

/-- The bytes of a line as one number. -/
def lineOf (bs : List Byte) : BitVec 512 := BitVec.ofNat 512 (leNat bs)

/-- The bytes of a line. -/
def lineBytes (l : BitVec 512) : List Byte := natLe 64 l.toNat

/-! ## Page tables (R54, R55, R87, R102, R352, R358) -/

/-- Address spaces: tenant slots 0 to 15, and 16 for the firmware context (R53). -/
def fwSpace : Nat := 16

/-- The space of a context. -/
def State.spaceOf (s : State) (c k : Nat) : Nat := if isFwCtx c k then fwSpace else (s.ctx c k).tenant

/-- The hard partition of a tenant (TENCFG.PART). -/
def State.tenPart (s : State) (t : Nat) : Nat := s.ctlFld (offTencfg t) 11 2

/-- A live copy of a shadowed register. -/
def State.liveWord (s : State) (off : Nat) : Word :=
  match spGet none s.live off with | some w => w | none => ctlReset s.variant off

def State.setLive (s : State) (off : Nat) (w : Word) : State :=
  { s with live := spPut none s.live off (if w = ctlReset s.variant off then none else some w) }

/-- The root register of a space, as XLAT sees it (R61, R380). -/
def State.rootOf (s : State) (space : Nat) : Word :=
  s.liveWord (if space = fwSpace then offTrootf 0 else offTroot (s.tenPart space) space)

/-- A latent-store page of a queue region (R87). -/
def queuePage (page : Nat) : Bool := (12280 ≤ page && page < 12288) || (24568 ≤ page && page < 24576)

/-- SLOTS of RCCFG; larger values read as 8,192. -/
def State.rcSlots (s : State) (j : Nat) : Nat := min 8192 (s.ctlFld (offRccfg j) 0 14)

/-- A page that the reuse-cache registers of partition j name (R98). -/
def State.reusePageIn (s : State) (j die page : Nat) : Bool :=
  let n := s.rcSlots j
  let hp := s.ctlFld (offRchbase j) 0 15
  let dp := s.ctlFld (offRcdbase j) 0 15
  (s.ctlFld (offRchbase j) 15 1 == die && decide (hp ≤ page) && decide (page < hp + (n + 1023) / 1024))
    || (s.ctlFld (offRcdbase j) 15 1 == die && decide (dp ≤ page) && decide (page < dp + (n + 3) / 4))

/-- The quarter of a latent-store page (Table 6.10). -/
def lsQuarter (die page : Nat) : Nat := 2 * die + page / 12288

/-- A quarter belongs to partition j. -/
def State.inPart (s : State) (j q : Nat) : Bool := s.partOf q == some j

/-- A page-table entry counts as V = 1 in a space. -/
def State.pteOk (s : State) (space : Nat) (p : BitVec 128) : Bool :=
  let n := p.toNat
  let frame := fld n 16 32
  let sp := bt n 2
  let tenant := space < fwSpace
  let resv := fld n 5 11 == 0 && fld n 48 16 == 0 && fld n 64 16 == 0 && fld n 112 16 == 0
  let back := fld n 80 32 * 65536
  let die := frame / 2 ^ 15 % 2
  let page := frame % 2 ^ 15
  let j := s.tenPart space
  bt n 0 && resv &&
    (if sp then
      frame / 2 ^ 16 == 0 && decide (die < s.ndies) && decide (page ≤ 24575) &&
        (!tenant || (!queuePage page && !(List.range 4).any (fun j => s.reusePageIn j die page)
          && !(die == 0 && decide (page < 64)) && s.inPart j (lsQuarter die page)))
     else
      decide (frame * 65536 < hbmSize s.variant)
        && (!bt n 4 || (decide (secondBase ≤ back) && decide (back < secondEnd)))
        && (!tenant || (decide ((s.partRange j).1 ≤ frame * 65536)
          && decide (frame * 65536 < (s.partRange j).1 + (s.partRange j).2))))

/-- The next table that a directory entry names, aligned on its size; none where the entry counts as V = 0 (R54). -/
def State.dirNext (s : State) (e size : Nat) : Option Nat :=
  let a := fld e 10 38 * 1024
  if bt e 0 && fld e 1 9 == 0 && fld e 48 16 == 0 && a % size == 0 && decide (a < hbmSize s.variant) then some a
  else none

/-- The leaf block of a group as a walk of memory gives it (R54); an unmapped group gives 64 entries of 0. -/
def State.walkLeaf (s : State) (space group : Nat) : Option Nat :=
  let root := fld (s.rootOf space).toNat 10 38 * 1024
  if root % 65536 ≠ 0 ∨ root ≥ hbmSize s.variant then none
  else
    (s.dirNext (s.hbmNat (root + 8 * (group / 2 ^ 13 % 2 ^ 13)) 8) 65536).bind fun d =>
      s.dirNext (s.hbmNat (d + 8 * (group % 2 ^ 13)) 8) 1024

/-- The 64 entries at a leaf block's address. -/
def State.leafAt (s : State) (a : Option Nat) : List (BitVec 128) :=
  match a with
  | none => List.replicate 64 0
  | some a => (List.range 64).map fun i => BitVec.ofNat 128 (s.hbmNat (a + 16 * i) 16)

/-! ## Spans (R56, R57) -/

def State.spansOf (s : State) (die : Nat) : List SpanEnt := spGet [] s.spans die

def State.setSpans (s : State) (die : Nat) (l : List SpanEnt) : State := { s with spans := spPut [] s.spans die l }

def State.spanFind (s : State) (die space group : Nat) : Option SpanEnt :=
  (s.spansOf die).find? fun e => e.space == space && e.group == group

/-- The revocation epoch of a space. -/
def State.epochOf (s : State) (space : Nat) : Nat := spGet 0 s.epochs space

/-- The entries i to n - 1 of a span taken into a handle; the page count ends at the first that breaks contiguity. -/
def spanLoop (s : State) (space : Nat) (leaf : List (BitVec 128)) (j0 n : Nat) : Nat → Nat → Handle → Handle × Nat
  | 0, i, h => (h, i)
  | k + 1, i, h =>
    if i ≥ n then (h, n)
    else
      let p := nth 0 leaf (j0 + i)
      if s.pteOk space p then
        if bt p.toNat 2 != h.sp || p.extractLsb' 16 32 != h.pbase + BitVec.ofNat 32 i then (h, i)
        else spanLoop s space leaf j0 n k (i + 1)
          { h with
            valid := setBit h.valid i true
            w := h.w && bt p.toNat 1
            res := setBit h.res i (h.sp || bt p.toNat 3) }
      else spanLoop s space leaf j0 n k (i + 1) h

/-- A span formed from a leaf block (the last part of xlat_span, R57). -/
def spanOf (s : State) (space : Nat) (leaf : List (BitVec 128)) (h : Handle) (j0 n : Nat) : Handle :=
  match (List.range n).find? fun i => s.pteOk space (nth 0 leaf (j0 + i)) with
  | none => { h with hst := 3 }
  | some first =>
    let p := nth 0 leaf (j0 + first)
    let h1 := { h with sp := bt p.toNat 2, w := true, pbase := p.extractLsb' 16 32 - BitVec.ofNat 32 first }
    let r := spanLoop s space leaf j0 n 64 first h1
    { r.1 with
      npgm1 := BitVec.ofNat 6 (r.2 - 1)
      gen := BitVec.ofNat 16 (s.epochOf space)
      v := true
      hst := if r.2 = n then 0 else 1 }

/-- xlat_span (R57), for a span cache that holds `leaf` for the group or misses. -/
def xlatSpan (s : State) (space : Nat) (find : Nat → Option (List (BitVec 128))) (va n : Nat) : Handle :=
  let vbase := va / 65536 % 2 ^ 32
  let h := { Handle.zero with ten := BitVec.ofNat 4 (if space = fwSpace then 0 else space), vbase := BitVec.ofNat 32 vbase }
  let j0 := vbase % 64
  if n = 0 ∨ n > 64 ∨ j0 + n > 64 then { h with hst := 4 }
  else if !bt (s.rootOf space).toNat 0 then { h with hst := 3 }
  else match find (vbase / 64) with
    | none => { h with hst := 2 }
    | some leaf => spanOf s space leaf h j0 n

/-- XLAT's span: the issuing core's die looks in its span cache alone. -/
def State.xlat (s : State) (die space va n : Nat) : Handle :=
  xlatSpan s space (fun g => (s.spanFind die space g).map (·.leaf)) va n

/-- A use of the span cache by XLAT: a hit makes the entry the most recently used; a miss starts a walk (R56). -/
def State.spanUse (s : State) (die space group : Nat) : State :=
  match s.spanFind die space group with
  | some e => s.setSpans die (e :: (s.spansOf die).filter fun x => !(x.space == space && x.group == group))
  | none =>
    if s.walks.any fun w => w.die == die && w.space == space && w.group == group then s
    else { s with walks := s.walks ++ [⟨die, space, group, false⟩] }

/-- The list without its last unpinned entry. -/
def dropLru (l : List SpanEnt) : List SpanEnt :=
  match (l.zipIdx.filter fun x => !x.1.pinned).getLast? with
  | some x => l.eraseIdx x.2
  | none => l

/-- A leaf block entered in a die's span cache of 4,096; one that stands there already is not read again (R56). -/
def State.spanFill (s : State) (die space group : Nat) (pin : Bool) : State :=
  let old := s.spanFind die space group
  let rest := (s.spansOf die).filter fun x => !(x.space == space && x.group == group)
  let leaf := match old with | some e => e.leaf | none => s.leafAt (s.walkLeaf space group)
  let rest := if rest.length ≥ 4096 then dropLru rest else rest
  s.setSpans die (⟨space, group, leaf, pin || (match old with | some e => e.pinned | none => false)⟩ :: rest)

/-! ## Revocation (R61, R62) -/

/-- A handle's span overlaps groups g to g + n - 1 (every group for n = 0). -/
def spanTouches (h : Handle) (g n : Nat) : Bool :=
  let lo := h.vbase.toNat / 64
  let hi := (h.vbase.toNat + h.npgm1.toNat) / 64
  n == 0 || (decide (lo < g + n) && decide (g ≤ hi))

/-- A handle after revocation, when it is covered: V := 0, HST := REVOKED. -/
def revokeHandle (cov pins : Bool) (g n : Nat) (h : Handle) : Handle :=
  if cov && h.v && (if h.pin then pins else spanTouches h g n) then { h with v := false, hst := 5 } else h

/-- A list of keyed handles revoked. -/
def revokeMap (cov : Handle → Bool) (pins : Bool) (g n : Nat) (m : Sparse Handle) : Sparse Handle :=
  m.map fun e => (e.1, revokeHandle (cov e.2) pins g n e.2)

/-- Every handle register, run binding and copy handle revoked that a shoot-down of tenants `ten` and, with `fw`, of the
firmware's space covers; `pins` for the shoot-down of a partition change (R355). A copy that has begun keeps its handles, and a CPY those of
its issue; lines that one which has not begun has read from a scratchpad are dropped with its destination (R62). -/
def State.revokeHandles (s : State) (ten : List Nat) (fw pins : Bool) (g n : Nat) : State :=
  let cov := fun (isFw : Bool) (h : Handle) => if isFw then fw else ten.contains h.ten.toNat
  let core := fun (e : Nat × CoreSt) =>
    (e.1, { e.2 with ctxs := e.2.ctxs.map fun x =>
      (x.1, { x.2 with h := revokeMap (cov (isFwCtx e.1 x.1)) pins g n x.2.h }) })
  let kept := fun (c : CopyRun) => c.begun || c.cpy
  let dst := fun (c : CopyRun) => revokeHandle (cov c.fw c.dH) pins g n c.dH
  let lost := fun (c : CopyRun) => !kept c && c.e.dstk != 0 && (dst c).v != c.dH.v
  { s with
    cores := s.cores.map core
    runs := s.runs.map fun r => { r with bind := revokeMap (cov false) pins g n r.bind }
    copies := s.copies.map fun c =>
      if kept c then c
      else { c with sH := revokeHandle (cov c.fw c.sH) pins g n c.sH, dH := dst c, moved := if lost c then [] else c.moved }
    pend := s.pend.filter fun x => match x.act with
      | .lsLand _ _ _ run => !s.copies.any fun c => c.id == run && lost c
      | _ => true
    pages := s.pages.map fun p =>
      if !p.started && (if p.fw then fw else ten.contains p.tenant)
          && (n == 0 || (decide (g ≤ p.vpage / 64) && decide (p.vpage / 64 < g + n)))
      then { p with revoked := true } else p }

/-- The span-cache entries, epochs and live roots after a shoot-down. -/
def State.revokeTables (s : State) (ten : List Nat) (fw : Bool) (g n : Nat) : State :=
  let hit := fun (sp grp : Nat) => (if sp = fwSpace then fw else ten.contains sp)
    && (n == 0 || (decide (g ≤ grp) && decide (grp < g + n)))
  let s1 := { s with spans := s.spans.map fun (e : Nat × List SpanEnt) => (e.1, e.2.filter fun x => !hit x.space x.group) }
  let s1 := { s1 with spans := s1.spans.filter fun e => e.2 != [] }
  let spaces := ten ++ (if fw then [fwSpace] else [])
  spaces.foldl (fun s sp =>
    let off := if sp = fwSpace then offTrootf 0 else offTroot (s.tenPart sp) sp
    { s with epochs := spPut 0 s.epochs sp (s.epochOf sp + 1) }.setLive off (s.ctlGet off)) s1

/-- A shoot-down at its revoking cycle (R61). -/
def State.revoke (s : State) (ten : List Nat) (fw pins : Bool) (g n : Nat) : State :=
  (s.revokeHandles ten fw pins g n).revokeTables ten fw g n

/-- The tenants of partition j (TENCFG.PART). -/
def State.tenantsOf (s : State) (j : Nat) : List Nat := (List.range 16).filter fun t => s.tenPart t == j

/-- RES set for a page in the span caches and in every live handle of its space (R60). -/
def State.setRes (s : State) (space vpage : Nat) : State :=
  let fixLeaf := fun (e : SpanEnt) =>
    if e.space = space ∧ e.group = vpage / 64 then
      { e with leaf := e.leaf.zipIdx.map fun x => if x.2 = vpage % 64 then x.1 ||| 8#128 else x.1 }
    else e
  let fixH := fun (isFw : Bool) (h : Handle) =>
    let mine := if isFw then space == fwSpace else h.ten.toNat == space
    if mine && h.v && !h.pin && decide (h.vbase.toNat ≤ vpage) && decide (vpage ≤ h.vbase.toNat + h.npgm1.toNat)
    then { h with res := setBit h.res (vpage - h.vbase.toNat) true } else h
  { s with
    spans := s.spans.map fun e => (e.1, e.2.map fixLeaf)
    cores := s.cores.map fun e => (e.1, { e.2 with ctxs := e.2.ctxs.map fun x =>
      (x.1, { x.2 with h := x.2.h.map fun y => (y.1, fixH (isFwCtx e.1 x.1) y.2) }) })
    runs := s.runs.map fun r => { r with bind := r.bind.map fun y => (y.1, fixH false y.2) }
    copies := s.copies.map fun c => if c.begun then c else { c with sH := fixH c.fw c.sH, dH := fixH c.fw c.dH } }

end Sys2Proof.Machine
end

