-- ==== Sys2Proof/Machine/Queue.lean ====
section
/-!
DEFINITION. Slice-resident queues (06, R94 to R97): descriptors and rings as bytes of the latent store, the queue operations,
waiters.
-/
namespace Sys2Proof.Machine

/-- The descriptor's line (R94). -/
def queueDescAt (q : Nat) : LsAddr :=
  let j := q % 1024
  ⟨q / 1024, (12280 + 12288 * (j / 512)) * 65536 + 64 * (j % 512)⟩

/-- The ring's first byte (R94). -/
def queueRingAt (q : Nat) : LsAddr :=
  let j := q % 1024
  ⟨q / 1024, (12284 + j % 512 / 128 + 12288 * (j / 512)) * 65536 + 512 * (j % 128)⟩

/-- The last sixteen queues of each quarter are firmware-only (R94). -/
def queueFwo (q : Nat) : Bool := q % 512 ≥ 496

/-- The descriptor's 512 bits, as they stand, whatever their line's poison tag (log 100). -/
def State.queueDesc (s : State) (q : Nat) : Nat := natAt s.ls (queueDescAt q).key 64

/-- The first 16 bytes of a descriptor written; the reserved bytes are written 0, and the line's poison tag stays (log 99). -/
def State.setQueueDesc (s : State) (q n : Nat) : State :=
  { s with ls := putBytes s.ls (queueDescAt q).key (natLe 64 n) }

/-- INIT = 1, and no reserved bit set (R96). -/
def descInit (n : Nat) : Bool :=
  bt n 0 && fld n 6 10 == 0 && fld n 22 1 == 0 && fld n 30 2 == 0 && fld n 53 11 == 0 && n / 2 ^ 128 == 0

def descCount (n : Nat) : Nat := fld n 23 7

def descWait (n : Nat) : Bool := bt n 52

/-- A field of a descriptor set. -/
def descSet (n lo w v : Nat) : Nat := n - fld n lo w * 2 ^ lo + v % 2 ^ w * 2 ^ lo

/-- The reason for which a queue operation raises QUEUE (R96, R335), for an operation of tenant `ten`, or of the firmware. -/
def queueTrap (s : State) (op : QOp) (q ten : Nat) (fw : Bool) : Option Nat :=
  let n := s.queueDesc q
  let outside := if fw then decide (q / 512 ≥ 2 * s.ndies) else !s.inPart (s.tenPart ten) (q / 512)
  if outside then some 0
  else match op with
    | .init t =>
      if !fw && (t != ten || (descInit n && fld n 1 4 != ten)) then some 2
      else if (bt n 5 || queueFwo q) && !fw then some 3
      else if descWait n then some 4 else none
    | .enq _ | .deq | .try_ _ | .len =>
      if !descInit n then some 1
      else if !fw && fld n 1 4 != ten then some 2
      else if (bt n 5 || queueFwo q) && !fw then some 3 else none

/-- q_take (R95): the entry, and its line's poison tag. -/
def State.queueTake (s : State) (q : Nat) : State × Word × Bool :=
  let n := s.queueDesc q
  let h := fld n 16 6
  let p : LsAddr := ⟨(queueRingAt q).die, (queueRingAt q).byte + 8 * h⟩
  let x := BitVec.ofNat 64 (natAt s.ls p.key 8)
  let n1 := descSet (descSet n 16 6 (h + 1)) 23 7 (descCount n - 1)
  (s.setQueueDesc q (descSet n1 96 32 (fld n 96 32 + 1)), x, s.lsTag p)

/-- A context's number (R94). -/
def ctxName (core ctx : Nat) : Nat := 4 * core + ctx

/-- The oldest waiter removed (R94, R95). -/
def State.popWaiter (s : State) (q : Nat) : State × Nat :=
  let n := s.queueDesc q
  let w := fld n 32 10
  if w = fld n 42 10 then (s.setQueueDesc q (descSet (descSet (descSet n 52 1 0) 32 10 0) 42 10 0), w)
  else (s.setQueueDesc q (descSet n 32 10 (s.ctx (w / 4) (w % 4)).nextWaiter.toNat), w)

/-- A context appended to the waiter list. -/
def State.addWaiter (s : State) (q w : Nat) : State :=
  let n := s.queueDesc q
  if descWait n then
    let t := fld n 42 10
    (s.updCtx (t / 4) (t % 4) fun x => { x with nextWaiter := BitVec.ofNat 10 w }).setQueueDesc q (descSet n 42 10 w)
  else s.setQueueDesc q (descSet (descSet (descSet n 32 10 w) 42 10 w) 52 1 1)

/-- The waiters of a queue, oldest first. -/
def State.waiters (s : State) (q : Nat) : List Nat :=
  let n := s.queueDesc q
  let rec go : Nat → Nat → List Nat
    | 0, _ => []
    | k + 1, w => if w = fld n 42 10 then [w] else w :: go k (s.ctx (w / 4) (w % 4)).nextWaiter.toNat
  if descWait n then go 1024 (fld n 32 10) else []

/-- The waiter list of a queue written anew. -/
def State.setWaiters (s : State) (q : Nat) (l : List Nat) : State :=
  let n := s.queueDesc q
  l.foldl (fun s w => s.addWaiter q w)
    (s.setQueueDesc q (descSet (descSet (descSet n 52 1 0) 32 10 0) 42 10 0))

/-- A context leaves the waiter list of its queue (R96, R347). -/
def State.dropWaiter (s : State) (core ctx : Nat) : State :=
  match (s.ctx core ctx).wait with
  | .qdeq q _ =>
    if (s.waiters q).contains (ctxName core ctx) then
      s.setWaiters q ((s.waiters q).filter (· != ctxName core ctx))
    else s
  | _ => s

/-- What a queue operation returns. -/
inductive QRes where
  | val (x : Word) (poison : Bool)
  | ok
  | full
  | empty
  | block
  deriving DecidableEq, Repr

/-- q_enq (R95): an entry handed to the oldest waiter waits with it for its delivery. -/
def State.queueEnq (s : State) (q : Nat) (x : Word) : State × QRes :=
  let n := s.queueDesc q
  if descCount n ≥ 64 then (s, .full)
  else
    let i := (fld n 16 6 + descCount n) % 64
    let s1 := { s with ls := putBytes s.ls ((queueRingAt q).key + 8 * i) (natLe 8 x.toNat) }
    let s2 := s1.setQueueDesc q (descSet (descSet n 23 7 (descCount n + 1)) 64 32 (fld n 64 32 + 1))
    if descWait n then
      let pw := s2.popWaiter q
      let tk := pw.1.queueTake q
      (tk.1.updCtx (pw.2 / 4) (pw.2 % 4) fun c =>
        match c.wait with
        | .qdeq _ rd => { c with wait := .qgot tk.2.1 rd tk.2.2 }
        | _ => c, .ok)
    else (s2, .ok)

/-- A queue operation of a context, its checks passed (R95). -/
def State.queueOp (s : State) (op : QOp) (q core ctx : Nat) : State × QRes :=
  let n := s.queueDesc q
  match op with
  | .init t => (s.setQueueDesc q (1 + 2 * (t % 16) + (if queueFwo q then 32 else 0)), .ok)
  | .enq x => s.queueEnq q x
  | .deq =>
    if descCount n > 0 then let r := s.queueTake q; (r.1, .val r.2.1 r.2.2)
    else (s.addWaiter q (ctxName core ctx), .block)
  | .try_ _ =>
    if descCount n = 0 then (s, .empty) else let r := s.queueTake q; (r.1, .val r.2.1 r.2.2)
  | .len => (s, .val (BitVec.ofNat 64 (descCount n)) false)

/-- The register writes that a queue operation's result makes (Table 10.1). -/
def queueWrites (op : QOp) (r : QRes) (ctx : Nat) (rd : BitVec 5) : List Act :=
  match op, r with
  | .try_ q, .val x p => [.wS ctx rd x p, .wQ ctx q true]
  | .try_ q, .empty => [.wS ctx rd 0 false, .wQ ctx q false]
  | .enq _, .ok => [.wS ctx rd 0 false]
  | .enq _, .full => [.wS ctx rd 1 false]
  | _, .val x p => [.wS ctx rd x p]
  | _, _ => []

end Sys2Proof.Machine
end

