-- ==== Sys2Proof/Machine/Faults.lean ====
section
/-!
DEFINITION. Report queues (R45, R341), taking a trap (R333 to R337), the failure of a panel and of a run (R336, R307), and detected
hardware faults (R338).
-/
namespace Sys2Proof.Machine

/-! ## Report queues -/

/-- An entry dropped by a full queue: OVFL set, DROPPED raised, saturating (R45). -/
def State.dropped (s : State) (stat : Nat) : State :=
  (s.ctlSetFld stat 9 1 1).ctlSetFld stat 16 16 (min 0xFFFF (s.ctlFld stat 16 16 + 1))

/-- An entry put into the fault-report queue, and the host signalled (R339, R341). -/
def State.frqPush (s : State) (entry : BitVec 128) : State :=
  (if s.frq.length ≥ 256 then s.dropped (offFrq + 0x10) else { s with frq := s.frq ++ [entry] }).msix 17

/-- FAULT_REPORT_ENTRY (R339, R341). -/
def execFaultReportEntry (entry : BitVec 128) (s : State) : Out := .next (s.frqPush entry)

/-- FRQPOP (R340). -/
def execFrqpop (s : State) : Out := .next { s with frq := s.frq.drop 1 }

/-- FAULT_ADDRESS_ENTRY (R45). -/
def execFaultAddressEntry (part : Nat) (entry : BitVec 128) (s : State) : Out :=
  .next ((if (s.faqOf part).length ≥ 256 then s.dropped (offFaq part + 0x10)
    else { s with faq := spPut [] s.faq part (s.faqOf part ++ [entry]) }).msix 16)

/-- FAQPOP (R41). -/
def execFaqpop (part : Nat) (s : State) : Out :=
  .next { s with faq := spPut [] s.faq part ((s.faqOf part).drop 1) }

/-- A fault-report entry (R341) of a partition, found in this cycle. `tenant` is none where no tenant is affected. -/
def State.reportEntry (s : State) (part cls core ctx : Nat) (tenant : Option Nat) (fatal : Bool) (detail pcyc : Nat) : BitVec 128 :=
  BitVec.ofNat 128 (1 + 2 * (cls % 256) + 2 ^ 9 * (core % 256) + 2 ^ 17 * (ctx % 4)
    + 2 ^ 19 * (match tenant with | some t => t % 16 | none => 2 ^ 4) + 2 ^ 24 * fatal.toNat + 2 ^ 25 * (part % 4)
    + 2 ^ 32 * (detail % 2 ^ 32) + 2 ^ 64 * (pcyc % 2 ^ 32) + 2 ^ 96 * (s.scyc % 2 ^ 32))

/-- The entry, written in this cycle. -/
def State.reportAt (s : State) (part cls core ctx : Nat) (tenant : Option Nat) (fatal : Bool) (detail pcyc : Nat) : State :=
  s.schedI .scyc s.scyc (.faultReportEntry (s.reportEntry part cls core ctx tenant fatal detail pcyc))

/-- The entries of a fault that stops every panel of the package: one for each panel and its tenant, or one that names no tenant (R341,
log 120). -/
def State.packageEntries (s : State) (cls : Nat) (fatal : Bool) : List (BitVec 128) :=
  match s.panels.filter fun p => p.st == .running || p.st == .placed with
  | [] => [s.reportEntry 0 cls 0 0 none fatal 0 0]
  | l => l.map fun p => s.reportEntry (s.tenPart p.tenant) cls 0 0 (some p.tenant) true 0 p.pcyc

/-- The entry of the affected tenant's partition, or of the one that holds the core. -/
def State.report (s : State) (cls core ctx : Nat) (tenant : Option Nat) (fatal : Bool) (detail pcyc : Nat) : State :=
  s.reportAt (match tenant with | some t => s.tenPart t | none => (s.partOf (quarterOf core)).getD 0) cls core ctx tenant fatal
    detail pcyc

/-- The quarter whose latent store holds a line (Table 6.10). -/
def lineQuarter (line : Nat) : Nat := 2 * (line / 0x2000000) + (if line % 0x2000000 ≥ 12288 * 1024 then 1 else 0)

/-- A latent-store word found faulty (R88): it is counted in LSERR of the line's partition (CORR at bit 0, UNCORR at bit 32). -/
def State.lsFault (s : State) (cls line lo : Nat) (tenant : Option Nat) (detail : Nat) : State :=
  let j := (s.partOf (lineQuarter line)).getD 0
  let n := s.ctlFld (offLserr j) lo 32
  (s.ctlSetFld (offLserr j) lo 32 (min (n + 1) 0xFFFFFFFF)).reportAt j cls 0 0 tenant false detail 0

/-- A fault-address entry (Table 3.6) for the line at address `place` of HBM4E (none where no line received it), with `paddr` as its
physical address, written in this cycle. `tenant` is none for the host, the firmware and maintenance. -/
def State.faqLog (s : State) (part cls : Nat) (place : Option Nat) (paddr : Nat) (tenant : Option Nat) : State :=
  let pl := match place with
    | none => 0
    | some a =>
      let p := s.placeOf a
      p.1.stack % 8 + 8 * (p.1.pch % 128) + 2 ^ 10 * (p.1.bank % 32) + 2 ^ 15 * (p.2.1 % 2 ^ 14)
        + 2 ^ 29 * (p.2.2.1 % 8) + 2 ^ 32 * (p.2.2.2 % 2)
  let e := 1 + 2 * (cls % 16) + 2 ^ 5 * pl + 2 ^ 38 * (match tenant with | some t => t % 16 | none => 2 ^ 4)
    + 2 ^ 48 * (paddr / 64 * 64 % 2 ^ 48) + 2 ^ 96 * (s.scyc % 2 ^ 32)
  s.schedI .scyc s.scyc (.faultAddressEntry part (BitVec.ofNat 128 e))

/-! ## Runs and panels that fail -/

/-- The panel is on several packages: its leads are 1,024 sc (R323). -/
def Panel.lead (p : Panel) : Nat := if p.hedge then 1024 else 1

/-- Contexts of a core leave their queues. -/
def State.leaveQueues (s : State) (core : Nat) : State :=
  (List.range 4).foldl (fun s k => if isFwCtx core k then s else s.dropWaiter core k) s

/-- A core taken from its panel (R291): contexts idle but the firmware's; registers, overlays and tags stay. -/
def State.releaseCore (s : State) (core : Nat) : State :=
  let s1 := s.leaveQueues core
  let mine := fun (x : Pend) => match x.act with | .portPass _ => x.own.core == core | _ => false
  ({ s1 with pend := s1.pend.filter fun x => !mine x } : State).updCore core fun c =>
    { c with
      panel := none
      ctxs := (c.ctxs.map fun e => (e.1, if isFwCtx core e.1 then e.2 else
          { e.2 with st := .idle, wait := .none, cands := [], run := 0, delay := .none })).filter fun e => e.2 != Ctx.idle
      recv := []
      spPend := []
      units := .zero }

/-- A panel that waits for its start, or that is being saved, leaves its cores at once. -/
def State.dropPlaced (s : State) (p : Panel) : State :=
  let s1 := (p.ranks.filter fun r => r.pkg == p.here).foldl (fun s r => s.releaseCore r.core) s
  { s1 with panels := s1.panels.filter fun q => q.pid != p.pid, copies := s1.copies.filter fun c => c.pid != some p.pid }

/-- The PCYC that comes next: while the panel is frozen, the one that its windows hold back. -/
def Panel.nextCyc (p : Panel) : Nat := if p.frozen then p.pcyc else p.pcyc + 1

/-- A panel stopped from the cycle t that begins now: its next PCYC is held back by a window (R324, R325). -/
def Panel.hold (p : Panel) (t : Nat) (stop : Option Nat) : Panel :=
  { p with pcyc := p.nextCyc, frozen := true, frz := p.frz ++ [⟨t, stop⟩] }

/-- The freeze cycle of a failure: F = t + 1, or t + 1,024 for a hedge panel (R336, R307); the earliest stands. -/
def Panel.failFrom (p : Panel) : Panel :=
  let f := p.nextCyc + p.lead - 1
  { p with failAt := some (match p.failAt with | some g => min g f | none => f) }

/-- A run is cancelled or fails (R307): no further task starts, running panels freeze, placed and saved ones go. -/
def State.endRun (s : State) (rid type code : Nat) : State :=
  let s1 : State := { s with
    runs := s.runs.map fun r => if r.id = rid ∧ r.cancel.isNone then { r with cancel := some (type, code) } else r
    panels := s.panels.map fun p => if p.run = rid ∧ p.st = .running then p.failFrom else p
    saved := s.saved.filter fun v => v.panel.run != rid }
  (s1.panels.filter fun p => p.run == rid && (p.st == .placed || p.st == .saved)).foldl State.dropPlaced s1

/-- A node of a run fails. -/
def State.failNode (s : State) (rid node : Nat) : State :=
  { s with runs := s.runs.map fun r => if r.id = rid then
    { r with prog := r.prog.zipIdx.map fun x => if x.2 = node then { x.1 with st := .failed } else x.1 } else r }

/-- The FAILREC of a tenant (R336). -/
def State.setFailRec (s : State) (t : Nat) (r : TrapRec) : State :=
  { s with failrec := spPut TrapRec.zero s.failrec t r }

/-- What the helpers of a panel have asked of the queue engines and the access processors, dropped: no write of it after F exists. -/
def State.dropAsked (s : State) (p : Panel) : State :=
  let mine := fun (core ctx : Nat) => !isFwCtx core ctx && p.ranks.any fun r => r.pkg == p.here && r.core == core
  let ours := fun (i : Nat) => s.copies.any fun c => c.id == i && !c.timed && c.pid == some p.pid
  let gone := fun (u : ReqFor) => match u with
    | .page i => s.pages.any fun g => g.id == i && mine g.core g.ctx
    | .copyRead i _ _ | .copyWrite i _ _ => ours i
    | _ => false
  { s with
    queueReqs := s.queueReqs.filter fun r => !mine r.core r.ctx
    uq := s.uq.filter fun r => !gone r.use
    pend := s.pend.filter fun x => match x.act with
      | .lsLand _ _ _ i | .land _ _ _ _ (.free i) => !ours i
      | _ => true
    pages := s.pages.filter fun g => !mine g.core g.ctx
    dqueues := (s.dqueues.map fun e => (e.1, e.2.filter fun u => match u with
        | .cpy i => (s.copies.find? fun c => c.id == i).all fun c => c.pid != some p.pid
        | .page i => !(s.pages.any fun g => g.id == i && mine g.core g.ctx))).filter fun e => e.2 != [] }

/-- A write-back of a copy has been presented and has not performed. -/
def State.writesAsked (s : State) (c : CopyRun) : Bool :=
  let mine := fun (q : HbmReq) => match q.use with | .copyWrite i _ _ => i == c.id | _ => false
  (s.reqs.any fun q => mine q && !q.performed) || s.wbq.any mine

/-- The panel at F (R336): nothing of it that is due at F or later takes place, while write-backs presented before complete; its node and its
run fail. -/
def State.failNow (s0 : State) (p : Panel) : State :=
  let s := s0.dropAsked p
  let clk := Clk.panel p.pid
  let s1 : State := { s with
    pend := s.pend.filter fun x => x.clk != clk
    links := s.links.filter fun x => x.clk != clk
    copies := (s.copies.filter fun c => c.pid != some p.pid || s.writesAsked c).map fun c =>
      if c.pid = some p.pid then { c with done := true } else c }
  let s2 := s1.updPanel p.pid fun q =>
    { q with st := .failed, frozen := true, saveMask := [], annS := some s.scyc, endAt := some p.pcyc }
  let s3 := match p.failRec with | some r => s2.setFailRec p.tenant r.2.2 | none => s2
  let s5 := (p.ranks.filter fun r => r.pkg == p.here).foldl (fun s r => s.leaveQueues r.core) (s3.failNode p.run p.node)
  s5.endRun p.run 4 0

/-! ## Taking a trap -/

/-- The firmware context halts (R337): BOOTSTAT.STATE 4, the shutdown cause, an entry of class FWHALT, the host signalled. -/
def State.fwHalt (s : State) : State :=
  let s1 := s.updCtx 0 3 fun x => { x with st := .halted, wait := .none, cands := [] }
  let s2 : State := { s1.ctlSetFld offBootstat 0 3 4 with nv := putBytes s1.nv 8 [2, 0] }
  (s2.report 16 0 3 none true 0 0).msix 18

/-- A trap of the firmware context (R337): the handler at t + 12, or the halt. -/
def State.fwTrap (s : State) (r : TrapRec) : State :=
  let old := s.ctx 0 3
  let s1 := (s.dropWaiter 0 3).updCtx 0 3 fun x => { x with trec := r, cands := [], wait := .none, delay := .none }
  if s.ctlFld offFaultctl 16 1 = 1 ∧ !old.inHandler then
    s1.updCtx 0 3 fun x =>
      { x with pc := BitVec.ofNat 16 (s.ctlFld offFaultctl 0 16), inHandler := true, next := s.scyc + 12, st := .running }
  else s1.fwHalt

/-- The failure record of a panel (R336): the one with the earliest PCYC, of the lowest rank; a later one of the same strand and cycle
replaces it. -/
def Panel.firstRec (p : Panel) (at_ rank : Nat) (r : TrapRec) : Nat × Nat × TrapRec :=
  match p.failRec with
  | some o => if o.1 < at_ ∨ (o.1 = at_ ∧ o.2.1 < rank) then o else (at_, rank, r)
  | none => (at_, rank, r)

/-- A trap of a panel at PCYC `at_`, in a strand of a rank: a running panel freezes at F; after E only the node fails (R336). -/
def State.panelFails (s : State) (p : Panel) (at_ rank : Nat) (r : TrapRec) : State :=
  let o := p.firstRec at_ rank r
  let s1 := s.updPanel p.pid fun q => if q.st = .running then { q.failFrom with failRec := some o } else { q with failRec := some o }
  if p.st = .running then s1 else ((s1.setFailRec p.tenant o.2.2).failNode p.run p.node).endRun p.run 4 0

/-- A trap of a tenant strand (R336): the strand stops and its panel fails. The record replaces the strand's earlier one (R333); the other
packages of a hedge panel learn of it (R293). -/
def State.tenantTrap (s : State) (c k : Nat) (r : TrapRec) : State :=
  let rank := (s.ctx c k).rank
  let s1 := s.updCtx c k fun x => { x with trec := r, cands := [], st := .trapped }
  match s.panelOn c with
  | none => s1.endRun (s.ctx c k).run 4 0
  | some p => (if p.hedge then s1.send (.panelTrap p.pid p.pcyc rank r) else s1).panelFails p p.pcyc rank r

/-- A trap taken by context k of core c (R333 to R337); `ret` is the return point of a firmware trap. -/
def State.takeTrap (s : State) (c k : Nat) (t : TrapCand) (ret : BitVec 16) : State :=
  let r := trapRec s c k t (if isFwCtx c k then ret else 0)
  if isFwCtx c k then s.fwTrap r else s.tenantTrap c k r

/-- The first trap of those found for a context, taken (R185). -/
def State.takeFirst (s : State) (c k : Nat) (l : List TrapCand) : State :=
  match firstTrap l with
  | none => s
  | some t => s.takeTrap c k t t.baddr

/-- A trap found in the current cycle for a context: it is taken before the context issues (R185). -/
def State.found (s : State) (c k : Nat) (t : TrapCand) : State :=
  s.updCtx c k fun x => { x with cands := x.cands ++ [t] }

/-- A trap that belongs to no instruction of the strand (R379). -/
def State.noOwner (s : State) (c k : Nat) (kind : TrapKind) : TrapCand := ⟨kind, kind.step, 0, 0, (s.ctx c k).lastPc⟩

/-- A trap that belongs to the instruction that owns an action (R379). -/
def Own.cand (o : Own) (kind : TrapKind) : TrapCand :=
  ⟨kind, kind.step, if o.slot < 13 then BitVec.ofNat 13 (2 ^ o.slot) else 0, o.word, o.baddr⟩

/-- A trap of the instruction that owns an action, found now. -/
def State.foundBy (s : State) (o : Own) (kind : TrapKind) : State := s.found o.core o.ctx (o.cand kind)

/-! ## Hardware faults (R338) -/

/-- The core of the lowest rank of a panel on this package. -/
def Panel.firstCore (p : Panel) : Nat := ((p.ranks.find? fun r => r.pkg == p.here).map (·.core)).getD 0

/-- The record of a trap in the holder of rank r of a panel, where that strand is not here: its panel holds no core now, or it lies on
another package (R333, R334). -/
def holderRec (s : State) (r : Nat) (k : TrapKind) (pcyc : Nat) : TrapRec :=
  { TrapRec.zero with
    t0 := BitVec.ofNat 64 (k.code + 2 ^ 29 + 2 ^ 48 * (r % 2 ^ 16)), t2 := BitVec.ofNat 64 pcyc, t3 := BitVec.ofNat 64 s.scyc
    t4 := k.t4, t5 := k.t5 }

/-- A fatal fault of a panel, detected now in the unit of `core`, or of none (R333): cause FAULT among what the holder of its core has found
in this cycle; a panel without cores fails at once. Its report names the core of the unit, 0 outside cores (R341). -/
def State.fatalPanel (s : State) (p : Panel) (core : Option Nat) (cls detail : Nat) : State :=
  let c := core.getD p.firstCore
  let s1 := if (s.core c).panel = some p.pid then s.found c 0 (s.noOwner c 0 (.fault cls (BitVec.ofNat 32 detail)))
    else
      let r := ((p.ranks.zipIdx.find? fun x => x.1.pkg == p.here).map (·.2)).getD 0
      ((s.setFailRec p.tenant (holderRec s r (.fault cls (BitVec.ofNat 32 detail)) p.pcyc)).failNode p.run p.node).endRun p.run 4 0
  s1.report cls (core.getD 0) 0 (some p.tenant) true detail p.pcyc

/-- A fault fatal to the panel that holds a core; without one, to the strand that runs there: the firmware context on its own core (R338,
log 19). -/
def State.fatalCore (s : State) (core cls detail : Nat) : State :=
  match s.panelOn core with
  | some p => s.fatalPanel p (some core) cls detail
  | none =>
    match (s.core core).ctxs.find? fun x => x.2.st == .running || x.2.st == .ready || x.2.st == .blocked with
    | some x =>
      let ten := if isFwCtx core x.1 then none else some x.2.tenant
      (s.found core x.1 (s.noOwner core x.1 (.fault cls (BitVec.ofNat 32 detail)))).report cls core x.1 ten true detail 0
    | none => s.report cls core 0 none false detail 0

/-- A masked fault: a report alone. -/
def State.maskedFault (s : State) (core cls detail : Nat) : State :=
  let p := s.panelOn core
  s.report cls core 0 (p.map (·.tenant)) false detail (match p with | some p => p.pcyc | none => 0)

/-- A Gramer port goes down (R331): UP := 0 in the cycle of detection, LAT stays; lines inside the port are lost (R202); a lost
reference port is replaced by the lowest up port whose peer has a reference or is the root, whose marker it then awaits (R322, log 106). -/
def State.portDown (s : State) (port : Nat) : State :=
  let w := spGet 0 s.linklat port
  let inside := fun (x : Pend) => match x.act with | .portPass q => q == port | _ => false
  let s0 := (s.pend.filter inside).foldl (fun s x => s.updCtx x.own.core x.own.ctx fun c =>
    { c with failed := c.failed ++ [⟨x.own.issue, 5, 1, true, false, false⟩] }) s
  let s1 : State := { s0 with
    linklat := spPut 0 s.linklat port (setFld w 16 1 0)
    portDownAt := if bt w.toNat 16 then spPut 0 s.portDownAt port s.scyc else s.portDownAt
    saved := s0.saved.map fun v => { v with
      cores := (v.panel.ranks.filter fun r => r.pkg == v.panel.here).zip v.cores |>.map fun x =>
        (v.pend.filter fun y => inside y && y.own.core == x.1.core && decide (y.due > s.scyc)).foldl (fun c y =>
          c.updCtx 0 fun k => { k with failed := k.failed ++ [⟨y.own.issue, 5, 1, true, false, false⟩] }) x.2
      pend := v.pend.filter fun y => !inside y }
    pend := s0.pend.filter fun x => !inside x }
  let d0 := spGet 0 s.drift 0
  if fld d0.toNat 32 5 = port ∧ (bt d0.toNat 37 ∨ s.hedgeLoaded) then
    let s2 : State := { s1 with refSilent := if bt d0.toNat 37 then s1.scyc else s1.refSilent }
    let d1 := setFld d0 37 1 0
    match (List.range s.gramer).find? fun i => s2.portUp i && Config.peerRef s.scyc i with
    | some i => { s2 with drift := spPut 0 s2.drift 0 (setFld d1 32 5 i) }
    | none => { s2 with drift := spPut 0 s2.drift 0 d1 }
  else s1

/-- SYNCLOSS (R322): LOST is set; every hedge panel fails; no further one is placed while LOST stands. -/
def State.syncLoss (s : State) : State :=
  let s1 : State := { s with drift := spPut 0 s.drift 0 (setFld (spGet 0 s.drift 0) 39 1 1) }
  match s1.panels.filter fun p => p.hedge && p.st != .failed with
  | [] => s1.report 14 0 0 none false 0 0
  | l => l.foldl (fun s p => s.fatalPanel p none 14 0) s1

/-- THERMAL (R330): the fault is reported (R339), the cause is kept, and the power stages lose their enable. -/
def State.thermalOff (s : State) : State :=
  { (s.packageEntries 15 true).foldl State.frqPush s with power := false, nv := putBytes s.nv 8 [1, 0] }

/-- DETAIL of a fault-report entry (R341): what the detecting unit gives, or the unit itself. -/
def detailOf (cls unit d : Nat) : Nat :=
  match cls with
  | 1 | 2 | 3 | 4 | 6 | 7 => d % 2 ^ 16
  | 10 => unit % 2 ^ 17
  | 11 => unit % 32
  | 12 => unit % 16
  | _ => 0

/-- A panel has a packet on a link in this cycle (R338), or, for the collective plane, which has no code of its own (log 107), a collective's. -/
def State.packetOn (s : State) (p : Panel) (link : Nat) : Bool :=
  let clk := Clk.panel p.pid
  if link ≥ 2 ^ 17 then s.pend.any fun x => x.clk == clk && (match x.act with
    | .nredRd _ _ _ _ _ _ _ | .wNred _ _ _ _ _ | .land _ _ _ _ .bc => true
    | _ => false)
  else !p.frozen && s.links.any fun l => l.clk == clk && l.link == link && l.due == p.pcyc

/-- The accumulator write of an MMA of a core that is made in this cycle (R267). -/
def State.mmaWrite (s : State) (core : Nat) (x : Pend) : Bool :=
  x.own.core == core && decide (x.due ≤ s.now x.clk) && (match x.act with | .wMma _ => true | _ => false)

/-- HARDWARE_FAULT_DETECT (R338). A residue that fails drops the accumulator write of its MMA (R267). `unit` is a core for classes 1, 2 and
5 to 9, a line for 3 and 4, a link for 10, a port for 11, an access processor for 12, a saved panel for 17; `ten` is the tenant whose read
found the word, for 3 and 4. -/
def execHardwareFaultDetect (cls unit : Nat) (ten : Option Nat) (detail : BitVec 32) (s : State) : Out :=
  let d := detailOf cls unit detail.toNat
  .next (match cls with
    | 1 | 5 => s.maskedFault unit cls d
    | 2 => (s.updCore unit fun c => { c with spPoison := spPut false c.spPoison (fld d 0 13) true }).maskedFault unit 2 d
    | 3 => s.lsFault 3 unit 0 ten d
    | 4 => { s with lsPoison := spPut false s.lsPoison unit true }.lsFault 4 unit 32 ten d
    | 6 => (s.fatalCore unit 6 d).updCore unit fun c =>
        { c with ovtag := spUpd 0 c.ovtag (fld d 0 16 / 0x4000) fun w => setFld w 40 1 0 }
    | 8 => (({ s with pend := s.pend.filter fun x => !s.mmaWrite unit x } : State).updCore unit fun c =>
        { c with mstat := c.mstat ||| 16#64 }).fatalCore unit 8 d
    | 7 | 9 => s.fatalCore unit cls d
    | 10 =>
      let hit := s.panels.filter fun p => s.packetOn p unit
      if hit.isEmpty then s.report 10 0 0 none false d 0
      else hit.foldl (fun s p => s.fatalPanel p none 10 d) s
    | 11 => (s.portDown unit).report 11 0 0 none false d 0
    | 12 =>
      let hit := s.panels.filter fun p => s.copies.any fun c => c.pid == some p.pid && c.ap == unit && !c.done
      if hit.isEmpty then s.report 12 0 0 none false d 0
      else hit.foldl (fun s p => s.fatalPanel p none 12 d) s
    | 13 => (s.packageEntries 13 false).foldl (fun s e => s.schedI .scyc s.scyc (.faultReportEntry e)) { s with dispHalt := true }
    | 14 => s.syncLoss
    | 15 => s.thermalOff
    | 16 => s.fwHalt
    | 17 =>
      match s.panel? unit, s.saved.find? fun v => v.panel.pid == unit with
      | some p, _ => s.fatalPanel p none 17 d
      | none, some v => s.fatalPanel v.panel none 17 d
      | none, none => s.report 17 0 0 none true d 0
    | _ => s)

/-- GRAMER_LINK_DOWN (R331, R338 class 11). -/
def execGramerLinkDown (port : Nat) (s : State) : Out := .next ((s.portDown port).report 11 0 0 none false (port % 32) 0)

/-- SYNCLOSS (R322). -/
def execSyncloss (lost : Bool) (s : State) : Out := .next (if lost then s.syncLoss else s)

end Sys2Proof.Machine
end

