-- ==== Sys2Proof/Machine/MainMemory.lean ====
section
/-!
DEFINITION. The memory controllers (03): slots, admission, accesses, refresh, parking, self-test; the second tier's ports and
decoders; the eviction engine.
-/
namespace Sys2Proof.Machine

/-! ## Slots and admission (R37, R38) -/

/-- The live code of slot n of partition j. -/
def State.slotCode (s : State) (j n : Nat) : Nat := fld (s.liveWord (offMemslot j (n / 8))).toNat (8 * (n % 8)) 8

/-- The slot that begins at a cycle. -/
def slotAt (sigma : Nat) : Nat := sigma % 320 / 5

/-- A pseudo-channel of the package by number: 96 to a stack. -/
def pchOf (b : BankId) : Nat := 96 * b.stack + b.pch

def State.pch (s : State) (c : Nat) : PchSt := spGet PchSt.zero s.pchs c

def State.setPch (s : State) (c : Nat) (x : PchSt) : State := { s with pchs := spPut PchSt.zero s.pchs c x }

/-- Rules 2 to 4 of R38 for a slot start, for a request of `who` to a bank of pseudo-channel `pch`. -/
def State.slotFree (s : State) (part pch bank who sigma : Nat) : Bool :=
  s.slotCode part (slotAt sigma) == who
    && !(s.pch pch).taken.contains sigma
    && s.reqs.all fun r => match r.sigma with
      | none => true
      | some g => r.pch != pch || (g != (sigma : Int) && (r.bank != bank || decide (g ≥ sigma + 80) || decide ((sigma : Int) ≥ g + 80))
          && (r.who != who || decide (g < sigma)))

/-- sigma (R38): the earliest slot start from t + 8 to t + 328; none while a table switch is pending (R41, log 21). -/
def State.admitAt (s : State) (part pch bank who : Nat) : Option Nat :=
  let k0 := (s.scyc + 8 + 4) / 5
  if s.ctlFld (offMemctl part) 1 1 = 1 then none
  else ((List.range 65).map fun i => 5 * (k0 + i)).find? fun g =>
    decide (s.admitFrom ≤ g) && decide (g ≤ s.scyc + 328) && s.slotFree part pch bank who g

/-- A request presented in this cycle (R38): the state with it when it is admitted, and whether it was. -/
def State.presentReq (s : State) (r : HbmReq) : State × Bool :=
  match s.admitAt r.part r.pch r.bank r.who with
  | none => (s, false)
  | some g => ({ s with reqs := s.reqs ++ [{ r with sigma := some (g : Int), id := s.nextId, present := s.scyc }], nextId := s.nextId + 1 }, true)

/-- A request for the unit at a frame address, for a tenant or the firmware. -/
def State.unitReq (s : State) (who ap chan addr : Nat) (write : Bool) (mask : BitVec 128) (l0 l1 : Line) (use : ReqFor) : HbmReq :=
  let u := addr / 128 * 128
  let p := (s.placeOf u).1
  { id := 0, part := (s.partOfAddr u).getD 0, pch := pchOf p, bank := p.bank, who := who, ap := ap, chan := chan,
    asked := s.scyc, present := s.scyc, sigma := none, addr := u, write := write, mask := mask, l0 := l0, l1 := l1, use := use, performed := false }

/-! ## Accesses (R39, R40, R44, R47) -/

/-- The bank that partition j parks (R47). -/
def State.parkedBank (s : State) (j : Nat) : Option BankId :=
  let w := (s.ctlGet (offParksel j)).toNat
  if bt w 16 && decide (fld w 3 7 < 96) then some ⟨fld w 0 3, fld w 3 7, fld w 10 5⟩ else none

/-- The tenant of an access, for the log. -/
def whoTenant (who : Nat) : Option Nat := if who < 16 then some who else none

/-- A line has one faulty symbol, which the code corrects (R44). -/
def State.hbmCe (s : State) (a : Nat) : Bool := spGet false s.hbmFaulty (a / 64)

/-- A line read (R44): the data as they stand; a tag logs UE, a corrected symbol CE. -/
def State.readLine (s : State) (part addr : Nat) (ten : Option Nat) : State × Line :=
  let t := s.hbmTag addr
  (if t then s.faqLog part 1 (some addr) addr ten else if s.hbmCe addr then s.faqLog part 0 (some addr) addr ten else s,
    ⟨lineOf (s.hbmBytes addr 64), t, false⟩)

/-- A line written under a mask (R44): a merge with a poisoned line stays poisoned and logs RMWUE, one with a correctable line logs CE;
the code of the line is written anew. -/
def State.writeLine (s : State) (part addr : Nat) (mask : BitVec 64) (l : Line) (ten : Option Nat) : State :=
  if mask = 0 then s
  else
    let full := mask == BitVec.allOnes 64
    let old := s.hbmTag addr
    let s1 := if full then s else if old then s.faqLog part 2 (some addr) addr ten
      else if s.hbmCe addr then s.faqLog part 0 (some addr) addr ten else s
    let s2 := s1.hbmPut addr ((List.range 64).map fun i => mask.getLsbD i) (lineBytes l.data)
    { s2 with hbmFaulty := spPut false s2.hbmFaulty (addr / 64) false }.hbmSetTag addr (l.poison || (!full && old))

/-- A line of HBM4E goes bad (R44): one symbol, which every read corrects, or more, which leave `data` in it and no way to correct them. -/
def State.lineFault (s : State) (addr : Nat) (data : BitVec 512) (ce : Bool) : State :=
  let a := addr / 64 * 64
  if ce then (if s.hbmTag a then s else { s with hbmFaulty := spPut false s.hbmFaulty (a / 64) true })
  else ({ s with hbmFaulty := spPut false s.hbmFaulty (a / 64) false }.hbmPut a (List.replicate 64 true) (lineBytes data)).hbmSetTag a true

/-! ## Reads and writes without a slot (R54, R60, R342, log 121) -/

/-- The bank of an HBM4E address is parked by its partition (R47). -/
def State.lineParked (s : State) (a : Nat) : Bool :=
  match s.partOfAddr a with
  | some j => s.parkedBank j == some (s.placeOf a).1
  | none => false

/-- A line that a unit of the part reads without a slot, its bytes as they stand (log 121): what the read logs (R44, R47). -/
def State.noteRead (s : State) (addr : Nat) (ten : Option Nat) : State :=
  let a := addr / 64 * 64
  let j := (s.partOfAddr a).getD 0
  if s.lineParked a then s.faqLog j 3 (some a) a ten else (s.readLine j a ten).1

/-- A line that a unit of the part writes under a mask without a slot (R44); a parked bank drops it (R47). -/
def State.noteWrite (s : State) (addr : Nat) (mask : BitVec 64) (l : Line) (ten : Option Nat) : State :=
  let a := addr / 64 * 64
  let j := (s.partOfAddr a).getD 0
  if s.lineParked a then s.faqLog j 3 (some a) a ten else s.writeLine j a mask l ten

/-- The lines that a walk of the page table reads for a group: its root entry's, its directory entry's, its leaf block's (R54). -/
def State.walkLines (s : State) (space group : Nat) : List Nat :=
  let root := fld (s.rootOf space).toNat 10 38 * 1024
  if root % 65536 ≠ 0 ∨ root ≥ hbmSize s.variant then []
  else
    let e := root + 8 * (group / 2 ^ 13 % 2 ^ 13)
    e :: (match s.dirNext (s.hbmNat e 8) 65536 with
      | none => []
      | some d =>
        let f := d + 8 * (group % 2 ^ 13)
        f :: (match s.dirNext (s.hbmNat f 8) 1024 with
          | none => []
          | some a => (List.range 16).map (a + 64 * ·)))

/-- The tenant of a space, for the log. -/
def spaceTenant (space : Nat) : Option Nat := if space = fwSpace then none else some space

/-- What the reads of a walk log. -/
def State.walkNotes (s : State) (space group : Nat) : State :=
  (s.walkLines space group).foldl (fun s a => s.noteRead a (spaceTenant space)) s

/-- A leaf block entered in a die's span cache, after the walk that reads it (R56). -/
def State.spanRead (s : State) (die space group : Nat) (pin : Bool) : State :=
  (if (s.spanFind die space group).isSome then s else s.walkNotes space group).spanFill die space group pin

/-! ## Admitted and untimed accesses -/

/-- The activation count of a bank raised (R42); a count that reaches LEVEL makes a refresh-management command due. -/
def State.countAct (s : State) (part pch bank : Nat) : State :=
  let x := s.pch pch
  let n := spGet 0 x.acts bank + 1
  let s1 := s.setPch pch { x with acts := spPut 0 x.acts bank n }
  if n ≥ max 1 (s.ctlFld (offRmctl part) 0 10) ∧ !x.due.contains (true, bank) then
    s1.schedI .scyc s.scyc (.refreshManagementDue part pch bank)
  else s1

/-- The activates of the slots that begin now (R39, R42); a write that DISCARD cancelled has none (R83). -/
def State.activate (s : State) : State :=
  (s.reqs.filter fun r => r.sigma == some (s.scyc : Int) && (r.use != .dropped || !r.write || r.performed)).foldl (fun s r => s.countAct r.part r.pch r.bank) s

/-- Lines of a copy's writes have performed or count as performed (R274), for a copy that runs or is saved. -/
def State.linesDone (s : State) (run n : Nat) (poison : Bool) : State :=
  let f := fun (c : CopyRun) => if c.id = run then
    { c with written := c.written + n, sent := if c.timed then c.sent else c.sent + n, poisoned := c.poisoned || poison } else c
  { s with copies := s.copies.map f, saved := s.saved.map fun v => { v with copies := v.copies.map f } }

/-! ## Untimed accesses (R37, R81) -/

/-- An untimed access asked for: it waits for a slot of its code that no admitted request holds. -/
def State.askFree (s : State) (r : HbmReq) : State := { s with uq := s.uq ++ [{ r with id := s.nextId }], nextId := s.nextId + 1 }

/-- The mapping that a host access goes by (R355): the one that stood before a partition change that came after its acceptance. -/
def State.mapOf (s : State) (r : HbmReq) : Option OldMap :=
  match r.use with
  | .host id => s.olds.find? fun o => decide (id < o.before) && o.quarters.contains (r.addr / 0x1800000000)
  | _ => none

/-- The package with the mapping and the contents of `o` in their quarters. -/
def State.under (s : State) (o : OldMap) : State :=
  { s with live := o.live, hbm := o.hbm, hbmPoison := o.poison, hbmFaulty := o.faulty, hbmUndef := o.undef }

/-- What an access made under `o` leaves of the package and of `o`. -/
def State.backFrom (t s : State) (o : OldMap) : State :=
  { t with
    live := s.live, hbm := s.hbm, hbmPoison := s.hbmPoison, hbmFaulty := s.hbmFaulty, hbmUndef := s.hbmUndef
    olds := s.olds.map fun q => if q.before = o.before then { q with hbm := t.hbm, poison := t.hbmPoison, faulty := t.hbmFaulty } else q }

/-- An access of main memory, under the mapping that it goes by. -/
def State.onMap {α : Type} (s : State) (r : HbmReq) (f : State → State × α) : State × α :=
  match s.mapOf r with
  | some o => let x := f (s.under o); (x.1.backFrom s o, x.2)
  | none => f s

/-- The bank of a request. -/
def State.reqPlace (s : State) (r : HbmReq) : BankId :=
  match s.mapOf r with
  | some o => ((s.under o).placeOf r.addr).1
  | none => (s.placeOf r.addr).1

/-- A request at its bank, in the partition that holds the bank's quarter. -/
def State.placed (s : State) (r : HbmReq) : HbmReq :=
  let p := s.reqPlace r
  { r with part := (s.partOf (p.stack / 2)).getD 0, pch := pchOf p, bank := p.bank }

/-- Units presented on a channel of an access processor in this cycle (R76). -/
def State.unitsOf (s : State) (ap ch : Nat) : Nat := spGet 0 s.units (4 * ap + ch)

def State.useUnit (s : State) (ap ch : Nat) : State := { s with units := spUpd 0 s.units (4 * ap + ch) (· + 1) }

/-- A timed entry holds a channel of an access processor (R73). -/
def State.chanBusy (s : State) (ap ch : Nat) : Bool :=
  s.chans.any fun x => x.1 == ap && x.2.1 == ch &&
    (match s.panel? x.2.2.1 with
     | some p => (p.st == .running || p.st == .ended) && decide (x.2.2.2 ≥ p.pcyc)
     | none => false)

/-- A channel that a unit of an untimed access may take in this cycle (R76, R81): a copy's own, any for a page copy (log 125), where no
timed entry holds it and it has not moved two units yet. Another access needs none. -/
def State.freeChan (s : State) (r : HbmReq) : Option Nat :=
  let ok := fun (ch : Nat) => !s.chanBusy r.ap ch && decide (s.unitsOf r.ap ch < 2)
  match r.use with
  | .copyRead _ _ _ | .copyWrite _ _ _ => if ok r.chan then some r.chan else none
  | .page _ => (List.range 4).find? ok
  | .host _ | .evict _ | .dropped => some r.chan

/-- An untimed access takes the slot that begins now, unless an earlier one of its code waits for the same pseudo-channel. -/
def State.startFree (s : State) (r0 : HbmReq) : State :=
  let ch := s.freeChan r0
  let r := { s.placed r0 with chan := ch.getD r0.chan, present := s.scyc, sigma := some (s.scyc : Int) }
  if s.ctlFld (offMemctl r.part) 1 1 = 0 ∧ s.admitFrom ≤ s.scyc ∧ s.slotFree r.part r.pch r.bank r.who s.scyc = true
      ∧ ch.isSome = true
      ∧ (s.uq.all fun q => decide (r.id ≤ q.id) || pchOf (s.reqPlace q) != r.pch || q.who != r.who) = true then
    let s1 : State := { s with uq := s.uq.filter fun q => q.id != r.id, reqs := s.reqs ++ [r] }
    match r.use with
    | .copyRead _ _ _ | .copyWrite _ _ _ | .page _ => s1.useUnit r.ap r.chan
    | _ => s1
  else s

/-- The slots that begin now and that no timed access holds serve the untimed ones, in arrival order. -/
def State.freeSlots (s : State) : State := if s.scyc % 5 ≠ 0 then s else s.uq.foldl State.startFree s

/-- A latent-store write of bytes (R88): a line written whole and clean loses its tag. -/
def State.lsWrite (s : State) (p : LsAddr) (mask : List Bool) (bs : List Byte) (poison : Bool) : State :=
  let full := decide (p.byte % 64 = 0) && decide (mask.length = 64) && mask.all (fun b => b)
  { s with
    ls := putMasked s.ls p.key mask bs
    lsPoison := if poison then spPut false s.lsPoison (p.key / 64) true
      else if full then spPut false s.lsPoison (p.key / 64) false else s.lsPoison }

/-- A write of the latent store's near port is due in this cycle at the bank of p (R90). -/
def State.nearWrite (s : State) (p : LsAddr) : Bool :=
  s.pend.any fun x => decide (x.due ≤ s.now x.clk) && !s.clkFrozen x.clk && dieOf x.own.core == p.die &&
    (match x.act with
     | .lsStore q _ _ | .lsLand q _ _ _ | .lsAtomic q _ _ _ _ _ => q.die == p.die && q.line % 2048 == p.line % 2048
     | _ => false)

/-! ## The slot table (R41) -/

/-- CSTAT of a shadow table: the lowest failing check, or 0. -/
def State.slotCheck (s : State) (j : Nat) : Nat :=
  let code := fun n => fld (s.ctlGet (offMemslot j (n / 8))).toNat (8 * (n % 8)) 8
  if (List.range 64).any fun n => (code n == 0x10) != (n % 16 == 0) then 1
  else if !(List.range 64).any fun n => code n == 0x11 then 2
  else if (List.range 64).any fun n => decide (code n > 0x12) then 3 else 0

/-- COMMIT (R41); ignored while BUSY. -/
def execCommit (part : Nat) (s : State) : Out :=
  .next (if s.ctlFld (offMemctl part) 1 1 = 1 then s
    else
      let c := s.slotCheck part
      let s1 := s.ctlSetFld (offMemctl part) 2 2 c
      if c = 0 then s1.ctlSetFld (offMemctl part) 1 1 1 else s1)

/-- Every admitted request of a partition has performed. -/
def State.partIdle (s : State) (j : Nat) : Bool := s.reqs.all fun r => r.part != j || r.performed

/-- SLOT_TABLE_SWITCH (R41). -/
def execSlotTableSwitch (part : Nat) (s : State) : Out :=
  .next (if s.ctlFld (offMemctl part) 1 1 = 1 ∧ s.partIdle part ∧ s.scyc % 320 = 0 then
      (List.range 8).foldl (fun s i => s.setLive (offMemslot part i) (s.ctlGet (offMemslot part i)))
        (s.ctlSetFld (offMemctl part) 1 1 0)
    else s)

/-! ## Refresh (R42, R43) -/

/-- With more than two commands due and none taken for them yet, the first tenant slot to come that no admitted request holds is taken
(R43). -/
def State.takeSlot (s : State) (part pch : Nat) : State :=
  let x := s.pch pch
  if x.due.length > 2 ∧ !x.taken.any (fun g => decide (g > s.scyc)) then
    let k0 := s.scyc / 5 + 1
    match ((List.range 64).map fun i => 5 * (k0 + i)).find? fun g =>
        decide (s.slotCode part (slotAt g) < 16) && s.reqs.all fun r => r.pch != pch || r.sigma != some (g : Int) with
    | some g => s.setPch pch { x with taken := [g] }
    | none => s
  else s

/-- PER_BANK_REFRESH_DUE (R42). -/
def execPerBankRefreshDue (part pc : Nat) (s : State) : Out :=
  let x := s.pch pc
  .next ((s.setPch pc { x with due := x.due ++ [(false, x.nextBank)], nextBank := (x.nextBank + 1) % 32 }).takeSlot part pc)

/-- REFRESH_MANAGEMENT_DUE (R42). -/
def execRefreshManagementDue (part pc bank : Nat) (s : State) : Out :=
  let x := s.pch pc
  .next ((s.setPch pc { x with due := x.due ++ [(true, bank)] }).takeSlot part pc)

/-- TSTAT of a partition. -/
def State.setTstat (s : State) (j v : Nat) : State := s.ctlSetFld (offParksel j) 18 2 v

/-- The address of the first column of a row of a bank, for the log. -/
def State.rowAddr (s : State) (j : Nat) (b : BankId) (row : Nat) : Nat :=
  0x1800000000 * j + ((row * 256 + b.bank) * (96 * (2 * s.partNq j)) + (b.stack - 2 * j) * 96 + b.pch) * 128

/-- SELF_TEST_STEP (R48): one row, which may fail (log 20); TSTAT at the end. -/
def State.testStep (s : State) (j pc : Nat) : State :=
  match s.tests.find? fun t => t.1 == j && pchOf t.2.1 == pc with
  | none => s
  | some t =>
    let row := t.2.2.1
    let bad := Config.rowFails s.scyc row
    let s1 := if bad then
        let a := s.rowAddr j t.2.1 row
        s.faqLog j 4 (some a) a none else s
    let rest := s1.tests.filter fun u => u.1 != j
    if row + 1 = 16384 then { s1 with tests := rest }.setTstat j (if bad || t.2.2.2 then 3 else 2)
    else { s1 with tests := rest ++ [(j, t.2.1, row + 1, bad || t.2.2.2)] }

/-- MAINTENANCE_SLOT (R43): the oldest refresh-management command, else the oldest refresh, else a step of the self-test. -/
def execMaintenanceSlot (part pc : Nat) (s : State) : Out :=
  let x := s.pch pc
  let lower := fun (bank dec : Nat) => spPut 0 x.acts bank (spGet 0 x.acts bank - dec)
  let first := match x.due.find? fun d => d.1 with | some d => some d | none => x.due.head?
  .next (match first with
    | some d =>
      s.setPch pc { x with
        due := x.due.erase d
        acts := lower d.2 (s.ctlFld (offRmctl part) (if d.1 then 20 else 10) 10)
        taken := x.taken.filter fun g => decide (g > s.scyc) }
    | none => s.testStep part pc)

/-- The pseudo-channels of a partition. -/
def State.partPchs (s : State) (j : Nat) : List Nat := (List.range (192 * s.partNq j)).map (192 * j + ·)

/-! ## Parking and self-test (R47, R48) -/

/-- A running self-test of a partition stops with TSTAT 3. -/
def State.stopTest (s : State) (j : Nat) : State :=
  if s.tests.any fun t => t.1 == j then { s with tests := s.tests.filter fun t => t.1 != j }.setTstat j 3 else s

/-- PARK (R47, R48): ignored for pseudo-channels 96 to 127; clearing PARK stops a test. -/
def execPark (part : Nat) (on : Bool) (s : State) : Out :=
  .next (let w := s.ctlGet (offParksel part)
    if on then (if fld w.toNat 3 7 ≥ 96 then s else s.ctlSet (offParksel part) (setFld w 16 1 1))
    else (s.ctlSet (offParksel part) (setFld w 16 1 0)).stopTest part)

/-- A range of HBM4E, or one bank of it, becomes undefined (R48, R355). -/
def State.makeUndef (s : State) (lo hi : Nat) (bank : Option BankId) : State :=
  let gone := fun a => decide (lo ≤ a) && decide (a < hi) && (match bank with | none => true | some b => (s.placeOf a).1 == b)
  { s with
    hbm := s.hbm.filter fun e => !gone e.1
    hbmPoison := s.hbmPoison.filter fun e => !gone (64 * e.1)
    hbmFaulty := s.hbmFaulty.filter fun e => !gone (64 * e.1)
    hbmUndef := ⟨s.free, lo, hi, bank⟩ :: s.hbmUndef
    free := s.free + 1 }

/-- TEST (R48): without a parked bank, or during a test, no effect. The bank's contents are lost. -/
def execTest (part : Nat) (s : State) : Out :=
  .next (match s.parkedBank part with
    | none => s
    | some b =>
      if s.tests.any fun t => t.1 == part then s
      else
        let r := s.partRange part
        { s.makeUndef r.1 (r.1 + r.2) (some b) with tests := s.tests ++ [(part, b, 0, false)] }.setTstat part 1)

/-! ## The second tier (R50, R51, R357) -/

/-- The decoder that covers a second-tier page number, and the page's port. -/
def State.cxlPort (s : State) (page : Nat) : Option Nat :=
  let g := (page * 65536 - secondBase) / 2 ^ 30
  if page * 65536 < secondBase then none
  else (List.range 4).findSome? fun i =>
    let w := (s.ctlGet (offCxldec i)).toNat
    if bt w 0 && decide (fld w 12 20 ≤ g) && decide (g < fld w 12 20 + fld w 32 20) then
      let ports := (List.range 4).filter fun p => bt w (3 + p)
      let k := page - (secondBase + fld w 12 20 * 2 ^ 30) / 65536
      ports[k % 2 ^ fld w 1 2]?
    else none

/-- A CXL port is up. -/
def State.cxlUp (s : State) (p : Nat) : Bool := s.ctlFld (offCxlpst p) 0 1 == 1

/-- A page copy is outstanding on a port (R357). -/
def State.cxlBusy (s : State) (p : Nat) : Bool :=
  (s.pages.any fun g => g.bk && g.started && s.cxlPort g.back == some p)
    || (match s.evict with | some e => s.cxlPort e.dst == some p | none => false)

/-! ## Eviction (R52) -/

/-- EVCTL's STAT and BUSY. -/
def State.evDone (s : State) (stat : Nat) : State :=
  { (s.ctlSetFld offEvctl 1 1 0).ctlSetFld offEvctl 2 3 stat with evict := none }

/-- EVCTL_GO (R52); ignored while BUSY. -/
def execEvctlGo (s : State) : Out :=
  .next (if s.ctlFld offEvctl 1 1 = 1 ∨ s.cxl = 0 then s
    else
      let src := s.ctlFld offEvsrc 16 32
      let dst := s.ctlFld offEvdst 16 32
      if src * 65536 ≥ hbmSize s.variant ∨ (s.partOfAddr (src * 65536)).isNone then s.evDone 1
      else match s.cxlPort dst with
        | none => s.evDone 2
        | some p =>
          if !s.cxlUp p then s.evDone 3
          else { s.ctlSetFld offEvctl 1 1 1 with evict := some ⟨s.nextId, src, dst, false, 0, false⟩, nextId := s.nextId + 1 })

/-- A CXL port goes down (R51, R52): the copies outstanding on the port have their remaining lines poisoned, those of a unit that has not
landed yet among them, an eviction ends with STAT 3, and class
CXLDOWN is logged once for each. The eviction's lines that are left are lost writes for a SYSTEM fence of the firmware (R180, log 112). -/
def State.cxlDown (s : State) (port : Nat) : State :=
  let s0 := s.ctlSetFld (offCxlpst port) 0 1 0
  let hit := fun (g : PageReq) => g.bk && g.started && !g.down && g.line < 512 && s.cxlPort g.back == some port
  let s1 := (s.pages.filter hit).foldl (fun s g =>
    let a := g.frame * 65536 + 128 * g.line
    s.faqLog ((s.partOfAddr a).getD 0) 6 (some a) (g.back * 65536 + 128 * g.line) (if g.fw then none else some g.tenant)) s0
  let lost := fun (r : HbmReq) => match r.use with
    | .page i => if !r.performed && s.pages.any (fun g => g.id == i && hit g) then { r with l0 := ⟨0, true, false⟩, l1 := ⟨0, true, false⟩ } else r
    | _ => r
  let s2 : State := { s1 with
    pages := s1.pages.map fun g => if hit g then { g with down := true } else g
    uq := s1.uq.map lost
    reqs := s1.reqs.map lost }
  match s.evict with
  | some e =>
    if s.cxlPort e.dst = some port then
      ((s2.evDone 3).faqLog ((s.partOfAddr (e.src * 65536)).getD 0) 6 none (e.dst * 65536 + 64 * e.line) none).updCtx 0 3 fun x =>
        { x with failed := x.failed ++ [⟨(s.scyc : Int) - 1, 7, 1024 - e.line, false, true, false⟩] }
    else s2
  | none => s2

/-- CXLDOWN (R51): the link of the port goes down. -/
def execCxldown (port : Nat) (s : State) : Out := .next (s.cxlDown port)

/-- EVICTION_COMPLETE (R52): the device has completed the write of every line; or, with ok = false, the port has gone down before it did. -/
def execEvictionComplete (ok : Bool) (s : State) : Out :=
  .next (match s.evict with
    | some e =>
      if ok then (if e.line = 1024 then s.evDone (if e.poisoned then 4 else 0) else s)
      else (s.cxlPort e.dst).elim s s.cxlDown
    | none => s)

/-- RETRAIN (R357, R51): the port is up again when its training succeeds, and goes down when it fails. -/
def execRetrain (port : Nat) (ok : Bool) (s : State) : Out :=
  .next (if port ≥ s.cxl then s else if ok then s.ctlSetFld (offCxlpst port) 0 1 1 else s.cxlDown port)

/-- A line of the second tier written. -/
def State.secondPut (s : State) (a : Nat) (l : Line) : State :=
  { s with
    second := putBytes s.second a (lineBytes l.data)
    secondPoison := spPut false s.secondPoison (a / 64) l.poison }

/-- A line of the second tier. -/
def State.secondLine (s : State) (a : Nat) : Line := ⟨lineOf (bytesAt s.second a 64), spGet false s.secondPoison (a / 64), false⟩

end Sys2Proof.Machine
end

