-- ==== Sys2Proof/Machine/Network.lean ====
section
/-!
DEFINITION. The on-die network and the words that use it (10, R196 to R205): RLD, RST, SEND, RECV, NRED, NBC.
-/
namespace Sys2Proof.Machine

/-! ## Routes (R196, R197) -/

/-- The declared die, column and row of a rank's core (R6, R9). -/
def RankPos.die (r : RankPos) : Nat := r.decl / 128

def RankPos.x (r : RankPos) : Nat := r.decl % 16

def RankPos.y (r : RankPos) : Nat := r.decl % 128 / 16

/-- The distance of two numbers. -/
def dist (a b : Nat) : Nat := (a - b) + (b - a)

/-- H (R196). -/
def hopCount (a b : RankPos) : Nat := dist a.x b.x + dist a.y b.y

/-- m (R196). -/
def meshLat (a b : RankPos) : Nat := (if a.die = b.die then 6 else 30) + 2 * hopCount a b

/-- A directed link in the coding of TREC4 (R335): 0 +x, 1 -x, 2 +y, 3 -y. -/
def linkCode (die y x dir : Nat) : Nat := x + 16 * y + 128 * die + 256 * dir

/-- The bridge link at a position. -/
def bridgeCode (r : RankPos) : Nat := linkCode r.die r.y r.x 0 + 1024

/-- A Gramer port as a link. -/
def portCode (port : Nat) : Nat := 2048 + 4096 * port

/-- The links along x from column a to column b. -/
def linksX (die y a b : Nat) : List Nat :=
  (List.range (b - a)).map (fun i => linkCode die y (a + i) 0) ++
    (List.range (a - b)).map fun i => linkCode die y (a - i) 1

/-- The links along y from row a to row b. -/
def linksY (die x a b : Nat) : List Nat :=
  (List.range (b - a)).map (fun i => linkCode die (a + i) x 2) ++
    (List.range (a - b)).map fun i => linkCode die (a - i) x 3

/-- Links taken hop by hop, hop h at `e + 2h`. -/
def hopCycles (e : Nat) (l : List Nat) : List (Nat × Nat) := l.zipIdx.map fun x => (e + 2 * (x.2 + 1), x.1)

/-- The cycles and links of a packet between two cores of one package, from its launch (R196). -/
def route (a b : RankPos) (e : Nat) : List (Nat × Nat) :=
  let path := linksX b.die a.y a.x b.x ++ linksY b.die b.x a.y b.y
  if a.die = b.die then hopCycles e path else (e, bridgeCode a) :: hopCycles (e + 24) path

/-- The cycles and links of a packet that leaves the package by a port (R197): its entry at g. -/
def routeOut (a : RankPos) (port e : Nat) : List (Nat × Nat) :=
  hopCycles e (linksY a.die a.x a.y 0) ++ [(e + 2 * a.y + 2, portCode port)]

/-- The cycles and links of a packet that left a port at `at_` for a core (R197). -/
def routeIn (b : RankPos) (at_ : Nat) : List (Nat × Nat) := hopCycles at_ (linksY b.die b.x 0 b.y)

/-- Link uses of a packet; `arr` is the cycle of the delivery. -/
def linkUses (clk : Clk) (rank : Nat) (own : Own) (arr : Nat) (l : List (Nat × Nat)) : List LinkUse :=
  l.map fun x => ⟨clk, x.1, x.2, rank, own, arr⟩

/-- The links of a packet of the word in hand, delivered at `arr`; cycles are offsets from issue. -/
def State.useLinks (s : State) (rank arr : Nat) (l : List (Nat × Nat)) : State :=
  { s with cur := { s.cur with
      links := s.cur.links ++ linkUses s.cur.clk rank s.own (s.cur.t + arr) (l.map fun x => (s.cur.t + x.1, x.2)) } }

/-! ## Ranks -/

/-- The panel of the issuing context; none for the firmware context. -/
def State.myPanel (s : State) : Option Panel := if s.isFw then none else s.panelOn s.cur.core

/-- The place of a panel's holder rank. -/
def Panel.rank? (p : Panel) (r : Nat) : Option RankPos := p.ranks[r]?

/-- The rank whose core is c on this package, and its place. -/
def Panel.rankAt (p : Panel) (c : Nat) : Option (RankPos × Nat) :=
  p.ranks.zipIdx.find? fun x => x.1.pkg == p.here && x.1.core == c

/-! ## Remote scratchpad access (R199) -/

/-- The checks of RLD and RST: the target on this package, then ALIGN and RANGE; `ok` gets both places, both ranks. -/
def State.remoteOp (s : State) (k : BitVec 5) (a : Word) (n : Nat)
    (ok : RankPos × Nat → RankPos × Nat → State → State) : State :=
  match s.myPanel with
  | none => s.immval
  | some p =>
    let r := (s.rdS k).toNat
    match p.rankAt s.cur.core, p.rank? r with
    | some me, some tg => if tg.pkg = p.here then s.spCheck a n n (ok me (tg, r)) else s.immval
    | _, _ => s.immval

/-- RLD (R199): the bank at p + m, the register at p + 2m + 2. -/
def execRld (p : BitVec 3) (e : Ext) (d k a : BitVec 5) (z : Sz) (o : BitVec 5) (s : State) : Out :=
  .next (s.slotOp p [k, a] fun s =>
    let addr := s.rdS a + word (extInt o e * z.bytes)
    s.remoteOp k addr z.bytes fun me tg s =>
      let m := meshLat me.1 tg.1
      s.holdFor (s.spBusy tg.1.core (addr.toNat / 64)) fun s =>
        ((s.emit m (.rldReq tg.1.core addr.toNat z.bytes m ⟨s.cur.ctx, d⟩)).useLinks me.2 m (route me.1 tg.1 2)).useLinks tg.2
          (2 * m + 2) (route tg.1 me.1 (m + 4)))

/-- RST (R199): performs at p + m. -/
def execRst (p : BitVec 3) (e : Ext) (d k a : BitVec 5) (z : Sz) (o : BitVec 5) (s : State) : Out :=
  .next (s.slotOp p [k, a, d] fun s =>
    let addr := s.rdS a + word (extInt o e * z.bytes)
    s.remoteOp k addr z.bytes fun me tg s =>
      (s.emit (meshLat me.1 tg.1) (.rstReq tg.1.core addr.toNat (natLe z.bytes (s.rdS d).toNat))).useLinks me.2
        (meshLat me.1 tg.1) (route me.1 tg.1 2))

/-! ## Sends and receives (R200, R201) -/

/-- Bits [63:21] and L of Table 10.2. -/
def sendBad (b l : Word) : Bool := b.toNat ≥ 2 ^ 21 || l.toNat < 1 || decide (l.toNat > 4096)

/-- The port field of a peer rank is right (R200). -/
def State.portOk (s : State) (p : Panel) (r : RankPos) (port : Nat) : Bool :=
  if r.pkg = p.here then port == 0 else decide (port < s.gramer) && s.portPeer port == r.pkg

/-- The operand checks of SEND and RECV; `ok` gets the issuing rank, the other rank, the port. -/
def State.sendOp (s : State) (a b c : BitVec 5) (ok : RankPos × Nat → RankPos × Nat → Nat → State → State) : State :=
  let r := fld (s.rdS b).toNat 0 16
  let port := fld (s.rdS b).toNat 16 5
  match s.myPanel with
  | none => s.immval
  | some p =>
    match p.rankAt s.cur.core, p.rank? r with
    | some me, some tg =>
      if sendBad (s.rdS b) (s.rdS c) || !s.portOk p tg port then s.immval
      else s.spCheck (s.rdS a) 64 (64 * (s.rdS c).toNat) (ok me (tg, r) port)
    | _, _ => s.immval

/-- SEND (R201): line i read at p + 1 + i. -/
def execSend (p : BitVec 3) (a b c : BitVec 5) (f : BitVec 3) (s : State) : Out :=
  .next (s.holderOp fun s => s.slotOp p [a, b, c] fun s =>
    s.sendOp a b c fun me tg port s =>
      let n := (s.rdS c).toNat
      if s.me.units.sendEnd > s.cur.t then s.trap (.timing 8 0)
      else
        let m := if me.1.pkg = tg.1.pkg then meshLat me.1 tg.1 else 8 + s.portLat port + 2 * (me.1.y + tg.1.y)
        let s1 := s.emit 1 (.sendRd (s.rdS a).toNat tg.2 f.toNat n 0 m port)
        { s1 with cur := { s1.cur with units := { s1.cur.units with sendEnd := s.cur.t + 1 + n } } })

/-- RECV (R201): the pending bits at p (R84), the slot at p + 1. -/
def execRecv (p : BitVec 3) (a b c : BitVec 5) (f : BitVec 3) (s : State) : Out :=
  .next (s.holderOp fun s => s.slotOp p [a, b, c] fun s =>
    s.sendOp a b c fun _ tg port s =>
      let n := (s.rdS c).toNat
      let ad := (s.rdS a).toNat
      (s.emit 0 (.pendSet (ad / 64) n 1 f.toNat 0)).emit 1 (.arm f.toNat ⟨ad, tg.2, port, n, 0, s.own⟩))

/-! ## Collectives (R203 to R205) -/

/-- A group of ranks: its root and its members. -/
structure Group where
  root : RankPos
  members : List RankPos
  deriving DecidableEq, Repr

/-- The group g0 to g0 + n - 1, where it lies in the panel (R203). -/
def Panel.group? (p : Panel) (g0 n : Nat) : Option Group :=
  if n = 0 ∨ g0 + n > p.ranks.length then none
  else (p.rank? g0).map fun r => ⟨r, (p.ranks.drop g0).take n⟩

/-- D of Table 10.5. -/
def Group.dmax (g : Group) : Nat := g.members.foldl (fun m r => max m (hopCount g.root r)) 0

/-- X of Table 10.5. -/
def Group.twoDies (g : Group) : Bool := g.members.any fun r => r.die != g.root.die

/-- The group lies on several packages. -/
def Group.twoPkgs (g : Group) : Bool := g.members.any fun r => r.pkg != g.root.pkg

/-- LAT of Table 10.5, over the ports that join the group's packages. -/
def State.groupLat (s : State) (p : Panel) (g : Group) : Nat :=
  max (s.maxLat ((List.range s.gramer).filter fun i => s.portPeer i != p.here && g.members.any fun r => r.pkg == s.portPeer i))
    (s.farMax (g.members.map (·.pkg)) false)

/-- NL (Table 10.5). -/
def State.groupNl (s : State) (p : Panel) (g : Group) : Nat :=
  if g.twoPkgs then 1072 + s.groupLat p g + 2 * g.dmax
  else 1040 + 2 * g.dmax + (if g.twoDies then 24 else 0)

/-- MB (Table 10.5). -/
def State.groupMb (s : State) (p : Panel) (g : Group) : Nat :=
  if g.twoPkgs then 40 + s.groupLat p g + 2 * g.dmax
  else 8 + 2 * g.dmax + (if g.twoDies then 24 else 0)

/-- A collective: the group of `b` and `f`, the word's own checks `chk`, TIMING while the core's previous one runs, the check of the
members at p + 1. The kind of that TIMING has no statement (log 17). -/
def State.collOp (s : State) (b : BitVec 5) (f : BitVec 7) (sc : Word) (chk : State → (State → State) → State)
    (ok : Panel → Group → State → State) : State :=
  let g0 := (s.rdS b).toNat
  match s.myPanel with
  | none => s.immval
  | some p =>
    match p.group? g0 f.toNat with
    | none => s.immval
    | some g =>
      if g0 ≥ 2 ^ 16 then s.immval
      else chk s fun s =>
        if s.me.units.collEnd > s.cur.t then s.trap (.timing (Config.collKind.toNat % 8 + 1) Config.collDetail)
        else ok p g (s.emit 1 (.collCheck g0 f.toNat (s.rdS b, sc)))

/-- The trained port that joins this package to another one (R203, R331). -/
def State.collPort (s : State) (pkg : Nat) : Nat :=
  ((List.range s.gramer).find? fun i => s.portLat i != 0 && s.portPeer i == pkg).getD 0

/-- The core's collective of `len` rows or lines runs to the offset n. -/
def State.collUntil (s : State) (n len : Nat) : State :=
  { s with cur := { s.cur with units := { s.cur.units with
      collEnd := s.cur.t + n + 1, collWord := s.cur.word, collFrom := s.cur.t, collLen := len } } }

/-- NRED (R204): the root reads every member of this package; a member whose root lies elsewhere sends its rows. -/
def execNred (p : BitVec 3) (n : BitVec 2) (b : BitVec 5) (f : BitVec 7) (s : State) : Out :=
  .next (s.holderOp fun s => s.slotOp p [b] fun s =>
    s.collOp b f 0 (fun s k => if s.me.accSpilled n.toNat then s.trap (.illegal 18 0) else k s) fun pn g s =>
      let nl := s.groupNl pn g
      let isRoot := g.root.pkg == pn.here && g.root.core == s.cur.core
      let an := (s.me.accum n.toNat).anchor
      let mine := if isRoot then (g.members.filter fun r => r.pkg == pn.here).map (·.core) else [s.cur.core]
      let bad := mine.filter fun c => ((s.core c).accum n.toNat).anchor != an
      let away := if isRoot then
          (g.members.zipIdx.filter fun x => x.1.pkg != pn.here).map fun x => (s.rdS b).toNat + x.2
        else []
      let s1 := if isRoot || g.root.pkg != pn.here then
          s.emit 1 (.nredRd n.toNat (s.rdS b).toNat 0 mine bad an []) else s
      let s2 := if isRoot then (s1.emit nl (.nredLink n.toNat)).emitLate nl (.wNred n.toNat (s.rdS b).toNat an [] away) else s1
      s2.collUntil nl 64)

/-- NBC (R205): the root reads line i at p + 1 + i; the other members set their pending bits at p (R84). -/
def execNbc (p : BitVec 3) (a b c : BitVec 5) (f : BitVec 7) (s : State) : Out :=
  .next (s.holderOp fun s => s.slotOp p [a, b, c] fun s =>
    let l := (s.rdS c).toNat
    if l < 1 ∨ l > 4096 then s.immval
    else s.collOp b f (s.rdS c) (fun s k => s.spCheck (s.rdS a) 64 (64 * l) k) fun pn g s =>
      let mb := s.groupMb pn g
      let ad := (s.rdS a).toNat
      let isRoot := g.root.pkg == pn.here && g.root.core == s.cur.core
      let s1 :=
        if isRoot then s.emit 1 (.nbcRd ad (s.rdS b).toNat f.toNat l 0 mb)
        else
          let s2 := s.emit 0 (.pendSet (ad / 64) l 1 Config.nbcIndex 0)
          if g.root.pkg = pn.here then s2
          else s2.emit (1 + mb) (.nbcExpect ad l 0
            (s.collPort g.root.pkg))
      s1.collUntil (l + mb) l)

end Sys2Proof.Machine
end

