-- ==== Sys2Proof/Machine/Copy.lean ====
section
/-!
DEFINITION. The access processors (05): copy entries, their start, lines, prefetch and write-backs; late warnings; CPY and PGREQ; DISCARD.
-/
namespace Sys2Proof.Machine

/-! ## Entries (R68, R69) -/

/-- A copy entry from its 256 bits (Table 5.1). -/
def CopyEntry.ofNat (n : Nat) : CopyEntry :=
  { stg := fld n 0 8, chan := fld n 8 2, rate := fld n 10 2, srck := fld n 12 2, dstk := fld n 14 2, rbm := bt n 16,
    sh := fld n 20 4, dh := fld n 24 4, dgrp := fld n 28 4, lines := fld n 32 16 + 1, delay := fld n 48 16,
    dmask := fld n 64 16, portc := fld n 80 4, soff := fld n 96 32, doff := fld n 128 32, rbma := fld n 160 32 }

/-- Reserved bits of an entry that are not 0 (Table 5.2, reason 1). -/
def entryReserved (n : Nat) : Bool := fld n 17 3 != 0 || fld n 84 12 != 0 || n / 2 ^ 192 != 0

/-- Cores named by position: those of DMASK for scratchpad destinations, the port core otherwise (R381). -/
def CopyEntry.named (e : CopyEntry) : List Nat :=
  if e.dstk = 0 then ((List.range 16).filter fun k => bt e.dmask k).map (16 * e.dgrp + ·) else [16 * e.dgrp + e.portc]

/-- Every core an entry refers to. -/
def CopyEntry.refs (e : CopyEntry) : List Nat := e.named ++ (if e.srck = 0 then [] else [16 * e.dgrp + e.portc])

/-- Reason 7 of Table 5.2: a scratchpad range or bitmap beyond 320 KiB, or an offset that is no multiple of 64. -/
def CopyEntry.rangeBad (e : CopyEntry) : Bool :=
  e.soff % 64 != 0 || e.doff % 64 != 0 || e.rbma % 64 != 0 || (e.srck == 2 && decide (e.soff + 64 * e.lines > spSize))
    || (e.dstk == 0 && decide (e.doff + 64 * e.lines > spSize)) || (e.rbm && decide (e.rbma + (e.lines + 7) / 8 > spSize))

/-- The lowest reason of Table 5.2 but 2 and 8 that an entry breaks. `shape` gives declared package and core of each rank of a panel, none
for a context without one; `untimed` is the core of an untimed CPY, in the numbering of the entry. -/
def entryReason (n : Nat) (shape : Option (List (Nat × Nat))) (hedge : Bool) (untimed : Option Nat) (stgBad : Bool) : Option Nat :=
  let e := CopyEntry.ofNat n
  let outside : Bool := match shape with
    | none => false
    | some l => e.refs.any (fun c => !l.any fun r => r.2 == c) ||
        (hedge && !(l.map (·.1)).eraseDups.any fun k => e.named.all fun c => l.contains (k, c))
  if entryReserved n then some 1
  else if stgBad then some 2
  else if e.rate = 3 ∨ e.srck = 3 ∨ e.dstk = 3 then some 3
  else if (e.srck = 1 ∧ e.dstk = 1) ∨ (e.srck = 0 ∧ e.dstk = 2) ∨ (e.srck = 2 ∧ e.dstk = 0 ∧ bt e.dmask e.portc) then some 4
  else if e.rate ≠ 0 ∧ (e.srck = 1 ∨ e.dstk = 1) then some 5
  else if (e.dstk = 0 ∧ e.dmask = 0) ∨ outside then some 6
  else if e.rangeBad then some 7
  else if hedge ∧ (e.srck = 0 ∨ e.dstk = 2) ∧ e.delay < 1024 then some 9
  else match untimed with
    | none => none
    | some c => if e.dstk = 0 ∧ (e.dgrp ≠ c / 16 ∨ e.dmask ≠ 2 ^ (c % 16)) then some 10 else none

/-- An entry of a panel placed by (dx, dy) (R68). -/
def CopyEntry.place (e : CopyEntry) (dx dy : Int) : CopyEntry :=
  { e with
    dgrp := ((e.dgrp + dy) % 16).toNat
    dmask := if dx ≥ 0 then e.dmask * 2 ^ dx.toNat % 2 ^ 16 else e.dmask / 2 ^ (-dx).toNat
    portc := ((e.portc + dx) % 16).toNat }

/-! ## Copies -/

/-- The copy of a number. -/
def State.copy? (s : State) (id : Nat) : Option CopyRun := s.copies.find? fun c => c.id == id

def State.updCopy (s : State) (id : Nat) (f : CopyRun → CopyRun) : State :=
  { s with copies := s.copies.map fun c => if c.id = id then f c else c }

/-- Lines a cycle (R72). -/
def CopyRun.width (r : CopyRun) : Nat := 2 ^ r.e.rate

/-- The port core, and the cores that receive (package core indexes). -/
def CopyRun.portCore (r : CopyRun) : Nat := 16 * r.ap + r.e.portc

def CopyRun.dcores (r : CopyRun) : List Nat := ((List.range 16).filter fun k => bt r.e.dmask k).map (16 * r.ap + ·)

/-- The cores whose CPSTAT an entry marks (log 23): those it writes, or its port core. -/
def CopyRun.cores (r : CopyRun) : List Nat :=
  if r.node.isSome then [] else if r.e.dstk = 0 then r.dcores else [r.portCore]

/-- What a line's page allows (R60, R62): 0 its data, 1 not resident, 2 revoked or invalid; a write without W counts as invalid (log 130). -/
def lineState (h : Handle) (o : Nat) (wr : Bool) : Nat :=
  let pg := o / 65536
  if !h.v || !spanBit h.valid pg || (wr && !h.w) then 2
  else if !h.sp && !spanBit h.res pg then 1 else 0

/-- The state of a line's source and of its destination. -/
def CopyRun.srcState (r : CopyRun) (i : Nat) : Nat := if r.e.srck = 2 then 0 else lineState r.sH (r.e.soff + 64 * i) false

def CopyRun.dstState (r : CopyRun) (i : Nat) : Nat := if r.e.dstk = 0 then 0 else lineState r.dH (r.e.doff + 64 * i) true

/-- The cycle of line i's source read; for an HBM4E source, of its departure from the staging buffer (R72, R80). -/
def CopyRun.readAt (r : CopyRun) (i : Nat) : Nat :=
  r.start.getD 0 + i / r.width + (if r.cpy && r.timed && r.e.srck == 0 then 512 else 0)

/-- The landing or presentation cycle of line i (R72). -/
def CopyRun.landAt (r : CopyRun) (i : Nat) : Nat := r.start.getD 0 + r.srcLat + r.dstLat + i / r.width

/-- The cycle of the copy's first request to a memory controller or to the latent store (R62): its start, or the first write of what it has
read from a scratchpad. -/
def CopyRun.firstAt (r : CopyRun) : Nat :=
  if r.e.srck = 2 ∧ r.e.dstk ≠ 0 then r.start.getD 0 + r.srcLat + (if r.e.dstk = 2 then 4 else 0) else r.start.getD 0

/-- The last landing or presentation. -/
def CopyRun.lastAt (r : CopyRun) : Nat := r.landAt (r.e.lines - 1)

/-- Lines of the residency bitmap (R74). -/
def CopyRun.mapLines (r : CopyRun) : Nat := if r.e.rbm then ((r.e.lines + 7) / 8 + 63) / 64 else 0

/-- The lines of a cycle by an offset function. -/
def CopyRun.linesAt (r : CopyRun) (base t : Nat) : List Nat :=
  if t < base then []
  else ((List.range r.width).map fun k => (t - base) * r.width + k).filter (· < r.e.lines)

/-- The start cycle (R71): the first cycle from rel + DELAY that the port core's phase rule allows. -/
def State.startOf (s : State) (r : CopyRun) (rel : Nat) : Nat :=
  let c := match r.pid.bind s.panel? with
    | some p => (match p.rankAt r.portCore with | some x => x.1.decl % 128 | none => r.portCore % 128)
    | none => r.portCore % 128
  let own := fun (h : Handle) (o : Nat) => (handlePlace h o).die == r.ap / 8
  let ok := fun t =>
    (r.e.srck != 1 || phaseOk (handlePlace r.sH r.e.soff).line c t 0 (own r.sH r.e.soff))
      && (r.e.dstk != 1 || phaseOk (handlePlace r.dH r.e.doff).line c (t + r.srcLat) 64 (own r.dH r.e.doff))
  let t0 := rel + r.e.delay
  match (List.range 128).find? fun k => ok (t0 + k) with
  | some k => t0 + k
  | none => t0

/-- Entries of stage `g` released at `rel`, and those that open with it (R70, R76). -/
def State.releaseStage (s : State) (pid g rel : Nat) : State :=
  { s with copies := s.copies.map fun c =>
      if c.pid != some pid || c.cpy || c.done then c
      else
        let c := if g + c.hor ≥ c.e.stg then { c with opened := true } else c
        if c.e.stg = g then { c with rel := some rel, start := some (s.startOf c rel) } else c }

/-- Sticky bits of CPSTAT of some cores. -/
def State.markCp (s : State) (cores : List Nat) (bits : Nat) : State :=
  if bits = 0 then s else cores.foldl (fun s c => s.updCore c fun x => { x with cpstat := x.cpstat ||| BitVec.ofNat 64 bits }) s

/-- The reporting scope of a copy's writes for a context of a core (Table 9.6). -/
def CopyRun.scope (r : CopyRun) (core : Nat) : Nat :=
  if !r.timed then 2
  else match r.e.dstk with
    | 0 => 2
    | 1 => if (handlePlace r.dH r.e.doff).die = dieOf core then 3 else 4
    | _ => 4

/-- The contexts whose FENCEs count a copy (R180): every holder strand of its panel, or the one that issued it. -/
def State.copyCtxs (s : State) (r : CopyRun) : List (Nat × Nat) :=
  if r.cpy then [(r.own.core, r.own.ctx)]
  else match r.pid.bind s.panel? with
    | some p => (p.ranks.filter fun k => k.pkg == p.here).map fun k => (k.core, 0)
    | none => []

/-- A failed or poisoned write recorded for the FENCEs to come (R180). -/
def State.noteFail (s : State) (r : CopyRun) (f : FailedWrite) : State :=
  (s.copyCtxs r).foldl (fun s k => s.updCtx k.1 k.2 fun x =>
    { x with failed := x.failed ++ [{ f with scope := r.scope k.1, at_ := if r.cpy then r.own.issue else (r.rel.getD 0 : Int) - 1 }] }) s

/-- What the pages of the lines mean to a copy whose access processor first looks at them (R60, R62, R74): the lines of pages that are not
resident, and the count of lines refused. -/
def State.copySnap (s : State) (r : CopyRun) : State :=
  let ls := List.range r.e.lines
  s.updCopy r.id fun c => { c with
    flags := ls.filter fun i => r.srcState i == 1 || r.dstState i == 1
    failed := (ls.filter fun i => r.dstState i != 0).length
    revS := ls.any fun i => r.srcState i == 2
    revD := ls.any fun i => r.dstState i == 2
    begun := true }

/-- The same as reported at the start of the copy: CPSTAT, and the refused lines for the FENCEs to come. -/
def State.copyReport (s : State) (r : CopyRun) : State :=
  let s1 := s.markCp r.cores ((if r.revS || r.revD then csREVD else 0) + (if r.flags.isEmpty then 0 else csZERO))
  if r.failed = 0 then s1 else s1.noteFail r ⟨0, 0, r.failed, false, true, false⟩

/-- A copy looked at and reported. -/
def State.copyFlags (s : State) (r : CopyRun) : State :=
  let s1 := if r.begun then s else s.copySnap r
  match s1.copy? r.id with
  | some c => s1.copyReport c
  | none => s1

/-- The owner of what a copy does. -/
def CopyRun.owner (r : CopyRun) (core : Nat) : Own := if r.cpy then r.own else Own.none core

/-- An action of a copy in its panel's time. -/
def State.pendCopy (s : State) (r : CopyRun) (core due : Nat) (a : Act) : State :=
  match r.pid with
  | some p => { s with pend := s.pend ++ [⟨.panel p, due, false, r.owner core, a⟩] }
  | none => s

/-- The bytes of the residency bitmap (R74). -/
def bitmapBytes (n : Nat) (flags : List Nat) : List Byte :=
  (List.range ((n + 7) / 8)).map fun k =>
    BitVec.ofNat 8 ((List.range 8).foldl (fun m j => m + if flags.contains (8 * k + j) then 2 ^ j else 0) 0)

/-- The bitmap lines of a copy, k-th line and its bytes. -/
def mapPieces (bs : List Byte) : Nat → List (List Byte)
  | 0 => []
  | k + 1 => bs.take 64 :: mapPieces (bs.drop 64) k

/-- A copy's channel is held by another (R73). -/
def State.chanHeld (s : State) (r : CopyRun) (t : Nat) : Bool :=
  s.chans.any fun x => x.1 == r.ap && x.2.1 == r.e.chan &&
    (if some x.2.2.1 = r.pid then decide (x.2.2.2 ≥ t)
     else match s.panel? x.2.2.1 with
       | some p => (p.st == .running || p.st == .ended) && decide (x.2.2.2 ≥ p.pcyc)
       | none => false)

/-- The first request of a copy (R62, R74): its pages are looked at, if they have not been, and what they mean is reported; its bitmap is
scheduled. -/
def State.firstLook (s : State) (r : CopyRun) : State :=
  let s1 := s.copyFlags r
  let fl := match s1.copy? r.id with | some c => c.flags | none => []
  (mapPieces (bitmapBytes r.e.lines fl) r.mapLines).zipIdx.foldl (fun s x => r.cores.foldl (fun s c =>
    s.pendCopy r c (r.lastAt + 1 + x.2) (.land c (r.e.rbma + 64 * x.2) x.1 false .map)) s) s1

/-- COPY_ENTRY_START (R71, R73, R84): at its start cycle an entry takes its channel and sets the pending bits. -/
def State.beginCopy (s : State) (r : CopyRun) : State :=
  match r.pid, r.start with
  | some pid, some t =>
    if s.chanHeld r t then
      let k := TrapKind.timing 1 (BitVec.ofNat 64 (r.ap + 16 * r.e.chan))
      let s1 := s.updCopy r.id fun c => { c with done := true }
      if r.cpy then s1.foundBy r.own k
      else
        let core := r.cores.headD r.portCore
        s1.found core 0 (s1.noOwner core 0 k)
    else
      let s1 : State := { s with chans := s.chans ++ [(r.ap, r.e.chan, pid, r.lastAt)] }
      let s2 := match s.panel? pid with
        | some p =>
          if p.erchk && r.e.dstk == 0 then
            r.dcores.foldl (fun s c => s.updCore c fun x =>
              { x with spPend := (List.range r.e.lines).foldl (fun m i =>
                  spPut none m (r.e.doff / 64 + i) (some (0, r.idx, r.ap))) x.spPend }) s1
          else s1
        | none => s1
      if r.firstAt = t then s2.firstLook r else s2
  | _, _ => s

/-! ## Lines (R72, R75, R77) -/

/-- A line of zeros. -/
def zeroLine : Line := ⟨0, false, false⟩

/-- A line read, on its way to its destination (R72). -/
def State.sendLine (s : State) (r : CopyRun) (i : Nat) (l : Line) : State :=
  let t := r.landAt i
  let s := if l.poison && r.e.dstk != 2 then s.noteFail r ⟨0, 0, 0, false, false, true⟩ else s
  match r.e.dstk with
  | 0 => r.dcores.foldl (fun s c => s.pendCopy r c t (.land c (r.e.doff + 64 * i) (lineBytes l.data) l.poison .ap)) s
  | 1 =>
    if r.dstState i ≠ 0 then s
    else s.pendCopy r r.portCore t (.lsLand (handlePlace r.dH (r.e.doff + 64 * i)) (lineBytes l.data) l.poison r.id)
  | _ => if r.dstState i ≠ 0 then s else s.updCopy r.id fun c => { c with moved := spPut none c.moved i (some l) }

/-- A write of one line of a unit laid over that line (R77). -/
def overlay (half : Bool) (l : Line) (q : HbmReq) : Line :=
  let m := if half then q.mask.extractLsb' 64 64 else q.mask.extractLsb' 0 64
  if m = 0 then l else if half then q.l1 else q.l0

/-- The write is a write-back of a panel. -/
def State.wbOf (s : State) (pid : Option Nat) (q : HbmReq) : Bool :=
  match q.use with
  | .copyWrite w _ _ => q.write && (match s.copy? w with | some c => c.timed && c.pid == pid | none => false)
  | _ => false

/-- A line as the write-backs of a panel leave it that were presented before a cycle and have not performed (R77): those that are
admitted, then those that wait. -/
def State.withWrites (s : State) (pid : Option Nat) (before : Int) (addr : Nat) (l : Line) : Line :=
  let mine := fun (q : HbmReq) => s.wbOf pid q && q.addr == addr / 128 * 128 && decide (q.asked < before)
  ((s.reqs.filter fun q => mine q && !q.performed) ++ s.wbq.filter mine).foldl (overlay (addr % 128 == 64)) l

/-- Line i departs from the staging buffer or is read from the latent store or the scratchpad. -/
def State.moveLine (s : State) (r : CopyRun) (i : Nat) : State :=
  let s := s.updCopy r.id fun c => { c with sent := i + 1 }
  if r.srcState i ≠ 0 then s.sendLine r i zeroLine
  else match r.e.srck with
    | 0 =>
      let l := (spGet none r.staged i).getD zeroLine
      (s.updCopy r.id fun c => { c with staged := spPut none c.staged i none }).sendLine r i
        (if r.cpy then l else s.withWrites r.pid s.scyc (handleAddr r.sH (r.e.soff + 64 * i)) l)
    | 1 =>
      let p := handlePlace r.sH (r.e.soff + 64 * i)
      s.sendLine r i ⟨lineOf (s.lsBytes p 64), s.lsTag p, false⟩
    | _ =>
      let c := s.core r.portCore
      let a := r.e.soff + 64 * i
      s.sendLine r i ⟨lineOf (bytesAt c.sp a 64), spGet false c.spPoison (a / 64), false⟩

/-- The lines of a scratchpad source that are read in cycle t, as requester 11: core, address, line. -/
def CopyRun.spReads (r : CopyRun) (t : Nat) : List (Nat × Nat × Nat) :=
  if r.e.srck = 2 ∧ r.start.isSome ∧ !r.done then
    (r.linesAt (r.start.getD 0) t).map fun i => (r.portCore, r.e.soff + 64 * i, i)
  else []

/-- A timed copy of a panel that has started. -/
def CopyRun.live (r : CopyRun) (pid : Nat) : Bool := r.timed && r.pid == some pid && r.start.isSome && !r.done

/-- The running panel of a copy, with its present cycle. -/
def State.copyPanel (s : State) (r : CopyRun) : Option Panel :=
  (r.pid.bind s.panel?).filter fun p => p.st == .running || p.st == .ended

/-- A copy started, once, in its start cycle; its first request, where that comes later. -/
def State.startCopy (s : State) (id : Nat) : State :=
  match s.copy? id with
  | none => s
  | some r =>
    match s.copyPanel r with
    | none => s
    | some p =>
      if r.live p.pid && !r.started && r.start == some p.pcyc then
        let s1 := s.updCopy id fun c => { c with started := true }
        match s1.copy? id with | some c => s1.beginCopy c | none => s1
      else if r.live p.pid && r.started && r.firstAt != r.start.getD 0 && r.firstAt == p.pcyc && !r.begun then s.firstLook r
      else s

/-- COPY_ENTRY_START (R71). -/
def execCopyEntryStart (run : Nat) (s : State) : Out := .next (s.startCopy run)

/-- A line moved, once, in its cycle, in order. -/
def State.transferLine (s : State) (id line : Nat) : State :=
  match s.copy? id with
  | none => s
  | some r =>
    match s.copyPanel r with
    | none => s
    | some p =>
      if r.live p.pid && r.sent == line && (r.linesAt (r.readAt 0) p.pcyc).contains line then s.moveLine r line else s

/-- COPY_LINE_TRANSFER (R72). -/
def execCopyLineTransfer (run line : Nat) (s : State) : Out := .next (s.transferLine run line)

/-- The copies of a panel that start in PCYC t, or whose first request comes in it. -/
def State.startCopies (s : State) (pid t : Nat) : State :=
  (s.copies.filter fun r => r.live pid && (r.start == some t || r.firstAt == t)).foldl (fun s r => s.startCopy r.id) s

/-- The lines of a panel's copies that depart from staging or are read from the latent store in PCYC t. -/
def State.moveLines (s : State) (pid t : Nat) : State :=
  (s.copies.filter fun r => r.live pid && r.e.srck != 2).foldl (fun s r =>
    (r.linesAt (r.readAt 0) t).foldl (fun s i => s.transferLine r.id i) s) s

/-! ## Prefetch (R76) -/

/-- The HBM4E address of source line i. -/
def CopyRun.srcAddr (r : CopyRun) (i : Nat) : Nat := handleAddr r.sH (r.e.soff + 64 * i)

def CopyRun.dstAddr (r : CopyRun) (i : Nat) : Nat := handleAddr r.dH (r.e.doff + 64 * i)

/-- A timed copy. -/
def State.isTimed (s : State) (id : Nat) : Bool := match s.copy? id with | some c => c.timed | none => false

/-- Staging lines of an access processor in use or on their way. -/
def State.stagingUsed (s : State) (ap : Nat) : Nat :=
  let held := (s.copies.filter fun c => c.ap == ap && c.timed).foldl (fun n c => n + c.staged.length) 0
  s.reqs.foldl (fun n r => match r.use with | .copyRead c _ k => if r.ap = ap ∧ s.isTimed c then n + k else n | _ => n) held

/-- The panel's clock, for a copy of a panel that runs or is to start. -/
def State.copyNow (s : State) (r : CopyRun) : Nat := match r.pid.bind s.panel? with | some p => p.pcyc | none => 0

/-- The next source line to be read: one whose page gives data. -/
def CopyRun.nextRead (r : CopyRun) : Option Nat :=
  (List.range r.e.lines).find? fun i => decide (r.nreq ≤ i) && r.srcState i == 0

/-- The copy's panel runs or is to start. -/
def State.copyOn (s : State) (r : CopyRun) : Bool :=
  match r.pid.bind s.panel? with | some p => p.st == .placed || p.st == .running || p.st == .ended | none => false

/-- A copy that has a source read to present (R76); a timed CPY's come at their cycles, in which its panel runs and does not stand still (R80,
R325). One that was refused is presented again in the next cycle (log 97). -/
def State.wantsRead (s : State) (r : CopyRun) : Bool :=
  r.timed && r.e.srck == 0 && !r.done && r.opened && r.tried != s.scyc + 1 && s.copyOn r
    && (match r.nextRead with
      | some i => !r.cpy || (match s.copyPanel r with
        | some p => !p.frozen && decide (p.pcyc ≥ r.start.getD 0 + i / r.width)
        | none => false)
      | none => false)

/-- The lines of a copy whose write-backs are to be presented in this cycle (R72). -/
def State.dueWrites (s : State) (r : CopyRun) : List Nat :=
  match r.pid.bind s.panel? with
  | some p =>
    if (p.st == .running || p.st == .ended) && !p.frozen then
      (r.moved.filter fun e => decide (r.landAt e.1 ≤ p.pcyc)).map (·.1)
    else []
  | none => []

/-- The units of those write-backs. -/
def State.dueUnits (s : State) (r : CopyRun) : Nat :=
  let l := s.dueWrites r
  (l.filter fun i => !(decide (0 < i) && l.contains (i - 1) && handleAddr r.dH (r.e.doff + 64 * (i - 1)) % 128 == 0
    && handleAddr r.dH (r.e.doff + 64 * i) == handleAddr r.dH (r.e.doff + 64 * (i - 1)) + 64)).length

/-- Write-back units of a channel that this cycle still has to present. -/
def State.dueOn (s : State) (ap ch : Nat) : Nat :=
  (s.copies.filter fun r => r.ap == ap && r.e.chan == ch && r.e.dstk == 2).foldl (fun n r => n + s.dueUnits r) 0

/-- The write-backs to be presented again in this frame start (R79): the oldest of each tenant and pseudo-channel, not tried yet. -/
def State.retries (s : State) : List HbmReq :=
  if s.scyc % 320 ≠ 0 then []
  else (s.wbq.zipIdx.filter fun x => !x.1.performed
    && !(s.wbq.take x.2).any fun q => q.who == x.1.who && q.pch == x.1.pch).map (·.1)

/-- A channel has room for one more source read in this cycle, beside the writes that it has to present (R76, log 97). -/
def State.readRoom (s : State) (ap ch : Nat) : Bool :=
  decide (s.unitsOf ap ch + s.dueOn ap ch + (s.retries.filter fun q => q.ap == ap && q.chan == ch).length < 2)

/-- The frames' owner of a copy: its tenant's slot code, or 0x11. -/
def CopyRun.who (r : CopyRun) : Nat := if r.fw then 0x11 else r.tenant

/-- The source lines from i on that lie in one unit. -/
def CopyRun.unitLines (r : CopyRun) (i : Nat) : Nat :=
  if i + 1 < r.e.lines ∧ r.srcState (i + 1) = 0 ∧ r.srcAddr i % 128 = 0 ∧ r.srcAddr (i + 1) = r.srcAddr i + 64 then 2 else 1

/-- The byte mask of `n` lines of a unit from an address on. -/
def unitMask (addr n : Nat) : BitVec 128 :=
  BitVec.ofNat 128 (if n = 2 then 2 ^ 128 - 1 else if addr % 128 = 0 then 2 ^ 64 - 1 else (2 ^ 64 - 1) * 2 ^ 64)

/-- PREFETCH_READ_PRESENT (R76): the next unit of a copy's source is presented, where the channel and the staging buffer have room, or its
first line where they have room for one; the copy has then begun (R62). The lines of one unit come by one presentation (log 132). -/
def execPrefetchReadPresent (run : Nat) (s : State) : Out :=
  .next (match s.copy? run with
    | none => s
    | some r =>
      match r.nextRead with
      | none => s
      | some i =>
        if !s.wantsRead r || !s.readRoom r.ap r.e.chan then s
        else
          let n := if s.stagingUsed r.ap + 2 > 16384 then 1 else r.unitLines i
          if s.stagingUsed r.ap + n > 16384 then s.updCopy run fun c => { c with tried := s.scyc + 1 }
          else
            let s0 := if r.begun then s else s.copySnap r
            let q := s0.unitReq r.who r.ap r.e.chan (r.srcAddr i) false (unitMask (r.srcAddr i) n) zeroLine zeroLine
              (.copyRead run i n)
            let a := (s0.useUnit r.ap r.e.chan).presentReq q
            if a.2 then a.1.updCopy run fun c => { c with nreq := i + n }
            else a.1.updCopy run fun c => { c with tried := s.scyc + 1 })

/-- The first copy that may present a source read now: by access processor, in schedule order within a channel (R38, R76, log 97). -/
def State.nextPrefetch (s : State) : Option Nat :=
  let ready := s.copies.filter fun r => s.wantsRead r && s.readRoom r.ap r.e.chan
  let first := ready.filter fun r => !s.copies.any fun q =>
    q.id < r.id && q.ap == r.ap && q.e.chan == r.e.chan && q.timed && q.e.srck == 0 && !q.done && q.opened
      && q.nextRead.isSome && q.tried == s.scyc + 1
  ((List.range 16).findSome? fun ap => first.find? fun r => r.ap == ap).map (·.id)

/-! ## Write-backs (R72, R79) -/

/-- Write-back lines of an access processor presented and not performed. -/
def State.wbUsed (s : State) (ap : Nat) : Nat :=
  let f := fun n (r : HbmReq) => match r.use with | .copyWrite c _ k => if r.ap = ap ∧ s.isTimed c then n + k else n | _ => n
  s.wbq.foldl f ((s.reqs.filter fun r => !r.performed).foldl f 0)

/-- A write-back that waits holds back later ones of its tenant to its pseudo-channel (R79). -/
def State.heldBack (s : State) (r : HbmReq) : Bool := s.wbq.any fun q => q.who == r.who && q.pch == r.pch

/-- A panel has been placed again after its save and has not issued since (R279, R347). -/
def State.toResume (s : State) (pid : Option Nat) : Bool :=
  match pid.bind s.panel? with
  | some p => p.fresh || (p.st == .placed && s.saved.any fun v => v.panel.pid == p.pid)
  | none => false

/-- A line written in HBM4E replaces the copies of it that source lines read before hold: those of the writer's panel (R77), and of panels
that are to resume (R279). -/
def State.forward (s : State) (pid : Option Nat) (addr : Nat) (l : Line) : State :=
  let mine := fun (c : CopyRun) => c.timed && !c.cpy && c.e.srck == 0 && !c.done && ((pid.isSome && c.pid == pid) || s.toResume c.pid)
  { s with
    copies := s.copies.map fun c => if mine c then
      { c with staged := c.staged.map fun e => if c.srcAddr e.1 = addr then (e.1, some l) else e } else c
    reqs := s.reqs.map fun q => match q.use with
      | .copyRead run _ _ =>
        if q.performed && q.addr == addr / 128 * 128 && (match s.copy? run with | some c => mine c | none => false) then
          (if addr % 128 = 0 then { q with l0 := l } else { q with l1 := l })
        else q
      | _ => q }

/-- WRITEBACK_PRESENT (R72): line `line` of a copy, with the next one where both lie in one unit and are due together. It waits for a frame
start when the channel has presented its two units, when an earlier one of its tenant and pseudo-channel waits, or when it is refused
(R76, R79). -/
def execWritebackPresent (run line : Nat) (s : State) : Out :=
  .next (match s.copy? run with
    | none => s
    | some r =>
      match spGet none r.moved line with
      | none => s
      | some l =>
        let a := r.dstAddr line
        let next := if a % 128 = 0 ∧ r.landAt (line + 1) = r.landAt line ∧ r.dstAddr (line + 1) = a + 64
          then spGet none r.moved (line + 1) else none
        let n := if next.isSome then 2 else 1
        let l1 := next.getD zeroLine
        let q := s.unitReq r.who r.ap r.e.chan a true (unitMask a n) (if a % 128 = 0 then l else zeroLine)
          (if a % 128 = 0 then l1 else l) (.copyWrite run line n)
        let s1 := s.updCopy run fun c => { c with
          moved := (if n = 2 then spPut none (spPut none c.moved line none) (line + 1) none else spPut none c.moved line none) }
        let s2 := if l.poison || l1.poison then s1.noteFail r ⟨0, 0, 0, false, false, true⟩ else s1
        let wait := fun (s : State) => { s with wbq := s.wbq ++ [{ q with id := s.nextId }], nextId := s.nextId + 1 }
        if s2.heldBack q || decide (s2.unitsOf r.ap r.e.chan ≥ 2) then wait s2
        else
          let t := (s2.useUnit r.ap r.e.chan).presentReq q
          if t.2 then t.1 else wait t.1)

/-- WRITEBACK_RETRY (R79): a waiting write-back is presented again. -/
def execWritebackRetry (id : Nat) (s : State) : Out :=
  .next (match s.wbq.find? fun r => r.id == id with
    | none => s
    | some r =>
      let s0 := s.useUnit r.ap r.chan
      let a := { s0 with wbq := s0.wbq.filter fun q => q.id != id }.presentReq { r with performed := false }
      if a.2 then a.1
      else { s0 with wbq := s0.wbq.map fun q => if q.id = id then { q with performed := true } else q })

/-- The write to be presented now: by access processor, those that wait before the new ones, which are in issue order (R38, R79). -/
def State.nextWrite (s : State) : Option (Nat ⊕ (Nat × Nat)) :=
  let again := s.retries
  (List.range 16).findSome? fun ap =>
    match again.find? fun q => q.ap == ap && decide (s.unitsOf ap q.chan + s.dueOn ap q.chan < 2) with
    | some q => some (.inl q.id)
    | none => (s.copies.filter fun r => r.ap == ap && r.e.dstk == 2).findSome? fun r =>
      (s.dueWrites r).head?.map fun i => .inr (r.id, i)

/-! ## DISCARD (R83) -/

/-- The lines of a request whose whole blocks lie in a range. -/
def HbmReq.cut (r : HbmReq) (lo hi : Nat) : BitVec 128 :=
  let in_ := fun a => decide (lo ≤ a) && decide (a + 64 ≤ hi)
  r.mask &&& ~~~ ((if in_ r.addr then unitMask 0 1 else 0) ||| (if in_ (r.addr + 64) then unitMask 64 1 else 0))

/-- DISCARD at d: the write-backs of a space presented by now and performing later are cancelled in whole blocks. -/
def State.discard (s : State) (space lo hi : Nat) : State :=
  let who := if space = fwSpace then 0x11 else space
  let hit := fun (r : HbmReq) => r.write && r.who == who && r.cut lo hi != r.mask &&
    (match r.use with | .copyWrite _ _ _ => true | _ => false)
  let lines := fun (r : HbmReq) => (if r.mask.extractLsb' 0 64 != (r.cut lo hi).extractLsb' 0 64 then 1 else 0)
    + (if r.mask.extractLsb' 64 64 != (r.cut lo hi).extractLsb' 64 64 then 1 else 0)
  let cutReq := fun (r : HbmReq) =>
    let m := r.cut lo hi
    { r with mask := m, use := if m = 0 then .dropped else (match r.use with
        | .copyWrite run i n => .copyWrite run i (n - lines r) | u => u) }
  let hits := (s.reqs.filter fun r => hit r && !r.performed) ++ s.wbq.filter hit
  let s1 := hits.foldl (fun s r => match r.use with
    | .copyWrite run _ _ => s.linesDone run (lines r) false
    | _ => s) s
  { s1 with
    reqs := s1.reqs.map fun r => if hit r && !r.performed then cutReq r else r
    wbq := (s1.wbq.map fun r => if hit r then cutReq r else r).filter fun r => r.use != .dropped }

/-! ## Late warnings (R78) -/

/-- Something is late for PCYC n: a line due to depart that is not staged, or a write-back without space. A timed CPY's line
is checked as the others are (log 133). -/
def State.lateFor (s : State) (p : Panel) (n : Nat) : List CopyRun :=
  let need := if p.hedge then 16 * 1024 else 1
  s.copies.filter fun r => r.live p.pid &&
    ((r.e.srck == 0 && (r.linesAt (r.readAt 0) n).any fun i => r.srcState i == 0 && (spGet none r.staged i).isNone)
      || (r.e.dstk == 2 && !(r.linesAt (r.landAt 0) n).isEmpty && decide (s.wbUsed r.ap + need > 32768)))

/-- LATE_WARNING (R78), at the start of a cycle: LATE is set in the copy's cores, and the panel's next PCYC is held back, or, for a hedge
panel, the one 1,024 further on. -/
def execLateWarning (run : Nat) (s : State) : Out :=
  .next (match s.copy? run with
    | none => s
    | some r =>
      let s1 := s.markCp r.cores 1
      match r.pid.bind s.panel? with
      | none => s1
      | some p =>
        if p.st ≠ .running ∧ p.st ≠ .ended then s1
        else s1.updPanel p.pid fun q =>
          if q.hedge then { q with lateAt := q.lateAt ++ [(q.nextCyc + 1024, none)] }
          else if q.frz.any (fun w => w.stop.isNone) then q else q.hold s.scyc none)

/-! ## Finished copies -/

/-- Nothing of a copy is outstanding (R274). -/
def State.copyOver (s : State) (r : CopyRun) : Bool :=
  if r.done then true
  else if !r.timed then false
  else match r.start with
    | some _ =>
      (match r.pid.bind s.panel? with | some p => decide (p.pcyc > r.lastAt + r.mapLines) | none => true)
        && (r.e.dstk != 2 || decide (r.written + r.failed ≥ r.e.lines))
    | none => false

/-- A request for one of a copy's lines has not been delivered or acknowledged. -/
def State.copyAsked (s : State) (r : CopyRun) : Bool :=
  (s.reqs ++ s.uq).any fun q => match q.use with | .copyRead k _ _ => k == r.id | .copyWrite k _ _ => k == r.id | _ => false

/-- Finished copies leave once none of their requests is on its way (R77). -/
def State.sweepCopies (s : State) : State := { s with copies := s.copies.filter fun r => !s.copyOver r || s.copyAsked r }

end Sys2Proof.Machine
end

