-- ==== Sys2Proof/Machine/Untimed.lean ====
section
/-!
DEFINITION. CPY and PGREQ from their image on (R80 to R82, R207, R209), the delivery queues, page requests, untimed queue operations, and the
waking and switching of contexts (R95, R116, R117).
-/
namespace Sys2Proof.Machine

/-! ## Scratchpad lines (R75, R378) -/

/-- Bytes of a scratchpad written: a poisoned source tags its line, a whole clean line loses its tag. -/
def CoreSt.spWrite (c : CoreSt) (a : Nat) (bs : List Byte) (poison : Bool) : CoreSt :=
  let full := decide (a % 64 = 0) && decide (bs.length = 64)
  { c with
    sp := putBytes c.sp a bs
    spPoison := if poison then spPut false c.spPoison (a / 64) true
      else if full then spPut false c.spPoison (a / 64) false else c.spPoison }

/-- A line of a scratchpad, by its number. -/
def CoreSt.spLine (c : CoreSt) (line : Nat) : Line :=
  ⟨lineOf (bytesAt c.sp (64 * line) 64), spGet false c.spPoison line, false⟩

/-! ## Delivery queues (R81) -/

def State.dqueue (s : State) (ap : Nat) : List Untimed := spGet [] s.dqueues ap

def State.setDqueue (s : State) (ap : Nat) (l : List Untimed) : State := { s with dqueues := spPut [] s.dqueues ap l }

/-- A delivery queue holds 32 requests. -/
def State.dqFull (s : State) (ap : Nat) : Bool := decide ((s.dqueue ap).length ≥ 32)

def State.dqPush (s : State) (ap : Nat) (u : Untimed) : State := s.setDqueue ap (s.dqueue ap ++ [u])

/-- The request stands in a queue. -/
def State.dqHas (s : State) (u : Untimed) : Bool := s.dqueues.any fun e => e.2.contains u

/-- A context blocks (R117). -/
def State.block (s : State) (c k : Nat) (w : Wait) : State := s.updCtx c k fun x => { x with st := .blocked, wait := w }

/-! ## CPY (R80, R207) -/

/-- A copy of an entry, not yet opened or released. -/
def newCopy (s : State) (e : CopyEntry) (ap : Nat) (own : Own) (tenant : Nat) (fw : Bool) (sH dH : Handle) : CopyRun :=
  { id := s.nextId, pid := none, node := none, idx := 0x3FFF, hor := 0, e := e, ap := ap, own := own, timed := false, cpy := true,
    tenant := tenant, fw := fw, sH := sH, dH := dH, opened := true, rel := none, start := none, begun := false, started := false, sent := 0, revS := false,
    revD := false, nreq := 0, tried := 0, staged := [], moved := [], flags := [], written := 0, failed := 0, poisoned := false,
    done := false }

def State.addCopy (s : State) (r : CopyRun) : State := { s with copies := s.copies ++ [r], nextId := s.nextId + 1 }

/-- The handle checks of an entry (Table 4.4): the source's, then the destination's. -/
def entryHandles (hs : Sparse Handle) (e : CopyEntry) : Option TrapKind :=
  let sh := BitVec.ofNat 4 e.sh
  let dh := BitVec.ofNat 4 e.dh
  match (if e.srck = 2 then none else handleCheck sh (spGet Handle.zero hs e.sh) e.soff (64 * e.lines) false (e.srck == 1)) with
  | some k => some k
  | none => if e.dstk = 0 then none else handleCheck dh (spGet Handle.zero hs e.dh) e.doff (64 * e.lines) true (e.dstk == 1)

/-- The image of a CPY read at p + 1, with the handles as they stood at its issue (R59): checked, then released at p + 2 in the holder, or
queued (R81). An access processor that the variant lacks is absent (R3, R183). This package serves it (log 134). -/
def State.startCpy (s : State) (own : Own) (image : List Byte) (hs : Sparse Handle) : State :=
  let x := s.ctx own.core own.ctx
  let fw := isFwCtx own.core own.ctx
  let pan := if fw then none else s.panelOn own.core
  let holder := s.holds own.core own.ctx
  let n := leNat image
  let decl := match pan.bind fun p => p.rankAt own.core with | some r => r.1.decl | none => own.core
  match entryReason n (pan.map fun p => p.ranks.map fun r => (r.pkg, r.decl)) (match pan with | some p => p.hedge | none => false)
      (if holder then none else some decl) (fld n 0 8 != 0) with
  | some r => s.foundBy own (.illegal 19 r)
  | none =>
    let e0 := CopyEntry.ofNat n
    match entryHandles hs e0 with
    | some k => s.found own.core own.ctx { own.cand k with step := 9 }
    | none =>
      if pan.isNone ∧ 16 * e0.dgrp ≥ s.ncores then s.foundBy own (.illegal 11 0) else
      let e := match pan with | some p => e0.place p.dx p.dy | none => e0
      let r := newCopy s e e.dgrp own x.tenant fw (spGet Handle.zero hs e.sh) (spGet Handle.zero hs e.dh)
      if holder then
        match pan with
        | some p =>
          let t : CopyRun := { r with pid := some p.pid, timed := true, rel := some (own.issue + 2).toNat }
          s.addCopy { t with start := some (s.startOf t (own.issue + 2).toNat) }
        | none => s
      else
        let s1 := s.addCopy { r with pid := pan.map (·.pid) }
        if s1.dqFull e.dgrp then s1.block own.core own.ctx (.deliver none) else s1.dqPush e.dgrp (.cpy r.id)

/-! ## Untimed copies (R81, R306) -/

/-- An action of an untimed copy from this cycle on, which waits for a free bank cycle (R109): in its panel's time, or the package's. -/
def State.pendFree (s : State) (r : CopyRun) (core : Nat) (a : Act) : State :=
  let clk := match r.pid.bind s.panel? with | some p => Clk.panel p.pid | none => .scyc
  { s with pend := s.pend ++ [⟨clk, s.now clk, false, { Own.none core with ctx := r.own.ctx }, a⟩] }

/-- Untimed lines finished: landed, or dropped (R60, R62). -/
def State.freeDone (s : State) (run n : Nat) : State := s.updCopy run fun c => { c with sent := c.sent + n }

/-- A line of an untimed copy has been read. -/
def State.stageLine (s : State) (run i : Nat) (l : Line) : State :=
  s.updCopy run fun c => { c with staged := spPut none c.staged i (some l) }

/-- An untimed access of the port core's bundle to the line of p may issue in this cycle (R91): the physical phase rule allows it, and the
bundle is neither lent nor in use (R73), by the core's own write of this cycle either. -/
def State.portFree (s : State) (r : CopyRun) (p : LsAddr) (wr : Bool) : Bool :=
  let c := r.portCore
  let own := p.die == r.ap / 8
  let u := (s.core c).units
  phaseOk p.line (c % 128) s.scyc (if wr then 64 else 0) own && !s.bundleLent c wr
    && decide ((if wr then u.wrEnd else u.rdEnd) ≤ s.now (s.clkOf c 0))
    && !(wr && s.pend.any fun x => x.own.core == c && x.due == s.now x.clk + (if own then 20 else 36) &&
      (match x.act with
       | .lsStore q _ _ | .lsLand q _ _ _ | .lsAtomic q _ _ _ _ _ => q.die == p.die
       | _ => false))

/-- The next line of an untimed copy may be read in this cycle: its channel is free of timed entries, and so is the bundle that it needs
(R81). -/
def State.mayRead (s : State) (r : CopyRun) (i : Nat) : Bool :=
  !s.chanBusy r.ap r.e.chan && (r.srcState i != 0 || r.e.srck != 1 || s.portFree r (handlePlace r.sH (r.e.soff + 64 * i)) false)

/-- The same for its write. -/
def State.mayWrite (s : State) (r : CopyRun) (i : Nat) : Bool :=
  !s.chanBusy r.ap r.e.chan && (r.e.dstk != 1 || r.dstState i != 0 || s.portFree r (handlePlace r.dH (r.e.doff + 64 * i)) true)

/-- A line of an untimed copy on its way to its destination. -/
def State.untimedWrite (s0 : State) (r : CopyRun) (i : Nat) (l : Line) : State :=
  let bs := lineBytes l.data
  let s := if l.poison then (s0.updCopy r.id fun c => { c with poisoned := true }).noteFail r ⟨0, 0, 0, false, false, true⟩ else s0
  match r.e.dstk with
  | 0 => r.dcores.foldl (fun s c => s.pendFree r c (.land c (r.e.doff + 64 * i) bs l.poison (.free r.id))) s
  | 1 => if r.dstState i ≠ 0 then s.freeDone r.id 1
    else
      let p := handlePlace r.dH (r.e.doff + 64 * i)
      { s with pend := s.pend ++ [⟨.scyc, s.scyc + (if p.die = r.ap / 8 then 20 else 36), false,
        { Own.none r.portCore with ctx := r.own.ctx }, .lsLand p bs l.poison r.id⟩] }
  | _ =>
    if r.dstState i ≠ 0 then s.freeDone r.id 1
    else
      let a := r.dstAddr i
      s.askFree (s.unitReq r.who r.ap r.e.chan a true (unitMask a 1) l l (.copyWrite r.id i 1))

/-- A line of an untimed copy read, where its page gives data: from HBM4E in a free slot, from the scratchpad in a free bank cycle. -/
def State.untimedRead (s : State) (r : CopyRun) (i : Nat) : State :=
  if r.srcState i ≠ 0 then s.stageLine r.id i zeroLine
  else match r.e.srck with
    | 0 =>
      let a := r.srcAddr i
      s.askFree (s.unitReq r.who r.ap r.e.chan a false (unitMask a 1) zeroLine zeroLine (.copyRead r.id i 1))
    | 1 =>
      let p := handlePlace r.sH (r.e.soff + 64 * i)
      s.stageLine r.id i ⟨lineOf (s.lsBytes p 64), s.lsTag p, false⟩
    | _ => s.pendFree r r.portCore (.cpyLine r.id i (r.e.soff + 64 * i))

/-- The bitmap lines of an untimed copy, to every core that it marks (R74). -/
def State.untimedMap (s : State) (r : CopyRun) : State :=
  (mapPieces (bitmapBytes r.e.lines r.flags) r.mapLines).zipIdx.foldl (fun s x => r.cores.foldl (fun s c =>
    s.pendFree r c (.land c (r.e.rbma + 64 * x.2) x.1 false (.free r.id))) s) s

/-- A request that waits for a place in a delivery queue: its number, its queue, its node's run and index. -/
structure Waiting where
  id : Nat
  ap : Nat
  req : Untimed
  node : Option (Nat × Nat)

/-- The requests that wait for a place, oldest first: untimed copies not begun, page requests not started. -/
def State.waiting (s : State) : List Waiting :=
  sortBy (fun a b => decide (a.id < b.id))
    ((s.copies.filter fun c => !c.timed && !c.done && !c.begun && !s.dqHas (.cpy c.id)).map (fun c => ⟨c.id, c.ap, .cpy c.id, c.node⟩)
      ++ (s.pages.filter fun g => !g.started && !s.dqHas (.page g.id)).map fun g => ⟨g.id, g.ap, .page g.id, none⟩)

/-- Free places in delivery queues taken by the requests that wait, oldest first (R82), those of a COPY node in schedule order (R81, R306). -/
def State.refill (s : State) : State :=
  (s.waiting.foldl (fun (a : State × List (Nat × Nat)) w =>
    match w.node with
    | none => if a.1.dqFull w.ap then a else (a.1.dqPush w.ap w.req, a.2)
    | some n =>
      if a.2.contains n then a
      else if a.1.dqFull w.ap then (a.1, n :: a.2) else (a.1.dqPush w.ap w.req, a.2)) (s, [])).1

/-- A page copy starts (R82). One whose page no decoder covers, or whose port is down, is poisoned and logged (R50, R51, log
129). -/
def State.startPage (s : State) (id : Nat) : State :=
  match s.pages.find? fun g => g.id == id with
  | none => s
  | some g =>
    let a := g.frame * 65536
    let part := (s.partOfAddr a).getD 0
    let ten := if g.fw then none else some g.tenant
    let port := s.cxlPort g.back
    let bad := g.bk && !g.revoked && !(port.any fun p => s.cxlUp p)
    let s1 : State := { s with pages := s.pages.map fun h => if h.id = id then { h with started := true, down := bad } else h }
    if bad then s1.faqLog part (if port.isNone then 5 else 6) (some a) (g.back * 65536) ten else s1

/-- UNTIMED_REQUEST_SERVE (R81): the head of a delivery queue is begun: a copy, whose lines follow, or a page's copy. -/
def execUntimedRequestServe (ap : Nat) (s : State) : Out :=
  .next (match s.dqueue ap with
    | [] => s
    | .page id :: rest => ((s.setDqueue ap rest).startPage id).refill
    | .cpy id :: rest =>
      match s.copy? id with
      | none => (s.setDqueue ap rest).refill
      | some r => if r.begun then s else s.copyFlags r)

/-- The page-table entry of a page, as the access processor's die finds it (log 131). -/
def State.pageEntry (s : State) (die space vpage : Nat) : BitVec 128 :=
  let leaf := match s.spanFind die space (vpage / 64) with
    | some e => e.leaf
    | none => s.leafAt (s.walkLeaf space (vpage / 64))
  nth 0 leaf (vpage % 64)

/-- A line of a COPY node meets a dead CXL link (R307, log 77): its page lives in the second tier, behind a port that is down. -/
def State.deadLink (s : State) (r : CopyRun) (h : Handle) (o : Nat) : Bool :=
  r.node.isSome && lineState h o false == 1 &&
    (let e := (s.pageEntry (r.ap / 8) r.tenant (h.vbase.toNat + o / 65536)).toNat
     bt e 4 && (s.cxlPort (fld e 80 32)).any fun p => !s.cxlUp p)

/-- The next line of a COPY node, and what a dead link makes of its run (R307). -/
def State.checkLink (s : State) (r : CopyRun) (i : Nat) : State :=
  match r.node with
  | some n => if s.deadLink r r.sH (r.e.soff + 64 * i) || s.deadLink r r.dH (r.e.doff + 64 * i) then (s.failNode n.1 n.2).endRun n.1 4 0 else s
  | none => s

/-- The copy at the head of a delivery queue, once begun, goes on: one line at a time, in cycles that timed entries leave free (R81), then its
bitmap; then the next request's turn comes. -/
def State.untimedStep (s : State) (ap : Nat) : State :=
  match s.dqueue ap with
  | .cpy id :: rest =>
    (match s.copy? id with
     | none => (s.setDqueue ap rest).refill
     | some r =>
       let maps := r.mapLines * r.cores.length
       if !r.begun || ((r.pid.bind s.panel?).any fun p => p.frozen) then s
       else if r.sent < r.nreq then
         (match spGet none r.staged r.sent with
          | some l =>
            if s.mayWrite r r.sent then (s.updCopy id fun c => { c with staged := spPut none c.staged r.sent none }).untimedWrite r r.sent l else s
          | none => s)
       else if r.nreq < r.e.lines then if !s.mayRead r r.nreq then s else ((s.checkLink r r.nreq).updCopy id fun c => { c with nreq := c.nreq + 1 }).untimedRead r r.nreq
       else if r.nreq < r.e.lines + maps then (s.updCopy id fun c => { c with nreq := c.nreq + maps }).untimedMap r
       else ((s.updCopy id fun c => { c with done := true }).setDqueue ap rest).refill)
  | _ => s

/-- The delivery queues in a cycle. -/
def State.untimedMove (s : State) : State := (s.dqueues.map (·.1)).foldl State.untimedStep s

/-! ## PGREQ (R82, R209) -/

/-- PGREQ at p + 1: its status word (Table 10.6), unless it waits for a place, and the request taken. -/
def State.pageStatus (s : State) (own : Own) (h : Handle) (page : Nat) (rd : BitVec 5) : State × Option Word :=
  let space := s.spaceOf own.core own.ctx
  let vpage := h.vbase.toNat + page
  let ap := own.core / 16
  if h.sp || spanBit h.res page then (s, some 2)
  else if s.pages.any fun g => (if g.fw then fwSpace else g.tenant) == space && g.vpage == vpage && !g.revoked then (s, some 4)
  else
    let pte := (s.pageEntry (ap / 8) space vpage).toNat
    let s := if (s.spanFind (ap / 8) space (vpage / 64)).isSome then s else s.walkNotes space (vpage / 64)
    let g : PageReq :=
      { id := s.nextId, ap := ap, core := own.core, ctx := own.ctx, tenant := (s.ctx own.core own.ctx).tenant,
        fw := space == fwSpace, vpage := vpage, frame := (h.pbase.toNat + page) % 2 ^ 32, bk := bt pte 4, back := fld pte 80 32, own := own,
        started := false, revoked := false, down := false, line := 0, asked := false }
    let add := fun (s : State) => ({ s with pages := s.pages ++ [g], nextId := s.nextId + 1 } : State)
    if s.dqFull ap then
      if s.holds own.core own.ctx then (s, some 8) else ((add s).block own.core own.ctx (.deliver (some rd)), none)
    else ((add s).dqPush ap (.page g.id), some 1)

/-- PGREQ at p + 1, with its status written. -/
def State.pageAsk (s : State) (own : Own) (h : Handle) (page : Nat) (rd : BitVec 5) : State :=
  let x := s.pageStatus own h page rd
  match x.2 with
  | some v => x.1.updCtx own.core own.ctx fun c => c.wrS rd v false
  | none => x.1

/-- The next unit of a page copy is written (R82): from its place in the second tier, poisoned where that is lost, or with zeros. -/
def State.pageUnit (s : State) (g : PageReq) : State :=
  let a := g.frame * 65536 + 128 * g.line
  let b := g.back * 65536 + 128 * g.line
  let l := fun (b : Nat) => if !g.bk then zeroLine else if g.down then ⟨0, true, false⟩ else s.secondLine b
  ({ s with pages := s.pages.map fun h => if h.id = g.id then { h with asked := true } else h } : State).askFree
    (s.unitReq (if g.fw then 0x11 else g.tenant) g.ap 0 a true (BitVec.allOnes 128) (l b) (l (b + 64)) (.page g.id))

/-- The oldest page copy of each access processor goes on. -/
def State.pageMove (s : State) : State :=
  s.pages.foldl (fun s g =>
    if g.started && !g.revoked && !g.asked && decide (g.line < 512) && !s.pages.any fun o => o.ap == g.ap && decide (o.id < g.id) && o.started
    then s.pageUnit g else s) s

/-- A unit of a page copy has performed; poison that the device reported is logged, line by line (R51). -/
def State.pageWrote (s : State) (r : HbmReq) (id : Nat) : State :=
  match s.pages.find? fun g => g.id == id with
  | none => s
  | some g =>
    let log := fun (s : State) (l : Line) (o : Nat) =>
      if l.poison && !g.down then s.faqLog r.part 5 (some (r.addr + o)) (g.back * 65536 + 128 * g.line + o) (whoTenant r.who) else s
    let s1 := log (log s r.l0 0) r.l1 64
    { s1 with pages := s1.pages.map fun h => if h.id = id then { h with line := h.line + 1, asked := false } else h }

/-- RES written in the page table in memory, after a walk to the entry (R60, log 121). -/
def State.markResident (s : State) (space vpage : Nat) : State :=
  match s.walkLeaf space (vpage / 64) with
  | some a =>
    let at_ := a + 16 * (vpage % 64)
    (s.walkNotes space (vpage / 64)).noteWrite at_ (BitVec.ofNat 64 (2 ^ (at_ % 64)))
      ⟨BitVec.ofNat 512 ((s.hbmByte at_ ||| 8#8).toNat * 2 ^ (8 * (at_ % 64))), false, false⟩ (spaceTenant space)
  | none => s

/-- A page copy is over: all of its units have performed, or it met a revocation before it began (R62). -/
def PageReq.over (g : PageReq) : Bool := g.started && (g.revoked || g.line == 512)

/-- A page request whose copy is over is complete when it is the oldest started one of its access processor (R82, R60). A revoked one has
filled nothing: REVD is set (R62). -/
def State.pageDone (s : State) (id : Nat) : State :=
  match s.pages.find? fun g => g.id == id && g.over with
  | none => s
  | some g =>
    if s.pages.any fun o => o.ap == g.ap && o.started && decide (o.id < g.id) then s
    else
      let s1 : State := { s with pages := s.pages.filter fun o => o.id != id }
      let space := if g.fw then fwSpace else g.tenant
      if g.revoked then s1.markCp [g.core] csREVD else (s1.markResident space g.vpage).setRes space g.vpage

/-- PGREQ_COMPLETE (R82, R60); or, with ok = false, the link of the request's copy has gone down before the copy was over (R51). -/
def execPgreqComplete (id : Nat) (ok : Bool) (s : State) : Out :=
  .next (if ok then s.pageDone id
    else ((s.pages.find? fun g => g.id == id && g.started && g.bk).bind fun g => s.cxlPort g.back).elim s s.cxlDown)

/-- The page copy that completes now. -/
def State.nextPage (s : State) : Option Nat :=
  (s.pages.find? fun g => g.over && !s.pages.any fun o => o.ap == g.ap && o.started && decide (o.id < g.id)).map (·.id)

/-! ## Waking (R95, R117) -/

/-- A context becomes ready; it issues 12 sc later (R116). The holder runs again (R195). -/
def State.makeReady (s : State) (c k : Nat) : State :=
  s.updCtx c k fun x => { x with st := (if s.holds c k then .running else .ready), wait := .none, next := s.now (s.clkOf c k) + 12 }

/-- CONTEXT_WAKE (R117): its queue has delivered, or its request has taken a free place in its delivery queue. -/
def execContextWake (core ctx : Nat) (s : State) : Out :=
  let x := s.ctx core ctx
  .next (if x.st ≠ .blocked then s
    else match x.wait with
      | .qgot v rd p => (s.updCtx core ctx fun x => x.wrS rd v p).makeReady core ctx
      | .deliver rd =>
        match rd with
        | none =>
          if s.copies.any fun c => c.cpy && !c.timed && !c.done && !c.begun && c.own.core == core && c.own.ctx == ctx && !s.dqHas (.cpy c.id)
          then s else s.makeReady core ctx
        | some r =>
          if s.pages.any fun g => g.core == core && g.ctx == ctx && !g.started && !s.dqHas (.page g.id)
          then s else (s.updCtx core ctx fun x => x.wrS r 1 false).makeReady core ctx
      | .none | .bar | .qdeq _ _ | .qres | .fence _ _ _ | .ctl => s)

/-- A core's contexts other than the holder give their issue cycles back. -/
def CoreSt.switchBack (c : CoreSt) : CoreSt :=
  { c with ctxs := c.ctxs.map fun x => if x.1 ≠ 0 ∧ x.2.st = .running then (x.1, { x.2 with st := .ready }) else x }

/-- CONTEXT_SWITCH (R116): the core's issue cycles go to another ready context, which issues 12 sc later, or back to the holder. -/
def execContextSwitch (core ctx : Nat) (s : State) : Out :=
  .next (if ctx = 0 ∧ (s.core core).panel.isSome then s.updCore core CoreSt.switchBack
    else if (s.ctx core ctx).st = .ready then
      let t := s.now (s.clkOf core ctx)
      (s.updCore core fun c => { c with cur := ctx }).updCtx core ctx fun x => { x with st := .running, next := max x.next (t + 12) }
    else s)

/-- RANDOM_QUEUE_REFILL (R111): one vector at the end of an sc; the vectors are those of rq_vector. -/
def execRandomQueueRefill (core : Nat) (s : State) : Out :=
  let c := s.core core
  .next (if c.panel.isSome ∧ c.rq.held < 8 then s.setCore core { c with rq := { c.rq with held := c.rq.held + 1 } } else s)

/-! ## Untimed queue operations (R95, R97, R194) -/

/-- An earlier latent-store store or atomic of the context is still due (R97). -/
def State.storesDue (s : State) (core ctx : Nat) (before : Int) : Bool :=
  s.pend.any fun x => x.own.core == core && x.own.ctx == ctx && decide (x.own.issue < before) &&
    (match x.act with | .lsStore _ _ _ => true | .lsAtomic _ _ _ _ _ _ => true | _ => false)

/-- The other actions of a bundle whose queue operation is answered now: they count from here. -/
def State.queueAnswered (s : State) (r : QueueReq) : State :=
  let t := s.now (s.clkOf r.core r.ctx)
  { s with
    queueReqs := s.queueReqs.filter fun q => q.id != r.id
    pend := s.pend.map fun p => if p.own.core = r.core ∧ p.own.ctx = r.ctx ∧ p.own.issue = r.own.issue then
      { p with due := p.due + (t - r.own.issue).toNat } else p }

/-- A bundle that its queue operation traps commits no slot (R194). -/
def State.queueRefused (s : State) (r : QueueReq) : State :=
  { s with
    queueReqs := s.queueReqs.filter fun q => q.id != r.id
    pend := s.pend.filter fun p => !(p.own.core == r.core && p.own.ctx == r.ctx && p.own.issue == r.own.issue) }

/-- QUEUE_OPERATION (R95): the engine performs an untimed operation; its context waits for the result. A QUEUE trap is precise (R194). -/
def execQueueOperation (id : Nat) (s : State) : Out :=
  .next (match s.queueReqs.find? fun r => r.id == id with
    | none => s
    | some r =>
      if s.storesDue r.core r.ctx r.own.issue then s
      else
        let s1 := s.queueAnswered r
        let x := s.ctx r.core r.ctx
        match queueTrap s r.op r.q x.tenant (isFwCtx r.core r.ctx) with
        | some why => ((s.queueRefused r).updCtx r.core r.ctx fun x => { x with wait := .none, st := .running }).foundBy r.own (.queue r.q why)
        | none =>
          let o := s1.queueOp r.op r.q r.core r.ctx
          match o.2 with
          | .block => o.1.block r.core r.ctx (.qdeq r.q r.rd)
          | res =>
            let s2 := (queueWrites r.op res r.ctx r.rd).foldl (fun s a => match a with
              | .wS k d v p => s.updCtx r.core k fun x => x.wrS d v p
              | .wQ k q v => s.updCtx r.core k fun x => x.wrQ q v
              | _ => s) o.1
            s2.updCtx r.core r.ctx fun x => { x with wait := .none, next := s2.now (s2.clkOf r.core r.ctx) + 1 })

end Sys2Proof.Machine
end

