-- ==== Sys2Proof/Machine/Access.lean ====
section
/-!
DEFINITION. Accesses of main memory as they perform and as their data come back (R39, R40, R44, R47, R77); host accesses (R278, R356); the lines of
an eviction (R52).
-/
namespace Sys2Proof.Machine

/-! ## Host accesses (R278, R356) -/

/-- The HBM4E or latent-store place of a BAR2 offset. -/
inductive BarPlace where
  | hbm (a : Nat)
  | ls (p : LsAddr)
  | none
  deriving DecidableEq, Repr

/-- BAR2 (R356). -/
def State.barPlace (s : State) (off : Nat) : BarPlace :=
  if off < 0x6000000000 then
    if off < hbmSize s.variant ∧ s.ctlFld offBootstat 7 1 = 1 then .hbm off else .none
  else
    let d := (off - 0x6000000000) / 0x80000000
    let b := (off - 0x6000000000) % 0x80000000
    if d < s.ndies ∧ b < 0x60000000 then .ls ⟨d, b⟩ else .none

/-- Every byte of a host access has a place. -/
def State.barOk (s : State) (addr n : Nat) : Bool := (List.range n).all fun i => s.barPlace (addr + i) != .none

/-- A host access accepted by the port die, or completed as an Unsupported Request. -/
def State.accept (s : State) (write : Bool) (addr n : Nat) (bytes : List Byte) : State :=
  if s.barOk addr n then { s with hostq := s.hostq ++ [⟨s.nextId, write, addr, bytes, n, false, s.scyc⟩], nextId := s.nextId + 1 }
  else s.send .unsupported

/-- HOST_MEMORY_WRITE (R278, R356): a posted write is accepted; its bytes perform in acceptance order. -/
def execHostMemoryWrite (addr : Nat) (bytes : List (BitVec 8)) (s : State) : Out := .next (s.accept true addr bytes.length bytes)

/-- HOST_MEMORY_READ (R278, R356): a read is accepted; it performs after the accesses accepted before it, and then returns its data. -/
def execHostMemoryRead (addr n : Nat) (s : State) : Out := .next (s.accept false addr n [])

/-- The next `n` bytes of the oldest host access have performed; a read has found `bs`. A finished read is completed to the host. -/
def State.hostDone (s : State) (n : Nat) (bs : List Byte) : State :=
  match s.hostq with
  | [] => s
  | h :: rest =>
    let h1 := { h with addr := h.addr + n, bytes := if h.write then h.bytes.drop n else h.bytes ++ bs, left := h.left - n, asked := false }
    if h1.left = 0 then (if h.write then { s with hostq := rest } else ({ s with hostq := rest } : State).send (.readData h1.bytes))
    else { s with hostq := h1 :: rest }

/-- The bytes of a host access that lie in the unit of its next one. -/
def HostAcc.inUnit (h : HostAcc) : Nat := min h.left (128 - h.addr % 128)

/-- The unit of the oldest host access at an HBM4E address: a masked write, or a read. -/
def State.hostUnit (s : State) (h : HostAcc) (a : Nat) : HbmReq :=
  let n := h.inUnit
  let v := leNat (h.bytes.take n) * 2 ^ (8 * (a % 128))
  let w := if h.write then v else 0
  s.unitReq 0x11 0 0 a h.write (BitVec.ofNat 128 ((2 ^ n - 1) * 2 ^ (a % 128))) ⟨BitVec.ofNat 512 w, false, false⟩
    ⟨BitVec.ofNat 512 (w / 2 ^ 512), false, false⟩ (.host h.id)

/-- The oldest host access goes on (R278): a unit of HBM4E waits for a host slot, a latent-store line is read, or written in this cycle at the
near port of its bank, once that has no other write (R90, logs 122, 135). An access whose place has gone since it was accepted is Unsupported. -/
def State.hostMove (s : State) : State :=
  match s.hostq with
  | [] => s
  | h :: rest =>
    if h.asked then s
    else if h.left = 0 then s.hostDone 0 []
    else match s.barPlace h.addr with
      | .hbm a => ({ s with hostq := { h with asked := true } :: rest } : State).askFree (s.hostUnit h a)
      | .ls p =>
        let n := min h.left (64 - p.byte % 64)
        if h.write ∧ s.nearWrite p = true then s
        else if h.write then
          ({ s with pend := s.pend ++ [⟨.scyc, s.scyc, false, Own.none (128 * p.die),
            .lsStore p (List.replicate n true) (h.bytes.take n)⟩] } : State).hostDone n []
        else s.hostDone n (s.lsBytes p n)
      | .none => ({ s with hostq := rest } : State).send .unsupported

/-- An access of the control space by the host is 8 bytes at a multiple of 8 (R350). -/
def barWhole (off n : Nat) : Bool := n == 8 && off % 8 == 0 && decide (off < 0x4000000)

/-- The host reads n bytes of the control space through BAR0 (R350, R356). Another access than 8 bytes at a multiple of 8 is completed without
effect; what bytes it completes with is open. -/
def State.hostCtlRead (s : State) (off n : Nat) : State :=
  if barWhole off n then s.send (.readData (natLe 8 (s.ctlRead off).toNat))
  else { s with free := s.free + 1 }.send (.readData ((List.range n).map fun i => Config.freeByte s.free (off + i)))

/-! ## Eviction (R52) -/

/-- The eviction's next line is to be read, in a host slot. -/
def State.evictMove (s : State) : State :=
  match s.evict with
  | some e =>
    if e.asked ∨ e.line ≥ 1024 then s
    else
      let a := e.src * 65536 + 64 * e.line
      ({ s with evict := some { e with asked := true } } : State).askFree
        (s.unitReq 0x11 0 0 a false (unitMask a 1) zeroLine zeroLine (.evict e.id))
  | none => s

/-- A line of an eviction has been read: it is written to the second tier. -/
def State.evictLine (s : State) (id : Nat) (l : Line) : State :=
  match s.evict with
  | some e =>
    if e.id ≠ id then s
    else
      let a := e.dst * 65536 + 64 * e.line
      { (s.secondPut a l).send (.cxlWrite a l) with
        evict := some { e with line := e.line + 1, asked := false, poisoned := e.poisoned || l.poison } }
  | none => s

/-! ## Performing (R40, R44, R47, R77) -/

/-- The bank of a unit is parked by its partition (R47). -/
def State.parked (s : State) (r : HbmReq) : Bool := s.parkedBank r.part == some (s.reqPlace r)

/-- The half of a unit that an access concerns. -/
def HbmReq.half (r : HbmReq) (hi : Bool) : BitVec 64 := r.mask.extractLsb' (if hi then 64 else 0) 64

/-- Both lines of a write, where its mask asks for them. -/
def State.writeUnit (s : State) (r : HbmReq) : State :=
  let ten := whoTenant r.who
  (s.writeLine r.part r.addr (r.half false) r.l0 ten).writeLine r.part (r.addr + 64) (r.half true) r.l1 ten

/-- Both lines of a read, where its mask asks for them. -/
def State.readUnit (s : State) (r : HbmReq) : State × Line × Line :=
  let ten := whoTenant r.who
  let a := if r.half false = 0 then (s, r.l0) else s.readLine r.part r.addr ten
  let b := if r.half true = 0 then (a.1, r.l1) else a.1.readLine r.part (r.addr + 64) ten
  (b.1, a.2, b.2)

/-- The lines of a read in a parked bank: as they stand, with the poison tag set (R47). -/
def State.parkedUnit (s : State) (r : HbmReq) : Line × Line :=
  (⟨lineOf (s.hbmBytes r.addr 64), true, false⟩, ⟨lineOf (s.hbmBytes (r.addr + 64) 64), true, false⟩)

/-- A request has performed, with its lines. -/
def State.setPerformed (s : State) (id : Nat) (l : Line × Line) : State :=
  { s with reqs := s.reqs.map fun q => if q.id = id then { q with performed := true, l0 := l.1, l1 := l.2 } else q }

/-- What follows a write that has performed, or that a parked bank has dropped: its copy, its page or its host access goes on. -/
def State.afterWrite (s : State) (r : HbmReq) : State :=
  match r.use with
  | .copyWrite run _ n => s.linesDone run n (r.l0.poison || r.l1.poison)
  | .page id => s.pageWrote r id
  | .host id => (match s.hostq with | h :: _ => if h.id = id then s.hostDone h.inUnit [] else s | [] => s)
  | _ => s

/-- Source lines read before follow a write of their panel (R77), or any write while their panel is to resume (R279). -/
def State.forwardUnit (s : State) (r : HbmReq) : State :=
  if (s.mapOf r).isSome then s else
  let pid := match r.use with | .copyWrite run _ _ => (s.copy? run).bind (·.pid) | _ => none
  let one := fun (s : State) (hi : Bool) =>
    let a := r.addr + (if hi then 64 else 0)
    if r.half hi = 0 then s else s.forward pid a ⟨lineOf (s.hbmBytes a 64), s.hbmTag a, false⟩
  one (one s false) true

/-- A read of a timed CPY finds the write-backs that its panel presented before it (R77, R80). -/
def State.cpyRead (s : State) (r : HbmReq) (l : Line × Line) : Line × Line :=
  match r.use with
  | .copyRead run _ _ =>
    (match s.copy? run with
     | some c => if c.timed && c.cpy then (s.withWrites c.pid r.asked r.addr l.1, s.withWrites c.pid r.asked (r.addr + 64) l.2) else l
     | none => l)
  | _ => l

/-- An access performs (R40, R44, R47): the package after it, and the lines that it leaves or finds; its faults are logged now (log 128). An access that a parked bank does not
perform logs PARKED for the first line that it asks for (log 123). -/
def State.performUnit (s : State) (r : HbmReq) : State × Line × Line :=
  s.onMap r fun s =>
    if s.parkedBank r.part == some (s.placeOf r.addr).1 then
      let a := r.addr + (if r.half false = 0 then 64 else 0)
      (s.faqLog r.part 3 (some a) a (whoTenant r.who), if r.write then (r.l0, r.l1) else s.parkedUnit r)
    else if r.write then (s.writeUnit r, r.l0, r.l1)
    else s.readUnit r

/-- HBM_ACCESS_PERFORM (R40, R44, R47) of an admitted request. -/
def execHbmAccessPerform (id : Nat) (s : State) : Out :=
  .next (match s.reqs.find? fun r => r.id == id && !r.performed with
    | none => s
    | some r =>
      if r.use = .dropped then s.setPerformed id (r.l0, r.l1)
      else
        let x := s.performUnit r
        if s.parked r then (if r.write then (x.1.setPerformed id x.2).afterWrite r else x.1.setPerformed id x.2)
        else if r.write then ((x.1.setPerformed id x.2).forwardUnit r).afterWrite r
        else x.1.setPerformed id (s.cpyRead r x.2))

/-! ## Host writes that must have performed (R182, R279, log 124) -/

/-- The unit of the oldest host access performs now, with its activate where it has had none. -/
def State.hostUnitNow (s : State) (h : HostAcc) (a : Nat) : State :=
  let mine := fun (r : HbmReq) => r.use == .host h.id && !(r.write && r.performed)
  match s.reqs.find? mine with
  | some r =>
    let x := if r.performed then (s, r.l0, r.l1) else s.performUnit r
    let s1 : State := { x.1 with reqs := x.1.reqs.map fun q => if mine q then { q with use := .dropped, performed := true } else q }
    let s2 := if r.write && !r.performed && !s.parked r then s1.forwardUnit r else s1
    s2.hostDone h.inUnit (if h.write then [] else ((lineBytes x.2.1.data ++ lineBytes x.2.2.data).drop (h.addr % 128)).take h.inUnit)
  | none =>
    let r := s.placed (s.hostUnit h a)
    let s0 : State := { s with uq := s.uq.filter fun q => !mine q }
    let x := (s0.countAct r.part r.pch r.bank).performUnit r
    let s2 := if r.write && !s.parked r then x.1.forwardUnit r else x.1
    s2.hostDone h.inUnit (if h.write then [] else ((lineBytes x.2.1.data ++ lineBytes x.2.2.data).drop (h.addr % 128)).take h.inUnit)

/-- The next unit or line of the oldest host access performs now. -/
def State.hostNow (s : State) : State :=
  match s.hostq with
  | [] => s
  | h :: rest =>
    if h.left = 0 then s.hostDone 0 []
    else match s.barPlace h.addr with
      | .hbm a => s.hostUnitNow h a
      | .ls p =>
        let n := min h.left (64 - p.byte % 64)
        if h.write then (s.lsWrite p (List.replicate n true) (h.bytes.take n) false).hostDone n [] else s.hostDone n (s.lsBytes p n)
      | .none => ({ s with hostq := rest } : State).send .unsupported

/-- The host accesses up to the last write that was accepted before SCYC `before` have performed. -/
def State.hostSettle (s : State) (before : Nat) : State :=
  match (s.hostq.filter fun h => h.write && decide (h.since < before)).getLast? with
  | none => s
  | some w =>
    let n := (s.hostq.filter fun h => decide (h.id ≤ w.id)).foldl (fun n h => n + h.left / 64 + 3) 0
    (List.range n).foldl (fun s _ => if s.hostq.any (fun h => h.id == w.id) then s.hostNow else s) s

/-! ## Delivery (R39) -/

/-- A copy's source lines enter the staging buffer; a timed CPY of a panel that is being saved keeps them too (R85). -/
def State.stageLines (s : State) (run i n : Nat) (r : HbmReq) : State :=
  let f := fun (c : CopyRun) => if c.id = run then { c with
    staged :=
      let m := spPut none c.staged i (some (if r.half false = 0 then r.l1 else r.l0))
      if n = 2 then spPut none m (i + 1) (some r.l1) else m } else c
  { s with copies := s.copies.map f, saved := s.saved.map fun v => { v with copies := v.copies.map f } }

/-- HBM_READ_DELIVER (R39): at t + 512 the lines go to their requester, or the write is acknowledged. -/
def execHbmReadDeliver (id : Nat) (s : State) : Out :=
  .next (match s.reqs.find? fun r => r.id == id with
    | none => s
    | some r =>
      let s1 : State := { s with reqs := s.reqs.filter fun q => q.id != id }
      match r.use with
      | .copyRead run i n => s1.stageLines run i n r
      | .host k =>
        (match s.hostq with
         | h :: _ =>
           if r.write ∨ h.id ≠ k then s1
           else s1.hostDone h.inUnit (((lineBytes r.l0.data ++ lineBytes r.l1.data).drop (h.addr % 128)).take h.inUnit)
         | [] => s1)
      | .evict k => s1.evictLine k (if r.half false = 0 then r.l1 else r.l0)
      | _ => s1)

end Sys2Proof.Machine
end

