-- ==== Sys2Proof/Machine/MemInstr.lean ====
section
/-!
DEFINITION. The words of the M slot but for RLD and RST (10, R187 to R195).
-/
namespace Sys2Proof.Machine

/-! ## Scratchpad (R187) -/

/-- An LDS of `n` bytes at `a`: the bank cycle at p + 1. -/
def State.ldsAt (s : State) (d : BitVec 5) (a : Word) (n : Nat) : State :=
  s.spCheck a n n fun s => s.holdFor (s.spBusy s.cur.core (a.toNat / 64)) fun s => s.emit 1 (.spLoad a.toNat n ⟨s.cur.ctx, d⟩)

/-- An STS of `n` bytes at `a`: performs at p + 1. -/
def State.stsAt (s : State) (d : BitVec 5) (a : Word) (n : Nat) : State :=
  s.spCheck a n n fun s => s.emit 1 (.spStore a.toNat (natLe n (s.rdS d).toNat))

def execLds (p : BitVec 3) (e : Ext) (d : BitVec 5) (base : Base) (z : Sz) (o : BitVec 8) (s : State) : Out :=
  .next (s.baseOp base fun s => s.slotOp p base.sregs fun s => s.ldsAt d (s.baseOff base o e z.bytes) z.bytes)

def execLdsIndexed (p : BitVec 3) (d : BitVec 5) (base : Base) (z : Sz) (x : BitVec 5) (s : State) : Out :=
  .next (s.baseOp base fun s => s.slotOp p (base.sregs ++ [x]) fun s => s.ldsAt d (s.baseVal base + s.rdS x) z.bytes)

def execSts (p : BitVec 3) (e : Ext) (d : BitVec 5) (base : Base) (z : Sz) (o : BitVec 8) (s : State) : Out :=
  .next (s.baseOp base fun s => s.slotOp p (base.sregs ++ [d]) fun s => s.stsAt d (s.baseOff base o e z.bytes) z.bytes)

def execStsIndexed (p : BitVec 3) (d : BitVec 5) (base : Base) (z : Sz) (x : BitVec 5) (s : State) : Out :=
  .next (s.baseOp base fun s => s.slotOp p (base.sregs ++ [x, d]) fun s => s.stsAt d (s.baseVal base + s.rdS x) z.bytes)

/-! ## Latent store (R188, R192) -/

/-- A handle operand at span offset o: the checks of Table 4.4, then ALIGN. -/
def State.handleOp (s : State) (h : BitVec 4) (o : Word) (n align : Nat) (wr lsp : Bool) (ok : LsAddr → State → State) :
    State :=
  match handleCheck h (s.rdH h) o.toNat n wr lsp with
  | some k => s.trap k
  | none =>
    if o.toNat % align ≠ 0 then s.trap (.align o (some h))
    else ok (handlePlace (s.rdH h) o.toNat) s

/-- The offsets of Table 6.2: `near` on the core's own die, 16 more on the other. -/
def State.dieOff (s : State) (die near : Nat) : Nat := if s.ownDie die then near else near + 16

/-- An LDL of n bytes at span offset o. -/
def State.ldlAt (s : State) (d : BitVec 5) (h : BitVec 4) (o : Word) (n : Nat) : State :=
  s.handleOp h o n n false true fun p s => s.lsGate p false fun s =>
    s.emit (s.dieOff p.die 24) (.wS s.cur.ctx d (BitVec.ofNat 64 (leNat (s.lsBytes p n))) (s.lsTag p))

/-- An STL of n bytes at span offset o. -/
def State.stlAt (s : State) (d : BitVec 5) (h : BitVec 4) (o : Word) (n : Nat) : State :=
  s.handleOp h o n n true true fun p s => s.lsGate p true fun s =>
    s.emit (s.dieOff p.die 20) (.lsStore p (List.replicate n true) (natLe n (s.rdS d).toNat))

/-- A span offset given by a scaled field. -/
def spanOff {w : Nat} (o : BitVec w) (e : Ext) (scale : Nat) : Word := word (extInt o e * scale)

def execLdl (p : BitVec 3) (e : Ext) (d : BitVec 5) (h : BitVec 4) (z : Sz) (o : BitVec 8) (s : State) : Out :=
  .next (s.slotOp p [] fun s => s.ldlAt d h (spanOff o e z.bytes) z.bytes)

def execLdlIndexed (p : BitVec 3) (d : BitVec 5) (h : BitVec 4) (z : Sz) (x : BitVec 5) (s : State) : Out :=
  .next (s.slotOp p [x] fun s => s.ldlAt d h (s.rdS x) z.bytes)

def execStl (p : BitVec 3) (e : Ext) (d : BitVec 5) (h : BitVec 4) (z : Sz) (o : BitVec 8) (s : State) : Out :=
  .next (s.slotOp p [d] fun s => s.stlAt d h (spanOff o e z.bytes) z.bytes)

def execStlIndexed (p : BitVec 3) (d : BitVec 5) (h : BitVec 4) (z : Sz) (x : BitVec 5) (s : State) : Out :=
  .next (s.slotOp p [d, x] fun s => s.stlAt d h (s.rdS x) z.bytes)

/-- The new value of an atomic (Table 6.5), on words of `w` bits. -/
def atomicNew (op : AOp) (w old x y : Nat) : Nat :=
  match op with
  | .add => (old + x) % 2 ^ w
  | .min => if sext w old ≤ sext w x then old else x
  | .max => if sext w old ≤ sext w x then x else old
  | .minn => min old x
  | .maxn => max old x
  | .and => old &&& x
  | .or => old ||| x
  | .xor => old ^^^ x
  | .swp => x
  | .cas => if old = x then y else old

/-- Bytes of SZ in MT words (Table 8.5). -/
def awBytes : Aw → Nat
  | .w => 4 | .d => 8

/-- A bank atomic (R192): ACAS takes its new value from sd. It reads and writes, so that both bundles must be free (R244). -/
def State.atomic (s : State) (p : BitVec 3) (op : AOp) (d : BitVec 5) (h : BitVec 4) (i x : BitVec 5) (z : Aw) : Out :=
  let n := awBytes z
  .next (s.slotOp p ([i, x] ++ (if op = .cas then [d] else [])) fun s =>
    s.handleOp h (s.rdS i) n n true true fun pl s => s.lsGate pl true fun s => s.readFree fun s =>
      s.emit (s.dieOff pl.die 20)
        (.lsAtomic pl op (8 * n) ((s.rdS x).toNat % 2 ^ (8 * n)) ((s.rdS d).toNat % 2 ^ (8 * n)) ⟨s.cur.ctx, d⟩))

def execAadd (p : BitVec 3) (d : BitVec 5) (h : BitVec 4) (i x : BitVec 5) (z : Aw) (s : State) : Out :=
  s.atomic p .add d h i x z
def execAmin (p : BitVec 3) (d : BitVec 5) (h : BitVec 4) (i x : BitVec 5) (z : Aw) (s : State) : Out :=
  s.atomic p .min d h i x z
def execAmax (p : BitVec 3) (d : BitVec 5) (h : BitVec 4) (i x : BitVec 5) (z : Aw) (s : State) : Out :=
  s.atomic p .max d h i x z
def execAminn (p : BitVec 3) (d : BitVec 5) (h : BitVec 4) (i x : BitVec 5) (z : Aw) (s : State) : Out :=
  s.atomic p .minn d h i x z
def execAmaxn (p : BitVec 3) (d : BitVec 5) (h : BitVec 4) (i x : BitVec 5) (z : Aw) (s : State) : Out :=
  s.atomic p .maxn d h i x z
def execAand (p : BitVec 3) (d : BitVec 5) (h : BitVec 4) (i x : BitVec 5) (z : Aw) (s : State) : Out :=
  s.atomic p .and d h i x z
def execAor (p : BitVec 3) (d : BitVec 5) (h : BitVec 4) (i x : BitVec 5) (z : Aw) (s : State) : Out :=
  s.atomic p .or d h i x z
def execAxor (p : BitVec 3) (d : BitVec 5) (h : BitVec 4) (i x : BitVec 5) (z : Aw) (s : State) : Out :=
  s.atomic p .xor d h i x z
def execAswp (p : BitVec 3) (d : BitVec 5) (h : BitVec 4) (i x : BitVec 5) (z : Aw) (s : State) : Out :=
  s.atomic p .swp d h i x z
def execAcas (p : BitVec 3) (d : BitVec 5) (h : BitVec 4) (i x : BitVec 5) (z : Aw) (s : State) : Out :=
  s.atomic p .cas d h i x z

/-! ## Handles (R189 to R191) -/

/-- XLAT (R189): the handle at p + 12; a miss starts a walk, a hit counts as a use (R56). -/
def execXlat (p : BitVec 3) (h : BitVec 4) (a b : BitVec 5) (s : State) : Out :=
  .next (s.slotOp p [a, b] fun s =>
    let die := dieOf s.cur.core
    let space := s.spaceOf s.cur.core s.cur.ctx
    let va := (s.rdS a).toNat
    let x := s.xlat die space va (s.rdS b).toNat
    let s1 := s.emit 12 (.wH s.cur.ctx h x)
    if x.hst = 4 ∨ !bt (s.rootOf space).toNat 0 then s1 else s1.emit 1 (.spanUse die space (va / 2 ^ 22 % 2 ^ 26)))

/-- The low 64 bits of a handle (Table 4.2). -/
def Handle.low (x : Handle) : Word :=
  BitVec.ofNat 64 (x.v.toNat + 2 * x.w.toNat + 4 * x.sp.toNat + 8 * x.hst.toNat + 2 ^ 6 * x.npgm1.toNat
    + 2 ^ 12 * x.ten.toNat + 2 ^ 16 * x.gen.toNat + 2 ^ 32 * x.vbase.toNat)

/-- HCHK (R190): V = 1 and every mapped page resident. -/
def execHchk (p : BitVec 3) (d : BitVec 5) (h : BitVec 4) (q : BitVec 3) (s : State) : Out :=
  .next (s.slotOp p [] fun s =>
    let x := s.rdH h
    (s.emitS 1 d x.low).emit 1 (.wQ s.cur.ctx q (x.v && x.valid &&& ~~~x.res == 0)))

/-- The blocks that a shoot-down request uses (R380). -/
def State.shootBlocks (s : State) (b : Word) : List Nat :=
  if bt b.toNat 37 then [0]
  else if bt b.toNat 36 then (List.range 4).filter s.partOn
  else [s.tenPart (fld b.toNat 32 4)]

/-- HINV (R191): ABSENT for a block of an absent unit (R360), held while a block it uses is busy. -/
def execHinv (p : BitVec 3) (a b : BitVec 5) (s : State) : Out :=
  let x := (s.rdS a).toNat
  let y := (s.rdS b).toNat
  .next (if s.rdQ p && (fld x 48 16 != 0 || fld y 26 6 != 0 || fld y 38 26 != 0) then s.immval else s.privOp p [a, b] fun s =>
    if (s.shootBlocks (s.rdS b)).any fun j => absentBlock s.variant (offPart j) then s.trap (.illegal 11 0)
    else if (s.shootBlocks (s.rdS b)).any fun j => bt (s.ctlGet (offSdctl j)).toNat 1 then
      { s with cur := { s.cur with hold := true } }
    else s.emit 0 (.fwShoot (s.rdS a) (s.rdS b)))

/-! ## Slice queues (R193 to R195) -/

/-- A queue instruction: IMMVAL for a queue number above 11 bits. In the holder it reaches its engine at a stated cycle; elsewhere it
is untimed, and the context waits for the engine, which makes its checks when it performs the operation, after the context's earlier
latent-store operations (R97, R194). -/
def State.queueInstr (s : State) (a : BitVec 5) (rd : BitVec 5) (op : QOp) : State :=
  let v := (s.rdS a).toNat
  if v ≥ 2048 then s.immval
  else
    let off := s.dieOff (v / 1024) 16
    let wait := match op with | .deq => Wait.qdeq v rd | _ => Wait.qres
    if s.isHolder then
      let s1 := s.emit off (.qArrive op v rd)
      match op with
      | .deq => { s1 with cur := { s1.cur with wait := wait } }
      | _ => s1
    else
      let s1 := s.emit 0 (.qAsk op v rd)
      { s1 with cur := { s1.cur with wait := wait } }

def execQinit (p : BitVec 3) (a b : BitVec 5) (s : State) : Out :=
  .next (s.slotOp p [a, b] fun s =>
    if (s.rdS b).toNat ≥ 16 then s.immval else s.queueInstr a 0 (.init (s.rdS b).toNat))

def execQenq (p : BitVec 3) (d a b : BitVec 5) (s : State) : Out :=
  .next (s.slotOp p [a, b] fun s => s.queueInstr a d (.enq (s.rdS b)))

def execQdeq (p : BitVec 3) (d a : BitVec 5) (s : State) : Out :=
  .next (s.slotOp p [a] fun s => s.queueInstr a d .deq)

def execQtry (p : BitVec 3) (d a : BitVec 5) (q : BitVec 3) (s : State) : Out :=
  .next (s.slotOp p [a] fun s => s.queueInstr a d (.try_ q))

def execQlen (p : BitVec 3) (d a : BitVec 5) (s : State) : Out :=
  .next (s.slotOp p [a] fun s => s.queueInstr a d .len)

end Sys2Proof.Machine
end

