-- ==== Sys2Proof/Machine/ControlWrite.lean ====
section
/-!
DEFINITION. Writes to the control space (19, R350 to R357), span walks and shoot-downs (R56, R61, R380), and reuse-cache invalidation (R98,
R101).
-/
namespace Sys2Proof.Machine

/-! ## Span walks (R56) -/

/-- SPAN_WALK_COMPLETE (R56): the walk fills the span cache of its die. -/
def execSpanWalkComplete (die space group : Nat) (s : State) : Out :=
  .next (match s.walks.find? fun w => w.die == die && w.space == space && w.group == group with
    | none => s
    | some w =>
      { s with walks := s.walks.filter fun w => !(w.die == die && w.space == space && w.group == group) }.spanRead die space group w.pin)

/-! ## Shoot-downs (R61, R380) -/

/-- Partitions as a number. -/
def partMask (l : List Nat) : Nat := l.foldl (fun m j => m + 2 ^ j) 0

/-- A handle of a copy touches the range of a shoot-down (Table 4.5). -/
def Shoot.touches (w : Shoot) (isFw : Bool) (h : Handle) : Bool :=
  h.v && !h.pin && (if isFw then w.fw else w.tenants.contains h.ten.toNat) && spanTouches h w.group w.count

/-- Nothing of a copy of a saved panel is outstanding. -/
def Saved.copyOver (v : Saved) (c : CopyRun) : Bool :=
  c.done || (c.start.isSome && decide (v.panel.pcyc > c.lastAt + c.mapLines) && (c.e.dstk != 2 || decide (c.written + c.failed ≥ c.e.lines)))

/-- The copies that have an access left, those of saved panels among them: they go on after the resumption (R85). -/
def State.copiesLeft (s : State) : List CopyRun :=
  (s.copies.filter fun c => !s.copyOver c) ++ s.saved.flatMap fun v => v.copies.filter fun c => !v.copyOver c

/-- The copies and page copies begun by now that touch the range, and that have an access left. -/
def State.drainOf (s : State) (w : Shoot) : List Nat :=
  ((s.copiesLeft.filter fun c => (c.begun || c.cpy) &&
      ((c.e.srck != 2 && w.touches c.fw c.sH) || (c.e.dstk != 0 && w.touches c.fw c.dH))).map (·.id))
    ++ ((s.pages.filter fun g => g.started && (if g.fw then w.fw else w.tenants.contains g.tenant) &&
      (w.count == 0 || (decide (w.group ≤ g.vpage / 64) && decide (g.vpage / 64 < w.group + w.count)))).map (·.id))

/-- A partition's DRAIN (Table 4.5): a copy begun before a shoot-down's rho and touching its range has an access left. -/
def State.draining (s : State) (j : Nat) : Bool :=
  s.shoots.any fun w => w.parts.contains j && (match w.drain with | none => !(s.drainOf w).isEmpty | some d => !d.isEmpty)

def State.setDrain (s : State) (parts : List Nat) : State :=
  parts.foldl (fun s j => s.ctlSetFld (offSdctl j) 2 1 (s.draining j).toNat) s

/-- A shoot-down taken now in some blocks, whose SDADDR and SDCNT are already as they stand for it. -/
def State.startShoot (s : State) (parts tenants : List Nat) (fw : Bool) (group count : Nat) : State :=
  let rho := s.scyc + 64
  let s1 := parts.foldl (fun s j => (s.ctlSetFld (offSdctl j) 1 1 1).ctlSet (offSdrho j) (BitVec.ofNat 64 rho)) s
  let s2 : State := { s1 with shoots := s1.shoots ++ [⟨parts, tenants, fw, group, count, rho, none⟩] }
  (s2.setDrain parts).schedI .scyc rho (.shootdownRevoke (partMask parts))

/-- SDCTL_GO (R61); ignored while BUSY. -/
def execSdctlGo (part : Nat) (s : State) : Out :=
  .next (if s.ctlFld (offSdctl part) 1 1 = 1 then s
    else
      let a := (s.ctlGet (offSdaddr part)).toNat
      let fw := part == 0 && bt a 5
      let ten := if fw then [] else if bt a 4 then s.tenantsOf part else [fld a 0 4].filter fun t => s.tenPart t == part
      s.startShoot [part] ten fw (fld a 22 26) (s.ctlFld (offSdcnt part) 0 26))

/-- HINV's shoot-down (R191, R380), in the blocks it uses. -/
def State.firmwareShoot (s : State) (a b : Word) : State :=
  let y := b.toNat
  let parts := s.shootBlocks b
  let fw := bt y 37
  let all := bt y 36
  let addr := BitVec.ofNat 64 (fld y 32 4 + (if all then 16 else 0) + (if fw then 32 else 0) + 2 ^ 22 * fld a.toNat 22 26)
  let s1 := parts.foldl (fun s j => (s.ctlSet (offSdaddr j) addr).ctlSet (offSdcnt j) (BitVec.ofNat 64 (fld y 0 26))) s
  s1.startShoot parts (if fw then [] else if all then List.range 16 else [fld y 32 4]) fw (fld a.toNat 22 26) (fld y 0 26)

/-- SHOOTDOWN_REVOKE (R61): at rho. -/
def execShootdownRevoke (parts : Nat) (s : State) : Out :=
  .next (match s.shoots.find? fun w => partMask w.parts == parts && w.rho == s.scyc && w.drain.isNone with
    | none => s
    | some w =>
      let d := s.drainOf w
      let s1 := s.revoke w.tenants w.fw false w.group w.count
      let s2 : State := { s1 with shoots := (s1.shoots.filter fun v => v != w) ++ (if d.isEmpty then [] else [{ w with drain := some d }]) }
      (w.parts.foldl (fun s j => s.ctlSetFld (offSdctl j) 1 1 0) s2).setDrain w.parts)

/-- A copy or page copy still has an access to perform. -/
def State.stillLive (s : State) (i : Nat) : Bool := (s.copiesLeft.any fun c => c.id == i) || s.pages.any fun g => g.id == i

/-- The shoot-downs with those of their copies that still have an access to perform, and DRAIN as it then is. -/
def State.sweepDrains (s : State) : State :=
  if s.shoots.isEmpty then s
  else
    let l := s.shoots.filterMap fun w => match w.drain with
      | none => some w
      | some d => let d1 := d.filter s.stillLive; if d1.isEmpty then none else some { w with drain := some d1 }
    ({ s with shoots := l } : State).setDrain ((s.shoots.flatMap (·.parts)).eraseDups)

/-! ## The reuse cache's registers (R98, R101) -/

/-- The pages a region of n pages from `page` takes all belong to partition j and to no queue region (R98, R102). -/
def State.regionOk (s : State) (j die page n : Nat) : Bool :=
  (List.range n).all fun i => decide (page + i < 24576) && s.inPart j (lsQuarter die (page + i)) && !queuePage (page + i)

/-- RCCFG.CFGERR (R98). -/
def State.rcErr (s : State) (j : Nat) : Bool :=
  let n := s.rcSlots j
  let hp := s.ctlFld (offRchbase j) 0 15
  let hd := s.ctlFld (offRchbase j) 15 1
  let dp := s.ctlFld (offRcdbase j) 0 15
  let dd := s.ctlFld (offRcdbase j) 15 1
  let hn := (n + 1023) / 1024
  let dn := (n + 3) / 4
  !s.regionOk j hd hp hn || !s.regionOk j dd dp dn
    || (hd == dd && decide (hp < dp + dn) && decide (dp < hp + hn))
    || (List.range 16).any fun t =>
      let c := s.ctlFld (offRcten j t) 16 14
      decide (c > 0) && decide (s.ctlFld (offRcten j t) 0 14 + c > n)

def State.rcCheck (s : State) (j : Nat) : State := s.ctlSetFld (offRccfg j) 16 1 (s.rcErr j).toNat

/-- The header of slot k (R98). -/
def State.rcHeaderAt (s : State) (j k : Nat) : LsAddr :=
  ⟨s.ctlFld (offRchbase j) 15 1, s.ctlFld (offRchbase j) 0 15 * 65536 + 64 * k⟩

def State.rcHeader (s : State) (j k : Nat) : Nat := natAt s.ls (s.rcHeaderAt j k).key 64

/-- A header written: a whole line; none while CFGERR is 1 (R98). -/
def State.setRcHeader (s : State) (j k n : Nat) : State :=
  if s.ctlFld (offRccfg j) 16 1 = 1 then s else s.lsWrite (s.rcHeaderAt j k) (List.replicate 64 true) (natLe 64 n) false

/-- RCINV_GO (R101); `die` is the partition whose block is written. -/
def execRcinvGo (die : Nat) (s : State) : Out :=
  .next (if s.ctlFld (offRcinv die) 6 1 = 1 then s
    else
      let rho := s.scyc + 64
      ((s.ctlSetFld (offRcinv die) 6 1 1).ctlSet (offRcirho die) (BitVec.ofNat 64 rho)).schedI .scyc rho (.rcInvalidateEffect die))

/-- A header matches an invalidation (R101). -/
def invMatches (w : Nat) (ten pat : Nat) : Bool :=
  bt w 5 || (ten == fld w 1 4 && (!bt w 7 || pat == fld w 16 16))

/-- The node has launched (log 98): a panel of it is placed, or its copies are queued. -/
def NodeRun.launched (x : NodeRun) : Bool :=
  match x.st with
  | .launched | .running | .finished => true
  | .waiting | .ready | .gated | .complete | .failed => false

/-- RC_INVALIDATE_EFFECT (R101): V is cleared in every matching header, and completion writes of nodes launched before are suppressed. -/
def execRcInvalidateEffect (die : Nat) (s : State) : Out :=
  let w := (s.ctlGet (offRcinv die)).toNat
  let s1 := (List.range (s.rcSlots die)).foldl (fun s k =>
    let n := s.rcHeader die k
    if bt n 0 && invMatches w (fld n 4 4) (fld n 16 16) then s.setRcHeader die k (descSet n 0 1 0) else s) s
  let s2 := s1.ctlSetFld (offRcinv die) 6 1 0
  .next { s2 with runs := s2.runs.map fun r =>
    if r.part = die ∧ invMatches w r.tenant r.patid then { r with prog := r.prog.map fun x => if x.launched then { x with cached := false } else x } else r }

/-! ## Control writes (R350) -/

/-- The writable bits of a plain register of the control space, of the tenant registers and the timing and fault blocks. -/
def ctlMask (off : Nat) : Nat :=
  if 0x10000 ≤ off ∧ off < 0x10080 then 2 ^ 14 - 1
  else if 0x10080 ≤ off ∧ off < 0x10100 then 2 ^ 64 - 1
  else if off = 0x41020 then 0x1FFFC
  else if 0xF0000 ≤ off ∧ off < 0xF0200 then (if off / 8 % 2 = 0 then 2 ^ 64 - 4 else 2 ^ 33 - 1)
  else 0

/-- The writable bits of a plain register of a partition's area. -/
def partCtlMask (o : Nat) : Nat :=
  if o < 0x40 then 2 ^ 64 - 1
  else if o = 0x48 then 0xFFFF
  else if o = 0x50 then 2 ^ 30 - 1
  else if 0x1000 ≤ o ∧ o < 0x1088 then 2 ^ 48 - 2 ^ 10 + 1
  else if o = 0x1088 then 2 ^ 48 - 2 ^ 22 + 63
  else if o = 0x1090 then 2 ^ 26 - 1
  else if o = 0x2000 ∨ o = 0x2008 then 0xFFFF
  else if o = 0x2010 then 0x3FFF
  else if 0x2018 ≤ o ∧ o < 0x2098 then 0x3FFF3FFF
  else 0

/-- Writable bits replaced; the others keep their value. -/
def State.ctlMerge (s : State) (off mask : Nat) (v : Word) : State :=
  let m := BitVec.ofNat 64 mask
  s.ctlSet off ((s.ctlGet off &&& ~~~m) ||| (v &&& m))

/-- A step of the part that a write of this cycle starts; it comes before whatever else the agenda holds for this cycle. -/
def State.go (s : State) (on : Bool) (i : Instr) : State := if on then { s with agenda := ⟨.scyc, s.scyc, .instr i⟩ :: s.agenda } else s

/-- A page of the dispatcher block (Table 16.1): the launch window, the event ring, TENCTL. -/
def tenantWrite (s : State) (t o : Nat) (v : Word) : State :=
  if o < 0x100 then
    let s1 : State := { s with launch := putBytes s.launch (256 * t + o) (natLe 8 v.toNat) }
    if o = 0xF8 then s1.schedI .scyc s.scyc (.launchRecordTake t) else s1
  else if o = 0x118 then s.go true (.evtpop t)
  else if o = 0x120 then (s.go (v.getLsbD 1) (.flush t)).go (v.getLsbD 0) (.cancel t)
  else s

/-- PARKSEL (R47, R48): a change of the selection stops a running test. -/
def parkWrite (s : State) (j : Nat) (v : Word) : State :=
  let old := (s.ctlGet (offParksel j)).toNat
  let s1 := if fld old 0 15 = fld v.toNat 0 15 then s else s.stopTest j
  let s2 := s1.ctlMerge (offParksel j) 0x7FFF v
  (s2.go (v.getLsbD 17) (.test j)).go (v.getLsbD 16 != bt old 16) (.park j (v.getLsbD 16))

/-- A register of partition j's area (Tables 3.5, 4.5, 6.9). The firmware context alone writes the memory-controller block (R41). -/
def partWrite (s : State) (host : Bool) (j o : Nat) (v : Word) : State :=
  let off := offPart j + o
  if o < 0x80 ∧ host then s
  else if o < 0x40 then (if s.ctlFld (offMemctl j) 1 1 = 1 then s else s.ctlMerge off (partCtlMask o) v)
  else if o = 0x40 then s.go (v.getLsbD 0) (.commit j)
  else if o = 0x58 then parkWrite s j v
  else if o = 0x70 then (if v.getLsbD 9 then s.ctlSetFld off 9 1 0 else s)
  else if o = 0x78 then s.go true (.faqpop j)
  else if o = 0x1098 then s.go (v.getLsbD 0) (.sdctlGo j)
  else if o = 0x2098 then
    (if s.ctlFld off 6 1 = 1 then s else ((s.ctlMerge off 0xFFFF00BE v).go (v.getLsbD 0) (.rcinvGo j)).rcCheck j)
  else if o = 0x20A8 then s.ctlSet off (s.ctlGet off &&& ~~~v)
  else
    let s1 := s.ctlMerge off (partCtlMask o) v
    if 0x2000 ≤ o ∧ o < 0x20B0 then s1.rcCheck j else s1

/-- The GiB that the active decoders but one map. -/
def State.decoded (s : State) (i : Nat) : Nat :=
  ((List.range 4).filter fun k => k != i && s.ctlFld (offCxldec k) 0 1 == 1).foldl (fun n k => n + s.ctlFld (offCxldec k) 32 20) 0

/-- The limits of CXLDEC (R357), and what a D8H decodes at most (R35, log 103). Its PORTS may name a port that the variant lacks (log 90). -/
def decOk (s : State) (i : Nat) (v : Word) : Bool :=
  let w := v.toNat
  let ports := fld w 3 4
  let n := ((List.range 4).filter fun p => bt ports p).length
  let lo := fld w 12 20
  let hi := lo + fld w 32 20
  let busy := fun (x : Nat) => (List.range 4).any fun p => bt x (3 + p) && s.cxlBusy p
  fld w 1 2 != 3 && n == 2 ^ fld w 1 2 && decide (hi ≤ 16384)
    && (s.variant != .d8h || !bt w 0 || decide (s.decoded i + fld w 32 20 ≤ 8192))
    && !busy w && !busy (s.ctlGet (offCxldec i)).toNat
    && (List.range 4).all fun k =>
      let y := (s.ctlGet (offCxldec k)).toNat
      k == i || !bt y 0 || hi == lo || decide (hi ≤ fld y 12 20) || decide (fld y 12 20 + fld y 32 20 ≤ lo)

/-- ADMIT as AVG and TJ give it (R329). -/
def State.setAdmit (s : State) : State :=
  let avg := s.ctlFld offPwravg 0 32
  let lim := s.ctlFld offPwrctl 0 12
  let tj := s.ctlFld offTemp 0 8
  s.ctlSetFld offPwrctl 15 1 (if avg > 1000 * lim ∨ tj ≥ s.ctlFld offTemp 8 8 then 0 else 1)

/-- The timing and fault blocks (Tables 17.3 and of R340). ADMIT follows a new PLIM or TWARN (R329). -/
def timingWrite (s : State) (off : Nat) (v : Word) : State :=
  let w := v.toNat
  if off = offSyncctl then
    let n := fld w 8 7
    let s1 := s.ctlMerge off (if n = 0 ∨ n > 64 then 0xFE else 0x7FFE) v
    s1.go (v.getLsbD 0) .syncctlStart
  else if off = offPwrctl then (if fld w 0 12 < 400 ∨ fld w 0 12 > tdp s.variant then s else (s.ctlMerge off 0xFFF v).setAdmit)
  else if off = offTemp then (if fld w 8 8 > fld w 16 8 ∨ fld w 16 8 > 110 then s else (s.ctlMerge off 0xFFFF00 v).setAdmit)
  else if off = offFrq + 16 then (if v.getLsbD 9 then s.ctlSetFld off 9 1 0 else s)
  else if off = offFrq + 24 then s.go true .frqpop
  else if 0x41028 ≤ off ∧ off < 0x41068 then
    let j := (off - 0x41028) / 8 % 4
    if s.slotsUsed j ≠ 0 then s
    else s.ctlMerge off (if off < 0x41048 then 2 ^ 48 - 2 ^ 21 else 0xFFF) v
  else s.ctlMerge off (ctlMask off) v

/-- The partition and CXL blocks (Tables 19.3, 3.7, R357). -/
def unitWrite (s : State) (host : Bool) (off : Nat) (v : Word) : State :=
  if 0x42000 ≤ off ∧ off < 0x42028 then
    if host ∨ s.ctlFld offPartctl 1 1 = 1 ∨ (s.variant = .d8h ∧ (off = offMemil 2 ∨ off = offMemil 3)) then s
    else s.ctlMerge off 7 v
  else if off = offPartctl then s.go (v.getLsbD 0) .partctlGo
  else if 0x43000 ≤ off ∧ off < 0x43020 then
    if host ∨ !decOk s ((off - 0x43000) / 8) v then s else s.ctlMerge off (2 ^ 52 - 2 ^ 12 + 0x7F) v
  else if 0x43040 ≤ off ∧ off < 0x43060 then
    let p := (off - 0x43040) / 8
    s.go (!host && v.getLsbD 1) (.retrain p (Config.linkTrains s.scyc p))
  else if off = offEvsrc ∨ off = offEvdst then
    (if s.ctlFld offEvctl 1 1 = 1 then s else s.ctlMerge off (2 ^ 48 - 2 ^ 16) v)
  else if off = offEvctl then s.go (v.getLsbD 0) .evctlGo
  else s

/-- A field of BOOTSTAT written; a change raises vector 18 (R359). -/
def State.setBoot (s : State) (lo n v : Nat) : State :=
  let s1 := s.ctlSetFld offBootstat lo n v
  if s1.ctlGet offBootstat = s.ctlGet offBootstat then s1 else s1.msix 18

/-- The boot and attestation block (Table 19.6). -/
def bootWrite (s : State) (host : Bool) (off : Nat) (v : Word) : State :=
  if off = offBootctl then (s.go (v.getLsbD 0) .bootctlGo).go (v.getLsbD 1) .bootctlRestart
  else if off = offBootstat then
    (if host then s else if v.getLsbD 7 then s.go true .ready else s.setBoot 7 1 0)
  else if offAttnonce ≤ off ∧ off < offAttctl then s.ctlSet off v
  else if off = offAttctl then s.go (v.getLsbD 0) .attctlGo
  else s

/-- A write of the MSI-X table (R350, log 104): a vector that is no longer masked sends what it has pending. -/
def msixWrite (s : State) (off : Nat) (v : Word) : State := (s.ctlMerge off (ctlMask off) v).msixFree ((off - offMsix) / 16)

/-- A write of 8 bytes to the control space at an 8-byte-aligned offset (R350), by the host or by the firmware context. -/
def State.ctlWrite (s : State) (host : Bool) (off : Nat) (v : Word) : State :=
  if off % 8 ≠ 0 ∨ absentBlock s.variant off then s
  else if off < 0x10000 then tenantWrite s (off / 0x1000) (off % 0x1000) v
  else if off < 0x10100 then (if host then s else s.ctlMerge off (ctlMask off) v)
  else if off < 0x10300 then
    (if host then s else { s with tenkey := putBytes s.tenkey (off - 0x10100) (natLe 8 v.toNat) })
  else if off < 0x40000 then s
  else if off < 0x42000 then timingWrite s off v
  else if off < 0x44000 then unitWrite s host off v
  else if off < 0x45000 then bootWrite s host off v
  else if 0x46000 ≤ off ∧ off < 0x46020 then s.go true (.ethcntClear ((off - 0x46000) / 8))
  else if 0x80000 ≤ off ∧ off < 0xC0000 then partWrite s host ((off - 0x80000) / 0x10000) (off % 0x10000) v
  else if 0xF0000 ≤ off ∧ off < 0xF0200 then msixWrite s off v
  else s.ctlMerge off (ctlMask off) v

/-- CONTROL_REGISTER_WRITE (R350). -/
def execControlRegisterWrite (host : Bool) (off : Nat) (v : BitVec 64) (s : State) : Out := .next (s.ctlWrite host off v)

/-- ETHCNT_CLEAR (R350). -/
def execEthcntClear (port : Nat) (s : State) : Out := .next (s.ctlSet (offEthcnt port) 0)

/-- EVTPOP (R299): ignored for an empty ring; a launch record held back by a full ring is taken in the next cycle. -/
def execEvtpop (tenant : Nat) (s : State) : Out :=
  let s1 : State := { s with events := spPut [] s.events tenant ((s.eventsOf tenant).drop 1) }
  .next (if s.launchFull.contains tenant then
      { s1 with launchFull := s1.launchFull.filter (· != tenant) }.schedI .scyc (s.scyc + 1) (.launchRecordTake tenant)
    else s1)

end Sys2Proof.Machine
end

