-- ==== Sys2Proof/Machine/Crypto.lean ====
section
/-!
DEFINITION. The public standards that the manual names (log 11): SHA-256 (FIPS 180-4), HMAC-SHA-256 (RFC 2104), and the verification of LMS
signatures with LMS_SHA256_M32_H15 and LMOTS_SHA256_N32_W4 (RFC 8554), for R302, R358 and R359.
-/
namespace Sys2Proof.Machine

/-! ## SHA-256 -/

/-- The largest x below `x0 + 2 ^ b` with x ^ k ≤ n, found bit by bit from x0 on. -/
def rootFrom (k n : Nat) : Nat → Nat → Nat
  | 0, x0 => x0
  | b + 1, x0 => rootFrom k n b (if (x0 + 2 ^ b) ^ k ≤ n then x0 + 2 ^ b else x0)

/-- The first 32 bits of the fraction of the k-th root of p: the standard takes its constants so. -/
def rootFraction (k p : Nat) : BitVec 32 := BitVec.ofNat 32 (rootFrom k (p * 2 ^ (32 * k)) 36 0)

/-- The primes below n, for n up to 324. -/
def primesBelow (n : Nat) : List Nat :=
  (List.range n).filter fun p => decide (1 < p) && (List.range 18).all fun d => decide (d < 2) || d == p || p % d != 0

/-- The round constants, from the cube roots of the first 64 primes. -/
def shaK : List (BitVec 32) := (primesBelow 312).map (rootFraction 3)

/-- The words that a hash begins with, from the square roots of the first eight primes. -/
def shaStart : List (BitVec 32) := (primesBelow 20).map (rootFraction 2)

/-- The exclusive or of a word rotated by three amounts. -/
def spin (x : BitVec 32) (i j k : Nat) : BitVec 32 := x.rotateRight i ^^^ x.rotateRight j ^^^ x.rotateRight k

/-- The message schedule grown by n words; the words stand with the newest first. -/
def shaSchedule : Nat → List (BitVec 32) → List (BitVec 32)
  | 0, w => w
  | n + 1, w =>
    let old := nth 0 w 14
    let late := nth 0 w 1
    let fromOld := old.rotateRight 7 ^^^ old.rotateRight 18 ^^^ (old >>> 3)
    let fromLate := late.rotateRight 17 ^^^ late.rotateRight 19 ^^^ (late >>> 10)
    shaSchedule n ((nth 0 w 15 + fromOld + nth 0 w 6 + fromLate) :: w)

/-- A round on the eight working words, with the sum of its constant and its schedule word: two words are new, the others move on by one
place. -/
def shaRound (x : List (BitVec 32)) (kw : BitVec 32) : List (BitVec 32) :=
  let at_ := fun i => nth 0 x i
  let choice := (at_ 4 &&& at_ 5) ||| (~~~(at_ 4) &&& at_ 6)
  let most := (at_ 0 &&& at_ 1) ||| (at_ 2 &&& (at_ 0 ||| at_ 1))
  let t := kw + at_ 7 + choice + spin (at_ 4) 6 11 25
  (t + most + spin (at_ 0) 2 13 22) :: x.take 3 ++ (at_ 3 + t) :: (x.drop 4).take 3

/-- A big-endian number. -/
def beNat (l : List Byte) : Nat := l.foldl (fun n b => 256 * n + b.toNat) 0

/-- The n big-endian bytes of a number. -/
def natBe (n v : Nat) : List Byte := (natLe n v).reverse

/-- The words of a block, newest first. -/
def blockWords : Nat → List Byte → List (BitVec 32) → List (BitVec 32)
  | 0, _, acc => acc
  | n + 1, bs, acc => blockWords n (bs.drop 4) (BitVec.ofNat 32 (beNat (bs.take 4)) :: acc)

/-- A block of 64 bytes taken into the eight words. -/
def shaBlock (x : List (BitVec 32)) (bs : List Byte) : List (BitVec 32) :=
  let w := (shaSchedule 48 (blockWords 16 bs [])).reverse
  List.zipWith (· + ·) x ((List.zipWith (· + ·) shaK w).foldl shaRound x)

/-- n blocks taken in. -/
def shaBlocks : Nat → List (BitVec 32) → List Byte → List (BitVec 32)
  | 0, x, _ => x
  | n + 1, x, bs => shaBlocks n (shaBlock x (bs.take 64)) (bs.drop 64)

/-- SHA-256: 32 bytes. The message is padded with a one bit, zeros and its length in bits to whole blocks. -/
def sha256 (m : List Byte) : List Byte :=
  let blocks := (m.length + 72) / 64
  let p := m ++ 0x80#8 :: List.replicate (64 * blocks - 9 - m.length) 0#8 ++ natBe 8 (8 * m.length)
  (shaBlocks blocks shaStart p).flatMap fun w => natBe 4 w.toNat

/-- HMAC-SHA-256 under a key of at most 64 bytes. -/
def hmacSha256 (key m : List Byte) : List Byte :=
  let k := key ++ List.replicate (64 - key.length) 0#8
  sha256 (k.map (· ^^^ 0x5C#8) ++ sha256 (k.map (· ^^^ 0x36#8) ++ m))

/-! ## LMS (R358) -/

/-- The type codes of LMOTS_SHA256_N32_W4 and LMS_SHA256_M32_H15. -/
def lmotsType : Nat := 3

def lmsType : Nat := 7

/-- The digits of 4 bits of a string, high first. -/
def nibbles (l : List Byte) : List Nat := l.flatMap fun b => [b.toNat / 16, b.toNat % 16]

/-- The checksum of the 64 digits of a digest, in 2 bytes. -/
def lmotsChecksum (ds : List Nat) : List Byte := natBe 2 ((ds.foldl (fun n d => n + (15 - d)) 0) * 16)

/-- A hash chain of an LM-OTS key from digit `d` up to 15. -/
def lmotsChain (key : List Byte) (q i : Nat) : Nat → Nat → List Byte → List Byte
  | 0, _, x => x
  | n + 1, j, x => lmotsChain key q i n (j + 1) (sha256 (key ++ natBe 4 q ++ natBe 2 i ++ natBe 1 j ++ x))

/-- The LM-OTS public key that a signature of a message stands for. -/
def lmotsCandidate (key : List Byte) (q : Nat) (sig msg : List Byte) : List Byte :=
  let c := (sig.drop 4).take 32
  let ds := nibbles (sha256 (key ++ natBe 4 q ++ [0x81#8, 0x81#8] ++ c ++ msg))
  let all := ds ++ (nibbles (lmotsChecksum ds)).take 3
  let z := (all.zipIdx.flatMap fun x =>
    lmotsChain key q x.2 (15 - x.1) x.1 ((sig.drop (36 + 32 * x.2)).take 32))
  sha256 (key ++ natBe 4 q ++ [0x80#8, 0x80#8] ++ z)

/-- The root of the Merkle tree from a leaf, up its path. -/
def lmsRoot (key : List Byte) : Nat → Nat → List Byte → List Byte → List Byte
  | 0, _, x, _ => x
  | n + 1, node, x, path =>
    let p := path.take 32
    let y := if node % 2 = 1 then p ++ x else x ++ p
    lmsRoot key n (node / 2) (sha256 (key ++ natBe 4 (node / 2) ++ [0x83#8, 0x83#8] ++ y)) (path.drop 32)

/-- The bytes of a signature: q, LM-OTS signature, type, path. -/
def lmsSigLen : Nat := 2668

/-- The signature of a message verifies against a public key of an identifier of 16 bytes and a root of 32. -/
def lmsVerify (pub sig msg : List Byte) : Bool :=
  let key := pub.take 16
  let root := (pub.drop 16).take 32
  let q := beNat (sig.take 4)
  let ots := (sig.drop 4).take 2180
  let path := sig.drop 2188
  if sig.length ≠ lmsSigLen ∨ beNat (ots.take 4) ≠ lmotsType ∨ beNat ((sig.drop 2184).take 4) ≠ lmsType ∨ q ≥ 2 ^ 15 then false
  else
    let node := 2 ^ 15 + q
    let leaf := sha256 (key ++ natBe 4 node ++ [0x82#8, 0x82#8] ++ lmotsCandidate key q ots msg)
    lmsRoot key 15 node leaf path == root

end Sys2Proof.Machine
end

