-- ==== Sys2Proof/Machine/Launch.lean ====
section
/-!
DEFINITION. Launch records and frames, their arrival, the tenant queues, and the events of the tenants' rings (16, R297 to R304, R313).
-/
namespace Sys2Proof.Machine

/-! ## Launch records (Table 16.3) -/

/-- n little-endian bytes of a byte string from offset o. -/
def fieldAt (l : List Byte) (o n : Nat) : Nat := leNat ((l.drop o).take n)

/-- Every byte from offset o, n of them, is 0. -/
def zeroAt (l : List Byte) (o n : Nat) : Bool := ((l.drop o).take n).all (· == 0#8)

def recTag (r : List Byte) : Nat := fieldAt r 8 8
def recImage (r : List Byte) : Nat := fieldAt r 0x10 8
def recStepVa (r : List Byte) : Nat := fieldAt r 0x18 8
def recNstep (r : List Byte) : Nat := fieldAt r 0x20 4
def recPart (r : List Byte) : Nat := fieldAt r 0x24 1
def recBind (r : List Byte) (i : Nat) : Nat := fieldAt r (0x80 + 8 * i) 8

/-- Code 1, FORMAT (R313). -/
def recFormatBad (r : List Byte) : Bool :=
  fieldAt r 0 2 != 1 || fld (fieldAt r 2 1) 4 4 != 0 || fld (fieldAt r 3 1) 1 7 != 0
    || fld (recNstep r) 16 16 != 0 || !zeroAt r 0x25 27 || !zeroAt r 0x48 56
    || (List.range 16).any (fun i => fld (recBind r i) 7 9 != 0 || fld (recBind r i) 48 16 != 0)
    || (recNstep r != 0 && recStepVa r % 256 != 0)

/-! ## Events and replies (R299, R302) -/

/-- An event entry (Table 16.2). -/
def eventOf (value node step type code : Nat) : Event :=
  BitVec.ofNat 128 (value % 2 ^ 64 + 2 ^ 64 * (node % 2 ^ 16) + 2 ^ 80 * (step % 2 ^ 32) + 2 ^ 112 * (type % 256)
    + 2 ^ 120 * (code % 256))

/-- The ring of a tenant is full (R299). -/
def State.ringFull (s : State) (t : Nat) : Bool := decide ((s.eventsOf t).length ≥ 64)

/-- An event appended, and the tenant's vector raised (R299, R359). -/
def State.pushEvent (s : State) (t : Nat) (e : Event) : State :=
  ({ s with events := spPut [] s.events t (s.eventsOf t ++ [e]) } : State).msix t

/-- A tenant's key (TENKEY). -/
def State.tenKey (s : State) (t : Nat) : List Byte := bytesAt s.tenkey (32 * t) 32

/-- The reply to an Ethernet launch (Table 16.4), sent to its source address without a tag (log 24). -/
def State.replyTo (s : State) (dst : Option (Nat × List Byte × Nat)) (t status event tag : Nat) : State :=
  match dst with
  | none => s
  | some (port, macs, seq) =>
    let body := [2#8, BitVec.ofNat 8 (t % 16)] ++ natLe 2 1 ++ natLe 8 seq ++ [BitVec.ofNat 8 status, BitVec.ofNat 8 event]
      ++ [0#8, 0#8] ++ natLe 8 tag ++ List.replicate 16 0#8
    s.send (.reply port (macs ++ [0x88#8, 0xB5#8] ++ body ++ hmacSha256 (s.tenKey t) body))

/-! ## Arrival (R298, R303) -/

/-- Firmware has written READY, and the dispatcher runs (R358, R338). -/
def State.takesRecords (s : State) : Bool := s.ctlFld offBootstat 7 1 == 1 && !s.dispHalt

/-- A tenant's run queue (R94, R303); none while its partition does not exist. -/
def State.runQueue (s : State) (t : Nat) : Option Nat :=
  if s.partOn (s.tenPart t) then some (512 * s.tenPart t + 496 + t) else none

/-- The partitions involved in a change under way refuse records (R355). -/
def State.partBusy (s : State) (j : Nat) : Bool :=
  match s.partChange with
  | some c => decide (s.scyc < c.rho) && c.parts.contains j
  | none => false

/-- The first failing check of codes 1 to 5 (R303, R313), for a record of tenant `t`'s window or frame. -/
def State.arrivalCode (s : State) (t : Nat) (r : List Byte) : Option Nat :=
  if recFormatBad r then some 1
  else if s.ctlFld (offTencfg t) 0 1 = 0 ∨ fieldAt r 2 1 ≠ t then some 2
  else if (match s.runQueue t with | some q => decide (descCount (s.queueDesc q) ≥ 64) | none => false) then some 4
  else if recPart r ≠ s.tenPart t ∨ (s.runQueue t).isNone ∨ s.partBusy (recPart r) then some 5
  else none

/-- The lowest free record buffer of a tenant. -/
def State.freeBuf (s : State) (t : Nat) : Nat :=
  ((List.range 64).find? fun i => (spGet none s.bufs (64 * t + i)).isNone).getD 0

/-- A record that has passed enters its tenant's queue (R303). -/
def State.queueRun (s : State) (t q : Nat) (b : RecBuf) : State :=
  let i := s.freeBuf t
  let s1 := if descInit (s.queueDesc q) then s else (s.queueOp (.init t) q 0 3).1
  let s2 := (s1.queueEnq q (BitVec.ofNat 64 i)).1
  { s2 with bufs := spPut none s2.bufs (64 * t + i) (some b) }

/-- A record taken (R298, R303). -/
def State.takeRecord (s : State) (t : Nat) (b : RecBuf) : State :=
  match s.arrivalCode t b.rec_, s.runQueue t with
  | none, some q => (s.queueRun t q b).replyTo b.reply t 0 0 (recTag b.rec_)
  | c, _ =>
    let code := c.getD 5
    (s.pushEvent t (eventOf (recTag b.rec_) 0xFFFF 0 3 code)).replyTo b.reply t code 0 (recTag b.rec_)

/-- LAUNCH_RECORD_TAKE (R298, R299): before READY the record is not taken; a full ring holds it back. -/
def execLaunchRecordTake (tenant : Nat) (s : State) : Out :=
  .next (if !s.takesRecords || decide (tenant ≥ 16) then s
    else if s.ringFull tenant then
      (if s.launchFull.contains tenant then s else { s with launchFull := s.launchFull ++ [tenant] })
    else s.takeRecord tenant ⟨bytesAt s.launch (256 * tenant) 256, none, s.nextId⟩)

/-! ## Ethernet launch frames (R302) -/

/-- Both counters of a port saturate (R350). -/
def State.ethCount (s : State) (port lo : Nat) : State :=
  s.ctlSetFld (offEthcnt port) lo 32 (min (2 ^ 32 - 1) (s.ctlFld (offEthcnt port) lo 32 + 1))

/-- The payload of a frame with EtherType 0x88B5, untagged or with one IEEE 802.1Q tag. -/
def framePayload (f : List Byte) : Option (List Byte) :=
  let ty := beNat ((f.drop 12).take 2)
  if ty = 0x88B5 then some (f.drop 14)
  else if ty = 0x8100 ∧ beNat ((f.drop 16).take 2) = 0x88B5 then some (f.drop 18)
  else none

/-- The frame is addressed to the port's own MAC address (log 108). -/
def frameTo (port : Nat) (f : List Byte) : Bool := beNat (f.take 6) == (Config.portMac port).toNat

/-- Checks 1 to 4 of R302. -/
def State.frameOk (s : State) (p : List Byte) : Bool :=
  let t := fieldAt p 1 1
  let key := s.tenKey t
  p.length == 300 && fieldAt p 0 1 == 1 && decide (t < 16) && fieldAt p 2 2 == 1
    && s.ctlFld (offTencfg t) 0 1 == 1 && s.ctlFld (offTencfg t) 13 1 == 1 && key.any (· != 0#8)
    && hmacSha256 key (p.take 268) == p.drop 268
    && decide (fieldAt p 4 8 > (s.ctlGet (offTenseq t)).toNat)

/-- A frame that has passed checks 1 to 4: TENSEQ is set, and the record is refused or taken (R302, R299). -/
def State.takeFrame (s : State) (port : Nat) (f p : List Byte) : State :=
  let t := fieldAt p 1 1
  let seq := fieldAt p 4 8
  let r := (p.drop 12).take 256
  let reply := some (port, ((f.drop 6).take 6 ++ f.take 6), seq)
  let s1 := s.ctlSet (offTenseq t) (BitVec.ofNat 64 seq)
  if s1.ringFull t then s1.replyTo reply t 4 0 (recTag r)
  else if fieldAt r 2 1 ≠ t then
    (s1.pushEvent t (eventOf (recTag r) 0xFFFF 0 3 2)).replyTo reply t 2 0 (recTag r)
  else
    let s2 := s1.takeRecord t ⟨r, reply, s1.nextId⟩
    if (s1.arrivalCode t r).isNone then s2.ethCount port 0 else s2

/-- ETH_LAUNCH_FRAME (R302): a frame to another address is no launch frame; before READY a frame is dropped without a reply, uncounted;
where a check of 1 to 4 fails, it is counted as AUTH. -/
def execEthLaunchFrame (port : Nat) (frame : List (BitVec 8)) (s : State) : Out :=
  .next (if !s.takesRecords || decide (port ≥ 4) || !frameTo port frame then s
    else match framePayload frame with
      | none => s
      | some p => if s.frameOk p then s.takeFrame port frame p else s.ethCount port 32)

/-! ## Runs that end (R299, R307) -/

/-- A tenant's active run: one that has started (R304). -/
def State.activeRun (s : State) (t : Nat) : Option Run :=
  s.runs.find? fun r => r.tenant == t && (match r.cancel with | some (3, _) => false | _ => true)

/-- A run that has not been cancelled and whose dispatcher goes on. -/
def State.liveRun (s : State) (id : Nat) : Option Run :=
  if s.dispHalt then none else s.runs.find? fun r => r.id == id && r.cancel.isNone

/-- A tenant's pinned span-cache entries let go (R56). -/
def State.unpin (s : State) (t : Nat) : State :=
  { s with spans := s.spans.map fun e => (e.1, e.2.map fun x => if x.space = t then { x with pinned := false } else x) }

/-- The run's event and, where the record asks for it, its reply (R299, R302); the run leaves. -/
def State.retire (s : State) (r : Run) (step type code : Nat) : State :=
  let s1 := s.pushEvent r.tenant (eventOf (recTag r.rec_) 0xFFFF step type code)
  let s2 := if bt (fieldAt r.rec_ 3 1) 0 then
      s1.replyTo r.reply r.tenant code (if type = 3 then 0 else type) (recTag r.rec_) else s1
  let s3 := if type = 3 ∧ code = 16 then s2 else s2.unpin r.tenant
  { s3 with runs := s3.runs.filter fun x => x.id != r.id }

/-- A signal node that is ready, and held back by a full ring. -/
def Run.signalReady (r : Run) (n : Nat) : Bool :=
  match r.prog[n]?, r.nodes[n]? with
  | some x, some y => y.kind == 2 && x.st == .ready
  | _, _ => false

/-- Everything that R274 asks of a panel node has performed. -/
def State.panelDone (s : State) (pid : Nat) : Bool :=
  !(s.panels.any fun p => p.pid == pid) && !(s.saved.any fun v => v.panel.pid == pid)
    && !(s.pend.any fun x => x.clk == .panel pid)
    && !(s.copies.any fun c => c.pid == some pid && !s.copyOver c)

/-- Every line of a COPY node has performed. -/
def State.copyNodeDone (s : State) (id n : Nat) : Bool := !(s.copies.any fun c => c.node == some (id, n) && !c.done)

/-- Nothing that a run has launched has an access left: its panels, its COPY nodes and its ready signals (R307, R292). -/
def State.launchedDone (s : State) (r : Run) : Bool :=
  !(s.panels.any fun p => p.run == r.id) && !(s.saved.any fun v => v.panel.run == r.id)
    && (r.prog.all fun x => x.pid.all fun q => s.panelDone q && !(s.copies.any fun c => c.pid == some q && s.writesAsked c))
    && (List.range r.nodes.length).all fun n => s.copyNodeDone r.id n && !r.signalReady n

/-- What a run waits for before it retires (R295, R307, R299). -/
def State.mayRetire (s : State) (r : Run) : Option (Nat × Nat × Nat) :=
  if s.ringFull r.tenant ∨ s.dispHalt then none
  else match r.cancel with
    | none => if r.step ≥ r.nstep ∧ !r.rowRead then some (r.nstep, 2, 0) else none
    | some (3, code) => some (0, 3, code)
    | some (type, code) => if s.launchedDone r then some (r.step, type, code) else none

/-- RUN_RETIRE (R307). -/
def execRunRetire (run : Nat) (s : State) : Out :=
  .next (match s.runs.find? fun r => r.id == run with
    | none => s
    | some r => match s.mayRetire r with | some x => s.retire r x.1 x.2.1 x.2.2 | none => s)

/-- CANCEL (R307): the tenant's active run. -/
def execCancel (tenant : Nat) (s : State) : Out :=
  .next (match s.activeRun tenant with
    | some r => if r.cancel.isNone then s.endRun r.id 5 0 else s
    | none => s)

/-- A run that has its record alone. -/
def newRun (id t part : Nat) (b : RecBuf) : Run :=
  { id := id, tenant := t, part := part, rec_ := b.rec_, reply := b.reply, precs := [], scheds := [], bind := [], nodes := [],
    edges := [], nstep := recNstep b.rec_, step := 0, rowRead := false, k := List.replicate 16 0, gslot := [], prog := [], cancel := none,
    patid := fieldAt b.rec_ 6 2, image := 0 }

/-- A run put into the list. -/
def State.addRun (s : State) (r : Run) : State := { s with runs := s.runs ++ [r], nextId := max s.nextId (r.id + 1) }

/-- The head of a tenant's queue taken, with its record. -/
def State.takeRun (s : State) (t : Nat) : Option (State × RecBuf) :=
  match s.runQueue t with
  | none => none
  | some q =>
    let n := s.queueDesc q
    if !descInit n || descCount n == 0 then none
    else
      let r := s.queueTake q
      let k := 64 * t + r.2.1.toNat
      (spGet none r.1.bufs k).map fun b => ({ r.1 with bufs := spPut none r.1.bufs k none }, b)

/-- Queued runs refused with code CANCELLED: each retires at once, or when its ring has room. -/
def State.flushRuns (s : State) (t : Nat) : Nat → State
  | 0 => s
  | k + 1 =>
    match s.takeRun t with
    | none => s
    | some (s1, b) =>
      let r := { newRun s1.nextId t (recPart b.rec_) b with cancel := some (3, 16) }
      let s2 := s1.addRun r
      (match s2.mayRetire r with | some x => s2.retire r x.1 x.2.1 x.2.2 | none => s2).flushRuns t k

/-- FLUSH (R297, R313). -/
def execFlush (tenant : Nat) (s : State) : Out := .next (s.flushRuns tenant 64)

end Sys2Proof.Machine
end

