-- ==== Sys2Proof/Machine/Boot.lean ====
section
/-!
DEFINITION. Boot of the firmware, fundamental reset, and attestation (19, R358, R359).
-/
namespace Sys2Proof.Machine

/-! ## BOOTSTAT -/

/-- BOOTSTAT.STATE. -/
def State.bootState (s : State) : Nat := s.ctlFld offBootstat 0 3

/-- READY (R358): launch records are taken from now on. -/
def execReady (s : State) : Out := .next (s.setBoot 7 1 1)

/-- BOOTCTL_GO (R358, Table 19.6): ignored unless STATE is 0 or 3. -/
def execBootctlGo (s : State) : Out :=
  .next (if s.bootState = 0 ∨ s.bootState = 3 then s.setBoot 0 7 1 else s)

/-! ## The firmware image (Table 19.5) -/

/-- n little-endian bytes of the staged image, in pages 0 to 63 of LS0. -/
def State.imageField (s : State) (o n : Nat) : Nat := natAt s.ls o n

def State.imageCode (s : State) : Nat := s.imageField 8 4

def State.imageSigned (s : State) : Nat := 64 + s.imageCode + s.imageField 12 4

/-- The limits of Table 19.5 are broken. -/
def State.imageLengthBad (s : State) : Bool :=
  let c := s.imageCode
  let e := s.imageField 16 4
  c % 4 != 0 || decide (c > 16384) || decide (s.imageSigned + lmsSigLen > 0x400000) || e % 4 != 0 || decide (e ≥ c)

/-- The refusal of the staged image, if any, in the order of the codes (Table 19.6). -/
def State.imageRefusal (s : State) : Option Nat :=
  if bytesAt s.ls 0 4 ≠ [0x57#8, 0x46#8, 0x57#8, 0x01#8] then some 1
  else if s.imageLengthBad then some 2
  else if !lmsVerify Config.vendorKey (bytesAt s.ls s.imageSigned lmsSigLen) (bytesAt s.ls 0 s.imageSigned) then some 3
  else if s.imageField 4 4 < natAt s.nv 0 4 then some 4
  else none

/-- h0 of the firmware context at its start: LS0 pages 0 to 63 (R358). -/
def bootHandle (s : State) : Handle :=
  { Handle.zero with
    v := true, w := true, sp := true, npgm1 := 63, gen := BitVec.ofNat 16 (s.epochOf fwSpace),
    valid := BitVec.allOnes 64, res := BitVec.allOnes 64 }

/-- The firmware context started at ENTRY. -/
def State.startFirmware (s : State) (h0 : Option Handle) : State :=
  s.updCtx 0 3 fun _ => { Ctx.idle with
    st := .running, pc := BitVec.ofNat 16 (0xC000 + s.fwEntry), next := s.scyc,
    h := match h0 with | some h => spPut Handle.zero [] 0 h | none => [] }

/-- An image that has passed: measured, loaded and started (R358); a higher SVN raises the stored minimum (R359). -/
def State.acceptImage (s : State) : State :=
  let digest := sha256 (bytesAt s.ls 0 s.imageSigned)
  let m := sha256 (natLe 32 s.attM.toNat ++ digest)
  let code := bytesAt s.ls 64 s.imageCode
  let s1 : State := { s with
    attM := BitVec.ofNat 256 (leNat m)
    attLog := s.attLog ++ [BitVec.ofNat 256 (leNat digest)]
    nv := putBytes s.nv 0 (natLe 4 (max (natAt s.nv 0 4) (s.imageField 4 4)))
    fwEntry := s.imageField 16 4 }
  let s2 := s1.updCore 0 fun c => { c with
    istore := putBytes c.istore 0xC000 ((code ++ List.replicate (0x4000 - code.length) 0#8).take 0x4000)
    ovtag := spPut 0 c.ovtag 3 (BitVec.ofNat 64 (2 ^ 32 - 1 + 2 ^ 40)) }
  (s2.startFirmware (some (bootHandle s2))).setBoot 0 7 2

/-- BOOT_VERIFY_DONE (R358). -/
def execBootVerifyDone (s : State) : Out :=
  .next (if s.bootState ≠ 1 then s
    else match s.imageRefusal with
      | some code => s.setBoot 0 7 (3 + 8 * code)
      | none => s.acceptImage)

/-- BOOTCTL_RESTART (R358): in STATE 4 alone, with the registers of Table 7.1. -/
def execBootctlRestart (s : State) : Out :=
  .next (if s.bootState = 4 then (s.startFirmware none).setBoot 0 3 2 else s)

/-! ## Attestation (R359) -/

/-- The next one-time key index, in the non-volatile store. -/
def State.keyIndex (s : State) : Nat := natAt s.nv 4 4

/-- A 256-bit value as its bytes. -/
def hashBytes (m : BitVec 256) : List Byte := natLe 32 m.toNat

/-- The body of a report. -/
def State.reportBody (s : State) : List Byte :=
  hashBytes s.attM ++ ((List.range 4).flatMap fun i => natLe 8 (s.ctlGet (offAttnonce + 8 * i)).toNat)
    ++ natLe 4 s.attLog.length ++ natLe 4 s.keyIndex

/-- Bytes put into the report buffer of 4,096 bytes; what lies beyond it is lost. -/
def State.putReport (s : State) (o : Nat) (bs : List Byte) : State := { s with attBuf := putBytes s.attBuf o (bs.take (4096 - o)) }

/-- ATTCTL_GO (R359): body and log; with every one-time key used, EXH and no signature. -/
def execAttctlGo (s : State) : Out :=
  .next (if s.ctlFld offAttctl 1 1 = 1 then s
    else
      let s1 := s.putReport 0 (s.reportBody ++ s.attLog.flatMap hashBytes)
      if s.keyIndex ≥ 32768 then s1.ctlSetFld offAttctl 2 1 1 else s1.ctlSetFld offAttctl 1 1 1)

/-- ATTEST_REPORT_COMPLETE (R359): IDX + 1 is stored before the signature of the body under IDX is written. -/
def execAttestReportComplete (s : State) : Out :=
  .next (if s.ctlFld offAttctl 1 1 ≠ 1 then s
    else
      let i := s.keyIndex
      let body := bytesAt s.attBuf 0 72
      let n := leNat (bytesAt s.attBuf 64 4)
      let s1 : State := { s with nv := putBytes s.nv 4 (natLe 4 (i + 1)) }
      let s2 := s1.putReport (72 + 32 * n) ((Config.deviceSign i body).take lmsSigLen)
      (s2.ctlSetFld offAttctl 1 1 0).ctlSetFld offAttctl 32 16 (i + 1))

/-! ## Fundamental reset (R315, R358) -/

/-- FUNDAMENTAL_RESET: the state of State.reset, with the part's variant and its non-volatile store (R359). -/
def execFundamentalReset (s : State) : Out :=
  let s1 : State := { State.reset with variant := s.variant, nv := s.nv, out := s.out, free := s.free }
  .next (s1.ctlSetFld offAttctl 32 16 (natAt s.nv 4 4))

end Sys2Proof.Machine
end

