-- ==== Sys2Proof/Machine/Bundle.lean ====
section
/-!
DEFINITION. Fetch and decode of one issue cycle (08, R120 to R146): headers, continuation headers, delta slots, and the checks
that span the words of a bundle.
-/
namespace Sys2Proof

/-- An architectural register as a destination (R140). Registers of clusters carry their cluster. -/
inductive Dest where
  | s (r : BitVec 5)
  | q (r : BitVec 3)
  | h (r : BitVec 4)
  | b (r : BitVec 3)
  | v (c : Nat) (r : BitVec 5)
  | m (c : Nat) (r : BitVec 3)
  | t (r : BitVec 4)
  | l (n : BitVec 2)
  | a (n : BitVec 2)
  | sr (n : Nat)
  deriving DecidableEq, Repr

/-- s0, q0 and m0 are exempt (R140). -/
def Dest.counts : Dest → Bool
  | .s r => r != 0
  | .q r => r != 0
  | .m _ r => r != 0
  | _ => true

/-- The stage predicates q4 to q7. -/
def qStages : List Dest := [.q 4, .q 5, .q 6, .q 7]

/-- The registers that a slot word names as destinations, explicit and implicit (R140); `c` is its cluster, `nrot` LPCTL.NROT at
issue. -/
def Instr.dests (c nrot : Nat) : Instr → List Dest
  | .add _ d _ _ | .sub _ d _ _ | .and _ d _ _ | .or _ d _ _ | .xor _ d _ _ | .shl _ d _ _
  | .shr _ d _ _ | .sar _ d _ _ | .mul _ d _ _ | .mulh _ d _ _ | .mulhn _ d _ _ | .div _ d _ _
  | .divn _ d _ _ | .rem _ d _ _ | .remn _ d _ _ | .min _ d _ _ | .max _ d _ _ | .minn _ d _ _
  | .maxn _ d _ _ | .clz _ d _ | .popc _ d _ | .mov _ d _ | .movFromB _ d _ | .sel _ d _ _ _
  | .bfx _ d _ _ _ | .bfi _ d _ _ _ | .addi _ _ d _ _ | .andi _ _ d _ _ | .ori _ _ d _ _ | .xori _ _ d _ _
  | .shli _ d _ _ | .shri _ d _ _ | .sari _ d _ _ | .li _ _ d _ | .lih _ d _ | .getsr _ d _
  | .fill _ d _ | .call _ _ d _ | .fence d _ | .drift d _ | .lds _ _ d _ _ _ | .ldsIndexed _ d _ _ _
  | .ldl _ _ d _ _ _ | .ldlIndexed _ d _ _ _ | .aadd _ d _ _ _ _ | .amin _ d _ _ _ _ | .amax _ d _ _ _ _ | .aminn _ d _ _ _ _
  | .amaxn _ d _ _ _ _ | .aand _ d _ _ _ _ | .aor _ d _ _ _ _ | .axor _ d _ _ _ _ | .aswp _ d _ _ _ _ | .acas _ d _ _ _ _
  | .qenq _ d _ _ | .qdeq _ d _ | .qlen _ d _ | .rld _ _ d _ _ _ _ | .vpopm _ _ d _ | .vext _ _ d _ _
  | .mstat _ d | .pgreq _ d _ _ => [.s d]
  | .movToB _ d _ => [.b d]
  | .cmp _ q _ _ _ => [.q q]
  | .pand _ d _ _ | .por _ d _ _ | .pxor _ d _ _ | .pnot _ d _ => [.q d]
  | .setsr _ _ n => [.sr n.toNat]
  | .lpset _ _ _ => .sr 8 :: qStages
  | .loop _ _ _ => .sr 8 :: qStages ++ (List.range nrot).map fun j => .b (BitVec.ofNat 3 j)
  | .xlat _ h _ _ => [.h h]
  | .hchk _ d _ q | .qtry _ d _ q => [.s d, .q q]
  | .vld _ _ v _ _ _ | .vlds _ _ v _ _ _ | .vldx _ _ v _ _ _ | .vldl _ _ v _ _ _ | .vadd _ _ v _ _ _ _ | .vsub _ _ v _ _ _ _
  | .vmul _ _ v _ _ _ _ | .vfma _ _ v _ _ _ _ | .vfms _ _ v _ _ _ _ | .vmin _ _ v _ _ _ _ | .vmax _ _ v _ _ _ _ | .vabs _ _ v _ _ _
  | .vneg _ _ v _ _ _ | .vdiv _ _ v _ _ _ _ | .vsqrt _ _ v _ _ _ | .vsqrtPv _ _ v _ _ _ | .vrcp _ _ v _ _ _ | .vrsq _ _ v _ _ _
  | .vexp2 _ _ v _ _ _ | .vlog2 _ _ v _ _ _ | .vsinpi _ _ v _ _ _ | .vcospi _ _ v _ _ _ | .vsel _ _ v _ _ _ | .vand _ _ v _ _ _
  | .vor _ _ v _ _ _ | .vxor _ _ v _ _ _ | .vnot _ _ v _ _ | .vshl _ _ v _ _ _ _ | .vshr _ _ v _ _ _ _ | .vsar _ _ v _ _ _ _
  | .vcvt _ _ v _ _ _ _ | .vqnt _ _ v _ _ _ | .vpack _ _ v _ _ _ _ | .vunpk _ _ v _ _ _ _ | .vperm _ _ v _ _ _ | .vbcast _ _ v _ _
  | .vins _ _ v _ _ | .vrsum _ _ v _ _ _ | .vrmax _ _ v _ _ _ | .vrmin _ _ v _ _ _ | .vdot _ _ v _ _ _ _ | .vdelta _ _ v _ _ _ _
  | .vrnd _ _ v _ | .vgauss _ _ v _ | .xcp _ _ v _ _ _ | .xbc _ _ v _ _ _ => [.v c v]
  | .vcmp _ _ d _ _ _ _ _ | .mand _ _ d _ _ | .mor _ _ d _ _ | .mnot _ _ d _ => [.m c d]
  | .vdqnt _ _ v _ _ t => if t = .f32 then [.v c v, .v c (v + 1)] else [.v c v]
  | .tld _ _ t _ _ _ | .tldl _ _ t _ _ | .tldlIndexed _ t _ _ => [.t t]
  | .tzero _ d | .ttr _ d _ | .tcp _ d _ | .acrd _ d _ _ _ _ _ => [.t d]
  | .latch _ n _ => [.l n]
  | .mma _ c _ _ _ | .mmaCl _ c _ _ _ => [.a c]
  | .acz _ _ a _ => [.a a]
  | .acadd _ n _ | .acwr _ n _ | .acrest _ _ n _ _ | .nred _ n _ _ => [.a n]
  | _ => []

/-- The scalar registers that a slot word reads (R141). -/
def Instr.sreads : Instr → List (BitVec 5)
  | .add _ _ a b | .sub _ _ a b | .and _ _ a b | .or _ _ a b | .xor _ _ a b | .shl _ _ a b
  | .shr _ _ a b | .sar _ _ a b | .mul _ _ a b | .mulh _ _ a b | .mulhn _ _ a b | .div _ _ a b
  | .divn _ _ a b | .rem _ _ a b | .remn _ _ a b | .min _ _ a b | .max _ _ a b | .minn _ _ a b
  | .maxn _ _ a b | .cmp _ _ a b _ | .sel _ _ a b _ | .xlat _ _ a b | .hinv _ a b | .qinit _ a b
  | .qenq _ _ a b | .vlds _ _ _ a b _ => [a, b]
  | .clz _ _ a | .popc _ _ a | .mov _ _ a | .movToB _ _ a | .bfx _ _ a _ _ | .addi _ _ _ a _
  | .andi _ _ _ a _ | .ori _ _ _ a _ | .xori _ _ _ a _ | .shli _ _ a _ | .shri _ _ a _ | .sari _ _ a _
  | .setsr _ a _ | .spill _ a _ | .jmpr _ a | .ret _ a | .lpset _ a _ | .drift _ a
  | .qdeq _ _ a | .qtry _ _ a _ | .qlen _ _ a | .vldx _ _ _ a _ _ | .vstx _ _ _ a _ _ | .vbcast _ _ _ a _
  | .vins _ _ _ a _ | .sqpsh _ a | .rqseed _ a | .rqpos _ a => [a]
  | .bfi _ d a _ _ => [a, d]
  | .lih _ d _ | .stl _ _ d _ _ _ => [d]
  | .lds _ _ _ base _ _ | .vld _ _ _ base _ _ | .vst _ _ _ base _ _ | .acsave _ _ _ base _ | .acrest _ _ _ base _ | .cpy _ _ base _
  | .sqld _ _ base _ => base.sregs
  | .ldsIndexed _ _ base _ x => x :: base.sregs
  | .sts _ _ d base _ _ => d :: base.sregs
  | .stsIndexed _ d base _ x => d :: x :: base.sregs
  | .ldlIndexed _ _ _ _ x => [x]
  | .stlIndexed _ d _ _ x => [d, x]
  | .aadd _ _ _ i x _ | .amin _ _ _ i x _ | .amax _ _ _ i x _ | .aminn _ _ _ i x _ | .amaxn _ _ _ i x _ | .aand _ _ _ i x _
  | .aor _ _ _ i x _ | .axor _ _ _ i x _ | .aswp _ _ _ i x _ => [i, x]
  | .acas _ d _ i x _ => [i, x, d]
  | .rld _ _ _ k a _ _ => [k, a]
  | .rst _ _ d k a _ _ => [k, a, d]
  | .tld _ _ _ base r _ | .tst _ _ _ base r _ => r :: base.sregs
  | .tldlIndexed _ _ _ i | .tstlIndexed _ _ _ i => [i]
  | .discard _ _ b c => [b, c]
  | .pgreq _ _ _ c => [c]
  | .send _ a b c _ | .recv _ a b c _ | .nbc _ a b c _ => [a, b, c]
  | .nred _ _ b _ => [b]
  | _ => []

end Sys2Proof

namespace Sys2Proof.Machine

/-- The six transfers (R146). -/
def isTransfer : Instr → Bool
  | .br _ _ _ _ | .jmp _ _ | .jmpr _ _ | .call _ _ _ _ | .ret _ _ | .loop _ _ _ => true
  | _ => false

/-- Legal in S0 only (R134). -/
def s0Only : Instr → Bool
  | .endStrand | .bar | .trap _ | .eret | .fence _ _ | .drift _ _ => true
  | i => isTransfer i

/-- Not legal in a delay bundle (R146), but for idle bundles. -/
def notInDelay : Instr → Bool
  | .endStrand => true
  | i => isTransfer i

/-- A latent-store read among M and V words (R141). -/
def lsReads : Instr → Bool
  | .ldl _ _ _ _ _ _ | .ldlIndexed _ _ _ _ _ | .vldl _ _ _ _ _ _ => true
  | _ => false

/-- A latent-store write or atomic among M and V words (R141). -/
def lsWrites : Instr → Bool
  | .stl _ _ _ _ _ _ | .stlIndexed _ _ _ _ _ | .vstl _ _ _ _ _ _ | .aadd _ _ _ _ _ _ | .amin _ _ _ _ _ _
  | .amax _ _ _ _ _ _ | .aminn _ _ _ _ _ _ | .amaxn _ _ _ _ _ _ | .aand _ _ _ _ _ _ | .aor _ _ _ _ _ _
  | .axor _ _ _ _ _ _ | .aswp _ _ _ _ _ _ | .acas _ _ _ _ _ _ => true
  | _ => false

/-! ## Headers and words -/

/-- A slot word in its place: slot, the clusters that execute it (for V), class, word and LEND, and the header that
carries it. -/
structure SlotWord where
  slot : Nat
  clusters : List Nat
  cls : Cls
  word : BitVec 32
  lend : BitVec 8
  hdr : BitVec 32
  deriving DecidableEq, Repr

/-- The class of a slot. -/
def slotCls (slot : Nat) : Cls :=
  if slot < 2 then .s else if slot = 2 then .m else if slot = 3 then .x else if slot = 4 then .e else .v

/-- A failed check: the cause code (Table 8.11), the slots it marks, and the header it names when it marks none. -/
structure Bad where
  code : Nat
  mask : BitVec 13
  hdr : BitVec 32
  deriving DecidableEq, Repr

/-- Slots as a mask. -/
def maskOf (l : List Nat) : BitVec 13 := l.foldl (fun m i => m ||| BitVec.ofNat 13 (2 ^ i)) 0

/-- The conditions of R124, R123 and R122 on one header; `seen` are the slots of earlier headers. -/
def headerBad (main : Bool) (seen : Nat) (h : Nat) : Bool :=
  let pres := fld h 0 13
  let vs := fld h 5 8
  bt h 30
    || (List.range 5).any (fun i => bt h (14 + i) && !bt h i)
    || (bt h 19 && vs == 0) || (bt h 13 && vs == 0) || (bt h 13 && bt h 19)
    || (main && pres == 0 && (fld h 13 9 != 0 || !bt h 31))
    || (!main && (fld h 0 5 != 0 || fld h 14 5 != 0 || vs == 0 || vs &&& seen != 0))

/-- The words of a header, in order: slot, clusters, whether it is a delta slot (R120). -/
def headerPlan (h : Nat) : List (Nat × List Nat × Bool) :=
  let cl := (List.range 8).filter fun c => bt h (5 + c)
  ((List.range 5).filter fun i => bt h i).map (fun i => (i, [], bt h (14 + i)))
    ++ (if bt h 13 then (match cl with | [] => [] | c :: _ => [(5 + c, cl, false)])
        else cl.map fun c => (5 + c, [c], bt h 19))

/-- What a fetch gives: the words, the failed checks, the address after the last word, whether it left its overlay
slot, and the cycles it occupies. -/
structure Fetched where
  words : List SlotWord
  bads : List Bad
  next : Nat
  nocode : Bool
  cycles : Nat
  deriving DecidableEq, Repr

/-- The offset field of a word that DINC changes (R130): its lowest bit and width. -/
def deltaField (c : Cls) (w : Nat) : Option (Nat × Nat) :=
  let op := w / 2 ^ 26
  match c with
  | .m => if op < 4 then (if bt w 8 then none else some (0, 8)) else if op = 0x1A ∨ op = 0x1B then some (0, 5) else none
  | .v => if op = 0 ∨ op = 1 ∨ op = 5 ∨ op = 6 then some (3, 8) else none
  | .x =>
    if op = 0 ∨ op = 1 ∨ op = 0xD ∨ op = 0xE then some (0, 7)
    else if op = 2 ∨ op = 3 then (if bt w 13 then none else some (0, 13)) else none
  | .e => if op = 1 ∨ op = 4 then some (0, 11) else none
  | .s => none

/-- The increment of DINC (R130). -/
def dincOf (h : Nat) (stride : Word) : Int :=
  match fld h 20 2 with
  | 0 => 0 | 1 => 1 | 2 => sext 32 stride.toNat | _ => -1

/-- A replay word after the increment (R130). -/
def deltaWord (c : Cls) (r : Replay) (inc : Int) : Replay :=
  match deltaField c r.word.toNat with
  | none => r
  | some (lo, n) =>
    let w := r.word.toNat
    let old := fld w lo n
    if bt w 22 then
      let v := wrapTo (n + 8) (((r.lend.toNat * 2 ^ n + old : Nat) : Int) + inc)
      ⟨BitVec.ofNat 32 (w - old * 2 ^ lo + v % 2 ^ n * 2 ^ lo), BitVec.ofNat 8 (v / 2 ^ n)⟩
    else
      let v := wrapTo n ((old : Int) + inc)
      ⟨BitVec.ofNat 32 (w - old * 2 ^ lo + v * 2 ^ lo), r.lend⟩

/-- The words of one header from its plan; `a` is the address of the next word to read. -/
def takeWords (mem : Sparse Byte) (x : Ctx) (h : BitVec 32) :
    List (Nat × List Nat × Bool) → Nat → List SlotWord × List Bad × Nat
  | [], a => ([], [], a)
  | (slot, cl, delta) :: ps, a =>
    let c := slotCls slot
    if delta then
      let r := takeWords mem x h ps a
      match spGet none x.replay slot with
      | none => (r.1, ⟨8, maskOf [slot], h⟩ :: r.2.1, r.2.2)
      | some rp =>
        let d := deltaWord c rp (dincOf h.toNat x.stride)
        (⟨slot, cl, c, d.word, d.lend, h⟩ :: r.1, r.2.1, r.2.2)
    else
      let r := takeWords mem x h ps (a + 4)
      (⟨slot, cl, c, BitVec.ofNat 32 (natAt mem a 4), bf h.toNat 22 8, h⟩ :: r.1, r.2.1, r.2.2)

/-- Two words of one header have L = 1 (R128). -/
def severalExt (own : List (BitVec 32)) : Bool := decide ((own.filter fun w => bt w.toNat 22).length > 1)

/-- LEND of a header (R128): two extended words, or a value that no word takes. -/
def lendBad (h : Nat) (own : List (BitVec 32)) : Bool :=
  severalExt own || (fld h 22 8 != 0 && !own.any fun w => bt w.toNat 22)

/-- The part of a plan whose words are among the next n. -/
def fitting : Nat → List (Nat × List Nat × Bool) → List (Nat × List Nat × Bool)
  | _, [] => []
  | n, p :: ps =>
    if p.2.2 then p :: fitting n ps
    else match n with
      | 0 => fitting 0 ps
      | k + 1 => p :: fitting k ps

/-- The headers and words of an issue cycle from address a, those of a header that breaks R124 too (R120, R143); `lim` is the end of the
overlay slot, `count` the words so far, `k` the headers still possible. -/
def fetchFrom (mem : Sparse Byte) (x : Ctx) (lim : Nat) : Nat → Nat → Bool → Nat → Nat → Fetched
  | 0, a, _, _, _ => ⟨[], [], a, false, 1⟩
  | k + 1, a, main, seen, count =>
    if a + 4 > lim then ⟨[], [], a, true, 1⟩
    else
      let h := BitVec.ofNat 32 (natAt mem a 4)
      let n := h.toNat
      let broken := headerBad main seen n
      if main && fld n 0 13 == 0 && !broken then ⟨[], [], a + 4, false, fld n 22 8 + 1⟩
      else
        let plan := headerPlan n
        let own := plan.filter fun p => !p.2.2
        let count := count + 1 + own.length
        let wide : List Bad := (if broken then [⟨4, 0, h⟩] else []) ++ if count > 16 then [⟨6, 0, h⟩] else []
        let words := fun (m : Nat) => (List.range m).map fun i => BitVec.ofNat 32 (natAt mem (a + 4 + 4 * i) 4)
        if a + 4 + 4 * own.length > lim then
          let m := (lim - a - 4) / 4
          let r := takeWords mem x h (fitting m plan) (a + 4)
          ⟨r.1, r.2.1 ++ wide ++ (if severalExt (words m) then [⟨5, 0, h⟩] else []), a, true, 1⟩
        else
          let r := takeWords mem x h plan (a + 4)
          let bads := r.2.1 ++ wide ++ (if lendBad n (words own.length) then [⟨5, 0, h⟩] else [])
          if bt n 31 then ⟨r.1, bads, r.2.2, false, 1⟩
          else
            let f := fetchFrom mem x lim k r.2.2 false (seen ||| fld n 5 8) count
            { f with words := r.1 ++ f.words, bads := bads ++ f.bads }

/-- The address of the bundle after the one at a, by its headers alone. -/
def bundleEnd (mem : Sparse Byte) (a : Nat) : Nat :=
  (fetchFrom mem Ctx.idle 0x10000 16 a true 0 0).next

/-- The valid bit of an overlay slot's tag (R114). -/
def overlayValid (c : CoreSt) (a : Nat) : Bool := bt (spGet 0 c.ovtag (a / 0x4000)).toNat 40

/-- The issue cycle at the context's PC. -/
def fetchAt (c : CoreSt) (x : Ctx) : Fetched :=
  let a := x.pc.toNat
  if overlayValid c a then fetchFrom c.istore x ((a / 0x4000 + 1) * 0x4000) 16 a true 0 0
  else ⟨[], [], a, true, 1⟩

/-! ## Decode and the checks across words -/

/-- The instruction of a word for the checks across words. -/
def SlotWord.loose (w : SlotWord) : Option Instr :=
  match decodeSlot w.cls w.word w.lend with
  | .ok i => some i
  | .error .lend =>
    (match decodeSlot w.cls (BitVec.ofNat 32 (w.word.toNat - 2 ^ 22)) w.lend with
     | .ok i => some i
     | .error _ => none)
  | .error _ => none

/-- The slots of a word: those of its clusters, or its own. -/
def SlotWord.slots (w : SlotWord) : List Nat := if w.clusters = [] then [w.slot] else w.clusters.map (5 + ·)

/-- A word's own failed checks: its decoding, S0 only, and the rules of a delay bundle. -/
def SlotWord.bads (delay : Bool) (w : SlotWord) : List Bad :=
  match decodeSlot w.cls w.word w.lend with
  | .error .lend => [⟨5, 0, w.hdr⟩]
  | .error c => [⟨c.code, maskOf w.slots, w.hdr⟩]
  | .ok i =>
    (if w.slot = 1 ∧ s0Only i then [⟨7, maskOf w.slots, w.hdr⟩] else [])
      ++ (if delay && notInDelay i then [⟨9, maskOf w.slots, w.hdr⟩] else [])

/-- Every word with each slot that executes it. -/
def expand (ws : List SlotWord) : List (Nat × Instr) :=
  ws.flatMap fun w => match w.loose with | none => [] | some i => w.slots.map fun sl => (sl, i)

/-- The slots of a kind of word, when several clusters execute it. -/
def severalOf (f : Instr → Bool) (l : List (Nat × Instr)) : List Nat :=
  let k := (l.filter fun x => f x.2).map (·.1)
  if k.length > 1 then k else []

/-- The slots whose words name a register that another word names (R140), and those of VPOPM and VEXT where several clusters execute one of
these (R230). -/
def dualSlots (nrot : Nat) (l : List (Nat × Instr)) : List Nat :=
  let ds := l.map fun x => (x.1, ((x.2.dests (x.1 - 5) nrot).filter Dest.counts))
  (ds.filter fun x => ds.any fun y => x.1 != y.1 && x.2.any fun d => y.2.contains d).map (·.1)
    ++ severalOf (fun i => match i with | .vpopm _ _ _ _ => true | _ => false) l
    ++ severalOf (fun i => match i with | .vext _ _ _ _ _ => true | _ => false) l

/-- The slots that oversubscribe a port (R141). -/
def portSlots (l : List (Nat × Instr)) : List Nat :=
  let rd := l.filter fun x => x.2.sreads.any (· != 0)
  let regs := ((rd.flatMap fun x => x.2.sreads).filter (· != 0)).eraseDups
  let r := l.filter fun x => lsReads x.2
  let w := l.filter fun x => lsWrites x.2
  (if regs.length > 8 then rd.map (·.1) else [])
    ++ (if r.length > 1 then r.map (·.1) else []) ++ (if w.length > 1 then w.map (·.1) else [])

/-- The failed check with the lowest code (R143), its slots joined. -/
def lowestBad (l : List Bad) : Option Bad :=
  match l with
  | [] => none
  | b :: bs =>
    let code := bs.foldl (fun c x => min c x.code) b.code
    let sel := l.filter fun x => x.code == code
    some ⟨code, sel.foldl (fun m x => m ||| x.mask) 0, (sel.headD b).hdr⟩

/-- The word that an ILLEGAL record names (R143): of the first marked slot, or the header concerned. -/
def wordOf (ws : List SlotWord) (b : Bad) : BitVec 32 :=
  if b.mask = 0 then b.hdr
  else match ws.find? fun w => w.slots.contains (firstSlot b.mask) with
    | some w => w.word
    | none => 0

/-- What issue finds at a context's PC. -/
inductive Bundle where
  | bad (cause : Nat) (mask : BitVec 13) (word : BitVec 32)
  | ok (ws : List (SlotWord × Instr)) (cycles next : Nat)

/-- The bundle at a context's PC, or the ILLEGAL cause that refuses it (R143, R114): of several the lowest, and NOCODE when the words that
stand before the end of the overlay slot give none. -/
def bundleAt (c : CoreSt) (x : Ctx) : Bundle :=
  let f := fetchAt c x
  let delay := x.delay != .none
  let hdr := BitVec.ofNat 32 (natAt c.istore x.pc.toNat 4)
  let l := expand f.words
  let dual := dualSlots x.nrot.toNat l
  let port := portSlots l
  let bads := f.bads ++ f.words.flatMap (SlotWord.bads delay)
    ++ (if dual.isEmpty then [] else [⟨2, maskOf dual, hdr⟩])
    ++ (if port.isEmpty then [] else [⟨3, maskOf port, hdr⟩])
    ++ (if delay && f.cycles != 1 then [⟨9, 0, hdr⟩] else [])
  match lowestBad bads with
  | some b => .bad b.code b.mask (wordOf f.words b)
  | none =>
    if f.nocode then .bad 12 0 0 else
    let ws := f.words.filterMap fun w =>
      match decodeSlot w.cls w.word w.lend with | .ok i => some (w, i) | .error _ => none
    .ok (if f.words.isEmpty then
          [(⟨13, [], .s, hdr, 0, hdr⟩, .idle (BitVec.ofNat 8 (f.cycles - 1)))] else ws) f.cycles f.next

end Sys2Proof.Machine
end

