-- ==== Sys2Proof/Machine/Branch.lean ====
section
/-!
DEFINITION. Transfers of control, counted loops, the end of a strand, barriers, software traps and the return from the
firmware's handler (09, R172 to R179).
-/
namespace Sys2Proof.Machine

/-- What follows the delay bundle (R146). -/
def State.goto (s : State) (x : Delay) : State := { s with cur := { s.cur with xfer := x } }

/-- A + 4 * OFF, modulo 2^16 (Table 9.3). -/
def relTarget {w : Nat} (s : State) (o : BitVec w) (e : Ext) : BitVec 16 :=
  s.cur.baddr + BitVec.ofInt 16 (4 * extInt o e)

/-- BR (R172): its QP is its condition. -/
def execBr (q : BitVec 3) (e : Ext) (n : Bool) (o : BitVec 21) (s : State) : Out :=
  .next (s.goto (if s.rdQ q != n then .target (relTarget s o e) else .fall))

/-- JMP (R172): IMM[15:2]. -/
def execJmp (p : BitVec 3) (a : BitVec 14) (s : State) : Out :=
  .next (s.goto (if s.rdQ p then .target (a ++ 0#2) else .fall))

/-- JMPR and RET (R172): IMMVAL for an address above 16 bits or not a multiple of 4. -/
def State.jumpReg (s : State) (p : BitVec 3) (a : BitVec 5) : State :=
  (s.goto .fall).slotOp p [a] fun s =>
    let v := s.rdS a
    if v.toNat ≥ 2 ^ 16 ∨ v.toNat % 4 ≠ 0 then s.immval else s.goto (.target (v.setWidth 16))

def execJmpr (p : BitVec 3) (a : BitVec 5) (s : State) : Out := .next (s.jumpReg p a)

def execRet (p : BitVec 3) (a : BitVec 5) (s : State) : Out := .next (s.jumpReg p a)

/-- The address of the bundle after the delay bundle (R146). -/
def State.returnPoint (s : State) : Word := BitVec.ofNat 64 (bundleEnd s.me.istore s.cur.nextAddr.toNat % 2 ^ 16)

/-- CALL (R172): the link at +1. -/
def execCall (p : BitVec 3) (e : Ext) (d : BitVec 5) (o : BitVec 17) (s : State) : Out :=
  .next ((s.goto .fall).slotOp p [] fun s => (s.emitS 1 d s.returnPoint).goto (.target (relTarget s o e)))

/-- LPSET (R174). -/
def execLpset (p : BitVec 3) (a : BitVec 5) (n : BitVec 4) (s : State) : Out :=
  .next (if n ≠ 0 ∧ !s.isHolder then s.trap (.illegal 10 0)
    else s.slotOp p [a] fun s =>
      if n.toNat > 8 then s.immval
      else
        let c := (s.rdS a).setWidth 32
        let k := s.cur.ctx
        ((((s.emit 1 (.wLp k c n)).emit 1 (.wQ k 4 (c != 0))).emit 1 (.wQ k 5 false)).emit 1 (.wQ k 6 false)).emit 1
          (.wQ k 7 false))

/-- The bases after one rotation (R175): b0 receives b1, the last receives b0. -/
def State.rotate (s : State) (nrot : Nat) : State :=
  if nrot > 1 then
    (List.range nrot).foldl (fun t j =>
      t.emit 1 (.wB (BitVec.ofNat 3 j) (s.me.rdB (BitVec.ofNat 3 ((j + 1) % nrot))))) s
  else s

/-- LOOP (R175). -/
def execLoop (p : BitVec 3) (e : Ext) (o : BitVec 21) (s : State) : Out :=
  let x := s.myCtx
  .next (if x.nrot ≠ 0 ∧ !s.isHolder then s.trap (.illegal 10 0)
    else (s.goto .fall).slotOp p [] fun s =>
      let n := if x.count = 0 then 0 else x.count - 1
      let q4 := n != 0
      let k := s.cur.ctx
      let s1 := (s.emit 1 (.wLp k n x.nrot)).rotate x.nrot.toNat
      let s2 := (((s1.emit 1 (.wQ k 4 q4)).emit 1 (.wQ k 5 (x.rdQ 4))).emit 1 (.wQ k 6 (x.rdQ 5))).emit 1
        (.wQ k 7 (x.rdQ 6))
      if q4 || x.rdQ 4 || x.rdQ 5 || x.rdQ 6 then s2.goto (.target (relTarget s o e)) else s2)

/-- END (R176). -/
def execEndStrand (s : State) : Out := .next { s with cur := { s.cur with ended := true } }

/-- BAR (R177): HOLDER outside the holder. -/
def execBar (s : State) : Out :=
  .next (s.holderOp fun s => { s with cur := { s.cur with wait := .bar } })

/-- TRAP (R178): SOFT, once the other slots have committed. -/
def execTrap (c : BitVec 16) (s : State) : Out := .next { s with cur := { s.cur with soft := some c } }

/-- ERET (R179): privileged; outside the handler it does nothing. -/
def execEret (s : State) : Out :=
  .next (if !s.isFw then s.trap .priv
    else if s.myCtx.inHandler then { s with cur := { s.cur with eret := true } } else s)

end Sys2Proof.Machine
end

