-- ==== Sys2Proof/Machine/Engine.lean ====
section
/-!
DEFINITION. The words of the E slot but for the network: stages, copies, discards, page requests, the scale queue, the random-bits
queue (10, R206 to R211).
-/
namespace Sys2Proof.Machine

/-- STAGE (R206): RANK0 in a strand of another rank. -/
def execStage (p : BitVec 3) (s : State) : Out :=
  .next (s.holderOp fun s => s.slotOp p [] fun s =>
    if s.myCtx.rank ≠ 0 then s.trap (.illegal 21 0) else s.emit 1 .stage)

/-- CPY (R207): the image at p + 1. -/
def execCpy (p : BitVec 3) (e : Ext) (base : Base) (o : BitVec 11) (s : State) : Out :=
  .next (s.baseOp base fun s => s.slotOp p base.sregs fun s =>
    let a := s.baseOff base o e 32
    s.spCheck a 32 32 fun s => s.emit 1 (.cpyImage a.toNat s.myCtx.h))

/-- DISCARD (R208): performs at p + 4; a length of 0 does nothing. -/
def execDiscard (p : BitVec 3) (h : BitVec 4) (b c : BitVec 5) (s : State) : Out :=
  .next (s.slotOp p [b, c] fun s =>
    let o := (s.rdS b).toNat
    let n := (s.rdS c).toNat
    let x := s.rdH h
    if n = 0 then s
    else match handleCheck h x o n true false with
      | some k => s.trap k
      | none =>
        let lo := handleAddr x o
        s.emit 4 (.discard (s.spaceOf s.cur.core s.cur.ctx) lo (lo + n)))

/-- PGREQ (R209): the status at p + 1. -/
def execPgreq (p : BitVec 3) (d : BitVec 5) (h : BitVec 4) (c : BitVec 5) (s : State) : Out :=
  .next (s.slotOp p [c] fun s =>
    let x := s.rdH h
    let page := (s.rdS c).toNat
    match handleCheck h x (65536 * page) 1 false x.sp with
    | some k => s.trap k
    | none => s.emit 1 (.pgAsk x page d))

/-- SQLD (R210): the line at p + 1, its 32 descriptors at p + 4. -/
def execSqld (p : BitVec 3) (e : Ext) (base : Base) (o : BitVec 11) (s : State) : Out :=
  .next (s.holderOp fun s => s.slotOp p base.sregs fun s =>
    let a := s.baseOff base o e 64
    s.spCheck a 64 64 fun s => s.emit 1 (.sqldRd (a.toNat / 64)))

/-- SQPSH (R210). -/
def execSqpsh (p : BitVec 3) (a : BitVec 5) (s : State) : Out :=
  .next (s.holderOp fun s => s.slotOp p [a] fun s => s.emit 1 (.sqPush [(s.rdS a).setWidth 16]))

/-- SQCLR (R210). -/
def execSqclr (p : BitVec 3) (s : State) : Out :=
  .next (s.holderOp fun s => s.slotOp p [] fun s => s.emit 1 .sqClear)

/-- RQSEED (R211). -/
def execRqseed (p : BitVec 3) (a : BitVec 5) (s : State) : Out :=
  .next (s.holderOp fun s => s.slotOp p [a] fun s => s.emit 1 (.rqSet (some (s.rdS a)) 0))

/-- RQPOS (R211). -/
def execRqpos (p : BitVec 3) (a : BitVec 5) (s : State) : Out :=
  .next (s.holderOp fun s => s.slotOp p [a] fun s =>
    let v := s.rdS a
    if v.toNat ≥ 2 ^ 46 then s.immval else s.emit 1 (.rqSet none (v.setWidth 46)))

end Sys2Proof.Machine
end

