-- ==== Sys2Proof/Machine/Hedge.lean ====
section
/-!
DEFINITION. The hedge (17, R315 to R322): training, start, the load of SCYC, sync markers.
-/
namespace Sys2Proof.Machine

/-! ## The load of SCYC (R315) -/

/-- A cycle on the package's clock as the new count gives it. -/
def moveCycle (old new : Nat) (t : Int) : Int := t + new - old

/-- A request's cycles moved: an access admitted before the load keeps its wall-time schedule. -/
def HbmReq.moveCycles (old new : Nat) (r : HbmReq) : HbmReq :=
  let mv := moveCycle old new
  { r with asked := mv r.asked, present := mv r.present, sigma := r.sigma.map mv }

/-- An owner's issue cycle moved. -/
def Own.moveIssue (old new : Nat) (o : Own) : Own := { o with issue := moveCycle old new o.issue }

/-- A fence's wait with its issue cycle moved. -/
def Wait.moveIssue (old new : Nat) : Wait → Wait
  | .fence sc rd at_ => .fence sc rd (moveCycle old new at_)
  | w => w

/-- SCYC loaded: what is still due keeps its distance; frames and admission go by the new count. -/
def State.loadScyc (s : State) (new : Nat) : State :=
  let mv := fun (t : Nat) => (moveCycle s.scyc new t).toNat
  let own := fun (o : Own) => o.moveIssue s.scyc new
  let s1 : State := { s with
    scyc := new
    admitFrom := (new + 319) / 320 * 320
    hedgeLoaded := true
    refSilent := new
    agenda := s.agenda.map fun x => if x.clk = .scyc then { x with due := mv x.due } else x
    pend := s.pend.map fun x => if x.clk = .scyc then { x with due := mv x.due, own := own x.own } else x
    links := s.links.map fun x => if x.clk = .scyc then { x with due := mv x.due, arr := mv x.arr } else x
    reqs := s.reqs.map (HbmReq.moveCycles s.scyc new)
    wbq := s.wbq.map (HbmReq.moveCycles s.scyc new)
    uq := s.uq.map (HbmReq.moveCycles s.scyc new)
    copies := s.copies.map fun c => { c with
      tried := mv c.tried, own := if c.fw then own c.own else c.own }
    pages := s.pages.map fun g => if g.fw then { g with own := own g.own } else g
    queueReqs := s.queueReqs.map fun q => if isFwCtx q.core q.ctx then { q with own := own q.own } else q
    shoots := s.shoots.map fun w => { w with rho := mv w.rho }
    hostq := s.hostq.map fun h => { h with since := mv h.since }
    pchs := s.pchs.map fun e => (e.1, { e.2 with taken := (e.2.taken.filter fun g => decide (s.scyc ≤ g)).map mv })
    partChange := s.partChange.map fun c => { c with rho := mv c.rho }
    portUpAt := (s.portUpAt.map fun e => (e.1, mv e.2)).filter fun e => e.2 != 0
    portDownAt := (s.portDownAt.map fun e => (e.1, mv e.2)).filter fun e => e.2 != 0
    fdutyAt := s.fdutyAt.map fun x => (mv x.1, x.2) }
  s1.updCtx 0 3 fun x => { x with
      next := mv x.next, wait := x.wait.moveIssue s.scyc new, failed := x.failed.map fun f => { f with at_ := moveCycle s.scyc new f.at_ } }

/-! ## Training (R317) -/

/-- LINK_TRAINING (R317): `lat` is the flight of the slower direction in whole cycles; above 2,048 the training fails. -/
def execLinkTraining (port lat peer : Nat) (s : State) : Out :=
  .next (if port ≥ s.gramer then s
    else
      let w := spGet 0 s.linklat port
      if lat > 2048 then { s with
          linklat := spPut 0 s.linklat port (setFld w 16 1 0)
          portDownAt := if bt w.toNat 16 then spPut 0 s.portDownAt port s.scyc else s.portDownAt }
      else { s with
          linklat := spPut 0 s.linklat port (BitVec.ofNat 64 (max 16 lat + 2 ^ 16 + 2 ^ 24 * (peer % 64)))
          portUpAt := spPut 0 s.portUpAt port s.scyc })

/-! ## Hedge start (R318) -/

/-- LOST and EMAX as a hedge start leaves them (R320). -/
def State.clearLost (s : State) : State :=
  { s with drift := spPut 0 (spPut 0 s.drift 0 (setFld (spGet 0 s.drift 0) 39 1 0)) 3 (setFld (spGet 0 s.drift 3) 32 16 0) }

/-- SYNCCTL.NPKG and ROOT. -/
def State.npkg (s : State) : Nat := s.ctlFld offSyncctl 8 7

def State.isRoot (s : State) : Bool := s.ctlFld offSyncctl 1 1 == 1

/-- SYNCCTL_START (R318, R315): BUSY until SCYC is loaded, or until the root has sent its start markers. A package alone is its own root. -/
def execSyncctlStart (s : State) : Out :=
  .next (if s.npkg = 1 then ((s.ctlSetFld offSyncctl 1 1 1).ctlSetFld offSyncctl 15 1 1).clearLost
    else if s.isRoot then (s.ctlSetFld offSyncctl 15 1 1).clearLost
    else if s.hedgeLoaded then s else s.ctlSetFld offSyncctl 15 1 1)

/-- The ports that are up. -/
def State.upPorts (s : State) : List Nat := (List.range s.gramer).filter s.portUp

/-- What the hedge does at the start of a cycle: a package alone loads SCYC := 0 (R315); at a multiple of 4,096 a starting root sends its
start marker, a package that has loaded SCYC sends its own on, and every up port carries a sync marker (R318, R319); a reference silent for
too long is a loss (R322). -/
def State.hedgeStep (s : State) : State :=
  let busy := s.ctlFld offSyncctl 15 1 == 1
  let s1 :=
    if busy && s.npkg == 1 then
      (if s.hedgeLoaded then s else s.loadScyc 0).ctlSetFld offSyncctl 15 1 0
    else s
  let s2 :=
    if s1.scyc % 4096 = 0 then
      let s2 := if busy && s1.isRoot && s1.npkg != 1 then
          (s1.upPorts.foldl (fun s p => s.send (.startMarker p s.scyc)) s1).ctlSetFld offSyncctl 15 1 0
        else match s1.markerFrom with
          | some q => { (s1.upPorts.filter (· != q)).foldl (fun s p => s.send (.startMarker p s.scyc)) s1 with markerFrom := none }
          | none => s1
      s2.upPorts.foldl (fun s p => s.send (.marker p s.scyc)) s2
    else s1
  let d := (spGet 0 s2.drift 0).toNat
  if s2.hedgeLoaded && s2.npkg ≥ 2 && !s2.isRoot && !bt d 37 && !bt d 39 && s2.scyc ≥ s2.refSilent + 65536 then s2.syncLoss else s2

/-- A start marker on a lower port leaves it in this cycle too (R318). -/
def State.lowerMarker (s : State) (port : Nat) : Bool :=
  s.agenda.any fun x => x.clk == .scyc && decide (x.due ≤ s.scyc) && (match x.ev with | .instr (.startMarker q _) => decide (q < port) | _ => false)

/-- START_MARKER (R318): the first one loads SCYC := V + LAT; the package's own markers follow at its next multiple of 4,096. After LOST a
later one starts the hedge again without a load (R315, R322, log 44). -/
def execStartMarker (port : Nat) (scyc : BitVec 64) (s : State) : Out :=
  let lost := bt (spGet 0 s.drift 0).toNat 39
  .next (if !s.portUp port || s.isRoot || s.npkg == 1 || (s.hedgeLoaded && !lost) || s.lowerMarker port then s
    else
      let s1 := if s.hedgeLoaded then { s with refSilent := s.scyc } else s.loadScyc (scyc.toNat + s.portLat port)
      let d := setFld (setFld (spGet 0 s1.drift 0) 32 5 port) 37 1 0
      ({ s1 with drift := spPut 0 s1.drift 0 d, markerFrom := some port }.clearLost).ctlSetFld offSyncctl 15 1 0)

/-! ## Sync markers (R319, R322) -/

/-- The send cycle of a sync marker that arrives now by a port: the multiple of 4,096 next to SCYC - LAT. -/
def State.markerSent (s : State) (port : Nat) : Nat := (s.scyc + 2048 - s.portLat port) / 4096 * 4096

/-- SYNC_MARKER (R319): the marker on REFPORT sets E, TMEAS and EMAX; an error of 1/2 sc is a loss (R322). -/
def execSyncMarker (port : Nat) (err : BitVec 32) (s : State) : Out :=
  let d0 := spGet 0 s.drift 0
  .next (if !s.portUp port || s.isRoot || s.npkg < 2 || !s.hedgeLoaded || fld d0.toNat 32 5 != port then s
    else
      let a := err.toInt.natAbs
      let d3 := spGet 0 s.drift 3
      let m := spPut 0 (spPut 0 s.drift 0 (setFld (setFld d0 0 32 err.toNat) 37 1 1)) 2 (BitVec.ofNat 64 (s.markerSent port))
      let s1 : State := { s with drift := spPut 0 m 3 (setFld d3 32 16 (max (fld d3.toNat 32 16) (min a 0xFFFF))) }
      if a ≥ 32768 then s1.syncLoss else s1)

end Sys2Proof.Machine
end

