-- ==== Sys2Proof/Machine/MatrixMath.lean ====
section
/-!
DEFINITION. What the matrix engine computes (12, R248 to R260): elements of tiles and latches, pre-adds, terms, the seven-product
and the classical order.
-/
namespace Sys2Proof.Machine

/-! ## Elements of rows (R20, R26, R107) -/

/-- Element k of w bits of a row. -/
def rowElem (w : Nat) (row : BitVec 1024) (k : Nat) : Nat := (row.extractLsb' (w * k) w).toNat

/-- Blocks in a row of a block tile. -/
def rowBlocks (kind : Word) : Nat := if tcBlk kind then tcRlen kind / 32 else 0

/-- An element with the scale byte of its block, where it has one. -/
abbrev Elt := Num × Option Nat

/-- The zero beyond a tile's control (R107). -/
def eltZero : Elt := (.zero false, none)

/-- An element that is not in block form, by MMA form. -/
def plainElem (f : MmaForm) (ew code : Nat) : Num :=
  if ew = 4 then elemNum 5 code
  else match f with
    | .bf16 => bf16.decode code
    | .f16 => fp16.decode code
    | .f8 | .f4 | .i8 | .t2i8 | .sp => Num.ofInt (sext 8 code)

/-- The record obeys R25 for n stored elements. -/
def recordOk (n rec : Nat) : Bool :=
  rec / 2 ^ (5 * n) == 0 && (List.range (n - 1)).all fun i => decide (fld rec (5 * i) 5 < fld rec (5 * i + 5) 5)

/-- The index record of a sparse block where the form has no index plane (R25, log 51): it is open. -/
def openRecord (d : Nat) : Nat := (Config.sparseRecord d).toNat

/-- A block with descriptor d is invalid for a form without an index plane (R24). -/
def blockBad (w d : Nat) : Bool := descInvalid w d || (fld d 4 3 != 0 && !recordOk (2 ^ fld d 4 3) (openRecord d))

/-- The slot that holds element k of a block: its own, or for a sparse block the stored one that the record puts there (R25). -/
def slotOf (d k : Nat) : Option Nat :=
  if fld d 4 3 = 0 then some k else (List.range (2 ^ fld d 4 3)).find? fun i => fld (openRecord d) (5 * i) 5 == k

/-- Row r of an operand as K elements. -/
def rowVals (f : MmaForm) (kind : Word) (kdim : Nat) (rows : Sparse (BitVec 1024)) (descs : List (BitVec 16)) (r : Nat) :
    List Elt :=
  if r ≥ tcRows kind then List.replicate kdim eltZero
  else
    let row := spGet 0 rows r
    let ew := tcEw kind
    let w := ewBits ew
    let n := rowBlocks kind
    (List.range kdim).map fun k =>
      if k ≥ tcRlen kind then eltZero
      else
        if tcBlk kind then
          let d := (nth 0 descs (r * n + k / 32)).toNat
          let v := match slotOf d (k % 32) with
            | some i => blockValue (rowElem w row (32 * (k / 32) + i)) d
            | none => Num.zero false
          (if blockBad w d then .nan else v, some (fld d 8 8))
        else (plainElem f ew (rowElem w row k), none)

/-! ## Pre-adds and products (R252 to R254) -/

/-- A value rounded to p significant bits, nearest even, unbounded exponent. -/
def roundSig (p : Nat) : Num → Num
  | .fin m e =>
    let q := expOf m e - (p - 1)
    if e ≥ q then .fin m e else Num.mk' (roundAt .rne m e q) q false
  | x => x

/-- The significant bits of a pre-add of a form; 0 where it is exact (Table 12.3). -/
def preBits (f : MmaForm) (x y : Option Nat) : Nat :=
  match f with
  | .bf16 => 11
  | .f16 => 13
  | .f8 | .f4 => if x = y then 0 else 12
  | .i8 | .t2i8 | .sp => 0

/-- A factor: its value, and the bits of a pre-add's significand (0 for an element). -/
abbrev Fac := Num × Nat

/-- A pre-add (R252). -/
def preAdd (f : MmaForm) (sub : Bool) (x y : Elt) : Fac :=
  let v := Num.add false x.1 (if sub then y.1.negate else y.1)
  let p := preBits f x.2 y.2
  (if p = 0 then v else roundSig p v, p)

/-- Pre-adds position by position. -/
def preAdds (f : MmaForm) (sub : Bool) (xs ys : List Elt) : List Fac := List.zipWith (preAdd f sub) xs ys

/-- Elements used unadded. -/
def asFacs (xs : List Elt) : List Fac := xs.map fun x => (x.1, 0)

/-- The fixed-width significand of a factor and the weight of its lowest bit (R254): an element as it decodes, a pre-add
normalised to p bits. -/
def sigOf (p m : Nat) (e : Int) : Nat × Int :=
  if p = 0 ∨ m = 0 then (m, e)
  else
    let l := log2 m
    if l < p then (m * 2 ^ (p - 1 - l), e - (p - 1 - l : Nat)) else (m / 2 ^ (l - (p - 1)), e + (l - (p - 1) : Nat))

/-- What columns 0 to t - 1 of the partial-product array hold. -/
def dropped (t a b : Nat) : Nat :=
  (List.range t).foldl (fun n i => (List.range (t - i)).foldl (fun n j =>
    n + if bt a i && bt b j then 2 ^ (i + j) else 0) n) 0

/-- The term of two factors (R253, R254). -/
def term (t : Nat) (x y : Fac) : Num :=
  let r := x.1.mul y.1
  if t = 0 then r
  else match x.1, y.1 with
    | .fin m e, .fin n f =>
      let a := sigOf x.2 m.natAbs e
      let b := sigOf y.2 n.natAbs f
      let g : Int := (a.1 * b.1 - dropped t a.1 b.1 : Nat)
      Num.mk' (if decide (m < 0) != decide (n < 0) then -g else g) (a.2 + b.2) false
    | _, _ => r

/-- The terms of two operands. -/
def terms (t : Nat) (xs ys : List Fac) : List Num := List.zipWith (term t) xs ys

/-- Terms taken into an element with a sign. -/
def addTerms (anchor : Int) (neg : Bool) (x : Xa) (l : List Num) : Xa :=
  l.foldl (fun x q => xaAdd x (if neg then q.negate else q) anchor) x

/-! ## The seven-product order (R251) -/

/-- The seven A operands of Table 12.2 for block row i, from rows i and i + 32. -/
def sevenA (f : MmaForm) (h : Nat) (lo hi : List Elt) : List (List Fac) :=
  let a11 := lo.take h
  let a12 := lo.drop h
  let a21 := hi.take h
  let a22 := hi.drop h
  [preAdds f false a11 a22, preAdds f false a21 a22, asFacs a11, asFacs a22, preAdds f false a11 a12,
    preAdds f true a21 a11, preAdds f true a12 a22]

/-- The seven B operands of Table 12.2 for block column j, from latch rows j and j + 32. -/
def sevenB (f : MmaForm) (h : Nat) (lo hi : List Elt) : List (List Fac) :=
  let b11 := lo.take h
  let b21 := lo.drop h
  let b12 := hi.take h
  let b22 := hi.drop h
  [preAdds f false b11 b22, asFacs b11, preAdds f true b12 b22, preAdds f true b21 b11, asFacs b22,
    preAdds f false b11 b12, preAdds f false b21 b22]

/-- The products into a quadrant, with their signs (Table 12.2): 0 C11, 1 C12, 2 C21, 3 C22. -/
def quadTerms : Nat → List (Nat × Bool)
  | 0 => [(0, false), (3, false), (4, true), (6, false)]
  | 1 => [(2, false), (4, false)]
  | 2 => [(1, false), (3, false)]
  | _ => [(0, false), (1, true), (2, false), (5, false)]

/-- The own terms of element (r, c), from the operands of its block row and block column. -/
def sevenElem (t : Nat) (anchor : Int) (as bs : List (List Fac)) (q : Nat) : Xa :=
  (quadTerms q).foldl (fun x k => addTerms anchor k.2 x (terms t (nth [] as k.1) (nth [] bs k.1))) Xa.zero

/-- The K dimension of a form (Table 12.1). -/
def formK : MmaForm → Nat
  | .bf16 | .f16 => 64
  | .f8 | .i8 => 128
  | .f4 | .t2i8 | .sp => 256

/-! ## The rows of an MMA -/

/-- A row m as K elements; t2i8 joins the rows of two tiles (R259). -/
def MmaRun.rowA (r : MmaRun) (m : Nat) : List Elt :=
  if r.form = .t2i8 then
    rowVals r.form r.tca 128 r.rowsA [] m ++ rowVals r.form r.tcb 128 r.rowsB [] m
  else rowVals r.form r.tca (formK r.form) r.rowsA r.descs m

/-- Column n of B' as K elements. -/
def MmaRun.colB (r : MmaRun) (n : Nat) : List Elt :=
  if r.form = .sp then
    rowVals .f8 r.latch.kind 128 r.latch.rows r.latch.descs n ++ rowVals .f8 r.latch2.kind 128 r.latch2.rows r.latch2.descs n
  else rowVals r.form r.latch.kind (formK r.form) r.latch.rows r.latch.descs n

/-! ## The sparse form (R260, R25) -/

/-- s: the sparsity code of the first A descriptor popped. -/
def MmaRun.spCode (r : MmaRun) : Nat := fld (nth 0 r.descs 0).toNat 4 3

/-- The index record of block b of row m. -/
def MmaRun.spRecord (r : MmaRun) (m b : Nat) : Nat := ((spGet 0 r.rowsB m).extractLsb' (128 * b) 128).toNat

/-- Block b of row m of a sparse A is invalid (R24, R260). -/
def MmaRun.spInvalid (r : MmaRun) (m b : Nat) : Bool :=
  let d := (nth 0 r.descs (8 * m + b)).toNat
  descInvalid 8 d || fld d 4 3 == 0 || fld d 4 3 != r.spCode || !recordOk (2 ^ r.spCode) (r.spRecord m b)

/-- The stored elements of row m: each with its position in K. -/
def MmaRun.spRow (r : MmaRun) (m : Nat) : List (Fac × Nat) :=
  let n := 2 ^ r.spCode
  (List.range 8).flatMap fun b =>
    let live := decide (m < tcRows r.tca)
    let rec_ := if live then r.spRecord m b else 0
    (List.range n).map fun i =>
      let v := if live then
          (if r.spInvalid m b then .nan
           else blockValue (rowElem 8 (spGet 0 r.rowsA m) (n * b + i)) (nth 0 r.descs (8 * m + b)).toNat)
        else Num.zero false
      ((v, 0), 32 * b + fld rec_ (5 * i) 5)

/-! ## The whole product -/

/-- The elements of the terms of every row an MMA has read (R250), row after row. -/
def MmaRun.product (r : MmaRun) : List Xa :=
  let bs := (List.range 64).map r.colB
  if r.form = .sp then
    let bs := bs.map asFacs
    (List.range 64).flatMap fun m =>
      let a := r.spRow m
      bs.map fun b => a.foldl (fun x q => xaAdd x (term 0 q.1 (nth (Num.zero false, 0) b q.2)) r.anchor) Xa.zero
  else if r.cl then
    let bs := bs.map asFacs
    (List.range 64).flatMap fun m =>
      let a := asFacs (r.rowA m)
      bs.map fun b => addTerms r.anchor false Xa.zero (terms r.trunc a b)
  else
    let h := formK r.form / 2
    let as := (List.range 64).map r.rowA
    let bs7 := (List.range 32).map fun j => sevenB r.form h (nth [] bs j) (nth [] bs (j + 32))
    (List.range 64).flatMap fun m =>
      let a := sevenA r.form h (nth [] as (m % 32)) (nth [] as (m % 32 + 32))
      let q := 2 * (m / 32)
      bs7.map (fun b => sevenElem r.trunc r.anchor a b q) ++ bs7.map fun b => sevenElem r.trunc r.anchor a b (q + 1)

/-- Row m lies in one of the first `groups` groups of rows (R268). -/
def mmaRowDone (cl : Bool) (groups m : Nat) : Bool := if cl then decide (m / 2 < groups) else decide (m % 32 / 2 < groups)

/-- The elements of an MMA's own terms (R250): those of a partial that a save image brought back stand for the groups it holds (R268, R347). -/
def MmaRun.own (r : MmaRun) : List Xa :=
  match r.part with
  | none => r.product
  | some (g, l) => (r.product.zip l).zipIdx.map fun x => if mmaRowDone r.cl g (x.2 / 64) then x.1.2 else x.1.1

/-- The tag that classical order gives an element (R257). -/
def classicalTag (xs ys : List Elt) : XTag :=
  (List.zipWith (fun (x y : Elt) => specialTag (x.1.mul y.1)) xs ys).foldl tagJoin .finite

/-- MNAN (R257): an element's tag differs from classical order's. Without a NaN or an infinity among the operands no tag
can. -/
def MmaRun.mnan (r : MmaRun) : Bool :=
  if r.cl ∨ r.form = .t2i8 ∨ r.form = .sp then false
  else
    let as := (List.range 64).map r.rowA
    let bs := (List.range 64).map r.colB
    let special := fun (l : List Elt) => l.any fun x => x.1.isNan || x.1.isInf
    if !as.any special && !bs.any special then false
    else
      let cl := as.flatMap fun a => bs.map fun b => classicalTag a b
      (List.zipWith (fun (x : Xa) t => x.tag != t) r.own cl).any id

/-- The accumulator after the write of an MMA (R250). -/
def MmaRun.apply (r : MmaRun) (a : Acc) : Acc :=
  { a with el := spOf Xa.zero (List.zipWith (takeOwn (a.anchor == r.anchor)) (spDense Xa.zero a.el 0 4096) r.own) }

/-! ## Reading row pairs (R244, R248, R250) -/

/-- What one cycle of LATCH or MMA reads finds: POISON of a row, SQIMBAL, or the descriptors popped. -/
structure PairRead where
  poison : Option (Nat × Nat)
  pops : Nat
  short : Bool
  descs : List (BitVec 16)
  bad : Bool
  deriving DecidableEq, Repr

/-- Rows 2j and 2j + 1 below a count. -/
def pairRows (rows j : Nat) : List Nat := [2 * j, 2 * j + 1].filter (· < rows)

/-- The marked row of a tile that a pair of rows reads first. -/
def pairPoison (c : CoreSt) (t rows j : Nat) : Option (Nat × Nat) :=
  ((pairRows rows j).find? fun r => (c.tile t).marked r).map fun r => (t, r)

/-- The pops of a row pair with nb blocks a row; `bad` says which descriptors are invalid. -/
def pairPops (c : CoreSt) (bad : Nat → Bool) (nb rows j : Nat) (poison : Option (Nat × Nat)) : PairRead :=
  let k := nb * (pairRows rows j).length
  let ds := c.sq.take k
  ⟨poison, k, decide (c.sq.length < k), ds, ds.any fun d => bad d.toNat⟩

/-- The rows of a tile in a pair stored into a map. -/
def takeRows (c : CoreSt) (t rows j : Nat) (m : Sparse (BitVec 1024)) : Sparse (BitVec 1024) :=
  (pairRows rows j).foldl (fun m r => spPut 0 m r ((c.tile t).row r)) m

/-- LATCH's read of pair j. -/
def latchPair (c : CoreSt) (t j : Nat) (l : Latch) : PairRead × Latch :=
  let rows := tcRows l.kind
  let p := pairPops c (blockBad (ewBits (tcEw l.kind))) (rowBlocks l.kind) rows j (pairPoison c t rows j)
  (p, { l with rows := takeRows c t rows j l.rows, descs := l.descs ++ p.descs })

/-- Blocks a row of A pops (R250, R260). -/
def MmaRun.blocks (r : MmaRun) : Nat := if r.form = .sp then 8 else rowBlocks r.tca

/-- MMA's read of pair j of A. -/
def mmaPair (c : CoreSt) (j : Nat) (r : MmaRun) : PairRead × MmaRun :=
  let rows := tcRows r.tca
  let rowsB := if r.form = .t2i8 then tcRows r.tcb else if r.form = .sp then rows else 0
  let poison := match pairPoison c r.t rows j with | some x => some x | none => pairPoison c (r.t + 1) rowsB j
  let p := pairPops c (descInvalid 8) 0 rows j poison
  let p := if r.blocks = 0 then p else pairPops c ((if r.form = .sp then descInvalid else blockBad) (ewBits (tcEw r.tca))) r.blocks rows j poison
  let r1 := { r with
    rowsA := takeRows c r.t rows j r.rowsA
    rowsB := takeRows c (r.t + 1) rowsB j r.rowsB
    descs := r.descs ++ p.descs }
  let bad := p.bad || (r.form == .sp && (pairRows rows j).any fun m => (List.range 8).any fun b => r1.spInvalid m b)
  ({ p with bad := bad }, r1)

end Sys2Proof.Machine
end

