-- ==== Sys2Proof/Machine/Matrix.lean ====
section
/-!
DEFINITION. The words of the X slot (12, R243 to R266).
-/
namespace Sys2Proof.Machine

/-- An X word (R105): only the holder. -/
def State.xOp (s : State) (p : BitVec 3) (srcs : List (BitVec 5)) (body : State → State) : Out :=
  .next (s.holderOp fun s => s.slotOp p srcs body)

/-- The cycle in which the units of the core count. -/
def State.unitNow (s : State) : Nat := s.now (s.clkOf s.cur.core 0)

/-- TIMING for a unit in use (R244): 0 tile engine, 1 array. -/
def State.unitGate (s : State) (busyTo unit : Nat) (ok : State → State) : State :=
  if busyTo > s.unitNow then s.trap (.timing 2 (BitVec.ofNat 64 unit)) else ok s

/-- The units of the core as the bundle leaves them. -/
def State.setUnits (s : State) (f : Units → Units) : State :=
  { s with cur := { s.cur with units := f s.cur.units } }

/-- SPILLED for an accumulator that holds a live spill cell (R244, R113). -/
def State.spillGate (s : State) (n : BitVec 2) (ok : State → State) : State :=
  if s.me.accSpilled n.toNat then s.trap (.illegal 18 0) else ok s

/-- A row of a tile that a read in the issue cycle finds marked, beside the word's other traps (R185). -/
def State.rowTraps (s : State) (t : Nat) (rows : List Nat) : State :=
  match rows.find? fun r => (s.me.tile t).marked r with
  | some r => s.trap (.poison 2 0 t r)
  | none => s

/-- The row of a tile that a read in the issue cycle finds marked. -/
def State.useRows (s : State) (t : Nat) (rows : List Nat) (ok : State → State) : State :=
  match rows.find? fun r => (s.me.tile t).marked r with
  | some r => s.trap (.poison 2 0 t r)
  | none => ok s

/-! ## Tiles to and from memories (R245, R246) -/

/-- S of TLD and TST: 128 for RS = 0. -/
def State.strideOf (s : State) (r : BitVec 5) : Nat := if r = 0 then 128 else (s.rdS r).toNat

/-- The checks of R245. -/
def State.tileSpan (s : State) (a : Word) (st : Nat) (ok : State → State) : State :=
  if a.toNat % 64 ≠ 0 then s.trap (.align a none)
  else if st % 64 ≠ 0 then s.trap (.align (a + BitVec.ofNat 64 st) none)
  else if a.toNat + 63 * st + 128 > spSize then s.trap (.range a none)
  else ok s

/-- TLD (R245): rows 2j, 2j + 1 in bank cycle +1 + j. -/
def execTld (p : BitVec 3) (e : Ext) (t : BitVec 4) (base : Base) (r : BitVec 5) (o : BitVec 7) (s : State) : Out :=
  s.xOp p (r :: base.sregs) fun s =>
    let a := s.baseOff base o e 128
    let st := s.strideOf r
    s.tileSpan a st fun s => s.unitGate s.me.units.tileEnd 0 fun s =>
      (s.emit 1 (.tld t.toNat a.toNat st 0)).setUnits fun u => { u with tileEnd := s.unitNow + 32 }

/-- TST (R245): rows 2j, 2j + 1 read at +j. -/
def execTst (p : BitVec 3) (e : Ext) (t : BitVec 4) (base : Base) (r : BitVec 5) (o : BitVec 7) (s : State) : Out :=
  s.xOp p (r :: base.sregs) fun s =>
    let a := s.baseOff base o e 128
    let st := s.strideOf r
    let x := s.me.tile t.toNat
    s.tileSpan a st fun s => s.useRows t.toNat [0, 1] fun s => s.unitGate s.me.units.tileEnd 0 fun s =>
      (s.emit 1 (.tst a.toNat st 0 (x.row 0) (x.row 1) t.toNat)).setUnits
        fun u => { u with tileEnd := s.unitNow + 32 }

/-- A half row of a tile. -/
def halfRow (row : BitVec 1024) (h : Nat) : BitVec 512 := row.extractLsb' (512 * h) 512

/-- A latent-store access of the bundle's M slot that falls in the first line cycle of the stream in hand (R244), an atomic in either
stream's: TIMING for that slot. -/
def State.streamClash (s : State) (wr : Bool) : State :=
  let hit := fun (p : Pend) => p.own.slot == 2 && (match p.act with
    | .wS _ _ _ _ => !wr && decide (p.due ≥ s.cur.t + 24)
    | .lsStore _ _ _ => wr
    | .lsAtomic _ _ _ _ _ _ => true
    | _ => false)
  match s.cur.out.find? hit with
  | some p => { s with cur := { s.cur with traps := s.cur.traps ++ [p.own.cand (.timing 2 (if wr then 3 else 2))] } }
  | none => s

/-- TLDL at span offset o (R246): line 0 is read at issue. -/
def State.tldlAt (s : State) (t h : BitVec 4) (o : Word) : State :=
  s.handleOp h o 8192 64 false true fun pl s => s.lsGate pl false fun s =>
    let d := BitVec.ofNat 512 (leNat (s.lsBytes pl 64))
    let tag := s.lsTag pl
    let s1 := s.emitLate (s.dieOff pl.die 24) (.wHalf t.toNat 0 0 d tag tag)
    ((s1.emit 1 (.tldl t.toNat (s.rdH h) o.toNat 1 tag)).streamClash false).setUnits fun u => { u with rdEnd := s.cur.t + 128 }

/-- TSTL at span offset o (R246): line 0 is read from the tile at issue. -/
def State.tstlAt (s : State) (t h : BitVec 4) (o : Word) : State :=
  s.handleOp h o 8192 64 true true fun pl s => (s.rowTraps t.toNat [0]).lsGate pl true fun s =>
    let d := halfRow ((s.me.tile t.toNat).row 0) 0
    let s1 := s.emit (s.dieOff pl.die 20) (.lsStore pl (List.replicate 64 true) (natLe 64 d.toNat))
    ((s1.emit 1 (.tstl t.toNat (s.rdH h) o.toNat 1)).streamClash true).setUnits fun u => { u with wrEnd := s.cur.t + 128 }

def execTldl (p : BitVec 3) (e : Ext) (t h : BitVec 4) (o : BitVec 13) (s : State) : Out :=
  s.xOp p [] fun s => s.tldlAt t h (spanOff o e 64)

def execTldlIndexed (p : BitVec 3) (t h : BitVec 4) (i : BitVec 5) (s : State) : Out :=
  s.xOp p [i] fun s => s.tldlAt t h (s.rdS i)

def execTstl (p : BitVec 3) (e : Ext) (t h : BitVec 4) (o : BitVec 13) (s : State) : Out :=
  s.xOp p [] fun s => s.tstlAt t h (spanOff o e 64)

def execTstlIndexed (p : BitVec 3) (t h : BitVec 4) (i : BitVec 5) (s : State) : Out :=
  s.xOp p [i] fun s => s.tstlAt t h (s.rdS i)

/-! ## Tiles within the register file (R247) -/

def execTzero (p : BitVec 3) (d : BitVec 4) (s : State) : Out :=
  s.xOp p [] fun s => s.emit 1 (.wTile d.toNat Tile.zero)

/-- Rows 2j and 2j + 1 of a tile copied into x with their marks. -/
def copyPair (c : CoreSt) (t j : Nat) (x : Tile) : Tile :=
  let y := c.tile t
  (x.setRow (2 * j) (y.row (2 * j)) (y.marked (2 * j))).setRow (2 * j + 1) (y.row (2 * j + 1)) (y.marked (2 * j + 1))

/-- TCP: the whole tile at +33. -/
def execTcp (p : BitVec 3) (d a : BitVec 4) (s : State) : Out :=
  s.xOp p [] fun s => s.emit 1 (.tileRd d.toNat a.toNat 1 false (copyPair s.me a.toNat 0 Tile.zero))

/-- TTR: 16-bit elements, the whole tile at +36. -/
def execTtr (p : BitVec 3) (d a : BitVec 4) (s : State) : Out :=
  s.xOp p [] fun s =>
    if tcEw (s.me.tcReg a.toNat) ≠ 1 then s.immval
    else s.emit 1 (.tileRd d.toNat a.toNat 1 true (copyPair s.me a.toNat 0 Tile.zero))

/-- The transpose of the elements that the tile control covers (R107, R247). -/
def transpose (tc : Word) (x : Tile) : Tile :=
  let el := fun (r e : Nat) => if r < tcRows tc ∧ e < tcRlen tc then rowElem' (x.row r) e else 0
  { rows := spBuild 0 64 fun e => BitVec.ofNat 1024 (packBits 16 ((List.range 64).map fun r => el r e))
    marks := if (List.range (tcRows tc)).any x.marked then BitVec.allOnes 64 else 0 }
where
  /-- A 16-bit element of a row. -/
  rowElem' (row : BitVec 1024) (k : Nat) : Nat := rowElem 16 row k

/-! ## LATCH and MMA (R248 to R250, R258 to R260) -/

/-- A kind that LATCH accepts. -/
def latchKind (tc : Word) : Bool :=
  (match tcEw tc with | 1 => true | 2 => true | 3 => tcBlk tc | 4 => !tcBlk tc | _ => false)
    && (!tcBlk tc || tcRlen tc % 32 == 0)

/-- POISON of a row pair read in the issue cycle (R244). -/
def State.pairClean (s : State) (x : PairRead) (ok : State → State) : State :=
  match x.poison with
  | some q => s.trap (.poison 2 0 q.1 q.2)
  | none => ok s

/-- The pops of a row pair read in the issue cycle (R110). -/
def State.pairPops (s : State) (x : PairRead) (ok : State → State) : State :=
  if x.short then s.trap (.sqimbal s.me.sq.length false)
  else
    let s1 := if x.pops = 0 then s else s.emit 0 (.sqPop x.pops)
    ok (if x.bad then s1.emit 0 (.wFlag 10 (BitVec.ofNat 64 msDESCBAD)) else s1)

def execLatch (p : BitVec 3) (n : BitVec 2) (a : BitVec 4) (s : State) : Out :=
  s.xOp p [] fun s =>
    let tc := s.me.tcReg a.toNat
    if !latchKind tc then s.immval
    else
      let r := latchPair s.me a.toNat 0 ⟨true, [], tc, []⟩
      s.pairClean r.1 fun s => s.pairPops r.1 fun s => s.emit 1 (.latchRd n.toNat a.toNat 1 r.2)

/-- The tile control and the latch that a form requires (Table 12.1): width and BLK. -/
def kindIs (w : Word) (ew : Nat) (blk : Bool) : Bool := tcEw w == ew && tcBlk w == blk

/-- A full latch of a kind. -/
def latchIs (l : Latch) (ew : Nat) (blk : Bool) : Bool := l.full && kindIs l.kind ew blk

/-- The operands are what the form requires (R249, R259, R260). -/
def formOk (f : MmaForm) (t l : Nat) (tca tcb : Word) (l1 l2 : Latch) : Bool :=
  match f with
  | .bf16 | .f16 => kindIs tca 1 false && latchIs l1 1 false
  | .f8 => kindIs tca 2 true && tcRlen tca % 32 == 0 && latchIs l1 2 true
  | .f4 => kindIs tca 3 true && tcRlen tca % 32 == 0 && latchIs l1 3 true
  | .i8 => kindIs tca 2 false && latchIs l1 2 false
  | .t2i8 => t % 2 == 0 && kindIs tca 2 false && kindIs tcb 2 false && latchIs l1 4 false
  | .sp => t != 15 && l % 2 == 0 && kindIs tca 2 true && latchIs l1 2 true && latchIs l2 2 true

/-- MMA of a form, in seven-product or classical order; its traps in the order of R185. -/
def State.mmaOp (s : State) (c : BitVec 2) (a : BitVec 4) (l : BitVec 2) (f : MmaForm) (cl : Bool) : State :=
  let core := s.me
  let tca := core.tcReg a.toNat
  let tcb := core.tcReg (a.toNat + 1)
  let l1 := core.latchN l.toNat
  let l2 := core.latchN (l.toNat + 1)
  if !formOk f a.toNat l.toNat tca tcb l1 l2 then s.immval
  else
    let trunc := if f = .bf16 ∨ f = .f16 then fld core.mctl.toNat 0 3 else 0
    let r := mmaPair core 0
      { n := c.toNat, t := a.toNat, form := f, cl := cl, latch := l1, latch2 := l2, tca := tca, tcb := tcb,
        anchor := (core.accum c.toNat).anchor, trunc := trunc, rowsA := [], rowsB := [], descs := [], part := none }
    s.pairClean r.1 fun s => s.spillGate c fun s => s.unitGate s.me.units.arrayEnd 1 fun s => s.pairPops r.1 fun s =>
      (s.emit 1 (.mmaRd 1 r.2)).setUnits fun u => { u with arrayEnd := s.unitNow + (if cl then 37 else 32) }

/-- MMA (R249): forms t2i8 and sp have classical order alone. -/
def execMma (p : BitVec 3) (c : BitVec 2) (a : BitVec 4) (l : BitVec 2) (f : MmaForm) (s : State) : Out :=
  s.xOp p [] fun s => s.mmaOp c a l f (f == .t2i8 || f == .sp)

/-- MMA in classical order (R258). -/
def execMmaCl (p : BitVec 3) (c : BitVec 2) (a : BitVec 4) (l : BitVec 2) (f : MmaForm) (s : State) : Out :=
  s.xOp p [] fun s => s.mmaOp c a l f true

/-! ## Accumulators (R261 to R265) -/

/-- ACZ (R261). -/
def execAcz (p : BitVec 3) (e : Ext) (a : BitVec 2) (i : BitVec 12) (s : State) : Out :=
  s.xOp p [] fun s =>
    let n := extInt i e
    if n < -2048 ∨ n > 2047 then s.immval
    else s.spillGate a fun s => s.emit 1 (.wAcc a.toNat ⟨[], n⟩)

/-- The format of a floating ACRD. -/
def acrdFmt : AcrdFmt → Fmt
  | .bf16 => bf16 | .f16 => fp16 | _ => fp32

/-- The target of a block ACRD. -/
def acrdElem : AcrdFmt → ElemCode
  | .f8e5 => .f8e5 | .i8 => .i8 | .f4e2 => .f4e2 | .i4 => .i4 | _ => .f8e4

/-- A row of ACRD in block form (Table 12.6): the elements of two blocks, then the two descriptors. -/
def blockRow (t : ElemCode) (rm : Rm) (ov : Ovf) (xs : List Num) : Nat :=
  let b0 := blockEncode t rm ov (xs.take 32)
  let b1 := blockEncode t rm ov (xs.drop 32)
  packBits t.width (b0.2 ++ b1.2) + 2 ^ (64 * t.width) * (b0.1 + 2 ^ 16 * b1.1)

/-- Row i of ACRD (Table 12.6). -/
def acrdRow (f : AcrdFmt) (rm : Rm) (ov : Ovf) (hi : Bool) (a : Acc) (i : Nat) : BitVec 1024 :=
  let val := fun j => xaRead (a.elem i j) a.anchor
  match f with
  | .f32 => BitVec.ofNat 1024 (packBits 32 ((List.range 32).map fun j => roundToFormat fp32 rm ov (val (j + 32 * hi.toNat))))
  | .bf16 | .f16 =>
    BitVec.ofNat 1024 (packBits 16 ((List.range 64).map fun j => roundToFormat (acrdFmt f) rm ov (val j)))
  | .f8e4 | .f8e5 | .i8 | .f4e2 | .i4 =>
    BitVec.ofNat 1024 (blockRow (acrdElem f) rm ov ((List.range 64).map val))

/-- XHIGH and XOVF of the elements read in row i (R262). -/
def acrdFlags (f : AcrdFmt) (hi : Bool) (a : Acc) (i : Nat) : Nat :=
  let cols := if f = .f32 then (List.range 32).map (· + 32 * hi.toNat) else List.range 64
  (if cols.any fun j => (a.elem i j).high then msXHIGH else 0)
    + (if cols.any fun j => (a.elem i j).ovf then msXOVF else 0)

/-- ACRD (R262): rows 2j, 2j + 1 at +4 + j, with their flags. -/
def execAcrd (p : BitVec 3) (d : BitVec 4) (n : BitVec 2) (f : AcrdFmt) (r : Rm) (ov : Ovf) (hi : Bool) (s : State) : Out :=
  s.xOp p [] fun s =>
    let a := s.me.accum n.toNat
    (List.range 64).foldl (fun s i =>
      let s1 := s.emitLate (4 + i / 2) (.wRow d.toNat i (acrdRow f r ov hi a i) false)
      let fl := acrdFlags f hi a i
      if fl = 0 then s1 else s1.emit (4 + i / 2) (.wFlag 10 (BitVec.ofNat 64 fl))) s

/-- Two accumulators merged (R263): a NaN tag in every element where the anchors differ. -/
def accMerge (a b : Acc) : Acc :=
  { a with el := spZip Xa.zero 4096 (takeOwn (a.anchor == b.anchor)) a.el b.el }

/-- ACADD (R263). -/
def execAcadd (p : BitVec 3) (n m : BitVec 2) (s : State) : Out :=
  s.xOp p [] fun s => s.spillGate n fun s =>
    s.emit 36 (.wAcc n.toNat (accMerge (s.me.accum n.toNat) (s.me.accum m.toNat)))

/-- The code of element (i, j) that ACWR takes from its tiles, each with its number and tile control (R264, R107). -/
def tilesCode (l : List (Nat × Word × Tile)) (f32 : Bool) (i j : Nat) : Nat :=
  let k := if f32 then j % 32 else j
  match l[if f32 then j / 32 else 0]? with
  | some x => if i < tcRows x.2.1 ∧ k < tcRlen x.2.1 then rowElem (if f32 then 32 else 16) (x.2.2.row i) k else 0
  | none => 0

/-- The tiles that ACWR reads (R264). -/
def acwrTiles (c : CoreSt) (t : Nat) (f32 : Bool) : List (Nat × Word × Tile) :=
  (if f32 then [t, t + 1] else [t]).map fun u => (u, c.tcReg u, c.tile u)

/-- The code of element (i, j) that ACWR takes from tile t. -/
def acwrCode (c : CoreSt) (t : Nat) (f32 : Bool) (i j : Nat) : Nat := tilesCode (acwrTiles c t f32) f32 i j

/-- ACWR (R264): ta is read at issue. -/
def execAcwr (p : BitVec 3) (n : BitVec 2) (a : BitVec 4) (s : State) : Out :=
  s.xOp p [] fun s =>
    let t := a.toNat
    let ew := tcEw (s.me.tcReg t)
    if ew > 1 ∨ (ew = 0 ∧ t % 2 = 1) then s.immval
    else
      let f32 := ew == 0
      s.useRows t (List.range (tcRows (s.me.tcReg t))) fun s =>
        (if f32 then s.useRows (t + 1) (List.range (tcRows (s.me.tcReg (t + 1)))) else fun ok => ok s) fun s => s.spillGate n fun s =>
          s.emit 36 (.wAccTile n.toNat f32 (spBuild 0 4096 fun k => acwrCode s.me t f32 (k / 64) (k % 64)) (acwrTiles s.me t f32))

/-- ACWR's write (R264): one xa_add into each cleared element. -/
def accFromCodes (f32 : Bool) (codes : Sparse Nat) (anchor : Int) : Acc :=
  { anchor := anchor
    el := spOf Xa.zero ((spDense 0 codes 0 4096).map fun c =>
      xaAdd Xa.zero ((if f32 then fp32 else bf16).decode c) anchor) }

/-- A privileged X word (R265, R105, log 18): the firmware context acts on core 0; the holder gets PRIV, another context
HOLDER. -/
def State.xPriv (s : State) (p : BitVec 3) (base : Base) (body : State → State) : Out :=
  .next (if s.isHolder || s.isFw then s.baseOp base fun s => s.privOp p base.sregs body else s.trap (.illegal 10 0))

/-- The address checks of R265. -/
def State.accSpan (s : State) (a : Word) (ok : State → State) : State :=
  if a.toNat % 64 ≠ 0 then s.trap (.align a none)
  else if a.toNat + 0x20000 > spSize then s.trap (.range a none)
  else ok s

/-- ACSAVE (R265): aN is read at issue. -/
def execAcsave (p : BitVec 3) (e : Ext) (n : BitVec 2) (base : Base) (o : BitVec 7) (s : State) : Out :=
  s.xPriv p base fun s =>
    let a := s.baseOff base o e 128
    s.accSpan a fun s => s.unitGate s.me.units.tileEnd 0 fun s =>
      (s.emit 1 (.acsave a.toNat 0 (s.me.accum n.toNat))).setUnits fun u => { u with tileEnd := s.unitNow + 512 }

/-- ACREST (R265). -/
def execAcrest (p : BitVec 3) (e : Ext) (n : BitVec 2) (base : Base) (o : BitVec 7) (s : State) : Out :=
  s.xPriv p base fun s =>
    let a := s.baseOff base o e 128
    s.accSpan a fun s => s.spillGate n fun s => s.unitGate s.me.units.tileEnd 0 fun s =>
      (s.emit 1 (.acrest n.toNat a.toNat 0 Acc.zero)).setUnits fun u => { u with tileEnd := s.unitNow + 512 }

/-- The record of an element (Table 12.7). -/
def accRecord (x : Xa) (anchor : Int) : List Byte :=
  natLe 16 x.v.toNat ++ natLe 3 x.count ++ natLe 1 (x.tag.code + 4 * x.ovf.toNat + 8 * x.high.toNat)
    ++ natLe 2 (wrapTo 16 anchor) ++ List.replicate 10 0

/-- The element of a record. -/
def recordElem (bs : List Byte) : Xa :=
  let b := (nth 0 bs 19).toNat
  { v := BitVec.ofNat 128 (leNat (bs.take 16))
    count := leNat ((bs.drop 16).take 3)
    tag := XTag.ofCode (b % 4)
    ovf := bt b 2
    high := bt b 3 }

/-- The anchor of a record. -/
def recordAnchor (bs : List Byte) : Int := sext 16 (leNat ((bs.drop 20).take 2))

/-- MSTAT (R266). -/
def execMstat (p : BitVec 3) (d : BitVec 5) (s : State) : Out :=
  s.xOp p [] fun s => (s.emitS 1 d s.me.mstat).emit 1 (.wClear 10 s.me.mstat)

end Sys2Proof.Machine
end

