-- ==== Sys2Proof/Machine/Random.lean ====
section
/-!
DEFINITION. The vectors of the random-bits queue (07, R112).
-/
namespace Sys2Proof.Machine

/-- The four counter words of Philox. -/
structure Philox where
  a : Nat
  b : Nat
  c : Nat
  d : Nat
  deriving DecidableEq, Repr

/-- One round of Philox-4x32. -/
def philoxRound (x : Philox) (k0 k1 : Nat) : Philox :=
  let p := 0xD2511F53 * x.a
  let q := 0xCD9E8D57 * x.c
  ⟨(q / 2 ^ 32) ^^^ x.b ^^^ k0, q % 2 ^ 32, (p / 2 ^ 32) ^^^ x.d ^^^ k1, p % 2 ^ 32⟩

/-- n rounds, the key raised after each. -/
def philoxRounds : Nat → Philox → Nat → Nat → Philox
  | 0, x, _, _ => x
  | n + 1, x, k0, k1 =>
    philoxRounds n (philoxRound x k0 k1) ((k0 + 0x9E3779B9) % 2 ^ 32) ((k1 + 0xBB67AE85) % 2 ^ 32)

/-- The four lanes of group g of vector n (R112). -/
def rqGroup (q : RandQ) (n g : Nat) : List Nat :=
  let c := (4 * n + g) % 2 ^ 48
  let x := philoxRounds 10
    ⟨c % 2 ^ 32, c / 2 ^ 32 + 2 ^ 16 * q.rank.toNat, q.node.toNat, q.step.toNat⟩
    (q.seed.toNat % 2 ^ 32) (q.seed.toNat / 2 ^ 32)
  [x.a, x.b, x.c, x.d]

/-- rq_vector (R112). -/
def rqVector (q : RandQ) (n : Nat) : BitVec 512 :=
  let n := n % 2 ^ 46
  ofLanes (rqGroup q n 0 ++ rqGroup q n 1 ++ rqGroup q n 2 ++ rqGroup q n 3)

/-- The vector that the k-th pop of a bundle takes. -/
def RandQ.peek (q : RandQ) (k : Nat) : BitVec 512 := rqVector q (q.pos.toNat + k)

/-- k vectors popped (R111). -/
def RandQ.pop (q : RandQ) (k : Nat) : RandQ :=
  { q with held := q.held - k, pos := q.pos + BitVec.ofNat 46 k }

end Sys2Proof.Machine
end

