-- ==== Sys2Proof/Machine/Transc.lean ====
section
/-!
DEFINITION. The special functions of R226 and R240. A value is computed in fixed point with 400 fraction bits; 40 low bits
are dropped for the error of the series and one sticky bit stands for them. The exact cases of Table 11.3 are decided
before the series, so a sticky value is never a representable one (DEDUCED, log 10).
-/
namespace Sys2Proof.Machine

/-- Fraction bits of the fixed-point numbers here. -/
def fxW : Nat := 400

/-- The fixed-point one. -/
def fxOne : Int := 2 ^ 400

def fxMul (a b : Int) : Int := a * b / fxOne

/-- m * 2^e in fixed point (exact for e at least -400). -/
def fxOf (m e : Int) : Int := shiftInt m (e + 400)

/-- A positive fixed-point value, 40 low bits dropped, times 2^n. -/
def fxNum (neg : Bool) (v : Int) (n : Int) : Num := sticky neg (v.toNat / 2 ^ 40) false (n - 360)

/-- z + z^3/3 + z^5/5 + ...: k is the next odd divisor, p the next odd power of z. -/
def atanhSum : Nat → Nat → Int → Int → Int → Int
  | 0, _, _, _, s => s
  | n + 1, k, p, z2, s => atanhSum n (k + 2) (fxMul p z2) z2 (s + p / k)

/-- atanh z. -/
def fxAtanh (z : Int) : Int := atanhSum 140 1 z (fxMul z z) 0

/-- ln 2 = 2 atanh (1/3). -/
def fxLn2 : Int := 2 * fxAtanh (fxOne / 3)

/-- ln of m * 2^e, for m > 0: the natural logarithm of the value scaled into [1, 2), and the exponent. -/
def fxLnParts (m : Nat) (e : Int) : Int × Int :=
  let k := log2 m
  let x := fxOf m (-(k : Int))
  (2 * fxAtanh ((x - fxOne) * fxOne / (x + fxOne)), e + k)

/-- The sum of t^k / k! from k on; p is the last term. -/
def expSum : Nat → Nat → Int → Int → Int → Int
  | 0, _, _, _, s => s
  | n + 1, k, p, t, s => let p' := fxMul p t / k; expSum n (k + 1) p' t (s + p')

/-- e^t for 0 ≤ t < 1. -/
def fxExp (t : Int) : Int := expSum 90 1 fxOne t fxOne

/-- The alternating sum of sin or cos: k is the next factor, p the last term with its sign. -/
def sinSum : Nat → Nat → Int → Int → Int → Int
  | 0, _, _, _, s => s
  | n + 1, k, p, t2, s =>
    let p' := -(fxMul p t2 / (k * (k + 1))); sinSum n (k + 2) p' t2 (s + p')

/-- arctan of 1 / n, by its series: k is the next odd divisor, p the next power with its sign. -/
def atanInv : Nat → Nat → Int → Int → Int → Int
  | 0, _, _, _, s => s
  | i + 1, k, p, n2, s => atanInv i (k + 2) (-(p / n2)) n2 (s + p / k)

/-- pi = 16 arctan (1/5) - 4 arctan (1/239). -/
def fxPi : Int := 16 * atanInv 100 1 (fxOne / 5) 25 0 - 4 * atanInv 40 1 (fxOne / 239) 57121 0

/-- sin (pi * r) for 0 ≤ r ≤ 1/2, in fixed point. -/
def fxSinPi (r : Int) : Int := let t := fxMul fxPi r; sinSum 60 2 t (fxMul t t) t

/-- cos (pi * r) for 0 ≤ r ≤ 1/2, in fixed point. -/
def fxCosPi (r : Int) : Int := let t := fxMul fxPi r; sinSum 60 1 fxOne (fxMul t t) fxOne

/-- m * 2^e is an integer. -/
def isIntDy (m e : Int) : Bool := e ≥ 0 || m % 2 ^ (-e).toNat == 0

/-- The result of a special function: the value, and the invalid and division-by-zero flags that Table 11.3 gives. -/
structure SfRes where
  x : Num
  nv : Bool
  dz : Bool
  deriving DecidableEq, Repr

def SfRes.of (x : Num) : SfRes := ⟨x, false, false⟩

/-- 1/a (R226). -/
def sfRcp : Num → SfRes
  | .nan => .of .nan
  | .zero n => ⟨.inf n, false, true⟩
  | .inf n => .of (.zero n)
  | .fin m e => .of (quotNum (decide (m < 0)) 1 0 m.natAbs e)

/-- 1/sqrt a (R226). -/
def sfRsq : Num → SfRes
  | .nan => .of .nan
  | .zero n => ⟨.inf n, false, true⟩
  | .inf true => ⟨.nan, true, false⟩
  | .inf false => .of (.zero false)
  | .fin m e =>
    if m < 0 then ⟨.nan, true, false⟩
    else
      let m := m.natAbs
      let odd := decide (e % 2 ≠ 0)
      let m' := if odd then 2 * m else m
      let e' := if odd then e - 1 else e
      let s := 140 + log2 m'
      let n := 2 ^ (2 * s)
      let r := isqrt (n / m')
      .of (sticky false r (decide (r * r * m' = n)) (-(s : Int) - e' / 2))

/-- 2^a (R226). -/
def sfExp2 : Num → SfRes
  | .nan => .of .nan
  | .zero _ => .of (.fin 1 0)
  | .inf true => .of (.zero false)
  | .inf false => .of (.inf false)
  | .fin m e =>
    if expOf m e ≥ 11 then .of (if m < 0 then .fin 1 (-4096) else .fin 3 4096)
    else
      let n := shiftInt m e
      if isIntDy m e then .of (.fin 1 n)
      else
        let f := fxOf m e - n * fxOne
        .of (fxNum false (fxExp (fxMul f fxLn2)) n)

/-- log2 a (R226). -/
def sfLog2 : Num → SfRes
  | .nan => .of .nan
  | .zero _ => ⟨.inf true, false, true⟩
  | .inf true => ⟨.nan, true, false⟩
  | .inf false => .of (.inf false)
  | .fin m e =>
    if m < 0 then ⟨.nan, true, false⟩
    else
      let m := m.natAbs
      let k := log2 m
      if m = 2 ^ k then .of (Num.ofInt (e + k))
      else
        let p := fxLnParts m e
        let v := p.2 * fxOne + p.1 * fxOne / fxLn2
        .of (fxNum (decide (v < 0)) v.natAbs 0)

/-- The value of m * 2^e modulo 2, in fixed point, from 0 up to 2. -/
def fxMod2 (m e : Int) : Int :=
  if e ≥ 1 then 0 else fxOf (m % 2 ^ (1 - e).toNat) e

/-- sin (pi * r) for 0 ≤ r < 2: the sign, and the magnitude's argument in [0, 1/2]. -/
def sinFold (r : Int) : Bool × Int :=
  let neg := decide (r ≥ fxOne)
  let r := if neg then r - fxOne else r
  (neg, if 2 * r > fxOne then fxOne - r else r)

/-- sin (pi * a) (R226): an integer n gives a zero with the sign of n. -/
def sfSinPi : Num → SfRes
  | .nan => .of .nan
  | .zero n => .of (.zero n)
  | .inf _ => ⟨.nan, true, false⟩
  | .fin m e =>
    if isIntDy m e then .of (.zero (decide (m < 0)))
    else
      let f := sinFold (fxMod2 m e)
      if 2 * f.2 = fxOne then .of (.fin (if f.1 then -1 else 1) 0)
      else .of (fxNum f.1 (fxSinPi f.2) 0)

/-- cos (pi * a) (R226): n + 1/2 gives +0. -/
def sfCosPi : Num → SfRes
  | .nan => .of .nan
  | .zero _ => .of (.fin 1 0)
  | .inf _ => ⟨.nan, true, false⟩
  | .fin m e =>
    let r := fxMod2 m e
    let r := if r > fxOne then 2 * fxOne - r else r
    let neg := decide (2 * r > fxOne)
    let r := if neg then fxOne - r else r
    if 2 * r = fxOne then .of (.zero false)
    else if r = 0 then .of (.fin (if neg then -1 else 1) 0)
    else .of (fxNum neg (fxCosPi r) 0)

/-- The square root of a non-negative fixed-point value. -/
def fxSqrt (v : Int) : Int := isqrt (v.toNat * 2 ^ 400)

/-- One pair of vgauss (R240), from the two words. -/
def gaussPair (a b : Nat) (rm : Rm) : Nat × Nat :=
  let k := a / 256 + 1
  let u := b / 256
  if k = 2 ^ 24 then (fp32.zeroCode false, fp32.zeroCode false)
  else
    let p := fxLnParts k (-24)
    let rad := fxSqrt (-2 * (p.2 * fxLn2 + p.1))
    let part (r : SfRes) : Nat :=
      match r.x with
      | .fin m e =>
        roundToFormat fp32 rm .sat (fxNum (decide (m < 0)) (fxMul rad (fxOf m.natAbs e)) 0)
      | _ => fp32.zeroCode false
    if u = 0 then (part (.of (.fin 1 0)), fp32.zeroCode false)
    else (part (sfCosPi (.fin u (-23))), part (sfSinPi (.fin u (-23))))

end Sys2Proof.Machine
end

