-- ==== Sys2Proof/Machine/Vector.lean ====
section
/-!
DEFINITION. The words of the V slots (11, R213 to R241).
-/
namespace Sys2Proof.Machine

/-! ## Words on clusters (R213 to R218) -/

/-- The rounding mode of a V word (R131, R216). -/
def extRm : Ext → Rm
  | none => .rne
  | some l => Rm.ofCode (l.toNat % 4)

/-- The overflow mode of a V word (R131). -/
def extOvf : Ext → Ovf
  | none => .sat
  | some l => Ovf.ofCode (l.toNat / 4 % 2)

/-- POISON for a marked vector register read at issue (R218). -/
def State.useV (s : State) (c : Nat) (r : BitVec 5) : State :=
  if s.me.vMarked c r then s.trap (.poison 1 c r.toNat 0) else s

/-- A word's part in cluster c: its slot, its vector sources, its effect. -/
def State.onCluster (s : State) (vs : List (BitVec 5)) (body : Nat → State → State) (c : Nat) : State :=
  body c (vs.foldl (fun s r => s.useV c r) { s with cur := { s.cur with slot := 5 + c } })

/-- A V word (R213): only the holder; scalar sources `ss` read once, then every executing cluster in order. -/
def State.vec (s : State) (p : BitVec 3) (ss vs : List (BitVec 5)) (body : Nat → State → State) : Out :=
  .next (s.holderOp fun s => s.slotOp p ss fun s =>
    s.cur.clusters.foldl (fun s c => s.onCluster vs body c) s)

/-- A vector result of cluster c in the unmasked lanes. -/
def State.emitV (s : State) (off c : Nat) (v : BitVec 5) (mask : BitVec 16) (x : BitVec 512) : State :=
  s.emit off (.wV c v mask x false)

/-- Sticky flags of VSTAT set with the result (R217). -/
def State.flagV (s : State) (off bits : Nat) : State :=
  if bits = 0 then s else s.emit off (.wFlag 11 (BitVec.ofNat 64 bits))

/-- Every lane. -/
def allLanes : BitVec 16 := BitVec.allOnes 16

/-- Vector register r of cluster c, as it stands at issue. -/
def State.rdV (s : State) (c : Nat) (r : BitVec 5) : BitVec 512 := s.me.rdV c r

def State.rdM (s : State) (c : Nat) (m : BitVec 3) : BitVec 16 := s.me.rdM c m

/-! ## Elements (R214, R21) -/

/-- Bits of an element. -/
def laneW : LaneTy → Nat
  | .f32 | .i32 | .n32 => 32
  | .bf16x2 | .f16x2 | .i16x2 => 16
  | .i8x4 => 8

/-- The format of a floating type. -/
def laneFmt : LaneTy → Fmt
  | .bf16x2 => bf16
  | .f16x2 => fp16
  | _ => fp32

/-- Element i of w bits. -/
def elemAt (w : Nat) (x : BitVec 512) (i : Nat) : Nat := (x.extractLsb' (w * i) w).toNat

/-- The elements of w bits, in order. -/
def elems (w : Nat) (x : BitVec 512) : List Nat := (List.range (512 / w)).map (elemAt w x)

/-- The elements of w bits that the mask selects, in order. -/
def selElems (w : Nat) (mask : BitVec 16) (x : BitVec 512) : List Nat :=
  ((List.range (512 / w)).filter fun i => mask.getLsbD (w * i / 32)).map (elemAt w x)

/-- A vector of elements of w bits. -/
def ofElems (w : Nat) (l : List Nat) : BitVec 512 := BitVec.ofNat 512 (packBits w l)

/-- The integer value of an element: unsigned for .n32. -/
def intOf (t : LaneTy) (x : Nat) : Int := if t = .n32 then (x : Int) else sext (laneW t) x

/-- An element-wise function applied in cluster c: the results of the 512 / w elements, and the flags of the unmasked
ones. -/
def mapElems (w : Nat) (mask : BitVec 16) (srcs : List (BitVec 512)) (f : List Nat → Nat × Nat) : BitVec 512 × Nat :=
  let rs := (List.range (512 / w)).map fun i => f (srcs.map fun x => elemAt w x i)
  (ofElems w (rs.map (·.1)),
    (rs.zipIdx.filter fun x => mask.getLsbD (w * x.2 / 32)).foldl (fun a x => a ||| x.1.2) 0)

/-- An element-wise word: sources, latency, function from the codes to the result's code and flags. -/
def State.elementwise (s : State) (p : BitVec 3) (v : BitVec 5) (srcs : List (BitVec 5)) (w : Nat) (m : BitVec 3)
    (off : Nat) (f : List Nat → Nat × Nat) : Out :=
  s.vec p [] srcs fun c s =>
    let mask := s.rdM c m
    let r := mapElems w mask (srcs.map (s.rdV c)) f
    (s.emitV off c v mask r.1).flagV off r.2

/-! ## Memory (R219 to R222) -/

/-- VLD (R219). -/
def execVld (p : BitVec 3) (e : Ext) (v : BitVec 5) (base : Base) (o : BitVec 8) (m : BitVec 3) (s : State) : Out :=
  s.vec p base.sregs [] fun c s =>
    let a := s.baseOff base o e 64
    s.spCheck a 64 64 fun s => s.emit 1 (.vLoad c v (s.rdM c m) (a.toNat / 64))

/-- VST (R219). -/
def execVst (p : BitVec 3) (e : Ext) (v : BitVec 5) (base : Base) (o : BitVec 8) (m : BitVec 3) (s : State) : Out :=
  s.vec p base.sregs [v] fun c s =>
    let a := s.baseOff base o e 64
    s.spCheck a 64 64 fun s => s.emit 1 (.vStore c (a.toNat / 64) (s.rdM c m) (s.rdV c v))

/-- ALIGN and RANGE of the addresses of the unmasked lanes (R220, R221). -/
def State.laneCheck (s : State) (mask : BitVec 16) (addrs : List Word) : State :=
  addrs.zipIdx.foldl (fun s x => if mask.getLsbD x.2 then s.spCheck x.1 4 4 id else s) s

/-- The distinct lines of the unmasked lanes, in the order of the lowest lane that touches each (R220). -/
def laneLines (mask : BitVec 16) (addrs : List Nat) : List Nat :=
  ((addrs.zipIdx.filter fun x => mask.getLsbD x.2).map fun x => x.1 / 64).eraseDups

/-- VLDS (R220). -/
def execVlds (p : BitVec 3) (e : Ext) (v a b : BitVec 5) (m : BitVec 3) (s : State) : Out :=
  let _ := e
  s.vec p [a, b] [] fun c s =>
    let mask := s.rdM c m
    let addrs := (List.range 16).map fun j => s.rdS a + s.rdS b * BitVec.ofNat 64 j
    let s1 := s.laneCheck mask addrs
    let nat := addrs.map (·.toNat)
    if mask = 0 then s1 else s1.emit 1 (.vGather c v mask nat (laneLines mask nat) 0 false)

/-- The lane addresses of VLDX and VSTX (R221). -/
def State.idxAddrs (s : State) (c : Nat) (a b : BitVec 5) : List Word :=
  (lanes (s.rdV c b)).map fun x => s.rdS a + BitVec.ofNat 64 x

/-- VLDX (R221). -/
def execVldx (p : BitVec 3) (e : Ext) (v a b : BitVec 5) (m : BitVec 3) (s : State) : Out :=
  let _ := e
  s.vec p [a] [b] fun c s =>
    let mask := s.rdM c m
    let addrs := s.idxAddrs c a b
    (s.laneCheck mask addrs).emit 1 (.vIdxLoad c v mask (addrs.map (·.toNat)) 0 0 false)

/-- VSTX (R221). -/
def execVstx (p : BitVec 3) (e : Ext) (v a b : BitVec 5) (m : BitVec 3) (s : State) : Out :=
  let _ := e
  s.vec p [a] [b, v] fun c s =>
    let mask := s.rdM c m
    let addrs := s.idxAddrs c a b
    (s.laneCheck mask addrs).emit 1 (.vIdxStore c mask (addrs.map (·.toNat)) 0 (s.rdV c v))

/-- The bytes of the unmasked lanes. -/
def laneBytes (mask : BitVec 16) : List Bool := (List.range 64).map fun i => mask.getLsbD (i / 4)

/-- VLDL (R222). -/
def execVldl (p : BitVec 3) (e : Ext) (v : BitVec 5) (h : BitVec 4) (o : BitVec 8) (m : BitVec 3) (s : State) : Out :=
  s.vec p [] [] fun c s =>
    s.handleOp h (spanOff o e 64) 64 64 false true fun pl s => s.lsGate pl false fun s =>
      s.emit (s.dieOff pl.die 24)
        (.wV c v (s.rdM c m) (BitVec.ofNat 512 (leNat (s.lsBytes pl 64))) (s.lsTag pl))

/-- VSTL (R222). -/
def execVstl (p : BitVec 3) (e : Ext) (v : BitVec 5) (h : BitVec 4) (o : BitVec 8) (m : BitVec 3) (s : State) : Out :=
  s.vec p [] [v] fun c s =>
    s.handleOp h (spanOff o e 64) 64 64 true true fun pl s => s.lsGate pl true fun s =>
      s.emit (s.dieOff pl.die 20) (.lsStore pl (laneBytes (s.rdM c m)) (natLe 64 (s.rdV c v).toNat))

/-! ## Arithmetic (R223 to R226) -/

/-- A floating function of exact values with its own NV and DZ flags, rounded once (R216). -/
def fltOp (t : LaneTy) (rm : Rm) (g : List Num → Num × Nat) (xs : List Nat) : Nat × Nat :=
  let f := laneFmt t
  let r := g (xs.map f.decode)
  let q := roundTo f rm .sat r.1
  (q.1, r.2 ||| q.2.bits)

/-- An integer function, wrapped to the element (R216). -/
def intOp (t : LaneTy) (g : List Int → Int) (xs : List Nat) : Nat × Nat :=
  (wrapTo (laneW t) (g (xs.map (intOf t))), 0)

/-- A function of either kind. -/
def elemOp (t : LaneTy) (rm : Rm) (f : List Num → Num × Nat) (g : List Int → Int) : List Nat → Nat × Nat :=
  if t.isFloat then fltOp t rm f else intOp t g

/-- NV where a NaN arises from operands that are none (R223). -/
def nvIf (b : Bool) : Nat := if b then vsNV else 0

/-- a + b, with NV. -/
def addNv (rm : Rm) (a b : Num) : Num × Nat :=
  let r := Num.add (rm == .rdn) a b
  (r, nvIf (r.isNan && !a.isNan && !b.isNan))

/-- a * b, with NV. -/
def mulNv (a b : Num) : Num × Nat :=
  let r := a.mul b
  (r, nvIf (r.isNan && !a.isNan && !b.isNan))

/-- d + a * b, with NV: infinity times zero is invalid even when d is a NaN (R223). -/
def fmaNv (rm : Rm) (neg : Bool) (a b d : Num) : Num × Nat :=
  let q := mulNv a b
  let r := addNv rm d (if neg then q.1.negate else q.1)
  (r.1, q.2 ||| r.2)

def f2 (f : Num → Num → Num × Nat) : List Num → Num × Nat
  | [a, b] => f a b
  | _ => (.nan, 0)

def i2 (f : Int → Int → Int) : List Int → Int
  | [a, b] => f a b
  | _ => 0

def f3 (f : Num → Num → Num → Num × Nat) : List Num → Num × Nat
  | [a, b, d] => f a b d
  | _ => (.nan, 0)

def i3 (f : Int → Int → Int → Int) : List Int → Int
  | [a, b, d] => f a b d
  | _ => 0

/-- The latency of an addition or comparison: 4 floating, 2 integer (Table 11.2). -/
def addLat (t : LaneTy) : Nat := if t.isFloat then 4 else 2

def execVadd (p : BitVec 3) (e : Ext) (v a b : BitVec 5) (t : LaneTy) (m : BitVec 3) (s : State) : Out :=
  s.elementwise p v [a, b] (laneW t) m (addLat t) (elemOp t (extRm e) (f2 (addNv (extRm e))) (i2 (· + ·)))

def execVsub (p : BitVec 3) (e : Ext) (v a b : BitVec 5) (t : LaneTy) (m : BitVec 3) (s : State) : Out :=
  s.elementwise p v [a, b] (laneW t) m (addLat t)
    (elemOp t (extRm e) (f2 fun x y => addNv (extRm e) x y.negate) (i2 (· - ·)))

def execVmul (p : BitVec 3) (e : Ext) (v a b : BitVec 5) (t : LaneTy) (m : BitVec 3) (s : State) : Out :=
  s.elementwise p v [a, b] (laneW t) m 4 (elemOp t (extRm e) (f2 mulNv) (i2 (· * ·)))

/-- VFMA (R223): vd is read at p. -/
def execVfma (p : BitVec 3) (e : Ext) (v a b : BitVec 5) (t : LaneTy) (m : BitVec 3) (s : State) : Out :=
  s.elementwise p v [a, b, v] (laneW t) m 4
    (elemOp t (extRm e) (f3 (fmaNv (extRm e) false)) (i3 fun x y d => d + x * y))

def execVfms (p : BitVec 3) (e : Ext) (v a b : BitVec 5) (t : LaneTy) (m : BitVec 3) (s : State) : Out :=
  s.elementwise p v [a, b, v] (laneW t) m 4
    (elemOp t (extRm e) (f3 (fmaNv (extRm e) true)) (i3 fun x y d => d - x * y))

/-- The order of R224: -0 below +0. -/
def Num.lt0 (a b : Num) : Bool :=
  match a, b with
  | .zero x, .zero y => x && !y
  | _, _ => a.lt b

/-- VMIN and VMAX (R224) as a choice of one of two codes. -/
def minMax (t : LaneTy) (isMax : Bool) : List Nat → Nat × Nat
  | [a, b] =>
    if t.isFloat then
      let f := laneFmt t
      let x := f.decode a
      let y := f.decode b
      if x.isNan || y.isNan then (f.nanCode, 0)
      else (if (if isMax then x.lt0 y else y.lt0 x) then b else a, 0)
    else
      let x := intOf t a
      let y := intOf t b
      (if (if isMax then decide (x < y) else decide (y < x)) then b else a, 0)
  | _ => (0, 0)

def execVmin (p : BitVec 3) (e : Ext) (v a b : BitVec 5) (t : LaneTy) (m : BitVec 3) (s : State) : Out :=
  let _ := e
  s.elementwise p v [a, b] (laneW t) m (addLat t) (minMax t false)

def execVmax (p : BitVec 3) (e : Ext) (v a b : BitVec 5) (t : LaneTy) (m : BitVec 3) (s : State) : Out :=
  let _ := e
  s.elementwise p v [a, b] (laneW t) m (addLat t) (minMax t true)

/-- VABS and VNEG on one code (R223, R224): only the sign bit of a floating element that is no NaN. -/
def signOp (t : LaneTy) (neg : Bool) : List Nat → Nat × Nat
  | [a] =>
    if t.isFloat then
      let f := laneFmt t
      let mag := a % 2 ^ (f.bits - 1)
      if (f.decode a).isNan then (f.nanCode, 0)
      else (if neg then mag + f.signBit (!decide (a ≥ 2 ^ (f.bits - 1))) else mag, 0)
    else intOp t (fun l => match l with | [x] => if neg then -x else (x.natAbs : Int) | _ => 0) [a]
  | _ => (0, 0)

def execVabs (p : BitVec 3) (e : Ext) (v a : BitVec 5) (t : LaneTy) (m : BitVec 3) (s : State) : Out :=
  let _ := e
  s.elementwise p v [a] (laneW t) m 2 (signOp t false)

def execVneg (p : BitVec 3) (e : Ext) (v a : BitVec 5) (t : LaneTy) (m : BitVec 3) (s : State) : Out :=
  let _ := e
  s.elementwise p v [a] (laneW t) m 2 (signOp t true)

/-- IEEE division before rounding (R225). -/
def divNv : Num → Num → Num × Nat
  | .nan, _ => (.nan, 0)
  | _, .nan => (.nan, 0)
  | .inf _, .inf _ => (.nan, vsNV)
  | .inf a, y => (.inf (a != y.neg?), 0)
  | x, .inf b => (.zero (x.neg? != b), 0)
  | .zero _, .zero _ => (.nan, vsNV)
  | x, .zero b => (.inf (x.neg? != b), vsDZ)
  | .zero a, y => (.zero (a != y.neg?), 0)
  | .fin m e, .fin n f => (quotNum (decide (m < 0) != decide (n < 0)) m.natAbs e n.natAbs f, 0)

def execVdiv (p : BitVec 3) (e : Ext) (v a b : BitVec 5) (t : LaneTy) (m : BitVec 3) (s : State) : Out :=
  s.elementwise p v [a, b] (laneW t) m 14 (fltOp t (extRm e) (f2 divNv))

/-- A function of one exact value. -/
def f1 (f : Num → Num × Nat) : List Num → Num × Nat
  | [a] => f a
  | _ => (.nan, 0)

/-- IEEE square root before rounding; the pivot form of R225. -/
def sqrtNv (pivot : Bool) : Num → Num × Nat
  | .nan => (.nan, if pivot then vsPIVOT else 0)
  | .zero n => if pivot then (.nan, vsPIVOT) else (.zero n, 0)
  | .inf false => (.inf false, 0)
  | .inf true => (.nan, if pivot then vsPIVOT else vsNV)
  | .fin m e =>
    if m < 0 then (.nan, if pivot then vsPIVOT else vsNV) else (sqrtNum m.natAbs e, 0)

def execVsqrt (p : BitVec 3) (e : Ext) (v a : BitVec 5) (t : LaneTy) (m : BitVec 3) (s : State) : Out :=
  s.elementwise p v [a] (laneW t) m 14 (fltOp t (extRm e) (f1 (sqrtNv false)))

def execVsqrtPv (p : BitVec 3) (e : Ext) (v a : BitVec 5) (t : LaneTy) (m : BitVec 3) (s : State) : Out :=
  s.elementwise p v [a] (laneW t) m 14 (fltOp t (extRm e) (f1 (sqrtNv true)))

/-- A special function (R226). -/
def State.special (s : State) (p : BitVec 3) (e : Ext) (v a : BitVec 5) (t : LaneTy) (m : BitVec 3)
    (f : Num → SfRes) : Out :=
  s.elementwise p v [a] (laneW t) m 8 (fltOp t (extRm e) (f1 fun x =>
    let r := f x
    (r.x, nvIf r.nv + (if r.dz then vsDZ else 0))))

def execVrcp (p : BitVec 3) (e : Ext) (v a : BitVec 5) (t : LaneTy) (m : BitVec 3) (s : State) : Out :=
  s.special p e v a t m sfRcp
def execVrsq (p : BitVec 3) (e : Ext) (v a : BitVec 5) (t : LaneTy) (m : BitVec 3) (s : State) : Out :=
  s.special p e v a t m sfRsq
def execVexp2 (p : BitVec 3) (e : Ext) (v a : BitVec 5) (t : LaneTy) (m : BitVec 3) (s : State) : Out :=
  s.special p e v a t m sfExp2
def execVlog2 (p : BitVec 3) (e : Ext) (v a : BitVec 5) (t : LaneTy) (m : BitVec 3) (s : State) : Out :=
  s.special p e v a t m sfLog2
def execVsinpi (p : BitVec 3) (e : Ext) (v a : BitVec 5) (t : LaneTy) (m : BitVec 3) (s : State) : Out :=
  s.special p e v a t m sfSinPi
def execVcospi (p : BitVec 3) (e : Ext) (v a : BitVec 5) (t : LaneTy) (m : BitVec 3) (s : State) : Out :=
  s.special p e v a t m sfCosPi

/-! ## Compare, select, logic (R227 to R230) -/

/-- A mask from a function of lane numbers. -/
def maskBits (f : Nat → Bool) : BitVec 16 :=
  BitVec.ofNat 16 ((List.range 16).foldl (fun n j => n + if f j then 2 ^ j else 0) 0)

/-- VCMP (R227): a masked lane's bit is written 0. -/
def execVcmp (p : BitVec 3) (e : Ext) (d : BitVec 3) (cc : VecCc) (a b : BitVec 5) (t : LaneTy) (m : BitVec 3)
    (s : State) : Out :=
  let _ := e
  s.vec p [] [a, b] fun c s =>
    let mask := s.rdM c m
    let x := s.rdV c a
    let y := s.rdV c b
    s.emit 2 (.wM c d (maskBits fun j => mask.getLsbD j &&
      (if t = .f32 then VecCc.holdsF cc (fp32.decode (elemAt 32 x j)) (fp32.decode (elemAt 32 y j))
       else VecCc.holdsI cc (intOf t (elemAt 32 x j)) (intOf t (elemAt 32 y j)))))

/-- VSEL (R228): every lane is written. -/
def execVsel (p : BitVec 3) (e : Ext) (v a b : BitVec 5) (ms : BitVec 3) (s : State) : Out :=
  let _ := e
  s.vec p [] [a, b] fun c s => s.emitV 2 c v allLanes (blend (s.rdM c ms) (s.rdV c a) (s.rdV c b))

/-- A bitwise word (R229). -/
def State.bitwise (s : State) (p : BitVec 3) (v a b : BitVec 5) (m : BitVec 3)
    (f : BitVec 512 → BitVec 512 → BitVec 512) : Out :=
  s.vec p [] [a, b] fun c s => s.emitV 2 c v (s.rdM c m) (f (s.rdV c a) (s.rdV c b))

def execVand (p : BitVec 3) (e : Ext) (v a b : BitVec 5) (m : BitVec 3) (s : State) : Out :=
  let _ := e
  s.bitwise p v a b m (· &&& ·)
def execVor (p : BitVec 3) (e : Ext) (v a b : BitVec 5) (m : BitVec 3) (s : State) : Out :=
  let _ := e
  s.bitwise p v a b m (· ||| ·)
def execVxor (p : BitVec 3) (e : Ext) (v a b : BitVec 5) (m : BitVec 3) (s : State) : Out :=
  let _ := e
  s.bitwise p v a b m (· ^^^ ·)

def execVnot (p : BitVec 3) (e : Ext) (v a : BitVec 5) (m : BitVec 3) (s : State) : Out :=
  let _ := e
  s.vec p [] [a] fun c s => s.emitV 2 c v (s.rdM c m) (~~~ s.rdV c a)

/-- A shift of one element by another, both as codes (R229). -/
def shiftOp (w : Nat) (f : Nat → Nat → Nat) : List Nat → Nat × Nat
  | [a, b] => (f a (min b w) % 2 ^ w, 0)
  | _ => (0, 0)

def execVshl (p : BitVec 3) (e : Ext) (v a b : BitVec 5) (t : LaneTy) (m : BitVec 3) (s : State) : Out :=
  let _ := e
  s.elementwise p v [a, b] (laneW t) m 2 (shiftOp (laneW t) fun x n => x * 2 ^ n)
def execVshr (p : BitVec 3) (e : Ext) (v a b : BitVec 5) (t : LaneTy) (m : BitVec 3) (s : State) : Out :=
  let _ := e
  s.elementwise p v [a, b] (laneW t) m 2 (shiftOp (laneW t) fun x n => x / 2 ^ n)
def execVsar (p : BitVec 3) (e : Ext) (v a b : BitVec 5) (t : LaneTy) (m : BitVec 3) (s : State) : Out :=
  let _ := e
  s.elementwise p v [a, b] (laneW t) m 2
    (shiftOp (laneW t) fun x n => wrapTo (laneW t) (sext (laneW t) x / 2 ^ n))

def execMand (p : BitVec 3) (e : Ext) (d a b : BitVec 3) (s : State) : Out :=
  let _ := e
  s.vec p [] [] fun c s => s.emit 1 (.wM c d (s.rdM c a &&& s.rdM c b))
def execMor (p : BitVec 3) (e : Ext) (d a b : BitVec 3) (s : State) : Out :=
  let _ := e
  s.vec p [] [] fun c s => s.emit 1 (.wM c d (s.rdM c a ||| s.rdM c b))
def execMnot (p : BitVec 3) (e : Ext) (d a : BitVec 3) (s : State) : Out :=
  let _ := e
  s.vec p [] [] fun c s => s.emit 1 (.wM c d (~~~ s.rdM c a))

/-- VPOPM (R230). -/
def execVpopm (p : BitVec 3) (e : Ext) (d : BitVec 5) (a : BitVec 3) (s : State) : Out :=
  let _ := e
  s.vec p [] [] fun c s =>
    s.emitS 2 d (BitVec.ofNat 64 ((List.range 16).filter fun j => (s.rdM c a).getLsbD j).length)

/-! ## Conversion and layout (R231 to R235) -/

/-- A conversion to an integer type, with NV and NX (Table 11.4). -/
def toIntElem (rm : Rm) (w : Nat) (lo hi : Int) (x : Num) : Nat × Nat :=
  let r := roundToInt rm lo hi x
  (wrapTo w r.1, if r.2.1 then vsNV else if r.2.2 then vsNX else 0)

/-- One element of VCVT (R231). -/
def cvtElem (rm : Rm) (st dt : LaneTy) (x : Nat) : Nat × Nat :=
  if st.isFloat then
    let n := (laneFmt st).decode x
    match dt with
    | .i32 => toIntElem rm 32 (-(2 ^ 31)) (2 ^ 31 - 1) n
    | .n32 => toIntElem rm 32 0 (2 ^ 32 - 1) n
    | .i16x2 => toIntElem rm 16 (-(2 ^ 15)) (2 ^ 15 - 1) n
    | _ => let r := roundTo (laneFmt dt) rm .sat n; (r.1, r.2.bits)
  else if dt.isFloat then
    let r := roundTo (laneFmt dt) rm .sat (Num.ofInt (intOf st x))
    (r.1, r.2.bits)
  else if dt = .n32 then (wrapTo 32 (clamp 0 (2 ^ 32 - 1) (intOf st x)), 0)
  else (wrapTo 32 (clamp (-(2 ^ 31)) (2 ^ 31 - 1) (intOf st x)), 0)

def execVcvt (p : BitVec 3) (e : Ext) (v a : BitVec 5) (st t : LaneTy) (m : BitVec 3) (s : State) : Out :=
  s.elementwise p v [a] (laneW t) m 4 fun l => match l with | [x] => cvtElem (extRm e) st t x | _ => (0, 0)

/-- The 32 elements of a block source or destination (R233). -/
def State.blockSrc (s : State) (c : Nat) (a : BitVec 5) (t : LaneTy) : List Num :=
  if t = .f32 then ((elems 32 (s.rdV c a)) ++ elems 32 (s.rdV c (a + 1))).map fp32.decode
  else (elems 16 (s.rdV c a)).map (laneFmt t).decode

/-- VQNT (R233). -/
def execVqnt (p : BitVec 3) (e : Ext) (v a : BitVec 5) (ec : ElemCode) (t : LaneTy) (s : State) : Out :=
  s.vec p [] (if t = .f32 then [a, a + 1] else [a]) fun c s =>
    let r := blockEncode ec (extRm e) (extOvf e) (s.blockSrc c a t)
    s.emitV 4 c v allLanes (BitVec.ofNat 512 (packBits ec.width r.2 + r.1 * 2 ^ 496))

/-- The elements of VDQNT (R234), rounded to a format, with flags. -/
def dqElems (f : Fmt) (rm : Rm) (w : Nat) (x : BitVec 512) : List Nat × Nat :=
  let d := x.toNat / 2 ^ 496
  if descInvalid w d || fld d 4 3 != 0 then (List.replicate 32 f.nanCode, vsDESCBAD)
  else
    let rs := (List.range 32).map fun i => roundTo f rm .sat (blockValue (elemAt w x i) d)
    (rs.map (·.1), rs.foldl (fun a r => a ||| r.2.bits) 0)

/-- VDQNT (R234). -/
def execVdqnt (p : BitVec 3) (e : Ext) (v a : BitVec 5) (ec : ElemCode) (t : LaneTy) (s : State) : Out :=
  s.vec p [] [a] fun c s =>
    let r := dqElems (laneFmt t) (extRm e) ec.width (s.rdV c a)
    let s1 :=
      if t = .f32 then
        (s.emitV 4 c v allLanes (ofElems 32 (r.1.take 16))).emitV 4 c (v + 1) allLanes (ofElems 32 (r.1.drop 16))
      else s.emitV 4 c v allLanes (ofElems 16 r.1)
    s1.flagV 4 r.2

/-- One lane of VPACK from the lanes of va and vb (Table 11.5), with flags. -/
def packLane (rm : Rm) (t : LaneTy) (x y : Nat) : Nat × Nat :=
  match t with
  | .i16x2 =>
    let f := fun z => wrapTo 16 (clamp (-(2 ^ 15)) (2 ^ 15 - 1) (sext 32 z))
    (packBits 16 [f x, f y], 0)
  | .i8x4 =>
    let f := fun z => wrapTo 8 (clamp (-128) 127 (sext 16 z))
    (packBits 8 [f (x % 2 ^ 16), f (x / 2 ^ 16), f (y % 2 ^ 16), f (y / 2 ^ 16)], 0)
  | t =>
    let f := fun z => roundTo (laneFmt t) rm .sat (fp32.decode z)
    (packBits 16 [(f x).1, (f y).1], (f x).2.bits ||| (f y).2.bits)

def execVpack (p : BitVec 3) (e : Ext) (v a b : BitVec 5) (t : LaneTy) (m : BitVec 3) (s : State) : Out :=
  s.elementwise p v [a, b] 32 m 4 fun l => match l with | [x, y] => packLane (extRm e) t x y | _ => (0, 0)

/-- One lane of VUNPK (Table 11.5). -/
def unpackLane (t : LaneTy) (hi : Bool) (x : Nat) : Nat :=
  match t with
  | .i16x2 => wrapTo 32 (sext 16 (fld x (16 * hi.toNat) 16))
  | .i8x4 =>
    packBits 16 [wrapTo 16 (sext 8 (fld x (16 * hi.toNat) 8)), wrapTo 16 (sext 8 (fld x (16 * hi.toNat + 8) 8))]
  | t => roundToFormat fp32 .rne .sat ((laneFmt t).decode (fld x (16 * hi.toNat) 16))

def execVunpk (p : BitVec 3) (e : Ext) (v a : BitVec 5) (hi : Bool) (t : LaneTy) (m : BitVec 3) (s : State) : Out :=
  let _ := e
  s.elementwise p v [a] 32 m 4 fun l => match l with | [x] => (unpackLane t hi x, 0) | _ => (0, 0)

/-- VPERM (R235). -/
def execVperm (p : BitVec 3) (e : Ext) (v a b : BitVec 5) (m : BitVec 3) (s : State) : Out :=
  let _ := e
  s.vec p [] [a, b] fun c s =>
    let x := s.rdV c a
    s.emitV 3 c v (s.rdM c m) (ofLanes ((lanes (s.rdV c b)).map fun i => (lane x (i % 16)).toNat))

/-- VBCAST (R235). -/
def execVbcast (p : BitVec 3) (e : Ext) (v a : BitVec 5) (m : BitVec 3) (s : State) : Out :=
  let _ := e
  s.vec p [a] [] fun c s => s.emitV 3 c v (s.rdM c m) (ofLanes (List.replicate 16 ((s.rdS a).toNat % 2 ^ 32)))

/-- VEXT (R235). -/
def execVext (p : BitVec 3) (e : Ext) (d a : BitVec 5) (n : BitVec 4) (s : State) : Out :=
  let _ := e
  s.vec p [] [a] fun c s => s.emitS 3 d ((lane (s.rdV c a) n.toNat).zeroExtend 64)

/-- VINS (R235). -/
def execVins (p : BitVec 3) (e : Ext) (v a : BitVec 5) (n : BitVec 4) (s : State) : Out :=
  let _ := e
  s.vec p [a] [] fun c s =>
    s.emitV 3 c v (BitVec.ofNat 16 (2 ^ n.toNat)) (ofLanes (List.replicate 16 ((s.rdS a).toNat % 2 ^ 32)))

/-! ## Reductions (R236 to R238) -/

/-- A reduction's result in lane 0, 0 elsewhere. -/
def State.emitLane0 (s : State) (c : Nat) (v : BitVec 5) (x : Nat) : State :=
  s.emitV 8 c v allLanes (BitVec.ofNat 512 (x % 2 ^ 32))

/-- A +Inf and a -Inf term meet (R236). -/
def infsMeet (l : List Num) : Bool := l.any (fun x => x == .inf false) && l.any (fun x => x == .inf true)

/-- The OF and NX flags of a sum. -/
def sumFlags (f : RFlags) : Nat := f.bits - f.bits % 16 / 8 * 8

/-- A floating sum of terms (R236). -/
def State.fltSum (s : State) (c : Nat) (v : BitVec 5) (rm : Rm) (terms : List Num) (nv : Bool) : State :=
  let r := vecSum terms rm
  (s.emitLane0 c v r.1).flagV 8 (sumFlags r.2 ||| nvIf (nv || infsMeet terms))

/-- An integer sum, as lane 0 gets it (R236). -/
def intSum (t : LaneTy) (terms : List Int) : Nat :=
  let x := terms.foldl (· + ·) 0
  if t = .n32 then wrapTo 32 (clamp 0 (2 ^ 32 - 1) x) else wrapTo 32 (clamp (-(2 ^ 31)) (2 ^ 31 - 1) x)

/-- VRSUM (R236). -/
def execVrsum (p : BitVec 3) (e : Ext) (v a : BitVec 5) (t : LaneTy) (m : BitVec 3) (s : State) : Out :=
  s.vec p [] [a] fun c s =>
    let xs := selElems (laneW t) (s.rdM c m) (s.rdV c a)
    if t.isFloat then s.fltSum c v (extRm e) (xs.map (laneFmt t).decode) false
    else s.emitLane0 c v (intSum t (xs.map (intOf t)))

/-- VDOT (R236). -/
def execVdot (p : BitVec 3) (e : Ext) (v a b : BitVec 5) (t : LaneTy) (m : BitVec 3) (s : State) : Out :=
  s.vec p [] [a, b] fun c s =>
    let mask := s.rdM c m
    let ps := (selElems (laneW t) mask (s.rdV c a)).zip (selElems (laneW t) mask (s.rdV c b))
    if t.isFloat then
      let f := laneFmt t
      let qs := ps.map fun x => mulNv (f.decode x.1) (f.decode x.2)
      s.fltSum c v (extRm e) (qs.map (·.1)) (qs.any fun q => q.2 != 0)
    else s.emitLane0 c v (intSum t (ps.map fun x => intOf t x.1 * intOf t x.2))

/-- The largest or smallest of the selected elements (R237). -/
def extreme (t : LaneTy) (isMax : Bool) (xs : List Nat) : Nat :=
  if t.isFloat then
    let l := xs.map (laneFmt t).decode
    let pick := fun (a b : Num) => if a.isNan || b.isNan then Num.nan else if (if isMax then a.lt0 b else b.lt0 a) then b else a
    roundToFormat fp32 .rne .sat (l.foldl pick (.inf isMax))
  else
    let w := laneW t
    let lo : Int := if t = .n32 then 0 else -(2 ^ (w - 1))
    let hi : Int := if t = .n32 then 2 ^ 32 - 1 else 2 ^ (w - 1) - 1
    wrapTo 32 ((xs.map (intOf t)).foldl (fun a b => if (if isMax then decide (a < b) else decide (b < a)) then b else a)
      (if isMax then lo else hi))

def execVrmax (p : BitVec 3) (e : Ext) (v a : BitVec 5) (t : LaneTy) (m : BitVec 3) (s : State) : Out :=
  let _ := e
  s.vec p [] [a] fun c s => s.emitLane0 c v (extreme t true (selElems (laneW t) (s.rdM c m) (s.rdV c a)))
def execVrmin (p : BitVec 3) (e : Ext) (v a : BitVec 5) (t : LaneTy) (m : BitVec 3) (s : State) : Out :=
  let _ := e
  s.vec p [] [a] fun c s => s.emitLane0 c v (extreme t false (selElems (laneW t) (s.rdM c m) (s.rdV c a)))

/-- vdelta (R238) on pairs of codes, before rounding. -/
def vdelta (f : Fmt) (ps : List (Nat × Nat)) : Num :=
  ps.foldl (fun d q =>
    let x := f.decode q.1
    let y := f.decode q.2
    let t : Num :=
      if x.isNan || y.isNan then .nan
      else if q.1 = q.2 ∨ (x.isZero && y.isZero) then .zero false
      else if x.isInf || y.isInf then .inf false
      else (Num.add false x y.negate).abs
    if d.isNan || t.isNan then .nan else if d.lt t then t else d) (.zero false)

def execVdelta (p : BitVec 3) (e : Ext) (v a b : BitVec 5) (t : LaneTy) (m : BitVec 3) (s : State) : Out :=
  s.vec p [] [a, b] fun c s =>
    let mask := s.rdM c m
    let ps := (selElems (laneW t) mask (s.rdV c a)).zip (selElems (laneW t) mask (s.rdV c b))
    s.emitLane0 c v (roundToFormat fp32 (extRm e) .sat (vdelta (laneFmt t) ps))

/-! ## Random numbers and other clusters (R239 to R241) -/

/-- The vector that cluster c pops (R111): TIMING when the queue holds too few. -/
def State.popV (s : State) (c : Nat) (ok : BitVec 512 → State → State) : State :=
  let k := s.cur.pops.idxOf c
  if s.cur.pops.length > s.me.rq.held then s.trap (.timing 5 0) else ok (s.me.rq.peek k) s

/-- VRND (R239). -/
def execVrnd (p : BitVec 3) (e : Ext) (v : BitVec 5) (m : BitVec 3) (s : State) : Out :=
  let _ := e
  s.vec p [] [] fun c s => s.popV c fun x s => s.emitV 2 c v (s.rdM c m) x

/-- vgauss (R240). -/
def gaussVec (rm : Rm) (x : BitVec 512) : BitVec 512 :=
  ofLanes ((List.range 8).flatMap fun i =>
    let r := gaussPair (lane x (2 * i)).toNat (lane x (2 * i + 1)).toNat rm
    [r.1, r.2])

/-- VGAUSS (R240). -/
def execVgauss (p : BitVec 3) (e : Ext) (v : BitVec 5) (m : BitVec 3) (s : State) : Out :=
  s.vec p [] [] fun c s => s.popV c fun x s => s.emitV 8 c v (s.rdM c m) (gaussVec (extRm e) x)

/-- XCP (R241). -/
def execXcp (p : BitVec 3) (e : Ext) (v a : BitVec 5) (n m : BitVec 3) (s : State) : Out :=
  let _ := e
  s.vec p [] [] fun c s =>
    let s := s.useV n.toNat a
    s.emitV 4 c v (s.rdM c m) (s.rdV n.toNat a)

/-- XBC (R241). -/
def execXbc (p : BitVec 3) (e : Ext) (v a : BitVec 5) (n m : BitVec 3) (s : State) : Out :=
  let _ := e
  s.vec p [] [] fun c s =>
    let s := s.useV n.toNat a
    s.emitV 4 c v (s.rdM c m) (ofLanes (List.replicate 16 (lane (s.rdV n.toNat a) c).toNat))

end Sys2Proof.Machine
end

