-- ==== Sys2Proof/Machine/Actions.lean ====
section
/-!
DEFINITION. What falls due in a cycle (07 R108, R109, R118; 13 R269, R270): register writes at its start, scratchpad and tile reads with the
bank conflicts among them, memory writes and late register writes at its end.
-/
namespace Sys2Proof.Machine

/-- When an action takes place in its cycle. -/
inductive Phase where
  | regs | reads | writes | last
  deriving DecidableEq, Repr

/-- The phase of an action. -/
def Act.phase : Act → Phase
  | .wS _ _ _ _ | .wQ _ _ _ | .wH _ _ _ | .wB _ _ | .wV _ _ _ _ _ | .wM _ _ _ | .wFlag _ _ | .wClear _ _ | .wSr _ _ _
  | .wLp _ _ _ | .wSpill _ _ _ _ | .wRow _ _ _ _ | .wHalf _ _ _ _ _ _ | .wTile _ _ | .wLatch _ _ | .wAcc _ _ | .wMma _
  | .wNred _ _ _ _ _ | .wAccTile _ _ _ _ | .rqSet _ _ | .stage | .fenceSt _ _ _ | .arm _ _ | .drift _ | .spanUse _ _ _
  | .fwShoot _ _ | .trapAt _ | .portPass _ | .pgAsk _ _ _ | .qAsk _ _ _ | .nredLink _ | .sqPop _ | .pendSet _ _ _ _ _ | .tldl _ _ _ _ _ | .tstl _ _ _ _ => .regs
  | .spLoad _ _ _ | .vLoad _ _ _ _ | .vGather _ _ _ _ _ _ _ | .vIdxLoad _ _ _ _ _ _ _ | .tld _ _ _ _ | .tst _ _ _ _ _ _
  | .latchRd _ _ _ _ | .mmaRd _ _ | .tileRd _ _ _ _ _ | .acsave _ _ _ | .acrest _ _ _ _ | .sqldRd _ | .cpyImage _ _
  | .cpyLine _ _ _ | .portOut _ _ _ _ _ | .rldReq _ _ _ _ _ | .sendRd _ _ _ _ _ _ _ | .nbcRd _ _ _ _ _ _ | .nredRd _ _ _ _ _ _ _ | .nbcExpect _ _ _ _
  | .collCheck _ _ _ => .reads
  | .spStore _ _ | .vStore _ _ _ _ | .vIdxStore _ _ _ _ _ | .rstReq _ _ _ | .land _ _ _ _ _ | .lsStore _ _ _ | .lsLand _ _ _ _
  | .lsAtomic _ _ _ _ _ _ => .writes
  | .sqClear | .sqPush _ | .discard _ _ _ | .qArrive _ _ _ => .last

/-- The phase of a pending action: a late register write comes last. -/
def Pend.phase (p : Pend) : Phase := if p.late then .last else p.act.phase

/-- The pending action takes place now: it is due, its panel does not stand still, and its bundle does not wait for a queue engine. -/
def State.isDue (s : State) (p : Pend) : Bool := decide (p.due ≤ s.now p.clk) && !s.clkFrozen p.clk && !s.queueHeld p.own

/-- The actions of a phase that are due, and the state without them. -/
def State.takeDue (s : State) (ph : Phase) : List Pend × State :=
  let f := fun (p : Pend) => p.phase == ph && s.isDue p
  (s.pend.filter f, { s with pend := s.pend.filter fun p => !f p })

/-- An action that another one brings, `off` cycles later, for the same instruction. -/
def State.then_ (s : State) (p : Pend) (off : Nat) (late : Bool) (a : Act) : State :=
  { s with pend := s.pend ++ [⟨p.clk, p.due + off, late, p.own, a⟩] }

def State.ownCore (s : State) (p : Pend) (f : CoreSt → CoreSt) : State := s.updCore p.own.core f

/-! ## Register writes -/

/-- SETSR's write of register n (Table 7.6). -/
def State.setSr (s : State) (c k n : Nat) (v : Word) : State :=
  if n = 7 then s.updCtx c k fun x => { x with stride := v &&& 0xFFFFFFFF#64 }
  else if n = 8 then
    s.updCtx c k fun x => { x with
      count := v.setWidth 32
      nrot := v.extractLsb' 32 4
      ctxb := if s.holds c k then v.extractLsb' 36 3 else x.ctxb }
  else if n = 9 then s.updCore c fun x => { x with mctl := v &&& 7#64 }
  else if n = 13 then s.updCore c fun x => { x with spcfg := v }
  else if 0x50 ≤ n ∧ n < 0x60 then s.updCore c fun x => { x with tc := spPut 0 x.tc (n - 0x50) v }
  else if n = 0xA0 then s.updCtx c k fun x => { x with ctlAddr := v &&& 0x3FFFFF8#64 }
  else s.ctlWrite false (s.ctx c k).ctlAddr.toNat v

/-- Sticky flags of MSTAT, VSTAT and CPSTAT set or cleared. -/
def CoreSt.flags (c : CoreSt) (n : Nat) (f : Word → Word) : CoreSt :=
  if n = 10 then { c with mstat := f c.mstat } else if n = 11 then { c with vstat := f c.vstat } else { c with cpstat := f c.cpstat }

/-- A half of a tile row (R246, R244). -/
def Tile.setHalf (t : Tile) (r h : Nat) (v : BitVec 512) (mark first : Bool) : Tile :=
  let old := t.row r
  let row := if h = 0 then (old.extractLsb' 512 512) ++ v else v ++ (old.extractLsb' 0 512)
  t.setRow r row (if h = 0 then t.marked r || mark else mark || first)

/-- A collective's sum written at the root (R204); a member away whose rows are missing gives NaN tags (R331). -/
def State.nredWrite (s : State) (p : Pend) (n : Nat) (anchor : Int) (x : Sparse Xa) (away : List Nat) : State :=
  let el := if away.isEmpty then x else spOf Xa.zero ((spDense Xa.zero x 0 4096).map fun v => { v with tag := .nan })
  s.ownCore p fun c => c.setAcc n ⟨el, anchor⟩

/-- At p + NL the root of an NRED traps LINK for the first member whose rows have not come (R331). -/
def State.nredLinkAt (s : State) (p : Pend) : State :=
  let missing := s.pend.findSome? fun q => match q.act with | .wNred _ _ _ _ (r :: _) => if q.own = p.own then some r else none | _ => none
  match missing with
  | none => s
  | some r =>
    let peer := match (s.panelOn p.own.core).bind fun q => q.rank? r with | some k => k.pkg | none => 0
    s.foundBy p.own (.link (s.collPort peer) 2)

/-! ## FENCE (R180, R181) -/

/-- The target of a SEND lies on another package. -/
def State.sendsAway (s : State) (core target : Nat) : Bool :=
  match s.panelOn core with
  | some q => (match q.rank? target with | some r => r.pkg != q.here | none => false)
  | none => false

/-- The reporting scope of a pending write for a context of a core (Table 9.6), when it is such a write; a page request and the writes of a
CPY whose image is still to be read are among them (R278, R181). -/
def State.scopeOf (s : State) (a : Act) (core : Nat) : Option Nat :=
  let ls := fun (p : LsAddr) => if p.die = dieOf core then 3 else 4
  match a with
  | .spStore _ _ | .vStore _ _ _ _ | .vIdxStore _ _ _ _ _ | .wRow _ _ _ _ | .wHalf _ _ _ _ _ _ | .wTile _ _ | .wAcc _ _
  | .wMma _ | .wAccTile _ _ _ _ | .wNred _ _ _ _ _ | .tld _ _ _ _ | .tst _ _ _ _ _ _ | .tldl _ _ _ _ _ | .tileRd _ _ _ _ _
  | .mmaRd _ _ | .acsave _ _ _ | .acrest _ _ _ _ => some 1
  | .lsStore p _ _ | .lsAtomic p _ _ _ _ _ => some (ls p)
  | .tstl _ x o i => some (ls (handlePlace x (o + 64 * i)))
  | .portOut _ _ _ _ _ | .portPass _ => some 5
  | .rstReq c _ _ => some (if c = core then 1 else 2)
  | .cpyImage _ _ => some 2
  | .sendRd _ target _ _ _ _ _ => if s.sendsAway core target then some 5 else none
  | .pgAsk _ _ _ => some 7
  | _ => none

/-- A write of the context, issued before `at_`, that a fence of a scope covers has not performed. -/
def State.writesDue (s : State) (core ctx : Nat) (at_ : Int) (scope : Nat) : Bool :=
  s.pend.any fun p => p.own.core == core && p.own.ctx == ctx && p.own.slot != 13 && decide (p.own.issue < at_) &&
    (match s.scopeOf p.act core with | some k => decide (k ≤ scope) | none => false)

/-- A copy that a fence of a context covers (R180): the copies of its panel released before, or its own CPYs issued before. -/
def State.copyCovered (s : State) (r : CopyRun) (core ctx : Nat) (at_ : Int) (scope : Nat) : Bool :=
  decide (r.scope core ≤ scope) &&
    (if r.cpy then r.own.core == core && r.own.ctx == ctx && decide (r.own.issue < at_)
     else ctx == 0 && r.pid == (s.core core).panel && (match r.rel with | some t => decide (t ≤ at_) | none => false))

/-- The lines of a copy have all performed before cycle t of its panel, its bitmap's among them. -/
def CopyRun.landedBy (r : CopyRun) (t : Nat) : Bool :=
  r.done || (r.timed && r.start.isSome && decide (t > r.lastAt + r.mapLines) && (r.e.dstk != 2 || decide (r.written + r.failed ≥ r.e.lines)))

/-- The lines of a copy have all performed. -/
def State.copyLanded (s : State) (r : CopyRun) : Bool := r.landedBy (s.copyNow r)

/-- The second tier's traffic that a fence of SYSTEM scope covers (Table 9.6, R278): the context's page requests, and for the firmware context
the eviction. -/
def State.tierDue (s : State) (core ctx : Nat) (at_ : Int) (scope : Nat) : Bool :=
  decide (scope ≥ 7) && ((s.pages.any fun g => g.core == core && g.ctx == ctx && decide (g.own.issue < at_))
    || (isFwCtx core ctx && s.evict.isSome))

/-- Something that a fence covers has not performed. -/
def State.coveredDue (s : State) (core ctx : Nat) (at_ : Int) (scope : Nat) : Bool :=
  s.writesDue core ctx at_ scope || s.tierDue core ctx at_ scope
    || s.copies.any fun r => s.copyCovered r core ctx at_ scope && !s.copyLanded r

/-- A failure that a fence issued at `at_` reports: of a write issued before it, and of a reporting scope that it covers. -/
def FailedWrite.reported (f : FailedWrite) (at_ : Int) (scope : Nat) : Bool := decide (f.at_ < at_) && decide (f.scope ≤ scope)

/-- The status word of a fence (Table 9.7) for a context's failures. -/
def Ctx.fenceWord (x : Ctx) (at_ : Int) (scope : Nat) (late : Bool) : Word :=
  let l := x.failed.filter fun f => f.reported at_ scope
  let lost := l.foldl (fun n f => n + f.lost) 0
  let link := l.any (·.link)
  let refused := l.any (·.refused)
  let poison := l.any (·.poison)
  let clean := !late && lost == 0 && !link && !refused
  BitVec.ofNat 64 (clean.toNat + 2 * late.toNat + 4 * link.toNat + 8 * refused.toNat + 16 * poison.toNat + 256 * min lost 255)

/-- The failures that a fence reports leave the record. -/
def Ctx.clearFailed (x : Ctx) (at_ : Int) (scope : Nat) : Ctx := { x with failed := x.failed.filter fun f => !f.reported at_ scope }

/-- The SCYC in which a context of a core issued at `at_` of its clock, or an earlier one. -/
def State.issueScyc (s : State) (core ctx : Nat) (at_ : Int) : Nat := s.scyc - (s.now (s.clkOf core ctx) - at_).toNat

/-- A fence's status written, and the failures it reports cleared (R180). At HOST scope and above, the host writes that were accepted before
it issued have performed (R182, log 124). -/
def State.fenceStatus (s0 : State) (core ctx : Nat) (at_ : Int) (scope : Nat) (rd : BitVec 5) : State :=
  let s := if scope < 6 then s0 else s0.hostSettle (s0.issueScyc core ctx at_)
  let late := s.holds core ctx && s.coveredDue core ctx at_ scope
  s.updCtx core ctx fun x => (x.clearFailed at_ scope).wrS rd (x.fenceWord at_ scope late) false

/-! ## Queues -/

/-- A queue operation of a holder at its arrival (R194, R193): the result 8 cycles later. -/
def State.holderQueue (s : State) (p : Pend) (op : QOp) (q : Nat) (rd : BitVec 5) : State :=
  let c := p.own.core
  match queueTrap s op q (s.ctx c p.own.ctx).tenant false with
  | some why =>
    let s1 := s.then_ p 8 false (.trapAt (.queue q why))
    (match op with
     | .deq => s1.updCtx c p.own.ctx fun x => { x with wait := .none, next := p.due + 8 }
     | _ => s1)
  | none =>
    let r := s.queueOp op q c p.own.ctx
    match op, r.2 with
    | .deq, .block => r.1.block c p.own.ctx (.qdeq q rd)
    | _, res =>
      let s1 := (queueWrites op res p.own.ctx rd).foldl (fun s a => s.then_ p 8 false a) r.1
      match op with
      | .deq => s1.updCtx c p.own.ctx fun x => { x with wait := .none, next := p.due + 8 }
      | _ => s1

/-- The stage counter raised (R70), saturating at 255, and the entries of the stage released. -/
def State.nextStage (s : State) (pid : Nat) : State :=
  match s.panel? pid with
  | none => s
  | some p =>
    if p.stage ≥ 255 then s
    else (s.updPanel pid fun q => { q with stage := q.stage + 1, stageAt := q.stageAt ++ [(q.stage + 1, q.pcyc)] }).releaseStage pid
      (p.stage + 1) p.pcyc

/-- TRIM of DRIFT1 moved by a DRIFT issued at `at_` (R183, R320); TDRIFT follows when TRIM has changed. -/
def State.trim (s : State) (adj at_ : Int) : State :=
  let d1 := (spGet 0 s.drift 1).toNat
  let d3 := spGet 0 s.drift 3
  let new := clamp (-(2 ^ 20)) (2 ^ 20) (sext 32 (fld d1 0 32) + adj)
  let m := spPut 0 s.drift 1 (BitVec.ofNat 64 (wrapTo 32 new))
  { s with drift := if new = sext 32 (fld d1 0 32) then m else spPut 0 m 3 (setFld d3 0 32 (wrapTo 32 at_)) }

/-! ## Streams of the latent store (R246, R73) -/

/-- A line of a TLDL. -/
def State.tldlLine (s : State) (p : Pend) (t : Nat) (x : Handle) (o i : Nat) (bad : Bool) : State :=
  let c := p.own.core
  let pl := handlePlace x (o + 64 * i)
  let tag := s.lsTag pl
  let off := if pl.die = dieOf c then 24 else 40
  let s1 := if s.bundleLent c false then s.foundBy p.own (.timing 6 0) else s
  let s2 := s1.then_ p off true (.wHalf t (i / 2) (i % 2) (lineOf (s.lsBytes pl 64)) tag (if i % 2 = 1 then bad else tag))
  if i = 127 then s2 else s2.then_ p 1 false (.tldl t x o (i + 1) tag)

/-- A line of a TSTL. -/
def State.tstlLine (s : State) (p : Pend) (t : Nat) (x : Handle) (o i : Nat) : State :=
  let c := p.own.core
  let tile := (s.core c).tile t
  let s1 := if s.bundleLent c true then s.foundBy p.own (.timing 6 0) else s
  if tile.marked (i / 2) then s1.foundBy p.own (.poison 2 0 t (i / 2))
  else
    let pl := handlePlace x (o + 64 * i)
    let off := if pl.die = dieOf c then 20 else 36
    let s2 := s1.then_ p off false (.lsStore pl (List.replicate 64 true) (natLe 64 (halfRow (tile.row (i / 2)) (i % 2)).toNat))
    if i = 127 then s2 else s2.then_ p 1 false (.tstl t x o (i + 1))

/-! ## The start of a cycle -/

/-- A register write, or another action of the start of a cycle. -/
def State.regAct (s : State) (p : Pend) : State :=
  let c := p.own.core
  match p.act with
  | .wS k r v m => s.updCtx c k fun x => x.wrS r v m
  | .wQ k q v => s.updCtx c k fun x => x.wrQ q v
  | .wH k h v => s.updCtx c k fun x => x.wrH h v
  | .wB r v => s.ownCore p fun x => x.wrB r v
  | .wV cl r mask v m => s.ownCore p fun x => x.wrV cl r mask v m
  | .wM cl r v => s.ownCore p fun x => x.wrM cl r v
  | .wFlag n b => s.ownCore p fun x => x.flags n (· ||| b)
  | .wClear n b => s.ownCore p fun x => x.flags n (· &&& ~~~b)
  | .wSr k n v => s.setSr c k n v
  | .wLp k n r => s.updCtx c k fun x => { x with count := n, nrot := r }
  | .wSpill k i cell v => s.ownCore p fun x =>
    (x.updCtx k fun y => if y.st = .ended ∨ y.st = .idle then y else { y with spill := spPut 0xFFFF y.spill i cell }).cellSet cell v
  | .wRow t r v m => s.ownCore p fun x => x.setTile t ((x.tile t).setRow r v m)
  | .wHalf t r h v m f => s.ownCore p fun x => x.setTile t ((x.tile t).setHalf r h v m f)
  | .wTile t v => s.ownCore p fun x => x.setTile t v
  | .wLatch n l => s.ownCore p fun x => { x with latch := spPut Latch.empty x.latch n l }
  | .wAcc n a => s.ownCore p fun x => x.setAcc n a
  | .wMma r => s.ownCore p fun x => x.setAcc r.n (r.apply (x.accum r.n))
  | .wNred n _ anchor x away => s.nredWrite p n anchor x away
  | .wAccTile n f codes _ => s.ownCore p fun x => x.setAcc n (accFromCodes f codes (x.accum n).anchor)
  | .rqSet seed pos => s.ownCore p fun x => { x with rq := { x.rq with held := 0, pos := pos, seed := seed.getD x.rq.seed } }
  | .stage => match (s.core c).panel with | some pid => s.nextStage pid | none => s
  | .fenceSt k rd sc => s.fenceStatus c k p.own.issue sc rd
  | .arm f r =>
    if (spGet none (s.core c).recv f).isSome then s.foundBy p.own (.timing 4 (BitVec.ofNat 64 (f + 2 ^ 16 * r.sender)))
    else s.ownCore p fun x => { x with recv := spPut none x.recv f (some r) }
  | .drift adj => s.trim adj p.own.issue
  | .spanUse d sp g => s.spanUse d sp g
  | .fwShoot a b => s.firmwareShoot a b
  | .trapAt k => s.foundBy p.own k
  | .nredLink _ => s.nredLinkAt p
  | .portPass _ => s
  | .pgAsk h page rd => s.pageAsk p.own h page rd
  | .qAsk op q rd =>
    { s with queueReqs := s.queueReqs ++ [⟨s.nextId, q, op, rd, c, p.own.ctx, p.own⟩], nextId := s.nextId + 1 }
  | .qArrive op q rd => s.holderQueue p op q rd
  | .sqPop k => s.ownCore p fun x => { x with sq := x.sq.drop k }
  | .pendSet line n kind idx ap => s.ownCore p fun x =>
    match x.panel.bind s.panel? with
    | some q => if q.erchk then
        { x with spPend := (List.range n).foldl (fun m i => spPut none m (line + i) (some (kind, idx, ap))) x.spPend } else x
    | none => x
  | .tldl t x o i bad => s.tldlLine p t x o i bad
  | .tstl t x o i => s.tstlLine p t x o i
  | _ => s

/-- Writes that meet in one cycle take place in the order of their issue (R142). -/
def byIssue (l : List Pend) : List Pend := sortBy (fun a b => decide (a.own.issue < b.own.issue)) l

/-- The order of the actions of the start of a cycle: clears of sticky flags first, the writes in issue order (R142), then the tile rows that
TSTL reads (R244). -/
def regOrder (l : List Pend) : List Pend :=
  let isClear := fun (p : Pend) => match p.act with | .wClear _ _ => true | _ => false
  let reads := fun (p : Pend) => match p.act with | .tstl _ _ _ _ => true | _ => false
  l.filter isClear ++ byIssue (l.filter fun p => !isClear p && !reads p) ++ l.filter reads

/-- The tile register or accumulator that an action writes. -/
def Act.target : Act → Option (Bool × Nat)
  | .wTile t _ | .wRow t _ _ _ | .wHalf t _ _ _ _ _ => some (false, t)
  | .wAcc n _ | .wAccTile n _ _ _ | .wNred n _ _ _ _ => some (true, n)
  | .wMma r => some (true, r.n)
  | _ => none

/-- A write at the start of a cycle replaces one of an earlier instruction that would be made late in it (R142, R244). -/
def Pend.replaces (p q : Pend) : Bool :=
  !p.late && q.late && p.own.core == q.own.core && decide (q.own.issue < p.own.issue) && p.act.target.isSome && p.act.target == q.act.target

/-- The register writes due. -/
def State.regPhase (s : State) : State :=
  let d := s.takeDue .regs
  (regOrder d.1).foldl State.regAct { d.2 with pend := d.2.pend.filter fun q => !(s.isDue q && d.1.any fun p => p.replaces q) }

/-! ## Banks (R108, R109) -/

/-- A use of a bank cycle: the core, the line, the requester (Table 7.3), whether it reads, and its owner. -/
structure BankUse where
  core : Nat
  line : Nat
  code : Nat
  rd : Bool
  own : Own
  deriving DecidableEq, Repr

/-- The lines of a row pair of TLD and TST. -/
def pairLines (a st j : Nat) : List Nat :=
  let r0 := (a + st * (2 * j)) / 64
  let r1 := (a + st * (2 * j + 1)) / 64
  [r0, r0 + 1, r1, r1 + 1]

/-- The lines of a row pair, by position, that one before them keeps from their bank (R245, R109, log 126). -/
def pairLost (a st j : Nat) : List Nat :=
  let l := pairLines a st j
  (List.range 4).filter fun i => (l.take i).any fun x => x % 20 == nth 0 l i % 20

/-- Where a landing goes: its address, through the armed slot for a received line. -/
def State.landAddr (s : State) (core a : Nat) (kind : LandKind) : Option Nat :=
  match kind with
  | .recv slot sender port lost =>
    match spGet none (s.core core).recv slot with
    | some r => if r.sender = sender ∧ r.port = port ∧ !lost then some (r.addr + 64 * r.nxt) else none
    | none => none
  | _ => some a

/-- The bank uses of an action in its cycle. -/
def State.usesOf (s : State) (p : Pend) : List BankUse :=
  let c := p.own.core
  let code := fun (n : Nat) => if p.own.ctx = 0 then n else 14
  let one := fun (core line n : Nat) (rd : Bool) => [⟨core, line, code n, rd, p.own⟩]
  match p.act with
  | .spLoad a _ _ => one c (a / 64) 8 true
  | .spStore a _ => if p.own.slot = 3 then [] else one c (a / 64) 8 false
  | .vLoad cl _ _ l => one c l cl true
  | .vStore cl l _ _ => one c l cl false
  | .vGather cl _ _ _ todo _ _ => match todo with | [] => [] | l :: _ => one c l cl true
  | .vIdxLoad cl _ mask ad j _ _ => if mask.getLsbD j then one c (nth 0 ad j / 64) cl true else []
  | .vIdxStore cl mask ad j _ => if mask.getLsbD j then one c (nth 0 ad j / 64) cl false else []
  | .tld _ a st j => (pairLines a st j).flatMap fun l => one c l 9 true
  | .tst a st j _ _ _ => (pairLines a st j).flatMap fun l => one c l 9 false
  | .acsave a j _ => (List.range 4).map fun i => ⟨c, a / 64 + 4 * j + i, 9, false, p.own⟩
  | .acrest _ a j _ => (List.range 4).map fun i => ⟨c, a / 64 + 4 * j + i, 9, true, p.own⟩
  | .sqldRd l => one c l 13 true
  | .cpyImage a _ => one c (a / 64) 13 true
  | .cpyLine _ _ a => [⟨c, a / 64, 14, true, p.own⟩]
  | .sendRd a _ _ _ i _ _ => one c (a / 64 + i) 13 true
  | .nbcRd a _ _ _ i _ => one c (a / 64 + i) 13 true
  | .rldReq tg a _ _ _ => one tg (a / 64) 12 true
  | .rstReq tg a _ => one tg (a / 64) 12 false
  | .land core a _ _ kind =>
    match s.landAddr core a kind with
    | none => []
    | some a => [⟨core, a / 64, (match kind with | .ap | .map => 10 | .free _ => 14 | .bc => 12 | .recv _ _ _ _ => 12), false, p.own⟩]
  | _ => []

/-- The bank of a line. -/
def bankOf (line : Nat) : Nat := line % 20

/-- The uses of one bank in one cycle that perform (R109): `l` are the timed uses of the bank with their numbers. -/
def bankWinner (l : List (BankUse × Nat)) : Option Nat :=
  match l with
  | [x] => some x.2
  | _ =>
    let eng := l.filter fun x => x.1.code ≥ 9
    let low := eng.foldl (fun m x => min m x.1.code) 14
    (eng.find? fun x => x.1.code == low).map (·.2)

/-- The record of a bank conflict: the bank, the line of the lowest requester, the two lowest requesters; the bundle requesters own it. -/
def conflictCand (s : State) (core bank : Nat) (l : List BankUse) : TrapCand :=
  let codes := ((List.range 14).flatMap fun c => l.filter fun u => u.code == c)
  let c1 := codes.headD ⟨core, 0, 0, false, Own.none core⟩
  let c2 := (codes.drop 1).headD c1
  let bundle := codes.filter fun u => u.code ≤ 8 && u.own.core == core
  let kind := TrapKind.bankconf bank c1.line c1.code c2.code
  let mask := bundle.foldl (fun m u => m ||| BitVec.ofNat 13 (2 ^ u.own.slot)) 0
  match bundle.find? fun u => u.own.slot == firstSlot mask with
  | some u => ⟨kind, 7, mask, u.own.word, u.own.baddr⟩
  | none => { s.noOwner core 0 kind with step := 7 }

/-- The timed uses, numbered, of one core and bank. -/
def usesAt (l : List (BankUse × Nat)) (core bank : Nat) : List (BankUse × Nat) :=
  l.filter fun x => x.1.core == core && bankOf x.1.line == bank

/-- A receive slot past one more of its lines (R201). -/
def CoreSt.slotNext (c : CoreSt) (slot : Nat) : CoreSt :=
  match spGet none c.recv slot with
  | some r => { c with recv := spPut none c.recv slot (if r.nxt + 1 = r.lines then none else some { r with nxt := r.nxt + 1 }) }
  | none => c

/-! ## Reads -/

/-- A lane of a vector set. -/
def setLane (v : BitVec 512) (j : Nat) (x : Nat) : BitVec 512 :=
  ofLanes ((List.range 16).map fun i => if i = j then x else (lane v i).toNat)

/-- The next pair of a TST, read as its last one performs. -/
def State.tstStep (s : State) (p : Pend) (a st j : Nat) (r0 r1 : BitVec 1024) (t : Nat) : State :=
  let c := s.core p.own.core
  let half := fun (s : State) (r h : Nat) (v : BitVec 1024) =>
    if (pairLost a st j).contains (2 * (r - 2 * j) + h) then s
    else s.then_ p 0 false (.spStore (a + st * r + 64 * h) (natLe 64 (halfRow v h).toNat))
  let put := fun (s : State) (r : Nat) (v : BitVec 1024) => half (half s r 0 v) r 1 v
  let s1 := put (put s (2 * j) r0) (2 * j + 1) r1
  if j = 31 then s1
  else
    let x := c.tile t
    match [2 * j + 2, 2 * j + 3].find? x.marked with
    | some r => s1.foundBy p.own (.poison 2 0 t r)
    | none => s1.then_ p 1 false (.tst a st (j + 1) (x.row (2 * j + 2)) (x.row (2 * j + 3)) t)

/-- What a read of a row pair by LATCH or MMA finds (R110, R244); `ok` goes on. -/
def State.pairFound (s : State) (p : Pend) (x : PairRead) (ok : State → State) : State :=
  match x.poison with
  | some q => s.foundBy p.own (.poison 2 0 q.1 q.2)
  | none =>
    if x.short then s.foundBy p.own (.sqimbal (s.core p.own.core).sq.length false)
    else ok (s.ownCore p fun c =>
      { c with sq := c.sq.drop x.pops, mstat := if x.bad then c.mstat ||| BitVec.ofNat 64 msDESCBAD else c.mstat })

/-- A line of a SEND (R201, R196, R197): read at t, launched at t + 2. -/
def State.sendLineOut (s : State) (p : Pend) (a target slot lines i m port : Nat) : State :=
  let c := p.own.core
  let l := (s.core c).spLine (a / 64 + i)
  match s.panelOn c with
  | none => s
  | some q =>
    match q.rankAt c, q.rank? target with
    | some me, some tg =>
      let s1 := if i + 1 < lines then s.then_ p 1 false (.sendRd a target slot lines (i + 1) m port) else s
      if tg.pkg = q.here then
        { s1.then_ p m false (.land tg.core 0 (lineBytes l.data) l.poison (.recv slot me.2 0 false)) with
          links := s1.links ++ linkUses p.clk me.2 p.own (p.due + m) (route me.1 tg (p.due + 2)) }
      else
        { s1.then_ p (2 + 2 * me.1.y + 2) false (.portOut port target slot (s.portLat port) l) with
          links := s1.links ++ linkUses p.clk me.2 p.own (p.due + 2 * me.1.y + 4) (routeOut me.1 port (p.due + 2)) }
    | _, _ => s

/-- A line of a SEND comes to its port (R197, R202): it enters when the port is up, and is lost otherwise; a poisoned line is noted (R180). -/
def State.portLine (s : State) (p : Pend) (port dst slot lat : Nat) (l : Line) : State :=
  let note := fun (s : State) (f : FailedWrite) => s.updCtx p.own.core p.own.ctx fun x => { x with failed := x.failed ++ [f] }
  let s1 := if l.poison then note s ⟨p.own.issue, 5, 0, false, false, true⟩ else s
  if s.portUp port then
    { s1.send (.packet port p.due dst slot l) with pend := s1.pend ++ [⟨.scyc, s.scyc + lat, false, p.own, .portPass port⟩] }
  else note s1 ⟨p.own.issue, 5, 1, true, false, false⟩

/-- The other packages of a group, with the port that joins each. -/
def State.groupPorts (s : State) (q : Panel) (g : Group) : List Nat :=
  (((g.members.map (·.pkg)).eraseDups.filter (· != q.here)).map s.collPort).eraseDups

/-- A line of an NBC read at the root (R205). -/
def State.nbcLineOut (s : State) (p : Pend) (a g0 n lines i mb : Nat) : State :=
  let c := p.own.core
  let l := (s.core c).spLine (a / 64 + i)
  match (s.panelOn c) with
  | none => s
  | some q =>
    match q.group? g0 n with
    | none => s
    | some g =>
      let here := g.members.filter fun r => r.pkg == q.here && r.core != c
      let s1 := here.foldl (fun s r => s.then_ p mb false (.land r.core (a + 64 * i) (lineBytes l.data) l.poison .bc)) s
      let s2 := ((s.groupPorts q g).filter s.portUp).foldl (fun s port => s.send (.lineBc port q.pid p.due g0 n (a + 64 * i) l)) s1
      if i + 1 < lines then s2.then_ p 1 false (.nbcRd a g0 n lines (i + 1) mb) else s2

/-- Four elements of each member's accumulator taken into the sum of an NRED (R204). -/
def State.nredStep (s : State) (p : Pend) (n g0 k : Nat) (cores bad : List Nat) (anchor : Int) (x : Sparse Xa) : State :=
  let take := fun (x : Sparse Xa) (c : Nat) => (List.range 4).foldl (fun x e =>
    let i := 64 * (k / 16) + 4 * (k % 16) + e
    let v := spGet Xa.zero ((s.core c).accum n).el i
    let m := xaMerge (spGet Xa.zero x i) v
    spPut Xa.zero x i (if bad.contains c then { m with tag := .nan } else m)) x
  let y := cores.foldl take x
  if k < 1023 then s.then_ p 1 false (.nredRd n g0 (k + 1) cores bad anchor y)
  else
    let isMine := fun (q : Pend) => match q.act with | .wNred _ _ _ _ _ => q.own == p.own | _ => false
    if s.pend.any isMine then
      { s with pend := s.pend.map fun q => if isMine q then
          { q with act := match q.act with
              | .wNred n g a z away => .wNred n g a (spZip Xa.zero 4096 xaMerge z y) away
              | a => a } else q }
    else match (s.panelOn p.own.core).bind fun q => (q.rank? g0).map fun r => (q.pid, s.collPort r.pkg) with
      | some x => if s.portUp x.2 then s.send (.accRows x.2 x.1 g0 (s.ctx p.own.core 0).rank ⟨y, anchor⟩) else s
      | none => s

/-- A collective's check of its members on this package at p + 1 (R203). -/
def State.collStep (s : State) (l : List Pend) (p : Pend) (g0 n : Nat) (sig : Word × Word) : State :=
  match s.panelOn p.own.core with
  | none => s
  | some q =>
    let agrees := fun (r : RankPos) => l.any fun o => o.own.core == r.core && o.own.word == p.own.word && o.act == .collCheck g0 n sig
    match ((List.range n).find? fun i => match q.rank? (g0 + i) with
        | some r => r.pkg == q.here && !agrees r
        | none => true) with
    | some i => s.foundBy p.own (.timing 3 (BitVec.ofNat 64 (g0 + i)))
    | none => s

/-- An action of the read phase; `l` are all of this cycle. -/
def State.readAct (l : List Pend) (s : State) (p : Pend) : State :=
  let c := s.core p.own.core
  match p.act with
  | .spLoad a n ld =>
    s.then_ p 3 false (.wS ld.ctx ld.rd (BitVec.ofNat 64 (natAt c.sp a n)) (spGet false c.spPoison (a / 64)))
  | .vLoad cl r mask line =>
    let x := c.spLine line
    s.then_ p 3 false (.wV cl r mask x.data x.poison)
  | .vGather cl r mask ad todo acc m =>
    match todo with
    | [] => s.then_ p 2 false (.wV cl r mask acc m)
    | line :: rest =>
      let v := ofLanes ((List.range 16).map fun j =>
        if mask.getLsbD j && nth 0 ad j / 64 == line then natAt c.sp (nth 0 ad j) 4 else (lane acc j).toNat)
      let m1 := m || spGet false c.spPoison line
      if rest.isEmpty then s.then_ p 3 false (.wV cl r mask v m1) else s.then_ p 1 false (.vGather cl r mask ad rest v m1)
  | .vIdxLoad cl r mask ad j acc m =>
    let a := nth 0 ad j
    let on := mask.getLsbD j
    let v := if on then setLane acc j (natAt c.sp a 4) else acc
    let m1 := m || (on && spGet false c.spPoison (a / 64))
    if j = 15 then s.then_ p 4 false (.wV cl r mask v m1) else s.then_ p 1 false (.vIdxLoad cl r mask ad (j + 1) v m1)
  | .tld t a st j =>
    let row := fun (s : State) (r : Nat) =>
      let x := c.spLine ((a + st * r) / 64)
      let y := c.spLine ((a + st * r) / 64 + 1)
      let lost := fun (h : Nat) => (pairLost a st j).contains (2 * (r - 2 * j) + h)
      let part := fun (s : State) (h : Nat) (l : Line) =>
        if lost h then s else s.then_ p 3 true (.wHalf t r h l.data l.poison ((c.tile t).marked r))
      if lost 0 || lost 1 then part (part s 0 x) 1 y
      else s.then_ p 3 true (.wRow t r (y.data ++ x.data) (x.poison || y.poison))
    let s1 := row (row s (2 * j)) (2 * j + 1)
    if j = 31 then s1 else s1.then_ p 1 false (.tld t a st (j + 1))
  | .tst a st j r0 r1 t => s.tstStep p a st j r0 r1 t
  | .latchRd n t j x =>
    let r := latchPair c t j x
    s.pairFound p r.1 fun s =>
      if j = 31 then s.then_ p 5 false (.wLatch n r.2) else s.then_ p 1 false (.latchRd n t (j + 1) r.2)
  | .mmaRd j x =>
    let r := mmaPair c j x
    s.pairFound p r.1 fun s =>
      if j < 31 then s.then_ p 1 false (.mmaRd (j + 1) r.2)
      else
        let off := if x.cl then 13 else 8
        let s1 := s.then_ p off true (.wMma r.2)
        if r.2.mnan then s1.then_ p off false (.wFlag 10 (BitVec.ofNat 64 msMNAN)) else s1
  | .tileRd d t j tr x =>
    let y := copyPair c t j x
    if j < 31 then s.then_ p 1 false (.tileRd d t (j + 1) tr y)
    else if tr then s.then_ p 5 false (.wTile d (transpose (c.tcReg t) y))
    else s.then_ p 2 false (.wTile d y)
  | .acsave a j x =>
    let s1 := (List.range 4).foldl (fun s i =>
      let e := 8 * j + 2 * i
      s.then_ p 0 false (.spStore (a + 256 * j + 64 * i)
        (accRecord (spGet Xa.zero x.el e) x.anchor ++ accRecord (spGet Xa.zero x.el (e + 1)) x.anchor))) s
    if j = 511 then s1 else s1.then_ p 1 false (.acsave a (j + 1) x)
  | .acrest n a j x =>
    let rec_ := fun (e : Nat) => bytesAt c.sp (a + 32 * e) 32
    let x1 : Acc :=
      { anchor := if j = 0 then recordAnchor (rec_ 0) else x.anchor
        el := (List.range 8).foldl (fun m i => spPut Xa.zero m (8 * j + i) (recordElem (rec_ (8 * j + i)))) x.el }
    if j = 511 then s.then_ p 1 true (.wAcc n x1) else s.then_ p 1 false (.acrest n a (j + 1) x1)
  | .sqldRd line => s.then_ p 3 false (.sqPush ((List.range 32).map fun i => BitVec.ofNat 16 (natAt c.sp (64 * line + 2 * i) 2)))
  | .cpyImage a hs => s.startCpy p.own (bytesAt c.sp a 32) hs
  | .cpyLine run i a => s.stageLine run i (c.spLine (a / 64))
  | .portOut port dst slot lat l => s.portLine p port dst slot lat l
  | .rldReq tg a n m ld =>
    let x := s.core tg
    s.then_ p (m + 2) false (.wS ld.ctx ld.rd (BitVec.ofNat 64 (natAt x.sp a n)) (spGet false x.spPoison (a / 64)))
  | .sendRd a tg slot lines i m port => s.sendLineOut p a tg slot lines i m port
  | .nbcRd a g0 n lines i mb => s.nbcLineOut p a g0 n lines i mb
  | .nredRd n g0 k cores bad anchor x => s.nredStep p n g0 k cores bad anchor x
  | .nbcExpect a n i port =>
    let here := s.pend.any fun q => s.isDue q && (match q.act with | .land k b _ _ .bc => k == p.own.core && b == a + 64 * i | _ => false)
    let s1 := if here then s else s.foundBy p.own (.link port 1)
    if i + 1 < n then s1.then_ p 1 false (.nbcExpect a n (i + 1) port) else s1
  | .collCheck g0 n sig => s.collStep l p g0 n sig
  | _ => s

/-- The source reads of copies from scratchpads due now on the chosen clocks: the use, the copy, the line. -/
def State.copyReads (s : State) (sel : Clk → Bool) : List (BankUse × Nat × Nat) :=
  s.copies.flatMap fun r =>
    if r.timed then
      match r.pid.bind s.panel? with
      | some p =>
        if (p.st == .running || p.st == .ended) && !p.frozen && sel (.panel p.pid) then
          (r.spReads p.pcyc).map fun x => (⟨x.1, x.2.1 / 64, 11, true, r.owner x.1⟩, r.id, x.2.2)
        else []
      | none => []
    else []

/-- EARLYREAD (R84) of the timed reads that perform. -/
def State.earlyReads (s : State) (l : List BankUse) : State :=
  l.foldl (fun s u =>
    match (if u.rd && u.code != 14 then spGet none (s.core u.core).spPend u.line else none) with
    | none => s
    | some x =>
      let k := TrapKind.earlyread u.line x.1 x.2.1 x.2.2
      if u.own.slot = 13 then s.found u.core 0 (s.noOwner u.core 0 k) else s.foundBy u.own k) s

/-- TIMING for two engine-slot reads of one core in one cycle (R201). -/
def State.engineClash (s : State) (l : List BankUse) : State :=
  let e := l.filter fun u => u.code == 13
  (e.map (·.core)).eraseDups.foldl (fun s c =>
    match e.filter fun u => u.core == c with
    | u :: _ :: _ => s.foundBy u.own (.timing 7 0)
    | _ => s) s

/-- Landings for slots that are not armed for their sender, and lines lost in a link (R201, R202). -/
def State.slotChecks (s : State) (l : List Pend) : State :=
  l.foldl (fun s p => match p.act with
    | .land core _ _ _ (.recv slot sender port lost) =>
      match spGet none (s.core core).recv slot with
      | some r =>
        if lost then
          (if r.sender = sender ∧ r.port = port then (s.foundBy r.own (.link port 0)).updCore core fun c => { c with recv := spPut none c.recv slot none }
           else s)
        else if r.sender = sender ∧ r.port = port then s
        else s.found core 0 (s.noOwner core 0 (.timing 4 (BitVec.ofNat 64 (slot + 2 ^ 16 * sender))))
      | none => if lost then s else s.found core 0 (s.noOwner core 0 (.timing 4 (BitVec.ofNat 64 (slot + 2 ^ 16 * sender))))
    | _ => s) s

/-- The packet on a link leads to this action. -/
def LinkUse.delivers (l : LinkUse) (q : Pend) : Bool := q.clk == l.clk && q.due == l.arr && q.own == l.own

/-- MESHCOLL (R198, R333) of two packets of a panel on one link: it is recorded in the strand of the lower rank, wherever that lies, and no
packet with a hop from now on is delivered. The record of a strand on another package leaves by the panel's ports (log 110). -/
def State.collide (s : State) (x y : LinkUse) : State :=
  let a := if x.rank ≤ y.rank then x else y
  let b := if x.rank ≤ y.rank then y else x
  let k := TrapKind.meshcoll a.link a.rank b.rank
  match a.clk with
  | .scyc => s
  | .panel pid =>
    match s.panel? pid with
    | none => s
    | some p =>
      let s1 := s.updPanel pid fun q => { q with meshAt := some (q.meshAt.getD p.pcyc) }
      match p.rank? a.rank with
      | none => s1
      | some r =>
        if r.pkg = p.here then
          (if a.own.core = r.core then s1.foundBy a.own k else s1.found r.core 0 (s1.noOwner r.core 0 k))
        else
          let rec_ := holderRec s a.rank k p.pcyc
          (s1.send (.panelTrap pid p.pcyc a.rank rec_)).panelFails p p.pcyc a.rank rec_

/-- The links of this cycle: collisions of timed packets, the packets that a collision keeps from their delivery, and the links of this cycle
and later ones. -/
def State.meshCheck (s : State) : State :=
  let now := (s.links.filter fun l => l.due == s.now l.clk && !s.clkFrozen l.clk && l.own.ctx == 0).zipIdx
  let pairs := now.filterMap fun x =>
    (now.find? fun y => x.2 < y.2 && x.1.clk == y.1.clk && x.1.link == y.1.link).map fun y => (x.1, y.1)
  let s1 := pairs.foldl (fun s x => s.collide x.1 x.2) s
  let stopped := fun (c : Clk) => match c with | .panel pid => (s1.panel? pid).any fun p => p.meshAt.isSome | .scyc => false
  { s1 with
    pend := s1.pend.filter fun q => !s1.links.any fun l => stopped l.clk && l.delivers q
    links := s1.links.filter fun l => decide (l.due ≥ s.now l.clk) }

/-- What an access that loses its bank leaves to come (R109): the other accesses of its instruction, of which a load leaves the lanes that it
lost; a slot's next line lands behind the lost one. -/
def State.lostAct (s : State) (p : Pend) : State :=
  match p.act with
  | .vGather cl r mask ad todo acc m =>
    (match todo with
     | [] => s
     | line :: rest =>
       let keep := (List.range 16).foldl (fun k j => if nth 0 ad j / 64 = line then setBit k j false else k) mask
       if rest.isEmpty then s.then_ p 3 false (.wV cl r keep acc m) else s.then_ p 1 false (.vGather cl r keep ad rest acc m))
  | .vIdxLoad cl r mask ad j acc m =>
    let keep := setBit mask j false
    if j = 15 then s.then_ p 4 false (.wV cl r keep acc m) else s.then_ p 1 false (.vIdxLoad cl r keep ad (j + 1) acc m)
  | .vIdxStore cl mask ad j v => if j = 15 then s else s.then_ p 1 false (.vIdxStore cl mask ad (j + 1) v)
  | .sendRd a target slot lines i m port => if i + 1 < lines then s.then_ p 1 false (.sendRd a target slot lines (i + 1) m port) else s
  | .nbcRd a g0 n lines i mb => if i + 1 < lines then s.then_ p 1 false (.nbcRd a g0 n lines (i + 1) mb) else s
  | .land core _ _ _ (.recv slot sender port lost) =>
    if (s.landAddr core 0 (.recv slot sender port lost)).isSome then s.updCore core fun c => c.slotNext slot else s
  | _ => s

/-- The read phase of the chosen clocks: conflicts and early reads found, losing accesses removed (the image of a CPY whenever its bank
conflicts, R207), untimed accesses put off ahead of later ones (R272), the others performed; a row pair of the tile engine that meets itself
loses lines of its own (R245). -/
def State.readPhaseOn (s : State) (sel : Clk → Bool) : State :=
  let bank := s.pend.filter fun p => s.isDue p && sel p.clk && (p.phase == .reads || p.phase == .writes)
  let uses := bank.zipIdx.flatMap fun x => (s.usesOf x.1).map fun u => (u, x.2)
  let cr := s.copyReads sel
  let creads := cr.zipIdx.map fun x => (x.1.1, bank.length + x.2)
  let timed := (uses.filter fun x => x.1.code != 14) ++ creads
  let free := uses.filter fun x => x.1.code == 14
  let clash := (timed.map fun x => (x.1.core, bankOf x.1.line)).filter fun k => (usesAt timed k.1 k.2).length > 1
  let image := fun (i : Nat) => match bank[i]? with | some p => (match p.act with | .cpyImage _ _ => true | _ => false) | none => false
  let lose := clash.eraseDups.flatMap fun k =>
    let l := usesAt timed k.1 k.2
    (l.map (·.2)).filter fun i => bankWinner l != some i || image i
  let wait := (free.filter fun x => (usesAt timed x.1.core (bankOf x.1.line)).length > 0
    || free.any fun y => y.2 < x.2 && y.1.core == x.1.core && bankOf y.1.line == bankOf x.1.line).map (·.2)
  let s1 := (clash.map (·.1)).eraseDups.foldl (fun s c =>
    let b := (List.range 20).find? fun b => clash.contains (c, b)
    match b with
    | some b => s.found c 0 (conflictCand s c b ((usesAt timed c b).map (·.1)))
    | none => s) s
  let s2 := (s1.engineClash (timed.map (·.1))).earlyReads
    ((timed.filter fun x => !clash.contains (x.1.core, bankOf x.1.line)).map (·.1))
  let s3 := s2.slotChecks bank
  let tagged := bank.zipIdx
  let late := (tagged.filter fun x => wait.contains x.2).map fun x => { x.1 with due := x.1.due + 1 }
  let keep := tagged.filter fun x => !wait.contains x.2 && !lose.contains x.2
  let reads := (keep.map (·.1)).filter fun p => p.phase == .reads
  let writes := (keep.map (·.1)).filter fun p => p.phase == .writes
  let s4 : State := { s3 with
    pend := late ++ (s3.pend.filter fun p => !(s.isDue p && sel p.clk && (p.phase == .reads || p.phase == .writes))) ++ writes }
  let s5 := reads.foldl (State.readAct reads) s4
  let s6 := (tagged.filter fun x => !wait.contains x.2 && lose.contains x.2).foldl (fun s x => s.lostAct x.1) s5
  cr.zipIdx.foldl (fun s x =>
    match s.copy? x.1.2.1 with
    | some r =>
      let s1 := s.updCopy r.id fun c => { c with sent := x.1.2.2 + 1 }
      if lose.contains (bank.length + x.2) then s1 else s1.sendLine r x.1.2.2 ((s.core r.portCore).spLine x.1.1.line)
    | none => s) s6

/-- The read phase of a cycle. -/
def State.readPhase (s : State) : State := s.meshCheck.readPhaseOn fun _ => true

/-! ## The end of a cycle -/

/-- A line that lands in a scratchpad (R72, R75, R201). A landing of a timed entry or of the network clears the pending bit of its line (R84). -/
def State.landLine (s : State) (core a : Nat) (bs : List Byte) (poison : Bool) (kind : LandKind) : State :=
  match s.landAddr core a kind with
  | none => s
  | some at_ =>
    (match kind with | .free run => s.freeDone run 1 | _ => s).updCore core fun c =>
      let c1 := c.spWrite at_ bs poison
      let c2 := { c1 with spPend := spPut none c1.spPend (at_ / 64) none }
      match kind with
      | .recv slot _ _ _ => c2.slotNext slot
      | .ap | .bc => c2
      | .map | .free _ => c1

/-- A write in memory; an atomic on a poisoned word writes nothing (R93). -/
def State.writeAct (s : State) (p : Pend) : State :=
  match p.act with
  | .spStore a bs => s.ownCore p fun c => c.spWrite a bs false
  | .vStore _ line mask v => s.ownCore p fun c =>
    if mask = allLanes then c.spWrite (64 * line) (lineBytes v) false
    else { c with sp := putMasked c.sp (64 * line) (laneBytes mask) (lineBytes v) }
  | .vIdxStore cl mask ad j v =>
    let s1 := if mask.getLsbD j then s.ownCore p fun c => c.spWrite (nth 0 ad j) (natLe 4 (lane v j).toNat) false else s
    if j = 15 then s1 else s1.then_ p 1 false (.vIdxStore cl mask ad (j + 1) v)
  | .rstReq tg a bs => s.updCore tg fun c => c.spWrite a bs false
  | .land core a bs m kind => s.landLine core a bs m kind
  | .lsStore pl mask bs => s.lsWrite pl mask bs false
  | .lsLand pl bs m run =>
    let s1 := s.lsWrite pl (bs.map fun _ => true) bs m
    if s.isTimed run then s1 else s1.freeDone run 1
  | .lsAtomic pl op w x y ld =>
    let old := natAt s.ls pl.key (w / 8)
    let s1 := if s.lsTag pl then s
      else s.lsWrite pl (List.replicate (w / 8) true) (natLe (w / 8) (atomicNew op w old x y)) false
    s1.then_ p 8 false (.wS ld.ctx ld.rd (BitVec.ofNat 64 old) (s.lsTag pl))
  | _ => s

/-- A latent-store write through the far port (R90). -/
def farWrite (p : Pend) : Bool :=
  match p.act with
  | .lsStore pl _ _ | .lsLand pl _ _ _ | .lsAtomic pl _ _ _ _ _ => pl.die != dieOf p.own.core
  | _ => false

/-- The memory writes due: near ports, then far ports. -/
def State.writePhase (s : State) : State :=
  let d := s.takeDue .writes
  ((d.1.filter fun p => !farWrite p) ++ d.1.filter farWrite).foldl State.writeAct d.2

/-- A trap of this cycle of a strand comes before one of code `code` in the last step of R185. -/
def State.trappedBefore (s : State) (core ctx code : Nat) : Bool :=
  let x := s.ctx core ctx
  x.st == .trapped && x.trec.t2 == BitVec.ofNat 64 (s.now (s.clkOf core ctx)) && decide (fld x.trec.t0.toNat 0 8 ≤ code)

/-- A push into the scale queue (R110, R210): SQIMBAL past 64 entries, unless an earlier trap of the order stands for this cycle (R185). -/
def State.sqPushAct (s : State) (p : Pend) (xs : List (BitVec 16)) : State :=
  let c := s.core p.own.core
  if c.sq.length + xs.length > 64 then
    (if s.trappedBefore p.own.core p.own.ctx 11 then s
     else s.takeFirst p.own.core p.own.ctx [p.own.cand (.sqimbal c.sq.length true)])
  else s.ownCore p fun c => { c with sq := c.sq ++ xs }

/-- The holders' operations that come to a queue engine in this cycle, by core (R194). -/
def State.queuePhase (s : State) : State :=
  let arrives := fun (p : Pend) => s.isDue p && (match p.act with | .qArrive _ _ _ => true | _ => false)
  let due := s.pend.filter arrives
  (sortBy (fun a b => decide (a.own.core < b.own.core)) due).foldl State.regAct { s with pend := s.pend.filter fun p => !arrives p }

/-- What takes effect at the end of a cycle: late register writes in issue order, the scale queue in its order, DISCARD. -/
def State.lastPhase (s : State) : State :=
  let d := s.takeDue .last
  let isClear := fun (p : Pend) => p.act == .sqClear
  let pushN := fun (p : Pend) => match p.act with | .sqPush xs => xs.length | _ => 0
  let other := byIssue (d.1.filter fun p => !isClear p && pushN p == 0)
  let s1 := other.foldl (fun s p => match p.act with | .discard sp lo hi => s.discard sp lo hi | _ => s.regAct p) d.2
  let s2 := (d.1.filter isClear).foldl (fun s p => s.ownCore p fun c => { c with sq := [] }) s1
  ((d.1.filter fun p => pushN p > 1) ++ d.1.filter fun p => pushN p == 1).foldl (fun s p =>
    match p.act with | .sqPush xs => s.sqPushAct p xs | _ => s) s2

end Sys2Proof.Machine
end

