-- ==== Sys2Proof/Machine/Issue.lean ====
section
/-!
DEFINITION. The issue of a bundle (07 R116; 08 R129, R143, R146; 09 R172 to R179; 10 R185): who may issue, the words of the bundle in hand, and
its commit.
-/
namespace Sys2Proof.Machine

/-! ## Who issues (R116) -/

/-- The holder's idle bundle, which began at `curSince`, has at least 25 cycles and lends this one. -/
def State.lent (s : State) (p : Panel) (core : Nat) : Bool :=
  let h := s.ctx core 0
  h.st == .running && h.wait == .none && decide (p.pcyc + 13 ≤ h.next)
    && decide ((s.core core).curSince + 25 ≤ h.next) && decide ((s.core core).curSince + 12 ≤ p.pcyc)

/-- Context k of a core may issue in this cycle. -/
def State.mayIssue (s : State) (core k : Nat) : Bool :=
  let x := s.ctx core k
  x.st == .running && x.wait == .none && decide (x.next ≤ s.now (s.clkOf core k)) &&
    (match s.panelOn core with
     | none => true
     | some p =>
       !p.frozen && (if k = 0 then p.st == .running
         else if p.st = .running then s.lent p core || (s.ctx core 0).st == .blocked else p.st == .ended))

/-- The first context with a bundle due: by core, the holder first. -/
def State.nextIssue (s : State) : Option (Nat × Nat) :=
  s.cores.findSome? fun e => (e.2.ctxs.find? fun x => s.mayIssue e.1 x.1).map fun x => (e.1, x.1)

/-- The first context for which a trap has been found. -/
def State.nextTrap (s : State) : Option (Nat × Nat) :=
  s.cores.findSome? fun e => (e.2.ctxs.find? fun x => !x.2.cands.isEmpty).map fun x => (e.1, x.1)

/-- The next ready context of a core after the one last run, in round-robin order. -/
def State.nextReady (s : State) (core : Nat) : Option Nat :=
  let c := s.core core
  ((List.range 4).map fun i => (c.cur + 1 + i) % 4).find? fun k => (c.ctx k).st == .ready

/-- A context switched in now would issue in a lent cycle of the holder's idle bundle (R116): the switch takes 12 sc, and the last of those
cycles is the 13th before the holder's next bundle. -/
def State.lentSoon (s : State) (p : Panel) (core k : Nat) : Bool :=
  decide (max (s.ctx core k).next (p.pcyc + 12) + 13 ≤ (s.ctx core 0).next)

/-- The switches that are due (R116): to a ready context where none runs or a lent stretch begins, and back at its end. -/
def State.nextSwitch (s : State) : Option (Nat × Nat) :=
  s.cores.findSome? fun e =>
    let other := e.2.ctxs.any fun x => x.1 != 0 && x.2.st == .running
    let pick := if other then none else (s.nextReady e.1).map fun k => (e.1, k)
    match s.panelOn e.1 with
    | none => if e.2.ctxs.any fun x => x.2.st == .running then none else pick
    | some p =>
      if p.frozen then none
      else if p.st = .ended then pick
      else if p.st = .running then
        let h := e.2.ctx 0
        let idle := h.st == .running && h.wait == .none && decide (e.2.curSince + 25 ≤ h.next) && decide (e.2.curSince ≤ p.pcyc)
        let soon := (s.nextReady e.1).any (s.lentSoon p e.1)
        if h.st = .blocked ∨ (idle && (soon || (other && decide (p.pcyc + 12 < h.next)))) = true then pick
        else if other then some (e.1, 0) else none
      else none

/-! ## The bundle in hand -/

/-- The clusters that pop the random-bits queue, in order (R111). -/
def State.popsOf (s : State) (ws : List (SlotWord × Instr)) : List Nat :=
  let l := ws.flatMap fun x => match x.2 with
    | .vrnd p _ _ _ | .vgauss p _ _ _ => if s.rdQ p then x.1.clusters else []
    | _ => []
  (List.range 8).filter fun c => l.contains c

/-- A bundle taken in hand by context k of a core. -/
def State.begin_ (s : State) (core k : Nat) (next cycles : Nat) : State :=
  { s with cur := { Issue.none with
      core := core, ctx := k, clk := s.clkOf core k, t := s.now (s.clkOf core k), baddr := (s.ctx core k).pc,
      nextAddr := BitVec.ofNat 16 next, cycles := cycles, units := (s.core core).units } }

/-- A word put in hand. -/
def State.setWord (s : State) (w : SlotWord) : State :=
  { s with cur := { s.cur with slot := (match w.clusters with | c :: _ => 5 + c | [] => w.slot), clusters := w.clusters, word := w.word } }

/-- The words of a bundle executed one after the other; each reads the registers as they stood. -/
def runWords (ex : Instr → State → Out) : List (SlotWord × Instr) → State → Out
  | [], s => .next s
  | (w, i) :: ws, s =>
    match ex i (s.setWord w) with
    | .next t => runWords ex ws t
    | .fault f => .fault f
    | .refused r => .refused r

/-- The trap to take of those a bundle raised (R185, R143): an ILLEGAL marks every slot with its cause. -/
def chosenTrap (l : List TrapCand) : Option TrapCand :=
  (firstTrap l).map fun t =>
    match t.kind with
    | .illegal sub _ =>
      let same := l.filter fun u => match u.kind with | .illegal b _ => b == sub | _ => false
      let mask := same.foldl (fun m u => m ||| u.smask) 0
      let word := match same.find? fun u => u.smask.getLsbD (firstSlot mask) with | some u => u.word | none => t.word
      { t with smask := mask, word := word }
    | _ => t

/-! ## Commit -/

/-- A push of the scale queue due in this cycle that would overflow after this bundle's pops (R110). -/
def State.sqOverflow (s : State) : Option TrapCand :=
  let pops := (s.cur.out.filter fun p => p.due == s.cur.t).foldl (fun n p => match p.act with | .sqPop k => n + k | _ => n) 0
  let held := s.me.sq.length - pops
  let due := s.pend.filter fun p => p.own.core == s.cur.core && s.isDue p
  let clear := due.any fun p => p.act == .sqClear
  let pushes := due.filterMap fun p => match p.act with | .sqPush xs => some (p, xs.length) | _ => none
  let order := (pushes.filter fun x => x.2 > 1) ++ pushes.filter fun x => x.2 ≤ 1
  let r := order.foldl (fun (r : Nat × Option TrapCand) x =>
    match r.2 with
    | some _ => r
    | none => if r.1 + x.2 > 64 then (r.1, some (x.1.own.cand (.sqimbal r.1 true))) else (r.1 + x.2, none))
    (if clear then 0 else held, none)
  r.2

/-- The replay registers after the words of a bundle (R129). -/
def replayOf (ws : List (SlotWord × Instr)) (m : Sparse (Option Replay)) : Sparse (Option Replay) :=
  ws.foldl (fun m w => if w.1.slot = 13 then m
    else w.1.slots.foldl (fun m sl => spPut none m sl (some ⟨w.1.word, w.1.lend⟩)) m) m

/-- Where a context goes on after its bundle (R146, R179): the address, and what follows a delay bundle. -/
def nextPc (s : State) (x : Ctx) : BitVec 16 × Delay :=
  if s.cur.eret then (x.trec.t1.extractLsb' 32 16, .none)
  else match x.delay with
    | .target a => (a, .none)
    | .fall => (s.cur.nextAddr, .none)
    | .none => (s.cur.nextAddr, s.cur.xfer)

/-- The context as a committed bundle leaves it; an ended strand's spill slots give up their cells (R113). -/
def ctxAfter (s : State) (ws : List (SlotWord × Instr)) (x : Ctx) : Ctx :=
  let g := nextPc s x
  { x with
    lastPc := s.cur.baddr
    pc := g.1
    delay := g.2
    replay := replayOf ws x.replay
    next := s.cur.t + (if s.cur.eret then 2 else s.cur.cycles)
    inHandler := x.inHandler && !s.cur.eret
    st := if s.cur.ended then .ended else x.st
    spill := if s.cur.ended then [] else x.spill
    wait := s.cur.wait
    bars := if s.cur.wait == .bar then x.bars + 1 else x.bars }

/-- A strand's END or arrival at a barrier noted in its panel (R176, R177); the panel ends with its last holder. -/
def State.noteEnd (s : State) : State :=
  if s.cur.ctx ≠ 0 then s
  else match s.panelOn s.cur.core with
    | none => s
    | some p =>
      let r := (s.ctx s.cur.core 0).rank
      if s.cur.ended then
        s.updPanel p.pid fun q => { q with ends := q.ends ++ [(r, s.cur.t)] }
      else if s.cur.wait == .bar then
        s.updPanel p.pid fun q => { q with arrivals := q.arrivals ++ [⟨(s.ctx s.cur.core 0).bars, r, s.cur.t⟩] }
      else s

/-- The actions of a bundle that take effect as it issues. -/
def State.doNow (s : State) : State :=
  (s.cur.out.filter fun p => p.due == s.cur.t && p.phase == .regs).foldl State.regAct s

/-- The SOFT trap of a bundle's TRAP word (R178, R379). -/
def softCand (ws : List (SlotWord × Instr)) (code baddr : BitVec 16) : TrapCand :=
  ⟨.soft code, 10, 1, (match ws.find? fun w => (match w.2 with | .trap _ => true | _ => false) with | some w => w.1.word | none => 0), baddr⟩

/-- SOFT (R178), after the other slots have committed. -/
def State.softTrap (s : State) (ws : List (SlotWord × Instr)) (core k : Nat) (code : BitVec 16) (baddr : BitVec 16) : State :=
  s.takeTrap core k (softCand ws code baddr) (s.ctx core k).pc

/-- A bundle without traps commits. -/
def State.commitOk (s : State) (ws : List (SlotWord × Instr)) : State :=
  let c := s.cur.core
  let k := s.cur.ctx
  let s1 := s.doNow
  let s2 : State := { s1 with
    pend := s1.pend ++ s.cur.out.filter fun p => !(p.due == s.cur.t && p.phase == .regs)
    links := s1.links ++ s.cur.links }
  let s3 := s2.updCore c fun x =>
    { x.updCtx k (ctxAfter s ws) with
      rq := x.rq.pop s.cur.pops.length
      units := if k = 0 ∨ isFwCtx c k then s.cur.units else x.units
      cur := if k = 0 then x.cur else k
      curSince := if k = 0 then s.cur.t else x.curSince }
  let s4 := s3.noteEnd
  let s5 := match s.cur.soft with
    | some code => s4.softTrap ws c k code s.cur.baddr
    | none => s4
  { s5 with cur := .none }

/-- The traps of a bundle's cycle (R185): its own, and those found for its context in this cycle, beside which SOFT counts too. -/
def State.allTraps (s : State) (ws : List (SlotWord × Instr)) : List TrapCand :=
  let l := s.cur.traps ++ (s.ctx s.cur.core s.cur.ctx).cands
  match s.cur.soft with
  | some code => if l.isEmpty then l else l ++ [softCand ws code s.cur.baddr]
  | none => l

/-- The end of a bundle's issue: a trap, a hold for one cycle, or its commit. -/
def State.commit (s : State) (ws : List (SlotWord × Instr)) : State :=
  let c := s.cur.core
  let k := s.cur.ctx
  let drop := fun (s : State) => { s with cur := .none }
  match chosenTrap (s.allTraps ws) with
  | some t => drop (s.takeTrap c k t (match t.kind with | .soft _ => (nextPc s (s.ctx c k)).1 | _ => t.baddr))
  | none =>
    if s.cur.hold then drop (s.updCtx c k fun x => { x with next := s.cur.t + 1 })
    else match s.sqOverflow with
      | some t => drop (s.takeTrap c k t t.baddr)
      | none => s.commitOk ws

/-- ILLEGAL_BUNDLE (R143): no slot commits, and the strand issues no more. -/
def execIllegalBundle (cause : Nat) (smask : BitVec 13) (word : BitVec 32) (s : State) : Out :=
  .next { s.takeTrap s.cur.core s.cur.ctx ⟨.illegal cause 0, 0, smask, word, s.cur.baddr⟩ s.cur.baddr with cur := .none }

/-- The bundle at a context's PC issued, with `ex` as the meaning of its words. -/
def State.issueWith (ex : Instr → State → Out) (s : State) (core k : Nat) : Out :=
  match bundleAt (s.core core) (s.ctx core k) with
  | .bad cause mask word => ex (.illegalBundle cause mask word) (s.begin_ core k 0 1)
  | .ok ws cycles next =>
    let s0 := s.begin_ core k next cycles
    let s1 : State := { s0 with cur := { s0.cur with pops := s0.popsOf ws } }
    match runWords ex ws s1 with
    | .next t => .next (t.commit ws)
    | .fault f => .fault f
    | .refused r => .refused r

end Sys2Proof.Machine
end

