-- ==== Sys2Proof/Machine/Panels.lean ====
section
/-!
DEFINITION. Panels as they run: barriers and fences (R177, R181), start (R288), the freeing of cores (R291, R336), freeze windows (R323 to
R325), power and temperature (R329, R330).
-/
namespace Sys2Proof.Machine

/-! ## Barriers (R177, R331) -/

/-- The ranks of a panel on this package, with their cores. -/
def Panel.mine (p : Panel) : List (RankPos × Nat) := p.ranks.zipIdx.filter fun x => x.1.pkg == p.here

/-- Lb. -/
def State.barLat (s : State) (p : Panel) : Nat :=
  if p.hedge then 40 + s.panelLat p
  else if (p.ranks.map RankPos.die).eraseDups.length ≤ 1 then 16 else 40

/-- The arrival of a rank at barrier j: its BAR, or its END before. -/
def Panel.arrived (p : Panel) (j r : Nat) : Option Nat :=
  match p.arrivals.find? fun a => a.bar == j && a.rank == r with
  | some a => some a.at_
  | none => (p.ends.find? fun e => e.1 == r).map (·.2)

/-- The ports that join this package to the one of a rank on another package (R177). -/
def State.rankPorts (s : State) (p : Panel) (r : Nat) : List Nat :=
  match p.rank? r with
  | some x => if x.pkg = p.here then [] else (s.joinPorts p).filter fun i => s.portPeer i == x.pkg
  | none => []

/-- The arrival of rank r at barrier j is missed: no port that joins the two packages has let a copy of it through (R177). -/
def State.missedBy (s : State) (p : Panel) (j r : Nat) : Bool :=
  let l := s.rankPorts p r
  (p.arrived j r).isNone && !l.isEmpty && l.all fun i => p.lost.contains (j, r, i)

/-- The ranks of a panel whose arrivals at barrier j are missed here. -/
def State.barMissed (s : State) (p : Panel) (j : Nat) : List Nat := (List.range p.ranks.length).filter (s.missedBy p j)

/-- The barrier that strands of a panel wait at. -/
def State.barOf (s : State) (p : Panel) : Option Nat :=
  (p.mine.find? fun x => (s.ctx x.1.core 0).wait == .bar).map fun x => (s.ctx x.1.core 0).bars

/-- The release cycle of a panel's barrier, once every arrival has been received or missed: the latest that was received, and Lb (R177,
R331). -/
def State.barReleaseAt (s : State) (p : Panel) : Option (Nat × Nat) :=
  (s.barOf p).bind fun j =>
    let l := List.range p.ranks.length
    if l.all (fun r => (p.arrived j r).isSome || s.missedBy p j r) then
      some (j, (l.filterMap (p.arrived j)).foldl max 0 + s.barLat p)
    else none

/-- The panel whose barrier releases in this cycle. -/
def State.nextBarrier (s : State) : Option Nat :=
  (s.panels.find? fun p => p.st == .running && !p.frozen &&
    (match s.barReleaseAt p with | some x => decide (x.2 ≤ p.pcyc) | none => false)).map (·.pid)

/-- BARRIER_RELEASE (R177): the waiting strands issue; a strand that missed an arrival traps LINK (R331). -/
def execBarrierRelease (panel : Nat) (s : State) : Out :=
  .next (match s.panel? panel with
    | none => s
    | some p =>
      match s.barReleaseAt p with
      | none => s
      | some (j, at_) =>
        if p.pcyc < at_ then s
        else
          let missed := s.barMissed p j
          let port := ((missed.flatMap (s.rankPorts p)).head?).getD 0
          p.mine.foldl (fun s x =>
            let c := x.1.core
            let h := s.ctx c 0
            if h.wait == .bar && h.bars == j then
              let s1 := s.updCtx c 0 fun h => { h with wait := .none, next := p.pcyc }
              if !missed.isEmpty then
                let word := match spGet none h.replay 0 with | some r => r.word | none => 0
                s1.found c 0 ⟨.link port 3, 10, 1, word, h.lastPc⟩
              else s1
            else s) s)

/-! ## Fences outside the holder (R181) -/

/-- A context whose fence has nothing left to wait for. -/
def State.nextFence (s : State) : Option (Nat × Nat) :=
  s.cores.findSome? fun e => (e.2.ctxs.find? fun x => match x.2.wait with
    | .fence sc _ at_ => !s.clkFrozen (s.clkOf e.1 x.1) && !s.coveredDue e.1 x.1 at_ sc
    | _ => false).map fun x => (e.1, x.1)

/-- FENCE_DRAIN_DONE (R181): the status is written at its offset from here on; what it covers was issued before the FENCE. -/
def execFenceDrainDone (core ctx : Nat) (s : State) : Out :=
  let x := s.ctx core ctx
  .next (match x.wait with
    | .fence sc rd at_ =>
      let clk := s.clkOf core ctx
      let t := s.now clk
      if s.coveredDue core ctx at_ sc then s
      else
        let lat := s.maxLat ((List.range s.gramer).filter s.portUp)
        let off := match sc with | 2 => 8 | 3 => 24 | 4 => 48 | 5 => 48 + 2 * lat | 6 => 2048 | 7 => 4096 | _ => 1
        let s1 : State := { s with pend := s.pend ++ [⟨clk, t + off, false, ⟨core, ctx, 0, 0, x.lastPc, at_⟩, .fenceSt ctx rd sc⟩] }
        s1.updCtx core ctx fun x => { x with wait := .none }
    | _ => s)

/-! ## Freeze windows (R324) -/

/-- n rounded up to a multiple of 128, at least 128. -/
def up128 (n : Nat) : Nat := max 128 ((n + 127) / 128 * 128)

/-- The stop that stands for a window whose end another package will announce. -/
def openStop : Nat := 2 ^ 62

/-- A window of a panel from SCYC t on; one that lies ahead does not freeze it yet. -/
def Panel.addWindow (p : Panel) (t : Nat) (stop : Option Nat) : Panel := { p with frz := p.frz ++ [⟨t, stop⟩] }

/-- The windows that have begun by SCYC t. -/
def Panel.begun (p : Panel) (t : Nat) : List Freeze := p.frz.filter fun w => decide (w.start ≤ t)

/-- The merged end of windows, when every one has an end (R324). -/
def mergedEnd (l : List Freeze) : Option Nat :=
  match l with
  | [] => none
  | w :: ws =>
    if (w :: ws).all fun x => x.stop.isSome then
      let last := (w :: ws).foldl (fun m x => max m (x.stop.getD 0)) 0
      let first := (w :: ws).foldl (fun m x => min m x.start) w.start
      some (first + up128 (last - first))
    else none

/-- The panel as its windows leave it in SCYC t, with `n` as the PCYC that comes next: held back while a window that has begun is open or its
merged end lies ahead, and otherwise in that PCYC, its past windows gone. -/
def Panel.settle (p : Panel) (t n : Nat) : Panel :=
  let l := p.begun t
  if !l.isEmpty && (match mergedEnd l with | some e => decide (t < e) | none => true) then { p with pcyc := n, frozen := true }
  else { p with pcyc := n, frozen := false, frz := p.frz.filter fun w => decide (t < w.start) }

/-- The late window of a hedge panel that begins at PCYC n, in SCYC t: it ends 1,024 sc after its condition is met (R324). -/
def Panel.lateWindow (p : Panel) (t n : Nat) : Panel :=
  match p.lateAt.find? fun x => x.1 == n with
  | none => p
  | some x => { p.addWindow t (x.2.map fun m => t + up128 (m + 1024 - t)) with lateAt := p.lateAt.filter fun x => x.1 != n }

/-- FDUTY as it stood at a cycle. -/
def State.fdutyBefore (s : State) (t : Nat) : Nat :=
  (s.fdutyAt.foldl (fun (b : Option (Nat × Nat)) x =>
    if x.1 ≤ t then (match b with | some y => if x.1 ≥ y.1 then some x else b | none => some x) else b) none).elim 0 (·.2)

/-- FDUTY set now; `at_` is the cycle from which the windows to come see it. The last values are kept. -/
def State.setFduty (s : State) (v at_ : Nat) : State :=
  { s.ctlSetFld offPwrctl 12 3 v with fdutyAt := (s.fdutyAt ++ [(at_, v)]).drop (s.fdutyAt.length - 7) }

/-- Window w freezes a panel (R329). -/
def State.powerFreezes (s : State) (p : Panel) (w : Nat) : Bool :=
  decide ((w + p.startS / 1024) % 8 < s.fdutyBefore (1024 * (w - 1)))

/-! ## The start of a panel (R288, Table 7.1) -/

/-- A strand's context at its start. -/
def strandCtx (p : Panel) (r : Run) (rank : Nat) (pc : BitVec 16) (st : CtxState) : Ctx :=
  { Ctx.idle with
    st := st, pc := pc, h := r.bind, tenant := p.tenant, run := p.run, rank := rank, psize := p.ranks.length }

/-- A core at the start of a panel: helpers by their ranks (R285, R286), the holder's state as in Table 7.1, a full random-bits queue, receive
slots and pending bits clear; the scratchpad, the instruction store and its tags stay. -/
def startCore (p : Panel) (r : Run) (c : CoreSt) (core rank : Nat) : CoreSt :=
  let fw := c.ctx 3
  let n := p.ranks.length
  let helpers := (List.range p.help).map fun j => (j + 1, strandCtx p r (n + n * j + rank) (nth 0 p.hpcs (n * j + rank)) .ready)
  let base := (0, strandCtx p r rank (nth 0 p.pcs rank) .running) :: helpers
  { CoreSt.idle with
    ctxs := if core = 0 then (base.filter fun x => x.1 != 3) ++ (if fw = Ctx.idle then [] else [(3, fw)]) else base
    panel := some p.pid
    mctl := BitVec.ofNat 64 p.trunc
    rq := ⟨8, 0, r.seed, BitVec.ofNat 16 p.node, BitVec.ofNat 32 r.step, BitVec.ofNat 16 rank⟩
    sp := c.sp, spPoison := c.spPoison, istore := c.istore, ovtag := c.ovtag }

/-- Every overlay slot that a panel uses holds its overlay on a core (R289). -/
def Panel.tagsOk (p : Panel) (c : CoreSt) : Bool :=
  (List.range 4).all fun i => !bt p.ovmask i ||
    (let w := (spGet 0 c.ovtag i).toNat
     bt w 40 && fld w 0 32 == p.image.toNat && fld w 32 8 == nth 0 p.ovl i)

/-- Line 0 of each open HBM4E-source entry is staged, needs no read, or does not fit (R76). -/
def State.prefetched (s : State) (p : Panel) : Bool :=
  s.copies.all fun c => c.pid != some p.pid || c.e.srck != 0 || !c.opened ||
    (spGet none c.staged 0).isSome || c.srcState 0 != 0 || (c.nreq == 0 && decide (s.stagingUsed c.ap ≥ 16384))

/-- Conditions 1 to 5 of R288 on this package; a saved panel brings its own prefetch state (R292). -/
def State.readyToStart (s : State) (p : Panel) : Bool :=
  p.mine.all (fun x => p.tagsOk (s.core x.1.core) && (s.core x.1.core).panel.isNone)
    && !(s.walks.any fun w => w.pin && w.space == p.tenant)
    && (decide (p.pcyc > 0) || s.prefetched p) && s.ctlFld offPwrctl 15 1 == 1 && !s.dispHalt

/-- The phase condition of R288 and R347, for SCYC t: (t - PCYC + PHBIAS) mod 128 = 0, where a new panel has PCYC 0. -/
def Panel.phaseAt (p : Panel) (t : Nat) : Bool := (t + p.phbias + 127 * p.pcyc) % 128 == 0

/-- A placed panel that starts now. -/
def State.startsNow (s : State) (p : Panel) : Bool :=
  p.st == .placed && p.pcyc == 0 && p.phaseAt s.scyc && s.readyToStart p && (s.run? p.run).isSome &&
    (if p.hedge then p.annS == some s.scyc else true)

def State.nextStart (s : State) : Option Nat := (s.panels.find? s.startsNow).map (·.pid)

/-- Hedge panels whose start has not been announced, or whose conditions did not hold at the S announced: S at least 1,024 sc ahead, once the
other conditions hold (R288). From then on their first lines are checked 1,024 sc ahead of their PCYC (R78). -/
def State.announce (s : State) : State :=
  (s.panels.filter fun p => p.st == .placed && p.hedge).foldl (fun s p =>
    match (p.annS.filter fun t => decide (s.scyc ≤ t)) with
    | none =>
      if s.readyToStart p then
        let s1 := s.updPanel p.pid fun q => { q with annS := ((List.range 128).map (s.scyc + 1024 + ·)).find? p.phaseAt, lateAt := [] }
        if p.pcyc = 0 then s1.releaseStage p.pid 0 0 else s1
      else s.updPanel p.pid fun q => { q with annS := none, lateAt := [] }
    | some t =>
      let n := p.pcyc + (s.scyc + 1024 - t)
      if t ≤ s.scyc + 1024 ∧ !(s.lateFor p n).isEmpty then s.updPanel p.pid fun q => { q with lateAt := q.lateAt ++ [(n, none)] }
      else s) s

/-- PCYC 0 of a panel that is not frozen in it: entries that start, source reads and departures. -/
def State.firstCycle (s : State) (pid : Nat) : State :=
  ((s.startCopies pid 0).readPhaseOn fun c => c == .panel pid).moveLines pid 0

/-- A panel that has started: late lines and a power window may freeze it before its PCYC 0 (R78, R329). -/
def State.enterFirst (s : State) (pid : Nat) : State :=
  match s.panel? pid with
  | none => s
  | some p =>
    let late := if p.hedge then p.lateAt.flatMap fun x => s.lateFor p x.1 else s.lateFor p 0
    let s1 := late.foldl (fun s r => s.markCp r.cores csLATE) s
    let w := s.scyc / 1024
    let s2 := if s.powerFreezes p w then s1.updPanel pid fun p => p.addWindow s.scyc (some (1024 * (w + 1))) else s1
    let s3 := if p.hedge then s2.updPanel pid fun p => p.lateWindow s.scyc 0
      else if late.isEmpty then s2 else s2.updPanel pid fun p => p.addWindow s.scyc none
    let s4 := s3.updPanel pid fun p => p.settle s.scyc 0
    match s4.panel? pid with
    | some q => if q.frozen then s4 else s4.firstCycle pid
    | none => s4

/-- PANEL_START (R288). -/
def execPanelStart (panel : Nat) (s : State) : Out :=
  .next (match s.panel? panel with
    | none => s
    | some p =>
      if !s.startsNow p then s
      else match s.run? p.run with
        | none => s
        | some r =>
          let s1 := p.mine.foldl (fun s x => s.updCore x.1.core fun c => startCore p r c x.1.core x.2) s
          let s2 := s1.updPanel panel fun q =>
            { q with st := .running, startS := s.scyc, pcyc := 0, stage := 0, stageAt := [(0, 0)] }
          let s3 := s2.releaseStage panel 0 0
          let s4 : State := { s3 with runs := s3.runs.map fun x => if x.id = p.run then
            { x with prog := x.prog.zipIdx.map fun y => if y.2 = p.node then { y.1 with st := .running } else y.1 } else x }
          s4.enterFirst panel)

/-! ## The end of a panel and the freeing of its cores (R291, R336) -/

/-- An action concerns a core. -/
def Pend.involves (p : Pend) (core : Nat) : Bool :=
  p.own.core == core || (match p.act with
    | .land c _ _ _ _ => c == core
    | .rldReq c _ _ _ _ => c == core
    | .rstReq c _ _ => c == core
    | .nredRd _ _ _ cs _ _ _ => cs.contains core
    | _ => false)

/-- A packet's hop concerns a core: the one whose instruction it serves, or the one of the rank that sends it. -/
def Panel.hopOf (p : Panel) (core : Nat) (l : LinkUse) : Bool :=
  l.clk == .panel p.pid && (l.own.core == core || (match p.rank? l.rank with | some r => r.pkg == p.here && r.core == core | none => false))

/-- A copy's lines concern a core after this cycle: a timed one that has been released, or an untimed one of a helper. -/
def Panel.copyOn? (p : Panel) (core : Nat) (r : CopyRun) : Bool :=
  r.pid == some p.pid && !r.landedBy (p.pcyc + 1) && (r.cores.contains core || r.portCore == core || (r.cpy && r.own.core == core))
    && (!r.timed || r.rel.isSome)

/-- Nothing of a panel concerns a core after this cycle: its writes, packets, copies, units and helpers have ended (R291). -/
def State.coreDone (s : State) (p : Panel) (core : Nat) : Bool :=
  let c := s.core core
  !(s.pend.any fun x => x.clk == .panel p.pid && x.involves core)
    && !(s.links.any fun l => p.hopOf core l && decide (l.due > p.pcyc))
    && !(s.copies.any (p.copyOn? core))
    && !(s.queueReqs.any fun r => r.core == core && !isFwCtx core r.ctx)
    && decide (c.units.arrayEnd ≤ p.pcyc + 1)
    && c.ctxs.all fun x => x.1 == 0 || isFwCtx core x.1 || x.2.st == .idle || x.2.st == .ended || x.2.st == .trapped

/-- The cores that a panel which has ended leaves as the cycle ends: each is free from the next one on (R291). -/
def State.markIdle (s : State) : State :=
  { s with panels := s.panels.map fun p =>
      if p.st = .ended then { p with idle := (p.mine.map (·.1.core)).filter (s.coreDone p) } else p }

/-- The first PCYC in which a core of an ended panel may be freed (R291, R293). -/
def State.freeFrom (s : State) (p : Panel) (e : Nat) : Nat := if p.hedge then e + 40 + s.panelLat p else e + 1

/-- The core that is free now. -/
def State.nextFree (s : State) : Option Nat :=
  s.panels.findSome? fun p =>
    if (p.st == .ended && !p.frozen && (match p.endAt with | some e => decide (s.freeFrom p e ≤ p.pcyc) | none => false)
          && p.mine.any fun x => (s.core x.1.core).panel == some p.pid && p.idle.contains x.1.core) then
      (p.mine.find? fun x => (s.core x.1.core).panel == some p.pid && p.idle.contains x.1.core).map fun x => x.1.core
    else if p.st == .failed && (match p.annS with | some f => decide (s.scyc > f) | none => true) then
      (p.mine.find? fun x => (s.core x.1.core).panel == some p.pid).map fun x => x.1.core
    else none

/-- A panel without cores leaves; its node has finished, or failed. -/
def State.dropPanel (s : State) (p : Panel) : State :=
  if p.mine.any fun x => (s.core x.1.core).panel == some p.pid then s
  else
    let s1 : State := { s with panels := s.panels.filter fun q => q.pid != p.pid }
    { s1 with runs := s1.runs.map fun r => if r.id = p.run then
        { r with prog := r.prog.zipIdx.map fun x =>
            if x.2 = p.node ∧ x.1.st ≠ .failed then { x.1 with st := .finished } else x.1 } else r }

/-- CORE_FREE (R291). -/
def execCoreFree (core : Nat) (s : State) : Out :=
  .next (match s.panelOn core with
    | none => s
    | some p =>
      if s.nextFree = some core then (s.releaseCore core).dropPanel p else s)

/-- A panel whose last holder has executed END in this cycle ends (R291): entries not released never start; pending bits and receive slots
clear. -/
def State.endPanels (s : State) : State :=
  (s.panels.filter fun p => p.st == .running && (List.range p.ranks.length).all fun r => p.ends.any fun e => e.1 == r).foldl (fun s p =>
    let e := (p.ends.map (·.2)).foldl max 0
    let s1 := p.mine.foldl (fun s x => s.updCore x.1.core fun c => { c with recv := [], spPend := [] }) s
    let s2 : State := { s1 with copies := s1.copies.filter fun c => c.pid != some p.pid || !c.timed || c.rel.isSome || c.cpy }
    s2.updPanel p.pid fun q => { q with st := .ended, endAt := some e, saveMask := [] }) s

/-! ## Freezing (R324) -/

/-- FREEZE_BEGIN (R324, R325) of a window that lasts until FREEZE_END: the PCYC that comes next is held back; a panel that waits for its
start keeps the window, which may cover its S (R329). -/
def execFreezeBegin (panel : Nat) (s : State) : Out :=
  .next (s.updPanel panel fun p =>
    if p.st = .running ∨ p.st = .ended then p.hold s.scyc (some openStop)
    else if p.st = .placed then p.addWindow s.scyc (some openStop) else p)

/-- FREEZE_END (R324): the condition of the window is met in this cycle; the window ends at the first F + 128 j, j at least 1, that is not
before it, for a hedge panel not before 1,024 sc later (log 32). -/
def execFreezeEnd (panel : Nat) (s : State) : Out :=
  .next (s.updPanel panel fun p =>
    { p with frz := p.frz.map fun w => if w.stop = some openStop then
        { w with stop := some (w.start + up128 (s.scyc + (if p.hedge then 1024 else 0) - w.start)) } else w })

/-- The copies as a stage counter that rises in PCYC n releases them (R70). -/
def State.stageAhead (s : State) (p : Panel) (n : Nat) : State :=
  if (s.pend.any fun x => x.clk == .panel p.pid && x.due == n && x.act == .stage)
      || s.agenda.any fun x => x.clk == .panel p.pid && x.due == n && x.ev == .remoteStage p.pid then s.releaseStage p.pid (p.stage + 1) n else s

/-- The PCYCs before n + 1,024 in which a line of the entries released in PCYC n departs without standing in the staging buffer (R78). -/
def State.lateLines (s : State) (pid n : Nat) : List (CopyRun × Nat) :=
  (s.copies.filter fun r => r.live pid && !r.cpy && r.rel == some n && r.e.srck == 0).flatMap fun r =>
    (((List.range r.e.lines).filter fun i => r.srcState i == 0 && (spGet none r.staged i).isNone).map r.readAt).eraseDups.filterMap fun m =>
      if n ≤ m ∧ m < n + 1024 then some (r, m) else none

/-- The panel that an entry of the agenda freezes or lets go. -/
def State.freezes (s : State) (x : Sched) : Option Nat :=
  match x.ev with
  | .instr (.freezeBegin p) => some p
  | .instr (.freezeEnd p) => some p
  | .instr (.lateWarning run) => (s.copy? run).bind (·.pid)
  | _ => none

/-- The steps FREEZE_BEGIN, FREEZE_END and LATE_WARNING; they take place as a cycle begins, before anything of their panel. -/
def State.freezeBy (s : State) (x : Sched) : State :=
  let out := match x.ev with
    | .instr (.freezeBegin p) => execFreezeBegin p s
    | .instr (.freezeEnd p) => execFreezeEnd p s
    | .instr (.lateWarning run) => execLateWarning run s
    | _ => .next s
  match out with
  | .next t => { t with agenda := t.agenda.erase x }
  | .fault _ => s
  | .refused _ => s

/-- Those of them that are due for a panel, in this cycle or at the PCYC n that comes next. -/
def State.freezeEntries (s : State) (pid n : Nat) : State :=
  (s.agenda.filter fun x => s.freezes x == some pid &&
    (match x.clk with | .scyc => decide (x.due ≤ s.scyc) | .panel q => q == pid && decide (x.due ≤ n))).foldl State.freezeBy s

/-- A panel that waits for its start, as the windows of other packages leave it (R329). -/
def State.waitStep (s : State) (pid : Nat) : State :=
  match s.panel? pid with
  | none => s
  | some p0 => (s.freezeEntries pid p0.pcyc).updPanel pid fun p => if p.frz.isEmpty then p else p.settle s.scyc p.pcyc

/-- The PCYCs ahead in which a hedge panel that comes to PCYC n will be late, and the copies that make it so (R78). -/
def State.lateAhead (s : State) (p : Panel) (n : Nat) : List (CopyRun × Nat) :=
  (s.lateFor p (n + 1024)).map (fun r => (r, n + 1024)) ++ s.lateLines p.pid n

/-- Late lines and late write-backs of PCYC n: a panel on one package is held back by a window that stays open until they are ready, a hedge
panel by the window decided 1,024 PCYC before (R78, R324). `came` says that the panel comes to n now. -/
def State.lateStep (s : State) (p0 : Panel) (n : Nat) (came : Bool) : State :=
  let t := s.scyc
  let s0 := s.stageAhead p0 n
  let late := s0.lateFor p0 n
  let s1 :=
    if p0.hedge then
      let ahead := if came then s0.lateAhead p0 n else []
      (ahead.foldl (fun s x => s.markCp x.1.cores csLATE) s).updPanel p0.pid fun p =>
        let l : List (Nat × Option Nat) := p.lateAt ++ ((ahead.map (·.2)).eraseDups.filter fun m => p.lateAt.all fun x => x.1 != m).map fun m => (m, none)
        let q : Panel :=
          { p with lateAt := l.map fun x => if x.2.isNone && (s0.lateFor p0 x.1).isEmpty then (x.1, some t) else x }
        q.lateWindow t n
    else if late.isEmpty || p0.frz.any (fun w => w.stop.isNone) then s
    else late.foldl (fun s r => s.markCp r.cores csLATE) (s.updPanel p0.pid fun p => p.addWindow t none)
  if late.isEmpty then
    s1.updPanel p0.pid fun p => { p with frz := p.frz.map fun w =>
      if w.stop.isNone ∧ w.start < t then
        { w with stop := some (w.start + up128 (t + (if p.hedge then 1024 else 0) - w.start)) } else w }
  else s1

/-- A panel at the start of SCYC t, with PCYC n to come: what freezes it, and whether n takes place (R78, R324, R329). -/
def State.freezeStep (s : State) (pid : Nat) : State :=
  match s.panel? pid with
  | none => s
  | some p0 =>
    if p0.st ≠ .running ∧ p0.st ≠ .ended then s
    else
      let t := s.scyc
      let n := p0.nextCyc
      let s1 := s.freezeEntries pid n
      let s2 := if t % 1024 = 0 && s1.powerFreezes p0 (t / 1024) then
          s1.updPanel pid fun p => p.addWindow t (some (t + 1024)) else s1
      let s3 := match s2.panel? pid with
        | some p => s2.lateStep p n (!p0.frozen)
        | none => s2
      s3.updPanel pid fun p => p.settle t n

/-! ## Power and temperature (R329, R330) -/

/-- The thermal limit holds FDUTY at 7 (R330): kept as a live value beside TEMP. -/
def State.hot (s : State) : Bool := spGet none s.live offTemp == some 1

def State.setHot (s : State) (on : Bool) : State := { s with live := spPut none s.live offTemp (if on then some 1 else none) }

/-- The cycles at which a power interval of 100 µs ends (R329, log 109). -/
def powerInterval : Nat := 175000

/-- POWER_INTERVAL_END (R329): `avg` is the mean power in mW of the interval that ends in this cycle; AVG is the mean of the last ten. -/
def execPowerIntervalEnd (avg : BitVec 32) (s : State) : Out :=
  let lim := 1000 * s.ctlFld offPwrctl 0 12
  let f := s.ctlFld offPwrctl 12 3
  let a := avg.toNat
  let f1 := if a > lim then min 7 (f + 1) else if 100 * a < 95 * lim then f - 1 else f
  let h := (s.power10 ++ [a]).drop ((s.power10.length + 1) - 10)
  let s1 : State := { s with power10 := h }
  .next (if s.scyc % powerInterval ≠ 0 then s
    else ((s1.ctlSet offPwravg (BitVec.ofNat 64 (h.foldl (· + ·) 0 / 10))).setFduty (if s.hot then 7 else f1) s.scyc).setAdmit)

/-- The parts of power windows in which the thermal limit freezes a panel though FDUTY stood lower 1,024 sc before (R330, Table 17.2): the rest
of the window of its first frozen cycle, and for a panel on one package the next window too. -/
def thermalWindows (t : Nat) (p : Panel) : List (Nat × Nat) :=
  let f := if p.hedge then (t + 1024 + 127) / 128 * 128 else (t / 128 + 1) * 128
  let w := f / 1024
  let hit := fun (w : Nat) => decide ((w + p.startS / 1024) % 8 < 7)
  (if hit w then [(f, 1024 * (w + 1))] else [])
    ++ (if !p.hedge && decide (1024 * (w + 1) < t + 1024) && hit (w + 1) then [(1024 * (w + 1), 1024 * (w + 2))] else [])

/-- FDUTY 7 at once (R330). -/
def State.thermalFreeze (s : State) : State :=
  { s with panels := s.panels.map fun p =>
      if p.st = .running ∨ p.st = .ended then (thermalWindows s.scyc p).foldl (fun p x => p.addWindow x.1 (some x.2)) p else p }

/-- The cycles at which the temperature is sampled (Table 17.3, log 109). -/
def temperatureInterval : Nat := 8192

/-- TEMPERATURE_SAMPLE (R328, R330). -/
def execTemperatureSample (tj : BitVec 8) (s : State) : Out :=
  let s1 := s.ctlSetFld offTemp 0 8 tj.toNat
  .next (if s.scyc % temperatureInterval ≠ 0 then s
    else if tj.toNat ≥ 120 then s1.thermalOff
    else if tj.toNat ≥ s.ctlFld offTemp 16 8 then
      (if s.hot then s1 else ((s1.setHot true).setFduty 7 s.scyc).thermalFreeze).setAdmit
    else if tj.toNat < s.ctlFld offTemp 8 8 then (s1.setHot false).setAdmit else s1.setAdmit)

end Sys2Proof.Machine
end

