-- ==== Sys2Proof/Machine/Partition.lean ====
section
/-!
DEFINITION. A change of the hard partitions (19, R354, R355).
-/
namespace Sys2Proof.Machine

/-! ## The checks (R354) -/

/-- The quarters of partition j by a field of MEMIL: EN and SPAN. -/
def spanQuarters (j f : Nat) : List Nat := if f % 2 = 1 then (List.range (spanNq (f / 2 % 4))).map (j + ·) else []

/-- The shadow field of MEMIL j or NETBND. -/
def State.shadow (s : State) (off : Nat) : Nat := s.ctlFld off 0 3

/-- Quarters present on the package. -/
def State.quarters (s : State) : Nat := if s.variant = .d8h then 2 else 4

/-- The partitions whose quarters differ between the live fields and the shadows. -/
def State.involved (s : State) : List Nat :=
  (List.range 4).filter fun j => spanQuarters j (s.liveGet (offMemil j)) != spanQuarters j (s.shadow (offMemil j))

/-- The quarters of the involved partitions, live or shadow. -/
def State.involvedQuarters (s : State) : List Nat :=
  (List.range 4).filter fun q => s.involved.any fun j =>
    (spanQuarters j (s.liveGet (offMemil j))).contains q || (spanQuarters j (s.shadow (offMemil j))).contains q

/-- The shadow partition that holds quarter q. -/
def State.shadowPart (s : State) (q : Nat) : Option Nat :=
  (List.range 4).find? fun j => (spanQuarters j (s.shadow (offMemil j))).contains q

/-- GEOMETRY (Table 19.4). -/
def State.geometryBad (s : State) : Bool :=
  let n := s.quarters
  let all := (List.range 4).flatMap fun j => spanQuarters j (s.shadow (offMemil j))
  (List.range 4).any (fun j =>
    let f := s.shadow (offMemil j)
    f / 2 == 3 || (f % 2 == 1 && j % spanNq (f / 2) != 0))
    || (List.range 4).any (fun q => all.count q != if q < n then 1 else 0) || all.any (fun q => decide (q ≥ n))

/-- BOUNDARY (Table 19.4). -/
def State.boundaryBad (s : State) : Bool :=
  let b := s.shadow offNetbnd
  let apart := fun (q : Nat) => decide (q + 1 < s.quarters) && s.shadowPart q != s.shadowPart (q + 1)
  bt b 0 != apart 0 || bt b 1 != apart 2 || bt b 2 != !((List.range 4).any fun j => (spanQuarters j (s.shadow (offMemil j))).length == 4)

/-- The lowest busy queue of the involved quarters. -/
def State.busyQueue (s : State) : Option Nat :=
  (s.involvedQuarters.flatMap fun q => (List.range 512).map (512 * q + ·)).find? fun i =>
    let n := s.queueDesc i
    decide (descCount n > 0) || descWait n

/-- RUN (Table 19.4). -/
def State.runBusy (s : State) : Bool :=
  (List.range 16).any fun t => s.involved.contains (s.tenPart t) && (s.activeRun t).isSome

/-- CORE (Table 19.4). -/
def State.coreBusy (s : State) : Bool :=
  (s.cores.any fun e => s.involvedQuarters.contains (quarterOf e.1) && (e.2.panel.isSome || e.2.ctxs.any fun x =>
      !isFwCtx e.1 x.1 && (x.2.st == .ready || x.2.st == .running || x.2.st == .blocked)))
    || s.involved.any fun j => s.slotsUsed j != 0

/-- TENANT (Table 19.4). -/
def State.tenantLost (s : State) : Bool :=
  (List.range 16).any fun t => s.ctlFld (offTencfg t) 0 1 == 1 && s.shadow (offMemil (s.tenPart t)) % 2 == 0

/-- SHOOT (Table 19.4). -/
def State.shootBusy (s : State) : Bool :=
  s.involved.any fun j => s.ctlFld (offSdctl j) 1 1 == 1 || s.ctlFld (offRcinv j) 6 1 == 1

/-- The first check that fails, with QNUM (Table 19.4), which is 0 unless a queue is busy (log 26). -/
def State.partCheck (s : State) : Option (Nat × Nat) :=
  if s.geometryBad then some (2, 0)
  else if s.boundaryBad then some (3, 0)
  else match s.busyQueue with
    | some q => some (4, q)
    | none =>
      if s.runBusy then some (5, 0) else if s.coreBusy then some (6, 0) else if s.tenantLost then some (7, 0)
      else if s.shootBusy then some (8, 0) else none

/-- PARTCTL_GO (R354); the launch records of its cycle are taken before it (the order of the agenda). -/
def execPartctlGo (s : State) : Out :=
  .next (if s.ctlFld offPartctl 1 1 = 1 then s
    else match s.partCheck with
      | some (code, q) =>
        (s.ctlSetFld offPartctl 2 4 code).ctlSetFld offPartctl 16 11 q
      | none =>
        let rho := s.scyc + 64
        let parts := s.involved
        let c : PartChange :=
          { rho := rho, parts := parts, after := parts.filter fun j => s.shadow (offMemil j) % 2 == 1, quarters := s.involvedQuarters }
        let s1 := ((s.ctlSetFld offPartctl 1 1 1).ctlSetFld offPartctl 2 4 1).ctlSetFld offPartctl 16 11 0
        { s1 with partChange := some c }.schedI .scyc rho .partitionChange)

/-! ## The change (R355) -/

/-- The live fields take the shadow values. -/
def State.takeShadows (s : State) : State :=
  ([offMemil 0, offMemil 1, offMemil 2, offMemil 3, offNetbnd]).foldl (fun s off =>
    s.setLive off (BitVec.ofNat 64 (s.shadow off))) s

/-- The three blocks of partition j at their reset values. -/
def State.resetBlocks (s : State) (j : Nat) : State :=
  let mine := fun (off : Nat) => decide (offPart j ≤ off) && decide (off < offPart j + 0x10000)
  { s with
    ctl := s.ctl.filter fun e => !mine e.1
    live := s.live.filter fun e => !mine e.1
    faq := spPut [] s.faq j [] }

/-- Maintenance and self-tests of the involved quarters begin afresh. -/
def State.resetMaintenance (s : State) (quarters parts : List Nat) : State :=
  { s with
    pchs := s.pchs.filter fun e => !quarters.contains (e.1 / 192)
    tests := s.tests.filter fun t => !parts.contains t.1 }

/-- The mapping and the contents of some quarters kept for the host accesses accepted before now, which perform under them in their own slots
(R355). -/
def State.keepMap (s : State) (quarters : List Nat) : State :=
  let mine := fun (line : Nat) => quarters.contains (line / 0x60000000)
  if s.hostq.isEmpty then s
  else
    let old : OldMap :=
      { before := s.nextId, quarters := quarters, live := s.live, undef := s.hbmUndef
        hbm := s.hbm.filter fun e => mine (e.1 / 64)
        poison := s.hbmPoison.filter fun e => mine e.1
        faulty := s.hbmFaulty.filter fun e => mine e.1 }
    { s with olds := s.olds ++ [old], nextId := s.nextId + 1 }

/-- PARTITION_CHANGE (R355). -/
def execPartitionChange (s : State) : Out :=
  .next (match s.partChange with
    | none => s
    | some c =>
      if c.rho ≠ s.scyc then s
      else
        let tens := (List.range 16).filter fun t => c.parts.contains (s.tenPart t)
        let w : Shoot := { parts := c.after, tenants := tens, fw := true, group := 0, count := 0, rho := c.rho, drain := none }
        let d := s.drainOf w
        let s1 := ((s.keepMap c.quarters).revokeHandles tens false true 0 0).revoke tens true false 0 0
        let s2 := c.quarters.foldl (fun s q => s.makeUndef (0x1800000000 * q) (0x1800000000 * (q + 1)) none) s1.takeShadows
        let s3 := (c.after.foldl State.resetBlocks s2).resetMaintenance c.quarters c.parts
        let s4 := c.after.foldl (fun s j =>
          (s.ctlSet (offSdrho j) (BitVec.ofNat 64 c.rho)).ctlSetFld (offSdctl j) 2 1 (if d.isEmpty then 0 else 1)) s3
        let s5 := ((s4.ctlSetFld offPartctl 1 1 0).ctlSetFld offPartctl 2 4 0).ctlSet offPartrho (BitVec.ofNat 64 c.rho)
        { s5 with
          partChange := none
          shoots := s5.shoots ++ (if d.isEmpty then [] else [{ w with drain := some d }]) }.msix 18)

end Sys2Proof.Machine
end

