-- ==== Sys2Proof/Machine/Moved.lean ====
section
/-!
DEFINITION. A saved panel at its new place: its handles after a change of epoch, and what of it names cores and access processors (04 R63; 05
R85; 18 R347).
-/
namespace Sys2Proof.Machine

/-- The cores of a panel on this package. -/
def Panel.cores (p : Panel) : List Nat := p.mine.map (·.1.core)

/-! ## Handles after a change of epoch (R63) -/

/-- A saved handle re-walked: kept with GEN and RES refreshed, or revoked. -/
def State.rewalk (s : State) (space : Nat) (h : Handle) : Handle :=
  if !h.v || h.pin then h
  else
    let w := xlatSpan s space (fun g => some (s.leafAt (s.walkLeaf space g))) (65536 * h.vbase.toNat) (h.npgm1.toNat + 1)
    if w.v && w.sp == h.sp && w.pbase == h.pbase && w.w == h.w && w.npgm1 == h.npgm1 && w.valid == h.valid then
      { h with gen := w.gen, res := w.res }
    else { h with v := false, hst := 5 }

/-- The handles of a saved core re-walked. -/
def State.rewalkCore (s : State) (space core : Nat) (c : CoreSt) : CoreSt :=
  { c with ctxs := c.ctxs.map fun x =>
      if isFwCtx core x.1 then x else (x.1, { x.2 with h := x.2.h.map fun y => (y.1, s.rewalk space y.2) }) }

/-- A saved panel's handles, compared with the tenant's epoch as it is now; copies that have begun and CPYs keep theirs, and lines of the
others that wait to be written are dropped with a destination that is revoked (R62). -/
def State.rewalkSaved (s : State) (v : Saved) : Saved :=
  let e := s.epochOf v.panel.tenant
  if v.epoch = e then v
  else
    let w := s.rewalk v.panel.tenant
    let kept := fun (c : CopyRun) => c.begun || c.cpy
    let lost := fun (c : CopyRun) => !kept c && c.e.dstk != 0 && (w c.dH).v != c.dH.v
    { v with
      epoch := e
      cores := (v.panel.cores.zip v.cores).map fun x => s.rewalkCore v.panel.tenant x.1 x.2
      copies := v.copies.map fun c =>
        if kept c then c else { c with sH := w c.sH, dH := w c.dH, moved := if lost c then [] else c.moved }
      pend := v.pend.filter fun x => match x.act with
        | .lsLand _ _ _ run => !v.copies.any fun c => c.id == run && lost c
        | _ => true }

/-- The groups whose page tables the re-walk of a saved panel reads (R63). -/
def State.rewalkGroups (s : State) (v : Saved) : List Nat :=
  if v.epoch = s.epochOf v.panel.tenant then []
  else
    let g := fun (h : Handle) => if h.v && !h.pin then [h.vbase.toNat / 64] else []
    ((v.cores.flatMap fun c => c.ctxs.flatMap fun x => x.2.h.flatMap fun y => g y.2)
      ++ v.copies.flatMap fun c => if c.begun || c.cpy then [] else g c.sH ++ g c.dH).eraseDups

/-- What those reads log (R44, R47). -/
def State.rewalkNotes (s : State) (v : Saved) : State :=
  (s.rewalkGroups v).foldl (fun s g => s.walkNotes v.panel.tenant g) s

/-! ## The new placement (R85, R347) -/

/-- Where a core of the saved panel is now. -/
def movedCore (old new : Panel) (c : Nat) : Nat :=
  match (old.cores.zip new.cores).find? fun x => x.1 == c with
  | some x => x.2
  | none => c

/-- An access processor after the move. -/
def movedAp (old new : Panel) (ap : Nat) : Nat := ((ap + (new.dy - old.dy)) % 16).toNat

def Own.moved (m : Nat → Nat) (o : Own) : Own := { o with core := m o.core }

/-- The cores and access processors that an action names. -/
def Act.moved (m : Nat → Nat) (ap : Nat → Nat) : Act → Act
  | .land c a bs p k => .land (m c) a bs p k
  | .rldReq c a n lat ld => .rldReq (m c) a n lat ld
  | .rstReq c a bs => .rstReq (m c) a bs
  | .nredRd n g0 k cs bad an x => .nredRd n g0 k (cs.map m) (bad.map m) an x
  | .pendSet line n kind idx a => .pendSet line n kind idx (if kind = 0 then ap a else a)
  | .arm f r => .arm f { r with own := r.own.moved m }
  | a => a

/-- A copy at the new placement. -/
def movedCopy (old new : Panel) (c : CopyRun) : CopyRun :=
  let e := c.e.place (new.dx - old.dx) (new.dy - old.dy)
  { c with e := e, ap := e.dgrp, own := c.own.moved (movedCore old new) }

/-- A core as a resumed panel finds it: the saved fields, a full random-bits queue, the new core's instruction store. -/
def resumedCore (old new : Panel) (saved fresh : CoreSt) (oldCore newCore : Nat) : CoreSt :=
  let m := movedCore old new
  let mine := saved.ctxs.filter fun x => !isFwCtx oldCore x.1
  { saved with
    ctxs := if newCore = 0 then spPut Ctx.idle mine 3 (fresh.ctx 3) else mine
    panel := some new.pid
    rq := { saved.rq with held := 8 }
    istore := fresh.istore
    ovtag := fresh.ovtag
    spPend := saved.spPend.map fun x => (x.1, x.2.map fun y => (y.1, y.2.1, if y.1 = 0 then movedAp old new y.2.2 else y.2.2))
    recv := saved.recv.map fun x => (x.1, x.2.map fun r => { r with own := r.own.moved m }) }

/-- A saved panel placed again: its copies stand at the new place, so that their reads may come (R85, R292); its cores wait for their images. -/
def State.bringCopies (s : State) (pid : Nat) : State :=
  match s.panel? pid, s.saved.find? fun v => v.panel.pid == pid with
  | some p, some v =>
    let v1 := s.rewalkSaved v
    let s := s.rewalkNotes { v with cores := [] }
    { s with
      copies := s.copies ++ v1.copies.map (movedCopy v.panel p)
      chans := s.chans.map fun x => if x.2.2.1 = pid then (movedAp v.panel p x.1, x.2) else x
      saved := s.saved.map fun x => if x.panel.pid = pid then { x with copies := [] } else x }
  | _, _ => s

end Sys2Proof.Machine
end

