-- ==== Sys2Proof/Machine/Runs.lean ====
section
/-!
DEFINITION. Images, patterns, panel records and copy schedules as the dispatcher reads them, their checks, and the start of a run (08 R157,
R158; 15 R286, R287; 16 R301, R304 to R306, R313).
-/
namespace Sys2Proof.Machine

/-! ## Reads of a tenant's memory (R301, R308) -/

/-- A read that may change the span cache, and may fail. -/
def thenRead {α β : Type} (r : State × Option α) (k : State → α → State × Option β) : State × Option β :=
  match r.2 with
  | some x => k r.1 x
  | none => (r.1, none)

/-- The leaf block of a group, through the span cache of die 0; a miss walks the page table (R308). -/
def State.dispLeaf (s : State) (space group : Nat) : State × List (BitVec 128) :=
  let s1 := match s.spanFind 0 space group with
    | some _ => s.spanUse 0 space group
    | none => s.spanRead 0 space group false
  (s1, match s1.spanFind 0 space group with | some e => e.leaf | none => List.replicate 64 0)

/-- A line of HBM4E or of the latent store, with its tag, read by the dispatcher. -/
def State.frameLine (s : State) (t : Nat) (sp : Bool) (frame off : Nat) : State × Line :=
  if sp then
    let p : LsAddr := ⟨frame / 2 ^ 15 % 2, frame % 2 ^ 15 * 65536 + off⟩
    (s, ⟨lineOf (s.lsBytes p 64), s.lsTag p, false⟩)
  else
    let a := frame * 65536 + off
    let part := (s.partOfAddr a).getD 0
    if s.lineParked a then (s.faqLog part 3 (some a) a (some t), ⟨0, true, false⟩)
    else s.readLine part a (some t)

/-- The line at a virtual address of a tenant, when it can be read: translated, resident and without poison. -/
def State.vaLine (s : State) (t va : Nat) : State × Option (List Byte) :=
  if !bt (s.rootOf t).toNat 0 then (s, none)
  else
    let page := va / 65536 % 2 ^ 32
    let d := s.dispLeaf t (page / 64)
    let p := nth 0 d.2 (page % 64)
    if !d.1.pteOk t p || (!bt p.toNat 2 && !bt p.toNat 3) then (d.1, none)
    else
      let l := d.1.frameLine t (bt p.toNat 2) (fld p.toNat 16 32) (va % 65536)
      (l.1, if l.2.poison then none else some (lineBytes l.2.data))

/-- Consecutive lines. -/
def State.vaLines (s : State) (t : Nat) : Nat → Nat → State × Option (List Byte)
  | 0, _ => (s, some [])
  | k + 1, va => thenRead (s.vaLine t va) fun s1 l => thenRead (s1.vaLines t k (va + 64)) fun s2 m => (s2, some (l ++ m))

/-- n bytes at a virtual address of a tenant. -/
def State.vaRead (s : State) (t va n : Nat) : State × Option (List Byte) :=
  if n = 0 then (s, some [])
  else thenRead (s.vaLines t ((va + n + 63) / 64 - va / 64) (va / 64 * 64)) fun s1 l => (s1, some ((l.drop (va % 64)).take n))

/-! ## Images (R157, R158) -/

/-- An image's header and section table. -/
structure Image where
  va : Nat
  id : BitVec 32
  caps : Nat
  secs : List (List Byte)
  deriving DecidableEq, Repr

/-- A list cut into pieces of n bytes. -/
def chunks (n : Nat) : Nat → List Byte → List (List Byte)
  | 0, _ => []
  | k + 1, l => l.take n :: chunks n k (l.drop n)

/-- The image at a virtual address; none where it cannot be read, or its MAGIC or VERSION is wrong. -/
def State.readImage (s : State) (t va : Nat) : State × Option Image :=
  thenRead (s.vaRead t va 64) fun s1 h =>
    if h.take 4 ≠ [0x48#8, 0x58#8, 0x49#8, 0x01#8] ∨ fieldAt h 4 2 ≠ 1 then (s1, none)
    else
      let n := fieldAt h 6 2
      thenRead (s1.vaRead t (va + fieldAt h 16 8) (32 * n)) fun s2 tab =>
        (s2, some ⟨va, BitVec.ofNat 32 (fieldAt h 8 4), fieldAt h 24 8, chunks 32 n tab⟩)

/-- TYPE of a section; 0 for one that the image does not have. -/
def Image.type (i : Image) (sec : Nat) : Nat := fieldAt (nth [] i.secs sec) 0 1

/-- The bytes of a section. -/
def State.readSec (s : State) (t : Nat) (i : Image) (sec : Nat) : State × Option (List Byte) :=
  let e := nth [] i.secs sec
  s.vaRead t (i.va + fieldAt e 8 8) (fieldAt e 4 4)

/-- The CODE section of an overlay number. -/
def Image.codeSec (i : Image) (ovl : Nat) : Option Nat :=
  (List.range i.secs.length).find? fun k => i.type k == 1 && fieldAt (nth [] i.secs k) 1 1 == ovl

/-- Sections read one after the other. -/
def State.readSecs (s : State) (t : Nat) (i : Image) : List Nat → State × Option (List (Nat × List Byte))
  | [] => (s, some [])
  | k :: ks => thenRead (s.readSec t i k) fun s1 b => thenRead (s1.readSecs t i ks) fun s2 l => (s2, some ((k, b) :: l))

/-- CAPSREQ asks for more than CAPS has (R313 code 7). -/
def capsBeyond (req : Nat) (caps : Word) : Bool :=
  [(0, 9), (9, 4), (13, 2), (15, 6), (21, 3), (24, 3), (27, 1), (28, 36)].any fun f =>
    decide (fld req f.1 f.2 > fld caps.toNat f.1 f.2)

/-! ## Patterns (R305) -/

/-- A node record (Table 16.5). -/
def nodeOf (b : List Byte) : Node :=
  let b0 := fieldAt b 0 1
  { kind := fld b0 0 2, gated := bt b0 2, trset := bt b0 3, trunc := fld b0 4 3, npred := fieldAt b 2 2, tile := fieldAt b 4 2,
    gbind := fld (fieldAt b 6 1) 0 4, gcol := fld (fieldAt b 7 1) 0 6, psec := fieldAt b 8 2, csec := fieldAt b 10 2,
    ibind := fld (fieldAt b 12 1) 0 4, ilines := fieldAt b 13 1, olines := fieldAt b 14 1, ifmt := fld (fieldAt b 15 1) 0 2,
    ioff := fieldAt b 16 4, value := BitVec.ofNat 64 (fieldAt b 24 8), rmap := BitVec.ofNat 64 (fieldAt b 48 8),
    period := fieldAt b 56 2, kbound := fieldAt b 58 1, thresh := BitVec.ofNat 32 (fieldAt b 60 4) }

/-- A node record that breaks Table 16.5. -/
def nodeBad (b : List Byte) : Bool :=
  let n := nodeOf b
  bt (fieldAt b 0 1) 7 || decide (n.trunc > 4) || n.kind == 3 || (n.gated && n.kind != 0)
    || !zeroAt b 1 1 || fld (fieldAt b 6 1) 4 4 != 0 || fld (fieldAt b 7 1) 6 2 != 0 || fld (fieldAt b 12 1) 4 4 != 0
    || bt n.ilines 7 || bt n.olines 7 || fld (fieldAt b 15 1) 2 6 != 0 || n.ifmt == 3 || n.ioff % 64 != 0
    || !zeroAt b 20 4 || !zeroAt b 32 16 || !zeroAt b 59 1
    || (n.kind != 0 && n.psec != 0) || (n.kind != 2 && n.value != 0)
    || (!n.gated && (!zeroAt b 6 2 || !zeroAt b 12 8 || !zeroAt b 48 16))

/-- The nodes, the edges and the check of a PATTERN section (R305, R310). -/
structure Pattern where
  raw : List (List Byte)
  nodes : List Node
  edges : List (Nat × Nat)
  bad : Bool
  deriving DecidableEq, Repr

def patternOf (b : List Byte) : Pattern :=
  let n := fieldAt b 0 2
  let m := fieldAt b 2 2
  let raw := chunks 64 (min n 4096) (b.drop 32)
  let nodes := raw.map nodeOf
  let edges := (chunks 4 (min m 16384) (b.drop (32 + 64 * n))).map fun e => (fieldAt e 0 2, fieldAt e 2 2)
  let gates := (nodes.filter (·.gated)).map (·.gbind)
  { raw := raw, nodes := nodes, edges := edges
    bad := decide (n > 4096) || decide (m > 16384) || b.length != 32 + 64 * n + 4 * m || !zeroAt b 4 28
      || raw.any nodeBad
      || edges.any (fun e => decide (e.1 ≥ e.2) || decide (e.2 ≥ n))
      || decide (edges.eraseDups.length ≠ edges.length)
      || nodes.zipIdx.any (fun x => (edges.filter fun e => e.2 == x.2).length != x.1.npred)
      || decide (gates.eraseDups.length ≠ gates.length) }

/-! ## Panel records (R286) -/

/-- A panel record (Table 15.3). -/
def panelRecOf (sec : Nat) (b : List Byte) : PanelRec :=
  let n := min 16384 (fieldAt b 0 2)
  let h := min 3 (fieldAt b 2 1)
  let fl := fieldAt b 3 1
  { sec := sec, help := h, erchk := bt fl 0, hedge := bt fl 1, ovl := (List.range 4).map fun i => fieldAt b (4 + i) 1
    ovmask := fieldAt b 8 1
    ranks := (chunks 4 n (b.drop 32)).map fun e =>
      (fld (fieldAt e 1 1) 0 6, fieldAt e 0 1, BitVec.ofNat 16 (fieldAt e 2 2))
    hpcs := (chunks 2 (h * n) (b.drop (32 + 4 * n))).map fun e => BitVec.ofNat 16 (fieldAt e 0 2) }

/-- A panel record that breaks Table 15.3, or names a core twice. -/
def panelRecBad (b : List Byte) : Bool :=
  let r := panelRecOf 0 b
  let n := fieldAt b 0 2
  let h := fieldAt b 2 1
  n == 0 || decide (n > 16384) || decide (h > 3) || fld (fieldAt b 3 1) 2 6 != 0 || !zeroAt b 9 23
    || b.length != 32 + 4 * n + 2 * h * n
    || r.hedge != r.ranks.any (fun x => x.1 != 0)
    || fld r.ovmask 4 4 != 0
    || (List.range 4).any (fun i => bt r.ovmask i && nth 0 r.ovl i % 4 != i)
    || (chunks 4 n (b.drop 32)).any (fun e => fld (fieldAt e 1 1) 6 2 != 0 || fld (fieldAt e 2 2) 0 2 != 0)
    || r.hpcs.any (fun p => p.toNat % 4 != 0)
    || decide ((r.ranks.map fun x => (x.1, x.2.1)).eraseDups.length ≠ r.ranks.length)

/-! ## Translations (R287, R358) -/

/-- The core of a declared core under a translation; none off the mesh. -/
def shiftCore (decl : Nat) (dx dy : Int) : Option Nat :=
  let x := (decl % 16 : Int) + dx
  let y := (decl % 128 / 16 : Int) + dy
  if 0 ≤ x ∧ x < 16 ∧ 0 ≤ y ∧ y < 8 then some (decl / 128 * 128 + 16 * y.toNat + x.toNat) else none

/-- A translation keeps every rank on the mesh and in partition `part`, and off core 0 where R285 or R358 asks for it. -/
def State.transOk (s : State) (part : Nat) (r : PanelRec) (d : Int × Int) : Bool :=
  r.ranks.all fun x => match shiftCore x.2.1 d.1 d.2 with
    | none => false
    | some c => decide (c < s.ncores) && s.partOf (quarterOf c) == some part && !(c == 0 && (r.help == 3 || bt r.ovmask 3))

/-- Translations by dy, then dx. -/
def translations : List (Int × Int) :=
  (List.range 15).flatMap fun (j : Nat) => (List.range 31).map fun (i : Nat) => ((i : Int) - 15, (j : Int) - 7)

/-! ## Copy schedules (R67, R69, R306) -/

/-- The bits of an entry; what the section does not hold reads as 0 (log 127). -/
def entriesOf (b : List Byte) : List Nat := (chunks 32 (min 4096 (fieldAt b 0 2)) (b.drop 32)).map leNat

/-- A schedule's header breaks R67; the section's size is no part of Table 5.2 (log 127). -/
def schedHeaderBad (b : List Byte) : Bool :=
  let n := fieldAt b 0 2
  let h := fld (fieldAt b 2 1) 0 3
  decide (n > 4096) || h == 0 || decide (h > 4) || fld (fieldAt b 2 1) 3 5 != 0 || !zeroAt b 3 29

/-- A handle endpoint fails the rows of Table 4.4 that the launch refuses: RANGE and space mismatch. An invalid handle or page is left to
the access processor (R59, R62). -/
def endpointBad (h : Handle) (o n : Nat) (lsp : Bool) : Bool :=
  h.v && (decide (o + n > 65536 * (h.npgm1.toNat + 1)) || h.sp != lsp)

/-- Reason 8 of an entry against the run's bindings. -/
def entrySpanBad (bind : Sparse Handle) (e : CopyEntry) : Bool :=
  let h := fun k => spGet Handle.zero bind k
  (e.srck < 2 && endpointBad (h e.sh) e.soff (64 * e.lines) (e.srck == 1))
    || ((e.dstk == 1 || e.dstk == 2) && endpointBad (h e.dh) e.doff (64 * e.lines) (e.dstk == 1))

/-- The lowest reason of an entry: `r` is the lowest but 8. -/
def withSpan (r : Option Nat) (span : Bool) : Option Nat :=
  match r with
  | some n => if span && decide (8 < n) then some 8 else some n
  | none => if span then some 8 else none

/-- The first entry, from index `i` on, that a panel's schedule is refused for, and its reason (Table 5.2). -/
def schedFault (r : PanelRec) (bind : Sparse Handle) : List Nat → Nat → Nat → Option (Nat × Nat)
  | [], _, _ => none
  | n :: ns, stg, i =>
    let e := CopyEntry.ofNat n
    match withSpan (entryReason n (some (r.ranks.map fun x => (x.1, x.2.1))) r.hedge none (decide (e.stg < stg))) (entrySpanBad bind e) with
    | some why => some (i, why)
    | none => schedFault r bind ns e.stg (i + 1)

/-- The endpoints that a COPY node allows (R306). -/
def copyNodeOk (e : CopyEntry) : Bool := (e.srck == 0 && e.dstk == 1) || (e.srck == 1 && e.dstk == 2)

/-- The reason for which an entry of a COPY node is refused with CSENTRY (R69): of its fields, those that R306 does not ignore (log 25). -/
def copyNodeReason (bind : Sparse Handle) (n : Nat) : Option Nat :=
  let e := CopyEntry.ofNat n
  if entryReserved n then some 1
  else if e.rate = 3 ∨ e.srck = 3 ∨ e.dstk = 3 then some 3
  else if (e.srck = 1 ∧ e.dstk = 1) ∨ (e.srck = 0 ∧ e.dstk = 2) then some 4
  else if e.rate ≠ 0 ∧ (e.srck = 1 ∨ e.dstk = 1) then some 5
  else if e.rangeBad then some 7
  else if entrySpanBad bind e then some 8
  else none

/-- The first entry of a COPY node that is refused, and its reason. -/
def copyNodeFault (bind : Sparse Handle) (l : List Nat) : Option (Nat × Nat) :=
  l.zipIdx.findSome? fun x => (copyNodeReason bind x.1).map fun why => (x.2, why)

/-! ## NRED and NBC words (R203) -/

/-- The E words of a code section: headers are followed as in R120; a header that breaks R124 ends the search. -/
def eWords : Nat → Bool → List Nat → List Nat
  | 0, _, _ => []
  | _, _, [] => []
  | k + 1, main, h :: ws =>
    if headerBad main 0 h then []
    else if main && fld h 0 13 == 0 then eWords k true ws
    else
      let own := (headerPlan h).filter fun p => !p.2.2
      ((own.zip ws).filter fun x => x.1.1 == 4).map (·.2) ++ eWords k (bt h 31) (ws.drop own.length)

/-- Code with an NRED or NBC word whose n is 0 or above the panel's size. -/
def nredBad (n : Nat) (code : List Byte) : Bool :=
  (eWords (code.length / 4 + 1) true ((chunks 4 (code.length / 4) code).map leNat)).any fun w =>
    (w / 2 ^ 26 == 0xA || w / 2 ^ 26 == 0xB) && (fld w 0 7 == 0 || decide (fld w 0 7 > n))

/-! ## Validation (R304, R313) -/

/-- What the dispatcher reads of a run's image. -/
structure Loaded where
  image : Image
  pat : Pattern
  panels : List (Nat × List Byte)
  scheds : List (Nat × List Byte)
  codes : List (Nat × List Byte)
  deriving DecidableEq, Repr

/-- The section of a number among those read. -/
def secOf (l : List (Nat × List Byte)) (k : Nat) : List Byte := ((l.find? fun x => x.1 == k).map (·.2)).getD []

/-- The CODE sections that a panel record's OVMASK names (R286, R289). -/
def Image.codeSecs (i : Image) (r : PanelRec) : List (Option Nat) :=
  ((List.range 4).filter fun k => bt r.ovmask k).map fun k => i.codeSec (nth 0 r.ovl k)

/-- Reads everything that a run names; none for code 6 (IMAGE). -/
def State.loadRun (s : State) (t : Nat) (r : List Byte) : State × Option Loaded :=
  thenRead (s.readImage t (recImage r)) fun s1 i =>
    let ps := fieldAt r 4 2
    if i.type ps ≠ 4 then (s1, none)
    else thenRead (s1.readSec t i ps) fun s2 pb =>
      let pat := patternOf pb
      let pan := ((pat.nodes.filter fun n => n.kind == 0).map (·.psec)).eraseDups
      let sch := ((pat.nodes.filter fun n => (n.kind == 0 || n.kind == 1) && n.csec != 0xFFFF).map (·.csec)).eraseDups
      if pan.any (fun k => i.type k != 5) || sch.any (fun k => i.type k != 3) then (s2, none)
      else thenRead (s2.readSecs t i pan) fun s3 panels => thenRead (s3.readSecs t i sch) fun s4 scheds =>
        let cs := (panels.flatMap fun x => i.codeSecs (panelRecOf x.1 x.2)).eraseDups
        if cs.any (·.isNone) then (s4, none)
        else thenRead (s4.readSecs t i (cs.filterMap id)) fun s5 codes => (s5, some ⟨i, pat, panels, scheds, codes⟩)

/-- The bindings of a run formed, and their groups pinned on every die (R300, R56). -/
def State.formBindings (s : State) (t : Nat) (r : List Byte) : State × Sparse Handle :=
  (List.range 16).foldl (fun (a : State × Sparse Handle) i =>
    let w := recBind r i
    if !bt w 6 then a
    else
      let vp := fld w 16 32
      let s1 := if bt (a.1.rootOf t).toNat 0 then
          (List.range a.1.ndies).foldl (fun s d => s.spanRead d t (vp / 64) true) a.1 else a.1
      (s1, spPut Handle.zero a.2 i (s1.xlat 0 t (vp * 65536) (fld w 0 6 + 1)))) (s, [])

/-- The first node whose copy schedule is refused: the index of the entry, or 0xFFFF for the header, and the reason (R69). -/
def Loaded.csFault (l : Loaded) (bind : Sparse Handle) : Option (Nat × Nat) :=
  (l.pat.nodes.filter fun n => (n.kind == 0 || n.kind == 1) && n.csec != 0xFFFF).findSome? fun n =>
    let b := secOf l.scheds n.csec
    if schedHeaderBad b then some (0xFFFF, 1)
    else if n.kind = 0 then schedFault (panelRecOf n.psec (secOf l.panels n.psec)) bind (entriesOf b) 0 0
    else copyNodeFault bind (entriesOf b)

/-- A COPY node's entry names an access processor that the package does not have (R3, R360). -/
def State.apAbsent (s : State) (n : Nat) : Bool := decide ((CopyEntry.ofNat n).dgrp ≥ 8 * s.ndies)

/-- The first failing check of codes 7 to 14, or none. -/
def State.runCode (s : State) (part : Nat) (r : List Byte) (l : Loaded) (bind : Sparse Handle) : Option Nat :=
  let recs := l.panels.map fun x => panelRecOf x.1 x.2
  let npkg := s.ctlFld offSyncctl 8 7
  let cnodes := l.pat.nodes.filter fun n => n.kind == 1 && n.csec != 0xFFFF
  if capsBeyond l.image.caps (capsVal s)
      || recs.any (fun p => p.hedge && (s.gramer == 0 || p.ranks.any fun x => decide (x.1 ≥ npkg)))
      || cnodes.any (fun n => (entriesOf (secOf l.scheds n.csec)).any s.apAbsent) then some 7
  else if l.pat.bad then some 8
  else if l.panels.any fun x => panelRecBad x.2 then some 9
  else if (l.csFault bind).isSome then some 10
  else if recs.any fun p => (l.image.codeSecs p).any fun c => nredBad p.ranks.length (secOf l.codes (c.getD 0)) then some 11
  else if recs.any fun p => !translations.any (s.transOk part p) then some 12
  else if (List.range 16).any (fun i => bt (recBind r i) 6 && (let h := spGet Handle.zero bind i; !h.v || h.hst != 0))
      || l.pat.nodes.any (fun n => n.gated &&
        (let h := spGet Handle.zero bind n.ibind
         decide (n.ioff + 64 * (n.ilines + 1) > if h.v then 65536 * (h.npgm1.toNat + 1) else 0))) then some 13
  else if cnodes.any fun n => (entriesOf (secOf l.scheds n.csec)).any fun e => !copyNodeOk (CopyEntry.ofNat e) then some 14
  else none

/-! ## The start of a run (R304, R311) -/

/-- PASS of a tenant (R311). -/
def State.passOf (s : State) (t : Nat) : Nat := spGet 0 s.pass t

def State.setPass (s : State) (t v : Nat) : State := { s with pass := spPut 0 s.pass t v }

/-- A tenant's PRIO. -/
def State.tenPrio (s : State) (t : Nat) : Nat := s.ctlFld (offTencfg t) 1 2

/-- A run has a ready or a running task (R311), which runs up to its completion (R274); a cancelled one has none ready but for signals. -/
def State.busyRun (s : State) (r : Run) : Bool :=
  let goes := fun (x : NodeRun) (n : Nat) => r.cancel.isNone || !(x.pid.all s.panelDone && s.copyNodeDone r.id n)
  r.prog.zipIdx.any fun x => match x.1.st with
    | .ready => r.cancel.isNone || r.signalReady x.2
    | .gated | .launched => r.cancel.isNone
    | .running | .finished => goes x.1 x.2
    | .waiting | .failed | .complete => false

/-- A tenant that gains an active run catches up (R311). -/
def State.catchUp (s : State) (t : Nat) : State :=
  let l := ((s.runs.filter fun r => r.tenant != t && s.busyRun r && s.tenPrio r.tenant == s.tenPrio t).map
    fun r => s.passOf r.tenant)
  let g := match l with | [] => 0 | x :: xs => xs.foldl min x
  s.setPass t (max (s.passOf t) g)

/-- A run that has passed its checks. -/
def startedRun (x : Run) (l : Loaded) (bind : Sparse Handle) : Run :=
  { x with
    precs := l.panels.map fun p => panelRecOf p.1 p.2
    scheds := l.scheds.map fun b => ⟨b.1, fld (fieldAt b.2 2 1) 0 3, (entriesOf b.2).map CopyEntry.ofNat⟩
    bind := bind, nodes := l.pat.nodes, edges := l.pat.edges, image := l.image.id }

/-- A run refused at its start: it retires with TYPE 3 when its ring has room (R304, R299). -/
def State.refuseRun (s : State) (x : Run) (code : Nat) : State :=
  let r := { x with cancel := some (3, code) }
  let s1 := s.addRun r
  match s1.mayRetire r with
  | some y => s1.retire r y.1 y.2.1 y.2.2
  | none => s1

/-- RUN_START (R304): the head of a tenant's queue, when the tenant has no run and the host writes accepted before its record have performed
(Table 13.2). A refusal with CSENTRY carries its entry and reason, which
the event has no field for: they leave the package beside it (R69, log 69). -/
def execRunStart (tenant : Nat) (s : State) : Out :=
  .next (if s.dispHalt || s.runs.any (fun r => r.tenant == tenant) then s
    else match s.takeRun tenant with
      | none => s
      | some (s1, b) =>
        if s.hostq.any fun h => h.write && decide (h.id < b.after) then s else
        let x := newRun s1.nextId tenant (recPart b.rec_) b
        let l := s1.loadRun tenant b.rec_
        match l.2 with
        | none => l.1.refuseRun x 6
        | some y =>
          let f := l.1.formBindings tenant b.rec_
          match f.1.runCode x.part b.rec_ y f.2 with
          | some code =>
            let s2 := f.1.refuseRun x code
            (match (if code = 10 then y.csFault f.2 else none) with
             | some w => s2.send (.csEntry tenant (recTag b.rec_) w.1 w.2)
             | none => s2)
          | none => (f.1.catchUp tenant).addRun (startedRun x y f.2))

end Sys2Proof.Machine
end

