-- ==== Sys2Proof/Machine/Walker.lean ====
section
/-!
DEFINITION. The walker and the step sequencer: steps, completion of nodes, COPY and SIGNAL nodes, and the reuse gate (06 R98 to R100; 13 R274;
16 R305 to R310).
-/
namespace Sys2Proof.Machine

/-! ## Nodes -/

def State.updRun (s : State) (id : Nat) (f : Run → Run) : State :=
  { s with runs := s.runs.map fun r => if r.id = id then f r else r }

/-- A node's progress changed. -/
def Run.setNode (r : Run) (n : Nat) (f : NodeRun → NodeRun) : Run :=
  { r with prog := r.prog.zipIdx.map fun x => if x.2 = n then f x.1 else x.1 }

def State.setNodeSt (s : State) (id n : Nat) (st : NodeSt) : State := s.updRun id fun r => r.setNode n fun x => { x with st := st }

/-- The copies of a COPY node (R306): untimed, by the access processor of DGRP, without core and bitmap. -/
def State.startCopyNode (s : State) (r : Run) (n : Nat) (es : List CopyEntry) : State :=
  (es.foldl (fun s e =>
    let h := fun k => spGet Handle.zero r.bind k
    let c := newCopy s { e with rbm := false, rate := 0, portc := 0 } e.dgrp (Own.none (16 * e.dgrp)) r.tenant false (h e.sh) (h e.dh)
    s.addCopy { c with node := some (r.id, n), cpy := false }) s).refill

/-- A node whose count is 0 becomes ready; a COPY node starts. -/
def State.readyNode (s : State) (id n : Nat) : State :=
  match s.run? id with
  | none => s
  | some r =>
    match r.prog[n]?, r.nodes[n]? with
    | some x, some y =>
      if x.st ≠ .waiting ∨ x.count ≠ 0 then s
      else if y.kind = 1 then
        (s.setNodeSt id n .running).startCopyNode r n (((r.scheds.find? fun c => c.sec == y.csec).map (·.entries)).getD [])
      else s.setNodeSt id n .ready
    | _, _ => s

def State.readyNodes (s : State) (id : Nat) : State :=
  match s.run? id with
  | none => s
  | some r => (List.range r.nodes.length).foldl (fun s n => s.readyNode id n) s

/-- A step whose nodes are all complete is over (R307). -/
def State.endStep (s : State) (id : Nat) : State :=
  s.updRun id fun r =>
    if r.rowRead && r.prog.all (fun x => x.st == .complete) then { r with step := r.step + 1, rowRead := false, prog := [] } else r

/-- A node completes: its successors' counts fall in edge order, and the ready ones start (R307). -/
def State.completeNode (s : State) (id n : Nat) : State :=
  ((s.updRun id fun r =>
    (r.edges.filter fun e => e.1 == n).foldl (fun r e => r.setNode e.2 fun x => { x with count := x.count - 1 })
      (r.setNode n fun x => { x with st := .complete })).readyNodes id).endStep id

/-- STEP_BEGIN (R307, R308): the row of the next step; a row that cannot be read fails the run with code STEPTAB. -/
def execStepBegin (run : Nat) (s : State) : Out :=
  .next (match s.liveRun run with
    | none => s
    | some r =>
      if r.rowRead || decide (r.step ≥ r.nstep) then s
      else
        let g := s.vaRead r.tenant (recStepVa r.rec_ + 256 * r.step) 256
        match g.2 with
        | none => g.1.endRun run 4 15
        | some row =>
          let s1 := g.1.updRun run fun r => { r with
            rowRead := true
            k := (List.range 16).map fun i => BitVec.ofNat 64 (fieldAt row (8 * i) 8)
            gslot := (List.range 64).map fun i => fieldAt row (128 + 2 * i) 2
            prog := r.nodes.map fun n => ⟨n.npred, .waiting, false, none, false, []⟩ }
          (s1.readyNodes run).endStep run)

/-! ## Reuse-cache headers (Table 6.7, R100) -/

/-- The header of a computed node at its completion. -/
def doneHeader (r : Run) (n : Nat) (x : Node) : Nat :=
  3 + 2 ^ 4 * (r.tenant % 16) + 2 ^ 16 * (r.patid % 2 ^ 16) + 2 ^ 32 * (n % 2 ^ 16) + 2 ^ 48 * (x.tile % 2 ^ 16)
    + 2 ^ 64 * (r.step % 2 ^ 32) + 2 ^ 96 * (r.step % 2 ^ 32) + 2 ^ 136 * x.ilines + 2 ^ 144 * x.olines + 2 ^ 152 * x.ifmt

/-- The other packages of a node's hedge panel. -/
def State.otherPkgs (s : State) (r : Run) (y : Node) : List Nat :=
  match r.precs.find? fun p => p.sec == y.psec with
  | some p => if p.hedge then ((p.ranks.map fun x => x.1).eraseDups).filter (· != s.ctlFld offSyncctl 2 6) else []
  | none => []

/-- The other packages of a hedge panel learn, once, that everything of it here has performed (R274, R293). -/
def State.tellDone (s : State) (run node pid : Nat) : State :=
  (s.send (.panelDone pid)).updRun run fun r => r.setNode node fun x => { x with told := true }

/-- NODE_COMPLETE (R274, R293, R100). -/
def execNodeComplete (run node : Nat) (s : State) : Out :=
  .next (match s.liveRun run with
    | none => s
    | some r =>
      match r.prog[node]?, r.nodes[node]? with
      | some x, some y =>
        if y.kind = 0 ∧ x.st = .finished ∧ (x.pid.any s.panelDone) = true then
          let away := s.otherPkgs r y
          let s0 := if away.isEmpty || x.told then s else s.tellDone run node (x.pid.getD 0)
          if away.all fun k => x.others.contains k then
            (if x.cached then s0.setRcHeader r.part (nth 0 r.gslot y.gcol) (doneHeader r node y) else s0).completeNode run node
          else s0
        else if y.kind = 1 ∧ x.st = .running ∧ s.copyNodeDone run node then s.completeNode run node
        else s
      | _, _ => s)

/-- SIGNAL_NODE (R306, R299), in ascending node index: held back while the ring is full. A signal that was ready when its run was cancelled runs
to completion too (R307), and starts nothing. -/
def execSignalNode (run node : Nat) (s : State) : Out :=
  .next (match (if s.dispHalt then none else s.run? run) with
    | none => s
    | some r =>
      match r.prog[node]?, r.nodes[node]? with
      | some x, some y =>
        let before := (List.range node).any fun i => r.signalReady i
        if y.kind = 2 ∧ x.st = .ready ∧ !s.ringFull r.tenant ∧ !before then
          let s1 := s.pushEvent r.tenant (eventOf y.value.toNat node r.step 1 0)
          if r.cancel.isSome then s1.setNodeSt run node .complete else s1.completeNode run node
        else s
      | _, _ => s)

/-! ## The reuse gate (R309, R310) -/

/-- The outcomes of reuse_gate. -/
inductive Gate where
  | compute
  | uncached
  | skip
  deriving DecidableEq, Repr

/-- slot_page_handle(k) (R310). -/
def State.slotHandle (s : State) (r : Run) (k : Nat) : Handle :=
  let page := s.ctlFld (offRcdbase r.part) 0 15 + k / 4
  { Handle.zero with
    v := true, w := true, sp := true, ten := BitVec.ofNat 4 r.tenant, gen := BitVec.ofNat 16 (s.epochOf r.tenant),
    pbase := BitVec.ofNat 32 (s.ctlFld (offRcdbase r.part) 15 1 * 2 ^ 15 + page), pin := true, valid := 1, res := 1 }

/-- Lines of a span read in full: none where a page has VALID 0 or RES 0, the handle has V = 0, or a line has a poison tag. -/
def State.spanLines (s : State) (t : Nat) (h : Handle) : Nat → Nat → State × Option (List Byte)
  | 0, _ => (s, some [])
  | n + 1, o =>
    if lineState h o false ≠ 0 then (s, none)
    else
      let f := (h.pbase.toNat + o / 65536) % 2 ^ 32
      let l := s.frameLine t h.sp f (o % 65536)
      if l.2.poison then (l.1, none)
      else thenRead (l.1.spanLines t h n (o + 64)) fun s2 m => (s2, some (lineBytes l.2.data ++ m))

/-- The elements of a format in a byte string. -/
def elemsOf (w : Nat) (l : List Byte) : List Nat := (chunks w (l.length / w) l).map leNat

/-- The formats of IFMT (Table 6.7). -/
def ifmtFmt (i : Nat) : Fmt := match i with | 0 => fp32 | 1 => bf16 | _ => fp16

/-- The measure of two inputs (R238 under .rne). -/
def inputDelta (ifmt : Nat) (a b : List Byte) : Num :=
  let w := if ifmt = 0 then 4 else 2
  fp32.decode (roundToFormat fp32 .rne .sat (vdelta (ifmtFmt ifmt) ((elemsOf w a).zip (elemsOf w b))))

/-- Step s is in the refresh set (R99). -/
def inRefresh (y : Node) (s : Nat) : Bool :=
  s == 0 || (decide (s < 64) && y.rmap.getLsbD s) || (y.period != 0 && s % y.period == 0)

/-- The header matches (R309). -/
def headerMatches (r : Run) (n : Nat) (y : Node) (e : Nat) : Bool :=
  bt e 0 && bt e 1 && fld e 4 4 == r.tenant && fld e 16 16 == r.patid && fld e 32 16 == n && fld e 48 16 == y.tile
    && fld e 96 32 == r.step - 1 && fld e 136 8 == y.ilines && fld e 144 8 == y.olines && fld e 152 2 == y.ifmt
    && fld e 152 2 != 3

/-- Slot k is one that a tenant may name, and the cache's registers are in order (R98). -/
def State.slotOk (s : State) (r : Run) (k : Nat) : Bool :=
  let c := s.ctlGet (offRcten r.part r.tenant)
  k != 0xFFFF && s.ctlFld (offRccfg r.part) 16 1 == 0 && decide (fld c.toNat 0 14 ≤ k)
    && decide (k < fld c.toNat 0 14 + fld c.toNat 16 14)

/-- reuse_gate (R309) for node n: the outcome, and the state with the reads it made. `bind` are the bindings with GBIND bound. -/
def State.reuseGate (s : State) (r : Run) (bind : Sparse Handle) (n k : Nat) (y : Node) : State × Gate :=
  let th := fp32.decode y.thresh.toNat
  let e := s.rcHeader r.part k
  if inRefresh y r.step || y.kbound == 0 || th.isNan || th.lt (.zero false) then (s, .compute)
  else if !headerMatches r n y e then (s, .compute)
  else if fld e 128 8 ≥ y.kbound then (s, .compute)
  else
    let a := s.spanLines r.tenant (spGet Handle.zero bind y.ibind) (y.ilines + 1) y.ioff
    let b := a.1.spanLines r.tenant (s.slotHandle r k) (y.ilines + 1) (16384 * (k % 4))
    match a.2, b.2 with
    | some x, some z =>
      let d := inputDelta y.ifmt x z
      (b.1, if d.isNan || th.lt d then .compute else .skip)
    | _, _ => (b.1, .compute)

/-- REUSE_GATE_DECISION (R309, R100), in ascending node index. -/
def execReuseGateDecision (run node : Nat) (s : State) : Out :=
  .next (match s.liveRun run with
    | none => s
    | some r =>
      match r.prog[node]?, r.nodes[node]? with
      | some x, some y =>
        let before := (List.range node).any fun i =>
          (match r.prog[i]?, r.nodes[i]? with | some u, some v => v.gated && u.st == .ready | _, _ => false)
        if !y.gated || x.st != .ready || before then s
        else
          let k := nth 0xFFFF r.gslot y.gcol
          let go := fun (s : State) (c : Bool) => s.updRun run fun r => r.setNode node fun x => { x with st := .gated, cached := c }
          if !s.slotOk r k then go s false
          else
            let bind := spPut Handle.zero r.bind y.gbind (s.slotHandle r k)
            let g := (s.updRun run fun r => { r with bind := bind }).reuseGate r bind node k y
            let e := s.rcHeader r.part k
            match g.2 with
            | .skip =>
              (g.1.setRcHeader r.part k (descSet (descSet e 96 32 r.step) 128 8 (min 255 (fld e 128 8 + 1)))).completeNode run node
            | .compute => go (g.1.setRcHeader r.part k (descSet e 0 1 0)) true
            | .uncached => go g.1 false
      | _, _ => s)

end Sys2Proof.Machine
end

