-- ==== Sys2Proof/Machine/Place.lean ====
section
/-!
DEFINITION. The order of panel tasks, their placement, overlays, and the choice of panels to pre-empt (15 R287, R289; 16 R294, R311, R312; 18
R342).
-/
namespace Sys2Proof.Machine

/-! ## Tasks in order (R294, R311) -/

/-- A ready panel task: the resumption of a panel, or a node. -/
inductive Task where
  | resume (pid : Nat)
  | node (n : Nat)
  deriving DecidableEq, Repr

/-- A saved panel of a run whose images are complete and which is not placed yet. -/
def State.resumable (s : State) (r : Run) : Option Saved :=
  s.saved.find? fun v => v.panel.run == r.id && decide (v.complete.length = v.cores.length)
    && !(s.panels.any fun p => p.pid == v.panel.pid)

/-- The first ready panel node; a gate still to be decided holds back later ones. -/
def Run.firstNode (r : Run) : Option Nat :=
  ((List.range r.nodes.length).find? fun n => match r.prog[n]?, r.nodes[n]? with
    | some x, some y => y.kind == 0 && (x.st == .ready || x.st == .gated)
    | _, _ => false).bind fun n => match r.prog[n]?, r.nodes[n]? with
    | some x, some y => if y.gated && x.st == .ready then none else some n
    | _, _ => none

/-- The first task of a run: a resumption before its nodes. -/
def State.firstTask (s : State) (r : Run) : Option Task :=
  match s.resumable r with
  | some v => some (.resume v.panel.pid)
  | none => r.firstNode.map .node

/-- The panel record of a node. -/
def Run.recOf (r : Run) (n : Nat) : Option PanelRec := (r.nodes[n]?).bind fun y => r.precs.find? fun p => p.sec == y.psec

def State.taskRec (s : State) (r : Run) : Task → Option PanelRec
  | .resume pid => (s.saved.find? fun v => v.panel.pid == pid).bind fun v => r.recOf v.panel.node
  | .node n => r.recOf n

/-- STRIDE of a tenant. -/
def State.shareStride (s : State) (t : Nat) : Nat := 2 ^ 20 / max 1 (s.ctlFld (offTencfg t) 3 8)

/-- A candidate: PRIO, virtual finish time, tenant, run, task, record. -/
structure Cand where
  prio : Nat
  vft : Nat
  tenant : Nat
  run : Nat
  task : Task
  rec_ : PanelRec
  deriving DecidableEq, Repr

/-- The order of R311. -/
def Cand.before (a b : Cand) : Bool :=
  decide (a.prio > b.prio) || (a.prio == b.prio && (decide (a.vft < b.vft) || (a.vft == b.vft && decide (a.tenant < b.tenant))))

/-- The first tasks of the active runs of a partition, in order. -/
def State.candidates (s : State) (part : Nat) : List Cand :=
  sortBy Cand.before ((s.runs.filter fun r => r.part == part && r.cancel.isNone).filterMap fun r =>
    (s.firstTask r).bind fun t => (s.taskRec r t).map fun p =>
      { prio := s.tenPrio r.tenant, vft := s.passOf r.tenant + s.shareStride r.tenant * p.ranks.length, tenant := r.tenant, run := r.id,
        task := t, rec_ := p })

/-! ## Placement (R287) -/

/-- No panel holds the core, and none is placed on it. -/
def State.coreFree (s : State) (c : Nat) : Bool :=
  (s.core c).panel.isNone && !(s.panels.any fun p => p.st == .placed && p.mine.any fun x => x.1.core == c)

/-- The declared package of this package's ranks: HEDGEID for a hedge panel. -/
def State.herePkg (s : State) (p : PanelRec) : Nat := if p.hedge then s.ctlFld offSyncctl 2 6 else 0

/-- A trained port is joined to one of the packages of a panel. -/
def State.joins (s : State) (p : PanelRec) (port : Nat) : Bool :=
  let w := (spGet 0 s.linklat port).toNat
  fld w 0 16 != 0 && p.ranks.any fun x => x.1 == fld w 24 6 && x.1 != s.herePkg p

/-- A port between two other packages of a panel is down (log 118). -/
def State.farDown (s : State) (p : PanelRec) : Bool :=
  let of := fun (k : Nat) => p.ranks.any fun x => x.1 == k
  s.farLat.any fun e => of (e.1 / 64) && of (e.1 % 64) && !e.2.2

/-- A hedge panel may be placed: alignment is not lost and the ports that join its packages are up (R317, R322). -/
def State.hedgeOk (s : State) (p : PanelRec) : Bool :=
  !p.hedge || ((spGet 0 s.drift 0).getLsbD 39 == false
    && ((List.range s.gramer).all fun i => !s.joins p i || s.portUp i) && !s.farDown p)

/-- The cores of a panel: the package, none for this one, and the core. -/
def Panel.spots (p : Panel) : List (Option Nat × Nat) :=
  p.ranks.map fun r => (if r.pkg = p.here then none else some r.pkg, r.core)

/-- A core is free on its package (R287, R291): on another one, as that has told it (log 119), and no panel holds it that goes on here. -/
def State.spotFree (s : State) (x : Option Nat × Nat) : Bool :=
  match x.1 with
  | none => s.coreFree x.2
  | some k => !(spGet [] s.awayBusy k).contains x.2
      && !(s.panels.any fun p => (p.st == .placed || p.st == .running || p.st == .saved) && p.spots.contains x)

/-- The translation of a panel, with the cores of `also` counted as free. -/
def State.placement (s : State) (part : Nat) (p : PanelRec) (also : List (Option Nat × Nat)) : Option (Int × Int) :=
  if !s.hedgeOk p then none
  else translations.find? fun d => s.transOk part p d && p.ranks.all fun x =>
    match shiftCore x.2.1 d.1 d.2 with
    | some c =>
      let spot := (if x.1 = s.herePkg p then none else some x.1, c)
      s.spotFree spot || also.contains spot
    | none => false

/-- PHBIAS of a translation. -/
def biasOf (d : Int × Int) : Nat := ((d.1 + 16 * d.2) % 128).toNat

/-- The ranks of a panel at a translation. -/
def placedRanks (p : PanelRec) (d : Int × Int) : List RankPos :=
  p.ranks.map fun x => ⟨x.1, x.2.1, (shiftCore x.2.1 d.1 d.2).getD 0⟩

/-- A panel as it is placed. -/
def placedPanel (s : State) (r : Run) (n : Nat) (p : PanelRec) (d : Int × Int) : Panel :=
  { pid := s.nextPid, run := r.id, node := n, tenant := r.tenant, part := r.part, prio := s.tenPrio r.tenant,
    ranks := placedRanks p d, pcs := p.ranks.map (·.2.2), help := p.help, hpcs := p.hpcs, here := s.herePkg p, hedge := p.hedge,
    erchk := p.erchk, idle := [], fresh := false, image := r.image, ovmask := p.ovmask, ovl := p.ovl, dx := d.1, dy := d.2, phbias := biasOf d, st := .placed,
    annS := none, startS := 0, pcyc := 0, frz := [], frozen := false, stage := 0, stageAt := [], arrivals := [], lost := [], ends := [],
    endAt := none, failAt := none, failRec := none, preempt := none, saveMask := [],
    trunc := (match r.nodes[n]? with | some y => if y.trset then y.trunc else 0 | none => 0), lateAt := [], meshAt := none }

/-- The package runs an entry of a hedge panel (R381). -/
def servesEntry (p : PanelRec) (here : Nat) (e : CopyEntry) : Bool :=
  !p.hedge || e.named.all fun c => p.ranks.any fun x => x.1 == here && x.2.1 == c

/-- The entries of a panel's copy schedule (R68, R70, R76): open before the start where STG is at most HOR. -/
def State.addSchedule (s : State) (r : Run) (p : Panel) (pr : PanelRec) (c : CopySched) : State :=
  (c.entries.zipIdx.filter fun x => servesEntry pr p.here x.1).foldl (fun s x =>
    let e := x.1.place p.dx p.dy
    let h := fun k => spGet Handle.zero r.bind k
    let y := newCopy s e e.dgrp (Own.none (16 * e.dgrp + e.portc)) r.tenant false (h e.sh) (h e.dh)
    s.addCopy { y with
      pid := some p.pid, idx := x.2, hor := c.hor, timed := true, cpy := false, opened := decide (e.stg ≤ c.hor) }) s

/-- A node's panel placed. -/
def State.placeNode (s : State) (r : Run) (n : Nat) (pr : PanelRec) (d : Int × Int) : State :=
  let p := placedPanel s r n pr d
  let s1 : State := { s with panels := s.panels ++ [p], nextPid := s.nextPid + 1 }
  let s2 := s1.updRun r.id fun r => r.setNode n fun x => { x with st := .launched, pid := some p.pid }
  match (r.nodes[n]?).bind fun y => r.scheds.find? fun c => c.sec == y.csec with
  | some c => s2.addSchedule r p pr c
  | none => s2

/-- A saved panel placed again (R292, R347): it restarts with PCYC P once its conditions hold. -/
def State.placeSaved (s : State) (v : Saved) (pr : PanelRec) (d : Int × Int) : State :=
  ({ s with panels := s.panels ++ [{ v.panel with
      ranks := placedRanks pr d, dx := d.1, dy := d.2, phbias := biasOf d, st := .placed, annS := none, frz := [], frozen := false,
      preempt := none, saveMask := [], prio := s.tenPrio v.panel.tenant }] } : State).bringCopies v.panel.pid

/-- A candidate placed and charged, when it fits. -/
def State.placeCand (s : State) (c : Cand) : Option State :=
  (s.run? c.run).bind fun r => (s.placement r.part c.rec_ []).bind fun d =>
    let s1 : Option State := match c.task with
      | .node n => some (s.placeNode r n c.rec_ d)
      | .resume pid => (s.saved.find? fun v => v.panel.pid == pid).map fun v => s.placeSaved v c.rec_ d
    s1.map fun (s1 : State) => s1.setPass c.tenant c.vft

/-! ## Pre-emption (R312, R342) -/

/-- Save slots of a partition not in use. -/
def State.freeSaveSlots (s : State) (part : Nat) : List Nat :=
  let used := (s.saved.flatMap fun v => (v.slots.filter fun y => y.1 == part).map (·.2))
    ++ s.panels.flatMap fun p => (p.saveMask.filter fun y => y / 4096 == part).map (· % 4096)
  (List.range (s.ctlFld (offSaveslots part) 0 12)).filter fun k => !used.contains k

/-- A panel is on its way out: P is announced, though it may have ended or failed before (R292), or it is being saved. -/
def Panel.goesOut (p : Panel) : Bool := p.st == .saved || p.preempt.isSome

/-- The panels that may give way to a task: those already on their way out first, then in ascending PRIO, latest S first. -/
def State.victimOrder (s : State) (part prio : Nat) : List Panel :=
  let l := s.panels.filter fun p => p.part == part && (p.goesOut || (p.st == .running && p.failAt.isNone))
    && decide (s.tenPrio p.tenant < prio)
  l.filter Panel.goesOut ++ sortBy (fun a b => decide (s.tenPrio a.tenant < s.tenPrio b.tenant)
    || (s.tenPrio a.tenant == s.tenPrio b.tenant && decide (a.startS > b.startS))) (l.filter fun p => !p.goesOut)

/-- The first set of victims with which a task fits; `slots` are the save slots left. -/
def State.victims (s : State) (part : Nat) (pr : PanelRec) : List Panel → List Nat → List Panel → Option (List Panel)
  | [], _, _ => none
  | p :: ps, slots, acc =>
    if !p.goesOut && decide (slots.length < p.cores.length) then s.victims part pr ps slots acc
    else
      let acc1 := acc ++ [p]
      if (s.placement part pr (acc1.flatMap Panel.spots)).isSome then some acc1
      else s.victims part pr ps (if p.goesOut then slots else slots.drop p.cores.length) acc1

/-- P announced for a panel, and its save slots taken (R312, R342). -/
def State.announceP (s : State) (p : Panel) : State :=
  if p.goesOut then s
  else
    let slots := ((s.freeSaveSlots p.part).take p.cores.length).map (4096 * p.part + ·)
    s.updPanel p.pid fun q => { q with preempt := some (q.pcyc + (if q.hedge then 1024 else 64)), saveMask := slots }

/-- What the dispatcher does next in a partition (R311, R312): the first task placed; or victims announced for it; or, without any
victims, the first later task that fits. -/
def State.placeIn (s : State) (part : Nat) : Option (Option Cand × State) :=
  match s.candidates part with
  | [] => none
  | c :: cs =>
    match s.placeCand c with
    | some s1 => some (some c, s1)
    | none =>
      match s.victims part c.rec_ (s.victimOrder part c.prio) (s.freeSaveSlots part) [] with
      | some l =>
        if l.all Panel.goesOut then none else some (none, l.foldl State.announceP s)
      | none => cs.findSome? fun x => (s.placeCand x).map fun s1 => (some x, s1)

/-- PANEL_PLACE (R287, R311, R312). -/
def execPanelPlace (s : State) : Out :=
  .next (if s.dispHalt then s
    else match (List.range 4).findSome? s.placeIn with
      | some r => r.2
      | none => s)

/-- PANEL_RESUME (R347): a saved panel is placed again when the order gives it its turn. -/
def execPanelResume (panel : Nat) (s : State) : Out :=
  .next (match s.saved.find? fun v => v.panel.pid == panel with
    | none => s
    | some v =>
      if s.dispHalt then s
      else match s.placeIn v.panel.part with
        | some (some c, s1) => if c.task = .resume panel then s1 else s
        | _ => s)

/-! ## Overlays (R289) -/

/-- The first core and slot of a placed panel whose tag differs. -/
def State.nextOverlay (s : State) (p : Panel) : Option (Nat × Nat) :=
  p.cores.findSome? fun c => ((List.range 4).find? fun i => bt p.ovmask i &&
    (let w := (spGet 0 (s.core c).ovtag i).toNat
     !(bt w 40 && fld w 0 32 == p.image.toNat && fld w 32 8 == nth 0 p.ovl i))).map fun i => (c, i)

/-- A slot of an instruction store replaced, and its tag written. -/
def CoreSt.loadOverlay (c : CoreSt) (slot : Nat) (code : List Byte) (image : BitVec 32) (ovl : Nat) : CoreSt :=
  { c with
    istore := putBytes c.istore (0x4000 * slot) ((code ++ List.replicate (0x4000 - code.length) 0#8).take 0x4000)
    ovtag := spPut 0 c.ovtag slot (BitVec.ofNat 64 (image.toNat + 2 ^ 32 * (ovl % 256) + 2 ^ 40)) }

/-- OVERLAY_LOAD (R289): one CODE section into one slot of one core. -/
def execOverlayLoad (panel : Nat) (s : State) : Out :=
  .next (match s.panel? panel with
    | none => s
    | some p =>
      if p.st ≠ .placed ∨ s.dispHalt then s
      else match s.nextOverlay p, s.run? p.run with
        | some (c, i), some r =>
          let g := thenRead (s.readImage r.tenant (recImage r.rec_)) fun s1 im =>
            match im.codeSec (nth 0 p.ovl i) with
            | some k => s1.readSec r.tenant im k
            | none => (s1, none)
          (match g.2 with
           | some code => if (s.core c).panel.isSome then g.1
             else g.1.updCore c fun x => x.loadOverlay i code p.image (nth 0 p.ovl i)
           | none => g.1)
        | _, _ => s)

end Sys2Proof.Machine
end

