-- ==== Sys2Proof/Machine/SaveImage.lean ====
section
/-!
DEFINITION. The save image of a core (18, R344 to R346), and its place in HBM4E. Where the manual gives a field no place or no code inside
its bytes, log 42 says which was taken.
-/
namespace Sys2Proof.Machine

/-- A piece of an image: offset and bytes. -/
abbrev Piece := Nat × List Byte

/-! ## Records (R346, R348) -/

/-- A shadow record before its due cycle, issue and slot are added: kind, context or cluster, register or row, lane mask, poison, value, and
how many cycles after (or before) the pending action it is due. -/
structure Shadow where
  kind : Nat
  who : Nat
  idx : Nat
  mask : Nat
  poison : Bool
  val : List Byte
  off : Int
  deriving DecidableEq, Repr

/-- A handle register as 32 bytes (Table 4.2). -/
def Handle.bytes (h : Handle) : List Byte :=
  natLe 4 (h.v.toNat + 2 * h.w.toNat + 4 * h.sp.toNat + 8 * h.hst.toNat + 64 * h.npgm1.toNat + 2 ^ 12 * h.ten.toNat
      + 2 ^ 16 * h.gen.toNat)
    ++ natLe 4 h.vbase.toNat ++ natLe 4 h.pbase.toNat ++ natLe 4 h.pin.toNat ++ natLe 8 h.valid.toNat ++ natLe 8 h.res.toNat

/-- Operand rows of a tile, as records of kind 11: `n` rows, row r read in cycle `first` + r / 2, counted from the pending action (R369). -/
def operandRows (tile n : Nat) (row : Nat → BitVec 1024) (marks : Nat → Bool) (first : Int) : List Shadow :=
  (List.range n).map fun r => ⟨11, tile, r, 0, marks r, natLe 128 (row r).toNat, first + (r / 2 : Nat)⟩

/-- Scale-queue entries in records of 64: those that are still to be pushed (0), or those that an instruction in flight has popped (1). -/
def queueRecs (popped : Nat) (xs : List (BitVec 16)) (off : Int) : List Shadow :=
  (List.range ((xs.length + 63) / 64)).map fun k =>
    let l := (xs.drop (64 * k)).take 64
    ⟨10, popped, l.length, 0, false, l.flatMap fun x => natLe 2 x.toNat, off⟩

/-- The lanes of a vector load that have been read. -/
def lanesRead (cl : Nat) (r : BitVec 5) (mask : Nat) (v : BitVec 512) (poison : Bool) (off : Nat) : List Shadow :=
  if mask = 0 then [] else [⟨4, cl, r.toNat, mask, poison, natLe 64 v.toNat, off⟩]

/-- The mask of the chosen lanes. -/
def lanesOf (f : Nat → Bool) : Nat := (List.range 16).foldl (fun n i => n + if f i then 2 ^ i else 0) 0

/-- The tile that an X word names in its A field (Table 8.9). -/
def Own.tile (o : Own) : Nat := fld o.word.toNat 14 4

/-- The shadow records of a pending action at PCYC P: the register writes it still owes, or the operands it has read. A LATCH whose write is
due at P itself has no rows among them: the latch's own area of the image holds them (Table 21.10, log 42). -/
def shadowsOf (c : CoreSt) (P : Nat) (p : Pend) : List Shadow :=
  match p.act with
  | .wS k r v p => [⟨0, k, r.toNat, 0, p, natLe 8 v.toNat, 0⟩]
  | .wQ k q v => [⟨1, k, q.toNat, 0, false, natLe 1 v.toNat, 0⟩]
  | .wH k h v => [⟨2, k, h.toNat, 0, false, v.bytes, 0⟩]
  | .wB r v => [⟨3, 0, r.toNat, 0, false, natLe 4 v.toNat, 0⟩]
  | .wV cl r m v p => [⟨4, cl, r.toNat, m.toNat, p, natLe 64 v.toNat, 0⟩]
  | .wM cl r v => [⟨5, cl, r.toNat, 0xFFFF, false, natLe 2 v.toNat, 0⟩]
  | .wRow t r v m => [⟨6, t, 64 * t + r, 0, m, natLe 128 v.toNat, 0⟩]
  | .wHalf t r h v m first =>
    [⟨6, t, 64 * t + r, 0, m || first, natLe 128 (((c.tile t).setHalf r h v m first).row r).toNat, 0⟩]
  | .wTile t x => (List.range 64).map fun r => ⟨6, t, 64 * t + r, 0, x.marked r, natLe 128 (x.row r).toNat, 0⟩
  | .wFlag n b => [⟨7, 0, n, 0, false, natLe 8 b.toNat, 0⟩]
  | .wClear n b => [⟨8, 0, n, 0, false, natLe 8 b.toNat, 0⟩]
  | .wSr k n v => [⟨8, k, n, 0, false, natLe 8 v.toNat, 0⟩]
  | .wLp k n r => [⟨8, k, 8, 0, false, natLe 8 (n.toNat + 2 ^ 32 * r.toNat), 0⟩]
  | .rqSet seed pos => [⟨8, 0, 15, 0, false, natLe 8 pos.toNat ++ (match seed with | some x => natLe 8 x.toNat | none => []), 0⟩]
  | .stage => [⟨8, 0, 2, 0, false, natLe 8 1, 0⟩]
  | .wSpill k i cell v => [⟨9, k, i, 0, false, natLe 8 v.toNat ++ natLe 2 cell.toNat, 0⟩]
  | .sqPush xs => queueRecs 0 xs 0
  | .vGather cl r m ad todo acc p =>
    lanesRead cl r (lanesOf fun i => m.getLsbD i && !todo.contains (nth 0 ad i / 64)) acc p (todo.length + 2)
  | .vIdxLoad cl r m _ j acc p => lanesRead cl r (lanesOf fun i => m.getLsbD i && decide (i < j)) acc p (19 - j)
  | .wLatch _ l =>
    if p.due ≤ P then []
    else operandRows p.own.tile (tcRows l.kind) (fun r => spGet 0 l.rows r) (fun _ => false) (-36) ++ queueRecs 1 l.descs 0
  | .wAccTile _ _ _ tiles => tiles.flatMap fun x =>
    (List.range (tcRows x.2.1)).map fun r => ⟨11, x.1, r, 0, x.2.2.marked r, natLe 128 (x.2.2.row r).toNat, -36⟩
  | .latchRd _ t j l =>
    operandRows t (min (2 * j) (tcRows l.kind)) (fun r => spGet 0 l.rows r) (fun _ => false) (-(j : Int)) ++ queueRecs 1 l.descs 0
  | .tileRd _ t j _ x => operandRows t (2 * j) x.row x.marked (-(j : Int))
  | .mmaRd j r => mmaRows r (2 * j) (-(j : Int))
  | .wMma r => mmaRows r 64 (if r.cl then -44 else -39)
  | _ => []
where
  /-- The rows and the descriptors that an MMA has read. -/
  mmaRows (r : MmaRun) (n : Nat) (first : Int) : List Shadow :=
    operandRows r.t (min n (tcRows r.tca)) (fun i => spGet 0 r.rowsA i) (fun _ => false) first
      ++ operandRows (r.t + 1) (min n (if r.form = .t2i8 then tcRows r.tcb else if r.form = .sp then tcRows r.tca else 0))
          (fun i => spGet 0 r.rowsB i) (fun _ => false) first
      ++ queueRecs 1 r.descs 0

/-- A carried record before its due cycle is added: kind, requester code, target rank, address, byte mask, flags, data, and how many cycles
after the pending action it is due. -/
structure Carried where
  kind : Nat
  code : Nat
  rank : Nat
  addr : Nat
  mask : Nat
  flags : Nat
  val : List Byte
  off : Nat
  deriving DecidableEq, Repr

/-- Operation numbers of carried atomics, in the order of Table 6.5. -/
def AOp.num : AOp → Nat
  | .add => 0 | .min => 1 | .max => 2 | .minn => 3 | .maxn => 4 | .and => 5 | .or => 6 | .xor => 7 | .swp => 8 | .cas => 9

/-- The line and die of a latent-store place. -/
def LsAddr.word (p : LsAddr) : Nat := p.line + 2 ^ 25 * p.die

/-- The bytes of a mask of lanes of 32 bits. -/
def laneMask (m : BitVec 16) : Nat := (List.range 64).foldl (fun n i => n + if m.getLsbD (i / 4) then 2 ^ i else 0) 0

/-- A write of a core's scratchpad by a requester. -/
def spCarried (code rank a : Nat) (bs : List Byte) (off : Nat) : Carried := ⟨0, code, rank, a, 2 ^ bs.length - 1, 0, bs, off⟩

/-- The requester code of a latent-store word by its context and slot (Table 7.3): an untimed context, a cluster, the tile engine, or M. -/
def Own.lsCode (o : Own) : Nat :=
  if o.ctx ≠ 0 then 14 else if 5 ≤ o.slot ∧ o.slot < 13 then o.slot - 5 else if o.slot = 3 then 9 else 8

/-- The carried records of a pending action: the memory writes it has the data for, those of the rest of a TST or TSTL among them. `rank` gives
a core's rank, `slotAt` the address that a receive slot's next line takes in a core. -/
def carriedOf (c : CoreSt) (rank : Nat → Nat) (slotAt : Nat → Nat → Nat) (own : Own) : Act → List Carried
  | .spStore a bs => [spCarried (if own.ctx ≠ 0 then 14 else if own.slot = 3 then 9 else 8) (rank own.core) a bs 0]
  | .vStore cl line m v => [⟨0, cl, rank own.core, 64 * line, laneMask m, 0, natLe 64 v.toNat, 0⟩]
  | .vIdxStore cl m ad j v => ((List.range 16).filter fun k => decide (j ≤ k) && m.getLsbD k).map fun k =>
      spCarried cl (rank own.core) (nth 0 ad k) (natLe 4 (lane v k).toNat) (k - j)
  | .tst a st j r0 r1 t => (List.range (64 - 2 * j)).flatMap fun i =>
      let r := 2 * j + i
      let v := if i = 0 then r0 else if i = 1 then r1 else (c.tile t).row r
      [spCarried 9 (rank own.core) (a + st * r) (natLe 64 (halfRow v 0).toNat) (i / 2),
        spCarried 9 (rank own.core) (a + st * r + 64) (natLe 64 (halfRow v 1).toNat) (i / 2)]
  | .tstl t x o i => (List.range (128 - i)).map fun k =>
      let p := handlePlace x (o + 64 * (i + k))
      ⟨1, 9, rank own.core, p.word, 2 ^ 64 - 1, 0, natLe 64 (halfRow ((c.tile t).row ((i + k) / 2)) ((i + k) % 2)).toNat,
        k + (if p.die = dieOf own.core then 20 else 36)⟩
  | .land core a bs p kind =>
    let code := match kind with | .ap | .map => 10 | .free _ => 14 | .bc => 12 | .recv _ _ _ _ => 12
    let at_ := match kind with | .recv slot _ _ _ => slotAt core slot | _ => a
    [{ spCarried code (rank core) at_ bs 0 with flags := p.toNat }]
  | .portOut _ dst slot _ l => [{ spCarried 12 dst slot (lineBytes l.data) 0 with flags := l.poison.toNat }]
  | .lsStore p m bs => [⟨1, own.lsCode, rank own.core, p.word, m.zipIdx.foldl (fun n x => n + if x.1 then 2 ^ (p.byte % 64 + x.2) else 0) 0, 0,
      List.replicate (p.byte % 64) 0 ++ bs, 0⟩]
  | .lsLand p bs poison _ => [⟨1, 10, rank own.core, p.word, 2 ^ 64 - 1, poison.toNat, bs, 0⟩]
  | .lsAtomic p op w x y ld => [⟨2, own.lsCode, rank own.core, p.word, (2 ^ (w / 8) - 1) * 2 ^ (p.byte % 64), 2 * op.num + 32 * (w / 64),
      natLe 8 x ++ natLe 8 y ++ natLe 1 ld.rd.toNat, 0⟩]
  | .rstReq core a bs => [⟨3, 12, rank core, a, 2 ^ bs.length - 1, 0, bs, 0⟩]
  | _ => []

/-- A record with what orders it: DUE, ISSUE and slot. -/
structure Rec where
  due : Int
  issue : Int
  slot : Nat
  bytes : List Byte
  deriving DecidableEq, Repr

/-- The order of records (R346). -/
def Rec.before (a b : Rec) : Bool :=
  decide (a.due < b.due) || (a.due == b.due && (decide (a.issue < b.issue) || (a.issue == b.issue && decide (a.slot < b.slot))))

/-- Pending actions in the order of records. -/
def pendBefore (a b : Pend) : Bool := Rec.before ⟨a.due, a.own.issue, a.own.slot, []⟩ ⟨b.due, b.own.issue, b.own.slot, []⟩

/-- Bytes placed in a record of n bytes. -/
def recBytes (n : Nat) (l : List Piece) : List Byte :=
  (List.range n).map fun i => match l.find? fun p => decide (p.1 ≤ i) && decide (i < p.1 + p.2.length) with
    | some p => nth 0 p.2 (i - p.1)
    | none => 0

/-- A shadow record of 160 bytes. -/
def shadowRec (p : Pend) (x : Shadow) : Rec :=
  let due := (p.due : Int) + x.off
  ⟨due, p.own.issue, p.own.slot, recBytes 160 [(0, natLe 8 due.toNat), (8, natLe 1 x.kind), (9, natLe 1 x.who), (10, natLe 2 x.idx),
    (12, natLe 2 x.mask), (14, natLe 1 x.poison.toNat), (16, natLe 8 p.own.issue.toNat), (24, natLe 1 p.own.slot), (32, x.val)]⟩

/-- A carried record of 96 bytes. -/
def carriedRec (p : Pend) (x : Carried) : Rec :=
  let due := p.due + x.off
  ⟨due, p.own.issue, p.own.slot, recBytes 96 [(0, natLe 8 due), (8, natLe 1 x.kind), (9, natLe 1 x.code), (10, natLe 2 x.rank),
    (12, natLe 4 x.addr), (16, natLe 8 x.mask), (24, natLe 1 x.flags), (32, x.val)]⟩

/-! ## Context and holder records (R345) -/

/-- A context's state in its record: 0 idle, 1 running or ready, 2 QDEQ outstanding, 3 ended. -/
def Ctx.saveState (x : Ctx) : Nat :=
  match x.st with
  | .idle | .trapped | .halted => 0
  | .ended => 3
  | .ready | .running => 1
  | .blocked => match x.wait with | .qdeq _ _ => 2 | _ => 1

/-- A context record. -/
def ctxPieces (o : Nat) (holder : Bool) (rq : RandQ) (x : Ctx) : List Piece :=
  let marks := (List.range 32).foldl (fun n i => n + if spGet false x.mark i then 2 ^ i else 0) 0
  [(o, (List.range 32).flatMap fun i => natLe 8 (spGet 0 x.s i).toNat),
   (o + 0x100, natLe 4 marks ++ natLe 2 x.pc.toNat ++ natLe 1 x.saveState ++ natLe 1 x.q.toNat),
   (o + 0x108, natLe 8 (x.count.toNat + 2 ^ 32 * x.nrot.toNat + (if holder then 2 ^ 36 * x.ctxb.toNat else 0))
      ++ natLe 8 x.stride.toNat ++ natLe 8 (if holder then rq.pos.toNat else 0) ++ natLe 8 (spmapVal x).toNat ++ natLe 4 x.bars),
   (o + 0x140, (List.range 13).flatMap fun i => match spGet none x.replay i with
      | some r => natLe 4 r.word.toNat ++ natLe 1 r.lend.toNat ++ natLe 3 1
      | none => natLe 8 0),
   (o + 0x200, (List.range 16).flatMap fun i => (spGet Handle.zero x.h i).bytes),
   (o + 0x400, (List.range 8).flatMap fun i => natLe 8 (x.trec.reg i).toNat),
   (o + 0x440, match x.wait with | .qdeq q rd => natLe 2 q ++ natLe 1 rd.toNat | _ => []),
   (o + 0x480, (List.range 64).flatMap fun i => natLe 2 (spGet 0xFFFF x.spill i).toNat)]

/-- The collective of a core that is under way at PCYC P: word, start, and the rows or lines read before P (log 42). -/
def collOf (u : Units) (P : Nat) : List Byte :=
  if u.collEnd ≤ P then []
  else
    let t := P - 1 - u.collFrom
    natLe 4 u.collWord.toNat ++ natLe 8 u.collFrom
      ++ natLe 2 (min u.collLen (if u.collWord.toNat / 2 ^ 26 = 0xA then t / 16 else t))

/-- The MMAs of a core in flight, with their due cycle and whether all rows are read, oldest first. -/
def mmaRuns (pend : List Pend) (core : Nat) : List (Own × MmaRun) :=
  (pend.filter fun p => p.own.core == core).filterMap fun p => match p.act with
    | .mmaRd _ r => some (p.own, r)
    | .wMma r => some (p.own, r)
    | _ => none

/-- Groups of rows completed before P (R268). -/
def mmaGroups (issue : Int) (P : Nat) (cl : Bool) : Nat :=
  let t := (P - issue).toNat
  if cl then min 32 t else min 16 (t - 16)

/-- The partial of an MMA (R268), row after row. -/
def mmaPartial (o : Own) (r : MmaRun) (P : Nat) : List Xa :=
  let g := mmaGroups o.issue P r.cl
  r.own.zipIdx.map fun x => if mmaRowDone r.cl g (x.2 / 64) then x.1 else Xa.zero

/-- FORM as Table 12.1 numbers it. -/
def formNum : MmaForm → Nat
  | .bf16 => 0 | .f16 => 1 | .f8 => 2 | .f4 => 3 | .i8 => 4 | .t2i8 => 5 | .sp => 6

/-- The descriptor of partial `k` (Table 21.7). -/
def mmaDesc (o : Own) (r : MmaRun) (P k : Nat) : List Byte :=
  natLe 1 r.n ++ natLe 1 (formNum r.form) ++ natLe 1 r.cl.toNat ++ natLe 1 r.trunc ++ natLe 8 o.issue.toNat ++ natLe 2 (wrapTo 16 r.anchor)
    ++ natLe 1 (mmaGroups o.issue P r.cl) ++ natLe 1 k ++ natLe 16 0

/-- The holder record. -/
def holderPieces (s : State) (v : Saved) (core : Nat) (c : CoreSt) : List Piece :=
  let o := 0x3000
  let pending := (List.range 640).map fun k => BitVec.ofNat 8 ((List.range 8).foldl (fun n j =>
    n + if (spGet none c.spPend (8 * k + j)).isSome then 2 ^ j else 0) 0)
  let hold := (List.range 16).flatMap fun k =>
    natLe 4 (((s.chans.filter fun x => x.1 == 4 * (core / 64) + k / 4 && x.2.1 == k % 4 && x.2.2.1 == v.panel.pid).map
      (·.2.2.2)).foldl max 0)
  let runs := mmaRuns v.pend core
  [(o, (List.range 8).flatMap fun i => natLe 4 (spGet 0 c.b i).toNat),
   (o + 0x20, (List.range 64).flatMap fun i => natLe 2 (c.rdM (i / 8) (BitVec.ofNat 3 i)).toNat),
   (o + 0x100, (List.range 16).flatMap fun i => natLe 8 (c.tcReg i).toNat),
   (o + 0x180, [c.mctl, c.mstat, c.vstat, c.cpstat, c.spcfg].flatMap fun w => natLe 8 w.toNat),
   (o + 0x200, natLe 2 c.sq.length ++ c.sq.flatMap fun d => natLe 2 d.toNat),
   (o + 0x300, natLe 4 v.panel.stage ++ hold),
   (o + 0x344, (List.range 8).flatMap fun i => match spGet none c.recv i with
      | some r => natLe 4 r.addr ++ natLe 2 r.sender ++ natLe 2 r.port ++ natLe 2 r.lines ++ natLe 2 r.nxt ++ natLe 4 1
      | none => natLe 16 0),
   (o + 0x400, pending),
   (o + 0x680, (List.range 8).flatMap fun cl => natLe 4 ((List.range 32).foldl (fun n i =>
      n + if spGet false c.vMark (32 * cl + i) then 2 ^ i else 0) 0)),
   (o + 0x6A0, (List.range 16).flatMap fun t => natLe 8 (c.tile t).marks.toNat),
   (o + 0x740, collOf c.units v.panel.pcyc),
   (o + 0x800, (runs.take 2).zipIdx.flatMap fun x => mmaDesc x.1.1 x.1.2 v.panel.pcyc x.2)]

/-! ## The whole image (R344) -/

/-- The rank of a core in a panel. -/
def Panel.rankOf (p : Panel) (core : Nat) : Nat := match p.mine.find? fun x => x.1.core == core with | some x => x.2 | none => 0

/-- The saved state of a core of the panel. -/
def Saved.coreOf (v : Saved) (core : Nat) : CoreSt :=
  match (v.panel.cores.zip v.cores).find? fun x => x.1 == core with | some x => x.2 | none => CoreSt.idle

/-- The core whose image holds the records of a pending action: the one of its instruction, or the one that its line is for. -/
def Saved.imageCore (v : Saved) (x : Pend) : Nat :=
  if v.panel.cores.contains x.own.core then x.own.core
  else match x.act with
    | .land c _ _ _ _ => c
    | _ => v.panel.firstCore

/-- The pending actions whose records stand in the image of a core, each with its place among all of them. -/
def Saved.mine (v : Saved) (core : Nat) : List (Pend × Nat) := v.pend.zipIdx.filter fun x => v.imageCore x.1 == core

/-- The core with the rows and halves of rows that are written before a pending action. -/
def CoreSt.withRows (c : CoreSt) (l : List (Pend × Nat)) (x : Pend × Nat) : CoreSt :=
  l.foldl (fun c y =>
    if pendBefore y.1 x.1 || (y.2 < x.2 && !pendBefore x.1 y.1) then
      match y.1.act with
      | .wRow t r v m => c.setTile t ((c.tile t).setRow r v m)
      | .wHalf t r h v m f => c.setTile t ((c.tile t).setHalf r h v m f)
      | _ => c
    else c) c

/-- The latches of a core, with one that a LATCH of this panel writes at P (Table 21.10). -/
def CoreSt.latched (c : CoreSt) (l : List (Pend × Nat)) (P : Nat) : Sparse Latch :=
  l.foldl (fun m x => match x.1.act with | .wLatch n y => if x.1.due ≤ P then spPut Latch.empty m n y else m | _ => m) c.latch

/-- A record of an image, with the pending action that it is of and its number among the records of that. -/
structure Entry where
  rec_ : Rec
  of : Nat
  k : Nat
  deriving DecidableEq, Repr

/-- Entries in the order of records (R346). -/
def entryBefore (a b : Entry) : Bool := a.rec_.before b.rec_

/-- The shadow records of a core's image, in their order. -/
def Saved.shadows (v : Saved) (core : Nat) (c : CoreSt) : List Entry :=
  let l := v.mine core
  sortBy entryBefore (l.flatMap fun x => (shadowsOf (c.withRows l x) v.panel.pcyc x.1).zipIdx.map fun y => ⟨shadowRec x.1 y.1, x.2, y.2⟩)

/-- The carried records of a pending action of the panel. -/
def Saved.carriedBy (v : Saved) (c : CoreSt) (x : Pend) : List Carried :=
  let slotAt := fun (k slot : Nat) => match spGet none (v.coreOf k).recv slot with | some r => r.addr + 64 * r.nxt | none => 0
  carriedOf c v.panel.rankOf slotAt x.own x.act

/-- The carried records of a core's image, in their order. -/
def Saved.carried (v : Saved) (core : Nat) (c : CoreSt) : List Entry :=
  sortBy entryBefore ((v.mine core).flatMap fun x => (v.carriedBy c x.1).zipIdx.map fun y => ⟨carriedRec x.1 y.1, x.2, y.2⟩)

/-- Rows of a map of 1,024-bit rows. -/
def rowPieces (o : Nat) (m : Sparse (BitVec 1024)) : List Piece := m.map fun e => (o + 128 * e.1, natLe 128 e.2.toNat)

/-- Records of XA elements. -/
def xaPieces (o : Nat) (anchor : Int) (l : List Xa) : List Piece := l.zipIdx.map fun x => (o + 32 * x.2, accRecord x.1 anchor)

/-- The image of a core, k-th of the saved panel. -/
def imagePieces (s : State) (v : Saved) (core : Nat) (c : CoreSt) : List Piece :=
  let p := v.panel
  let r := s.run? p.run
  let flags := match r.bind fun r => r.recOf p.node with
    | some x => x.erchk.toNat + 2 * x.hedge.toNat
    | none => 0
  let shadows := (v.shadows core c).map (·.rec_.bytes)
  let carried := (v.carried core c).map (·.rec_.bytes)
  let runs := (mmaRuns v.pend core).take 2
  [(0, natLe 2 1), (8, natLe 8 p.pcyc ++ natLe 2 (p.rankOf core) ++ natLe 1 p.help ++ natLe 1 flags ++ natLe 2 carried.length
      ++ natLe 2 shadows.length ++ natLe 1 runs.length), (32, natLe 6 v.epoch)]
    ++ ((List.range 4).flatMap fun k => if isFwCtx core k then [] else ctxPieces (0x1000 + 0x800 * k) (k == 0) c.rq (c.ctx k))
    ++ holderPieces s v core c
    ++ (c.v.map fun e => (0x4000 + 64 * e.1, natLe 64 e.2.toNat))
    ++ (c.t.flatMap fun e => rowPieces (0x8000 + 0x2000 * e.1) e.2.rows)
    ++ ((c.latched (v.mine core) p.pcyc).flatMap fun e => rowPieces (0x28000 + 0x3000 * e.1) e.2.rows
        ++ [(0x28000 + 0x3000 * e.1 + 0x2000, natLe 8 e.2.kind.toNat),
            (0x28000 + 0x3000 * e.1 + 0x2400, e.2.descs.flatMap fun d => natLe 2 d.toNat)])
    ++ ((List.range 4).flatMap fun n => xaPieces (0x40000 + 0x20000 * n) (c.accum n).anchor (spDense Xa.zero (c.accum n).el 0 4096))
    ++ (runs.zipIdx.flatMap fun x => xaPieces (0xC0000 + 0x20000 * x.2) x.1.2.anchor (mmaPartial x.1.1 x.1.2 p.pcyc))
    ++ (c.sp.map fun e => (0x100000 + e.1, [e.2]))
    ++ (carried.zipIdx.map fun x => (0x150000 + 96 * x.2, x.1))
    ++ (shadows.zipIdx.map fun x => (0x1B0000 + 160 * x.2, x.1))

/-! ## Writing it -/

/-- An undefined range without a part of it. -/
def Undef.without (u : Undef) (lo hi : Nat) : List Undef :=
  if hi ≤ u.lo ∨ u.hi ≤ lo then [u]
  else (if u.lo < lo then [{ u with hi := lo }] else []) ++ (if hi < u.hi then [{ u with lo := hi }] else [])

/-- A range of HBM4E made zero and clean. -/
def State.clearHbm (s : State) (lo n : Nat) : State :=
  let out := fun (a : Nat) => decide (a < lo) || decide (lo + n ≤ a)
  { s with
    hbm := s.hbm.filter fun e => out e.1
    hbmPoison := s.hbmPoison.filter fun e => out (64 * e.1)
    hbmFaulty := s.hbmFaulty.filter fun e => out (64 * e.1)
    hbmUndef := s.hbmUndef.flatMap fun u => u.without lo (lo + n) }

/-- Bytes put into HBM4E from an address on. -/
def State.hbmBytesPut (s : State) (a : Nat) (bs : List Byte) : State := s.hbmPut a (bs.map fun _ => true) bs

/-- The address of a save slot (R342). -/
def State.slotAddr (s : State) (x : Nat × Nat) : Nat := s.ctlFld (offSavebase x.1) 21 27 * 2 ^ 21 + x.2 * 2 ^ 21

/-- A line put back as it stood in `old`: a bank that is parked drops the write (R47). -/
def State.lineKept (s old : State) (a : Nat) : State :=
  let t := (s.hbmBytesPut a (old.hbmBytes a 64)).hbmSetTag a (old.hbmTag a)
  { t with hbmFaulty := spPut false t.hbmFaulty (a / 64) (spGet false old.hbmFaulty (a / 64)) }

/-- Some bank is parked. -/
def State.someParked (s : State) : Bool := (List.range 4).any fun j => (s.parkedBank j).isSome

/-- A core's image written to its slot; poisoned scratchpad lines make poisoned image lines; lines in a parked bank stay as they are, and are
logged (R47, log 121). -/
def State.writeImage (s : State) (v : Saved) (core : Nat) (slot : Nat × Nat) : State :=
  let c := s.core core
  let base := s.slotAddr slot
  let s1 := (imagePieces s v core c).foldl (fun s x => s.hbmBytesPut (base + x.1) x.2) (s.clearHbm base (2 ^ 21))
  let s2 := c.spPoison.foldl (fun s e => s.hbmSetTag (base + 0x100000 + 64 * e.1) true) s1
  if s.someParked then
    (((List.range 32768).map fun i => base + 64 * i).filter s.lineParked).foldl (fun t a =>
      (t.lineKept s a).faqLog ((s.partOfAddr a).getD 0) 3 (some a) a (some v.panel.tenant)) s2
  else s2

/-! ## Reading it back (R347) -/

/-- The handle register in 32 bytes, read as a number. -/
def Handle.ofBytes (n : Nat) : Handle :=
  { v := bt n 0, w := bt n 1, sp := bt n 2, hst := BitVec.ofNat 3 (fld n 3 3), npgm1 := BitVec.ofNat 6 (fld n 6 6),
    ten := BitVec.ofNat 4 (fld n 12 4), gen := BitVec.ofNat 16 (fld n 16 16), vbase := BitVec.ofNat 32 (fld n 32 32),
    pbase := BitVec.ofNat 32 (fld n 64 32), pin := bt n 96, valid := BitVec.ofNat 64 (fld n 128 64), res := BitVec.ofNat 64 (fld n 192 64) }

/-- A context as its record at offset `o` gives it; `rd` reads a field of the image. -/
def restoredCtx (rd : Nat → Nat → Nat) (o : Nat) (holder : Bool) (x : Ctx) : Ctx :=
  let w := fun (a : Nat) => BitVec.ofNat 64 (rd (o + a) 8)
  let st := rd (o + 0x106) 1
  let y : Ctx := if st = x.saveState then
      { x with wait := match x.wait with | .qdeq _ _ => .qdeq (rd (o + 0x440) 2) (BitVec.ofNat 5 (rd (o + 0x442) 1)) | other => other }
    else match st with
      | 0 => { x with st := .idle, wait := .none }
      | 1 => { x with st := if holder then .running else .ready, wait := .none }
      | 2 => { x with st := .blocked, wait := .qdeq (rd (o + 0x440) 2) (BitVec.ofNat 5 (rd (o + 0x442) 1)) }
      | _ => { x with st := .ended, wait := .none }
  { y with
    s := spOf 0 ((List.range 32).map fun i => w (8 * i))
    mark := spOf false ((List.range 32).map fun i => bt (rd (o + 0x100) 4) i)
    pc := BitVec.ofNat 16 (rd (o + 0x104) 2)
    q := BitVec.ofNat 8 (rd (o + 0x107) 1)
    count := BitVec.ofNat 32 (rd (o + 0x108) 4)
    nrot := BitVec.ofNat 4 (rd (o + 0x10C) 1)
    ctxb := if holder then BitVec.ofNat 3 (rd (o + 0x10C) 1 / 16) else x.ctxb
    stride := w 0x110
    bars := rd (o + 0x128) 4
    replay := spOf none ((List.range 13).map fun i =>
      let n := rd (o + 0x140 + 8 * i) 8
      if bt n 40 then some ⟨BitVec.ofNat 32 n, BitVec.ofNat 8 (fld n 32 8)⟩ else none)
    h := spOf Handle.zero ((List.range 16).map fun i => Handle.ofBytes (rd (o + 0x200 + 32 * i) 32))
    trec := ⟨w 0x400, w 0x408, w 0x410, w 0x418, w 0x420, w 0x428, w 0x430, w 0x438⟩
    spill := spOf 0xFFFF ((List.range 64).map fun i => BitVec.ofNat 16 (rd (o + 0x480 + 2 * i) 2)) }

/-- Rows of 1,024 bits from an offset on. -/
def restoredRows (rd : Nat → Nat → Nat) (o : Nat) : Sparse (BitVec 1024) :=
  spOf 0 ((List.range 64).map fun r => BitVec.ofNat 1024 (rd (o + 128 * r) 128))

/-- A tile register. -/
def restoredTile (rd : Nat → Nat → Nat) (t : Nat) : Tile :=
  ⟨restoredRows rd (0x8000 + 0x2000 * t), BitVec.ofNat 64 (rd (0x36A0 + 8 * t) 8)⟩

/-- A stationary latch, full as it was. -/
def restoredLatch (rd : Nat → Nat → Nat) (l : Latch) (n : Nat) : Latch :=
  let o := 0x28000 + 0x3000 * n
  let kind := BitVec.ofNat 64 (rd (o + 0x2000) 8)
  if l.full then
    ⟨true, restoredRows rd o, kind, (List.range (tcRows kind * rowBlocks kind)).map fun i => BitVec.ofNat 16 (rd (o + 0x2400 + 2 * i) 2)⟩
  else l

/-- An accumulator. -/
def restoredAcc (rd : Nat → Nat → Nat) (n : Nat) : Acc :=
  let o := 0x40000 + 0x20000 * n
  ⟨spOf Xa.zero ((List.range 4096).map fun i => recordElem (natLe 32 (rd (o + 32 * i) 32))), recordAnchor (natLe 32 (rd o 32))⟩

/-- A receive slot of the holder record: armed or not, with the owner that the save kept. -/
def restoredSlot (rd : Nat → Nat → Nat) (core : Nat) (old : Option RecvSlot) (i : Nat) : Option RecvSlot :=
  let w := fun (a n : Nat) => rd (0x3344 + 16 * i + a) n
  if w 12 4 = 0 then none
  else some ⟨w 0 4, w 4 2, w 6 2, w 8 2, w 10 2, match old with | some r => r.own | none => Own.none core⟩

/-- A core with every register that its image holds. -/
def State.restoredCore (s : State) (base core : Nat) (c : CoreSt) : CoreSt :=
  let rd := fun (a n : Nat) => leNat (s.hbmBytes (base + a) n)
  let w := fun (a : Nat) => BitVec.ofNat 64 (rd (0x3000 + a) 8)
  { c with
    ctxs := c.ctxs.map fun e => if isFwCtx core e.1 then e else (e.1, restoredCtx rd (0x1000 + 0x800 * e.1) (e.1 == 0) e.2)
    b := spOf 0 ((List.range 8).map fun i => BitVec.ofNat 20 (rd (0x3000 + 4 * i) 4))
    m := spOf 0 ((List.range 64).map fun i => if i % 8 = 0 then 0 else BitVec.ofNat 16 (rd (0x3020 + 2 * i) 2))
    tc := spOf 0 ((List.range 16).map fun i => w (0x100 + 8 * i))
    mctl := w 0x180
    mstat := w 0x188
    vstat := w 0x190
    cpstat := w 0x198
    spcfg := w 0x1A0
    sq := (List.range (min 64 (rd 0x3200 2))).map fun i => BitVec.ofNat 16 (rd (0x3202 + 2 * i) 2)
    rq := { c.rq with pos := BitVec.ofNat 46 (rd 0x1118 8) }
    v := spOf 0 ((List.range 256).map fun i => BitVec.ofNat 512 (rd (0x4000 + 64 * i) 64))
    vMark := spOf false ((List.range 256).map fun i => bt (rd (0x3680 + 4 * (i / 32)) 4) (i % 32))
    t := spOf Tile.zero ((List.range 16).map (restoredTile rd))
    latch := spOf Latch.empty ((List.range 4).map fun n => restoredLatch rd (spGet Latch.empty c.latch n) n)
    acc := spOf Acc.zero ((List.range 4).map (restoredAcc rd))
    recv := spOf none ((List.range 8).map fun i => restoredSlot rd core (spGet none c.recv i) i)
    spPend := spOf none ((List.range 5120).map fun i =>
      if bt (rd (0x3400 + i / 8) 1) (i % 8) then some ((spGet none c.spPend i).getD (0, 0, 0)) else none)
    spPoison := spOf false ((List.range 5120).map fun i => s.hbmTag (base + 0x100000 + 64 * i))
    sp := spOf 0 (s.hbmBytes (base + 0x100000) 327680) }

/-! ### Its records -/

/-- A shadow record as the image holds it now. -/
def Shadow.read (y : Shadow) (b : List Byte) : Shadow :=
  { y with who := fieldAt b 9 1, idx := fieldAt b 10 2, mask := fieldAt b 12 2, poison := bt (fieldAt b 14 1) 0, val := b.drop 32 }

/-- A carried record as the image holds it now. -/
def Carried.read (y : Carried) (b : List Byte) : Carried :=
  { y with code := fieldAt b 9 1, rank := fieldAt b 10 2, addr := fieldAt b 12 4, mask := fieldAt b 16 8, flags := fieldAt b 24 1, val := b.drop 32 }

/-- The first n bytes of a shadow record's value. -/
def Shadow.n (y : Shadow) (n : Nat) : Nat := leNat (y.val.take n)

/-- A value of w bits. -/
def Shadow.bits (y : Shadow) (w : Nat) : BitVec w := BitVec.ofNat w (y.n ((w + 7) / 8))

/-- The operand rows of tile t among records. -/
def rowsOf (l : List Shadow) (t : Nat) : Sparse (BitVec 1024) :=
  (l.filter fun y => y.kind == 11 && y.who == t).foldl (fun m y => spPut 0 m y.idx (y.bits 1024)) []

/-- The scale-queue entries among records. -/
def descsOf (l : List Shadow) : List (BitVec 16) :=
  (l.filter fun y => y.kind == 10).flatMap fun y => (List.range y.idx).map fun i => BitVec.ofNat 16 (fieldAt y.val (2 * i) 2)

/-- Rows of a tile replaced by records. -/
def Tile.withRecs (x : Tile) (l : List Shadow) : Tile := l.foldl (fun x y => x.setRow (y.idx % 64) (y.bits 1024) y.poison) x

/-- The lanes of a record in a vector. -/
def withLanes (acc : BitVec 512) (y : Shadow) : BitVec 512 :=
  (List.range 16).foldl (fun v i => if bt y.mask i then setLane v i (lane (y.bits 512) i).toNat else v) acc

/-- The tiles that ACWR has read, with the rows of records. -/
def tilesRead (l : List Shadow) (x : Nat × Word × Tile) : Nat × Word × Tile := (x.1, x.2.1, x.2.2.withRecs (l.filter fun y => y.who == x.1))

/-- A pending action with what its shadow records hold now. -/
def Act.withShadows (a : Act) (l : List Shadow) : Act :=
  match l with
  | [] => a
  | y :: _ =>
    match a with
    | .wS _ _ _ _ => .wS y.who (BitVec.ofNat 5 y.idx) (y.bits 64) y.poison
    | .wQ _ _ _ => .wQ y.who (BitVec.ofNat 3 y.idx) (y.n 1 != 0)
    | .wH _ _ _ => .wH y.who (BitVec.ofNat 4 y.idx) (Handle.ofBytes (y.n 32))
    | .wB _ _ => .wB (BitVec.ofNat 3 y.idx) (y.bits 20)
    | .wV _ _ _ _ _ => .wV y.who (BitVec.ofNat 5 y.idx) (BitVec.ofNat 16 y.mask) (y.bits 512) y.poison
    | .wM _ _ _ => .wM y.who (BitVec.ofNat 3 y.idx) (y.bits 16)
    | .wRow _ _ _ _ => .wRow y.who (y.idx % 64) (y.bits 1024) y.poison
    | .wHalf _ _ h _ m f =>
      .wHalf y.who (y.idx % 64) h (halfRow (y.bits 1024) h) (if y.poison == (m || f) then m else y.poison) (f && y.poison)
    | .wTile _ x => .wTile y.who (x.withRecs l)
    | .wFlag _ _ => .wFlag y.idx (y.bits 64)
    | .wClear _ _ => .wClear y.idx (y.bits 64)
    | .wSr _ _ _ => .wSr y.who y.idx (y.bits 64)
    | .wLp _ _ _ => .wLp y.who (BitVec.ofNat 32 (y.n 8)) (BitVec.ofNat 4 (y.n 8 / 2 ^ 32))
    | .rqSet seed _ => .rqSet (seed.map fun _ => BitVec.ofNat 64 (leNat ((y.val.drop 8).take 8))) (BitVec.ofNat 46 (y.n 8))
    | .wSpill _ _ _ _ => .wSpill y.who y.idx (BitVec.ofNat 16 (leNat ((y.val.drop 8).take 2))) (y.bits 64)
    | .sqPush _ => .sqPush (descsOf l)
    | .vGather _ _ m ad todo acc _ => .vGather y.who (BitVec.ofNat 5 y.idx) m ad todo (withLanes acc y) y.poison
    | .vIdxLoad _ _ m ad j acc _ => .vIdxLoad y.who (BitVec.ofNat 5 y.idx) m ad j (withLanes acc y) y.poison
    | .wLatch n x => .wLatch n { x with rows := rowsOf l y.who, descs := descsOf l }
    | .latchRd n t j x => .latchRd n t j { x with rows := rowsOf l y.who, descs := descsOf l }
    | .tileRd d t j tr x => .tileRd d t j tr (x.withRecs l)
    | .mmaRd j r => .mmaRd j { r with rowsA := rowsOf l r.t, rowsB := rowsOf l (r.t + 1), descs := descsOf l }
    | .wMma r => .wMma { r with rowsA := rowsOf l r.t, rowsB := rowsOf l (r.t + 1), descs := descsOf l }
    | .wAccTile n f _ tiles =>
      let x := tiles.map (tilesRead l)
      .wAccTile n f (spBuild 0 4096 fun k => tilesCode x f (k / 64) (k % 64)) x
    | other => other

/-- The place of a latent-store word (R346). -/
def LsAddr.ofWord (w off : Nat) : LsAddr := ⟨w / 2 ^ 25 % 2, w % 2 ^ 25 * 64 + off⟩

/-- The lowest byte of a mask. -/
def maskLow (m : Nat) : Nat := ((List.range 64).find? fun i => bt m i).getD 0

/-- A pending action with what its carried records hold now; `coreOf` gives the core of a rank. A landing in a receive slot goes where the slot
says. -/
def Act.withCarried (coreOf : Nat → Nat) (a : Act) (l : List Carried) : Act :=
  match l with
  | [] => a
  | y :: _ =>
    let line := leNat (y.val.take 64)
    match a with
    | .spStore _ bs => .spStore y.addr (y.val.take bs.length)
    | .vStore _ _ _ _ => .vStore y.code (y.addr / 64) (BitVec.ofNat 16 (lanesOf fun i => bt y.mask (4 * i))) (BitVec.ofNat 512 line)
    | .vIdxStore cl m ad j v =>
      let ks := (List.range 16).filter fun k => decide (j ≤ k) && m.getLsbD k
      let z := ks.zip l
      .vIdxStore cl m ((List.range 16).map fun k => match z.find? fun x => x.1 == k with | some x => x.2.addr | none => nth 0 ad k) j
        (z.foldl (fun v x => setLane v x.1 (leNat (x.2.val.take 4))) v)
    | .land _ a bs _ k =>
      .land (coreOf y.rank) (match k with | .recv _ _ _ _ => a | _ => y.addr) (y.val.take bs.length) (bt y.flags 0) k
    | .portOut port _ slot lat x => .portOut port y.rank slot lat ⟨BitVec.ofNat 512 line, bt y.flags 0, x.absent⟩
    | .lsStore p m bs =>
      let lo := p.byte % 64
      .lsStore (LsAddr.ofWord y.addr lo) ((List.range m.length).map fun i => bt y.mask (lo + i)) ((y.val.drop lo).take bs.length)
    | .lsLand _ _ _ run => .lsLand (LsAddr.ofWord y.addr 0) (y.val.take 64) (bt y.flags 0) run
    | .lsAtomic _ op w _ _ ld => .lsAtomic (LsAddr.ofWord y.addr (maskLow y.mask)) op w (leNat (y.val.take 8)) (leNat ((y.val.drop 8).take 8)) ld
    | .rstReq _ _ bs => .rstReq (coreOf y.rank) y.addr (y.val.take bs.length)
    | other => other

/-- The records of `size` bytes that stand in an image from `lo` on, the first `count` of them, each with what it was written for. -/
def State.imageRecs (s : State) (lo size count : Nat) (l : List Entry) : List (Entry × List Byte) :=
  (l.zipIdx.filter fun x => decide (x.2 < count)).map fun x => (x.1, s.hbmBytes (lo + size * x.2) size)

/-- The records of the i-th pending action, in their order within it. -/
def recsOf (l : List (Entry × List Byte)) (i : Nat) : List (Nat × List Byte) :=
  (sortBy (fun a b => decide (a.1 < b.1)) ((l.filter fun x => x.1.of == i).map fun x => (x.1.k, x.2)))

/-- A pending action's cycle, and for a shadow record its issue and slot, as its first record has them. -/
def Pend.timedBy (p : Pend) (b : List Byte) (off : Int) (shadow : Bool) : Pend :=
  { p with
    due := ((fieldAt b 0 8 : Int) - off).toNat
    own := if shadow then { p.own with issue := fieldAt b 16 8, slot := fieldAt b 24 1 } else p.own }

/-- A pending action as the records of its core's image have it; none where the image holds none of them any more (log 43). -/
def Saved.readBack (v : Saved) (c : CoreSt) (sh ca : List (Entry × List Byte)) (l : List (Pend × Nat)) (x : Pend × Nat) : Option Pend :=
  let ys := shadowsOf (c.withRows l x) v.panel.pcyc x.1
  let zs := v.carriedBy c x.1
  let coreOf := fun (r : Nat) => match v.panel.rank? r with | some k => k.core | none => x.1.own.core
  match ys, zs with
  | [], [] => some x.1
  | y :: _, _ =>
    (match recsOf sh x.2 with
     | [] => none
     | r :: rs => some { x.1.timedBy r.2 (if r.1 = 0 then y.off else (nth y ys r.1).off) true with
         act := x.1.act.withShadows ((r :: rs).map fun q => (nth y ys q.1).read q.2) })
  | [], z :: _ =>
    (match recsOf ca x.2 with
     | [] => none
     | r :: rs => some { x.1.timedBy r.2 (nth z zs r.1).off false with
         act := x.1.act.withCarried coreOf ((r :: rs).map fun q => (nth z zs q.1).read q.2) })

/-- A LATCH that writes at P has its rows in the latch's own area. -/
def latchBack (rd : Nat → Nat → Nat) (P : Nat) (x : Pend) : Pend :=
  match x.act with
  | .wLatch n l => if x.due ≤ P then { x with act := .wLatch n (restoredLatch rd l n) } else x
  | _ => x

/-- An MMA with its partial, its accumulator, TRUNC and anchor as the image gives them (R268, R368). -/
def mmaBack (rd : Nat → Nat → Nat) (k : Nat) (r : MmaRun) : MmaRun :=
  let d := 0x3800 + 32 * k
  { r with
    n := rd d 1
    trunc := rd (d + 3) 1
    anchor := sext 16 (rd (d + 12) 2)
    part := some (rd (d + 14) 1, (List.range 4096).map fun i => recordElem (natLe 32 (rd (0xC0000 + 0x20000 * k + 32 * i) 32))) }

/-- The MMAs of a core among its pending actions take what their partials hold; `k` counts them. -/
def mmasBack (rd : Nat → Nat → Nat) (core : Nat) : Nat → List Pend → List Pend
  | _, [] => []
  | k, x :: xs =>
    if x.own.core = core ∧ k < 2 then
      match x.act with
      | .mmaRd j r => { x with act := .mmaRd j (mmaBack rd k r) } :: mmasBack rd core (k + 1) xs
      | .wMma r => { x with act := .wMma (mmaBack rd k r) } :: mmasBack rd core (k + 1) xs
      | _ => x :: mmasBack rd core k xs
    else x :: mmasBack rd core k xs

/-- The pending actions of a saved panel as the image of one core gives those that it holds. -/
def State.recordsBack (s : State) (v : Saved) (core base : Nat) (c : CoreSt) : List (Pend × Nat) :=
  let rd := fun (a n : Nat) => leNat (s.hbmBytes (base + a) n)
  let sh := s.imageRecs (base + 0x1B0000) 160 (rd 22 2) (v.shadows core c)
  let ca := s.imageRecs (base + 0x150000) 96 (rd 20 2) (v.carried core c)
  let l := v.mine core
  let back := l.filterMap fun x => (v.readBack c sh ca l x).map fun y => (latchBack rd v.panel.pcyc y, x.2)
  (mmasBack rd core 0 (back.map (·.1))).zip (back.map (·.2))

/-! ### The panel -/

/-- A saved panel with its cores, its records, its stage counter and the tenant's epoch as their images give them (R63, R347). -/
def State.restored (s : State) (v : Saved) : Saved :=
  let l := (v.panel.cores.zip v.cores).zip v.slots
  let rd := fun (a n : Nat) => match v.slots with | x :: _ => leNat (s.hbmBytes (s.slotAddr x + a) n) | [] => 0
  { v with
    cores := l.map fun x => s.restoredCore (s.slotAddr x.2) x.1.1 x.1.2
    pend := (sortBy (fun a b => decide (a.2 < b.2)) ((l.flatMap fun x => s.recordsBack v x.1.1 (s.slotAddr x.2) x.1.2)
      ++ v.pend.zipIdx.filter fun x => !l.any fun y => y.1.1 == v.imageCore x.1)).map (·.1)
    panel := if v.slots.isEmpty then v.panel else { v.panel with stage := rd 0x3300 4 }
    epoch := if v.slots.isEmpty then v.epoch else rd 32 6 }

/-- The end of a channel's holding as the image of a core of its quarter gives it (R345). -/
def State.chanBack (s : State) (v : Saved) (ap ch end_ : Nat) : Nat :=
  match (v.panel.cores.zip v.slots).find? fun x => x.1 / 64 == ap / 4 with
  | some x => leNat (s.hbmBytes (s.slotAddr x.2 + 0x3304 + 4 * (4 * (ap % 4) + ch)) 4)
  | none => end_

/-- The lines of a slot whose read is not clean: poisoned, corrected or parked. -/
def State.slotLines (s : State) (slot : Nat × Nat) : List Nat :=
  let base := s.slotAddr slot
  let inside := fun (a : Nat) => decide (base ≤ a) && decide (a < base + 2 ^ 21)
  let l := if s.someParked || s.hbmUndef.any (fun u => decide (u.lo < base + 2 ^ 21) && decide (base < u.hi)) then
      (List.range 32768).map fun i => base + 64 * i
    else sortBy (fun a b => decide (a < b)) ((((s.hbmPoison.map (·.1)) ++ (s.hbmFaulty.map (·.1))).map (64 * ·)).eraseDups.filter inside)
  l.filter fun a => s.lineParked a || s.hbmTag a || s.hbmCe a

/-- What the read of a slot logs (R44, R47, log 121). -/
def State.slotNotes (s : State) (tenant : Nat) (slot : Nat × Nat) : State :=
  (s.slotLines slot).foldl (fun s a => s.noteRead a (some tenant)) s

/-- A line of a slot carries a poison tag; a line of a parked bank is read with one (R47). -/
def State.slotPoisoned (s : State) (slot : Nat × Nat) : Bool := (s.slotLines slot).any fun a => s.lineParked a || s.hbmTag a

end Sys2Proof.Machine
end

