-- ==== Sys2Proof/Machine/Preempt.lean ====
section
/-!
DEFINITION. Pre-emption at P, the save, and the resumption of a panel on its new cores (04 R63; 05 R85; 10 R212; 12 R268; 18 R342 to R348).
-/
namespace Sys2Proof.Machine

/-! ## The save (R343) -/

/-- The panel is held before P. -/
def Panel.atP (p : Panel) : Bool :=
  match p.preempt with
  | some t => p.st == .running && p.frozen && decide (t ≤ p.pcyc) && p.failAt.isNone
  | none => false

/-- A copy as it is kept: prefetched lines are dropped, and their reads come afresh; what a timed CPY has read stays (R85). -/
def CopyRun.kept (c : CopyRun) : CopyRun :=
  if c.cpy then { c with tried := 0 } else { c with staged := [], nreq := c.sent, tried := 0 }

/-- A timed copy of a panel. -/
def CopyRun.timedOf (c : CopyRun) (pid : Nat) : Bool := c.pid == some pid && c.timed

/-- A page request due at P or later is made in the drain, and its status becomes a write of its own cycle (R343, R348). -/
def drainPage (x : State × List Pend) (p : Pend) : State × List Pend :=
  match p.act with
  | .pgAsk h page rd =>
    let r := x.1.pageStatus p.own h page rd
    (r.1, x.2 ++ (match r.2 with | some v => [{ p with act := .wS p.own.ctx rd v false }] | none => []))
  | _ => (x.1, x.2 ++ [p])

/-- PREEMPT_SAVE (R343): at P the panel's pending writes become records, its copies are kept, and its contexts leave their queues (R347). -/
def execPreemptSave (panel : Nat) (s : State) : Out :=
  .next (match s.panel? panel with
    | none => s
    | some p =>
      if !p.atP then s
      else
        let clk := Clk.panel panel
        let d := (s.pend.filter fun x => x.clk == clk).foldl drainPage (p.cores.foldl State.leaveQueues s, [])
        let s0 := d.1
        let q : Panel := { p with st := .saved, frozen := true, frz := [], preempt := none, saveMask := [], lateAt := [] }
        let prefetch := fun (r : HbmReq) => match r.use with
          | .copyRead k _ _ => s.copies.any fun c => c.id == k && c.timedOf panel && !c.cpy
          | _ => false
        let v : Saved :=
          { panel := q, cores := p.cores.map s0.core, pend := d.2, links := s0.links.filter fun x => x.clk == clk && decide (x.due ≥ p.pcyc),
            copies := (s0.copies.filter fun c => c.timedOf panel).map CopyRun.kept,
            slots := p.saveMask.map fun y => (y / 4096, y % 4096), epoch := s.epochOf p.tenant, complete := [], late := [] }
        { (s0.updPanel panel fun _ => q) with
          pend := s0.pend.filter fun x => x.clk != clk
          links := s0.links.filter fun x => x.clk != clk
          copies := s0.copies.filter fun c => !c.timedOf panel
          reqs := s0.reqs.map fun r => if prefetch r then { r with use := .dropped } else r
          saved := s0.saved ++ [v] })

/-- A packet inside a Gramer port stays there (R343). -/
def inPort (x : Pend) : Bool := match x.act with | .portPass _ => true | _ => false

/-- What a saved panel presented to the memory controllers before P has performed, and the lines that its CPYs read have come (R85, R279). -/
def State.settled (s : State) (v : Saved) : Bool :=
  (s.reqs ++ s.wbq).all fun r => match r.use with
    | .copyWrite k _ _ => r.performed && !s.wbq.contains r || !v.copies.any fun c => c.id == k
    | .copyRead k _ _ => !v.copies.any fun c => c.id == k
    | _ => true

/-- The untimed operations of a core's helpers have all run to completion (R343). -/
def State.drained (s : State) (core : Nat) : Bool :=
  !(s.copies.any fun c => c.cpy && !c.timed && !c.done && c.own.core == core && !isFwCtx core c.own.ctx)
    && !(s.pages.any fun g => g.core == core && g.ctx != 0 && !isFwCtx core g.ctx)
    && !(s.queueReqs.any fun r => r.core == core && !isFwCtx core r.ctx)
    && !(s.pend.any fun x => x.clk == .scyc && x.own.core == core && !isFwCtx core x.own.ctx && !inPort x)

/-- A handle as it stood at P, with the pages that have become resident since (R60, R63). -/
def Handle.asSaved (old new : Handle) : Handle := { old with res := old.res ||| new.res }

/-- Handle registers of the contexts as they stood at P (R63). -/
def CoreSt.withHandles (c old : CoreSt) (core : Nat) : CoreSt :=
  { c with ctxs := c.ctxs.map fun x => if isFwCtx core x.1 then x
      else (x.1, { x.2 with h := (old.ctx x.1).h.map fun y => (y.1, y.2.asSaved (x.2.rdH (BitVec.ofNat 4 y.1))) }) }

/-- The status of a fence of a core that is still to be written, computed now, with LATE = 0 (R184). -/
def fenceSaved (core : Nat) (x : CoreSt × List Pend) (p : Pend) : CoreSt × List Pend :=
  match p.act with
  | .fenceSt k rd scope =>
    if p.own.core ≠ core then (x.1, x.2 ++ [p])
    else
      (x.1.updCtx k fun y => y.clearFailed p.own.issue scope,
        x.2 ++ [{ p with act := .wS k rd ((x.1.ctx k).fenceWord p.own.issue scope false) false }])
  | _ => (x.1, x.2 ++ [p])

/-- SAVE_COMPLETE (R343): the image of one core stands in its slot and the core is free; with the last one the panel has left its cores. -/
def execSaveComplete (panel core : Nat) (s : State) : Out :=
  .next (match s.panel? panel, s.saved.find? fun v => v.panel.pid == panel with
    | some p, some v =>
      match p.cores.zipIdx.find? fun x => x.1 == core with
      | none => s
      | some (_, k) =>
        if p.st != .saved || v.complete.contains core || !s.drained core || !s.settled v || (s.core core).panel != some panel then s
        else
          let s0 := s.leaveQueues core
          let passing := fun (x : Pend) => inPort x && x.own.core == core
          let d := v.pend.foldl (fenceSaved core) ((s0.core core).withHandles (nth CoreSt.idle v.cores k) core, [])
          let v1 : Saved := { v with
            cores := v.cores.set k d.1, pend := d.2 ++ s0.pend.filter passing, complete := v.complete ++ [core] }
          let s1 := (s0.setCore core d.1).writeImage v1 core (nth (0, 0) v.slots k)
          let s2 := { s1.releaseCore core with saved := s1.saved.map fun x => if x.panel.pid = panel then v1 else x }
          if v1.complete.length = v1.cores.length then { s2 with panels := s2.panels.filter fun q => q.pid != panel } else s2
    | _, _ => s)

/-! ## Resumption (R347) -/

/-- A context that was waiting in a queue performs q_deq afresh. -/
def State.dequeueAgain (s : State) (core k : Nat) : State :=
  let x := s.ctx core k
  if isFwCtx core k ∨ x.st ≠ .blocked then s
  else match x.wait with
    | .qdeq q rd =>
      (match queueTrap s .deq q x.tenant false with
       | some why => (s.updCtx core k fun x => { x with st := .running, wait := .none }).found core k (s.noOwner core k (.queue q why))
       | none =>
         let r := s.queueOp .deq q core k
         match r.2 with
         | .val v p => r.1.updCtx core k fun x => { x with wait := .qgot v rd p }
         | _ => r.1)
    | _ => s

/-- The placed panel is a saved one and resumes in this cycle. -/
def State.resumesNow (s : State) (p : Panel) : Bool :=
  p.st == .placed && decide (p.pcyc > 0) && p.phaseAt s.scyc && s.readyToStart p && (s.run? p.run).isSome
    && (s.saved.any fun v => v.panel.pid == p.pid) && (if p.hedge then p.annS == some s.scyc else true)

/-- The panel restored on its new cores from its images, with PCYC P to come; the records wait in their order, and so do the lines that have
left a Gramer port since (R212). A poisoned line of an image is fatal to it (R347). -/
def State.resume (s : State) (p : Panel) : State :=
  match s.saved.find? fun v => v.panel.pid == p.pid with
  | none => s
  | some v0 =>
    let v1 := s.restored v0
    let v := s.rewalkSaved v1
    let s := v.slots.foldl (fun s x => s.slotNotes p.tenant x) (s.rewalkNotes { v1 with copies := [] })
    let m := movedCore v.panel p
    let ap := movedAp v.panel p
    let s1 := ((v.panel.cores.zip p.cores).zip v.cores).foldl (fun s x =>
      s.updCore x.1.2 fun c => resumedCore v.panel p x.2 c x.1.1 x.1.2) s
    let s2 : State := { s1 with
      pend := s1.pend ++ (sortBy pendBefore v.pend ++ v.late).map fun x => { x with own := x.own.moved m, act := x.act.moved m ap }
      links := s1.links ++ v.links.map fun x => { x with own := x.own.moved m }
      chans := s1.chans.map fun x => if x.2.2.1 = p.pid then
        (x.1, x.2.1, x.2.2.1, s.chanBack v ((x.1 + 16 - (movedAp v.panel p 0)) % 16) x.2.1 x.2.2.2) else x
      saved := s1.saved.filter fun x => x.panel.pid != p.pid }
    let q : Panel := { p with st := .running, startS := s.scyc, frozen := true, annS := none, fresh := true, stage := v.panel.stage }
    let w := s.scyc / 1024
    let s3 := s2.updPanel p.pid fun _ =>
      if s2.powerFreezes q w then q.addWindow s.scyc (some (1024 * (w + 1))) else q
    let s4 := p.cores.foldl (fun s c => (List.range 4).foldl (fun s k => s.dequeueAgain c k) s) s3
    if v.slots.any s.slotPoisoned then
      match s4.panel? p.pid with
      | some q => s4.fatalPanel q none 17 0
      | none => s4
    else s4

end Sys2Proof.Machine
end

