-- ==== Sys2Proof/Machine/Dispatch.lean ====
section
/-!
DEFINITION. One arm per instruction: each a direct call of its meaning.
-/
namespace Sys2Proof.Machine

/-- The effect of an instruction: of a slot word on the bundle in hand, of a step of the part on the part. -/
def exec (i : Instr) (s : State) : Host.Outcome State Fault Refusal :=
  match i with
  | .add p d a b => Sys2Proof.Machine.execAdd p d a b s
  | .sub p d a b => Sys2Proof.Machine.execSub p d a b s
  | .and p d a b => Sys2Proof.Machine.execAnd p d a b s
  | .or p d a b => Sys2Proof.Machine.execOr p d a b s
  | .xor p d a b => Sys2Proof.Machine.execXor p d a b s
  | .shl p d a b => Sys2Proof.Machine.execShl p d a b s
  | .shr p d a b => Sys2Proof.Machine.execShr p d a b s
  | .sar p d a b => Sys2Proof.Machine.execSar p d a b s
  | .mul p d a b => Sys2Proof.Machine.execMul p d a b s
  | .mulh p d a b => Sys2Proof.Machine.execMulh p d a b s
  | .mulhn p d a b => Sys2Proof.Machine.execMulhn p d a b s
  | .div p d a b => Sys2Proof.Machine.execDiv p d a b s
  | .divn p d a b => Sys2Proof.Machine.execDivn p d a b s
  | .rem p d a b => Sys2Proof.Machine.execRem p d a b s
  | .remn p d a b => Sys2Proof.Machine.execRemn p d a b s
  | .min p d a b => Sys2Proof.Machine.execMin p d a b s
  | .max p d a b => Sys2Proof.Machine.execMax p d a b s
  | .minn p d a b => Sys2Proof.Machine.execMinn p d a b s
  | .maxn p d a b => Sys2Proof.Machine.execMaxn p d a b s
  | .clz p d a => Sys2Proof.Machine.execClz p d a s
  | .popc p d a => Sys2Proof.Machine.execPopc p d a s
  | .mov p d a => Sys2Proof.Machine.execMov p d a s
  | .movToB p d a => Sys2Proof.Machine.execMovToB p d a s
  | .movFromB p d a => Sys2Proof.Machine.execMovFromB p d a s
  | .cmp p q a b cc => Sys2Proof.Machine.execCmp p q a b cc s
  | .sel p d a b q => Sys2Proof.Machine.execSel p d a b q s
  | .bfx p d a n pos => Sys2Proof.Machine.execBfx p d a n pos s
  | .bfi p d a n pos => Sys2Proof.Machine.execBfi p d a n pos s
  | .pand p d a b => Sys2Proof.Machine.execPand p d a b s
  | .por p d a b => Sys2Proof.Machine.execPor p d a b s
  | .pxor p d a b => Sys2Proof.Machine.execPxor p d a b s
  | .pnot p d a => Sys2Proof.Machine.execPnot p d a s
  | .addi p e d a fi => Sys2Proof.Machine.execAddi p e d a fi s
  | .andi p e d a fi => Sys2Proof.Machine.execAndi p e d a fi s
  | .ori p e d a fi => Sys2Proof.Machine.execOri p e d a fi s
  | .xori p e d a fi => Sys2Proof.Machine.execXori p e d a fi s
  | .shli p d a n => Sys2Proof.Machine.execShli p d a n s
  | .shri p d a n => Sys2Proof.Machine.execShri p d a n s
  | .sari p d a n => Sys2Proof.Machine.execSari p d a n s
  | .li p e d fi => Sys2Proof.Machine.execLi p e d fi s
  | .lih p d fi => Sys2Proof.Machine.execLih p d fi s
  | .getsr p d n => Sys2Proof.Machine.execGetsr p d n s
  | .setsr p a n => Sys2Proof.Machine.execSetsr p a n s
  | .spill p a k => Sys2Proof.Machine.execSpill p a k s
  | .fill p d k => Sys2Proof.Machine.execFill p d k s
  | .br q e n o => Sys2Proof.Machine.execBr q e n o s
  | .jmp p a => Sys2Proof.Machine.execJmp p a s
  | .jmpr p a => Sys2Proof.Machine.execJmpr p a s
  | .call p e d o => Sys2Proof.Machine.execCall p e d o s
  | .ret p a => Sys2Proof.Machine.execRet p a s
  | .lpset p a n => Sys2Proof.Machine.execLpset p a n s
  | .loop p e o => Sys2Proof.Machine.execLoop p e o s
  | .endStrand => Sys2Proof.Machine.execEndStrand s
  | .bar => Sys2Proof.Machine.execBar s
  | .trap c => Sys2Proof.Machine.execTrap c s
  | .eret => Sys2Proof.Machine.execEret s
  | .fence d sc => Sys2Proof.Machine.execFence d sc s
  | .drift d a => Sys2Proof.Machine.execDrift d a s
  | .idle n => Sys2Proof.Machine.execIdle n s
  | .lds p e d base z o => Sys2Proof.Machine.execLds p e d base z o s
  | .ldsIndexed p d base z x => Sys2Proof.Machine.execLdsIndexed p d base z x s
  | .sts p e d base z o => Sys2Proof.Machine.execSts p e d base z o s
  | .stsIndexed p d base z x => Sys2Proof.Machine.execStsIndexed p d base z x s
  | .ldl p e d h z o => Sys2Proof.Machine.execLdl p e d h z o s
  | .ldlIndexed p d h z x => Sys2Proof.Machine.execLdlIndexed p d h z x s
  | .stl p e d h z o => Sys2Proof.Machine.execStl p e d h z o s
  | .stlIndexed p d h z x => Sys2Proof.Machine.execStlIndexed p d h z x s
  | .xlat p h a b => Sys2Proof.Machine.execXlat p h a b s
  | .hchk p d h q => Sys2Proof.Machine.execHchk p d h q s
  | .hinv p a b => Sys2Proof.Machine.execHinv p a b s
  | .aadd p d h fi x z => Sys2Proof.Machine.execAadd p d h fi x z s
  | .amin p d h fi x z => Sys2Proof.Machine.execAmin p d h fi x z s
  | .amax p d h fi x z => Sys2Proof.Machine.execAmax p d h fi x z s
  | .aminn p d h fi x z => Sys2Proof.Machine.execAminn p d h fi x z s
  | .amaxn p d h fi x z => Sys2Proof.Machine.execAmaxn p d h fi x z s
  | .aand p d h fi x z => Sys2Proof.Machine.execAand p d h fi x z s
  | .aor p d h fi x z => Sys2Proof.Machine.execAor p d h fi x z s
  | .axor p d h fi x z => Sys2Proof.Machine.execAxor p d h fi x z s
  | .aswp p d h fi x z => Sys2Proof.Machine.execAswp p d h fi x z s
  | .acas p d h fi x z => Sys2Proof.Machine.execAcas p d h fi x z s
  | .qinit p a b => Sys2Proof.Machine.execQinit p a b s
  | .qenq p d a b => Sys2Proof.Machine.execQenq p d a b s
  | .qdeq p d a => Sys2Proof.Machine.execQdeq p d a s
  | .qtry p d a q => Sys2Proof.Machine.execQtry p d a q s
  | .qlen p d a => Sys2Proof.Machine.execQlen p d a s
  | .rld p e d k a z o => Sys2Proof.Machine.execRld p e d k a z o s
  | .rst p e d k a z o => Sys2Proof.Machine.execRst p e d k a z o s
  | .vld p e v base o m => Sys2Proof.Machine.execVld p e v base o m s
  | .vst p e v base o m => Sys2Proof.Machine.execVst p e v base o m s
  | .vlds p e v a b m => Sys2Proof.Machine.execVlds p e v a b m s
  | .vldx p e v a b m => Sys2Proof.Machine.execVldx p e v a b m s
  | .vstx p e v a b m => Sys2Proof.Machine.execVstx p e v a b m s
  | .vldl p e v h o m => Sys2Proof.Machine.execVldl p e v h o m s
  | .vstl p e v h o m => Sys2Proof.Machine.execVstl p e v h o m s
  | .vadd p e v a b t m => Sys2Proof.Machine.execVadd p e v a b t m s
  | .vsub p e v a b t m => Sys2Proof.Machine.execVsub p e v a b t m s
  | .vmul p e v a b t m => Sys2Proof.Machine.execVmul p e v a b t m s
  | .vfma p e v a b t m => Sys2Proof.Machine.execVfma p e v a b t m s
  | .vfms p e v a b t m => Sys2Proof.Machine.execVfms p e v a b t m s
  | .vmin p e v a b t m => Sys2Proof.Machine.execVmin p e v a b t m s
  | .vmax p e v a b t m => Sys2Proof.Machine.execVmax p e v a b t m s
  | .vabs p e v a t m => Sys2Proof.Machine.execVabs p e v a t m s
  | .vneg p e v a t m => Sys2Proof.Machine.execVneg p e v a t m s
  | .vdiv p e v a b t m => Sys2Proof.Machine.execVdiv p e v a b t m s
  | .vsqrt p e v a t m => Sys2Proof.Machine.execVsqrt p e v a t m s
  | .vsqrtPv p e v a t m => Sys2Proof.Machine.execVsqrtPv p e v a t m s
  | .vrcp p e v a t m => Sys2Proof.Machine.execVrcp p e v a t m s
  | .vrsq p e v a t m => Sys2Proof.Machine.execVrsq p e v a t m s
  | .vexp2 p e v a t m => Sys2Proof.Machine.execVexp2 p e v a t m s
  | .vlog2 p e v a t m => Sys2Proof.Machine.execVlog2 p e v a t m s
  | .vsinpi p e v a t m => Sys2Proof.Machine.execVsinpi p e v a t m s
  | .vcospi p e v a t m => Sys2Proof.Machine.execVcospi p e v a t m s
  | .vcmp p e d cc a b t m => Sys2Proof.Machine.execVcmp p e d cc a b t m s
  | .vsel p e v a b ms => Sys2Proof.Machine.execVsel p e v a b ms s
  | .vand p e v a b m => Sys2Proof.Machine.execVand p e v a b m s
  | .vor p e v a b m => Sys2Proof.Machine.execVor p e v a b m s
  | .vxor p e v a b m => Sys2Proof.Machine.execVxor p e v a b m s
  | .vnot p e v a m => Sys2Proof.Machine.execVnot p e v a m s
  | .vshl p e v a b t m => Sys2Proof.Machine.execVshl p e v a b t m s
  | .vshr p e v a b t m => Sys2Proof.Machine.execVshr p e v a b t m s
  | .vsar p e v a b t m => Sys2Proof.Machine.execVsar p e v a b t m s
  | .mand p e d a b => Sys2Proof.Machine.execMand p e d a b s
  | .mor p e d a b => Sys2Proof.Machine.execMor p e d a b s
  | .mnot p e d a => Sys2Proof.Machine.execMnot p e d a s
  | .vpopm p e d a => Sys2Proof.Machine.execVpopm p e d a s
  | .vcvt p e v a st t m => Sys2Proof.Machine.execVcvt p e v a st t m s
  | .vqnt p e v a ec t => Sys2Proof.Machine.execVqnt p e v a ec t s
  | .vdqnt p e v a ec t => Sys2Proof.Machine.execVdqnt p e v a ec t s
  | .vpack p e v a b t m => Sys2Proof.Machine.execVpack p e v a b t m s
  | .vunpk p e v a hi t m => Sys2Proof.Machine.execVunpk p e v a hi t m s
  | .vperm p e v a b m => Sys2Proof.Machine.execVperm p e v a b m s
  | .vbcast p e v a m => Sys2Proof.Machine.execVbcast p e v a m s
  | .vext p e d a n => Sys2Proof.Machine.execVext p e d a n s
  | .vins p e v a n => Sys2Proof.Machine.execVins p e v a n s
  | .vrsum p e v a t m => Sys2Proof.Machine.execVrsum p e v a t m s
  | .vrmax p e v a t m => Sys2Proof.Machine.execVrmax p e v a t m s
  | .vrmin p e v a t m => Sys2Proof.Machine.execVrmin p e v a t m s
  | .vdot p e v a b t m => Sys2Proof.Machine.execVdot p e v a b t m s
  | .vdelta p e v a b t m => Sys2Proof.Machine.execVdelta p e v a b t m s
  | .vrnd p e v m => Sys2Proof.Machine.execVrnd p e v m s
  | .vgauss p e v m => Sys2Proof.Machine.execVgauss p e v m s
  | .xcp p e v a n m => Sys2Proof.Machine.execXcp p e v a n m s
  | .xbc p e v a n m => Sys2Proof.Machine.execXbc p e v a n m s
  | .tld p e t base r o => Sys2Proof.Machine.execTld p e t base r o s
  | .tst p e t base r o => Sys2Proof.Machine.execTst p e t base r o s
  | .tldl p e t h o => Sys2Proof.Machine.execTldl p e t h o s
  | .tldlIndexed p t h fi => Sys2Proof.Machine.execTldlIndexed p t h fi s
  | .tstl p e t h o => Sys2Proof.Machine.execTstl p e t h o s
  | .tstlIndexed p t h fi => Sys2Proof.Machine.execTstlIndexed p t h fi s
  | .tzero p d => Sys2Proof.Machine.execTzero p d s
  | .ttr p d a => Sys2Proof.Machine.execTtr p d a s
  | .tcp p d a => Sys2Proof.Machine.execTcp p d a s
  | .latch p n a => Sys2Proof.Machine.execLatch p n a s
  | .mma p c a l f => Sys2Proof.Machine.execMma p c a l f s
  | .mmaCl p c a l f => Sys2Proof.Machine.execMmaCl p c a l f s
  | .acz p e a fi => Sys2Proof.Machine.execAcz p e a fi s
  | .acrd p d n f r ov hi => Sys2Proof.Machine.execAcrd p d n f r ov hi s
  | .acadd p n m => Sys2Proof.Machine.execAcadd p n m s
  | .acwr p n a => Sys2Proof.Machine.execAcwr p n a s
  | .acsave p e n base o => Sys2Proof.Machine.execAcsave p e n base o s
  | .acrest p e n base o => Sys2Proof.Machine.execAcrest p e n base o s
  | .mstat p d => Sys2Proof.Machine.execMstat p d s
  | .stage p => Sys2Proof.Machine.execStage p s
  | .cpy p e base o => Sys2Proof.Machine.execCpy p e base o s
  | .discard p h b c => Sys2Proof.Machine.execDiscard p h b c s
  | .pgreq p d h c => Sys2Proof.Machine.execPgreq p d h c s
  | .sqld p e base o => Sys2Proof.Machine.execSqld p e base o s
  | .sqpsh p a => Sys2Proof.Machine.execSqpsh p a s
  | .sqclr p => Sys2Proof.Machine.execSqclr p s
  | .send p a b c f => Sys2Proof.Machine.execSend p a b c f s
  | .recv p a b c f => Sys2Proof.Machine.execRecv p a b c f s
  | .nred p n b f => Sys2Proof.Machine.execNred p n b f s
  | .nbc p a b c f => Sys2Proof.Machine.execNbc p a b c f s
  | .rqseed p a => Sys2Proof.Machine.execRqseed p a s
  | .rqpos p a => Sys2Proof.Machine.execRqpos p a s
  | .fundamentalReset => Sys2Proof.Machine.execFundamentalReset s
  | .bootctlGo => Sys2Proof.Machine.execBootctlGo s
  | .bootVerifyDone => Sys2Proof.Machine.execBootVerifyDone s
  | .bootctlRestart => Sys2Proof.Machine.execBootctlRestart s
  | .ready => Sys2Proof.Machine.execReady s
  | .attctlGo => Sys2Proof.Machine.execAttctlGo s
  | .attestReportComplete => Sys2Proof.Machine.execAttestReportComplete s
  | .controlRegisterWrite host off v => Sys2Proof.Machine.execControlRegisterWrite host off v s
  | .ethcntClear port => Sys2Proof.Machine.execEthcntClear port s
  | .hostMemoryWrite addr bytes => Sys2Proof.Machine.execHostMemoryWrite addr bytes s
  | .hostMemoryRead addr n => Sys2Proof.Machine.execHostMemoryRead addr n s
  | .commit part => Sys2Proof.Machine.execCommit part s
  | .slotTableSwitch part => Sys2Proof.Machine.execSlotTableSwitch part s
  | .maintenanceSlot part pc => Sys2Proof.Machine.execMaintenanceSlot part pc s
  | .perBankRefreshDue part pc => Sys2Proof.Machine.execPerBankRefreshDue part pc s
  | .refreshManagementDue part pc bank => Sys2Proof.Machine.execRefreshManagementDue part pc bank s
  | .test part => Sys2Proof.Machine.execTest part s
  | .faqpop part => Sys2Proof.Machine.execFaqpop part s
  | .faultAddressEntry part entry => Sys2Proof.Machine.execFaultAddressEntry part entry s
  | .hbmAccessPerform id => Sys2Proof.Machine.execHbmAccessPerform id s
  | .hbmReadDeliver id => Sys2Proof.Machine.execHbmReadDeliver id s
  | .cxldown port => Sys2Proof.Machine.execCxldown port s
  | .retrain port ok => Sys2Proof.Machine.execRetrain port ok s
  | .evctlGo => Sys2Proof.Machine.execEvctlGo s
  | .evictionComplete ok => Sys2Proof.Machine.execEvictionComplete ok s
  | .spanWalkComplete die space group => Sys2Proof.Machine.execSpanWalkComplete die space group s
  | .sdctlGo part => Sys2Proof.Machine.execSdctlGo part s
  | .shootdownRevoke parts => Sys2Proof.Machine.execShootdownRevoke parts s
  | .prefetchReadPresent run => Sys2Proof.Machine.execPrefetchReadPresent run s
  | .copyEntryStart run => Sys2Proof.Machine.execCopyEntryStart run s
  | .copyLineTransfer run line => Sys2Proof.Machine.execCopyLineTransfer run line s
  | .writebackPresent run line => Sys2Proof.Machine.execWritebackPresent run line s
  | .writebackRetry id => Sys2Proof.Machine.execWritebackRetry id s
  | .lateWarning run => Sys2Proof.Machine.execLateWarning run s
  | .untimedRequestServe ap => Sys2Proof.Machine.execUntimedRequestServe ap s
  | .pgreqComplete id ok => Sys2Proof.Machine.execPgreqComplete id ok s
  | .queueOperation id => Sys2Proof.Machine.execQueueOperation id s
  | .contextWake core ctx => Sys2Proof.Machine.execContextWake core ctx s
  | .contextSwitch core ctx => Sys2Proof.Machine.execContextSwitch core ctx s
  | .randomQueueRefill core => Sys2Proof.Machine.execRandomQueueRefill core s
  | .rcinvGo die => Sys2Proof.Machine.execRcinvGo die s
  | .rcInvalidateEffect die => Sys2Proof.Machine.execRcInvalidateEffect die s
  | .barrierRelease panel => Sys2Proof.Machine.execBarrierRelease panel s
  | .fenceDrainDone core ctx => Sys2Proof.Machine.execFenceDrainDone core ctx s
  | .launchRecordTake tenant => Sys2Proof.Machine.execLaunchRecordTake tenant s
  | .ethLaunchFrame port frame => Sys2Proof.Machine.execEthLaunchFrame port frame s
  | .evtpop tenant => Sys2Proof.Machine.execEvtpop tenant s
  | .cancel tenant => Sys2Proof.Machine.execCancel tenant s
  | .flush tenant => Sys2Proof.Machine.execFlush tenant s
  | .runStart tenant => Sys2Proof.Machine.execRunStart tenant s
  | .stepBegin run => Sys2Proof.Machine.execStepBegin run s
  | .nodeComplete run node => Sys2Proof.Machine.execNodeComplete run node s
  | .reuseGateDecision run node => Sys2Proof.Machine.execReuseGateDecision run node s
  | .signalNode run node => Sys2Proof.Machine.execSignalNode run node s
  | .runRetire run => Sys2Proof.Machine.execRunRetire run s
  | .panelPlace => Sys2Proof.Machine.execPanelPlace s
  | .overlayLoad panel => Sys2Proof.Machine.execOverlayLoad panel s
  | .panelStart panel => Sys2Proof.Machine.execPanelStart panel s
  | .coreFree core => Sys2Proof.Machine.execCoreFree core s
  | .preemptSave panel => Sys2Proof.Machine.execPreemptSave panel s
  | .saveComplete panel core => Sys2Proof.Machine.execSaveComplete panel core s
  | .panelResume panel => Sys2Proof.Machine.execPanelResume panel s
  | .syncctlStart => Sys2Proof.Machine.execSyncctlStart s
  | .startMarker port scyc => Sys2Proof.Machine.execStartMarker port scyc s
  | .syncMarker port err => Sys2Proof.Machine.execSyncMarker port err s
  | .syncloss lost => Sys2Proof.Machine.execSyncloss lost s
  | .linkTraining port lat peer => Sys2Proof.Machine.execLinkTraining port lat peer s
  | .gramerLinkDown port => Sys2Proof.Machine.execGramerLinkDown port s
  | .freezeBegin panel => Sys2Proof.Machine.execFreezeBegin panel s
  | .freezeEnd panel => Sys2Proof.Machine.execFreezeEnd panel s
  | .powerIntervalEnd avg => Sys2Proof.Machine.execPowerIntervalEnd avg s
  | .temperatureSample tj => Sys2Proof.Machine.execTemperatureSample tj s
  | .hardwareFaultDetect cls unit ten detail => Sys2Proof.Machine.execHardwareFaultDetect cls unit ten detail s
  | .faultReportEntry entry => Sys2Proof.Machine.execFaultReportEntry entry s
  | .frqpop => Sys2Proof.Machine.execFrqpop s
  | .partctlGo => Sys2Proof.Machine.execPartctlGo s
  | .partitionChange => Sys2Proof.Machine.execPartitionChange s
  | .illegalBundle cause smask word => Sys2Proof.Machine.execIllegalBundle cause smask word s
  | .park part on => Sys2Proof.Machine.execPark part on s

end Sys2Proof.Machine
end

