-- ==== Sys2Proof/Machine/Tick.lean ====
section
/-!
DEFINITION. The order of what happens in a cycle, and the passage to the next one: inputs, steps of the part that are due, issues, traps, and
the end of the cycle (07 R116; 13 R269; 17 R324).
-/
namespace Sys2Proof.Machine

/-- The state of a step that always goes on. -/
def outState (s : State) : Out → State
  | .next t => t
  | .fault _ => s
  | .refused _ => s

/-! ## Inputs -/

/-- The link of a port has been up at this end for all of its flight up to now, as a line that leaves the port now needs (R202). -/
def State.cameThrough (s : State) (port : Nat) : Bool :=
  (s.portUp port || spGet 0 s.portDownAt port == s.scyc) && decide (spGet 0 s.portUpAt port + s.portLat port ≤ s.scyc)

/-- The panel of a number as another package's packets find it: while it is saved, as it stood at P (R212). -/
def State.panelAt (s : State) (pid : Nat) : Option Panel :=
  match s.saved.find? fun v => v.panel.pid == pid with
  | some v => some v.panel
  | none => s.panel? pid

/-- What another package's packets bring to a panel: its own to come, or, while it is saved, what lands after its resumption (R212, R326). -/
def State.bring (s : State) (pid : Nat) (l : List Pend) (u : List LinkUse) : State :=
  if s.saved.any fun v => v.panel.pid == pid then
    { s with saved := s.saved.map fun v => if v.panel.pid = pid then { v with late := v.late ++ l, links := v.links ++ u } else v }
  else { s with pend := s.pend ++ l, links := s.links ++ u }

/-- A panel changed, and as its save keeps it. -/
def State.updAll (s : State) (pid : Nat) (f : Panel → Panel) : State :=
  { s.updPanel pid f with saved := s.saved.map fun v => if v.panel.pid = pid then { v with panel := f v.panel } else v }

/-- A line of another package's SEND leaves a port here, or is lost in it (R197, R201, R202). -/
def State.remoteLine (s : State) (port pid at_ sender target slot : Nat) (l : Line) : State :=
  match (s.panelAt pid).bind fun p => p.rank? target with
  | none => s
  | some r =>
    let due := at_ + 4 + 2 * r.y
    let own := { Own.none r.core with issue := at_ }
    let lost := l.absent || !s.cameThrough port
    s.bring pid [⟨.panel pid, due, false, own, .land r.core 0 (lineBytes l.data) l.poison (.recv slot sender port lost)⟩]
      (if lost then [] else linkUses (.panel pid) sender own due (routeIn r at_))

/-- An arrival of a strand of another package at a barrier leaves a port here, or is lost in it (R177). -/
def State.remoteArrive (s : State) (pid rank bar at_ port : Nat) : State :=
  let came := s.cameThrough port
  s.updAll pid fun p =>
    if came then { p with arrivals := p.arrivals ++ [⟨bar, rank, at_⟩] } else { p with lost := p.lost ++ [(bar, rank, port)] }

/-- The port that joins this package to the one of a rank. -/
def State.portOfRank (s : State) (pid rank : Nat) : Nat :=
  match (s.panelAt pid).bind fun p => p.rank? rank with
  | some r => s.collPort r.pkg
  | none => 0

/-- A member's rows arrive at the root of an NRED (R204), through a port that is up (R331). -/
def State.remoteAcc (s : State) (pid g0 rank : Nat) (a : Acc) : State :=
  let merged := fun (q : Pend) =>
    if q.clk = .panel pid then
      { q with act := match q.act with
          | .wNred n g anchor x away =>
            if g = g0 ∧ away.contains rank then
              .wNred n g anchor (spZip Xa.zero 4096 (takeOwn (a.anchor == anchor)) x a.el) (away.filter (· != rank))
            else q.act
          | other => other }
    else q
  if !s.portUp (s.portOfRank pid rank) then s
  else { s with pend := s.pend.map merged, saved := s.saved.map fun v => { v with pend := v.pend.map merged } }

/-- A line of an NBC from a root on another package lands in the members here (R205), if it has come through its port (R331). -/
def State.remoteBc (s : State) (pid at_ g0 n a : Nat) (l : Line) : State :=
  match (s.panelAt pid).bind fun p => (p.group? g0 n).map fun g => (p, g) with
  | none => s
  | some (p, g) =>
    if l.absent || !s.cameThrough (s.collPort g.root.pkg) then s
    else s.bring pid ((g.members.filter fun r => r.pkg == p.here).map fun r =>
      ⟨.panel pid, at_, false, Own.none r.core, .land r.core a (lineBytes l.data) l.poison .bc⟩) []

/-- A trap of a hedge panel at PCYC `at_`, in a strand of another package, or in one here that another package found (R293, R333, R336); a
collision keeps every packet from its delivery from then on (R198). -/
def State.remoteTrap (s : State) (pid at_ rank : Nat) (r : TrapRec) : State :=
  match s.panel? pid with
  | none => s
  | some p =>
    let s1 := if fld r.t0.toNat 0 8 = 8 then s.updPanel pid fun q => { q with meshAt := some (min at_ (q.meshAt.getD at_)) } else s
    let s2 := match p.rank? rank with
      | some k => if k.pkg = p.here then s1.updCtx k.core 0 fun x => { x with trec := r, cands := [], st := .trapped } else s1
      | none => s1
    (s2.panelFails p at_ rank r).updPanel pid fun q => { q with failAt := q.failAt.map (min (at_ + p.lead)) }

/-- Another package's part of a hedge panel is complete (R293). -/
def State.remoteDone (s : State) (pid pkg : Nat) : State :=
  let said := fun (x : NodeRun) => if x.pid = some pid then { x with others := x.others ++ [pkg] } else x
  { s with runs := s.runs.map fun r => { r with prog := r.prog.map said } }

/-- The firmware context may write byte b at place a of the non-volatile store (R46, R359, log 93): a higher minimum SVN, cause 0, and the
bad-page list but for its reserved bytes. -/
def nvMay (svn : Bool) (a : Nat) (b : Byte) : Bool :=
  if a < 4 then svn
  else if a = 8 ∨ a = 9 then b == 0
  else (decide (0x1000 ≤ a) && decide (a < 0x1004)) || (decide (0x1040 ≤ a) && decide (a < 0x10000) && a % 8 != 7)

/-- The firmware writes the non-volatile store: those of the bytes that it may. -/
def State.nvWrite (s : State) (off : Nat) (bytes : List Byte) : State :=
  let put := fun (svn : Bool) => putMasked s.nv off (bytes.zipIdx.map fun x => nvMay svn (off + x.2) x.1) bytes
  { s with nv := put (decide (natAt s.nv 0 4 ≤ natAt (put true) 0 4)) }

/-- An input of the agenda but for the steps of the part. -/
def State.input (s : State) : Input → State
  | .instr _ => s
  | .remoteLine port pid at_ sender target slot l => s.remoteLine port pid at_ sender target slot l
  | .remoteArrive pid rank bar at_ port => s.remoteArrive pid rank bar at_ port
  | .remoteLat a b lat up => { s with farLat := spPut (0, false) s.farLat (64 * a + b) (lat, up) }
  | .remoteBusy pkg cores => { s with awayBusy := spPut [] s.awayBusy pkg cores }
  | .remoteStage pid => s.nextStage pid
  | .remoteEnd pid rank at_ => s.updAll pid fun p => { p with ends := p.ends ++ [(rank, at_)] }
  | .remoteLineBc pid at_ g0 n a l => s.remoteBc pid at_ g0 n a l
  | .remoteAcc pid g0 rank a => s.remoteAcc pid g0 rank a
  | .remoteTrap pid at_ rank r => s.remoteTrap pid at_ rank r
  | .remoteDone pid pkg => s.remoteDone pid pkg
  | .hostCtlRead off n => s.hostCtlRead off n
  | .hostCtlWrite off bytes =>
    if barWhole off bytes.length then outState s (execControlRegisterWrite true off (BitVec.ofNat 64 (leNat bytes)) s) else s
  | .lineFault addr data correctable => s.lineFault addr data correctable
  | .devicePoison addr => { s with secondPoison := spPut false s.secondPoison (addr / 64) true }
  | .nvWrite off bytes => s.nvWrite off bytes

/-! ## The agenda -/

/-- The agenda's entry is due. -/
def State.schedDue (s : State) (x : Sched) : Bool := decide (x.due ≤ s.now x.clk)

/-- When an entry takes place in its cycle: at once (0); after the bundles, host accesses in their order (1), untimed operations (2), the
walker (3), the launch records by tenant, then by port (R298), and a commit of partitions after them (R354); or as the cycle begins (none):
windows, revocations, and stages of another package. -/
def Input.order : Input → Option Nat
  | .instr i => match i with
    | .freezeBegin _ | .freezeEnd _ | .lateWarning _ | .shootdownRevoke _ | .partitionChange => none
    | .hostMemoryWrite _ _ | .hostMemoryRead _ _ => some 1
    | .controlRegisterWrite host _ _ => some (if host then 1 else 0)
    | .rcInvalidateEffect _ | .untimedRequestServe _ | .queueOperation _ | .saveComplete _ _ => some 2
    | .reuseGateDecision _ _ | .nodeComplete _ _ => some 3
    | .launchRecordTake t => some (16 + t)
    | .ethLaunchFrame p _ => some (1024 + p)
    | .partctlGo => some 4096
    | _ => some 0
  | .hostCtlRead _ _ | .hostCtlWrite _ _ => some 1
  | .remoteStage _ => none
  | _ => some 0

/-- The due entry that takes place first of those before the bundles, or after them (`late`). -/
def State.nextEntry (s : State) (late : Bool) : Option Sched :=
  let l := s.agenda.filter fun x => s.schedDue x && (match x.ev.order with | some n => decide (0 < n) == late | none => false)
  (sortBy (fun a b => decide (a.ev.order.getD 0 < b.ev.order.getD 0)) l).head?

/-! ## Steps of the part that are due without an entry of the agenda -/

/-- The admitted access that performs now: sigma + 80 (R39). -/
def State.nextAccess (s : State) : Option Nat :=
  (s.reqs.find? fun r => !r.performed && (match r.sigma with | some g => decide (g + 80 ≤ s.scyc) | none => false)).map (·.id)

/-- The partition whose slot table switches now (R41). -/
def State.nextSwitchover (s : State) : Option Nat :=
  if s.scyc % 320 ≠ 0 then none
  else (List.range 4).find? fun j => s.ctlFld (offMemctl j) 1 1 == 1 && s.partIdle j

/-- The panel whose pre-emption is taken now (R312, R343). -/
def State.nextSave (s : State) : Option Nat :=
  (s.panels.find? Panel.atP).map (·.pid)

/-- The write-back to be presented (R72, R79). -/
def State.nextWriteStep (s : State) : Option Instr :=
  s.nextWrite.map fun x => match x with
    | .inl id => .writebackRetry id
    | .inr y => .writebackPresent y.1 y.2

/-- The step that is due: accesses perform; then source reads are presented, before write-backs (R38). -/
def State.nextEvent (s : State) : Option Instr :=
  match s.nextAccess with
  | some i => some (.hbmAccessPerform i)
  | none => match s.nextSwitchover with
  | some j => some (.slotTableSwitch j)
  | none => match s.nextPage with
  | some g => some (.pgreqComplete g true)
  | none => match s.nextSave with
  | some p => some (.preemptSave p)
  | none => match s.nextPrefetch with
  | some i => some (.prefetchReadPresent i)
  | none => match s.nextWriteStep with
  | some i => some i
  | none => match s.nextBarrier with
  | some p => some (.barrierRelease p)
  | none => match s.nextFence with
  | some x => some (.fenceDrainDone x.1 x.2)
  | none => match s.nextStart with
  | some p => some (.panelStart p)
  | none => match s.nextFree with
  | some c => some (.coreFree c)
  | none => match s.nextSwitch with
  | some x => some (.contextSwitch x.1 x.2)
  | none => none

/-- A holder's operation comes to a queue engine in this cycle (R194). -/
def State.queueDue (s : State) : Bool :=
  s.pend.any fun p => s.isDue p && (match p.act with | .qArrive _ _ _ => true | _ => false)

/-! ## The next cycle -/

/-- The random-bits queues take a vector each (R111), but for frozen panels (R325). -/
def State.refillAll (s : State) : State :=
  s.cores.foldl (fun s e => match s.panelOn e.1 with
    | some p => if p.frozen then s else outState s (execRandomQueueRefill e.1 s)
    | none => s) s

/-- Refresh due (R42) on every pseudo-channel of the partitions. -/
def State.refreshDue (s : State) : State :=
  (List.range 4).foldl (fun s j =>
    if s.partOn j && s.scyc % (max 1 (s.ctlFld (offRefctl j) 0 16)) == 0 then
      (s.partPchs j).foldl (fun s pc => outState s (execPerBankRefreshDue j pc s)) s
    else s) s

/-- The maintenance slots that begin now (R43), of the slot table and taken ones; where too many commands still wait, a slot is sought again. -/
def State.maintain (s : State) : State :=
  (List.range 4).foldl (fun s j =>
    if !s.partOn j then s
    else
      let mine := s.partPchs j
      let own := s.slotCode j (slotAt s.scyc) == 0x10
      let test := s.tests.filterMap fun t => if t.1 = j then some (pchOf t.2.1) else none
      let now := (s.pchs.map (·.1) ++ test).eraseDups.filter fun pc => s.scyc % 5 == 0 && mine.contains pc
        && (own || (s.pch pc).taken.contains s.scyc)
      let s1 := now.foldl (fun s pc => outState s (execMaintenanceSlot j pc s)) s
      ((s1.pchs.map (·.1)).filter mine.contains).foldl (fun s pc => s.takeSlot j pc) s1) s

/-- Read data and acknowledgements delivered at t + 512 (R39). -/
def State.deliver (s : State) : State :=
  (s.reqs.filter fun r => r.performed && decide (r.present + 512 ≤ (s.scyc : Int))).foldl
    (fun s r => outState s (execHbmReadDeliver r.id s)) s

/-- The untimed accesses as a cycle ends: those of the host, the eviction, page copies and delivery queues go on with what the timed ones of
this cycle leave (R81), and the slots that have begun in it serve untimed accesses and maintenance. -/
def State.memoryStep (s : State) : State := s.hostMove.evictMove.pageMove.untimedMove.freeSlots.activate.maintain

/-- The end of a cycle. -/
def State.endCycle (s : State) : State := s.memoryStep.writePhase.lastPhase.refillAll.endPanels.markIdle

/-- A resumed panel that goes on in this cycle: the host writes accepted before have performed (R279, log 124). -/
def State.freshen (s : State) (pid : Nat) : State :=
  match s.panel? pid with
  | some p => if p.fresh && p.st == .running && !p.frozen then (s.updPanel pid fun q => { q with fresh := false }).hostSettle s.scyc else s
  | none => s

/-- A panel's own cycle goes on, unless it is frozen, fails at its freeze cycle, or has come to P (R324, R336, R343); a panel that fails after
its P fails at P (log 32); a saved panel may resume (R347). -/
def State.advance (s0 : State) (pid : Nat) : State :=
  let s := match s0.panel? pid with
    | some p => if s0.resumesNow p then s0.resume p else s0
    | none => s0
  match s.panel? pid with
  | none => s
  | some p =>
    if p.st = .placed then s.waitStep pid
    else if p.st ≠ .running ∧ p.st ≠ .ended then s
    else
      let n := p.nextCyc
      let q : Panel := { p with pcyc := n, frozen := true }
      let comes := p.st == .running && p.preempt.any (· ≤ n)
      if p.failAt.any (· ≤ n) || (p.failAt.isSome && comes) then (s.updPanel pid fun _ => q).failNow q
      else if s.dispHalt then s.updPanel pid fun _ => q
      else if comes then s.updPanel pid fun _ => { q with frz := [] }
      else (s.freezeStep pid).freshen pid

/-- A window announced by another package, or a late line (R324, R78). -/
def Input.isFreeze : Input → Bool
  | .instr (.freezeBegin _) | .instr (.freezeEnd _) | .instr (.lateWarning _) => true
  | _ => false

/-- Every panel's next cycle; windows announced for panels that do not run are past. -/
def State.advanceAll (s : State) : State :=
  let s1 := (s.panels.map (·.pid)).foldl State.advance s
  (s1.agenda.filter fun x => s1.schedDue x && x.ev.isFreeze).foldl State.freezeBy s1

/-- Revocations and changes of the partitions at their rho (R61, R355), and stages that other packages have released (R70, R381): they come
before the entries of the cycle start. -/
def State.earlyEntries (s : State) : State :=
  (s.agenda.filter fun x => s.schedDue x && x.ev.order.isNone && !x.ev.isFreeze).foldl (fun s x =>
    let s1 : State := { s with agenda := s.agenda.erase x }
    match x.ev with
    | .instr (.shootdownRevoke parts) => outState s1 (execShootdownRevoke parts s1)
    | .instr .partitionChange => outState s1 (execPartitionChange s1)
    | e => s1.input e) s

/-- The copies of running panels: entries that start now, and lines that move. -/
def State.copyStep (s : State) (f : State → Nat → Nat → State) : State :=
  s.panels.foldl (fun s p => if (p.st == .running || p.st == .ended) && !p.frozen then f s p.pid p.pcyc else s) s

/-- The passage to the next cycle. -/
def State.tick (s : State) : State :=
  let s1 := s.endCycle
  let s2 : State := { s1 with
    scyc := s1.scyc + 1, units := [], olds := s1.olds.filter fun o => s1.hostq.any fun h => decide (h.id < o.before), wbq := s1.wbq.map fun r => { r with performed := false } }
  let s3 := s2.hedgeStep.refreshDue.deliver.announce.advanceAll
  ((s3.regPhase.earlyEntries.copyStep State.startCopies).readPhase.copyStep State.moveLines).sweepCopies.sweepDrains

/-- A step of the part, as the agenda may hold it; words of bundles come from the instruction store alone (log 5). -/
def Instr.isStep (i : Instr) : Bool :=
  i.cls.isNone && (match i with | .idle _ => false | .illegalBundle _ _ _ => false | _ => true)

/-- An entry of the agenda taken, with `ex` as the meaning of instructions. -/
def State.takeEntry (ex : Instr → State → Out) (s : State) (x : Sched) : Out :=
  let s1 : State := { s with agenda := s.agenda.erase x }
  match x.ev with
  | .instr i => if Instr.isStep i then ex i s1 else .next s1
  | e => .next (s1.input e)

/-- What happens next, with `ex` as the meaning of instructions: an entry of the agenda that takes place at once, a step of the part due now,
a bundle, a trap found, the queue engines, the later entries of the agenda, or the passage to the next cycle. -/
def nextWith (ex : Instr → State → Out) (s : State) : Out :=
  match s.nextEntry false with
  | some x => s.takeEntry ex x
  | none => match s.nextEvent with
  | some i => ex i s
  | none => match s.nextIssue with
  | some x => s.issueWith ex x.1 x.2
  | none => match s.nextTrap with
  | some x => .next (s.takeFirst x.1 x.2 (s.ctx x.1 x.2).cands)
  | none =>
    if s.queueDue then .next s.queuePhase
    else match s.nextEntry true with
    | some x => s.takeEntry ex x
    | none => .next s.tick

/-- Between steps no bundle is in hand. -/
def settle : Out → Out
  | .next t => .next { t with cur := .none }
  | .fault f => .fault f
  | .refused r => .refused r

/-- One step, with `ex` as the meaning of instructions. Without power only a fundamental reset acts (R330). -/
def stepWith (ex : Instr → State → Out) (s : State) : Out :=
  if s.power then settle (nextWith ex s)
  else if s.agenda.any fun x => x.ev == .instr .fundamentalReset && s.schedDue x then settle (ex .fundamentalReset s)
  else .fault .powerOff

end Sys2Proof.Machine
end

