-- ==== Sys2Proof/Machine/Step.lean ====
section
/-!
DEFINITION. One step of the machine, and the placing of one instruction where the next step fetches (log 6).
-/
namespace Sys2Proof.Machine

/-- One step: an input or a step of the part that is due, a trap, the issue of one bundle, or the passage to the next cycle. -/
def step (s : State) : Host.Outcome State Fault Refusal := stepWith exec s

/-- The words of a bundle that holds one word alone: a header and the word, or an idle header. -/
def fetchBundle (w : BitVec 32) : List (BitVec 32) :=
  match tableClass w with
  | some (c, _) => [BitVec.ofNat 32 (headerFor c none), w]
  | none =>
    match decodeIdle w with
    | some _ => [w]
    | none => [BitVec.ofNat 32 (headerFor .s none), w]

/-- Words that only the firmware context runs (R133, R179, R265). -/
def firmwareWord (w : BitVec 32) : Bool :=
  match tableClass w with
  | some (_, i) =>
    (match i with
     | .hinv _ _ _ | .drift _ _ | .eret | .acsave _ _ _ _ _ | .acrest _ _ _ _ _ => true
     | _ => false)
  | none => false

/-- A panel of one rank on core 0, as it stands in its first cycle. -/
def onePanel : Panel :=
  { pid := 0, run := 0, node := 0, tenant := 0, part := 0, prio := 0, ranks := [⟨0, 0, 0⟩], pcs := [0], help := 0, hpcs := [],
    here := 0, hedge := false, erchk := false, image := 0, ovmask := 0, ovl := [], dx := 0, dy := 0, phbias := 0, st := .running,
    annS := none, startS := 0, pcyc := 0, frz := [], frozen := false, stage := 0, stageAt := [], arrivals := [], lost := [], ends := [],
    endAt := none, failAt := none, failRec := none, preempt := none, saveMask := [], trunc := 0, lateAt := [], idle := [], fresh := false, meshAt := none }

/-- A strand that issues next: context 0 of core 0 in a panel of its own, or the firmware context. -/
def State.withStrand (s : State) (fw : Bool) : State :=
  let x : Ctx := { Ctx.idle with st := .running, psize := 1, next := s.scyc }
  if fw then s.updCtx 0 3 fun _ => x
  else
    let s1 : State := { s with panels := onePanel :: s.panels.filter fun p => p.pid != 0 }
    s1.updCore 0 fun c => { (c.updCtx 0 fun _ => { x with next := 0 }) with panel := some 0, rq := ⟨8, 0, 0, 0, 0, 0⟩ }

/-- The state with an instruction of the opcode table where the next step fetches: in the instruction store at the PC of the context that
issues next, in a valid overlay slot. Where no context would issue, a strand is started for it (log 6). -/
def State.withFetchWord (s : State) (nbits w : Nat) : State :=
  let word := BitVec.ofNat 32 (w % 2 ^ nbits)
  let s1 := if s.nextIssue.isSome then s else s.withStrand (firmwareWord word)
  match s1.nextIssue with
  | none => s1
  | some (c, k) =>
    let a := (s1.ctx c k).pc.toNat
    s1.updCore c fun x =>
      { x with
        istore := putBytes x.istore a ((fetchBundle word).flatMap fun v => natLe 4 v.toNat)
        ovtag := spUpd 0 x.ovtag (a / 0x4000) fun t => setFld t 40 1 1 }

end Sys2Proof.Machine
end

