-- ==== Sys2Proof/Safety.lean ====
section
/-!
DEFINITION. What a safe run is, and the vocabulary in which statements speak of one word of a bundle: when it executes, the
actions it asks for, the trap it raises, what it leaves alone.
-/
namespace Sys2Proof.Machine

/-- The state after n steps, if none of them stops. -/
def runSteps : Nat → State → Option State
  | 0, s => some s
  | n + 1, s =>
    match step s with
    | .next t => runSteps n t
    | .fault _ => none
    | .refused _ => none

/-- A run of n steps from s is safe. -/
def SafeRun (n : Nat) (s : State) : Prop := (runSteps n s).isSome = true

/-- A state that a run from s reaches. -/
def ReachableFrom (s t : State) : Prop := ∃ n, runSteps n s = some t

/-! ## One word of a bundle -/

/-- The whole state but for the bundle in hand is the same: every register, every memory, every action still due. -/
abbrev SameBut (s t : State) : Prop := { t with cur := s.cur } = s

/-- The word executes: its predicate reads 1 (R127) and none of its scalar sources carries a poison mark (R186). -/
abbrev Ready (s : State) (p : BitVec 3) (srcs : List (BitVec 5)) : Prop :=
  s.rdQ p = true ∧ ∀ r ∈ srcs, r = 0 ∨ spGet false s.myCtx.mark r.toNat = false

/-- As `Ready`, in the holder (R105). -/
abbrev HReady (s : State) (p : BitVec 3) (srcs : List (BitVec 5)) : Prop := s.isHolder = true ∧ Ready s p srcs

/-- As `HReady`, for a word of V slots: no vector source of an executing cluster carries a poison mark (R218). -/
abbrev VReady (s : State) (p : BitVec 3) (srcs vs : List (BitVec 5)) : Prop :=
  HReady s p srcs ∧ ∀ c ∈ s.cur.clusters, ∀ v ∈ vs, s.me.vMarked c v = false

/-- The action a of the word in hand, due `off` cycles after issue. -/
def State.due (s : State) (off : Nat) (a : Act) : Pend := ⟨s.cur.clk, s.cur.t + off, false, s.own, a⟩

/-- As `due`, seen from the cycle after its own (R244). -/
def State.dueLate (s : State) (off : Nat) (a : Act) : Pend := { s.due off a with late := true }

/-- The write of the scalar register d with an unpoisoned v at +off (R162). -/
def State.result (s : State) (off : Nat) (d : BitVec 5) (v : Word) : Pend := s.due off (.wS s.cur.ctx d v false)

/-- The bundle in hand with more actions. -/
def State.plus (s : State) (l : List Pend) : State := { s with cur := { s.cur with out := s.cur.out ++ l } }

/-- The bundle in hand with the actions of a collective of n rows or lines that holds the core to the offset k (R203, R345). -/
def State.collective (s : State) (k n : Nat) (l : List Pend) : State :=
  { s.plus l with cur := { (s.plus l).cur with units := { s.cur.units with
      collEnd := s.cur.t + k + 1, collWord := s.cur.word, collFrom := s.cur.t, collLen := n } } }

/-- The bundle in hand with the units as it leaves them (R244). -/
def State.withUnits (s : State) (u : Units) : State := { s with cur := { s.cur with units := u } }

/-- Executing i adds the actions l to those of the bundle in hand, and does nothing else. -/
abbrev Emits (i : Instr) (s : State) (l : List Pend) : Prop := exec i s = .next (s.plus l)

/-- Executing i holds the bundle for a cycle, and does nothing else (R91, R272). -/
abbrev Held (i : Instr) (s : State) : Prop := exec i s = .next { s with cur := { s.cur with hold := true } }

/-- Executing i raises the trap k, and does nothing else. -/
abbrev Traps (i : Instr) (s : State) (k : TrapKind) : Prop := exec i s = .next (s.trap k)

/-- The bundle in hand as its word in cluster c has it. -/
def State.inCluster (s : State) (c : Nat) : State := { s with cur := { s.cur with slot := 5 + c } }

/-- Executing i in the clusters of the word in hand adds the actions `f c` for each cluster c in order, and does nothing else
(the slot in hand ends as that of the last cluster). -/
abbrev VEmits (i : Instr) (s : State) (f : Nat → List Pend) : Prop :=
  exec i s = .next { s with cur := { s.cur with
    slot := s.cur.clusters.foldl (fun _ c => 5 + c) s.cur.slot
    out := s.cur.out ++ s.cur.clusters.flatMap f } }

/-- A write of lanes of vector register v of cluster c at +off. -/
def State.vResult (s : State) (c off : Nat) (v : BitVec 5) (mask : BitVec 16) (x : BitVec 512) : Pend :=
  (s.inCluster c).due off (.wV c v mask x false)

/-- The sticky bits of VSTAT that a word of cluster c sets at +off; none for 0. -/
def State.vFlags (s : State) (c off bits : Nat) : List Pend :=
  if bits = 0 then [] else [(s.inCluster c).due off (.wFlag 11 (BitVec.ofNat 64 bits))]

/-- A signed immediate or offset, widened above its top bit by LEND (R128). -/
def extended {w : Nat} (i : BitVec w) : Ext → Word
  | none => i.signExtend 64
  | some l => (l ++ i).signExtend 64

/-- The word computes, in each executing cluster c and each element k of w bits, the code `(g c k).1`, and sets the flags
`(g c k).2` of the elements that its mask selects, with the result (R215, R217). -/
def ElementWise (i : Instr) (s : State) (v : BitVec 5) (m : BitVec 3) (off w : Nat) (g : Nat → Nat → Nat × Nat) : Prop :=
  ∃ (x : Nat → BitVec 512) (fl : Nat → Nat),
    VEmits i s (fun c => s.vResult c off v (s.rdM c m) (x c) :: s.vFlags c off (fl c)) ∧
    (∀ c k, k < 512 / w → elemAt w (x c) k = (g c k).1 % 2 ^ w) ∧
    ∀ c j, (fl c).testBit j = true ↔
      ∃ k < 512 / w, (s.rdM c m).getLsbD (w * k / 32) = true ∧ (g c k).2.testBit j = true

/-- Element k of vector register a of cluster c, as a value of a floating type. -/
def State.num (s : State) (t : LaneTy) (c : Nat) (a : BitVec 5) (k : Nat) : Num :=
  (laneFmt t).decode (elemAt (laneW t) (s.rdV c a) k)

/-- Element k of vector register a of cluster c, as bits. -/
def State.elt (s : State) (t : LaneTy) (c : Nat) (a : BitVec 5) (k : Nat) : BitVec (laneW t) :=
  (s.rdV c a).extractLsb' (laneW t * k) (laneW t)

/-- An exact result rounded to a floating type once (R216), with IEEE's flags and NV where it arises (R217). -/
def rounded (t : LaneTy) (e : Ext) (z : Num) (nv : Bool) : Nat × Nat :=
  let r := roundTo (laneFmt t) (extRm e) .sat z
  (r.1, r.2.bits ||| (if nv then vsNV else 0))

/-! ## Handles and operands -/

/-- A handle passes the check of Table 4.4 for n bytes at offset o. -/
abbrev HandleOk (x : Handle) (o n : Nat) (wr lsp : Bool) : Prop :=
  x.v = true ∧ o + n ≤ (x.npgm1.toNat + 1) * 65536 ∧
  (∀ i < 64, o / 65536 ≤ i → i ≤ (o + n - 1) / 65536 → x.valid.getLsbD i = true) ∧ (wr = true → x.w = true) ∧ x.sp = lsp

/-- A b register names a base (R131). -/
def needsHolder : Base → Bool
  | .s _ => false
  | .b _ => true

/-- A base of b registers needs the holder (R105). -/
abbrev BaseOk (s : State) (base : Base) : Prop := needsHolder base = true → s.isHolder = true

/-- The latent store takes an access to the line of p in this cycle: the phase rule holds (R89, R91), the bundle is neither
lent nor in use (R73, R244), and no earlier write of an untimed context to the line is under way (R272). -/
abbrev LsOpen (s : State) (p : LsAddr) (wr : Bool) : Prop :=
  s.bundleLent s.cur.core wr = false ∧ s.bundleUse s.cur.core wr = none ∧
  phaseOk p.line (if s.isHolder then s.declIdx else s.cur.core % 128) (if s.isHolder then s.cur.t else s.scyc)
    (if wr then 64 else 0) (s.ownDie p.die) = true ∧
  (s.isHolder = true ∨ wr = true ∨ s.lsBusy p = false)

/-- As `LsOpen`, for an atomic: it reads as well, so that the bundle of reads must not be in use by a tile stream either (R244). -/
abbrev AtomicOpen (s : State) (p : LsAddr) : Prop := LsOpen s p true ∧ s.bundleUse s.cur.core false = none

/-- The phase rule of Table 6.1 forbids an access to the line of p in this cycle: in the holder's PCYC, elsewhere in SCYC (R89, R91). -/
abbrev OffPhase (s : State) (p : LsAddr) (wr : Bool) : Prop :=
  phaseOk p.line (if s.isHolder then s.declIdx else s.cur.core % 128) (if s.isHolder then s.cur.t else s.scyc)
    (if wr then 64 else 0) (s.ownDie p.die) = false

/-- What the phase rule makes of a latent-store word that it forbids: TIMING in the holder, which names the line and its die (R89, R335), and
a wait elsewhere (R91). -/
abbrev PhaseRule (i : Instr) (s : State) (p : LsAddr) : Prop :=
  (s.isHolder = true → Traps i s (.timing 0 (BitVec.ofNat 64 (p.line % 2 ^ 25 + 2 ^ 25 * p.die)))) ∧
  (s.isHolder = false → Held i s)

/-- ACSAVE and ACREST, the X words of the firmware context (R265). -/
def isAccSave : Instr → Bool
  | .acsave _ _ _ _ _ | .acrest _ _ _ _ _ => true
  | _ => false

/-! ## Steps of the part -/

/-- Executing i answers a next state, of which P holds. -/
abbrev Does (i : Instr) (s : State) (P : State → Prop) : Prop := ∃ t, exec i s = .next t ∧ P t

/-- Executing i changes nothing. -/
abbrev Stays (i : Instr) (s : State) : Prop := exec i s = .next s

/-- From s to t, bits lo to lo + n - 1 of the control register at `off` become v, and every other bit of the control space stays. -/
abbrev SetsField (s t : State) (off lo n v : Nat) : Prop :=
  (∀ j < 64, (t.ctlGet off).getLsbD j = if lo ≤ j ∧ j < lo + n then v.testBit (j - lo) else (s.ctlGet off).getLsbD j) ∧
  ∀ o, o ≠ off → t.ctlGet o = s.ctlGet o

/-- From s to t, only control registers change. -/
abbrev OnlyCtl (s t : State) : Prop := { t with ctl := s.ctl } = s

/-- From s to t, vector v is raised (R359): its message leaves, or, while it is masked, its pending bit is set (R350). -/
abbrev Signals (s t : State) (v : Nat) : Prop :=
  (s.msixMasked v = false → t.out = s.out ++ [s.msixOut v] ∧ t.ctlGet offPba = s.ctlGet offPba) ∧
  (s.msixMasked v = true → t.out = s.out ∧
    ∀ j < 64, (t.ctlGet offPba).getLsbD j = (decide (j = v) || (s.ctlGet offPba).getLsbD j))

/-- From s to t, no control register changes but those at the offsets of a list, and the pending bits of MSI-X. -/
abbrev OnlyRegs (s t : State) (l : List Nat) : Prop := ∀ o, o ∉ l → o ≠ offPba → t.ctlGet o = s.ctlGet o

/-- From s to t, bits lo to lo + n - 1 of BOOTSTAT become v, and no other control register changes; vector 18 is raised if BOOTSTAT
has changed (R359). -/
abbrev SetsBoot (s t : State) (lo n v : Nat) : Prop :=
  (∀ j < 64, (t.ctlGet offBootstat).getLsbD j =
    if lo ≤ j ∧ j < lo + n then v.testBit (j - lo) else (s.ctlGet offBootstat).getLsbD j) ∧
  OnlyRegs s t [offBootstat] ∧
  (t.ctlGet offBootstat = s.ctlGet offBootstat → t.out = s.out ∧ t.ctlGet offPba = s.ctlGet offPba) ∧
  (t.ctlGet offBootstat ≠ s.ctlGet offBootstat → Signals s t 18)

/-- A step of the part put at the end of the agenda, for a cycle. -/
def State.plan (s : State) (due : Nat) (i : Instr) : List Sched := s.agenda ++ [⟨.scyc, due, .instr i⟩]

/-- A fault-report entry of this cycle with these fields (R341). -/
abbrev EntryIs (s : State) (e : BitVec 128) (cls core : Nat) (tenant : Option Nat) (fatal : Bool) (detail : Nat) : Prop :=
  e.getLsbD 0 = true ∧ e.extractLsb' 1 8 = BitVec.ofNat 8 cls ∧ e.extractLsb' 9 8 = BitVec.ofNat 8 core ∧ e.getLsbD 23 = tenant.isNone ∧
  (∀ n, tenant = some n → e.extractLsb' 19 4 = BitVec.ofNat 4 n) ∧ e.getLsbD 24 = fatal ∧
  e.extractLsb' 32 32 = BitVec.ofNat 32 detail ∧ e.extractLsb' 96 32 = BitVec.ofNat 32 s.scyc

/-- From s to t, one fault-report entry (R341) is put at the end of the agenda for this cycle, with these fields. -/
abbrev Reports (s t : State) (cls core : Nat) (tenant : Option Nat) (fatal : Bool) (detail : Nat) : Prop :=
  ∃ e : BitVec 128, t.agenda = s.plan s.scyc (.faultReportEntry e) ∧ EntryIs s e cls core tenant fatal detail

/-- The entries of a list are fatal ones, outside cores, of the tenants of some panels in order. -/
abbrev EntriesOf (s : State) (es : List (BitVec 128)) (cls : Nat) (l : List Panel) (detail : Nat) : Prop :=
  es.length = l.length ∧ ∀ (k : Nat) (e : BitVec 128) (p : Panel), es[k]? = some e → l[k]? = some p →
    EntryIs s e cls 0 (some p.tenant) true detail

/-- From s to t, such entries are put at the end of the agenda for this cycle. -/
abbrev ReportsAll (s t : State) (cls : Nat) (l : List Panel) (detail : Nat) : Prop :=
  ∃ es : List (BitVec 128), t.agenda = s.agenda ++ es.map (fun e => (⟨.scyc, s.scyc, .instr (.faultReportEntry e)⟩ : Sched)) ∧
    EntriesOf s es cls l detail

/-- From s to t, the holder of the first core of each panel has found a trap that is no instruction's; no other context changes (R333). -/
abbrev FindsAll (s t : State) (l : List Panel) (kind : TrapKind) : Prop :=
  ∀ c k, let n := (l.filter fun p => decide (k = 0 ∧ p.firstCore = c)).length
    t.ctx c k = { s.ctx c k with cands := (s.ctx c k).cands ++ List.replicate n (s.noOwner c 0 kind) }

/-- From s to t, context k of a core has found a trap of a kind, and is otherwise as it was (R333). -/
abbrev Finds (s t : State) (c k : Nat) (kind : TrapKind) : Prop :=
  ∃ x : TrapCand, x.kind = kind ∧ t.ctx c k = { s.ctx c k with cands := (s.ctx c k).cands ++ [x] }

/-- The bytes at an address of HBM4E are those of a list. -/
abbrev HbmHolds (s : State) (a : Nat) (bs : List Byte) : Prop := ∀ i < bs.length, s.hbmByte (a + i) = bs.getD i 0

/-! ## Memory -/

/-- The memories of a core are in their canonical form: scratchpad, its poison tags, instruction store. -/
def CoreSt.memWf (c : CoreSt) : Bool := spWf 0 c.sp && spWf false c.spPoison && spWf 0 c.istore

/-- So are the contents of main memory that a partition change keeps for the host accesses before it. -/
def OldMap.memWf (o : OldMap) : Bool := spWf none o.hbm && spWf none o.poison && spWf false o.faulty

/-- The memories of the package are in their canonical form: main memory, latent stores, the second tier, the non-volatile store,
their poison tags and correctable lines, the launch windows, the tenant keys and the attestation buffer, what partition changes keep, and
every core's scratchpad, its poison tags and its instruction store. -/
def Memory.wf (s : State) : Bool :=
  spWf none s.hbm && spWf none s.hbmPoison && spWf 0 s.ls && spWf false s.lsPoison && spWf 0 s.second
    && spWf false s.secondPoison && spWf 0 s.nv && spWf 0 s.launch && spWf 0 s.tenkey && spWf false s.hbmFaulty && spWf 0 s.attBuf
    && s.olds.all OldMap.memWf && s.cores.all fun e => e.2.memWf

end Sys2Proof.Machine
end

