-- ==== Sys2Proof/Certificates/Slice0/Obligations.lean ====
section
/-!
DEFINITION. The statements about the model: the words of a bundle, what falls due later, decoding, traps, the steps of the part,
and what every step keeps.
-/
open Sys2Proof Sys2Proof.Machine

/-! ## Scalar words (09) -/

/-- R163 with Table 9.1: every integer operation writes its destination at its latency, and does nothing else. -/
def Obligations.IntegerOperations : Prop :=
  (∀ (s : State) (p : BitVec 3) (d a b : BitVec 5), Ready s p [a, b] →
    let x := s.rdS a
    let y := s.rdS b
    Emits (.add p d a b) s [s.result 1 d (x + y)] ∧
    Emits (.sub p d a b) s [s.result 1 d (x - y)] ∧
    Emits (.and p d a b) s [s.result 1 d (x &&& y)] ∧
    Emits (.or p d a b) s [s.result 1 d (x ||| y)] ∧
    Emits (.xor p d a b) s [s.result 1 d (x ^^^ y)] ∧
    Emits (.shl p d a b) s [s.result 1 d (if y.toNat ≥ 64 then 0 else x <<< y.toNat)] ∧
    Emits (.shr p d a b) s [s.result 1 d (if y.toNat ≥ 64 then 0 else x >>> y.toNat)] ∧
    Emits (.sar p d a b) s [s.result 1 d
      (if y.toNat ≥ 64 then (if x.msb then BitVec.allOnes 64 else 0) else x.sshiftRight y.toNat)] ∧
    Emits (.mul p d a b) s [s.result 3 d ((x.zeroExtend 128 * y.zeroExtend 128).extractLsb' 0 64)] ∧
    Emits (.mulh p d a b) s [s.result 3 d ((x.signExtend 128 * y.signExtend 128).extractLsb' 64 64)] ∧
    Emits (.mulhn p d a b) s [s.result 3 d ((x.zeroExtend 128 * y.zeroExtend 128).extractLsb' 64 64)] ∧
    Emits (.min p d a b) s [s.result 1 d (if x.toInt < y.toInt then x else y)] ∧
    Emits (.max p d a b) s [s.result 1 d (if x.toInt < y.toInt then y else x)] ∧
    Emits (.minn p d a b) s [s.result 1 d (if x.toNat < y.toNat then x else y)] ∧
    Emits (.maxn p d a b) s [s.result 1 d (if x.toNat < y.toNat then y else x)] ∧
    ∀ i ∈ [Instr.div p d a b, .divn p d a b, .rem p d a b, .remn p d a b], ∃ v, Emits i s [s.result 20 d v]) ∧
  (∀ (s : State) (p : BitVec 3) (e : Ext) (d a : BitVec 5) (i : BitVec 12), Ready s p [a] →
    let x := s.rdS a
    Emits (.addi p e d a i) s [s.result 1 d (x + extended i e)] ∧
    Emits (.andi p e d a i) s [s.result 1 d (x &&& extended i e)] ∧
    Emits (.ori p e d a i) s [s.result 1 d (x ||| extended i e)] ∧
    Emits (.xori p e d a i) s [s.result 1 d (x ^^^ extended i e)]) ∧
  (∀ (s : State) (p : BitVec 3) (d a : BitVec 5) (n : BitVec 6), Ready s p [a] →
    let x := s.rdS a
    Emits (.shli p d a n) s [s.result 1 d (x <<< n.toNat)] ∧
    Emits (.shri p d a n) s [s.result 1 d (x >>> n.toNat)] ∧
    Emits (.sari p d a n) s [s.result 1 d (x.sshiftRight n.toNat)])

/-- R164: quotient and remainder, with the defined results for a divisor of 0 and for overflow, and the rule's encoding example. -/
def Obligations.DivisionResults : Prop :=
  decodeSlot .s 0x2C061100 0 = .ok (.div 0 3 1 2) ∧
  ∀ (s : State) (p : BitVec 3) (d a b : BitVec 5), Ready s p [a, b] →
    let x := s.rdS a
    let y := s.rdS b
    ∃ q r qn rn : Word,
      Emits (.div p d a b) s [s.result 20 d q] ∧ Emits (.rem p d a b) s [s.result 20 d r] ∧
      Emits (.divn p d a b) s [s.result 20 d qn] ∧ Emits (.remn p d a b) s [s.result 20 d rn] ∧
      (y = 0 → q = 0xFFFF_FFFF_FFFF_FFFF ∧ qn = 0xFFFF_FFFF_FFFF_FFFF ∧ r = x ∧ rn = x) ∧
      (x.toInt = -(2 ^ 63) → y.toInt = -1 → q = 0x8000_0000_0000_0000 ∧ r = 0) ∧
      (y ≠ 0 → ¬(x.toInt = -(2 ^ 63) ∧ y.toInt = -1) →
        q.toInt = x.toInt.tdiv y.toInt ∧ r.toInt = x.toInt.tmod y.toInt ∧ x.toInt = q.toInt * y.toInt + r.toInt) ∧
      (y ≠ 0 → qn.toNat = x.toNat / y.toNat ∧ rn.toNat = x.toNat % y.toNat)

/-- R165: the bit counts and the bit fields, IMMVAL for a field that passes bit 63, LEND for an extended word. -/
def Obligations.BitFields : Prop :=
  (∀ (s : State) (p : BitVec 3) (d a : BitVec 5), Ready s p [a] →
    ∃ n : Nat, Emits (.clz p d a) s [s.result 1 d (BitVec.ofNat 64 n)] ∧ n ≤ 64 ∧
      (∀ j < 64, 64 - n ≤ j → (s.rdS a).getLsbD j = false) ∧ (n < 64 → (s.rdS a).getLsbD (63 - n) = true)) ∧
  (∀ (s : State) (p : BitVec 3) (d a : BitVec 5), Ready s p [a] →
    Emits (.popc p d a) s
      [s.result 1 d (BitVec.ofNat 64 ((List.range 64).filter fun j => (s.rdS a).getLsbD j).length)]) ∧
  (∀ (s : State) (p : BitVec 3) (d a : BitVec 5) (n pos : BitVec 6), Ready s p [a] →
    (pos.toNat + (n.toNat + 1) ≤ 64 → ∃ v : Word, Emits (.bfx p d a n pos) s [s.result 1 d v] ∧
      ∀ j, v.getLsbD j = (decide (j < n.toNat + 1) && (s.rdS a).getLsbD (pos.toNat + j))) ∧
    (pos.toNat + (n.toNat + 1) > 64 → Traps (.bfx p d a n pos) s (.illegal 20 0))) ∧
  (∀ (s : State) (p : BitVec 3) (d a : BitVec 5) (n pos : BitVec 6), Ready s p [a, d] →
    (pos.toNat + (n.toNat + 1) ≤ 64 → ∃ v : Word, Emits (.bfi p d a n pos) s [s.result 1 d v] ∧
      ∀ j < 64, v.getLsbD j = (if pos.toNat ≤ j ∧ j < pos.toNat + (n.toNat + 1) then (s.rdS a).getLsbD (j - pos.toNat)
        else (s.rdS d).getLsbD j)) ∧
    (pos.toNat + (n.toNat + 1) > 64 → Traps (.bfi p d a n pos) s (.illegal 20 0))) ∧
  (∀ (w : BitVec 32) (lend : BitVec 8), w.toNat / 2 ^ 26 = 0x18 ∨ w.toNat / 2 ^ 26 = 0x19 → w.getLsbD 22 = true →
    decodeSlot .s w lend = .error .lend) ∧
  decodeSlot .s 0x4C061000 0 = .ok (.clz 0 3 1) ∧ decodeSlot .s 0x50061000 0 = .ok (.popc 0 3 1) ∧
  decodeSlot .s 0x600611C5 0 = .ok (.bfx 0 3 1 7 5) ∧ decodeSlot .s 0x640611C5 0 = .ok (.bfi 0 3 1 7 5)

/-- R166 to R169: moves, constants, comparison, selection and predicate operations. -/
def Obligations.MovesAndPredicates : Prop :=
  (∀ (s : State) (p : BitVec 3) (d a b : BitVec 5) (q : BitVec 3), Ready s p [a, b] →
    Emits (.sel p d a b q) s [s.result 1 d (if s.rdQ q then s.rdS a else s.rdS b)] ∧
    ∀ cc : ScalarCc, ∃ v : Bool, Emits (.cmp p q a b cc) s [s.due 1 (.wQ s.cur.ctx q v)] ∧
      (v = true ↔ match cc with
        | .eq => s.rdS a = s.rdS b
        | .ne => s.rdS a ≠ s.rdS b
        | .lt => (s.rdS a).toInt < (s.rdS b).toInt
        | .le => (s.rdS a).toInt ≤ (s.rdS b).toInt
        | .gt => (s.rdS a).toInt > (s.rdS b).toInt
        | .ge => (s.rdS a).toInt ≥ (s.rdS b).toInt
        | .ltn => (s.rdS a).toNat < (s.rdS b).toNat
        | .len => (s.rdS a).toNat ≤ (s.rdS b).toNat)) ∧
  (∀ (s : State) (p : BitVec 3) (d a : BitVec 5), Ready s p [a] → Emits (.mov p d a) s [s.result 1 d (s.rdS a)]) ∧
  (∀ (s : State) (p b : BitVec 3) (r : BitVec 5), HReady s p [r] →
    Emits (.movToB p b r) s [s.due 1 (.wB b ((s.rdS r).extractLsb' 0 20))]) ∧
  (∀ (s : State) (p b : BitVec 3) (r : BitVec 5), HReady s p [] →
    Emits (.movFromB p r b) s [s.result 1 r ((s.me.rdB b).zeroExtend 64)]) ∧
  (∀ (s : State) (p d a b : BitVec 3), Ready s p [] →
    Emits (.pand p d a b) s [s.due 1 (.wQ s.cur.ctx d (s.rdQ a && s.rdQ b))] ∧
    Emits (.por p d a b) s [s.due 1 (.wQ s.cur.ctx d (s.rdQ a || s.rdQ b))] ∧
    Emits (.pxor p d a b) s [s.due 1 (.wQ s.cur.ctx d (s.rdQ a != s.rdQ b))] ∧
    Emits (.pnot p d a) s [s.due 1 (.wQ s.cur.ctx d (!s.rdQ a))]) ∧
  (∀ (s : State) (p : BitVec 3) (e : Ext) (d : BitVec 5) (i : BitVec 17), Ready s p [] →
    Emits (.li p e d i) s [s.result 1 d (extended i e)]) ∧
  (∀ (s : State) (p : BitVec 3) (d : BitVec 5) (i : BitVec 16), Ready s p [d] →
    Emits (.lih p d i) s [s.result 1 d ((s.rdS d <<< 16) ||| i.zeroExtend 64)])

/-- R170, R115, R106, R113: GETSR reads, SETSR writes at +1, and the numbers and values that they refuse: a rotation above 8, a truncation
above 4, a tile control out of range or with rows above 1,024 bits, and SPCFG while a spill cell is live.
That a write through CTLDATA holds the context for two cycles, and that a read through it holds for none beyond its own, are the model's
reading (log 15), and so is what CTXID and RANK read in the firmware context (log 14). -/
def Obligations.SpecialRegisters : Prop :=
  (∀ (s : State) (p : BitVec 3) (d : BitVec 5) (n : BitVec 10), Ready s p [] → srKnown n.toNat = true →
    (holderSr n.toNat = true → s.isHolder = true) → (n = 0xA0 ∨ n = 0xA1 → s.isFw = true) →
    Emits (.getsr p d n) s [s.result 1 d (srRead s n.toNat)]) ∧
  (∀ (s : State) (p : BitVec 3) (a : BitVec 5) (n : BitVec 10), Ready s p [a] → srKnown n.toNat = true →
    srWritable n.toNat = true → (holderSr n.toNat = true → s.isHolder = true) →
    (n = 0xA0 ∨ n = 0xA1 → s.isFw = true) → srRefuse s n.toNat (s.rdS a) = none →
    (n ≠ 0xA1 → Emits (.setsr p a n) s [s.due 1 (if n = 10 ∨ n = 11 ∨ n = 12 then .wClear n.toNat (s.rdS a)
      else .wSr s.cur.ctx n.toNat (s.rdS a))]) ∧
    (n = 0xA1 → let t := s.plus [s.due 1 (.wSr s.cur.ctx n.toNat (s.rdS a))]
      exec (.setsr p a n) s = .next { t with cur := { t.cur with cycles := max 2 s.cur.cycles } })) ∧
  (∀ (s : State) (p : BitVec 3) (a : BitVec 5) (n : BitVec 10), Ready s p [a] →
    (holderSr n.toNat = true → s.isHolder = true) →
    (srKnown n.toNat = false → Traps (.getsr p a n) s (.illegal 13 0) ∧ Traps (.setsr p a n) s (.illegal 13 0)) ∧
    (srKnown n.toNat = true → srWritable n.toNat = false → Traps (.setsr p a n) s (.illegal 14 0)) ∧
    (n = 0xA0 ∨ n = 0xA1 → s.isFw = false → Traps (.getsr p a n) s .priv ∧ Traps (.setsr p a n) s .priv) ∧
    (0x50 ≤ n.toNat → n.toNat < 0x60 →
      ((s.rdS a).extractLsb' 0 3).toNat > 4 ∨ (s.rdS a).extractLsb' 21 43 ≠ 0 ∨
        (((s.rdS a).extractLsb' 10 10).toNat + 1) * 2 ^ (5 - ((s.rdS a).extractLsb' 0 3).toNat) > 1024 →
      Traps (.setsr p a n) s (.illegal 16 0)) ∧
    (n = 8 → ((s.rdS a).extractLsb' 32 4).toNat > 8 → Traps (.setsr p a n) s (.illegal 15 0)) ∧
    (n = 9 → ((s.rdS a).extractLsb' 0 3).toNat > 4 → Traps (.setsr p a n) s (.illegal 15 0)) ∧
    (n = 13 → s.me.anyCell = true → Traps (.setsr p a n) s (.illegal 18 0)))

/-- R171, R113: SPILL stores into the cell of its slot, FILL reads the cell back; NOSPILL without one. -/
def Obligations.SpillAndFill : Prop :=
  (∀ (s : State) (p : BitVec 3) (a : BitVec 5) (k : BitVec 6), Ready s p [a] →
    (∀ c, s.slotCell k.toNat = some c → Emits (.spill p a k) s [s.due 6 (.wSpill s.cur.ctx k.toNat c (s.rdS a))]) ∧
    (s.slotCell k.toNat = none → Traps (.spill p a k) s (.illegal 17 0))) ∧
  (∀ (s : State) (p : BitVec 3) (d : BitVec 5) (k : BitVec 6), Ready s p [] →
    (spGet 0xFFFF s.myCtx.spill k.toNat ≠ 0xFFFF →
      Emits (.fill p d k) s [s.result 6 d (s.me.cellGet (spGet 0xFFFF s.myCtx.spill k.toNat))]) ∧
    (spGet 0xFFFF s.myCtx.spill k.toNat = 0xFFFF → Traps (.fill p d k) s (.illegal 17 0)))

/-- R172, R146: where the six transfers go after their delay bundle, and the link of CALL. -/
def Obligations.Transfers : Prop :=
  (∀ (s : State) (q : BitVec 3) (e : Ext) (n : Bool) (o : BitVec 21),
    exec (.br q e n o) s = .next (s.goto (if s.rdQ q = n then .fall
      else .target (s.cur.baddr + ((extended o e).extractLsb' 0 16 <<< 2))))) ∧
  (∀ (s : State) (p : BitVec 3) (a : BitVec 14),
    exec (.jmp p a) s = .next (s.goto (if s.rdQ p then .target (a ++ 0#2) else .fall))) ∧
  (∀ (s : State) (p : BitVec 3) (a : BitVec 5), Ready s p [a] →
    ((s.rdS a).extractLsb' 16 48 = 0 → (s.rdS a).extractLsb' 0 2 = 0 →
      exec (.jmpr p a) s = .next (s.goto (.target ((s.rdS a).extractLsb' 0 16))) ∧
      exec (.ret p a) s = .next (s.goto (.target ((s.rdS a).extractLsb' 0 16)))) ∧
    (¬((s.rdS a).extractLsb' 16 48 = 0 ∧ (s.rdS a).extractLsb' 0 2 = 0) →
      exec (.jmpr p a) s = .next ((s.goto .fall).trap (.illegal 20 0)) ∧
      exec (.ret p a) s = .next ((s.goto .fall).trap (.illegal 20 0)))) ∧
  (∀ (s : State) (p : BitVec 3) (a : BitVec 5), s.rdQ p = false →
    exec (.jmpr p a) s = .next (s.goto .fall) ∧ exec (.ret p a) s = .next (s.goto .fall)) ∧
  (∀ (s : State) (p : BitVec 3) (e : Ext) (d : BitVec 5) (o : BitVec 17),
    exec (.call p e d o) s = .next (if s.rdQ p then
        (s.plus [s.result 1 d s.returnPoint]).goto (.target (s.cur.baddr + ((extended o e).extractLsb' 0 16 <<< 2)))
      else s.goto .fall))

/-- R174, R175: LPSET writes LPCTL and the stage predicates at +1, with IMMVAL for 9 to 15 and HOLDER elsewhere for nrot other than 0;
LOOP counts down, shifts the stage predicates, rotates the bases, and is taken while a stage is live. -/
def Obligations.Loops : Prop :=
  (∀ (s : State) (p : BitVec 3) (a : BitVec 5) (n : BitVec 4),
    (n ≠ 0 → s.isHolder = false → Traps (.lpset p a n) s (.illegal 10 0)) ∧
    (n = 0 ∨ s.isHolder = true → Ready s p [a] →
      (n.toNat ≤ 8 →
        let count := (s.rdS a).extractLsb' 0 32
        Emits (.lpset p a n) s
          [s.due 1 (.wLp s.cur.ctx count n), s.due 1 (.wQ s.cur.ctx 4 (decide (count ≠ 0))),
            s.due 1 (.wQ s.cur.ctx 5 false), s.due 1 (.wQ s.cur.ctx 6 false), s.due 1 (.wQ s.cur.ctx 7 false)]) ∧
      (n.toNat ≥ 9 → Traps (.lpset p a n) s (.illegal 20 0)))) ∧
  (∀ (s : State) (p : BitVec 3) (e : Ext) (o : BitVec 21),
    (s.myCtx.nrot ≠ 0 → s.isHolder = false → Traps (.loop p e o) s (.illegal 10 0)) ∧
    (s.myCtx.nrot = 0 ∨ s.isHolder = true → Ready s p [] →
      let n := s.myCtx.count.toNat - 1
      let q4 := decide (n ≠ 0)
      let k := s.cur.ctx
      let rot := if s.myCtx.nrot.toNat > 1 then
          (List.range s.myCtx.nrot.toNat).map fun j =>
            s.due 1 (.wB (BitVec.ofNat 3 j) (s.me.rdB (BitVec.ofNat 3 (if j + 1 = s.myCtx.nrot.toNat then 0 else j + 1))))
        else []
      let out := [s.due 1 (.wLp k (BitVec.ofNat 32 n) s.myCtx.nrot)] ++ rot ++
        [s.due 1 (.wQ k 4 q4), s.due 1 (.wQ k 5 (s.myCtx.rdQ 4)), s.due 1 (.wQ k 6 (s.myCtx.rdQ 5)),
          s.due 1 (.wQ k 7 (s.myCtx.rdQ 6))]
      exec (.loop p e o) s = .next ((s.plus out).goto
        (if q4 ∨ s.myCtx.rdQ 4 ∨ s.myCtx.rdQ 5 ∨ s.myCtx.rdQ 6 then
          .target (s.cur.baddr + ((extended o e).extractLsb' 0 16 <<< 2)) else .fall))))

/-- R123, R176, R177, R178, R179, R180, R183: the words of S0 that end, wait, trap, fence or steer. -/
def Obligations.StrandControl : Prop :=
  (∀ (s : State), exec .endStrand s = .next { s with cur := { s.cur with ended := true } }) ∧
  (∀ (s : State), (s.isHolder = true → exec .bar s = .next { s with cur := { s.cur with wait := .bar } }) ∧
    (s.isHolder = false → Traps .bar s (.illegal 10 0))) ∧
  (∀ (s : State) (c : BitVec 16), exec (.trap c) s = .next { s with cur := { s.cur with soft := some c } }) ∧
  (∀ (s : State), (s.isFw = false → Traps .eret s .priv) ∧
    (s.isFw = true → exec .eret s = .next (if s.myCtx.inHandler then { s with cur := { s.cur with eret := true } } else s))) ∧
  (∀ (s : State) (d : BitVec 5) (sc : Scope),
    exec (.fence d sc) s = .next
      (if s.isHolder = true ∨ sc = .strand ∨ sc = .core then s.plus [s.due (match sc with
          | .strand => 1 | .core => 2 | .panel => 8 | .die => 24 | .package => 48 | .hedge => 48 + 2 * s.fenceLat
          | .host => 2048 | .system => 4096) (.fenceSt s.cur.ctx d sc.code)]
       else { s with cur := { s.cur with wait := .fence sc.code d s.cur.t } })) ∧
  (∀ (s : State) (d a : BitVec 5), Ready s 0 [a] →
    (s.gramer = 0 → Traps (.drift d a) s (.illegal 11 0)) ∧
    (s.gramer ≠ 0 → s.isFw = false → Traps (.drift d a) s .priv) ∧
    (s.gramer ≠ 0 → s.isFw = true →
      let lim : Int := ((s.rdS a).extractLsb' 0 16).toNat
      Emits (.drift d a) s
        (if (∀ i < s.gramer, s.portUp i = false) ∨ (spGet 0 s.drift 0).getLsbD 37 = false ∨ s.ctlFld offSyncctl 1 1 = 1 then
          [s.result 1 d 0]
        else [s.result 1 d ((driftE s).signExtend 64),
          s.due 1 (.drift (max (-lim) (min lim (-((driftE s).toInt.tdiv 16)))))]))) ∧
  (∀ (s : State) (n : BitVec 8), exec (.idle n) s = .next { s with cur := { s.cur with cycles := n.toNat + 1 } })

/-! ## Memory, queue and engine words (10) -/

/-- R187, R272: the scratchpad loads and stores, and their ALIGN and RANGE; a load of an untimed context waits for the earlier stores of its
context to the line. -/
def Obligations.ScratchpadAccess : Prop :=
  ∀ (s : State) (p : BitVec 3) (e : Ext) (d x : BitVec 5) (base : Base) (z : Sz) (o : BitVec 8), BaseOk s base →
    (∀ a, a = s.baseVal base + extended o e * BitVec.ofNat 64 z.bytes →
      (a.toNat % z.bytes = 0 → a.toNat + z.bytes - 1 ≤ 0x4FFFF →
        (Ready s p base.sregs →
          (s.spBusy s.cur.core (a.toNat / 64) = false →
            Emits (.lds p e d base z o) s [s.due 1 (.spLoad a.toNat z.bytes ⟨s.cur.ctx, d⟩)]) ∧
          (s.spBusy s.cur.core (a.toNat / 64) = true → Held (.lds p e d base z o) s)) ∧
        (Ready s p (base.sregs ++ [d]) → Emits (.sts p e d base z o) s
          [s.due 1 (.spStore a.toNat (natLe z.bytes (s.rdS d).toNat))])) ∧
      (a.toNat % z.bytes ≠ 0 →
        (Ready s p base.sregs → Traps (.lds p e d base z o) s (.align a none)) ∧
        (Ready s p (base.sregs ++ [d]) → Traps (.sts p e d base z o) s (.align a none))) ∧
      (a.toNat % z.bytes = 0 → a.toNat + z.bytes - 1 > 0x4FFFF →
        (Ready s p base.sregs → Traps (.lds p e d base z o) s (.range a none)) ∧
        (Ready s p (base.sregs ++ [d]) → Traps (.sts p e d base z o) s (.range a none)))) ∧
    (∀ a, a = s.baseVal base + s.rdS x →
      (a.toNat % z.bytes = 0 → a.toNat + z.bytes - 1 ≤ 0x4FFFF →
        (Ready s p (base.sregs ++ [x]) →
          (s.spBusy s.cur.core (a.toNat / 64) = false →
            Emits (.ldsIndexed p d base z x) s [s.due 1 (.spLoad a.toNat z.bytes ⟨s.cur.ctx, d⟩)]) ∧
          (s.spBusy s.cur.core (a.toNat / 64) = true → Held (.ldsIndexed p d base z x) s)) ∧
        (Ready s p (base.sregs ++ [x, d]) → Emits (.stsIndexed p d base z x) s
          [s.due 1 (.spStore a.toNat (natLe z.bytes (s.rdS d).toNat))])) ∧
      (a.toNat % z.bytes ≠ 0 →
        (Ready s p (base.sregs ++ [x]) → Traps (.ldsIndexed p d base z x) s (.align a none)) ∧
        (Ready s p (base.sregs ++ [x, d]) → Traps (.stsIndexed p d base z x) s (.align a none))) ∧
      (a.toNat % z.bytes = 0 → a.toNat + z.bytes - 1 > 0x4FFFF →
        (Ready s p (base.sregs ++ [x]) → Traps (.ldsIndexed p d base z x) s (.range a none)) ∧
        (Ready s p (base.sregs ++ [x, d]) → Traps (.stsIndexed p d base z x) s (.range a none))))

/-- R188, R59, R89, R91: the latent-store loads and stores through a handle that passes its check, in a cycle that the phase rule
allows; in one that it forbids the holder takes TIMING and another context waits. -/
def Obligations.LatentStoreAccess : Prop :=
  ∀ (s : State) (p : BitVec 3) (e : Ext) (d x : BitVec 5) (h : BitVec 4) (z : Sz) (o : BitVec 8),
    (∀ a pl, a = extended o e * BitVec.ofNat 64 z.bytes → pl = handlePlace (s.rdH h) a.toNat →
      a.toNat % z.bytes = 0 →
      (Ready s p [] → HandleOk (s.rdH h) a.toNat z.bytes false true → LsOpen s pl false →
        Emits (.ldl p e d h z o) s [s.due (if pl.die = dieOf s.cur.core then 24 else 40)
          (.wS s.cur.ctx d (BitVec.ofNat 64 (leNat (s.lsBytes pl z.bytes))) (s.lsTag pl))]) ∧
      (Ready s p [d] → HandleOk (s.rdH h) a.toNat z.bytes true true → LsOpen s pl true →
        Emits (.stl p e d h z o) s [s.due (if pl.die = dieOf s.cur.core then 20 else 36)
          (.lsStore pl (List.replicate z.bytes true) (natLe z.bytes (s.rdS d).toNat))]) ∧
      (Ready s p [] → HandleOk (s.rdH h) a.toNat z.bytes false true → OffPhase s pl false → PhaseRule (.ldl p e d h z o) s pl) ∧
      (Ready s p [d] → HandleOk (s.rdH h) a.toNat z.bytes true true → OffPhase s pl true → PhaseRule (.stl p e d h z o) s pl)) ∧
    (∀ pl, pl = handlePlace (s.rdH h) (s.rdS x).toNat → (s.rdS x).toNat % z.bytes = 0 →
      (Ready s p [x] → HandleOk (s.rdH h) (s.rdS x).toNat z.bytes false true → LsOpen s pl false →
        Emits (.ldlIndexed p d h z x) s [s.due (if pl.die = dieOf s.cur.core then 24 else 40)
          (.wS s.cur.ctx d (BitVec.ofNat 64 (leNat (s.lsBytes pl z.bytes))) (s.lsTag pl))]) ∧
      (Ready s p [d, x] → HandleOk (s.rdH h) (s.rdS x).toNat z.bytes true true → LsOpen s pl true →
        Emits (.stlIndexed p d h z x) s [s.due (if pl.die = dieOf s.cur.core then 20 else 36)
          (.lsStore pl (List.replicate z.bytes true) (natLe z.bytes (s.rdS d).toNat))]) ∧
      (Ready s p [x] → HandleOk (s.rdH h) (s.rdS x).toNat z.bytes false true → OffPhase s pl false →
        PhaseRule (.ldlIndexed p d h z x) s pl) ∧
      (Ready s p [d, x] → HandleOk (s.rdH h) (s.rdS x).toNat z.bytes true true → OffPhase s pl true →
        PhaseRule (.stlIndexed p d h z x) s pl))

/-- R59 with Table 4.4, for an indexed load and store of the latent store: the first failing row decides the trap, and ALIGN comes
after it (R185). -/
def Obligations.HandleCheckOrder : Prop :=
  ∀ (s : State) (p : BitVec 3) (d x : BitVec 5) (h : BitVec 4) (z : Sz), Ready s p [d, x] →
    let o := (s.rdS x).toNat
    let y := s.rdH h
    let bad := TrapKind.handle h y.hst (s.rdS x)
    (y.v = false → Traps (.ldlIndexed p d h z x) s bad ∧ Traps (.stlIndexed p d h z x) s bad) ∧
    (y.v = true → o + z.bytes > (y.npgm1.toNat + 1) * 65536 →
      Traps (.ldlIndexed p d h z x) s (.range (s.rdS x) (some h)) ∧
      Traps (.stlIndexed p d h z x) s (.range (s.rdS x) (some h))) ∧
    (y.v = true → o + z.bytes ≤ (y.npgm1.toNat + 1) * 65536 → o % z.bytes = 0 →
      (y.valid.getLsbD (o / 65536) = false → Traps (.ldlIndexed p d h z x) s bad ∧ Traps (.stlIndexed p d h z x) s bad) ∧
      (y.valid.getLsbD (o / 65536) = true →
        (y.w = false → Traps (.stlIndexed p d h z x) s bad) ∧
        (y.sp = false → Traps (.ldlIndexed p d h z x) s bad ∧ Traps (.stlIndexed p d h z x) s bad))) ∧
    (HandleOk y o z.bytes true true → o % z.bytes ≠ 0 →
      Traps (.ldlIndexed p d h z x) s (.align (s.rdS x) (some h)) ∧
      Traps (.stlIndexed p d h z x) s (.align (s.rdS x) (some h)))

/-- R192, R89, R91: the ten atomics reach their word at +20 or +36; ACAS reads its new value from sd. In a cycle that the phase rule forbids
the holder takes TIMING and another context waits. -/
def Obligations.AtomicIssue : Prop :=
  ∀ (s : State) (p : BitVec 3) (d : BitVec 5) (h : BitVec 4) (i x : BitVec 5) (z : Aw) (pl : LsAddr),
    let n := awBytes z
    let act := fun op => s.due (if pl.die = dieOf s.cur.core then 20 else 36)
      (.lsAtomic pl op (8 * n) ((s.rdS x).toNat % 2 ^ (8 * n)) ((s.rdS d).toNat % 2 ^ (8 * n)) ⟨s.cur.ctx, d⟩)
    pl = handlePlace (s.rdH h) (s.rdS i).toNat → (s.rdS i).toNat % n = 0 →
    HandleOk (s.rdH h) (s.rdS i).toNat n true true →
    (AtomicOpen s pl →
      (Ready s p [i, x] →
        Emits (.aadd p d h i x z) s [act .add] ∧ Emits (.amin p d h i x z) s [act .min] ∧
        Emits (.amax p d h i x z) s [act .max] ∧ Emits (.aminn p d h i x z) s [act .minn] ∧
        Emits (.amaxn p d h i x z) s [act .maxn] ∧ Emits (.aand p d h i x z) s [act .and] ∧
        Emits (.aor p d h i x z) s [act .or] ∧ Emits (.axor p d h i x z) s [act .xor] ∧
        Emits (.aswp p d h i x z) s [act .swp]) ∧
      (Ready s p [i, x, d] → Emits (.acas p d h i x z) s [act .cas])) ∧
    (OffPhase s pl true →
      (Ready s p [i, x] → ∀ j ∈ [Instr.aadd p d h i x z, .amin p d h i x z, .amax p d h i x z, .aminn p d h i x z, .amaxn p d h i x z,
        .aand p d h i x z, .aor p d h i x z, .axor p d h i x z, .aswp p d h i x z], PhaseRule j s pl) ∧
      (Ready s p [i, x, d] → PhaseRule (.acas p d h i x z) s pl))

/-- R192 with Table 6.5: what an atomic leaves in its word and in sd, 8 cycles after it performs; a poisoned word keeps its value
(R93). -/
def Obligations.AtomicPerforms : Prop :=
  ∀ (s : State) (q : Pend) (pl : LsAddr) (op : AOp) (z : Aw) (x y : Nat) (ld : LoadTo),
    q.act = .lsAtomic pl op (8 * awBytes z) x y ld → x < 2 ^ (8 * awBytes z) → y < 2 ^ (8 * awBytes z) →
    let n := awBytes z
    let old := leNat (s.lsBytes pl n)
    let t := s.writeAct q
    t.pend = s.pend ++ [⟨q.clk, q.due + 8, false, q.own, .wS ld.ctx ld.rd (BitVec.ofNat 64 old) (s.lsTag pl)⟩] ∧
    (∀ a, a < pl.key ∨ pl.key + n ≤ a → spGet 0 t.ls a = spGet 0 s.ls a) ∧
    (s.lsTag pl = true → t.ls = s.ls) ∧
    (s.lsTag pl = false → leNat (t.lsBytes pl n) = (match op with
      | .add => (old + x) % 2 ^ (8 * n)
      | .min => if (BitVec.ofNat (8 * n) old).toInt ≤ (BitVec.ofNat (8 * n) x).toInt then old else x
      | .max => if (BitVec.ofNat (8 * n) old).toInt ≤ (BitVec.ofNat (8 * n) x).toInt then x else old
      | .minn => if old ≤ x then old else x
      | .maxn => if old ≤ x then x else old
      | .and => old &&& x
      | .or => old ||| x
      | .xor => old ^^^ x
      | .swp => x
      | .cas => if old = x then y else old))

/-- R189, R190, R191, R360: XLAT, HCHK and HINV, which waits for the blocks that it uses and is ILLEGAL where a unit of one is absent. -/
def Obligations.HandleWords : Prop :=
  (∀ (s : State) (p : BitVec 3) (h : BitVec 4) (a b : BitVec 5), Ready s p [a, b] →
    let die := dieOf s.cur.core
    let space := s.spaceOf s.cur.core s.cur.ctx
    let x := s.xlat die space (s.rdS a).toNat (s.rdS b).toNat
    Emits (.xlat p h a b) s (s.due 12 (.wH s.cur.ctx h x) ::
      (if x.hst = 4 ∨ (s.rootOf space).getLsbD 0 = false then []
       else [s.due 1 (.spanUse die space ((s.rdS a).toNat / 2 ^ 22 % 2 ^ 26))]))) ∧
  (∀ (s : State) (p : BitVec 3) (d : BitVec 5) (h : BitVec 4) (q : BitVec 3), Ready s p [] →
    let x := s.rdH h
    ∃ ok : Bool, Emits (.hchk p d h q) s [s.result 1 d (x.vbase ++ x.gen ++ x.ten ++ x.npgm1 ++ x.hst
        ++ BitVec.ofBool x.sp ++ BitVec.ofBool x.w ++ BitVec.ofBool x.v), s.due 1 (.wQ s.cur.ctx q ok)] ∧
      (ok = true ↔ x.v = true ∧ ∀ i < 64, x.valid.getLsbD i = true → x.res.getLsbD i = true)) ∧
  (∀ (s : State) (p : BitVec 3) (a b : BitVec 5), s.isFw = true → Ready s p [a, b] →
    (s.rdS a).extractLsb' 48 16 = 0 → (s.rdS b).extractLsb' 26 6 = 0 → (s.rdS b).extractLsb' 38 26 = 0 →
    ((∃ j ∈ s.shootBlocks (s.rdS b), absentBlock s.variant (offPart j) = true) → Traps (.hinv p a b) s (.illegal 11 0)) ∧
    ((∀ j ∈ s.shootBlocks (s.rdS b), absentBlock s.variant (offPart j) = false) → ((∀ j ∈ s.shootBlocks (s.rdS b), (s.ctlGet (offSdctl j)).getLsbD 1 = false) →
        Emits (.hinv p a b) s [s.due 0 (.fwShoot (s.rdS a) (s.rdS b))]) ∧
      ((∃ j ∈ s.shootBlocks (s.rdS b), (s.ctlGet (offSdctl j)).getLsbD 1 = true) → Held (.hinv p a b) s))) ∧
  (∀ (s : State) (p : BitVec 3) (a b : BitVec 5), Ready s p [a, b] →
    let reserved := (s.rdS a).extractLsb' 48 16 ≠ 0 ∨ (s.rdS b).extractLsb' 26 6 ≠ 0 ∨ (s.rdS b).extractLsb' 38 26 ≠ 0
    (reserved → Traps (.hinv p a b) s (.illegal 20 0)) ∧
    (¬reserved → s.isFw = false → (∀ j ∈ s.shootBlocks (s.rdS b), absentBlock s.variant (offPart j) = false) → Traps (.hinv p a b) s .priv))

/-- R193, R194, R195: a queue word of the holder reaches its engine at +16 or +32; of another context it waits for its result, and the engine
checks it when it performs (R97). A number above 11 bits is IMMVAL.
The cycle in which the engine serves an untimed operation is the model's choice (log 37). -/
def Obligations.QueueWords : Prop :=
  ∀ (s : State) (p : BitVec 3) (d a b : BitVec 5) (q : BitVec 3),
    let v := (s.rdS a).toNat
    let off := if v / 1024 = dieOf s.cur.core then 16 else 32
    let x := fun (op : QOp) (rd : BitVec 5) => s.due off (.qArrive op v rd)
    let ask := fun (op : QOp) (rd : BitVec 5) (w : Wait) => { s.plus [s.due 0 (.qAsk op v rd)] with
      cur := { (s.plus [s.due 0 (.qAsk op v rd)]).cur with wait := w } }
    (v < 2048 → s.isHolder = true →
      (Ready s p [a, b] → (s.rdS b).toNat < 16 → Emits (.qinit p a b) s [x (.init (s.rdS b).toNat) 0]) ∧
      (Ready s p [a, b] → Emits (.qenq p d a b) s [x (.enq (s.rdS b)) d]) ∧
      (Ready s p [a] → Emits (.qtry p d a q) s [x (.try_ q) d] ∧ Emits (.qlen p d a) s [x .len d] ∧
        exec (.qdeq p d a) s = .next { s.plus [x .deq d] with cur := { (s.plus [x .deq d]).cur with wait := .qdeq v d } })) ∧
    (v < 2048 → s.isHolder = false →
      (∀ op, (match op with | .init t => t < 16 ∧ t = (s.rdS b).toNat | .enq y => y = s.rdS b | .try_ r => r = q | _ => True) →
        ∀ i rd, i = (match op with
          | .init _ => Instr.qinit p a b | .enq _ => .qenq p d a b | .deq => .qdeq p d a | .try_ _ => .qtry p d a q
          | .len => .qlen p d a) → rd = (match op with | .init _ => 0 | _ => d) → Ready s p [a, b] →
        exec i s = .next (ask op rd (match op with | .deq => .qdeq v d | _ => .qres)))) ∧
    (v ≥ 2048 →
      (Ready s p [a, b] → (s.rdS b).toNat < 16 → Traps (.qinit p a b) s (.illegal 20 0)) ∧
      (Ready s p [a, b] → Traps (.qenq p d a b) s (.illegal 20 0)) ∧
      (Ready s p [a] → Traps (.qdeq p d a) s (.illegal 20 0) ∧ Traps (.qtry p d a q) s (.illegal 20 0) ∧
        Traps (.qlen p d a) s (.illegal 20 0))) ∧
    (Ready s p [a, b] → (s.rdS b).toNat ≥ 16 → Traps (.qinit p a b) s (.illegal 20 0))

/-- R206 to R211: STAGE, CPY, DISCARD, PGREQ, and the words that feed the scale queue and set the random-bits queue. -/
def Obligations.EngineWords : Prop :=
  (∀ (s : State) (p : BitVec 3), HReady s p [] →
    (s.myCtx.rank = 0 → Emits (.stage p) s [s.due 1 .stage]) ∧
    (s.myCtx.rank ≠ 0 → Traps (.stage p) s (.illegal 21 0))) ∧
  (∀ (s : State) (p : BitVec 3) (e : Ext) (base : Base) (o : BitVec 11), BaseOk s base → Ready s p base.sregs →
    let a := s.baseVal base + extended o e * 32
    (a.toNat % 32 = 0 → a.toNat + 31 ≤ 0x4FFFF → Emits (.cpy p e base o) s [s.due 1 (.cpyImage a.toNat s.myCtx.h)]) ∧
    (a.toNat % 32 ≠ 0 → Traps (.cpy p e base o) s (.align a none)) ∧
    (a.toNat % 32 = 0 → a.toNat + 31 > 0x4FFFF → Traps (.cpy p e base o) s (.range a none))) ∧
  (∀ (s : State) (p : BitVec 3) (h : BitVec 4) (b c : BitVec 5), Ready s p [b, c] →
    let o := (s.rdS b).toNat
    let n := (s.rdS c).toNat
    (n = 0 → exec (.discard p h b c) s = .next s) ∧
    (n ≠ 0 → HandleOk (s.rdH h) o n true false → Emits (.discard p h b c) s
      [s.due 4 (.discard (s.spaceOf s.cur.core s.cur.ctx) (handleAddr (s.rdH h) o) (handleAddr (s.rdH h) o + n))]) ∧
    (n ≠ 0 → (s.rdH h).v = false → Traps (.discard p h b c) s (.handle h (s.rdH h).hst (s.rdS b)))) ∧
  (∀ (s : State) (p : BitVec 3) (d : BitVec 5) (h : BitVec 4) (c : BitVec 5), Ready s p [c] →
    let x := s.rdH h
    let page := (s.rdS c).toNat
    (x.v = true → page ≤ x.npgm1.toNat → x.valid.getLsbD page = true →
      Emits (.pgreq p d h c) s [s.due 1 (.pgAsk x page d)]) ∧
    (x.v = true → page > x.npgm1.toNat →
      Traps (.pgreq p d h c) s (.range (BitVec.ofNat 64 (65536 * page)) (some h))) ∧
    (x.v = false ∨ page ≤ x.npgm1.toNat ∧ x.valid.getLsbD page = false →
      Traps (.pgreq p d h c) s (.handle h x.hst (BitVec.ofNat 64 (65536 * page))))) ∧
  (∀ (s : State) (p : BitVec 3) (e : Ext) (base : Base) (o : BitVec 11), HReady s p base.sregs →
    let a := s.baseVal base + extended o e * 64
    (a.toNat % 64 = 0 → a.toNat + 63 ≤ 0x4FFFF → Emits (.sqld p e base o) s [s.due 1 (.sqldRd (a.toNat / 64))]) ∧
    (a.toNat % 64 ≠ 0 → Traps (.sqld p e base o) s (.align a none)) ∧
    (a.toNat % 64 = 0 → a.toNat + 63 > 0x4FFFF → Traps (.sqld p e base o) s (.range a none))) ∧
  (∀ (s : State) (p : BitVec 3) (a : BitVec 5), HReady s p [a] →
    Emits (.sqpsh p a) s [s.due 1 (.sqPush [(s.rdS a).extractLsb' 0 16])] ∧
    Emits (.rqseed p a) s [s.due 1 (.rqSet (some (s.rdS a)) 0)] ∧
    ((s.rdS a).extractLsb' 46 18 = 0 → Emits (.rqpos p a) s [s.due 1 (.rqSet none ((s.rdS a).extractLsb' 0 46))]) ∧
    ((s.rdS a).extractLsb' 46 18 ≠ 0 → Traps (.rqpos p a) s (.illegal 20 0))) ∧
  (∀ (s : State) (p : BitVec 3), HReady s p [] → Emits (.sqclr p) s [s.due 1 .sqClear])

/-- R199, R272: RLD and RST reach the scratchpad of another rank on the same package, an untimed RLD after its context's earlier stores to the
line; IMMVAL for any other rank. -/
def Obligations.RemoteWords : Prop :=
  ∀ (s : State) (p : BitVec 3) (e : Ext) (d k a : BitVec 5) (z : Sz) (o : BitVec 5) (pn : Panel),
    s.myPanel = some pn →
    let r := (s.rdS k).toNat
    let ad := s.rdS a + extended o e * BitVec.ofNat 64 z.bytes
    (∀ me tg, pn.rankAt s.cur.core = some me → pn.rank? r = some tg → tg.pkg = pn.here →
      let m := meshLat me.1 tg
      (ad.toNat % z.bytes = 0 → ad.toNat + z.bytes - 1 ≤ 0x4FFFF →
        (Ready s p [k, a] →
          (s.spBusy tg.core (ad.toNat / 64) = false → exec (.rld p e d k a z o) s = .next
            (((s.plus [s.due m (.rldReq tg.core ad.toNat z.bytes m ⟨s.cur.ctx, d⟩)]).useLinks me.2 m (route me.1 tg 2)).useLinks r
              (2 * m + 2) (route tg me.1 (m + 4)))) ∧
          (s.spBusy tg.core (ad.toNat / 64) = true → Held (.rld p e d k a z o) s)) ∧
        (Ready s p [k, a, d] → exec (.rst p e d k a z o) s = .next
          ((s.plus [s.due m (.rstReq tg.core ad.toNat (natLe z.bytes (s.rdS d).toNat))]).useLinks me.2 m (route me.1 tg 2)))) ∧
      (ad.toNat % z.bytes ≠ 0 →
        (Ready s p [k, a] → Traps (.rld p e d k a z o) s (.align ad none)) ∧
        (Ready s p [k, a, d] → Traps (.rst p e d k a z o) s (.align ad none)))) ∧
    ((∀ me tg, pn.rankAt s.cur.core = some me → pn.rank? r = some tg → tg.pkg ≠ pn.here) →
      (Ready s p [k, a] → Traps (.rld p e d k a z o) s (.illegal 20 0)) ∧
      (Ready s p [k, a, d] → Traps (.rst p e d k a z o) s (.illegal 20 0)))

/-- R200, R201: SEND reads its first line at +1; RECV sets its pending bits at once and arms its slot at +1. -/
def Obligations.SendAndReceive : Prop :=
  ∀ (s : State) (p : BitVec 3) (a b c : BitVec 5) (f : BitVec 3) (pn : Panel) (me : RankPos × Nat) (tg : RankPos),
    HReady s p [a, b, c] → s.myPanel = some pn → pn.rankAt s.cur.core = some me →
    let r := ((s.rdS b).extractLsb' 0 16).toNat
    let port := ((s.rdS b).extractLsb' 16 5).toNat
    let n := (s.rdS c).toNat
    let ad := (s.rdS a).toNat
    pn.rank? r = some tg → (s.rdS b).extractLsb' 21 43 = 0 → 1 ≤ n → n ≤ 4096 → s.portOk pn tg port = true →
      (ad % 64 = 0 → ad + 64 * n ≤ 0x50000 →
        (s.me.units.sendEnd ≤ s.cur.t →
          let m := if me.1.pkg = tg.pkg then meshLat me.1 tg else 8 + s.portLat port + 2 * (me.1.y + tg.y)
          let t := s.plus [s.due 1 (.sendRd ad r f.toNat n 0 m port)]
          exec (.send p a b c f) s = .next { t with
            cur := { t.cur with units := { s.cur.units with sendEnd := s.cur.t + 1 + n } } }) ∧
        (s.me.units.sendEnd > s.cur.t → Traps (.send p a b c f) s (.timing 8 0)) ∧
        Emits (.recv p a b c f) s [s.due 0 (.pendSet (ad / 64) n 1 f.toNat 0),
          s.due 1 (.arm f.toNat ⟨ad, r, port, n, 0, s.own⟩)]) ∧
      (ad % 64 ≠ 0 → Traps (.send p a b c f) s (.align (s.rdS a) none) ∧ Traps (.recv p a b c f) s (.align (s.rdS a) none)) ∧
      (ad % 64 = 0 → ad + 64 * n > 0x50000 →
        Traps (.send p a b c f) s (.range (s.rdS a) none) ∧ Traps (.recv p a b c f) s (.range (s.rdS a) none))

/-- R203, R204, R205: a collective of a group that lies in the panel checks its members at +1 and holds its core to its end: the root of an
NRED reads the rows of the members of its package and writes at NL, the root of an NBC reads its lines from +1 on, the other members mark theirs;
a spilled accumulator, ALIGN, RANGE and a group past the last rank are refused, and TIMING is raised while the core's previous one runs.
The index of an NBC line, and the kind and detail of that TIMING, are free (log 17). -/
def Obligations.Collectives : Prop :=
  ∀ (s : State) (p : BitVec 3) (a b c : BitVec 5) (m : BitVec 2) (n : BitVec 7) (pn : Panel),
    s.myPanel = some pn →
    let g0 := (s.rdS b).toNat
    let len := (s.rdS c).toNat
    let ad := (s.rdS a).toNat
    let check := fun (w : Word) => s.due 1 (.collCheck g0 n.toNat (s.rdS b, w))
    (∀ g, pn.group? g0 n.toNat = some g → g0 < 2 ^ 16 →
      let here := g.root.pkg = pn.here
      let nl := s.groupNl pn g
      let mb := s.groupMb pn g
      let an := (s.me.accum m.toNat).anchor
      let cores := (g.members.filter fun r => r.pkg == pn.here).map (·.core)
      let away := (g.members.zipIdx.filter fun x => x.1.pkg != pn.here).map fun x => g0 + x.2
      let marks := s.due 0 (.pendSet (ad / 64) len 1 Config.nbcIndex 0)
      (HReady s p [b] →
        (s.me.accSpilled m.toNat = true → Traps (.nred p m b n) s (.illegal 18 0)) ∧
        (s.me.accSpilled m.toNat = false → s.me.units.collEnd > s.cur.t → ∃ k d, Traps (.nred p m b n) s (.timing k d)) ∧
        (s.me.accSpilled m.toNat = false → s.me.units.collEnd ≤ s.cur.t →
          (here → g.root.core = s.cur.core → exec (.nred p m b n) s = .next (s.collective nl 64
            [check 0, s.due 1 (.nredRd m.toNat g0 0 cores (cores.filter fun k => ((s.core k).accum m.toNat).anchor != an) an []),
              s.due nl (.nredLink m.toNat), s.dueLate nl (.wNred m.toNat g0 an [] away)])) ∧
          (here → g.root.core ≠ s.cur.core → exec (.nred p m b n) s = .next (s.collective nl 64 [check 0])) ∧
          (¬here → exec (.nred p m b n) s =
            .next (s.collective nl 64 [check 0, s.due 1 (.nredRd m.toNat g0 0 [s.cur.core] [] an [])])))) ∧
      (HReady s p [a, b, c] → 1 ≤ len → len ≤ 4096 →
        (ad % 64 ≠ 0 → Traps (.nbc p a b c n) s (.align (s.rdS a) none)) ∧
        (ad % 64 = 0 → ad + 64 * len > 0x50000 → Traps (.nbc p a b c n) s (.range (s.rdS a) none)) ∧
        (ad % 64 = 0 → ad + 64 * len ≤ 0x50000 → s.me.units.collEnd > s.cur.t →
          ∃ k d, Traps (.nbc p a b c n) s (.timing k d)) ∧
        (ad % 64 = 0 → ad + 64 * len ≤ 0x50000 → s.me.units.collEnd ≤ s.cur.t →
          (here → g.root.core = s.cur.core → exec (.nbc p a b c n) s =
            .next (s.collective (len + mb) len [check (s.rdS c), s.due 1 (.nbcRd ad g0 n.toNat len 0 mb)])) ∧
          (here → g.root.core ≠ s.cur.core → exec (.nbc p a b c n) s = .next (s.collective (len + mb) len [check (s.rdS c), marks])) ∧
          (¬here → exec (.nbc p a b c n) s = .next (s.collective (len + mb) len
            [check (s.rdS c), marks, s.due (1 + mb) (.nbcExpect ad len 0 (s.collPort g.root.pkg))]))))) ∧
    (g0 + n.toNat > pn.ranks.length →
      (HReady s p [b] → Traps (.nred p m b n) s (.illegal 20 0)) ∧
      (HReady s p [a, b, c] → 1 ≤ len → len ≤ 4096 → Traps (.nbc p a b c n) s (.illegal 20 0))) ∧
    (HReady s p [a, b, c] → len < 1 ∨ len > 4096 → Traps (.nbc p a b c n) s (.illegal 20 0))

/-! ## Vector words (11) -/

/-- R219 to R222, R89: the vector loads and stores, cluster by cluster; a scratchpad word off its alignment or range, and a latent-store word
in a cycle that the phase rule forbids, trap in the first cluster that executes them.
That a word with every lane masked still asks for its bank is the model's reading (log 27). -/
def Obligations.VectorMemory : Prop :=
  (∀ (s : State) (p : BitVec 3) (e : Ext) (v : BitVec 5) (base : Base) (o : BitVec 8) (m : BitVec 3),
    let a := s.baseVal base + extended o e * 64
    a.toNat % 64 = 0 → a.toNat + 63 ≤ 0x4FFFF →
      (VReady s p base.sregs [] → VEmits (.vld p e v base o m) s fun c =>
        [(s.inCluster c).due 1 (.vLoad c v (s.rdM c m) (a.toNat / 64))]) ∧
      (VReady s p base.sregs [v] → VEmits (.vst p e v base o m) s fun c =>
        [(s.inCluster c).due 1 (.vStore c (a.toNat / 64) (s.rdM c m) (s.rdV c v))])) ∧
  (∀ (s : State) (p : BitVec 3) (e : Ext) (v : BitVec 5) (base : Base) (o : BitVec 8) (m : BitVec 3) (c : Nat),
    let a := s.baseVal base + extended o e * 64
    s.cur.clusters = [c] →
      (a.toNat % 64 ≠ 0 →
        (VReady s p base.sregs [] → Traps (.vld p e v base o m) (s.inCluster c) (.align a none)) ∧
        (VReady s p base.sregs [v] → Traps (.vst p e v base o m) (s.inCluster c) (.align a none))) ∧
      (a.toNat % 64 = 0 → a.toNat + 63 > 0x4FFFF →
        (VReady s p base.sregs [] → Traps (.vld p e v base o m) (s.inCluster c) (.range a none)) ∧
        (VReady s p base.sregs [v] → Traps (.vst p e v base o m) (s.inCluster c) (.range a none)))) ∧
  (∀ (s : State) (p : BitVec 3) (e : Ext) (v a b : BitVec 5) (m : BitVec 3), VReady s p [a, b] [] →
    let ad := fun (j : Nat) => s.rdS a + s.rdS b * BitVec.ofNat 64 j
    (∀ c ∈ s.cur.clusters, ∀ j < 16, (s.rdM c m).getLsbD j = true → (ad j).toNat % 4 = 0 ∧ (ad j).toNat + 4 ≤ 0x50000) →
    VEmits (.vlds p e v a b m) s fun c =>
      if s.rdM c m = 0 then []
      else [(s.inCluster c).due 1 (.vGather c v (s.rdM c m) ((List.range 16).map fun j => (ad j).toNat)
        (laneLines (s.rdM c m) ((List.range 16).map fun j => (ad j).toNat)) 0 false)]) ∧
  (∀ (s : State) (p : BitVec 3) (e : Ext) (v a b : BitVec 5) (m : BitVec 3),
    let ad := fun (c j : Nat) => s.rdS a + (lane (s.rdV c b) j).zeroExtend 64
    (∀ c ∈ s.cur.clusters, ∀ j < 16, (s.rdM c m).getLsbD j = true → (ad c j).toNat % 4 = 0 ∧ (ad c j).toNat + 4 ≤ 0x50000) →
    (VReady s p [a] [b] → VEmits (.vldx p e v a b m) s fun c =>
      [(s.inCluster c).due 1 (.vIdxLoad c v (s.rdM c m) ((List.range 16).map fun j => (ad c j).toNat) 0 0 false)]) ∧
    (VReady s p [a] [b, v] → VEmits (.vstx p e v a b m) s fun c =>
      [(s.inCluster c).due 1 (.vIdxStore c (s.rdM c m) ((List.range 16).map fun j => (ad c j).toNat) 0 (s.rdV c v))])) ∧
  (∀ (s : State) (p : BitVec 3) (e : Ext) (v : BitVec 5) (h : BitVec 4) (o : BitVec 8) (m : BitVec 3) (pl : LsAddr),
    let a := extended o e * 64
    a.toNat % 64 = 0 → pl = handlePlace (s.rdH h) a.toNat →
    (VReady s p [] [] → HandleOk (s.rdH h) a.toNat 64 false true → LsOpen s pl false →
      VEmits (.vldl p e v h o m) s fun c => [(s.inCluster c).due (if pl.die = dieOf s.cur.core then 24 else 40)
        (.wV c v (s.rdM c m) (BitVec.ofNat 512 (leNat (s.lsBytes pl 64))) (s.lsTag pl))]) ∧
    (VReady s p [] [v] → HandleOk (s.rdH h) a.toNat 64 true true → LsOpen s pl true →
      VEmits (.vstl p e v h o m) s fun c => [(s.inCluster c).due (if pl.die = dieOf s.cur.core then 20 else 36)
        (.lsStore pl ((List.range 64).map fun i => (s.rdM c m).getLsbD (i / 4)) (natLe 64 (s.rdV c v).toNat))]) ∧
    (∀ c, s.cur.clusters = [c] →
      let why := TrapKind.timing 0 (BitVec.ofNat 64 (pl.line % 2 ^ 25 + 2 ^ 25 * pl.die))
      (VReady s p [] [] → HandleOk (s.rdH h) a.toNat 64 false true → OffPhase s pl false →
        Traps (.vldl p e v h o m) (s.inCluster c) why) ∧
      (VReady s p [] [v] → HandleOk (s.rdH h) a.toNat 64 true true → OffPhase s pl true →
        Traps (.vstl p e v h o m) (s.inCluster c) why)))

/-- R223, R229, R216: integer arithmetic and shifts on the elements, which wrap and set no flag. -/
def Obligations.VectorIntegers : Prop :=
  ∀ (s : State) (p : BitVec 3) (e : Ext) (v a b : BitVec 5) (t : LaneTy) (m : BitVec 3), t.isFloat = false →
    let w := laneW t
    let x := fun c k => s.elt t c a k
    let y := fun c k => s.elt t c b k
    let d := fun c k => s.elt t c v k
    let less := fun (u z : BitVec w) => if t = .n32 then decide (u.toNat < z.toNat) else decide (u.toInt < z.toInt)
    (VReady s p [] [a, b] →
      ElementWise (.vadd p e v a b t m) s v m 2 w (fun c k => ((x c k + y c k).toNat, 0)) ∧
      ElementWise (.vsub p e v a b t m) s v m 2 w (fun c k => ((x c k - y c k).toNat, 0)) ∧
      ElementWise (.vmul p e v a b t m) s v m 4 w (fun c k => ((x c k * y c k).toNat, 0)) ∧
      ElementWise (.vmin p e v a b t m) s v m 2 w (fun c k => ((if less (y c k) (x c k) then y c k else x c k).toNat, 0)) ∧
      ElementWise (.vmax p e v a b t m) s v m 2 w (fun c k => ((if less (x c k) (y c k) then y c k else x c k).toNat, 0)) ∧
      ElementWise (.vshl p e v a b t m) s v m 2 w
        (fun c k => ((if (y c k).toNat ≥ w then 0 else x c k <<< (y c k).toNat).toNat, 0)) ∧
      ElementWise (.vshr p e v a b t m) s v m 2 w
        (fun c k => ((if (y c k).toNat ≥ w then 0 else x c k >>> (y c k).toNat).toNat, 0)) ∧
      ElementWise (.vsar p e v a b t m) s v m 2 w
        (fun c k => ((if (y c k).toNat ≥ w then (if (x c k).msb then BitVec.allOnes w else 0)
          else (x c k).sshiftRight (y c k).toNat).toNat, 0))) ∧
    (VReady s p [] [a, b, v] →
      ElementWise (.vfma p e v a b t m) s v m 4 w (fun c k => ((d c k + x c k * y c k).toNat, 0)) ∧
      ElementWise (.vfms p e v a b t m) s v m 4 w (fun c k => ((d c k - x c k * y c k).toNat, 0))) ∧
    (VReady s p [] [a] →
      ElementWise (.vabs p e v a t m) s v m 2 w (fun c k => ((if (x c k).toInt < 0 ∧ t ≠ .n32 then -(x c k) else x c k).toNat, 0)) ∧
      ElementWise (.vneg p e v a t m) s v m 2 w (fun c k => ((-(x c k)).toNat, 0)))

/-- R223, R224, R225, R226: floating arithmetic on the elements: the exact result rounded once, with its flags; a minimum, a
maximum or a change of sign chooses bits and sets no flag.
The values of VEXP2, VLOG2, VSINPI and VCOSPI before that rounding are the model's reading (log 10). -/
def Obligations.VectorFloats : Prop :=
  ∀ (s : State) (p : BitVec 3) (e : Ext) (v a b : BitVec 5) (t : LaneTy) (m : BitVec 3), t.isFloat = true →
    let w := laneW t
    let x := fun c k => s.num t c a k
    let y := fun c k => s.num t c b k
    let d := fun c k => s.num t c v k
    let rd := extRm e == .rdn
    let nan := (laneFmt t).nanCode
    let new := fun (z : Machine.Num) (l : List Machine.Num) => z.isNan && l.all fun u => !u.isNan
    let special := fun (f : Machine.Num → SfRes) (u : Machine.Num) =>
      let q := rounded t e (f u).x (f u).nv
      (q.1, q.2 ||| (if (f u).dz then vsDZ else 0))
    (VReady s p [] [a, b] →
      ElementWise (.vadd p e v a b t m) s v m 4 w (fun c k =>
        let z := Machine.Num.add rd (x c k) (y c k)
        rounded t e z (new z [x c k, y c k])) ∧
      ElementWise (.vsub p e v a b t m) s v m 4 w (fun c k =>
        let z := Machine.Num.add rd (x c k) (y c k).negate
        rounded t e z (new z [x c k, y c k])) ∧
      ElementWise (.vmul p e v a b t m) s v m 4 w (fun c k =>
        let z := (x c k).mul (y c k)
        rounded t e z (new z [x c k, y c k])) ∧
      ElementWise (.vmin p e v a b t m) s v m 4 w (fun c k =>
        (if (x c k).isNan || (y c k).isNan then nan
         else if (y c k).lt0 (x c k) then elemAt w (s.rdV c b) k else elemAt w (s.rdV c a) k, 0)) ∧
      ElementWise (.vmax p e v a b t m) s v m 4 w (fun c k =>
        (if (x c k).isNan || (y c k).isNan then nan
         else if (x c k).lt0 (y c k) then elemAt w (s.rdV c b) k else elemAt w (s.rdV c a) k, 0)) ∧
      ElementWise (.vdiv p e v a b t m) s v m 14 w (fun c k =>
        let q := divNv (x c k) (y c k)
        let r := rounded t e q.1 false
        (r.1, r.2 ||| q.2))) ∧
    (VReady s p [] [a, b, v] →
      ElementWise (.vfma p e v a b t m) s v m 4 w (fun c k =>
        let q := (x c k).mul (y c k)
        let z := Machine.Num.add rd (d c k) q
        rounded t e z (new q [x c k, y c k] || new z [d c k, q])) ∧
      ElementWise (.vfms p e v a b t m) s v m 4 w (fun c k =>
        let q := (x c k).mul (y c k)
        let z := Machine.Num.add rd (d c k) q.negate
        rounded t e z (new q [x c k, y c k] || new z [d c k, q]))) ∧
    (VReady s p [] [a] →
      ElementWise (.vabs p e v a t m) s v m 2 w (fun c k =>
        (if (x c k).isNan then nan else elemAt w (s.rdV c a) k % 2 ^ (w - 1), 0)) ∧
      ElementWise (.vneg p e v a t m) s v m 2 w (fun c k =>
        (if (x c k).isNan then nan else (elemAt w (s.rdV c a) k + 2 ^ (w - 1)) % 2 ^ w, 0)) ∧
      ElementWise (.vsqrt p e v a t m) s v m 14 w (fun c k =>
        let q := sqrtNv false (x c k)
        let r := rounded t e q.1 false
        (r.1, r.2 ||| q.2)) ∧
      ElementWise (.vsqrtPv p e v a t m) s v m 14 w (fun c k =>
        if (x c k).isNan ∨ (x c k).isZero ∨ (x c k).neg? then (nan, vsPIVOT)
        else rounded t e (sqrtNv false (x c k)).1 false) ∧
      ElementWise (.vrcp p e v a t m) s v m 8 w (fun c k => special sfRcp (x c k)) ∧
      ElementWise (.vrsq p e v a t m) s v m 8 w (fun c k => special sfRsq (x c k)) ∧
      ElementWise (.vexp2 p e v a t m) s v m 8 w (fun c k => special sfExp2 (x c k)) ∧
      ElementWise (.vlog2 p e v a t m) s v m 8 w (fun c k => special sfLog2 (x c k)) ∧
      ElementWise (.vsinpi p e v a t m) s v m 8 w (fun c k => special sfSinPi (x c k)) ∧
      ElementWise (.vcospi p e v a t m) s v m 8 w (fun c k => special sfCosPi (x c k)))

/-- R227, R228, R229, R230: comparison into a mask, selection, bitwise words, mask words and the count of a mask. -/
def Obligations.VectorLogic : Prop :=
  (∀ (s : State) (p : BitVec 3) (e : Ext) (d : BitVec 3) (cc : VecCc) (a b : BitVec 5) (t : LaneTy) (m : BitVec 3),
    VReady s p [] [a, b] → t.cmpOk = true → cc.okFor t = true → ∃ r : Nat → BitVec 16,
      VEmits (.vcmp p e d cc a b t m) s (fun c => [(s.inCluster c).due 2 (.wM c d (r c))]) ∧
      ∀ c j, j < 16 → ((r c).getLsbD j = true ↔ (s.rdM c m).getLsbD j = true ∧
        if t = .f32 then
          let x := s.num .f32 c a j
          let y := s.num .f32 c b j
          match cc with
          | .eq => x.eqv y = true
          | .ne => x.eqv y = false
          | .lt => x.lt y = true
          | .le => x.lt y = true ∨ x.eqv y = true
          | .gt => y.lt x = true
          | .ge => y.lt x = true ∨ x.eqv y = true
          | .un => x.isNan = true ∨ y.isNan = true
          | .ord => x.isNan = false ∧ y.isNan = false
        else
          let x : Int := if t = .n32 then (lane (s.rdV c a) j).toNat else (lane (s.rdV c a) j).toInt
          let y : Int := if t = .n32 then (lane (s.rdV c b) j).toNat else (lane (s.rdV c b) j).toInt
          match cc with
          | .eq => x = y
          | .ne => x ≠ y
          | .lt => x < y
          | .le => x ≤ y
          | .gt => y < x
          | .ge => y ≤ x
          | .un => False
          | .ord => True)) ∧
  (∀ (s : State) (p : BitVec 3) (e : Ext) (v a b : BitVec 5) (m : BitVec 3), VReady s p [] [a, b] →
    (∃ x : Nat → BitVec 512, VEmits (.vsel p e v a b m) s (fun c => [s.vResult c 2 v (BitVec.allOnes 16) (x c)]) ∧
      ∀ c j, j < 16 → lane (x c) j = if (s.rdM c m).getLsbD j then lane (s.rdV c a) j else lane (s.rdV c b) j) ∧
    VEmits (.vand p e v a b m) s (fun c => [s.vResult c 2 v (s.rdM c m) (s.rdV c a &&& s.rdV c b)]) ∧
    VEmits (.vor p e v a b m) s (fun c => [s.vResult c 2 v (s.rdM c m) (s.rdV c a ||| s.rdV c b)]) ∧
    VEmits (.vxor p e v a b m) s (fun c => [s.vResult c 2 v (s.rdM c m) (s.rdV c a ^^^ s.rdV c b)])) ∧
  (∀ (s : State) (p : BitVec 3) (e : Ext) (v a : BitVec 5) (m : BitVec 3), VReady s p [] [a] →
    VEmits (.vnot p e v a m) s (fun c => [s.vResult c 2 v (s.rdM c m) (~~~ s.rdV c a)])) ∧
  (∀ (s : State) (p : BitVec 3) (e : Ext) (d a b : BitVec 3) (r : BitVec 5), VReady s p [] [] →
    VEmits (.mand p e d a b) s (fun c => [(s.inCluster c).due 1 (.wM c d (s.rdM c a &&& s.rdM c b))]) ∧
    VEmits (.mor p e d a b) s (fun c => [(s.inCluster c).due 1 (.wM c d (s.rdM c a ||| s.rdM c b))]) ∧
    VEmits (.mnot p e d a) s (fun c => [(s.inCluster c).due 1 (.wM c d (~~~ s.rdM c a))]) ∧
    VEmits (.vpopm p e r a) s (fun c => [(s.inCluster c).result 2 r
      (BitVec.ofNat 64 ((List.range 16).filter fun j => (s.rdM c a).getLsbD j).length)]))

/-- R231 to R234: conversions, packing, unpacking and the block formats. -/
def Obligations.VectorConversions : Prop :=
  ∀ (s : State) (p : BitVec 3) (e : Ext) (v a b : BitVec 5) (st t : LaneTy) (ec : ElemCode) (hi : Bool) (m : BitVec 3),
    (VReady s p [] [a] → cvtPair t st = true →
      ElementWise (.vcvt p e v a st t m) s v m 4 (laneW t) fun c k => cvtElem (extRm e) st t (elemAt (laneW t) (s.rdV c a) k)) ∧
    (VReady s p [] [a, b] → t.isPacked = true →
      ElementWise (.vpack p e v a b t m) s v m 4 32 fun c k =>
        packLane (extRm e) t (elemAt 32 (s.rdV c a) k) (elemAt 32 (s.rdV c b) k)) ∧
    (VReady s p [] [a] → t.isPacked = true →
      ElementWise (.vunpk p e v a hi t m) s v m 4 32 fun c k => (unpackLane t hi (elemAt 32 (s.rdV c a) k), 0)) ∧
    (VReady s p [] (if t = .f32 then [a, a + 1] else [a]) → t.isFloat = true →
      VEmits (.vqnt p e v a ec t) s fun c =>
        let r := blockEncode ec (extRm e) (extOvf e) (s.blockSrc c a t)
        [s.vResult c 4 v (BitVec.allOnes 16) (BitVec.ofNat 512 (packBits ec.width r.2 + r.1 * 2 ^ 496))]) ∧
    (VReady s p [] [a] → t.isFloat = true →
      VEmits (.vdqnt p e v a ec t) s fun c =>
        let r := dqElems (laneFmt t) (extRm e) ec.width (s.rdV c a)
        (if t = .f32 then
          [s.vResult c 4 v (BitVec.allOnes 16) (ofElems 32 (r.1.take 16)),
            s.vResult c 4 (v + 1) (BitVec.allOnes 16) (ofElems 32 (r.1.drop 16))]
        else [s.vResult c 4 v (BitVec.allOnes 16) (ofElems 16 r.1)]) ++ s.vFlags c 4 r.2)

/-- R235, R239, R240, R241: the words that move lanes, pop random vectors and read another cluster. -/
def Obligations.VectorMovement : Prop :=
  (∀ (s : State) (p : BitVec 3) (e : Ext) (v a b : BitVec 5) (m : BitVec 3), VReady s p [] [a, b] →
    ∃ x : Nat → BitVec 512, VEmits (.vperm p e v a b m) s (fun c => [s.vResult c 3 v (s.rdM c m) (x c)]) ∧
      ∀ c j, j < 16 → lane (x c) j = lane (s.rdV c a) ((lane (s.rdV c b) j).toNat % 16)) ∧
  (∀ (s : State) (p : BitVec 3) (e : Ext) (v a : BitVec 5) (n : BitVec 4) (m : BitVec 3), VReady s p [a] [] →
    (∃ x : BitVec 512, VEmits (.vbcast p e v a m) s (fun c => [s.vResult c 3 v (s.rdM c m) x]) ∧
      ∀ j < 16, lane x j = (s.rdS a).extractLsb' 0 32) ∧
    (∃ x : BitVec 512, VEmits (.vins p e v a n) s
        (fun c => [s.vResult c 3 v (BitVec.ofNat 16 (2 ^ n.toNat)) x]) ∧ lane x n.toNat = (s.rdS a).extractLsb' 0 32)) ∧
  (∀ (s : State) (p : BitVec 3) (e : Ext) (d a : BitVec 5) (n : BitVec 4), VReady s p [] [a] →
    VEmits (.vext p e d a n) s fun c => [(s.inCluster c).result 3 d ((lane (s.rdV c a) n.toNat).zeroExtend 64)]) ∧
  (∀ (s : State) (p : BitVec 3) (e : Ext) (v : BitVec 5) (m : BitVec 3), VReady s p [] [] →
    (s.cur.pops.length ≤ s.me.rq.held →
      VEmits (.vrnd p e v m) s (fun c => [s.vResult c 2 v (s.rdM c m) (s.me.rq.peek (s.cur.pops.idxOf c))]) ∧
      VEmits (.vgauss p e v m) s (fun c => [s.vResult c 8 v (s.rdM c m)
        (gaussVec (extRm e) (s.me.rq.peek (s.cur.pops.idxOf c)))])) ∧
    (∀ c, s.cur.clusters = [c] → s.cur.pops.length > s.me.rq.held →
      Traps (.vrnd p e v m) (s.inCluster c) (.timing 5 0) ∧ Traps (.vgauss p e v m) (s.inCluster c) (.timing 5 0))) ∧
  (∀ (s : State) (p : BitVec 3) (e : Ext) (v a : BitVec 5) (n m : BitVec 3), VReady s p [] [] →
    s.me.vMarked n.toNat a = false →
    VEmits (.xcp p e v a n m) s (fun c => [s.vResult c 4 v (s.rdM c m) (s.rdV n.toNat a)]) ∧
    ∃ x : Nat → BitVec 512, VEmits (.xbc p e v a n m) s (fun c => [s.vResult c 4 v (s.rdM c m) (x c)]) ∧
      ∀ c j, j < 16 → lane (x c) j = lane (s.rdV n.toNat a) c)

/-- R236, R237, R238: a reduction writes its result in lane 0 and 0 in the other lanes at +8, whatever the mask. -/
def Obligations.VectorReductions : Prop :=
  ∀ (s : State) (p : BitVec 3) (e : Ext) (v a b : BitVec 5) (t : LaneTy) (m : BitVec 3),
    let lane0 := fun (c : Nat) (x : Nat) => s.vResult c 8 v (BitVec.allOnes 16) (BitVec.ofNat 512 (x % 2 ^ 32))
    let sel := fun (c : Nat) (r : BitVec 5) => selElems (laneW t) (s.rdM c m) (s.rdV c r)
    let ints := fun (c : Nat) (r : BitVec 5) => (sel c r).map (intOf t)
    let nums := fun (c : Nat) (r : BitVec 5) => (sel c r).map (laneFmt t).decode
    let total := fun (l : List Int) =>
      if t = .n32 then (max 0 (min (2 ^ 32 - 1) l.sum)).toNat else (max (-(2 ^ 31)) (min (2 ^ 31 - 1) l.sum) % 2 ^ 32).toNat
    (VReady s p [] [a] →
      (t.isFloat = false → VEmits (.vrsum p e v a t m) s fun c => [lane0 c (total (ints c a))]) ∧
      (t.isFloat = true → VEmits (.vrsum p e v a t m) s fun c =>
        let r := vecSum (nums c a) (extRm e)
        lane0 c r.1 :: s.vFlags c 8 (sumFlags r.2 ||| nvIf (infsMeet (nums c a)))) ∧
      VEmits (.vrmax p e v a t m) s (fun c => [lane0 c (extreme t true (sel c a))]) ∧
      VEmits (.vrmin p e v a t m) s (fun c => [lane0 c (extreme t false (sel c a))])) ∧
    (VReady s p [] [a, b] →
      (t.isFloat = false → VEmits (.vdot p e v a b t m) s fun c =>
        [lane0 c (total (((ints c a).zip (ints c b)).map fun x => x.1 * x.2))]) ∧
      (t.isFloat = true → VEmits (.vdot p e v a b t m) s fun c =>
        let q := ((nums c a).zip (nums c b)).map fun x => mulNv x.1 x.2
        let r := vecSum (q.map (·.1)) (extRm e)
        lane0 c r.1 :: s.vFlags c 8 (sumFlags r.2 ||| nvIf ((q.any fun x => x.2 != 0) || infsMeet (q.map (·.1))))) ∧
      (t.isFloat = true → VEmits (.vdelta p e v a b t m) s fun c =>
        [lane0 c (roundToFormat fp32 (extRm e) .sat (vdelta (laneFmt t) ((sel c a).zip (sel c b))))]))

/-! ## Matrix words (12) -/

/-- R245, R246, R244: TLD and TST move 64 rows at a stride, with the tile engine for 32 bank cycles; their ALIGN, of the base or of the stride,
RANGE and TIMING, and POISON of the rows that TST reads first. TLDL and TSTL begin their stream of 128 lines with line 0 in the issue cycle, and
hold the core's bundle; a latent-store word of the same bundle's M slot that needs it in that cycle takes TIMING.
The address that ALIGN and RANGE record, that of the first row and for a stride that of the second, is the model's reading (log 50). -/
def Obligations.TileMoves : Prop :=
  (∀ (s : State) (p : BitVec 3) (e : Ext) (t : BitVec 4) (base : Base) (r : BitVec 5) (o : BitVec 7),
    HReady s p (r :: base.sregs) →
    let a := s.baseVal base + extended o e * 128
    let st := if r = 0 then 128 else (s.rdS r).toNat
    let x := s.me.tile t.toNat
    (a.toNat % 64 = 0 → st % 64 = 0 → a.toNat + 63 * st + 128 ≤ 0x50000 →
      (s.me.units.tileEnd ≤ s.unitNow →
        exec (.tld p e t base r o) s = .next
          ((s.plus [s.due 1 (.tld t.toNat a.toNat st 0)]).withUnits { s.cur.units with tileEnd := s.unitNow + 32 }) ∧
        (x.marked 0 = false → x.marked 1 = false → exec (.tst p e t base r o) s = .next
          ((s.plus [s.due 1 (.tst a.toNat st 0 (x.row 0) (x.row 1) t.toNat)]).withUnits
            { s.cur.units with tileEnd := s.unitNow + 32 }))) ∧
      (x.marked 0 = true → Traps (.tst p e t base r o) s (.poison 2 0 t.toNat 0)) ∧
      (x.marked 0 = false → x.marked 1 = true → Traps (.tst p e t base r o) s (.poison 2 0 t.toNat 1)) ∧
      (s.me.units.tileEnd > s.unitNow → Traps (.tld p e t base r o) s (.timing 2 0) ∧
        (x.marked 0 = false → x.marked 1 = false → Traps (.tst p e t base r o) s (.timing 2 0)))) ∧
    (a.toNat % 64 ≠ 0 → Traps (.tld p e t base r o) s (.align a none) ∧ Traps (.tst p e t base r o) s (.align a none)) ∧
    (a.toNat % 64 = 0 → st % 64 ≠ 0 → Traps (.tld p e t base r o) s (.align (a + BitVec.ofNat 64 st) none) ∧
      Traps (.tst p e t base r o) s (.align (a + BitVec.ofNat 64 st) none)) ∧
    (a.toNat % 64 = 0 → st % 64 = 0 → a.toNat + 63 * st + 128 > 0x50000 →
      Traps (.tld p e t base r o) s (.range a none) ∧ Traps (.tst p e t base r o) s (.range a none))) ∧
  (∀ (s : State) (p : BitVec 3) (e : Ext) (t h : BitVec 4) (o : BitVec 13) (i : BitVec 5) (a : Word) (pl : LsAddr),
    a.toNat % 64 = 0 → pl = handlePlace (s.rdH h) a.toNat →
    let d := BitVec.ofNat 512 (leNat (s.lsBytes pl 64))
    let near := fun (k : Nat) => if pl.die = dieOf s.cur.core then k else k + 16
    let load := (s.plus [s.dueLate (near 24) (.wHalf t.toNat 0 0 d (s.lsTag pl) (s.lsTag pl)),
      s.due 1 (.tldl t.toNat (s.rdH h) a.toNat 1 (s.lsTag pl))]).withUnits { s.cur.units with rdEnd := s.cur.t + 128 }
    let store := (s.plus [s.due (near 20) (.lsStore pl (List.replicate 64 true)
        (natLe 64 (((s.me.tile t.toNat).row 0).extractLsb' 0 512).toNat)),
      s.due 1 (.tstl t.toNat (s.rdH h) a.toNat 1)]).withUnits { s.cur.units with wrEnd := s.cur.t + 128 }
    let asks := fun (wr : Bool) (q : Pend) => q.own.slot = 2 ∧ ((∃ ls op w x y ld, q.act = .lsAtomic ls op w x y ld) ∨
      (wr = true ∧ ∃ ls m bs, q.act = .lsStore ls m bs) ∨ (wr = false ∧ q.due ≥ s.cur.t + 24 ∧ ∃ k d v m, q.act = .wS k d v m))
    let clash := fun (t : State) (wr : Bool) (q : Pend) =>
      { t with cur := { t.cur with traps := t.cur.traps ++ [q.own.cand (.timing 2 (if wr then 3 else 2))] } }
    s.cur.slot ≠ 2 →
    (HandleOk (s.rdH h) a.toNat 8192 false true → LsOpen s pl false →
      ((∀ q ∈ s.cur.out, ¬asks false q) →
        (a = extended o e * 64 → HReady s p [] → exec (.tldl p e t h o) s = .next load) ∧
        (a = s.rdS i → HReady s p [i] → exec (.tldlIndexed p t h i) s = .next load)) ∧
      (∀ l q r, s.cur.out = l ++ q :: r → (∀ y ∈ l, ¬asks false y) → asks false q →
        (a = extended o e * 64 → HReady s p [] → exec (.tldl p e t h o) s = .next (clash load false q)) ∧
        (a = s.rdS i → HReady s p [i] → exec (.tldlIndexed p t h i) s = .next (clash load false q)))) ∧
    (HandleOk (s.rdH h) a.toNat 8192 true true → LsOpen s pl true → (s.me.tile t.toNat).marked 0 = false →
      ((∀ q ∈ s.cur.out, ¬asks true q) →
        (a = extended o e * 64 → HReady s p [] → exec (.tstl p e t h o) s = .next store) ∧
        (a = s.rdS i → HReady s p [i] → exec (.tstlIndexed p t h i) s = .next store)) ∧
      (∀ l q r, s.cur.out = l ++ q :: r → (∀ y ∈ l, ¬asks true y) → asks true q →
        (a = extended o e * 64 → HReady s p [] → exec (.tstl p e t h o) s = .next (clash store true q)) ∧
        (a = s.rdS i → HReady s p [i] → exec (.tstlIndexed p t h i) s = .next (clash store true q)))) ∧
    (HandleOk (s.rdH h) a.toNat 8192 true true → LsOpen s pl true → (s.me.tile t.toNat).marked 0 = true →
      (a = extended o e * 64 → HReady s p [] →
        ∃ y, exec (.tstl p e t h o) s = .next y ∧ ∃ z ∈ y.cur.traps.drop s.cur.traps.length, z.kind = .poison 2 0 t.toNat 0) ∧
      (a = s.rdS i → HReady s p [i] →
        ∃ y, exec (.tstlIndexed p t h i) s = .next y ∧ ∃ z ∈ y.cur.traps.drop s.cur.traps.length, z.kind = .poison 2 0 t.toNat 0)))

/-- R247, R248: the words that clear, copy and transpose a tile, and LATCH; IMMVAL for a kind that they do not accept. -/
def Obligations.TileWords : Prop :=
  ∀ (s : State) (p : BitVec 3) (d a : BitVec 4) (n : BitVec 2), HReady s p [] →
    Emits (.tzero p d) s [s.due 1 (.wTile d.toNat Tile.zero)] ∧
    Emits (.tcp p d a) s [s.due 1 (.tileRd d.toNat a.toNat 1 false (copyPair s.me a.toNat 0 Tile.zero))] ∧
    (tcEw (s.me.tcReg a.toNat) = 1 →
      Emits (.ttr p d a) s [s.due 1 (.tileRd d.toNat a.toNat 1 true (copyPair s.me a.toNat 0 Tile.zero))]) ∧
    (tcEw (s.me.tcReg a.toNat) ≠ 1 → Traps (.ttr p d a) s (.illegal 20 0)) ∧
    (latchKind (s.me.tcReg a.toNat) = false → Traps (.latch p n a) s (.illegal 20 0)) ∧
    (latchKind (s.me.tcReg a.toNat) = true →
      let r := latchPair s.me a.toNat 0 ⟨true, [], s.me.tcReg a.toNat, []⟩
      (∀ q, r.1.poison = some q → Traps (.latch p n a) s (.poison 2 0 q.1 q.2)) ∧
      (r.1.poison = none → r.1.short = true → Traps (.latch p n a) s (.sqimbal s.me.sq.length false)) ∧
      (r.1.poison = none → r.1.short = false → Emits (.latch p n a) s
        ((if r.1.pops = 0 then [] else [s.due 0 (.sqPop r.1.pops)])
          ++ (if r.1.bad then [s.due 0 (.wFlag 10 2)] else []) ++ [s.due 1 (.latchRd n.toNat a.toNat 1 r.2)])))

/-- R249, R258, R185, R244: MMA checks its operands, the marks of its first rows, the spill cells of its accumulator, the array and the scale
queue, in this order, then occupies the array for 32 cycles in seven-product order and 37 in classical order. -/
def Obligations.MatrixMultiply : Prop :=
  ∀ (s : State) (p : BitVec 3) (c : BitVec 2) (a : BitVec 4) (l : BitVec 2) (f : MmaForm), HReady s p [] →
    let tca := s.me.tcReg a.toNat
    let tcb := s.me.tcReg (a.toNat + 1)
    let l1 := s.me.latchN l.toNat
    let l2 := s.me.latchN (l.toNat + 1)
    let ok := formOk f a.toNat l.toNat tca tcb l1 l2
    let run := fun (cl : Bool) => mmaPair s.me 0
      { n := c.toNat, t := a.toNat, form := f, cl := cl, latch := l1, latch2 := l2, tca := tca, tcb := tcb,
        anchor := (s.me.accum c.toNat).anchor, trunc := if f = .bf16 ∨ f = .f16 then s.me.mctl.toNat % 8 else 0,
        rowsA := [], rowsB := [], descs := [], part := none }
    let done := fun (cl : Bool) =>
      let r := run cl
      .next ((s.plus ((if r.1.pops = 0 then [] else [s.due 0 (.sqPop r.1.pops)])
        ++ (if r.1.bad then [s.due 0 (.wFlag 10 2)] else []) ++ [s.due 1 (.mmaRd 1 r.2)])).withUnits
          { s.cur.units with arrayEnd := s.unitNow + (if cl then 37 else 32) })
    let classical := f = .t2i8 ∨ f = .sp
    (ok = false → Traps (.mma p c a l f) s (.illegal 20 0) ∧ Traps (.mmaCl p c a l f) s (.illegal 20 0)) ∧
    ∀ i cl, (i = .mma p c a l f ∧ cl = decide classical) ∨ (i = .mmaCl p c a l f ∧ cl = true) → ok = true →
      (∀ q, (run cl).1.poison = some q → Traps i s (.poison 2 0 q.1 q.2)) ∧
      ((run cl).1.poison = none →
        (s.me.accSpilled c.toNat = true → Traps i s (.illegal 18 0)) ∧
        (s.me.accSpilled c.toNat = false → s.me.units.arrayEnd > s.unitNow → Traps i s (.timing 2 1)) ∧
        (s.me.accSpilled c.toNat = false → s.me.units.arrayEnd ≤ s.unitNow →
          ((run cl).1.short = true → Traps i s (.sqimbal s.me.sq.length false)) ∧
          ((run cl).1.short = false → exec i s = done cl)))

/-- R261 to R266: the words of the accumulators, and MSTAT; ACSAVE and ACREST of the firmware context take the tile engine for 512
cycles; PRIV in a holder, HOLDER in another context (log 18). -/
def Obligations.AccumulatorWords : Prop :=
  (∀ (s : State) (p : BitVec 3) (e : Ext) (a : BitVec 2) (i : BitVec 12), HReady s p [] →
    let n := (extended i e).toInt
    (-2048 ≤ n → n ≤ 2047 → s.me.accSpilled a.toNat = false → Emits (.acz p e a i) s [s.due 1 (.wAcc a.toNat ⟨[], n⟩)]) ∧
    (n < -2048 ∨ n > 2047 → Traps (.acz p e a i) s (.illegal 20 0)) ∧
    (-2048 ≤ n → n ≤ 2047 → s.me.accSpilled a.toNat = true → Traps (.acz p e a i) s (.illegal 18 0))) ∧
  (∀ (s : State) (p : BitVec 3) (d : BitVec 4) (n : BitVec 2) (f : AcrdFmt) (r : Rm) (ov : Ovf) (hi : Bool), HReady s p [] →
    let a := s.me.accum n.toNat
    Emits (.acrd p d n f r ov hi) s ((List.range 64).flatMap fun i =>
      s.dueLate (4 + i / 2) (.wRow d.toNat i (acrdRow f r ov hi a i) false) ::
        (if acrdFlags f hi a i = 0 then [] else [s.due (4 + i / 2) (.wFlag 10 (BitVec.ofNat 64 (acrdFlags f hi a i)))]))) ∧
  (∀ (s : State) (p : BitVec 3) (n m : BitVec 2), HReady s p [] →
    (s.me.accSpilled n.toNat = true → Traps (.acadd p n m) s (.illegal 18 0)) ∧
    (s.me.accSpilled n.toNat = false → Emits (.acadd p n m) s
      [s.due 36 (.wAcc n.toNat (accMerge (s.me.accum n.toNat) (s.me.accum m.toNat)))])) ∧
  (∀ (s : State) (p : BitVec 3) (n : BitVec 2) (a : BitVec 4), HReady s p [] →
    let ew := tcEw (s.me.tcReg a.toNat)
    let clean := fun t => ∀ r < tcRows (s.me.tcReg t), (s.me.tile t).marked r = false
    (ew > 1 ∨ (ew = 0 ∧ a.toNat % 2 = 1) → Traps (.acwr p n a) s (.illegal 20 0)) ∧
    (ew = 1 ∨ (ew = 0 ∧ a.toNat % 2 = 0) → s.me.accSpilled n.toNat = false → clean a.toNat →
      (ew = 0 → clean (a.toNat + 1)) → ∃ codes, Emits (.acwr p n a) s
        [s.due 36 (.wAccTile n.toNat (ew == 0) codes (acwrTiles s.me a.toNat (ew == 0)))] ∧
        ∀ i j, i < 64 → j < 64 → spGet 0 codes (64 * i + j) = acwrCode s.me a.toNat (ew == 0) i j) ∧
    (ew = 1 ∨ (ew = 0 ∧ a.toNat % 2 = 0) → s.me.accSpilled n.toNat = true → clean a.toNat →
      (ew = 0 → clean (a.toNat + 1)) → Traps (.acwr p n a) s (.illegal 18 0))) ∧
  (∀ (s : State) (p : BitVec 3) (d : BitVec 5), HReady s p [] →
    Emits (.mstat p d) s [s.result 1 d s.me.mstat, s.due 1 (.wClear 10 s.me.mstat)]) ∧
  (∀ (s : State) (p : BitVec 3) (e : Ext) (n : BitVec 2) (r : BitVec 5) (o : BitVec 7),
    let a := s.rdS r + extended o e * 128
    let busy := { s.cur.units with tileEnd := s.unitNow + 512 }
    (s.isFw = true → Ready s p [r] → a.toNat % 64 = 0 → a.toNat + 0x20000 ≤ 0x50000 → s.me.units.tileEnd ≤ s.unitNow →
      exec (.acsave p e n (.s r) o) s = .next
        ((s.plus [s.due 1 (.acsave a.toNat 0 (s.me.accum n.toNat))]).withUnits busy) ∧
      (s.me.accSpilled n.toNat = false → exec (.acrest p e n (.s r) o) s = .next
        ((s.plus [s.due 1 (.acrest n.toNat a.toNat 0 Acc.zero)]).withUnits busy))) ∧
    (s.isFw = false → s.isHolder = true → Ready s p [r] →
      (a.toNat % 64 ≠ 0 → exec (.acsave p e n (.s r) o) s = .next ((s.trap (.align a none)).trap .priv) ∧
        exec (.acrest p e n (.s r) o) s = .next ((s.trap (.align a none)).trap .priv)) ∧
      (a.toNat % 64 = 0 → a.toNat + 0x20000 ≤ 0x50000 → s.me.units.tileEnd ≤ s.unitNow →
        Traps (.acsave p e n (.s r) o) s .priv ∧ (s.me.accSpilled n.toNat = false → Traps (.acrest p e n (.s r) o) s .priv))) ∧
    (s.isFw = false → s.isHolder = false →
      Traps (.acsave p e n (.s r) o) s (.illegal 10 0) ∧ Traps (.acrest p e n (.s r) o) s (.illegal 10 0)))

/-! ## Rules for every word of a bundle -/

/-- R143, R162: no word acts on its own: it changes the bundle in hand alone, and only adds actions and traps to it. Every register,
every memory byte, every pending action and every other part of the package stands until the bundle commits.
Collecting effects until the commit is the model's form (log 8). -/
def Obligations.WordsOnlyAsk : Prop :=
  ∀ (i : Instr) (s : State), i.cls.isSome = true ∨ (∃ n, i = .idle n) → ∃ t, exec i s = .next t ∧ SameBut s t ∧
    (∃ l, t.cur.out = s.cur.out ++ l) ∧ (∃ l, t.cur.traps = s.cur.traps ++ l) ∧ (∃ l, t.cur.links = s.cur.links ++ l) ∧
    t.cur.core = s.cur.core ∧ t.cur.ctx = s.cur.ctx ∧ t.cur.clk = s.cur.clk ∧ t.cur.t = s.cur.t ∧
    t.cur.baddr = s.cur.baddr ∧ t.cur.nextAddr = s.cur.nextAddr ∧ t.cur.word = s.cur.word ∧ t.cur.clusters = s.cur.clusters

/-- R127: a word whose predicate reads 0 does nothing: it asks for no write, no access, no packet; a transfer goes on after its
delay bundle, and a holder's word elsewhere still is ILLEGAL. The words whose QP must be 0 are refused with FIELD. -/
def Obligations.PredicateOff : Prop :=
  (∀ (i : Instr) (s : State), i.cls.isSome = true → s.rdQ i.pred = false →
    exec i s = .next (if isTransfer i then s.goto .fall else s) ∨
      (s.isHolder = false ∧ exec i s = .next (s.trap (.illegal 10 0)))) ∧
  (∀ (w : BitVec 32) (lend : BitVec 8), w.toNat / 2 ^ 26 ∈ [0x37, 0x38, 0x39, 0x3A, 0x3B, 0x3C] → w.extractLsb' 23 3 ≠ 0 →
    decodeSlot .s w lend = .error .field)

/-- R105: outside the holder, a word of a V or X slot, a word that names holder state and the holder's engine words raise
ILLEGAL with cause HOLDER.
The exemption of ACSAVE and ACREST is the model's choice (log 18). -/
def Obligations.HolderWords : Prop :=
  ∀ (s : State), s.isHolder = false →
    (∀ i : Instr, i.cls = some .v → Traps i s (.illegal 10 0)) ∧
    (∀ i : Instr, i.cls = some .x → s.isFw = false ∨ isAccSave i = false → Traps i s (.illegal 10 0)) ∧
    (∀ (p : BitVec 3) (a b c : BitVec 5) (f : BitVec 3) (n : BitVec 2) (m : BitVec 7) (e : Ext) (base : Base) (o : BitVec 11),
      Traps (.stage p) s (.illegal 10 0) ∧ Traps (.sqld p e base o) s (.illegal 10 0) ∧
      Traps (.sqpsh p a) s (.illegal 10 0) ∧ Traps (.sqclr p) s (.illegal 10 0) ∧
      Traps (.send p a b c f) s (.illegal 10 0) ∧ Traps (.recv p a b c f) s (.illegal 10 0) ∧
      Traps (.nred p n b m) s (.illegal 10 0) ∧ Traps (.nbc p a b c m) s (.illegal 10 0) ∧
      Traps (.rqseed p a) s (.illegal 10 0) ∧ Traps (.rqpos p a) s (.illegal 10 0) ∧
      Traps (.movToB p f a) s (.illegal 10 0) ∧ Traps (.movFromB p a f) s (.illegal 10 0)) ∧
    (∀ (p r : BitVec 3) (e : Ext) (d x : BitVec 5) (z : Sz) (o : BitVec 8) (q : BitVec 11),
      Traps (.lds p e d (.b r) z o) s (.illegal 10 0) ∧ Traps (.sts p e d (.b r) z o) s (.illegal 10 0) ∧
      Traps (.ldsIndexed p d (.b r) z x) s (.illegal 10 0) ∧ Traps (.stsIndexed p d (.b r) z x) s (.illegal 10 0) ∧
      Traps (.cpy p e (.b r) q) s (.illegal 10 0)) ∧
    (∀ (p : BitVec 3) (d : BitVec 5) (n : BitVec 10), holderSr n.toNat = true →
      Traps (.getsr p d n) s (.illegal 10 0) ∧ Traps (.setsr p d n) s (.illegal 10 0))

/-- R186: a word that executes and reads a marked scalar register raises POISON that names it, unless it is refused as ILLEGAL or
PRIV. -/
def Obligations.PoisonedSource : Prop :=
  ∀ (i : Instr) (s t : State) (r : BitVec 5), i.cls.isSome = true → r ∈ i.sreads → r ≠ 0 →
    spGet false s.myCtx.mark r.toNat = true → s.rdQ i.pred = true → exec i s = .next t →
    ∃ x ∈ t.cur.traps.drop s.cur.traps.length,
      x.kind = .poison 0 0 r.toNat 0 ∨ x.kind = .priv ∨ ∃ sub arg, x.kind = .illegal sub arg

/-! ## What falls due (07, 13) -/

/-- R162, R186, Table 7.1: a due write of a scalar register, a predicate, a handle or a base register gives it its value and leaves
every other register of the context, the rest of the context and of its core, every other context and core, and the rest of the package alone; s0
and q0 discard theirs. -/
def Obligations.RegisterWrites : Prop :=
  ∀ (s : State) (p : Pend),
    let others := fun (t : State) (k : Nat) =>
      (∀ c j, (c, j) ≠ (p.own.core, k) → t.ctx c j = s.ctx c j) ∧ (∀ c, c ≠ p.own.core → t.core c = s.core c) ∧
      { t.core p.own.core with ctxs := (s.core p.own.core).ctxs } = s.core p.own.core
    (∀ k r v m, p.act = .wS k r v m →
      let t := s.regAct p
      { t with cores := s.cores } = s ∧
      (r = 0 → ∀ c j, t.ctx c j = s.ctx c j) ∧
      (r ≠ 0 → (t.ctx p.own.core k).rdS r = v ∧ spGet false (t.ctx p.own.core k).mark r.toNat = m) ∧
      (∀ r', r' ≠ r → (t.ctx p.own.core k).rdS r' = (s.ctx p.own.core k).rdS r' ∧
        spGet false (t.ctx p.own.core k).mark r'.toNat = spGet false (s.ctx p.own.core k).mark r'.toNat) ∧
      { t.ctx p.own.core k with s := (s.ctx p.own.core k).s, mark := (s.ctx p.own.core k).mark } = s.ctx p.own.core k ∧
      others t k) ∧
    (∀ k q v, p.act = .wQ k q v →
      let t := s.regAct p
      { t with cores := s.cores } = s ∧ (t.ctx p.own.core k).rdQ 0 = true ∧
      (q ≠ 0 → (t.ctx p.own.core k).rdQ q = v) ∧
      (∀ q', q' ≠ q → (t.ctx p.own.core k).rdQ q' = (s.ctx p.own.core k).rdQ q') ∧
      { t.ctx p.own.core k with q := (s.ctx p.own.core k).q } = s.ctx p.own.core k ∧ others t k) ∧
    (∀ k h v, p.act = .wH k h v →
      let t := s.regAct p
      { t with cores := s.cores } = s ∧ (t.ctx p.own.core k).rdH h = v ∧
      (∀ h', h' ≠ h → (t.ctx p.own.core k).rdH h' = (s.ctx p.own.core k).rdH h') ∧
      { t.ctx p.own.core k with h := (s.ctx p.own.core k).h } = s.ctx p.own.core k ∧ others t k) ∧
    (∀ b v, p.act = .wB b v →
      let t := s.regAct p
      { t with cores := s.cores } = s ∧ (t.core p.own.core).rdB b = v ∧
      (∀ b', b' ≠ b → (t.core p.own.core).rdB b' = (s.core p.own.core).rdB b') ∧
      { t.core p.own.core with b := (s.core p.own.core).b } = s.core p.own.core ∧
      (∀ c, c ≠ p.own.core → t.core c = s.core c))

/-- R215, R217, R218, Table 7.1: a due write of a vector register gives its unmasked lanes and keeps the others; a mask write gives
the mask but for m0, which reads all ones; sticky flags are set and cleared; nothing else of the core, no other core and nothing else of the
package changes. -/
def Obligations.HolderRegisterWrites : Prop :=
  ∀ (s : State) (p : Pend),
    let x := s.core p.own.core
    let y := (s.regAct p).core p.own.core
    let rest : Prop := { s.regAct p with cores := s.cores } = s ∧ ∀ c, c ≠ p.own.core → (s.regAct p).core c = s.core c
    (∀ cl v mask d m, p.act = .wV cl v mask d m → rest ∧
      (∀ j < 16, lane (y.rdV cl v) j = if mask.getLsbD j then lane d j else lane (x.rdV cl v) j) ∧
      y.vMarked cl v = (m || (mask != BitVec.allOnes 16 && x.vMarked cl v)) ∧
      (∀ cl' v', 32 * cl' + v'.toNat ≠ 32 * cl + v.toNat → y.rdV cl' v' = x.rdV cl' v' ∧ y.vMarked cl' v' = x.vMarked cl' v') ∧
      { y with v := x.v, vMark := x.vMark } = x) ∧
    (∀ cl r v, p.act = .wM cl r v → rest ∧
      y.rdM cl 0 = BitVec.allOnes 16 ∧ (r ≠ 0 → y.rdM cl r = v) ∧
      (∀ cl' r', 8 * cl' + r'.toNat ≠ 8 * cl + r.toNat → y.rdM cl' r' = x.rdM cl' r') ∧ { y with m := x.m } = x) ∧
    (∀ b, p.act = .wFlag 11 b → rest ∧ y.vstat = x.vstat ||| b ∧ { y with vstat := x.vstat } = x) ∧
    (∀ b, p.act = .wFlag 10 b → rest ∧ y.mstat = x.mstat ||| b ∧ { y with mstat := x.mstat } = x) ∧
    (∀ b, p.act = .wClear 11 b → rest ∧ y.vstat = x.vstat &&& ~~~b ∧ { y with vstat := x.vstat } = x) ∧
    (∀ b, p.act = .wClear 10 b → rest ∧ y.mstat = x.mstat &&& ~~~b ∧ { y with mstat := x.mstat } = x) ∧
    (∀ b, p.act = .wClear 12 b → rest ∧ y.cpstat = x.cpstat &&& ~~~b ∧ { y with cpstat := x.cpstat } = x) ∧
    (∀ n a, p.act = .wAcc n a → rest ∧ y.accum n = a ∧ (∀ k, k ≠ n → y.accum k = x.accum k) ∧ { y with acc := x.acc } = x) ∧
    (∀ n t, p.act = .wTile n t → rest ∧ y.tile n = t ∧ (∀ k, k ≠ n → y.tile k = x.tile k) ∧ { y with t := x.t } = x) ∧
    (∀ n l, p.act = .wLatch n l → rest ∧ y.latchN n = l ∧ (∀ k, k ≠ n → y.latchN k = x.latchN k) ∧ { y with latch := x.latch } = x)

/-- R187, R108, R378: a due scratchpad store writes its bytes in its cycle and no other byte of the package; a store of fewer than 64 bytes leaves
the line's poison tag, and one of a whole line clears it. Everything else of its core, every other core and the rest of the package stand. A
due load brings the bytes as they stand, and the poison tag of their line, to its register 3 cycles later, which is p + 4. -/
def Obligations.ScratchpadPerforms : Prop :=
  ∀ (s : State) (p : Pend),
    (∀ a bs, p.act = .spStore a bs →
      let t := s.writeAct p
      { t with cores := s.cores } = s ∧
      (∀ i < bs.length, spGet 0 (t.core p.own.core).sp (a + i) = bs.getD i 0) ∧
      (∀ b, b < a ∨ a + bs.length ≤ b → spGet 0 (t.core p.own.core).sp b = spGet 0 (s.core p.own.core).sp b) ∧
      (bs.length < 64 → { t.core p.own.core with sp := (s.core p.own.core).sp } = s.core p.own.core) ∧
      (a % 64 = 0 → bs.length = 64 → spGet false (t.core p.own.core).spPoison (a / 64) = false ∧
        (∀ l, l ≠ a / 64 → spGet false (t.core p.own.core).spPoison l = spGet false (s.core p.own.core).spPoison l)) ∧
      { t.core p.own.core with sp := (s.core p.own.core).sp, spPoison := (s.core p.own.core).spPoison } = s.core p.own.core ∧
      (∀ c, c ≠ p.own.core → t.core c = s.core c)) ∧
    (∀ l a n ld, p.act = .spLoad a n ld → s.readAct l p =
      { s with pend := s.pend ++ [⟨p.clk, p.due + 3, false, p.own,
        .wS ld.ctx ld.rd (BitVec.ofNat 64 (leNat (bytesAt (s.core p.own.core).sp a n)))
          (spGet false (s.core p.own.core).spPoison (a / 64))⟩] })

/-- R188, R222, R88: a due latent-store write gives the chosen bytes, leaves every other byte of every memory alone, and keeps a
poison tag that a partial write meets. -/
def Obligations.LatentStorePerforms : Prop :=
  ∀ (s : State) (p : Pend) (pl : LsAddr) (mask : List Bool) (bs : List Byte), p.act = .lsStore pl mask bs →
    mask.length = bs.length →
    let t := s.writeAct p
    { t with ls := s.ls, lsPoison := s.lsPoison } = s ∧
    (∀ i < bs.length, spGet 0 t.ls (pl.key + i) = if mask.getD i false then bs.getD i 0 else spGet 0 s.ls (pl.key + i)) ∧
    (∀ a, a < pl.key ∨ pl.key + bs.length ≤ a → spGet 0 t.ls a = spGet 0 s.ls a) ∧
    (∀ l, l ≠ pl.key / 64 → spGet false t.lsPoison l = spGet false s.lsPoison l) ∧
    (mask.all (fun m => m) = false → t.lsPoison = s.lsPoison)

/-! ## Bundles, traps and the return from one (08, 18) -/

/-- R143, R185: a bundle in whose cycle a trap is found commits nothing that its words asked for; one without commits every action, each at
its own cycle.
Collecting effects until the commit is the model's form (log 8). -/
def Obligations.BundleCommits : Prop :=
  (∀ (s : State) (ws : List (SlotWord × Instr)) (tr : TrapCand), chosenTrap (s.allTraps ws) = some tr →
    (tr.kind.code ≠ 14 → s.commit ws = { s.takeTrap s.cur.core s.cur.ctx tr tr.baddr with cur := .none }) ∧
    (∀ code, tr.kind = .soft code → s.commit ws =
      { s.takeTrap s.cur.core s.cur.ctx tr (nextPc s (s.ctx s.cur.core s.cur.ctx)).1 with cur := .none })) ∧
  (∀ (s : State) (ws : List (SlotWord × Instr)), chosenTrap (s.allTraps ws) = none → s.cur.hold = true →
    s.commit ws = { s.updCtx s.cur.core s.cur.ctx (fun x => { x with next := s.cur.t + 1 }) with cur := .none }) ∧
  (∀ (s : State) (ws : List (SlotWord × Instr)), chosenTrap (s.allTraps ws) = none → s.cur.hold = false → s.sqOverflow = none →
    s.cur.soft = none → (∀ x ∈ s.cur.out, x.due ≠ s.cur.t) →
    (s.commit ws).pend = s.pend ++ s.cur.out ∧ (s.commit ws).links = s.links ++ s.cur.links ∧
    (s.commit ws).cur = .none ∧
    let x := s.ctx s.cur.core s.cur.ctx
    let y := (s.commit ws).ctx s.cur.core s.cur.ctx
    y.s = x.s ∧ y.q = x.q ∧ y.h = x.h ∧ y.lastPc = s.cur.baddr ∧
    (s.cur.eret = false → y.next = s.cur.t + s.cur.cycles ∧
      (x.delay = .none → y.pc = s.cur.nextAddr ∧ y.delay = s.cur.xfer) ∧
      (∀ a, x.delay = .target a → y.pc = a ∧ y.delay = .none) ∧
      (x.delay = .fall → y.pc = s.cur.nextAddr ∧ y.delay = .none)) ∧
    (s.cur.eret = true → y.pc = x.trec.t1.extractLsb' 32 16 ∧ y.next = s.cur.t + 2 ∧ y.inHandler = false) ∧
    (s.cur.ended = true → y.st = .ended))

/-- R333 to R336: a trap in a strand of a running panel writes its record, over an earlier one, stops that strand and sets the panel's freeze
cycle: the next PCYC, or 1,024 later for a hedge panel, whose other packages are told. No register, memory or pending action changes. -/
def Obligations.TenantTrapEntry : Prop :=
  ∀ (s : State) (c k : Nat) (tr : TrapCand) (ret : BitVec 16) (p : Panel),
    isFwCtx c k = false → k < 4 → s.panelOn c = some p → p.st = .running →
    let t := s.takeTrap c k tr ret
    let r := (t.ctx c k).trec
    r.t0.extractLsb' 0 8 = BitVec.ofNat 8 tr.kind.code ∧ r.t0.extractLsb' 8 8 = BitVec.ofNat 8 tr.kind.sub ∧
    r.t0.extractLsb' 16 13 = tr.smask ∧ r.t0.getLsbD 29 = s.holds c k ∧ r.t0.extractLsb' 30 2 = BitVec.ofNat 2 k ∧
    r.t0.extractLsb' 32 16 = tr.baddr ∧ r.t0.extractLsb' 48 16 = BitVec.ofNat 16 (s.ctx c k).rank ∧
    r.t1.extractLsb' 0 32 = tr.word ∧ r.t1.extractLsb' 32 32 = 0 ∧
    r.t2 = BitVec.ofNat 64 p.pcyc ∧ r.t3 = BitVec.ofNat 64 s.scyc ∧ r.t4 = tr.kind.t4 ∧ r.t5 = tr.kind.t5 ∧
    t.ctx c k = { s.ctx c k with trec := r, cands := [], st := .trapped } ∧
    (∀ c' k', (c', k') ≠ (c, k) → t.ctx c' k' = s.ctx c' k') ∧
    { t with cores := s.cores, panels := s.panels, out := s.out } = s ∧
    t.out = s.out ++ (if p.hedge then [.panelTrap p.pid p.pcyc (s.ctx c k).rank r] else []) ∧
    (∀ q, t.panel? p.pid = some q → ∃ f, q.failAt = some f ∧ f ≤ p.pcyc + (if p.hedge then 1024 else 1)) ∧
    t.panels.filter (fun q => q.pid != p.pid) = s.panels.filter (fun q => q.pid != p.pid)

/-- R337: a trap of the firmware context, outside its handler and with FWTEN = 1, writes the record with the return point, enters the
handler at FWTVEC and issues there at t + 12. -/
def Obligations.FirmwareTrapEntry : Prop :=
  ∀ (s : State) (tr : TrapCand) (ret : BitVec 16), (s.ctx 0 3).inHandler = false → s.ctlFld offFaultctl 16 1 = 1 →
    (∀ q rd, (s.ctx 0 3).wait ≠ .qdeq q rd) →
    let t := s.takeTrap 0 3 tr ret
    let x := t.ctx 0 3
    x.pc = BitVec.ofNat 16 (s.ctlFld offFaultctl 0 16) ∧ x.next = s.scyc + 12 ∧ x.inHandler = true ∧ x.st = .running ∧
    x.delay = .none ∧ x.wait = .none ∧ x.trec.t1.extractLsb' 32 16 = ret ∧ x.trec.t1.extractLsb' 0 32 = tr.word ∧
    x.trec.t0.extractLsb' 0 8 = BitVec.ofNat 8 tr.kind.code ∧ x.trec.t4 = tr.kind.t4 ∧ x.trec.t5 = tr.kind.t5 ∧
    x.s = (s.ctx 0 3).s ∧ x.q = (s.ctx 0 3).q ∧ x.h = (s.ctx 0 3).h ∧ { t with cores := s.cores } = s

/-! ## Decoding and stepping (08) -/

/-- Words written out from Tables 8.4 to 8.10 and the examples of the entries decode to what they stand for. -/
def Obligations.WordsDecode : Prop :=
  decodeSlot .s 0x2C061100#32 0 = .ok (.div 0 3 1 2) ∧
  decodeSlot .s 0x58041106#32 0 = .ok (.cmp 0 2 1 2 .ltn) ∧
  decodeSlot .s 0xA8080001#32 0 = .ok (.getsr 0 4 1) ∧
  decodeSlot .s 0xC1A0000A#32 0 = .ok (.br 3 none true 10) ∧
  decodeSlot .s 0xE4000042#32 0 = .ok (.trap 0x42) ∧
  decodeSlot .m 0x000C2410#32 0 = .ok (.lds 0 none 6 (.s 4) .w 16) ∧
  decodeSlot .m 0x200A6638#32 0 = .ok (.aadd 0 5 3 6 7 .w) ∧
  decodeSlot .v 0x48063001#32 0 = .ok (.vsqrtPv 0 none 3 3 .f32 0) ∧
  decodeSlot .v 0x64124280#32 0 = .ok (.vcmp 0 none 2 .lt 4 5 .f32 0) ∧
  decodeSlot .x 0x00045000#32 0 = .ok (.tld 0 none 1 (.s 5) 0 0) ∧
  decodeSlot .x 0x24100008#32 0 = .ok (.acz 0 none 1 8) ∧
  decodeSlot .x 0x2C010000#32 0 = .ok (.acadd 0 0 1) ∧
  decodeSlot .e 0x04006000#32 0 = .ok (.cpy 0 none (.s 12) 0) ∧
  decodeSlot .s 0x78000000#32 0 = .error .opcode ∧ decodeSlot .s 0x00000001#32 0 = .error .field

/-- Every well-formed slot word, with every operand at every value its encoding admits, decodes from its own word and LEND. -/
def Obligations.DecodeOfEncode : Prop :=
  ∀ (i : Instr) (c : Cls), i.cls = some c → i.wf = true →
    ∃ w, i.wordNat = some w ∧ w < 2 ^ 32 ∧ decodeSlot c (BitVec.ofNat 32 w) (i.ext.getD 0) = .ok i

/-- R132, R139: what the decoder accepts is well-formed, belongs to the slot class, and is encoded by exactly the word that was
read: no bit of an accepted word is ignored. -/
def Obligations.EncodeOfDecode : Prop :=
  ∀ (c : Cls) (w : BitVec 32) (lend : BitVec 8) (i : Instr), decodeSlot c w lend = .ok i →
    i.cls = some c ∧ i.wf = true ∧ i.wordNat = some w.toNat ∧ i.ext = (if w.getLsbD 22 then some lend else none)

/-- Where the bundle of one encoded instruction lies at a context's PC, in an overlay slot that is loaded and that it does not leave,
the fetch finds that instruction alone, for one cycle, and goes on after it. -/
def Obligations.EncodedBundleFetched : Prop :=
  ∀ (i : Instr) (k : Cls) (c : CoreSt) (x : Ctx), i.cls = some k → i.wf = true → x.delay = .none →
    overlayValid c x.pc.toNat = true → x.pc.toNat % 0x4000 + 8 ≤ 0x4000 →
    bytesAt c.istore x.pc.toNat 8 = (encode i).flatMap (fun w => natLe 4 w.toNat) →
    ∃ w : SlotWord, bundleAt c x = .ok [(w, i)] 1 (x.pc.toNat + 8) ∧ w.cls = k ∧ i.wordNat = some w.word.toNat ∧
      w.lend = i.ext.getD 0

/-- A step at which a context issues executes the words decoded at its PC, in order, by their meanings, and commits the bundle; for a
bundle of one word the step is that word's meaning, between the taking of the bundle in hand and its commit. -/
def Obligations.StepRunsDecoded : Prop :=
  ∀ (s : State) (c k : Nat) (ws : List (SlotWord × Instr)) (cycles next : Nat),
    s.power = true → s.nextEntry false = none → s.nextEvent = none →
    s.nextIssue = some (c, k) → bundleAt (s.core c) (s.ctx c k) = .ok ws cycles next →
    let s0 := s.begin_ c k next cycles
    let s1 : State := { s0 with cur := { s0.cur with pops := s0.popsOf ws } }
    (∀ t, runWords exec ws s1 = .next t → step s = .next { t.commit ws with cur := .none }) ∧
    (∀ w i t, ws = [(w, i)] → exec i (s1.setWord w) = .next t → step s = .next { t.commit ws with cur := .none })

/-- R143: a bundle that decode refuses issues nothing: the trap ILLEGAL with its cause is taken, by the same step. -/
def Obligations.IllegalBundleTraps : Prop :=
  (∀ (s : State) (cause : Nat) (smask : BitVec 13) (word : BitVec 32), exec (.illegalBundle cause smask word) s =
    .next { s.takeTrap s.cur.core s.cur.ctx ⟨.illegal cause 0, 0, smask, word, s.cur.baddr⟩ s.cur.baddr with cur := .none }) ∧
  (∀ (s : State) (c k cause : Nat) (mask : BitVec 13) (word : BitVec 32),
    s.power = true → s.nextEntry false = none → s.nextEvent = none →
    s.nextIssue = some (c, k) → bundleAt (s.core c) (s.ctx c k) = .bad cause mask word →
    step s = settle (exec (.illegalBundle cause mask word) (s.begin_ c k 0 1))) ∧
  (∀ (c : CoreSt) (x : Ctx), overlayValid c x.pc.toNat = false → bundleAt c x = .bad 12 0 0)

/-- Within a cycle, entries of the agenda that take place at once come first, each a step of the part run by its meaning or an input; then
steps of the part that are due by themselves, then bundles, then traps found in contexts that do not issue, then the queue engines, then the
entries of the agenda that the host, the walker and the dispatcher make, and last the passage to the next cycle.
The order within one cycle is the model's choice (log 5). -/
def Obligations.StepOrder : Prop :=
  ∀ (s : State), s.power = true →
    let entry := fun (late : Bool) => ∀ x, s.nextEntry late = some x →
      (∀ i, x.ev = .instr i → Instr.isStep i = true → step s = settle (exec i { s with agenda := s.agenda.erase x })) ∧
      ((∀ i, x.ev ≠ .instr i) →
        step s = .next { ({ s with agenda := s.agenda.erase x } : State).input x.ev with cur := .none })
    entry false ∧
    (s.nextEntry false = none → (∀ i, s.nextEvent = some i → step s = settle (exec i s)) ∧
      (s.nextEvent = none → s.nextIssue = none →
        (∀ c k, s.nextTrap = some (c, k) → step s = .next { s.takeFirst c k (s.ctx c k).cands with cur := .none }) ∧
        (s.nextTrap = none →
          (s.queueDue = true → step s = .next { s.queuePhase with cur := .none }) ∧
          (s.queueDue = false → entry true ∧ (s.nextEntry true = none → step s = .next { s.tick with cur := .none })))))

/-! ## The steps of the part -/

/-- R358, R359, Table 19.6: fundamental reset keeps the non-volatile store alone; boot checks the staged image, measures it, loads it into
overlay slot 3 and starts the firmware context at ENTRY; attestation writes its report.
Keys are free (log 12); what unwritten bytes and internal registers hold after a reset is the model's choice (logs 3 and 4), and so are
RESTART's handles and an exhausted key store (logs 82 and 83), the rest of overlay slot 3 being 0 (log 72), the emptied agenda (log 85),
verification and load in one step (log 66), the key index kept over a reset (log 84) and what MSI-X sends (log 104). -/
def Obligations.BootSteps : Prop :=
  ∀ s : State,
    Does .fundamentalReset s (fun t =>
      { t with ctl := [], variant := .d8, nv := [], out := [], free := 0 } = State.reset ∧ t.variant = s.variant ∧ t.nv = s.nv ∧
      (∀ off, off ≠ offAttctl → t.ctlGet off = ctlReset s.variant off) ∧ t.ctlFld offAttctl 32 16 = natAt s.nv 4 4 % 2 ^ 16) ∧
    Does .ready s (fun t => SetsBoot s t 7 1 1 ∧ { t with ctl := s.ctl, out := s.out } = s) ∧
    (s.bootState = 0 ∨ s.bootState = 3 →
      Does .bootctlGo s fun t => SetsBoot s t 0 7 1 ∧ { t with ctl := s.ctl, out := s.out } = s) ∧
    (s.bootState ≠ 0 → s.bootState ≠ 3 → Stays .bootctlGo s) ∧
    (s.bootState ≠ 1 → Stays .bootVerifyDone s) ∧
    (s.bootState = 1 → Does .bootVerifyDone s fun t =>
      (∀ code, s.imageRefusal = some code →
        SetsBoot s t 0 7 (3 + 8 * code) ∧ { t with ctl := s.ctl, out := s.out } = s) ∧
      (s.imageRefusal = none →
        SetsBoot s t 0 7 2 ∧
        t.attM = BitVec.ofNat 256 (leNat (sha256 (natLe 32 s.attM.toNat ++ sha256 (bytesAt s.ls 0 s.imageSigned)))) ∧
        natAt t.nv 0 4 = max (natAt s.nv 0 4) (s.imageField 4 4) ∧
        (∀ i < 0x4000, spGet 0 (t.core 0).istore (0xC000 + i) = if i < s.imageCode then spGet 0 s.ls (64 + i) else 0) ∧
        (t.ctx 0 3).st = .running ∧ (t.ctx 0 3).pc = BitVec.ofNat 16 (0xC000 + s.imageField 16 4) ∧ (t.ctx 0 3).next = s.scyc ∧
        (∀ r, (t.ctx 0 3).rdS r = 0) ∧
        (t.ctx 0 3).rdH 0 = { Handle.zero with
          v := true, w := true, sp := true, npgm1 := 63, gen := BitVec.ofNat 16 (s.epochOf fwSpace),
          valid := BitVec.allOnes 64, res := BitVec.allOnes 64 } ∧
        (∀ h, h ≠ 0 → (t.ctx 0 3).rdH h = Handle.zero) ∧
        (∀ c k, (c, k) ≠ (0, 3) → t.ctx c k = s.ctx c k) ∧ t.ls = s.ls ∧ t.hbm = s.hbm)) ∧
    (s.bootState ≠ 4 → Stays .bootctlRestart s) ∧
    (s.bootState = 4 → Does .bootctlRestart s fun t =>
      SetsBoot s t 0 3 2 ∧ (t.ctx 0 3).st = .running ∧
      (t.ctx 0 3).pc = BitVec.ofNat 16 (0xC000 + s.fwEntry) ∧ (∀ r, (t.ctx 0 3).rdS r = 0) ∧ (∀ h, (t.ctx 0 3).rdH h = Handle.zero) ∧
      (∀ c k, (c, k) ≠ (0, 3) → t.ctx c k = s.ctx c k) ∧ { t with ctl := s.ctl, out := s.out, cores := s.cores } = s) ∧
    (s.ctlFld offAttctl 1 1 = 1 → Stays .attctlGo s) ∧
    (s.ctlFld offAttctl 1 1 = 0 → Does .attctlGo s fun t =>
      SetsField s t offAttctl (if s.keyIndex ≥ 32768 then 2 else 1) 1 1 ∧ { t with ctl := s.ctl, attBuf := s.attBuf } = s ∧
      bytesAt t.attBuf 0 72 = s.reportBody ∧
      ∀ k m, s.attLog[k]? = some m → 104 + 32 * k ≤ 4096 → bytesAt t.attBuf (72 + 32 * k) 32 = natLe 32 m.toNat) ∧
    (s.ctlFld offAttctl 1 1 = 0 → Stays .attestReportComplete s) ∧
    (s.ctlFld offAttctl 1 1 = 1 → s.keyIndex < 32768 → Does .attestReportComplete s fun t =>
      natAt t.nv 4 4 = s.keyIndex + 1 ∧ t.ctlFld offAttctl 1 1 = 0 ∧ t.ctlFld offAttctl 32 16 = s.keyIndex + 1 ∧
      { t with ctl := s.ctl, attBuf := s.attBuf, nv := s.nv } = s ∧
      let sig := (Config.deviceSign s.keyIndex (bytesAt s.attBuf 0 72)).take lmsSigLen
      let at_ := 72 + 32 * leNat (bytesAt s.attBuf 64 4)
      ∀ i < sig.length, at_ + i < 4096 → spGet 0 t.attBuf (at_ + i) = sig.getD i 0)

/-- R350, R297 to R299, R307: writes of the control space by host and firmware, and the registers whose write is an action.
What MSI-X sends for a vector that is raised (log 104), that a pop takes any value written (log 64) and the event of a run that FLUSH ends (log 75)
are the model's readings. -/
def Obligations.ControlSteps : Prop :=
  ∀ s : State,
    (∀ host off v, off % 8 ≠ 0 ∨ absentBlock s.variant off = true → Stays (.controlRegisterWrite host off v) s) ∧
    (∀ host (v : BitVec 64) ten o, ten < 16 → o < 0x100 → o % 8 = 0 →
      Does (.controlRegisterWrite host (0x1000 * ten + o) v) s fun t =>
        { t with launch := s.launch, agenda := s.agenda } = s ∧
        (∀ i < 8, spGet 0 t.launch (256 * ten + o + i) = v.extractLsb' (8 * i) 8) ∧
        (∀ a, a < 256 * ten + o ∨ 256 * ten + o + 8 ≤ a → spGet 0 t.launch a = spGet 0 s.launch a) ∧
        t.agenda = if o = 0xF8 then s.plan s.scyc (.launchRecordTake ten) else s.agenda) ∧
    (∀ v off, 0x10000 ≤ off → off < 0x10300 → Stays (.controlRegisterWrite true off v) s) ∧
    (∀ (v : BitVec 64) ten, ten < 16 → Does (.controlRegisterWrite false (offTencfg ten) v) s fun t =>
      OnlyCtl s t ∧ SetsField s t (offTencfg ten) 0 14 v.toNat) ∧
    (∀ (v : BitVec 64) ten k, ten < 16 → k < 4 → Does (.controlRegisterWrite false (offTenkey ten + 8 * k) v) s fun t =>
      { t with tenkey := s.tenkey } = s ∧ bytesAt t.tenkey (32 * ten + 8 * k) 8 = natLe 8 v.toNat) ∧
    (∀ host (v : BitVec 64), let n := v.toNat % 4096
      (n < 400 ∨ n > tdp s.variant → Stays (.controlRegisterWrite host offPwrctl v) s) ∧
      (400 ≤ n → n ≤ tdp s.variant → Does (.controlRegisterWrite host offPwrctl v) s fun t => OnlyCtl s t ∧
        t.ctlFld offPwrctl 0 12 = n ∧
        (t.ctlFld offPwrctl 15 1 = 0 ↔ s.ctlFld offPwravg 0 32 > 1000 * n ∨ s.ctlFld offTemp 0 8 ≥ s.ctlFld offTemp 8 8) ∧
        (∀ j < 64, 12 ≤ j → j ≠ 15 → (t.ctlGet offPwrctl).getLsbD j = (s.ctlGet offPwrctl).getLsbD j) ∧
        ∀ o, o ≠ offPwrctl → t.ctlGet o = s.ctlGet o)) ∧
    (∀ port, Does (.ethcntClear port) s fun t =>
      OnlyCtl s t ∧ t.ctlGet (offEthcnt port) = 0 ∧ ∀ o, o ≠ offEthcnt port → t.ctlGet o = s.ctlGet o) ∧
    (∀ ten, Does (.evtpop ten) s fun t =>
      t.eventsOf ten = (s.eventsOf ten).drop 1 ∧ (∀ k, k ≠ ten → t.eventsOf k = s.eventsOf k) ∧
      { t with events := s.events, launchFull := s.launchFull, agenda := s.agenda } = s ∧
      t.agenda = if s.launchFull.contains ten then s.plan (s.scyc + 1) (.launchRecordTake ten) else s.agenda) ∧
    Does .frqpop s (fun t => { t with frq := s.frq } = s ∧ t.frq = s.frq.drop 1) ∧
    (∀ part, Does (.faqpop part) s fun t => { t with faq := s.faq } = s ∧ t.faqOf part = (s.faqOf part).drop 1 ∧
      ∀ j, j ≠ part → t.faqOf j = s.faqOf j) ∧
    (∀ e, Does (.faultReportEntry e) s fun t => { t with frq := s.frq, out := s.out, ctl := s.ctl } = s ∧
      Signals s t 17 ∧ (s.frq.length < 256 → t.frq = s.frq ++ [e] ∧ OnlyRegs s t []) ∧
      (s.frq.length ≥ 256 → t.frq = s.frq ∧ OnlyRegs s t [0x41010] ∧ t.ctlFld 0x41010 9 1 = 1 ∧
        t.ctlFld 0x41010 16 16 = min 0xFFFF (s.ctlFld 0x41010 16 16 + 1))) ∧
    (∀ part e, Does (.faultAddressEntry part e) s fun t => { t with faq := s.faq, out := s.out, ctl := s.ctl } = s ∧
      Signals s t 16 ∧ (∀ j, j ≠ part → t.faqOf j = s.faqOf j) ∧
      ((s.faqOf part).length < 256 → t.faqOf part = s.faqOf part ++ [e] ∧ OnlyRegs s t []) ∧
      ((s.faqOf part).length ≥ 256 → part < 4 → t.faqOf part = s.faqOf part ∧ OnlyRegs s t [offFaq part + 0x10] ∧
        t.ctlFld (offFaq part + 0x10) 9 1 = 1 ∧
        t.ctlFld (offFaq part + 0x10) 16 16 = min 0xFFFF (s.ctlFld (offFaq part + 0x10) 16 16 + 1))) ∧
    (∀ ten, s.activeRun ten = none → Stays (.cancel ten) s) ∧
    (∀ ten r, s.activeRun ten = some r → r.cancel = none → Does (.cancel ten) s fun t =>
      (t.runs = s.runs.map fun q => if q.id = r.id ∧ q.cancel.isNone then { q with cancel := some (5, 0) } else q) ∧
      (∀ p ∈ t.panels, p.run = r.id → p.st ≠ .placed ∧ p.st ≠ .saved ∧
        (p.st = .running → ∃ f, p.failAt = some f ∧ f ≤ p.pcyc + (if p.hedge then 1024 else 1))) ∧
      t.hbm = s.hbm ∧ t.ctl = s.ctl ∧ t.events = s.events) ∧
    (∀ ten, (∀ r ∈ s.runs, r.id < s.nextId) → Does (.flush ten) s fun t =>
      { t with ls := s.ls, bufs := s.bufs, runs := s.runs, nextId := s.nextId, events := s.events, out := s.out, ctl := s.ctl } = s ∧
      OnlyRegs s t [] ∧
      (∃ l, t.runs = s.runs ++ l ∧ ∀ r ∈ l, r.tenant = ten ∧ r.cancel = some (3, 16)) ∧
      (∀ k, k ≠ ten → t.eventsOf k = s.eventsOf k) ∧ ∃ l, t.eventsOf ten = s.eventsOf ten ++ l)

/-- R338, R267, R341, R331, R354, R355, R61, R101, R51, R52, R357: faults found, partitions changed, translations and headers revoked, links
down, pages evicted.
A fault where no panel runs, the collective plane's link code, when PARTCTL.GO of a cycle is taken, QNUM, and when the lines of an eviction are
read and written are the model's choices (logs 19, 107, 5, 26, 22), and so are whether a retraining succeeds (log 105), what MSI-X sends for a
vector that is raised (log 104), that a fault of the whole package has an entry for each panel that it stops (log 120), and what a change of partitions keeps for the
host (log 115). -/
def Obligations.FaultAndPartitionSteps : Prop :=
  ∀ s : State,
    (∀ cls unit ten (d : BitVec 32), let i := Instr.hardwareFaultDetect cls unit ten d
      (cls = 0 ∨ cls ≥ 18 → Stays i s) ∧
      (cls = 1 ∨ cls = 5 → Does i s fun t => { t with agenda := s.agenda } = s ∧
        Reports s t cls unit ((s.panelOn unit).map (·.tenant)) false (if cls = 1 then d.toNat % 2 ^ 16 else 0)) ∧
      (cls = 2 → Does i s fun t => { t with agenda := s.agenda, cores := s.cores } = s ∧
        Reports s t 2 unit ((s.panelOn unit).map (·.tenant)) false (d.toNat % 2 ^ 16) ∧
        spGet false (t.core unit).spPoison (d.toNat % 2 ^ 13) = true ∧
        (∀ l, l ≠ d.toNat % 2 ^ 13 → spGet false (t.core unit).spPoison l = spGet false (s.core unit).spPoison l) ∧
        { t.core unit with spPoison := (s.core unit).spPoison } = s.core unit ∧ (∀ c, c ≠ unit → t.core c = s.core c)) ∧
      (cls = 3 ∨ cls = 4 → Does i s fun t =>
        let lo := if cls = 3 then 0 else 32
        let off := offLserr ((s.partOf (lineQuarter unit)).getD 0)
        { t with agenda := s.agenda, ctl := s.ctl, lsPoison := s.lsPoison } = s ∧ Reports s t cls 0 ten false (d.toNat % 2 ^ 16) ∧
        SetsField s t off lo 32 (min (s.ctlFld off lo 32 + 1) (2 ^ 32 - 1)) ∧ (cls = 3 → t.lsPoison = s.lsPoison) ∧
        (cls = 4 → spGet false t.lsPoison unit = true) ∧ ∀ l, l ≠ unit → spGet false t.lsPoison l = spGet false s.lsPoison l) ∧
      (6 ≤ cls → cls ≤ 9 → ∀ p, s.panelOn unit = some p → Does i s fun t =>
        let detail := if cls ≤ 7 then d.toNat % 2 ^ 16 else 0
        { t with agenda := s.agenda, cores := s.cores, pend := s.pend } = s ∧ Reports s t cls unit (some p.tenant) true detail ∧
        Finds s t unit 0 (.fault cls (BitVec.ofNat 32 detail)) ∧ (∀ c k, (c, k) ≠ (unit, 0) → t.ctx c k = s.ctx c k) ∧
        { t.core unit with ctxs := (s.core unit).ctxs, ovtag := (s.core unit).ovtag, mstat := (s.core unit).mstat } = s.core unit ∧
        (∀ c, c ≠ unit → t.core c = s.core c) ∧
        (∀ k j, (spGet 0 (t.core unit).ovtag k).getLsbD j =
          (!(cls == 6 && k == d.toNat % 2 ^ 16 / 0x4000 && j == 40) && (spGet 0 (s.core unit).ovtag k).getLsbD j)) ∧
        (t.core unit).mstat = (if cls = 8 then (s.core unit).mstat ||| 16#64 else (s.core unit).mstat) ∧
        (cls ≠ 8 → t.pend = s.pend) ∧
        (cls = 8 → ∀ x, x ∈ t.pend ↔ x ∈ s.pend ∧ ¬(x.own.core = unit ∧ x.due ≤ s.now x.clk ∧ ∃ g, x.act = .wMma g))) ∧
      (cls = 10 → let hit := s.panels.filter fun p => s.packetOn p unit
        (hit = [] → Does i s fun t => { t with agenda := s.agenda } = s ∧ Reports s t 10 0 none false (unit % 2 ^ 17)) ∧
        (hit ≠ [] → (∀ p ∈ hit, (s.core p.firstCore).panel = some p.pid) → Does i s fun t =>
          { t with agenda := s.agenda, cores := s.cores } = s ∧ ReportsAll s t 10 hit (unit % 2 ^ 17) ∧
          FindsAll s t hit (.fault 10 (BitVec.ofNat 32 (unit % 2 ^ 17))))) ∧
      (cls = 11 → exec i s = exec (.gramerLinkDown unit) s) ∧
      (cls = 12 → let hit := s.panels.filter fun p => s.copies.any fun c => c.pid == some p.pid && c.ap == unit && !c.done
        (hit = [] → Does i s fun t => { t with agenda := s.agenda } = s ∧ Reports s t 12 0 none false (unit % 16)) ∧
        (hit ≠ [] → (∀ p ∈ hit, (s.core p.firstCore).panel = some p.pid) → Does i s fun t =>
          { t with agenda := s.agenda, cores := s.cores } = s ∧ ReportsAll s t 12 hit (unit % 16) ∧
          FindsAll s t hit (.fault 12 (BitVec.ofNat 32 (unit % 16))))) ∧
      (cls = 13 → let hit := s.panels.filter fun p => p.st == .running || p.st == .placed
        Does i s fun t => t.dispHalt = true ∧ { t with agenda := s.agenda, dispHalt := s.dispHalt } = s ∧
          (hit = [] → Reports s t 13 0 none false 0) ∧ (hit ≠ [] → ReportsAll s t 13 hit 0)) ∧
      (cls = 14 → exec i s = exec (.syncloss true) s) ∧
      (cls = 15 → let hit := s.panels.filter fun p => p.st == .running || p.st == .placed
        let n := max 1 hit.length
        Does i s fun t => t.power = false ∧ { t with frq := s.frq, out := s.out, ctl := s.ctl, power := s.power, nv := s.nv } = s ∧
          bytesAt t.nv 8 2 = [1, 0] ∧ (s.frq.length + n ≤ 256 → OnlyRegs s t [] ∧ ∃ es, t.frq = s.frq ++ es ∧
            (hit = [] → ∃ e, es = [e] ∧ EntryIs s e 15 0 none true 0) ∧ (hit ≠ [] → EntriesOf s es 15 hit 0)) ∧
          (s.msixMasked 17 = false → t.out = s.out ++ List.replicate n (s.msixOut 17)) ∧
          (s.msixMasked 17 = true → t.out = s.out ∧ (t.ctlGet offPba).getLsbD 17 = true)) ∧
      (cls = 16 → Does i s fun t => { t with agenda := s.agenda, cores := s.cores, ctl := s.ctl, nv := s.nv, out := s.out } = s ∧
        t.ctx 0 3 = { s.ctx 0 3 with st := .halted, wait := .none, cands := [] } ∧
        (∀ c k, (c, k) ≠ (0, 3) → t.ctx c k = s.ctx c k) ∧ t.ctlFld offBootstat 0 3 = 4 ∧ OnlyRegs s t [offBootstat] ∧ Signals s t 18 ∧
        Reports s t 16 0 none true 0 ∧ bytesAt t.nv 8 2 = [2, 0]) ∧
      (cls = 17 → s.panel? unit = none → (∀ v ∈ s.saved, v.panel.pid ≠ unit) → Does i s fun t =>
        { t with agenda := s.agenda } = s ∧ Reports s t 17 0 none true 0) ∧
      (cls = 17 → ∀ p, s.panel? unit = some p → (s.core p.firstCore).panel = some p.pid → Does i s fun t =>
        { t with agenda := s.agenda, cores := s.cores } = s ∧ Reports s t 17 0 (some p.tenant) true 0 ∧
        FindsAll s t [p] (.fault 17 0)) ∧
      (cls = 17 → ∀ v, s.panel? unit = none → (s.saved.find? fun v => v.panel.pid == unit) = some v →
        (s.core v.panel.firstCore).panel ≠ some v.panel.pid → Does i s fun t => Reports s t 17 0 (some v.panel.tenant) true 0 ∧
          (∀ w ∈ t.saved, w.panel.run ≠ v.panel.run) ∧ (∀ q ∈ t.runs, q.id = v.panel.run → q.cancel.isSome = true) ∧
          t.hbm = s.hbm ∧ t.ls = s.ls)) ∧
    (∀ port, Does (.gramerLinkDown port) s fun t =>
      (spGet 0 t.linklat port).getLsbD 16 = false ∧
      (∀ j, j ≠ 16 → (spGet 0 t.linklat port).getLsbD j = (spGet 0 s.linklat port).getLsbD j) ∧
      (∀ q, q ≠ port → spGet 0 t.linklat q = spGet 0 s.linklat q) ∧ Reports s t 11 0 none false (port % 32) ∧
      (∀ x, x ∈ t.pend ↔ x ∈ s.pend ∧ x.act ≠ .portPass port) ∧ t.hbm = s.hbm ∧ t.ls = s.ls ∧ t.panels = s.panels ∧ t.ctl = s.ctl) ∧
    (s.ctlFld offPartctl 1 1 = 1 → Stays .partctlGo s) ∧
    (s.ctlFld offPartctl 1 1 = 0 →
      (∀ code q, s.partCheck = some (code, q) → Does .partctlGo s fun t => OnlyCtl s t ∧
        t.ctlFld offPartctl 1 1 = 0 ∧ t.ctlFld offPartctl 2 4 = code ∧ t.ctlFld offPartctl 16 11 = q % 2 ^ 11 ∧
        ∀ o, o ≠ offPartctl → t.ctlGet o = s.ctlGet o) ∧
      (s.partCheck = none → Does .partctlGo s fun t =>
        { t with ctl := s.ctl, partChange := s.partChange, agenda := s.agenda } = s ∧ (∀ o, o ≠ offPartctl → t.ctlGet o = s.ctlGet o) ∧
        t.ctlFld offPartctl 1 1 = 1 ∧ t.ctlFld offPartctl 2 4 = 1 ∧ t.agenda = s.plan (s.scyc + 64) .partitionChange ∧
        ∃ c, t.partChange = some c ∧ c.rho = s.scyc + 64 ∧ c.parts = s.involved ∧ c.quarters = s.involvedQuarters)) ∧
    (s.partChange = none ∨ (∃ c, s.partChange = some c ∧ c.rho ≠ s.scyc) → Stays .partitionChange s) ∧
    (∀ c, s.partChange = some c → c.rho = s.scyc → Does .partitionChange s fun t =>
      (s.hostq = [] → t.olds = s.olds) ∧
      (s.hostq ≠ [] → ∃ o, t.olds = s.olds ++ [o] ∧ o.before = s.nextId ∧ o.quarters = c.quarters ∧ o.live = s.live ∧
        ∀ a, a / 0x1800000000 ∈ c.quarters → spGet none o.hbm a = spGet none s.hbm a) ∧
      t.partChange = none ∧ t.ctlFld offPartctl 1 1 = 0 ∧ t.ctlFld offPartctl 2 4 = 0 ∧
      t.ctlGet offPartrho = BitVec.ofNat 64 s.scyc ∧ (∀ j < 4, t.liveGet (offMemil j) = s.shadow (offMemil j)) ∧
      t.liveGet offNetbnd = s.shadow offNetbnd ∧ ((∀ j ∈ c.after, j < 4) → Signals s t 18) ∧
      (∀ q ∈ c.quarters, ∀ a, a / 0x1800000000 = q → spGet none t.hbm a = none) ∧
      (∀ a, a / 0x1800000000 ∉ c.quarters → spGet none t.hbm a = spGet none s.hbm a) ∧ t.ls = s.ls ∧ t.second = s.second) ∧
    (∀ part, s.ctlFld (offSdctl part) 1 1 = 1 → Stays (.sdctlGo part) s) ∧
    (∀ part, s.ctlFld (offSdctl part) 1 1 = 0 → Does (.sdctlGo part) s fun t =>
      { t with ctl := s.ctl, shoots := s.shoots, agenda := s.agenda } = s ∧ t.ctlFld (offSdctl part) 1 1 = 1 ∧
      (t.ctlGet (offSdctl part)).getLsbD 2 = t.draining part ∧
      t.ctlGet (offSdrho part) = BitVec.ofNat 64 (s.scyc + 64) ∧ t.agenda = s.plan (s.scyc + 64) (.shootdownRevoke (2 ^ part)) ∧
      ∃ w, t.shoots = s.shoots ++ [w] ∧ w.parts = [part] ∧ w.rho = s.scyc + 64 ∧
        w.group = s.ctlFld (offSdaddr part) 22 26 ∧ w.count = s.ctlFld (offSdcnt part) 0 26) ∧
    (∀ parts, (∀ w ∈ s.shoots, ¬(partMask w.parts = parts ∧ w.rho = s.scyc ∧ w.drain = none)) → Stays (.shootdownRevoke parts) s) ∧
    (∀ parts w, (s.shoots.find? fun w => partMask w.parts == parts && w.rho == s.scyc && w.drain.isNone) = some w →
      Does (.shootdownRevoke parts) s fun t =>
        (∀ j ∈ w.parts, t.ctlFld (offSdctl j) 1 1 = 0) ∧
        (∀ c k h, (t.ctx c k).rdH h = revokeHandle
          (if isFwCtx c k then w.fw else w.tenants.contains ((s.ctx c k).rdH h).ten.toNat) false w.group w.count ((s.ctx c k).rdH h)) ∧
        (let hit := fun (e : SpanEnt) => (if e.space = fwSpace then w.fw = true else e.space ∈ w.tenants) ∧
            (w.count = 0 ∨ (w.group ≤ e.group ∧ e.group < w.group + w.count))
         (∀ die, ∀ e ∈ t.spansOf die, ¬hit e) ∧
         (spWf [] s.spans = true → ∀ die e, e ∈ t.spansOf die ↔ e ∈ s.spansOf die ∧ ¬hit e)) ∧
        (w.tenants.Nodup → ∀ ten ∈ w.tenants, ten < 16 → t.epochOf ten = s.epochOf ten + 1) ∧ t.hbm = s.hbm ∧ t.ls = s.ls) ∧
    (∀ part, s.ctlFld (offRcinv part) 6 1 = 1 → Stays (.rcinvGo part) s) ∧
    (∀ part, s.ctlFld (offRcinv part) 6 1 = 0 → Does (.rcinvGo part) s fun t =>
      { t with ctl := s.ctl, agenda := s.agenda } = s ∧ t.ctlFld (offRcinv part) 6 1 = 1 ∧
      t.ctlGet (offRcirho part) = BitVec.ofNat 64 (s.scyc + 64) ∧ t.agenda = s.plan (s.scyc + 64) (.rcInvalidateEffect part)) ∧
    (∀ part, Does (.rcInvalidateEffect part) s fun t =>
      { t with ctl := s.ctl, ls := s.ls, lsPoison := s.lsPoison, runs := s.runs } = s ∧ SetsField s t (offRcinv part) 6 1 0 ∧
      let w := (s.ctlGet (offRcinv part)).toNat
      (s.ctlFld (offRccfg part) 16 1 = 1 → t.ls = s.ls) ∧
      (s.ctlFld (offRccfg part) 16 1 = 0 → ∀ k < s.rcSlots part, bt (t.rcHeader part k) 0 =
        (bt (s.rcHeader part k) 0 && !invMatches w (fld (s.rcHeader part k) 4 4) (fld (s.rcHeader part k) 16 16))) ∧
      ∀ r ∈ t.runs, r.part = part → invMatches w r.tenant r.patid = true → ∀ x ∈ r.prog, x.launched = true → x.cached = false) ∧
    (∀ port,
      let hit := fun (g : PageReq) => g.bk && g.started && !g.down && decide (g.line < 512) && s.cxlPort g.back == some port
      let pages := s.pages.map fun g => if hit g then { g with down := true } else g
      let lost := fun (l : List HbmReq) => l.map fun r => match r.use with
        | .page i => if r.performed = false ∧ (∃ g ∈ s.pages, g.id = i ∧ hit g = true) then { r with l0 := ⟨0, true, false⟩, l1 := ⟨0, true, false⟩ } else r
        | _ => r
      ((∀ e, s.evict = some e → s.cxlPort e.dst ≠ some port) → Does (.cxldown port) s fun t =>
        { t with ctl := s.ctl, pages := s.pages, uq := s.uq, reqs := s.reqs, agenda := s.agenda } = s ∧ SetsField s t (offCxlpst port) 0 1 0 ∧
        t.pages = pages ∧ t.uq = lost s.uq ∧ t.reqs = lost s.reqs ∧ t.agenda.length = s.agenda.length + (s.pages.filter hit).length) ∧
      (∀ e, s.evict = some e → s.cxlPort e.dst = some port → Does (.cxldown port) s fun t =>
        { t with ctl := s.ctl, pages := s.pages, uq := s.uq, reqs := s.reqs, agenda := s.agenda, evict := s.evict, cores := s.cores } = s ∧
        t.uq = lost s.uq ∧ t.reqs = lost s.reqs ∧ (t.ctlGet (offCxlpst port)).getLsbD 0 = false ∧ t.pages = pages ∧ t.evict = none ∧ t.ctlFld offEvctl 1 1 = 0 ∧
        t.ctlFld offEvctl 2 3 = 3 ∧ t.agenda.length = s.agenda.length + (s.pages.filter hit).length + 1)) ∧
    (∀ port, (port < s.cxl → (Does (.retrain port true) s fun t => OnlyCtl s t ∧ SetsField s t (offCxlpst port) 0 1 1) ∧
        exec (.retrain port false) s = exec (.cxldown port) s) ∧
      (∀ ok, port ≥ s.cxl → Stays (.retrain port ok) s)) ∧
    (s.ctlFld offEvctl 1 1 = 1 ∨ s.cxl = 0 → Stays .evctlGo s) ∧
    (s.ctlFld offEvctl 1 1 = 0 → s.cxl ≠ 0 →
      let src := s.ctlFld offEvsrc 16 32
      let dst := s.ctlFld offEvdst 16 32
      let refused := fun (n : Nat) => Does .evctlGo s fun t => { t with ctl := s.ctl, evict := s.evict } = s ∧ t.evict = none ∧
        t.ctlFld offEvctl 1 1 = 0 ∧ t.ctlFld offEvctl 2 3 = n ∧ ∀ o, o ≠ offEvctl → t.ctlGet o = s.ctlGet o
      let srcOk := src * 65536 < hbmSize s.variant ∧ (s.partOfAddr (src * 65536)).isSome
      (¬srcOk → refused 1) ∧ (srcOk → s.cxlPort dst = none → refused 2) ∧
      (∀ p, srcOk → s.cxlPort dst = some p → s.cxlUp p = false → refused 3) ∧
      (∀ p, srcOk → s.cxlPort dst = some p → s.cxlUp p = true → Does .evctlGo s fun t =>
        { t with ctl := s.ctl, evict := s.evict, nextId := s.nextId } = s ∧ t.evict = some ⟨s.nextId, src, dst, false, 0, false⟩ ∧
        t.nextId = s.nextId + 1 ∧ SetsField s t offEvctl 1 1 1)) ∧
    (s.evict = none → ∀ ok, Stays (.evictionComplete ok) s) ∧
    (∀ e, s.evict = some e →
      (s.cxlPort e.dst = none → Stays (.evictionComplete false) s) ∧
      (∀ port, s.cxlPort e.dst = some port → exec (.evictionComplete false) s = exec (.cxldown port) s) ∧
      (e.line ≠ 1024 → Stays (.evictionComplete true) s) ∧
      (e.line = 1024 → Does (.evictionComplete true) s fun t => { t with ctl := s.ctl, evict := s.evict } = s ∧ t.evict = none ∧
        t.ctlFld offEvctl 1 1 = 0 ∧ t.ctlFld offEvctl 2 3 = (if e.poisoned then 4 else 0) ∧
        ∀ o, o ≠ offEvctl → t.ctlGet o = s.ctlGet o))

/-- R39 to R44, R47, R48, R52, R56, R278, R356: the memory controllers and the host's accesses: the slot table switches, refresh and self-test
proceed, accesses perform and are delivered, walks end, host accesses are accepted and go on in order.
Which rows fail a self-test, admission around a table switch, the cycles of untimed accesses, when an eviction's line is written, the test of a
bank that is parked outside its partition, which bytes a host read returns, reads that take no slot, the line that a PARKED entry names, the cycle
of an entry, and the parts in which a host access performs are the model's readings (logs 20, 21, 102, 22, 94, 116, 121, 123, 128, 122, 135). -/
def Obligations.MemorySteps : Prop :=
  ∀ s : State,
    (∀ part, s.ctlFld (offMemctl part) 1 1 = 1 → Stays (.commit part) s) ∧
    (∀ part, s.ctlFld (offMemctl part) 1 1 = 0 → Does (.commit part) s fun t => OnlyCtl s t ∧
      t.ctlFld (offMemctl part) 2 2 = s.slotCheck part ∧ (∀ o, o ≠ offMemctl part → t.ctlGet o = s.ctlGet o) ∧
      t.ctlFld (offMemctl part) 1 1 = (if s.slotCheck part = 0 then 1 else 0)) ∧
    (∀ part, s.ctlFld (offMemctl part) 1 1 = 1 → s.partIdle part = true → s.scyc % 320 = 0 → Does (.slotTableSwitch part) s fun t =>
      { t with ctl := s.ctl, live := s.live } = s ∧ SetsField s t (offMemctl part) 1 1 0 ∧
      ∀ n < 64, t.slotCode part n = fld (s.ctlGet (offMemslot part (n / 8))).toNat (8 * (n % 8)) 8) ∧
    (∀ part, s.ctlFld (offMemctl part) 1 1 = 0 ∨ s.partIdle part = false ∨ s.scyc % 320 ≠ 0 → Stays (.slotTableSwitch part) s) ∧
    (∀ part pc i first rest, (i = .perBankRefreshDue part pc ∧ first = (false, (s.pch pc).nextBank) ∧ rest = ((s.pch pc).nextBank + 1) % 32) ∨
        (∃ bank, i = .refreshManagementDue part pc bank ∧ first = (true, bank) ∧ rest = (s.pch pc).nextBank) →
      Does i s fun t => { t with pchs := s.pchs } = s ∧ (t.pch pc).due = (s.pch pc).due ++ [first] ∧ (t.pch pc).nextBank = rest ∧
        (t.pch pc).acts = (s.pch pc).acts ∧ (∀ c, c ≠ pc → t.pch c = s.pch c) ∧
        let free := fun (g : Nat) => s.scyc < g ∧ g % 5 = 0 ∧ g ≤ 5 * (s.scyc / 5 + 64) ∧ s.slotCode part (slotAt g) < 16 ∧
          ∀ r ∈ s.reqs, r.pch = pc → r.sigma ≠ some (g : Int)
        ((s.pch pc).due.length < 2 ∨ (∃ g ∈ (s.pch pc).taken, g > s.scyc) → (t.pch pc).taken = (s.pch pc).taken) ∧
        ((s.pch pc).due.length ≥ 2 → (∀ g ∈ (s.pch pc).taken, g ≤ s.scyc) →
          (∀ g, free g → (∀ h, free h → g ≤ h) → (t.pch pc).taken = [g]) ∧ ((∀ g, ¬free g) → (t.pch pc).taken = (s.pch pc).taken))) ∧
    (∀ part pc d, (match (s.pch pc).due.find? fun d => d.1 with | some d => some d | none => (s.pch pc).due.head?) = some d →
      Does (.maintenanceSlot part pc) s fun t => { t with pchs := s.pchs } = s ∧
        (t.pch pc).due = (s.pch pc).due.erase d ∧ (t.pch pc).nextBank = (s.pch pc).nextBank ∧ (∀ c, c ≠ pc → t.pch c = s.pch c) ∧
        (∀ b, spGet 0 (t.pch pc).acts b = if b = d.2 then
          spGet 0 (s.pch pc).acts b - s.ctlFld (offRmctl part) (if d.1 then 20 else 10) 10 else spGet 0 (s.pch pc).acts b)) ∧
    (∀ part pc, (s.pch pc).due = [] → (s.tests.find? fun x => x.1 == part && pchOf x.2.1 == pc) = none → Stays (.maintenanceSlot part pc) s) ∧
    (∀ part pc j b row bad, (s.pch pc).due = [] → (s.tests.find? fun x => x.1 == part && pchOf x.2.1 == pc) = some (j, b, row, bad) →
      Does (.maintenanceSlot part pc) s fun t => { t with tests := s.tests, agenda := s.agenda, ctl := s.ctl } = s ∧
        (row + 1 ≠ 16384 → t.ctl = s.ctl ∧ ∃ f, (bad = true → f = true) ∧
          t.tests = (s.tests.filter fun x => x.1 != part) ++ [(part, b, row + 1, f)]) ∧
        (row + 1 = 16384 → t.tests = (s.tests.filter fun x => x.1 != part) ∧
          (t.ctlFld (offParksel part) 18 2 = 2 ∨ t.ctlFld (offParksel part) 18 2 = 3) ∧
          (bad = true → t.ctlFld (offParksel part) 18 2 = 3))) ∧
    (∀ part, s.parkedBank part = none ∨ (∃ x ∈ s.tests, x.1 = part) → Stays (.test part) s) ∧
    (∀ part b, s.parkedBank part = some b → (∀ t ∈ s.tests, t.1 ≠ part) → Does (.test part) s fun t =>
      { t with tests := s.tests, ctl := s.ctl, hbm := s.hbm, hbmPoison := s.hbmPoison, hbmFaulty := s.hbmFaulty,
               hbmUndef := s.hbmUndef, free := s.free } = s ∧
      t.tests = s.tests ++ [(part, b, 0, false)] ∧ SetsField s t (offParksel part) 18 2 1 ∧
      (∀ a, spGet none t.hbm a = if (s.partRange part).1 ≤ a ∧ a < (s.partRange part).1 + (s.partRange part).2 ∧ (s.placeOf a).1 = b
        then none else spGet none s.hbm a)) ∧
    (∀ part, s.ctlFld (offParksel part) 3 7 < 96 → Does (.park part true) s fun t => OnlyCtl s t ∧ SetsField s t (offParksel part) 16 1 1) ∧
    (∀ part, s.ctlFld (offParksel part) 3 7 ≥ 96 → Stays (.park part true) s) ∧
    (∀ part, (∀ t ∈ s.tests, t.1 ≠ part) → Does (.park part false) s fun t => OnlyCtl s t ∧
      SetsField s t (offParksel part) 16 1 0) ∧
    (∀ part, (∃ t ∈ s.tests, t.1 = part) → Does (.park part false) s fun t => { t with ctl := s.ctl, tests := s.tests } = s ∧
      t.ctlFld (offParksel part) 16 1 = 0 ∧ t.ctlFld (offParksel part) 18 2 = 3 ∧ t.tests = s.tests.filter fun x => x.1 != part) ∧
    (∀ id, (∀ r ∈ s.reqs, r.id = id → r.performed = true) → Stays (.hbmAccessPerform id) s) ∧
    (∀ id r, (s.reqs.find? fun r => r.id == id && !r.performed) = some r →
      let done := fun (t : State) => ∀ q ∈ t.reqs, q.id = id → q.performed = true
      (r.use = .dropped → Does (.hbmAccessPerform id) s fun t => { t with reqs := s.reqs } = s ∧ done t) ∧
      (r.use ≠ .dropped → s.parked r = true → Does (.hbmAccessPerform id) s fun t => t.hbm = s.hbm ∧ t.hbmPoison = s.hbmPoison ∧
        t.ls = s.ls ∧ done t ∧ (∃ e l, t.agenda = s.plan s.scyc (.faultAddressEntry r.part e) ++ l ∧ e.extractLsb' 1 4 = 3#4) ∧
        (r.write = false → s.mapOf r = none → { t with reqs := s.reqs, agenda := s.agenda } = s ∧ ∀ q ∈ t.reqs, q.id = id →
          q.l0 = ⟨lineOf (s.hbmBytes r.addr 64), true, false⟩ ∧ q.l1 = ⟨lineOf (s.hbmBytes (r.addr + 64) 64), true, false⟩)) ∧
      (r.use ≠ .dropped → s.parked r = false → ∀ o, s.mapOf r = some o → Does (.hbmAccessPerform id) s fun t =>
        t.hbm = s.hbm ∧ t.hbmPoison = s.hbmPoison ∧ t.live = s.live ∧ t.ls = s.ls ∧ done t) ∧
      (r.use ≠ .dropped → s.parked r = false → s.mapOf r = none → r.write = true → Does (.hbmAccessPerform id) s fun t =>
        (∀ i < 128, t.hbmByte (r.addr + i) = if r.mask.getLsbD i then
          (if i < 64 then r.l0.data.extractLsb' (8 * i) 8 else r.l1.data.extractLsb' (8 * (i - 64)) 8) else s.hbmByte (r.addr + i)) ∧
        (∀ a, a < r.addr ∨ r.addr + 128 ≤ a → t.hbmByte a = s.hbmByte a) ∧ t.ls = s.ls ∧ t.cores = s.cores ∧ done t ∧
        (r.addr % 128 = 0 → (r.half false = BitVec.allOnes 64 → t.hbmTag r.addr = r.l0.poison) ∧
          (r.half true = BitVec.allOnes 64 → t.hbmTag (r.addr + 64) = r.l1.poison))) ∧
      (r.use ≠ .dropped → s.parked r = false → s.mapOf r = none → r.write = false → Does (.hbmAccessPerform id) s fun t =>
        { t with reqs := s.reqs, agenda := s.agenda } = s ∧ done t ∧
        ((∀ run i n c, r.use = .copyRead run i n → s.copy? run = some c → (c.timed && c.cpy) = false) → ∀ q ∈ t.reqs, q.id = id →
          (r.half false ≠ 0 → q.l0 = ⟨lineOf (s.hbmBytes r.addr 64), s.hbmTag r.addr, false⟩) ∧
          (r.half true ≠ 0 → q.l1 = ⟨lineOf (s.hbmBytes (r.addr + 64) 64), s.hbmTag (r.addr + 64), false⟩)))) ∧
    (∀ id, (∀ r ∈ s.reqs, r.id ≠ id) → Stays (.hbmReadDeliver id) s) ∧
    (∀ id r, (s.reqs.find? fun r => r.id == id) = some r →
      let rest := s.reqs.filter fun q => q.id != id
      let first := if r.half false = 0 then r.l1 else r.l0
      (∀ run i n, r.use = .copyRead run i n → Does (.hbmReadDeliver id) s fun t =>
        { t with reqs := s.reqs, copies := s.copies, saved := s.saved } = s ∧ t.reqs = rest ∧ ∀ c ∈ t.copies, c.id = run →
          spGet none c.staged i = some first ∧ (n = 2 → spGet none c.staged (i + 1) = some r.l1)) ∧
      (∀ k h hs, r.use = .host k → s.hostq = h :: hs → h.id = k → r.write = false → h.write = false →
        let n := min h.left (128 - h.addr % 128)
        let bs := h.bytes ++ ((lineBytes r.l0.data ++ lineBytes r.l1.data).drop (h.addr % 128)).take n
        exec (.hbmReadDeliver id) s = .next (if h.left = n then { s with reqs := rest, hostq := hs, out := s.out ++ [.readData bs] }
          else { s with reqs := rest, hostq := { h with addr := h.addr + n, bytes := bs, left := h.left - n, asked := false } :: hs })) ∧
      (∀ k e, r.use = .evict k → s.evict = some e → e.id = k → Does (.hbmReadDeliver id) s fun t =>
        { t with reqs := s.reqs, second := s.second, secondPoison := s.secondPoison, out := s.out, evict := s.evict } = s ∧ t.reqs = rest ∧
        let a := e.dst * 65536 + 64 * e.line
        bytesAt t.second a 64 = natLe 64 first.data.toNat ∧ spGet false t.secondPoison (a / 64) = first.poison ∧
        (∀ x, x < a ∨ a + 64 ≤ x → spGet 0 t.second x = spGet 0 s.second x) ∧ t.out = s.out ++ [.cxlWrite a first] ∧
        t.evict = some { e with line := e.line + 1, asked := false, poisoned := e.poisoned || first.poison }) ∧
      ((∀ run i n, r.use ≠ .copyRead run i n) → (∀ k, r.use ≠ .evict k) → ((∃ k, r.use = .host k) → r.write = true) →
        exec (.hbmReadDeliver id) s = .next { s with reqs := rest })) ∧
    (∀ die space group w, (s.walks.find? fun w => w.die == die && w.space == space && w.group == group) = some w →
      Does (.spanWalkComplete die space group) s fun t => { t with walks := s.walks, spans := s.spans, agenda := s.agenda } = s ∧
        (∃ l, t.agenda = s.agenda ++ l) ∧
        (∀ v, v ∈ t.walks ↔ v ∈ s.walks ∧ ¬(v.die = die ∧ v.space = space ∧ v.group = group)) ∧
        (∀ d, d ≠ die → t.spansOf d = s.spansOf d) ∧
        ∃ e, t.spanFind die space group = some e ∧ (w.pin = true → e.pinned = true) ∧
          e.leaf = match s.spanFind die space group with | some o => o.leaf | none => s.leafAt (s.walkLeaf space group)) ∧
    (∀ die space group, (∀ w ∈ s.walks, ¬(w.die = die ∧ w.space = space ∧ w.group = group)) → Stays (.spanWalkComplete die space group) s) ∧
    (∀ addr (bs : List Byte), (∀ i < bs.length, s.barPlace (addr + i) ≠ .none) → exec (.hostMemoryWrite addr bs) s =
      .next { s with hostq := s.hostq ++ [⟨s.nextId, true, addr, bs, bs.length, false, s.scyc⟩], nextId := s.nextId + 1 }) ∧
    (∀ addr (bs : List Byte) i, i < bs.length → s.barPlace (addr + i) = .none →
      exec (.hostMemoryWrite addr bs) s = .next (s.send .unsupported)) ∧
    (∀ addr n, (∀ i < n, s.barPlace (addr + i) ≠ .none) → exec (.hostMemoryRead addr n) s =
      .next { s with hostq := s.hostq ++ [⟨s.nextId, false, addr, [], n, false, s.scyc⟩], nextId := s.nextId + 1 }) ∧
    (∀ addr n i, i < n → s.barPlace (addr + i) = .none → exec (.hostMemoryRead addr n) s = .next (s.send .unsupported)) ∧
    (∀ h hs, s.hostq = h :: hs → h.asked = false → h.left ≠ 0 →
      (∀ a, s.barPlace h.addr = .hbm a → ∃ q, q.who = 0x11 ∧ q.id = s.nextId ∧ q.addr = a / 128 * 128 ∧ q.write = h.write ∧
        q.use = .host h.id ∧
        s.hostMove = { s with hostq := { h with asked := true } :: hs, uq := s.uq ++ [q], nextId := s.nextId + 1 }) ∧
      (∀ p, s.barPlace h.addr = .ls p → let n := min h.left (64 - p.byte % 64)
        (h.write = true → s.nearWrite p = true → s.hostMove = s) ∧
        (h.write = true → s.nearWrite p = false → s.hostMove.pend = s.pend ++ [⟨.scyc, s.scyc, false, Own.none (128 * p.die),
          .lsStore p (List.replicate n true) (h.bytes.take n)⟩]) ∧
        (h.write = false → h.left = n → s.hostMove =
          { s with hostq := hs, out := s.out ++ [.readData (h.bytes ++ bytesAt s.ls p.key n)] })))

/-- R71 to R82, R95, R97, R111, R116, R117, R194: the copy engines, the delivery queues, page requests, queue operations and waking contexts.
The cores whose CPSTAT is marked, when a refused read is presented again and where a channel's third unit waits, the cycles of untimed
accesses, the core that TIMING of a held channel is found for, and the one presentation of a CPY's unit are the model's readings (logs 23, 97,
102, 59, 132). -/
def Obligations.CopySteps : Prop :=
  ∀ s : State,
    (∀ run, s.copy? run = none → Stays (.prefetchReadPresent run) s ∧ Stays (.copyEntryStart run) s ∧ Stays (.lateWarning run) s ∧
      ∀ line, Stays (.copyLineTransfer run line) s ∧ Stays (.writebackPresent run line) s) ∧
    (∀ run r, s.copy? run = some r →
      (r.nextRead = none ∨ s.wantsRead r = false ∨ s.readRoom r.ap r.e.chan = false → Stays (.prefetchReadPresent run) s) ∧
      (∀ i, r.nextRead = some i → s.wantsRead r = true → s.readRoom r.ap r.e.chan = true →
        let n := if s.stagingUsed r.ap + 2 > 16384 then 1 else r.unitLines i
        let u := r.srcAddr i / 128 * 128
        (s.stagingUsed r.ap + n > 16384 → exec (.prefetchReadPresent run) s = .next
          { s with copies := s.copies.map fun c => if c.id = run then { c with tried := s.scyc + 1 } else c }) ∧
        (s.stagingUsed r.ap + n ≤ 16384 → Does (.prefetchReadPresent run) s fun t =>
          { t with copies := s.copies, reqs := s.reqs, nextId := s.nextId, units := s.units } = s ∧
          t.unitsOf r.ap r.e.chan = s.unitsOf r.ap r.e.chan + 1 ∧
          match s.admitAt ((s.partOfAddr u).getD 0) (pchOf (s.placeOf u).1) (s.placeOf u).1.bank r.who with
          | none => t.reqs = s.reqs ∧ ∀ c, t.copy? run = some c → c.begun = true ∧ c.nreq = r.nreq ∧ c.tried = s.scyc + 1
          | some g => (∀ c, t.copy? run = some c → c.begun = true ∧ c.nreq = i + n) ∧ ∃ q, t.reqs = s.reqs ++ [q] ∧
              q.sigma = some (g : Int) ∧ q.id = s.nextId ∧ q.present = (s.scyc : Int) ∧ q.addr = u ∧ q.write = false ∧ q.performed = false ∧
              q.use = .copyRead run i n))) ∧
    (∀ run r p, s.copy? run = some r → s.copyPanel r = some p → r.live p.pid = true → r.started = false → r.start = some p.pcyc →
      Does (.copyEntryStart run) s fun t =>
        (∀ c, t.copy? run = some c → c.started = true) ∧ t.hbm = s.hbm ∧ t.ls = s.ls ∧
        (s.chanHeld r p.pcyc = false → t.chans = s.chans ++ [(r.ap, r.e.chan, p.pid, r.lastAt)]) ∧
        (s.chanHeld r p.pcyc = true → t.chans = s.chans ∧ (∀ c, t.copy? run = some c → c.done = true) ∧
          (r.cpy = false → Finds s t (r.cores.headD r.portCore) 0 (.timing 1 (BitVec.ofNat 64 (r.ap + 16 * r.e.chan)))))) ∧
    (∀ run r, s.copy? run = some r → (s.copyPanel r = none ∨ ∃ p, s.copyPanel r = some p ∧
      (r.live p.pid = false ∨ ((r.started = true ∨ r.start ≠ some p.pcyc) ∧
        (r.started = false ∨ r.firstAt = r.start.getD 0 ∨ r.firstAt ≠ p.pcyc ∨ r.begun = true)))) → Stays (.copyEntryStart run) s) ∧
    (∀ run r p, s.copy? run = some r → s.copyPanel r = some p → r.live p.pid = true → r.started = true → r.begun = false →
      r.firstAt ≠ r.start.getD 0 → r.firstAt = p.pcyc → r.id = run → Does (.copyEntryStart run) s fun t =>
        (∀ c, t.copy? run = some c → c.begun = true) ∧ t.hbm = s.hbm ∧ t.ls = s.ls ∧ t.chans = s.chans) ∧
    (∀ run line r p, s.copy? run = some r → s.copyPanel r = some p → r.live p.pid = true → r.sent = line →
      (r.linesAt (r.readAt 0) p.pcyc).contains line = true → Does (.copyLineTransfer run line) s fun t =>
        (∀ c, t.copy? run = some c → c.sent = line + 1) ∧ t.hbm = s.hbm ∧ t.ls = s.ls ∧
        (r.e.srck = 2 → r.e.dstk = 0 → let a := r.e.soff + 64 * line
          t.pend = s.pend ++ r.dcores.map fun c => ⟨.panel p.pid, r.landAt line, false, r.owner c,
            .land c (r.e.doff + 64 * line) (lineBytes (lineOf (bytesAt (s.core r.portCore).sp a 64)))
              (spGet false (s.core r.portCore).spPoison (a / 64)) .ap⟩)) ∧
    (∀ run line r, s.copy? run = some r → (r.sent ≠ line ∨ s.copyPanel r = none ∨
      ∃ p, s.copyPanel r = some p ∧ (r.live p.pid = false ∨ (r.linesAt (r.readAt 0) p.pcyc).contains line = false)) →
      Stays (.copyLineTransfer run line) s) ∧
    (∀ run line r l, s.copy? run = some r → spGet none r.moved line = some l → Does (.writebackPresent run line) s fun t =>
      (∀ c, t.copy? run = some c → spGet none c.moved line = none) ∧ t.hbm = s.hbm ∧ t.ls = s.ls ∧ t.nextId = s.nextId + 1 ∧
      ∃ q n, (t.reqs = s.reqs ++ [q] ∧ t.wbq = s.wbq ∨ t.wbq = s.wbq ++ [q] ∧ t.reqs = s.reqs) ∧ q.id = s.nextId ∧ q.write = true ∧
        q.addr = r.dstAddr line / 128 * 128 ∧ q.use = .copyWrite run line n ∧
        (if r.dstAddr line % 128 = 0 then q.l0 else q.l1) = l ∧
        (s.unitsOf r.ap r.e.chan ≥ 2 ∨ s.heldBack q = true → t.wbq = s.wbq ++ [q] ∧ t.units = s.units) ∧
        (s.unitsOf r.ap r.e.chan < 2 → s.heldBack q = false → t.unitsOf r.ap r.e.chan = s.unitsOf r.ap r.e.chan + 1 ∧
          match s.admitAt q.part q.pch q.bank q.who with
          | none => t.wbq = s.wbq ++ [q]
          | some g => t.reqs = s.reqs ++ [q] ∧ q.sigma = some (g : Int))) ∧
    (∀ run line r, s.copy? run = some r → spGet none r.moved line = none → Stays (.writebackPresent run line) s) ∧
    (∀ id, (∀ r ∈ s.wbq, r.id ≠ id) → Stays (.writebackRetry id) s) ∧
    (∀ id r, (s.wbq.find? fun r => r.id == id) = some r → let units := spUpd 0 s.units (4 * r.ap + r.chan) (· + 1)
      (s.admitAt r.part r.pch r.bank r.who = none → exec (.writebackRetry id) s = .next
        { s with units := units, wbq := s.wbq.map fun q => if q.id = id then { q with performed := true } else q }) ∧
      (∀ g, s.admitAt r.part r.pch r.bank r.who = some g → exec (.writebackRetry id) s = .next
        { s with units := units, wbq := s.wbq.filter (fun q => q.id != id), nextId := s.nextId + 1,
                 reqs := s.reqs ++ [{ r with performed := false, sigma := some (g : Int), id := s.nextId, present := s.scyc }] })) ∧
    (∀ run r, s.copy? run = some r → Does (.lateWarning run) s fun t =>
      (∀ c ∈ r.cores, (t.core c).cpstat.getLsbD 0 = true) ∧ { t with cores := s.cores, panels := s.panels } = s ∧
      (∀ c, { t.core c with cpstat := (s.core c).cpstat } = s.core c) ∧
      ∀ p q, r.pid.bind s.panel? = some p → p.st = .running ∨ p.st = .ended → t.panel? p.pid = some q →
        (p.hedge = false → (∀ w ∈ p.frz, w.stop ≠ none) →
          q = { p with pcyc := p.nextCyc, frozen := true, frz := p.frz ++ [⟨s.scyc, none⟩] }) ∧
        (p.hedge = true → q = { p with lateAt := p.lateAt ++ [(p.nextCyc + 1024, none)] })) ∧
    (∀ ap, s.dqueue ap = [] → Stays (.untimedRequestServe ap) s) ∧
    (∀ ap id rest, s.dqueue ap = .page id :: rest → Does (.untimedRequestServe ap) s fun t =>
      { t with pages := s.pages, dqueues := s.dqueues, agenda := s.agenda } = s ∧ (∀ g ∈ t.pages, g.id = id → g.started = true) ∧
      ∃ l, t.dqueue ap = rest ++ l) ∧
    (∀ ap id rest r, s.dqueue ap = .cpy id :: rest → s.copy? id = some r →
      (r.begun = true → Stays (.untimedRequestServe ap) s) ∧
      (r.begun = false → Does (.untimedRequestServe ap) s fun t => { t with copies := s.copies, cores := s.cores } = s ∧
        ∀ c, t.copy? id = some c → c = { r with begun := true, flags := c.flags, failed := c.failed, revS := c.revS, revD := c.revD }) ∧
      (r.begun = true → (∀ p, r.pid.bind s.panel? = some p → p.frozen = false) → r.sent ≥ r.nreq →
        (r.nreq < r.e.lines → s.mayRead r r.nreq = false → s.untimedStep ap = s) ∧
        (r.nreq < r.e.lines → s.mayRead r r.nreq = true → r.node = none → r.srcState r.nreq = 0 → r.e.srck = 1 →
          let pl := handlePlace r.sH (r.e.soff + 64 * r.nreq)
          ∀ c, (s.untimedStep ap).copy? id = some c →
            c.nreq = r.nreq + 1 ∧ spGet none c.staged r.nreq = some ⟨lineOf (s.lsBytes pl 64), s.lsTag pl, false⟩) ∧
        (r.nreq ≥ r.e.lines + r.mapLines * r.cores.length →
          ∀ c, (s.untimedStep ap).copy? id = some c → c.done = true)) ∧
      (r.begun = true → (∀ p, r.pid.bind s.panel? = some p → p.frozen = false) → r.sent < r.nreq →
        (spGet none r.staged r.sent = none ∨ s.mayWrite r r.sent = false → s.untimedStep ap = s) ∧
        (∀ l, spGet none r.staged r.sent = some l → s.mayWrite r r.sent = true → l.poison = false → r.id = id →
          (∀ c, (s.untimedStep ap).copy? id = some c → r.e.dstk = 0 → spGet none c.staged r.sent = none) ∧
          (r.e.dstk = 0 → ∃ ps, (s.untimedStep ap).pend = s.pend ++ ps ∧ ps.map (·.act) = r.dcores.map fun c =>
            .land c (r.e.doff + 64 * r.sent) (lineBytes l.data) false (.free id))))) ∧
    (∀ id, (∀ g ∈ s.pages, g.id = id → g.started = false ∨ g.bk = false ∨ s.cxlPort g.back = none) → Stays (.pgreqComplete id false) s) ∧
    (∀ id g port, (s.pages.find? fun g => g.id == id && g.started && g.bk) = some g → s.cxlPort g.back = some port →
      exec (.pgreqComplete id false) s = exec (.cxldown port) s) ∧
    (∀ id, (∀ g ∈ s.pages, g.id = id → g.over = false) → Stays (.pgreqComplete id true) s) ∧
    (∀ id g, (s.pages.find? fun g => g.id == id && g.over) = some g →
      ((∃ o ∈ s.pages, o.ap = g.ap ∧ o.started = true ∧ o.id < id) → Stays (.pgreqComplete id true) s) ∧
      ((∀ o ∈ s.pages, o.ap = g.ap → o.started = true → id ≤ o.id) →
        let u : State := { s with pages := s.pages.filter (fun o => o.id != id) }
        let space := if g.fw then fwSpace else g.tenant
        (g.revoked = false → exec (.pgreqComplete id true) s = .next ((u.markResident space g.vpage).setRes space g.vpage)) ∧
        (g.revoked = true → Does (.pgreqComplete id true) s fun t => { t with cores := s.cores } = u ∧
          t.core g.core = { s.core g.core with cpstat := (s.core g.core).cpstat ||| BitVec.ofNat 64 csREVD } ∧
          ∀ c, c ≠ g.core → t.core c = s.core c))) ∧
    (∀ id r, (s.queueReqs.find? fun r => r.id == id) = some r →
      (s.storesDue r.core r.ctx r.own.issue = true → Stays (.queueOperation id) s) ∧
      (s.storesDue r.core r.ctx r.own.issue = false → Does (.queueOperation id) s fun t =>
        (∀ q, q ∈ t.queueReqs ↔ q ∈ s.queueReqs ∧ q.id ≠ r.id) ∧
        let x := s.ctx r.core r.ctx
        (∀ why, queueTrap s r.op r.q x.tenant (isFwCtx r.core r.ctx) = some why →
          (t.ctx r.own.core r.own.ctx).cands = (s.ctx r.own.core r.own.ctx).cands ++ [r.own.cand (.queue r.q why)] ∧ t.ls = s.ls ∧
          ∀ p, p ∈ t.pend ↔ p ∈ s.pend ∧ ¬(p.own.core = r.core ∧ p.own.ctx = r.ctx ∧ p.own.issue = r.own.issue)) ∧
        (queueTrap s r.op r.q x.tenant (isFwCtx r.core r.ctx) = none →
          (r.op = .len → r.rd ≠ 0 → t.ls = s.ls ∧
            (t.ctx r.core r.ctx).rdS r.rd = BitVec.ofNat 64 (descCount (s.queueDesc r.q))) ∧
          (∀ q, r.op = .try_ q → r.rd ≠ 0 → q ≠ 0 → descCount (s.queueDesc r.q) = 0 → t.ls = s.ls ∧
            (t.ctx r.core r.ctx).rdS r.rd = 0 ∧ (t.ctx r.core r.ctx).rdQ q = false) ∧
          (r.op = .deq → descCount (s.queueDesc r.q) = 0 →
            (t.ctx r.core r.ctx).st = .blocked ∧ (t.ctx r.core r.ctx).wait = .qdeq r.q r.rd)))) ∧
    (∀ core ctx, (s.ctx core ctx).st ≠ .blocked → Stays (.contextWake core ctx) s) ∧
    (∀ core ctx v rd mk, (s.ctx core ctx).st = .blocked → (s.ctx core ctx).wait = .qgot v rd mk → Does (.contextWake core ctx) s fun t =>
      { t with cores := s.cores } = s ∧ (rd ≠ 0 → (t.ctx core ctx).rdS rd = v) ∧ (t.ctx core ctx).wait = .none ∧
      (t.ctx core ctx).st = (if s.holds core ctx then .running else .ready) ∧
      (t.ctx core ctx).next = s.now (s.clkOf core ctx) + 12 ∧ ∀ c k, (c, k) ≠ (core, ctx) → t.ctx c k = s.ctx c k) ∧
    (∀ core, (s.core core).panel.isSome = true → Does (.contextSwitch core 0) s fun t => { t with cores := s.cores } = s ∧
      ∀ k, t.ctx core k = if k ≠ 0 ∧ (s.ctx core k).st = .running then { s.ctx core k with st := .ready } else s.ctx core k) ∧
    (∀ core ctx, ctx ≠ 0 → (s.ctx core ctx).st = .ready → Does (.contextSwitch core ctx) s fun t => { t with cores := s.cores } = s ∧
      (t.core core).cur = ctx ∧
      t.ctx core ctx = { s.ctx core ctx with st := .running, next := max (s.ctx core ctx).next (s.now (s.clkOf core ctx) + 12) } ∧
      ∀ c k, (c, k) ≠ (core, ctx) → t.ctx c k = s.ctx c k) ∧
    (∀ core ctx, ctx ≠ 0 → (s.ctx core ctx).st ≠ .ready → Stays (.contextSwitch core ctx) s) ∧
    (∀ core, (s.core core).panel.isSome = true → (s.core core).rq.held < 8 → Does (.randomQueueRefill core) s fun t =>
      { t with cores := s.cores } = s ∧
      t.core core = { s.core core with rq := { (s.core core).rq with held := (s.core core).rq.held + 1 } } ∧
      ∀ c, c ≠ core → t.core c = s.core c) ∧
    (∀ core, (s.core core).panel.isNone = true ∨ (s.core core).rq.held ≥ 8 → Stays (.randomQueueRefill core) s)

/-- R298 to R313, R287, R289, R291, R177, R181, R343, R347: launch records and frames are taken, runs start, step and retire, nodes become
ready and complete, panels are placed, started, freed, saved and placed again.
Reply headers, checks of COPY nodes and places of the save image are the model's (logs 24, 25, 42, 43), and so are the release after a lost
arrival (log 31), that the rest of an overlay slot is 0 (log 72), what MSI-X sends for a vector that is raised (log 104), the order of refusals
(logs 78, 68), links between other packages and cores busy on them (logs 118, 119), and which host writes a frame's record follows (log 124). -/
def Obligations.DispatchSteps : Prop :=
  ∀ s : State,
    (∀ ten, s.takesRecords = false ∨ ten ≥ 16 → Stays (.launchRecordTake ten) s) ∧
    (∀ ten, s.takesRecords = true → ten < 16 → let r := bytesAt s.launch (256 * ten) 256
      (s.ringFull ten = true → Does (.launchRecordTake ten) s fun t => { t with launchFull := s.launchFull } = s ∧ ten ∈ t.launchFull) ∧
      (∀ code, s.ringFull ten = false → s.arrivalCode ten r = some code → Does (.launchRecordTake ten) s fun t =>
        { t with events := s.events, out := s.out, ctl := s.ctl } = s ∧ Signals s t ten ∧ OnlyRegs s t [] ∧
        t.eventsOf ten = s.eventsOf ten ++ [eventOf (recTag r) 0xFFFF 0 3 code]) ∧
      (s.ringFull ten = false → s.arrivalCode ten r = none → Does (.launchRecordTake ten) s fun t =>
        spGet none t.bufs (64 * ten + s.freeBuf ten) = some ⟨r, none, s.nextId⟩ ∧ t.events = s.events ∧ t.runs = s.runs ∧ t.hbm = s.hbm)) ∧
    (∀ port f, s.takesRecords = false ∨ port ≥ 4 ∨ frameTo port f = false ∨ framePayload f = none → Stays (.ethLaunchFrame port f) s) ∧
    (∀ port f p, s.takesRecords = true → port < 4 → frameTo port f = true → framePayload f = some p →
      (s.frameOk p = false → Does (.ethLaunchFrame port f) s fun t => OnlyCtl s t ∧
        t.ctlFld (offEthcnt port) 32 32 = min (2 ^ 32 - 1) (s.ctlFld (offEthcnt port) 32 32 + 1) ∧
        t.ctlFld (offEthcnt port) 0 32 = s.ctlFld (offEthcnt port) 0 32) ∧
      (s.frameOk p = true → Does (.ethLaunchFrame port f) s fun t =>
        t.ctlGet (offTenseq (fieldAt p 1 1)) = BitVec.ofNat 64 (fieldAt p 4 8) ∧ t.hbm = s.hbm ∧ t.runs = s.runs)) ∧
    (∀ ten, s.dispHalt = true ∨ (∃ r ∈ s.runs, r.tenant = ten) → Stays (.runStart ten) s) ∧
    (∀ ten s1 b, s.dispHalt = false → (∀ r ∈ s.runs, r.tenant ≠ ten) → s.takeRun ten = some (s1, b) →
      let l := s1.loadRun ten b.rec_
      let early := s.hostq.any fun h => h.write && decide (h.id < b.after)
      (early = true → Stays (.runStart ten) s) ∧
      (early = false → l.2 = none → s.ringFull ten = false → Does (.runStart ten) s fun t =>
        t.eventsOf ten = s.eventsOf ten ++ [eventOf (recTag b.rec_) 0xFFFF 0 3 6] ∧ t.hbm = s.hbm ∧ ∀ r ∈ t.runs, r.id ≠ s.nextId) ∧
      (∀ y, early = false → l.2 = some y → let g := l.1.formBindings ten b.rec_
        (∀ code, g.1.runCode (recPart b.rec_) b.rec_ y g.2 = some code → s.ringFull ten = false → Does (.runStart ten) s fun t =>
          t.eventsOf ten = s.eventsOf ten ++ [eventOf (recTag b.rec_) 0xFFFF 0 3 code] ∧ t.hbm = s.hbm) ∧
        (g.1.runCode (recPart b.rec_) b.rec_ y g.2 = none → Does (.runStart ten) s fun t =>
          t.events = s.events ∧ t.hbm = s.hbm ∧ ∃ r, t.runs = s.runs ++ [r] ∧ r.id = s.nextId ∧ r.tenant = ten ∧ r.rec_ = b.rec_ ∧
            r.nstep = recNstep b.rec_ ∧ r.step = 0 ∧ r.cancel = none ∧ r.bind = g.2 ∧ r.nodes = y.pat.nodes ∧ r.edges = y.pat.edges))) ∧
    (∀ run, s.liveRun run = none → Stays (.stepBegin run) s ∧ ∀ n, Stays (.nodeComplete run n) s ∧ Stays (.reuseGateDecision run n) s) ∧
    (∀ run n, s.dispHalt = true ∨ s.run? run = none → Stays (.signalNode run n) s) ∧
    (∀ run r, s.liveRun run = some r → (∀ q ∈ s.runs, q.id = run → q = r) →
      (r.rowRead = true ∨ r.step ≥ r.nstep → Stays (.stepBegin run) s) ∧
      (∀ row, r.rowRead = false → r.step < r.nstep → (s.vaRead r.tenant (recStepVa r.rec_ + 256 * r.step) 256).2 = some row →
        r.nodes ≠ [] → Does (.stepBegin run) s fun t => ∀ q ∈ t.runs, q.id = run →
          q.rowRead = true ∧ q.step = r.step ∧ q.prog.length = r.nodes.length ∧
          (∀ i < 16, q.k[i]? = some (BitVec.ofNat 64 (fieldAt row (8 * i) 8))) ∧
          ∀ i < 64, q.gslot[i]? = some (fieldAt row (128 + 2 * i) 2)) ∧
      (r.rowRead = false → r.step < r.nstep → (s.vaRead r.tenant (recStepVa r.rec_ + 256 * r.step) 256).2 = none →
        Does (.stepBegin run) s fun t => ∀ q ∈ t.runs, q.id = run → q.cancel = some (4, 15)) ∧
      (∀ n x y, r.prog[n]? = some x → r.nodes[n]? = some y →
        let completed := fun (t : State) => ∀ q ∈ t.runs, q.id = run →
          (q.prog = [] ∧ q.step = r.step + 1 ∧ q.rowRead = false) ∨ (∃ z, q.prog[n]? = some z ∧ z.st = .complete ∧ q.step = r.step)
        (y.kind = 0 → x.st = .finished → (x.pid.any s.panelDone) = true → (∀ k ∈ s.otherPkgs r y, k ∈ x.others) →
          Does (.nodeComplete run n) s completed) ∧
        (y.kind = 1 → x.st = .running → s.copyNodeDone run n = true → Does (.nodeComplete run n) s completed) ∧
        (y.kind = 0 → x.st ≠ .finished → Stays (.nodeComplete run n) s) ∧
        (y.kind = 2 → x.st = .ready → s.ringFull r.tenant = false → (∀ i < n, r.signalReady i = false) →
          Does (.signalNode run n) s fun t => completed t ∧
            t.eventsOf r.tenant = s.eventsOf r.tenant ++ [eventOf y.value.toNat n r.step 1 0]) ∧
        (y.kind ≠ 2 ∨ x.st ≠ .ready ∨ s.ringFull r.tenant = true ∨ (∃ i < n, r.signalReady i = true) → Stays (.signalNode run n) s) ∧
        (y.gated = false ∨ x.st ≠ .ready → Stays (.reuseGateDecision run n) s) ∧
        (y.gated = true → x.st = .ready → (∀ i < n, ∀ u v, r.prog[i]? = some u → r.nodes[i]? = some v → v.gated = false ∨ u.st ≠ .ready) →
          let k := nth 0xFFFF r.gslot y.gcol
          (s.slotOk r k = false → Does (.reuseGateDecision run n) s fun t => { t with runs := s.runs } = s ∧
            ∀ q ∈ t.runs, q.id = run → q.prog[n]? = some { x with st := .gated, cached := false } ∧ q.bind = r.bind) ∧
          (s.slotOk r k = true →
            let b := spPut Handle.zero r.bind y.gbind (s.slotHandle r k)
            let u := s.updRun run fun q => { q with bind := b }
            let e := s.rcHeader r.part k
            let now := u.spanLines r.tenant (spGet Handle.zero b y.ibind) (y.ilines + 1) y.ioff
            let kept := now.1.spanLines r.tenant (s.slotHandle r k) (y.ilines + 1) (16384 * (k % 4))
            let th := fp32.decode y.thresh.toNat
            let mayMatch := inRefresh y r.step = false ∧ y.kbound ≠ 0 ∧ th.isNan = false ∧ th.lt (.zero false) = false ∧
              headerMatches r n y e = true ∧ fld e 128 8 < y.kbound
            let near := fun (c w : List Byte) => let d := inputDelta y.ifmt c w
              d.isNan = false ∧ th.lt d = false
            (inRefresh y r.step = true → Does (.reuseGateDecision run n) s fun t =>
              { t with runs := s.runs, ls := s.ls, lsPoison := s.lsPoison } = s) ∧
            (¬mayMatch ∨ now.2 = none ∨ kept.2 = none ∨ (∃ c w, now.2 = some c ∧ kept.2 = some w ∧ ¬near c w) →
              Does (.reuseGateDecision run n) s fun t => t.rcHeader r.part k = descSet e 0 1 0 ∧
                ∀ q ∈ t.runs, q.id = run → q.prog[n]? = some { x with st := .gated, cached := true } ∧ q.bind = b) ∧
            (∀ c w, mayMatch → y.kbound < 256 → now.2 = some c → kept.2 = some w → near c w →
              Does (.reuseGateDecision run n) s fun t => completed t ∧
                t.rcHeader r.part k = descSet (descSet e 96 32 r.step) 128 8 (fld e 128 8 + 1)))))) ∧
    (∀ run r, (s.runs.find? fun r => r.id == run) = some r →
      (s.mayRetire r = none → Stays (.runRetire run) s) ∧
      (∀ x, s.mayRetire r = some x → Does (.runRetire run) s fun t =>
        { t with runs := s.runs, events := s.events, out := s.out, spans := s.spans, ctl := s.ctl } = s ∧ OnlyRegs s t [] ∧
        t.runs = s.runs.filter (fun q => q.id != run) ∧
        t.eventsOf r.tenant = s.eventsOf r.tenant ++ [eventOf (recTag r.rec_) 0xFFFF x.1 x.2.1 x.2.2])) ∧
    (s.dispHalt = true → Stays .panelPlace s ∧ ∀ p, Stays (.panelResume p) s) ∧
    (∀ c cs r d n, s.dispHalt = false → s.candidates 0 = c :: cs → s.run? c.run = some r → s.placement r.part c.rec_ [] = some d →
      c.task = .node n → Does .panelPlace s fun t =>
        { t with panels := s.panels, runs := s.runs, copies := s.copies, nextPid := s.nextPid, nextId := s.nextId, pass := s.pass } = s ∧
        t.passOf c.tenant = c.vft ∧ t.nextPid = s.nextPid + 1 ∧ ∃ p, t.panels = s.panels ++ [p] ∧ p.pid = s.nextPid ∧ p.st = .placed ∧
          p.run = r.id ∧ p.node = n ∧ p.tenant = r.tenant ∧ p.dx = d.1 ∧ p.dy = d.2 ∧ p.pcyc = 0 ∧ p.phbias = ((d.1 + 16 * d.2) % 128).toNat ∧
          p.ranks = placedRanks c.rec_ d) ∧
    (∀ pid v c cs r d, s.dispHalt = false → (s.saved.find? fun v => v.panel.pid == pid) = some v →
      s.candidates v.panel.part = c :: cs → c.task = .resume pid → s.run? c.run = some r → s.placement r.part c.rec_ [] = some d →
      Does (.panelResume pid) s fun t =>
        { t with panels := s.panels, copies := s.copies, chans := s.chans, saved := s.saved, pass := s.pass, agenda := s.agenda } = s ∧
        (∃ l, t.agenda = s.agenda ++ l) ∧ ∃ p, t.panels = s.panels ++ [p] ∧ p.pid = v.panel.pid ∧ p.st = .placed ∧ p.pcyc = v.panel.pcyc ∧ p.ranks = placedRanks c.rec_ d) ∧
    (∀ pid p c i r code, s.panel? pid = some p → p.st = .placed → s.dispHalt = false → s.nextOverlay p = some (c, i) →
      s.run? p.run = some r → (s.core c).panel = none →
      (thenRead (s.readImage r.tenant (recImage r.rec_)) fun s1 im => match im.codeSec (nth 0 p.ovl i) with
        | some k => s1.readSec r.tenant im k | none => (s1, none)).2 = some code →
      Does (.overlayLoad pid) s fun t =>
        (∀ j < 0x4000, spGet 0 (t.core c).istore (0x4000 * i + j) = code.getD j 0) ∧
        (spGet 0 (t.core c).ovtag i).getLsbD 40 = true ∧ (spGet 0 (t.core c).ovtag i).extractLsb' 0 32 = p.image ∧
        (t.core c).sp = (s.core c).sp ∧ (∀ k, k ≠ c → t.core k = s.core k) ∧ t.hbm = s.hbm ∧ t.ls = s.ls) ∧
    (∀ pid p, s.panel? pid = some p → p.st ≠ .placed → Stays (.overlayLoad pid) s) ∧
    (∀ pid p, s.panel? pid = some p → s.startsNow p = false → Stays (.panelStart pid) s) ∧
    (∀ pid p r, s.panel? pid = some p → s.startsNow p = true → s.run? p.run = some r → p.hedge = false →
      s.powerFreezes { p with startS := s.scyc } (s.scyc / 1024) = false → s.copies = [] → s.pend = [] → (p.mine.map fun x => x.1.core).Nodup → Does (.panelStart pid) s fun t =>
        (∃ q, t.panel? pid = some q ∧ q.st = .running ∧ q.startS = s.scyc ∧ q.pcyc = 0 ∧ (p.frz = [] → q.frozen = false)) ∧
        (∀ x ∈ p.mine, t.core x.1.core = startCore p r (s.core x.1.core) x.1.core x.2) ∧
        (∀ c, (∀ x ∈ p.mine, x.1.core ≠ c) → t.core c = s.core c) ∧ t.hbm = s.hbm ∧ t.ls = s.ls) ∧
    (∀ core p, s.panelOn core = some p → (s.nextFree ≠ some core → Stays (.coreFree core) s) ∧
      (s.nextFree = some core → Does (.coreFree core) s fun t =>
        let x := s.core core
        let y := t.core core
        y.panel = none ∧ (∀ k, isFwCtx core k = false → (y.ctx k).st = .idle) ∧ y.sp = x.sp ∧ y.istore = x.istore ∧ y.ovtag = x.ovtag ∧
        y.v = x.v ∧ y.t = x.t ∧ y.acc = x.acc ∧ t.hbm = s.hbm ∧ (∀ c, c ≠ core → (t.core c).panel = (s.core c).panel))) ∧
    (∀ pid p, s.panel? pid = some p → p.atP = true → Does (.preemptSave pid) s fun t =>
      (∃ q, t.panel? pid = some q ∧ q.st = .saved ∧ q.pcyc = p.pcyc) ∧ (∀ x ∈ t.pend, x.clk ≠ .panel pid) ∧
      (∃ v, t.saved = s.saved ++ [v] ∧ v.panel.pid = pid ∧ v.panel.pcyc = p.pcyc ∧
        ((∀ x ∈ s.pend, x.clk = .panel pid → ∀ h n rd, x.act ≠ .pgAsk h n rd) → v.pend = s.pend.filter (fun x => x.clk == .panel pid)) ∧
        v.epoch = s.epochOf p.tenant ∧ v.complete = []) ∧ t.hbm = s.hbm) ∧
    (∀ pid p, s.panel? pid = some p → p.atP = false → Stays (.preemptSave pid) s) ∧
    (∀ pid core p v, s.panel? pid = some p → (s.saved.find? fun v => v.panel.pid == pid) = some v → core ∈ p.cores → p.st = .saved →
      core ∉ v.complete → s.drained core = true → s.settled v = true → (s.core core).panel = some pid → Does (.saveComplete pid core) s fun t =>
        (t.core core).panel = none ∧ (∀ k, isFwCtx core k = false → (t.ctx core k).st = .idle) ∧
        (∃ w, (t.saved.find? fun v => v.panel.pid == pid) = some w ∧ w.complete = v.complete ++ [core] ∧
          w.cores.length = v.cores.length) ∧
        (v.complete.length + 1 = v.cores.length → t.panel? pid = none)) ∧
    (∀ pid p j at_, s.panel? pid = some p → s.barReleaseAt p = some (j, at_) →
      (p.pcyc < at_ → Stays (.barrierRelease pid) s) ∧
      (at_ ≤ p.pcyc → Does (.barrierRelease pid) s fun t => { t with cores := s.cores } = s ∧
        (∀ x ∈ p.mine, let h := s.ctx x.1.core 0
          let y := t.ctx x.1.core 0
          (h.wait = .bar ∧ h.bars = j → y.wait = .none ∧ y.next = p.pcyc ∧ y.pc = h.pc ∧ y.s = h.s ∧
            (y.cands = h.cands ↔ s.barMissed p j = [])) ∧
          (¬(h.wait = .bar ∧ h.bars = j) → y = h)) ∧
        ∀ c k, k ≠ 0 → t.ctx c k = s.ctx c k)) ∧
    (∀ core ctx sc rd at_, (s.ctx core ctx).wait = .fence sc rd at_ →
      (s.coveredDue core ctx at_ sc = true → Stays (.fenceDrainDone core ctx) s) ∧
      (s.coveredDue core ctx at_ sc = false → Does (.fenceDrainDone core ctx) s fun t =>
        { t with pend := s.pend, cores := s.cores } = s ∧ t.ctx core ctx = { s.ctx core ctx with wait := .none } ∧
        (∃ q, t.pend = s.pend ++ [q] ∧ q.act = .fenceSt ctx rd sc ∧ q.own.issue = at_ ∧ (sc = 2 → q.due = s.now (s.clkOf core ctx) + 8) ∧
          (sc = 3 → q.due = s.now (s.clkOf core ctx) + 24) ∧ (sc = 4 → q.due = s.now (s.clkOf core ctx) + 48)) ∧
        ∀ c k, (c, k) ≠ (core, ctx) → t.ctx c k = s.ctx c k))

/-- R315, R317 to R320, R322, R324, R328 to R330: the hedge starts, SCYC is loaded once, markers measure the drift, panels freeze, and power and
temperature limit the part.
A start marker after LOST is the model's reading (log 44), and so are REFV and TMEAS before a marker (log 79), the mean of the first intervals
(log 13), the cycles in which a power interval ends and the temperature is sampled (log 109), what FREEZE_BEGIN and FREEZE_END announce (log 32),
what MSI-X sends for a vector that is raised (log 104) and an entry for each panel at the thermal trip (log 120). -/
def Obligations.HedgeSteps : Prop :=
  ∀ s : State,
    (∀ port lat peer, (port ≥ s.gramer → Stays (.linkTraining port lat peer) s) ∧
      (port < s.gramer → Does (.linkTraining port lat peer) s fun t =>
        { t with linklat := s.linklat, portUpAt := s.portUpAt, portDownAt := s.portDownAt } = s ∧
        (∀ q, q ≠ port → spGet 0 t.linklat q = spGet 0 s.linklat q ∧ spGet 0 t.portUpAt q = spGet 0 s.portUpAt q ∧
          spGet 0 t.portDownAt q = spGet 0 s.portDownAt q) ∧
        (lat > 2048 → t.portUp port = false ∧ t.portLat port = s.portLat port ∧
          (s.portUp port = true → spGet 0 t.portDownAt port = s.scyc)) ∧
        (lat ≤ 2048 → t.portUp port = true ∧ t.portLat port = max 16 lat ∧ t.portPeer port = peer % 64 ∧
          spGet 0 t.portUpAt port = s.scyc))) ∧
    (s.npkg = 1 → Does .syncctlStart s fun t => { t with ctl := s.ctl, drift := s.drift } = s ∧ t.isRoot = true ∧
      t.ctlFld offSyncctl 15 1 = 1 ∧ (spGet 0 t.drift 0).getLsbD 39 = false ∧ (spGet 0 t.drift 3).extractLsb' 32 16 = 0) ∧
    (s.npkg ≠ 1 → s.isRoot = true → Does .syncctlStart s fun t => { t with ctl := s.ctl, drift := s.drift } = s ∧
      t.ctlFld offSyncctl 15 1 = 1 ∧ (spGet 0 t.drift 0).getLsbD 39 = false) ∧
    (s.npkg ≠ 1 → s.isRoot = false → (s.hedgeLoaded = true → Stays .syncctlStart s) ∧
      (s.hedgeLoaded = false → Does .syncctlStart s fun t => OnlyCtl s t ∧ SetsField s t offSyncctl 15 1 1)) ∧
    (∀ port v, s.portUp port = false ∨ s.isRoot = true ∨ s.npkg = 1 ∨ s.lowerMarker port = true ∨
        (s.hedgeLoaded = true ∧ (spGet 0 s.drift 0).getLsbD 39 = false) → Stays (.startMarker port v) s) ∧
    (∀ port (v : BitVec 64), port < 32 → s.portUp port = true → s.isRoot = false → s.npkg ≠ 1 → s.lowerMarker port = false →
      s.hedgeLoaded = false → Does (.startMarker port v) s fun t =>
        t.scyc = v.toNat + s.portLat port ∧ t.hedgeLoaded = true ∧ t.ctlFld offSyncctl 15 1 = 0 ∧
        (spGet 0 t.drift 0).getLsbD 39 = false ∧ (spGet 0 t.drift 0).extractLsb' 32 5 = BitVec.ofNat 5 port ∧
        t.markerFrom = some port ∧ t.out = s.out ∧ t.hbm = s.hbm ∧ t.ls = s.ls ∧ t.panels = s.panels) ∧
    (∀ port (v : BitVec 64), port < 32 → s.portUp port = true → s.isRoot = false → s.npkg ≠ 1 → s.lowerMarker port = false →
      s.hedgeLoaded = true → (spGet 0 s.drift 0).getLsbD 39 = true → Does (.startMarker port v) s fun t =>
        t.scyc = s.scyc ∧ (spGet 0 t.drift 0).getLsbD 39 = false ∧ t.markerFrom = some port ∧ t.cores = s.cores) ∧
    (∀ port (err : BitVec 32), s.portUp port = true → s.isRoot = false → s.npkg ≥ 2 → s.hedgeLoaded = true →
      fld (spGet 0 s.drift 0).toNat 32 5 = port → Does (.syncMarker port err) s fun t =>
        (spGet 0 t.drift 0).extractLsb' 0 32 = err ∧ (spGet 0 t.drift 0).getLsbD 37 = true ∧
        spGet 0 t.drift 2 = BitVec.ofNat 64 (s.markerSent port) ∧
        fld (spGet 0 t.drift 3).toNat 32 16 = max (fld (spGet 0 s.drift 3).toNat 32 16) (min err.toInt.natAbs 0xFFFF) ∧
        (err.toInt.natAbs ≥ 32768 → (spGet 0 t.drift 0).getLsbD 39 = true) ∧
        (err.toInt.natAbs < 32768 → { t with drift := s.drift } = s)) ∧
    (∀ port err, s.portUp port = false ∨ s.isRoot = true ∨ s.npkg < 2 ∨ s.hedgeLoaded = false ∨
      fld (spGet 0 s.drift 0).toNat 32 5 ≠ port → Stays (.syncMarker port err) s) ∧
    Stays (.syncloss false) s ∧
    Does (.syncloss true) s (fun t => (spGet 0 t.drift 0).getLsbD 39 = true ∧ t.hbm = s.hbm ∧
      ((∀ p ∈ s.panels, p.hedge = false) → { t with drift := s.drift, agenda := s.agenda } = s)) ∧
    (∀ pid, Does (.freezeBegin pid) s fun t => { t with panels := s.panels } = s ∧
      ∀ p, s.panel? pid = some p → ∃ q, t.panel? pid = some q ∧
        (p.st = .running ∨ p.st = .ended → q.frozen = true ∧ ⟨s.scyc, some openStop⟩ ∈ q.frz ∧ q.pcyc = p.nextCyc) ∧
        (p.st = .placed → q = { p with frz := p.frz ++ [⟨s.scyc, some openStop⟩] }) ∧
        (p.st ≠ .running → p.st ≠ .ended → p.st ≠ .placed → q = p)) ∧
    (∀ pid, Does (.freezeEnd pid) s fun t => { t with panels := s.panels } = s ∧
      ∀ p, s.panel? pid = some p → ∃ q, t.panel? pid = some q ∧ { q with frz := p.frz } = p ∧
        q.frz = p.frz.map (fun w => (if w.stop = some openStop then
          { w with stop := some (w.start + max 128 ((s.scyc + (if p.hedge then 1024 else 0) - w.start + 127) / 128 * 128)) } else w))) ∧
    (s.scyc % 175000 ≠ 0 → ∀ avg : BitVec 32, Stays (.powerIntervalEnd avg) s) ∧
    (s.scyc % 175000 = 0 → ∀ avg : BitVec 32, Does (.powerIntervalEnd avg) s fun t =>
      { t with ctl := s.ctl, power10 := s.power10, fdutyAt := s.fdutyAt } = s ∧
      (s.power10.length ≤ 10 → t.power10.length ≤ 10 ∧ t.power10.getLast? = some avg.toNat) ∧
      t.ctlGet offPwravg = BitVec.ofNat 64 (t.power10.sum / 10) ∧
      (let lim := 1000 * s.ctlFld offPwrctl 0 12
       let f := s.ctlFld offPwrctl 12 3
       t.ctlFld offPwrctl 12 3 = if s.hot then 7 else if avg.toNat > lim then min 7 (f + 1)
         else if 100 * avg.toNat < 95 * lim then f - 1 else f) ∧
      (t.ctlFld offPwrctl 15 1 = 0 ↔ t.ctlFld offPwravg 0 32 > 1000 * s.ctlFld offPwrctl 0 12 ∨
        s.ctlFld offTemp 0 8 ≥ s.ctlFld offTemp 8 8)) ∧
    (s.scyc % 8192 ≠ 0 → ∀ tj : BitVec 8, Stays (.temperatureSample tj) s) ∧
    (s.scyc % 8192 = 0 → ∀ tj : BitVec 8, Does (.temperatureSample tj) s fun t => t.ctlFld offTemp 0 8 = tj.toNat ∧
      (tj.toNat ≥ 120 → let hit := s.panels.filter fun p => p.st == .running || p.st == .placed
        let n := max 1 hit.length
        t.power = false ∧ bytesAt t.nv 8 2 = [1, 0] ∧
          (s.frq.length + n ≤ 256 → ∃ es, t.frq = s.frq ++ es ∧ (hit = [] → ∃ e, es = [e] ∧ EntryIs s e 15 0 none true 0) ∧
            (hit ≠ [] → EntriesOf s es 15 hit 0)) ∧
          (s.msixMasked 17 = false → t.out = s.out ++ List.replicate n (s.msixOut 17)) ∧
          (s.msixMasked 17 = true → t.out = s.out ∧ (t.ctlGet offPba).getLsbD 17 = true)) ∧
      (tj.toNat < 120 → t.power = s.power ∧
        (tj.toNat ≥ s.ctlFld offTemp 16 8 → t.hot = true ∧ (s.hot = false → t.ctlFld offPwrctl 12 3 = 7)) ∧
        (tj.toNat < s.ctlFld offTemp 16 8 → tj.toNat < s.ctlFld offTemp 8 8 → t.hot = false) ∧
        (t.ctlFld offPwrctl 15 1 = 0 ↔ s.ctlFld offPwravg 0 32 > 1000 * s.ctlFld offPwrctl 0 12 ∨
          tj.toNat ≥ s.ctlFld offTemp 8 8)) ∧
      t.hbm = s.hbm ∧ t.ls = s.ls ∧ t.cores = s.cores)

/-! ## What holds of every step -/

/-- Every instruction answers a next state in every state: nothing stops the machine but the loss of power (R330). -/
def Obligations.NothingStops : Prop :=
  (∀ (i : Instr) (s : State), ∃ t, exec i s = .next t) ∧
  (∀ s : State, s.power = true → ∃ t, step s = .next t) ∧
  (∀ s : State, s.power = false → (∀ x ∈ s.agenda, x.ev = .instr .fundamentalReset → s.schedDue x = false) → step s = .fault .powerOff)

/-- R315: SCYC counts up by one with each cycle; besides a fundamental reset and a start marker no instruction sets, steps or holds it. -/
def Obligations.ScheduleCountKept : Prop :=
  ∀ (i : Instr) (s t : State), exec i s = .next t → i ≠ .fundamentalReset → (∀ port v, i ≠ .startMarker port v) → t.scyc = s.scyc

/-- Every step keeps the memories of the package in their canonical form: main memory, the latent stores, the second tier, the non-volatile
store, the launch windows, the tenant keys, the attestation buffer, what partition changes keep for the host, and every core's scratchpad, its
poison tags and its instruction store.
The form is the model's own (log 3). -/
def Obligations.MemoryStaysCanonical : Prop :=
  ∀ s t : State, Memory.wf s = true → step s = .next t → Memory.wf t = true

/-- R315, R330, R358, Table 7.1: what a reset leaves, as the manual states it.
The canonical form of memory is the model's own (log 3). -/
def Obligations.ResetState : Prop :=
  let s := State.reset
  Memory.wf s = true ∧ s.scyc = 0 ∧ s.bootState = 0 ∧ s.ctlFld offBootstat 7 1 = 0 ∧ s.panels = [] ∧ s.runs = [] ∧
  s.attM = 0 ∧ s.ctlFld offPwrctl 12 3 = 0 ∧ s.ctlFld offPwrctl 15 1 = 1 ∧ s.ctlFld offSyncctl 8 7 = 1 ∧
  (∀ t < 16, s.ctlGet (offTencfg t) = 8) ∧ (∀ i, s.portUp i = false) ∧ (∀ sp, s.epochOf sp = 0) ∧
  (∀ c k h, (s.ctx c k).rdH h = Handle.zero) ∧ (∀ c, (s.core c).panel = none) ∧ s.nextIssue = none
end

