-- ==== Sys2Proof/Laws/Sparse.lean ====
section
/-!
SUPPORT. What the operations on sparse maps do: a read after a write, and the canonical form, which every one of them keeps.
-/
namespace Sys2Proof.Machine

variable {α : Type}

/-! ## Reads -/

theorem spGet_erase_same (d : α) (m : Sparse α) (k : Nat) : spGet d (spErase m k) k = d := by
  induction m with
  | nil => rfl
  | cons e m ih =>
    obtain ⟨j, v⟩ := e
    by_cases h : j = k <;> simp [spErase, spGet, h, ih]

theorem spGet_erase_ne (d : α) (m : Sparse α) {j k : Nat} (h : j ≠ k) : spGet d (spErase m k) j = spGet d m j := by
  induction m with
  | nil => rfl
  | cons e m ih =>
    obtain ⟨i, v⟩ := e
    by_cases h1 : i = k
    · subst h1; simp [spErase, spGet, ih, h.symm]
    · by_cases h2 : i = j
      · subst h2; simp [spErase, spGet, h1]
      · simp [spErase, spGet, h1, h2, ih]

theorem spGet_insert_same (d : α) (m : Sparse α) (k : Nat) (v : α) : spGet d (spInsert k v (spErase m k)) k = v := by
  induction m with
  | nil => simp [spErase, spInsert, spGet]
  | cons e m ih =>
    obtain ⟨j, u⟩ := e
    by_cases h : j = k
    · simp [spErase, h, ih]
    · by_cases h1 : k < j <;> simp [spErase, h, spInsert, h1, spGet, ih]

theorem spGet_insert_ne (d : α) (m : Sparse α) {j k : Nat} (v : α) (h : j ≠ k) :
    spGet d (spInsert k v m) j = spGet d m j := by
  induction m with
  | nil => simp [spInsert, spGet, h.symm]
  | cons e m ih =>
    obtain ⟨i, u⟩ := e
    by_cases h1 : k < i
    · simp [spInsert, h1, spGet, h.symm]
    · by_cases h2 : i = j
      · subst h2; simp [spInsert, h1, spGet]
      · simp [spInsert, h1, spGet, h2, ih]

@[simp] theorem spGet_nil (d : α) (k : Nat) : spGet d [] k = d := rfl

theorem mem_erase {m : Sparse α} {k : Nat} {e : Nat × α} (h : e ∈ spErase m k) : e ∈ m ∧ e.1 ≠ k := by
  induction m with
  | nil => simp [spErase] at h
  | cons x m ih =>
    obtain ⟨j, v⟩ := x
    by_cases h1 : j = k
    · simp only [spErase, h1, if_true] at h
      exact ⟨List.mem_cons_of_mem _ (ih h).1, (ih h).2⟩
    · simp only [spErase, h1, if_false, List.mem_cons] at h
      rcases h with rfl | h
      · exact ⟨List.mem_cons_self .., h1⟩
      · exact ⟨List.mem_cons_of_mem _ (ih h).1, (ih h).2⟩

theorem mem_insert {k : Nat} {v : α} {m : Sparse α} {e : Nat × α} (h : e ∈ spInsert k v m) : e = (k, v) ∨ e ∈ m := by
  induction m with
  | nil => simpa [spInsert] using h
  | cons x m ih =>
    obtain ⟨j, u⟩ := x
    by_cases h1 : k < j
    · simpa [spInsert, h1] using h
    · simp only [spInsert, h1, if_false, List.mem_cons] at h
      rcases h with rfl | h
      · exact .inr (List.mem_cons_self ..)
      · exact (ih h).imp_right (List.mem_cons_of_mem _)

variable [DecidableEq α]

/-- A read of the place written gives the value written. -/
@[simp] theorem spGet_put_same (d : α) (m : Sparse α) (k : Nat) (v : α) : spGet d (spPut d m k v) k = v := by
  unfold spPut
  by_cases h : v = d
  · simp [h, spGet_erase_same]
  · simp [h, spGet_insert_same]

/-- A write leaves every other place alone. -/
theorem spGet_put_ne (d : α) (m : Sparse α) {j k : Nat} (v : α) (h : j ≠ k) : spGet d (spPut d m k v) j = spGet d m j := by
  unfold spPut
  by_cases h1 : v = d
  · simp [h1, spGet_erase_ne d m h]
  · simp [h1, spGet_insert_ne d _ v h, spGet_erase_ne d m h]

theorem spGet_put (d : α) (m : Sparse α) (j k : Nat) (v : α) :
    spGet d (spPut d m k v) j = if j = k then v else spGet d m j := by
  by_cases h : j = k
  · simp [h]
  · simp [h, spGet_put_ne d m v h]

/-! ## The canonical form -/

/-- Every key lies above k, and the map is canonical. -/
def Above (d : α) (k : Nat) (m : Sparse α) : Prop := spWf d m = true ∧ ∀ e ∈ m, k < e.1

theorem spWf_cons (d : α) (j : Nat) (v : α) (m : Sparse α) : spWf d ((j, v) :: m) = true ↔ v ≠ d ∧ Above d j m := by
  induction m generalizing j v with
  | nil => simp [spWf, Above]
  | cons e m ih =>
    obtain ⟨k, u⟩ := e
    simp only [spWf, Bool.and_eq_true, decide_eq_true_eq, Above, List.mem_cons, forall_eq_or_imp]
    constructor
    · rintro ⟨⟨h1, h2⟩, h3⟩
      exact ⟨h1, h3, h2, fun e he => Nat.lt_trans h2 (((ih k u).1 h3).2.2 e he)⟩
    · rintro ⟨h1, h3, h2, _⟩
      exact ⟨⟨h1, h2⟩, h3⟩

theorem spWf_erase (d : α) (m : Sparse α) (k : Nat) (h : spWf d m = true) : spWf d (spErase m k) = true := by
  induction m with
  | nil => rfl
  | cons e m ih =>
    obtain ⟨j, v⟩ := e
    have h1 := (spWf_cons d j v m).1 h
    by_cases h2 : j = k
    · simpa [spErase, h2] using ih h1.2.1
    · simp only [spErase, h2, if_false]
      exact (spWf_cons ..).2 ⟨h1.1, ih h1.2.1, fun e he => h1.2.2 e (mem_erase he).1⟩

theorem spWf_insert (d : α) (m : Sparse α) (k : Nat) (v : α) (hv : v ≠ d) (h : spWf d m = true) (hk : ∀ e ∈ m, e.1 ≠ k) :
    spWf d (spInsert k v m) = true := by
  induction m with
  | nil => simpa [spInsert, spWf] using hv
  | cons e m ih =>
    obtain ⟨j, u⟩ := e
    have h1 := (spWf_cons d j u m).1 h
    by_cases h2 : k < j
    · simp only [spInsert, h2, if_true]
      refine (spWf_cons ..).2 ⟨hv, h, fun e he => ?_⟩
      rcases List.mem_cons.1 he with rfl | he
      · exact h2
      · exact Nat.lt_trans h2 (h1.2.2 e he)
    · simp only [spInsert, h2, if_false]
      refine (spWf_cons ..).2 ⟨h1.1, ih h1.2.1 fun e he => hk e (List.mem_cons_of_mem _ he), fun e he => ?_⟩
      rcases mem_insert he with rfl | he
      · have := hk (j, u) (List.mem_cons_self ..)
        simp only [ne_eq] at this ⊢
        omega
      · exact h1.2.2 e he

/-- A write keeps the canonical form. -/
theorem spWf_put (d : α) (m : Sparse α) (k : Nat) (v : α) (h : spWf d m = true) : spWf d (spPut d m k v) = true := by
  unfold spPut
  by_cases hv : v = d
  · simpa [hv] using spWf_erase d m k h
  · simpa [hv] using spWf_insert d _ k v hv (spWf_erase d m k h) fun e he => (mem_erase he).2

theorem spWf_filter (d : α) (m : Sparse α) (p : Nat × α → Bool) (h : spWf d m = true) : spWf d (m.filter p) = true := by
  induction m with
  | nil => rfl
  | cons e m ih =>
    obtain ⟨j, v⟩ := e
    have h1 := (spWf_cons d j v m).1 h
    by_cases h2 : p (j, v) = true
    · simp only [List.filter_cons, h2, if_true]
      exact (spWf_cons ..).2 ⟨h1.1, ih h1.2.1, fun e he => h1.2.2 e (List.mem_filter.1 he).1⟩
    · simpa [List.filter_cons, h2] using ih h1.2.1

/-! ## Bytes -/

/-- Storing bytes keeps the canonical form. -/
theorem spWf_putBytes (m : Sparse Byte) (a : Nat) (bs : List Byte) (h : spWf 0 m = true) : spWf 0 (putBytes m a bs) = true := by
  induction bs generalizing m a with
  | nil => exact h
  | cons b bs ih => exact ih _ _ (spWf_put 0 m a b h)

theorem spWf_putMasked (m : Sparse Byte) (a : Nat) (ks : List Bool) (bs : List Byte) (h : spWf 0 m = true) :
    spWf 0 (putMasked m a ks bs) = true := by
  induction ks generalizing m a bs with
  | nil => exact h
  | cons k ks ih =>
    cases bs with
    | nil => exact h
    | cons b bs =>
      simp only [putMasked]
      split
      · exact ih _ _ _ (spWf_put 0 m a b h)
      · exact ih _ _ _ h

/-- A store of bytes leaves every byte outside it alone. -/
theorem spGet_putBytes_out (m : Sparse Byte) (a : Nat) (bs : List Byte) (k : Nat) (h : k < a ∨ a + bs.length ≤ k) :
    spGet 0 (putBytes m a bs) k = spGet 0 m k := by
  induction bs generalizing m a with
  | nil => rfl
  | cons b bs ih =>
    simp only [List.length_cons] at h
    rw [putBytes, ih _ _ (by omega), spGet_put_ne]
    omega

/-- Byte i of a store reads back. -/
theorem spGet_putBytes_in (m : Sparse Byte) (a : Nat) (bs : List Byte) (i : Nat) (h : i < bs.length) :
    spGet 0 (putBytes m a bs) (a + i) = bs[i] := by
  induction bs generalizing m a i with
  | nil => simp at h
  | cons b bs ih =>
    rw [putBytes]
    cases i with
    | zero => rw [spGet_putBytes_out _ _ _ _ (by omega)]; simp
    | succ i =>
      have := ih (spPut 0 m a b) (a + 1) i (by simpa using h)
      simpa [Nat.add_assoc, Nat.add_comm 1 i] using this

/-- The bytes stored read back. -/
theorem bytesAt_putBytes (m : Sparse Byte) (a : Nat) (bs : List Byte) : bytesAt (putBytes m a bs) a bs.length = bs := by
  apply List.ext_getElem
  · simp [bytesAt]
  · intro i h1 h2
    simpa only [bytesAt, List.getElem_map, List.getElem_range] using spGet_putBytes_in m a bs i h2

/-- A little-endian number of n bytes reads back. -/
theorem leNat_natLe (n v : Nat) : leNat (natLe n v) = v % 256 ^ n := by
  induction n generalizing v with
  | zero => simp [natLe, leNat, Nat.mod_one]
  | succ n ih =>
    simp only [natLe, leNat, ih, BitVec.toNat_ofNat]
    rw [show (2 : Nat) ^ 8 = 256 by rfl, Nat.pow_succ, Nat.mul_comm (256 ^ n), Nat.mod_mul]

end Sys2Proof.Machine
end

