-- ==== Sys2Proof/Laws/State.lean ====
section
/-!
SUPPORT. What the updates of the state leave alone: one lemma per field and update, by rfl.
-/
namespace Sys2Proof.Machine

/-! ## A core -/

@[simp] theorem State.setCore_variant (s : State) (c : Nat) (x : CoreSt) : (s.setCore c x).variant = s.variant := rfl
@[simp] theorem State.setCore_power (s : State) (c : Nat) (x : CoreSt) : (s.setCore c x).power = s.power := rfl
@[simp] theorem State.setCore_scyc (s : State) (c : Nat) (x : CoreSt) : (s.setCore c x).scyc = s.scyc := rfl
@[simp] theorem State.setCore_agenda (s : State) (c : Nat) (x : CoreSt) : (s.setCore c x).agenda = s.agenda := rfl
@[simp] theorem State.setCore_pend (s : State) (c : Nat) (x : CoreSt) : (s.setCore c x).pend = s.pend := rfl
@[simp] theorem State.setCore_links (s : State) (c : Nat) (x : CoreSt) : (s.setCore c x).links = s.links := rfl
@[simp] theorem State.setCore_cur (s : State) (c : Nat) (x : CoreSt) : (s.setCore c x).cur = s.cur := rfl
@[simp] theorem State.setCore_free (s : State) (c : Nat) (x : CoreSt) : (s.setCore c x).free = s.free := rfl
@[simp] theorem State.setCore_panels (s : State) (c : Nat) (x : CoreSt) : (s.setCore c x).panels = s.panels := rfl
@[simp] theorem State.setCore_nextPid (s : State) (c : Nat) (x : CoreSt) : (s.setCore c x).nextPid = s.nextPid := rfl
@[simp] theorem State.setCore_hbm (s : State) (c : Nat) (x : CoreSt) : (s.setCore c x).hbm = s.hbm := rfl
@[simp] theorem State.setCore_hbmPoison (s : State) (c : Nat) (x : CoreSt) : (s.setCore c x).hbmPoison = s.hbmPoison := rfl
@[simp] theorem State.setCore_hbmUndef (s : State) (c : Nat) (x : CoreSt) : (s.setCore c x).hbmUndef = s.hbmUndef := rfl
@[simp] theorem State.setCore_hbmFaulty (s : State) (c : Nat) (x : CoreSt) : (s.setCore c x).hbmFaulty = s.hbmFaulty := rfl
@[simp] theorem State.setCore_ls (s : State) (c : Nat) (x : CoreSt) : (s.setCore c x).ls = s.ls := rfl
@[simp] theorem State.setCore_lsPoison (s : State) (c : Nat) (x : CoreSt) : (s.setCore c x).lsPoison = s.lsPoison := rfl
@[simp] theorem State.setCore_second (s : State) (c : Nat) (x : CoreSt) : (s.setCore c x).second = s.second := rfl
@[simp] theorem State.setCore_secondPoison (s : State) (c : Nat) (x : CoreSt) : (s.setCore c x).secondPoison = s.secondPoison := rfl
@[simp] theorem State.setCore_nv (s : State) (c : Nat) (x : CoreSt) : (s.setCore c x).nv = s.nv := rfl
@[simp] theorem State.setCore_ctl (s : State) (c : Nat) (x : CoreSt) : (s.setCore c x).ctl = s.ctl := rfl
@[simp] theorem State.setCore_live (s : State) (c : Nat) (x : CoreSt) : (s.setCore c x).live = s.live := rfl
@[simp] theorem State.setCore_launch (s : State) (c : Nat) (x : CoreSt) : (s.setCore c x).launch = s.launch := rfl
@[simp] theorem State.setCore_tenkey (s : State) (c : Nat) (x : CoreSt) : (s.setCore c x).tenkey = s.tenkey := rfl
@[simp] theorem State.setCore_launchFull (s : State) (c : Nat) (x : CoreSt) : (s.setCore c x).launchFull = s.launchFull := rfl
@[simp] theorem State.setCore_events (s : State) (c : Nat) (x : CoreSt) : (s.setCore c x).events = s.events := rfl
@[simp] theorem State.setCore_failrec (s : State) (c : Nat) (x : CoreSt) : (s.setCore c x).failrec = s.failrec := rfl
@[simp] theorem State.setCore_faq (s : State) (c : Nat) (x : CoreSt) : (s.setCore c x).faq = s.faq := rfl
@[simp] theorem State.setCore_frq (s : State) (c : Nat) (x : CoreSt) : (s.setCore c x).frq = s.frq := rfl
@[simp] theorem State.setCore_out (s : State) (c : Nat) (x : CoreSt) : (s.setCore c x).out = s.out := rfl
@[simp] theorem State.setCore_epochs (s : State) (c : Nat) (x : CoreSt) : (s.setCore c x).epochs = s.epochs := rfl
@[simp] theorem State.setCore_spans (s : State) (c : Nat) (x : CoreSt) : (s.setCore c x).spans = s.spans := rfl
@[simp] theorem State.setCore_walks (s : State) (c : Nat) (x : CoreSt) : (s.setCore c x).walks = s.walks := rfl
@[simp] theorem State.setCore_shoots (s : State) (c : Nat) (x : CoreSt) : (s.setCore c x).shoots = s.shoots := rfl
@[simp] theorem State.setCore_reqs (s : State) (c : Nat) (x : CoreSt) : (s.setCore c x).reqs = s.reqs := rfl
@[simp] theorem State.setCore_nextId (s : State) (c : Nat) (x : CoreSt) : (s.setCore c x).nextId = s.nextId := rfl
@[simp] theorem State.setCore_pchs (s : State) (c : Nat) (x : CoreSt) : (s.setCore c x).pchs = s.pchs := rfl
@[simp] theorem State.setCore_tests (s : State) (c : Nat) (x : CoreSt) : (s.setCore c x).tests = s.tests := rfl
@[simp] theorem State.setCore_copies (s : State) (c : Nat) (x : CoreSt) : (s.setCore c x).copies = s.copies := rfl
@[simp] theorem State.setCore_wbq (s : State) (c : Nat) (x : CoreSt) : (s.setCore c x).wbq = s.wbq := rfl
@[simp] theorem State.setCore_uq (s : State) (c : Nat) (x : CoreSt) : (s.setCore c x).uq = s.uq := rfl
@[simp] theorem State.setCore_hostq (s : State) (c : Nat) (x : CoreSt) : (s.setCore c x).hostq = s.hostq := rfl
@[simp] theorem State.setCore_dqueues (s : State) (c : Nat) (x : CoreSt) : (s.setCore c x).dqueues = s.dqueues := rfl
@[simp] theorem State.setCore_pages (s : State) (c : Nat) (x : CoreSt) : (s.setCore c x).pages = s.pages := rfl
@[simp] theorem State.setCore_chans (s : State) (c : Nat) (x : CoreSt) : (s.setCore c x).chans = s.chans := rfl
@[simp] theorem State.setCore_queueReqs (s : State) (c : Nat) (x : CoreSt) : (s.setCore c x).queueReqs = s.queueReqs := rfl
@[simp] theorem State.setCore_runs (s : State) (c : Nat) (x : CoreSt) : (s.setCore c x).runs = s.runs := rfl
@[simp] theorem State.setCore_pass (s : State) (c : Nat) (x : CoreSt) : (s.setCore c x).pass = s.pass := rfl
@[simp] theorem State.setCore_saved (s : State) (c : Nat) (x : CoreSt) : (s.setCore c x).saved = s.saved := rfl
@[simp] theorem State.setCore_linklat (s : State) (c : Nat) (x : CoreSt) : (s.setCore c x).linklat = s.linklat := rfl
@[simp] theorem State.setCore_portUpAt (s : State) (c : Nat) (x : CoreSt) : (s.setCore c x).portUpAt = s.portUpAt := rfl
@[simp] theorem State.setCore_portDownAt (s : State) (c : Nat) (x : CoreSt) : (s.setCore c x).portDownAt = s.portDownAt := rfl
@[simp] theorem State.setCore_drift (s : State) (c : Nat) (x : CoreSt) : (s.setCore c x).drift = s.drift := rfl
@[simp] theorem State.setCore_farLat (s : State) (c : Nat) (x : CoreSt) : (s.setCore c x).farLat = s.farLat := rfl
@[simp] theorem State.setCore_awayBusy (s : State) (c : Nat) (x : CoreSt) : (s.setCore c x).awayBusy = s.awayBusy := rfl
@[simp] theorem State.setCore_refSilent (s : State) (c : Nat) (x : CoreSt) : (s.setCore c x).refSilent = s.refSilent := rfl
@[simp] theorem State.setCore_hedgeLoaded (s : State) (c : Nat) (x : CoreSt) : (s.setCore c x).hedgeLoaded = s.hedgeLoaded := rfl
@[simp] theorem State.setCore_markerFrom (s : State) (c : Nat) (x : CoreSt) : (s.setCore c x).markerFrom = s.markerFrom := rfl
@[simp] theorem State.setCore_admitFrom (s : State) (c : Nat) (x : CoreSt) : (s.setCore c x).admitFrom = s.admitFrom := rfl
@[simp] theorem State.setCore_evict (s : State) (c : Nat) (x : CoreSt) : (s.setCore c x).evict = s.evict := rfl
@[simp] theorem State.setCore_partChange (s : State) (c : Nat) (x : CoreSt) : (s.setCore c x).partChange = s.partChange := rfl
@[simp] theorem State.setCore_olds (s : State) (c : Nat) (x : CoreSt) : (s.setCore c x).olds = s.olds := rfl
@[simp] theorem State.setCore_fwEntry (s : State) (c : Nat) (x : CoreSt) : (s.setCore c x).fwEntry = s.fwEntry := rfl
@[simp] theorem State.setCore_attM (s : State) (c : Nat) (x : CoreSt) : (s.setCore c x).attM = s.attM := rfl
@[simp] theorem State.setCore_attLog (s : State) (c : Nat) (x : CoreSt) : (s.setCore c x).attLog = s.attLog := rfl
@[simp] theorem State.setCore_attBuf (s : State) (c : Nat) (x : CoreSt) : (s.setCore c x).attBuf = s.attBuf := rfl
@[simp] theorem State.setCore_fdutyAt (s : State) (c : Nat) (x : CoreSt) : (s.setCore c x).fdutyAt = s.fdutyAt := rfl
@[simp] theorem State.setCore_power10 (s : State) (c : Nat) (x : CoreSt) : (s.setCore c x).power10 = s.power10 := rfl
@[simp] theorem State.setCore_units (s : State) (c : Nat) (x : CoreSt) : (s.setCore c x).units = s.units := rfl
@[simp] theorem State.setCore_dispHalt (s : State) (c : Nat) (x : CoreSt) : (s.setCore c x).dispHalt = s.dispHalt := rfl
@[simp] theorem State.setCore_bufs (s : State) (c : Nat) (x : CoreSt) : (s.setCore c x).bufs = s.bufs := rfl

/-! ## A core, by a function -/

@[simp] theorem State.updCore_variant (s : State) (c : Nat) (f : CoreSt → CoreSt) : (s.updCore c f).variant = s.variant := rfl
@[simp] theorem State.updCore_power (s : State) (c : Nat) (f : CoreSt → CoreSt) : (s.updCore c f).power = s.power := rfl
@[simp] theorem State.updCore_scyc (s : State) (c : Nat) (f : CoreSt → CoreSt) : (s.updCore c f).scyc = s.scyc := rfl
@[simp] theorem State.updCore_agenda (s : State) (c : Nat) (f : CoreSt → CoreSt) : (s.updCore c f).agenda = s.agenda := rfl
@[simp] theorem State.updCore_pend (s : State) (c : Nat) (f : CoreSt → CoreSt) : (s.updCore c f).pend = s.pend := rfl
@[simp] theorem State.updCore_links (s : State) (c : Nat) (f : CoreSt → CoreSt) : (s.updCore c f).links = s.links := rfl
@[simp] theorem State.updCore_cur (s : State) (c : Nat) (f : CoreSt → CoreSt) : (s.updCore c f).cur = s.cur := rfl
@[simp] theorem State.updCore_free (s : State) (c : Nat) (f : CoreSt → CoreSt) : (s.updCore c f).free = s.free := rfl
@[simp] theorem State.updCore_panels (s : State) (c : Nat) (f : CoreSt → CoreSt) : (s.updCore c f).panels = s.panels := rfl
@[simp] theorem State.updCore_nextPid (s : State) (c : Nat) (f : CoreSt → CoreSt) : (s.updCore c f).nextPid = s.nextPid := rfl
@[simp] theorem State.updCore_hbm (s : State) (c : Nat) (f : CoreSt → CoreSt) : (s.updCore c f).hbm = s.hbm := rfl
@[simp] theorem State.updCore_hbmPoison (s : State) (c : Nat) (f : CoreSt → CoreSt) : (s.updCore c f).hbmPoison = s.hbmPoison := rfl
@[simp] theorem State.updCore_hbmUndef (s : State) (c : Nat) (f : CoreSt → CoreSt) : (s.updCore c f).hbmUndef = s.hbmUndef := rfl
@[simp] theorem State.updCore_hbmFaulty (s : State) (c : Nat) (f : CoreSt → CoreSt) : (s.updCore c f).hbmFaulty = s.hbmFaulty := rfl
@[simp] theorem State.updCore_ls (s : State) (c : Nat) (f : CoreSt → CoreSt) : (s.updCore c f).ls = s.ls := rfl
@[simp] theorem State.updCore_lsPoison (s : State) (c : Nat) (f : CoreSt → CoreSt) : (s.updCore c f).lsPoison = s.lsPoison := rfl
@[simp] theorem State.updCore_second (s : State) (c : Nat) (f : CoreSt → CoreSt) : (s.updCore c f).second = s.second := rfl
@[simp] theorem State.updCore_secondPoison (s : State) (c : Nat) (f : CoreSt → CoreSt) : (s.updCore c f).secondPoison = s.secondPoison := rfl
@[simp] theorem State.updCore_nv (s : State) (c : Nat) (f : CoreSt → CoreSt) : (s.updCore c f).nv = s.nv := rfl
@[simp] theorem State.updCore_ctl (s : State) (c : Nat) (f : CoreSt → CoreSt) : (s.updCore c f).ctl = s.ctl := rfl
@[simp] theorem State.updCore_live (s : State) (c : Nat) (f : CoreSt → CoreSt) : (s.updCore c f).live = s.live := rfl
@[simp] theorem State.updCore_launch (s : State) (c : Nat) (f : CoreSt → CoreSt) : (s.updCore c f).launch = s.launch := rfl
@[simp] theorem State.updCore_tenkey (s : State) (c : Nat) (f : CoreSt → CoreSt) : (s.updCore c f).tenkey = s.tenkey := rfl
@[simp] theorem State.updCore_launchFull (s : State) (c : Nat) (f : CoreSt → CoreSt) : (s.updCore c f).launchFull = s.launchFull := rfl
@[simp] theorem State.updCore_events (s : State) (c : Nat) (f : CoreSt → CoreSt) : (s.updCore c f).events = s.events := rfl
@[simp] theorem State.updCore_failrec (s : State) (c : Nat) (f : CoreSt → CoreSt) : (s.updCore c f).failrec = s.failrec := rfl
@[simp] theorem State.updCore_faq (s : State) (c : Nat) (f : CoreSt → CoreSt) : (s.updCore c f).faq = s.faq := rfl
@[simp] theorem State.updCore_frq (s : State) (c : Nat) (f : CoreSt → CoreSt) : (s.updCore c f).frq = s.frq := rfl
@[simp] theorem State.updCore_out (s : State) (c : Nat) (f : CoreSt → CoreSt) : (s.updCore c f).out = s.out := rfl
@[simp] theorem State.updCore_epochs (s : State) (c : Nat) (f : CoreSt → CoreSt) : (s.updCore c f).epochs = s.epochs := rfl
@[simp] theorem State.updCore_spans (s : State) (c : Nat) (f : CoreSt → CoreSt) : (s.updCore c f).spans = s.spans := rfl
@[simp] theorem State.updCore_walks (s : State) (c : Nat) (f : CoreSt → CoreSt) : (s.updCore c f).walks = s.walks := rfl
@[simp] theorem State.updCore_shoots (s : State) (c : Nat) (f : CoreSt → CoreSt) : (s.updCore c f).shoots = s.shoots := rfl
@[simp] theorem State.updCore_reqs (s : State) (c : Nat) (f : CoreSt → CoreSt) : (s.updCore c f).reqs = s.reqs := rfl
@[simp] theorem State.updCore_nextId (s : State) (c : Nat) (f : CoreSt → CoreSt) : (s.updCore c f).nextId = s.nextId := rfl
@[simp] theorem State.updCore_pchs (s : State) (c : Nat) (f : CoreSt → CoreSt) : (s.updCore c f).pchs = s.pchs := rfl
@[simp] theorem State.updCore_tests (s : State) (c : Nat) (f : CoreSt → CoreSt) : (s.updCore c f).tests = s.tests := rfl
@[simp] theorem State.updCore_copies (s : State) (c : Nat) (f : CoreSt → CoreSt) : (s.updCore c f).copies = s.copies := rfl
@[simp] theorem State.updCore_wbq (s : State) (c : Nat) (f : CoreSt → CoreSt) : (s.updCore c f).wbq = s.wbq := rfl
@[simp] theorem State.updCore_uq (s : State) (c : Nat) (f : CoreSt → CoreSt) : (s.updCore c f).uq = s.uq := rfl
@[simp] theorem State.updCore_hostq (s : State) (c : Nat) (f : CoreSt → CoreSt) : (s.updCore c f).hostq = s.hostq := rfl
@[simp] theorem State.updCore_dqueues (s : State) (c : Nat) (f : CoreSt → CoreSt) : (s.updCore c f).dqueues = s.dqueues := rfl
@[simp] theorem State.updCore_pages (s : State) (c : Nat) (f : CoreSt → CoreSt) : (s.updCore c f).pages = s.pages := rfl
@[simp] theorem State.updCore_chans (s : State) (c : Nat) (f : CoreSt → CoreSt) : (s.updCore c f).chans = s.chans := rfl
@[simp] theorem State.updCore_queueReqs (s : State) (c : Nat) (f : CoreSt → CoreSt) : (s.updCore c f).queueReqs = s.queueReqs := rfl
@[simp] theorem State.updCore_runs (s : State) (c : Nat) (f : CoreSt → CoreSt) : (s.updCore c f).runs = s.runs := rfl
@[simp] theorem State.updCore_pass (s : State) (c : Nat) (f : CoreSt → CoreSt) : (s.updCore c f).pass = s.pass := rfl
@[simp] theorem State.updCore_saved (s : State) (c : Nat) (f : CoreSt → CoreSt) : (s.updCore c f).saved = s.saved := rfl
@[simp] theorem State.updCore_linklat (s : State) (c : Nat) (f : CoreSt → CoreSt) : (s.updCore c f).linklat = s.linklat := rfl
@[simp] theorem State.updCore_portUpAt (s : State) (c : Nat) (f : CoreSt → CoreSt) : (s.updCore c f).portUpAt = s.portUpAt := rfl
@[simp] theorem State.updCore_portDownAt (s : State) (c : Nat) (f : CoreSt → CoreSt) : (s.updCore c f).portDownAt = s.portDownAt := rfl
@[simp] theorem State.updCore_drift (s : State) (c : Nat) (f : CoreSt → CoreSt) : (s.updCore c f).drift = s.drift := rfl
@[simp] theorem State.updCore_farLat (s : State) (c : Nat) (f : CoreSt → CoreSt) : (s.updCore c f).farLat = s.farLat := rfl
@[simp] theorem State.updCore_awayBusy (s : State) (c : Nat) (f : CoreSt → CoreSt) : (s.updCore c f).awayBusy = s.awayBusy := rfl
@[simp] theorem State.updCore_refSilent (s : State) (c : Nat) (f : CoreSt → CoreSt) : (s.updCore c f).refSilent = s.refSilent := rfl
@[simp] theorem State.updCore_hedgeLoaded (s : State) (c : Nat) (f : CoreSt → CoreSt) : (s.updCore c f).hedgeLoaded = s.hedgeLoaded := rfl
@[simp] theorem State.updCore_markerFrom (s : State) (c : Nat) (f : CoreSt → CoreSt) : (s.updCore c f).markerFrom = s.markerFrom := rfl
@[simp] theorem State.updCore_admitFrom (s : State) (c : Nat) (f : CoreSt → CoreSt) : (s.updCore c f).admitFrom = s.admitFrom := rfl
@[simp] theorem State.updCore_evict (s : State) (c : Nat) (f : CoreSt → CoreSt) : (s.updCore c f).evict = s.evict := rfl
@[simp] theorem State.updCore_partChange (s : State) (c : Nat) (f : CoreSt → CoreSt) : (s.updCore c f).partChange = s.partChange := rfl
@[simp] theorem State.updCore_olds (s : State) (c : Nat) (f : CoreSt → CoreSt) : (s.updCore c f).olds = s.olds := rfl
@[simp] theorem State.updCore_fwEntry (s : State) (c : Nat) (f : CoreSt → CoreSt) : (s.updCore c f).fwEntry = s.fwEntry := rfl
@[simp] theorem State.updCore_attM (s : State) (c : Nat) (f : CoreSt → CoreSt) : (s.updCore c f).attM = s.attM := rfl
@[simp] theorem State.updCore_attLog (s : State) (c : Nat) (f : CoreSt → CoreSt) : (s.updCore c f).attLog = s.attLog := rfl
@[simp] theorem State.updCore_attBuf (s : State) (c : Nat) (f : CoreSt → CoreSt) : (s.updCore c f).attBuf = s.attBuf := rfl
@[simp] theorem State.updCore_fdutyAt (s : State) (c : Nat) (f : CoreSt → CoreSt) : (s.updCore c f).fdutyAt = s.fdutyAt := rfl
@[simp] theorem State.updCore_power10 (s : State) (c : Nat) (f : CoreSt → CoreSt) : (s.updCore c f).power10 = s.power10 := rfl
@[simp] theorem State.updCore_units (s : State) (c : Nat) (f : CoreSt → CoreSt) : (s.updCore c f).units = s.units := rfl
@[simp] theorem State.updCore_dispHalt (s : State) (c : Nat) (f : CoreSt → CoreSt) : (s.updCore c f).dispHalt = s.dispHalt := rfl
@[simp] theorem State.updCore_bufs (s : State) (c : Nat) (f : CoreSt → CoreSt) : (s.updCore c f).bufs = s.bufs := rfl

/-! ## A context -/

@[simp] theorem State.updCtx_variant (s : State) (c k : Nat) (f : Ctx → Ctx) : (s.updCtx c k f).variant = s.variant := rfl
@[simp] theorem State.updCtx_power (s : State) (c k : Nat) (f : Ctx → Ctx) : (s.updCtx c k f).power = s.power := rfl
@[simp] theorem State.updCtx_scyc (s : State) (c k : Nat) (f : Ctx → Ctx) : (s.updCtx c k f).scyc = s.scyc := rfl
@[simp] theorem State.updCtx_agenda (s : State) (c k : Nat) (f : Ctx → Ctx) : (s.updCtx c k f).agenda = s.agenda := rfl
@[simp] theorem State.updCtx_pend (s : State) (c k : Nat) (f : Ctx → Ctx) : (s.updCtx c k f).pend = s.pend := rfl
@[simp] theorem State.updCtx_links (s : State) (c k : Nat) (f : Ctx → Ctx) : (s.updCtx c k f).links = s.links := rfl
@[simp] theorem State.updCtx_cur (s : State) (c k : Nat) (f : Ctx → Ctx) : (s.updCtx c k f).cur = s.cur := rfl
@[simp] theorem State.updCtx_free (s : State) (c k : Nat) (f : Ctx → Ctx) : (s.updCtx c k f).free = s.free := rfl
@[simp] theorem State.updCtx_panels (s : State) (c k : Nat) (f : Ctx → Ctx) : (s.updCtx c k f).panels = s.panels := rfl
@[simp] theorem State.updCtx_nextPid (s : State) (c k : Nat) (f : Ctx → Ctx) : (s.updCtx c k f).nextPid = s.nextPid := rfl
@[simp] theorem State.updCtx_hbm (s : State) (c k : Nat) (f : Ctx → Ctx) : (s.updCtx c k f).hbm = s.hbm := rfl
@[simp] theorem State.updCtx_hbmPoison (s : State) (c k : Nat) (f : Ctx → Ctx) : (s.updCtx c k f).hbmPoison = s.hbmPoison := rfl
@[simp] theorem State.updCtx_hbmUndef (s : State) (c k : Nat) (f : Ctx → Ctx) : (s.updCtx c k f).hbmUndef = s.hbmUndef := rfl
@[simp] theorem State.updCtx_hbmFaulty (s : State) (c k : Nat) (f : Ctx → Ctx) : (s.updCtx c k f).hbmFaulty = s.hbmFaulty := rfl
@[simp] theorem State.updCtx_ls (s : State) (c k : Nat) (f : Ctx → Ctx) : (s.updCtx c k f).ls = s.ls := rfl
@[simp] theorem State.updCtx_lsPoison (s : State) (c k : Nat) (f : Ctx → Ctx) : (s.updCtx c k f).lsPoison = s.lsPoison := rfl
@[simp] theorem State.updCtx_second (s : State) (c k : Nat) (f : Ctx → Ctx) : (s.updCtx c k f).second = s.second := rfl
@[simp] theorem State.updCtx_secondPoison (s : State) (c k : Nat) (f : Ctx → Ctx) : (s.updCtx c k f).secondPoison = s.secondPoison := rfl
@[simp] theorem State.updCtx_nv (s : State) (c k : Nat) (f : Ctx → Ctx) : (s.updCtx c k f).nv = s.nv := rfl
@[simp] theorem State.updCtx_ctl (s : State) (c k : Nat) (f : Ctx → Ctx) : (s.updCtx c k f).ctl = s.ctl := rfl
@[simp] theorem State.updCtx_live (s : State) (c k : Nat) (f : Ctx → Ctx) : (s.updCtx c k f).live = s.live := rfl
@[simp] theorem State.updCtx_launch (s : State) (c k : Nat) (f : Ctx → Ctx) : (s.updCtx c k f).launch = s.launch := rfl
@[simp] theorem State.updCtx_tenkey (s : State) (c k : Nat) (f : Ctx → Ctx) : (s.updCtx c k f).tenkey = s.tenkey := rfl
@[simp] theorem State.updCtx_launchFull (s : State) (c k : Nat) (f : Ctx → Ctx) : (s.updCtx c k f).launchFull = s.launchFull := rfl
@[simp] theorem State.updCtx_events (s : State) (c k : Nat) (f : Ctx → Ctx) : (s.updCtx c k f).events = s.events := rfl
@[simp] theorem State.updCtx_failrec (s : State) (c k : Nat) (f : Ctx → Ctx) : (s.updCtx c k f).failrec = s.failrec := rfl
@[simp] theorem State.updCtx_faq (s : State) (c k : Nat) (f : Ctx → Ctx) : (s.updCtx c k f).faq = s.faq := rfl
@[simp] theorem State.updCtx_frq (s : State) (c k : Nat) (f : Ctx → Ctx) : (s.updCtx c k f).frq = s.frq := rfl
@[simp] theorem State.updCtx_out (s : State) (c k : Nat) (f : Ctx → Ctx) : (s.updCtx c k f).out = s.out := rfl
@[simp] theorem State.updCtx_epochs (s : State) (c k : Nat) (f : Ctx → Ctx) : (s.updCtx c k f).epochs = s.epochs := rfl
@[simp] theorem State.updCtx_spans (s : State) (c k : Nat) (f : Ctx → Ctx) : (s.updCtx c k f).spans = s.spans := rfl
@[simp] theorem State.updCtx_walks (s : State) (c k : Nat) (f : Ctx → Ctx) : (s.updCtx c k f).walks = s.walks := rfl
@[simp] theorem State.updCtx_shoots (s : State) (c k : Nat) (f : Ctx → Ctx) : (s.updCtx c k f).shoots = s.shoots := rfl
@[simp] theorem State.updCtx_reqs (s : State) (c k : Nat) (f : Ctx → Ctx) : (s.updCtx c k f).reqs = s.reqs := rfl
@[simp] theorem State.updCtx_nextId (s : State) (c k : Nat) (f : Ctx → Ctx) : (s.updCtx c k f).nextId = s.nextId := rfl
@[simp] theorem State.updCtx_pchs (s : State) (c k : Nat) (f : Ctx → Ctx) : (s.updCtx c k f).pchs = s.pchs := rfl
@[simp] theorem State.updCtx_tests (s : State) (c k : Nat) (f : Ctx → Ctx) : (s.updCtx c k f).tests = s.tests := rfl
@[simp] theorem State.updCtx_copies (s : State) (c k : Nat) (f : Ctx → Ctx) : (s.updCtx c k f).copies = s.copies := rfl
@[simp] theorem State.updCtx_wbq (s : State) (c k : Nat) (f : Ctx → Ctx) : (s.updCtx c k f).wbq = s.wbq := rfl
@[simp] theorem State.updCtx_uq (s : State) (c k : Nat) (f : Ctx → Ctx) : (s.updCtx c k f).uq = s.uq := rfl
@[simp] theorem State.updCtx_hostq (s : State) (c k : Nat) (f : Ctx → Ctx) : (s.updCtx c k f).hostq = s.hostq := rfl
@[simp] theorem State.updCtx_dqueues (s : State) (c k : Nat) (f : Ctx → Ctx) : (s.updCtx c k f).dqueues = s.dqueues := rfl
@[simp] theorem State.updCtx_pages (s : State) (c k : Nat) (f : Ctx → Ctx) : (s.updCtx c k f).pages = s.pages := rfl
@[simp] theorem State.updCtx_chans (s : State) (c k : Nat) (f : Ctx → Ctx) : (s.updCtx c k f).chans = s.chans := rfl
@[simp] theorem State.updCtx_queueReqs (s : State) (c k : Nat) (f : Ctx → Ctx) : (s.updCtx c k f).queueReqs = s.queueReqs := rfl
@[simp] theorem State.updCtx_runs (s : State) (c k : Nat) (f : Ctx → Ctx) : (s.updCtx c k f).runs = s.runs := rfl
@[simp] theorem State.updCtx_pass (s : State) (c k : Nat) (f : Ctx → Ctx) : (s.updCtx c k f).pass = s.pass := rfl
@[simp] theorem State.updCtx_saved (s : State) (c k : Nat) (f : Ctx → Ctx) : (s.updCtx c k f).saved = s.saved := rfl
@[simp] theorem State.updCtx_linklat (s : State) (c k : Nat) (f : Ctx → Ctx) : (s.updCtx c k f).linklat = s.linklat := rfl
@[simp] theorem State.updCtx_portUpAt (s : State) (c k : Nat) (f : Ctx → Ctx) : (s.updCtx c k f).portUpAt = s.portUpAt := rfl
@[simp] theorem State.updCtx_portDownAt (s : State) (c k : Nat) (f : Ctx → Ctx) : (s.updCtx c k f).portDownAt = s.portDownAt := rfl
@[simp] theorem State.updCtx_drift (s : State) (c k : Nat) (f : Ctx → Ctx) : (s.updCtx c k f).drift = s.drift := rfl
@[simp] theorem State.updCtx_farLat (s : State) (c k : Nat) (f : Ctx → Ctx) : (s.updCtx c k f).farLat = s.farLat := rfl
@[simp] theorem State.updCtx_awayBusy (s : State) (c k : Nat) (f : Ctx → Ctx) : (s.updCtx c k f).awayBusy = s.awayBusy := rfl
@[simp] theorem State.updCtx_refSilent (s : State) (c k : Nat) (f : Ctx → Ctx) : (s.updCtx c k f).refSilent = s.refSilent := rfl
@[simp] theorem State.updCtx_hedgeLoaded (s : State) (c k : Nat) (f : Ctx → Ctx) : (s.updCtx c k f).hedgeLoaded = s.hedgeLoaded := rfl
@[simp] theorem State.updCtx_markerFrom (s : State) (c k : Nat) (f : Ctx → Ctx) : (s.updCtx c k f).markerFrom = s.markerFrom := rfl
@[simp] theorem State.updCtx_admitFrom (s : State) (c k : Nat) (f : Ctx → Ctx) : (s.updCtx c k f).admitFrom = s.admitFrom := rfl
@[simp] theorem State.updCtx_evict (s : State) (c k : Nat) (f : Ctx → Ctx) : (s.updCtx c k f).evict = s.evict := rfl
@[simp] theorem State.updCtx_partChange (s : State) (c k : Nat) (f : Ctx → Ctx) : (s.updCtx c k f).partChange = s.partChange := rfl
@[simp] theorem State.updCtx_olds (s : State) (c k : Nat) (f : Ctx → Ctx) : (s.updCtx c k f).olds = s.olds := rfl
@[simp] theorem State.updCtx_fwEntry (s : State) (c k : Nat) (f : Ctx → Ctx) : (s.updCtx c k f).fwEntry = s.fwEntry := rfl
@[simp] theorem State.updCtx_attM (s : State) (c k : Nat) (f : Ctx → Ctx) : (s.updCtx c k f).attM = s.attM := rfl
@[simp] theorem State.updCtx_attLog (s : State) (c k : Nat) (f : Ctx → Ctx) : (s.updCtx c k f).attLog = s.attLog := rfl
@[simp] theorem State.updCtx_attBuf (s : State) (c k : Nat) (f : Ctx → Ctx) : (s.updCtx c k f).attBuf = s.attBuf := rfl
@[simp] theorem State.updCtx_fdutyAt (s : State) (c k : Nat) (f : Ctx → Ctx) : (s.updCtx c k f).fdutyAt = s.fdutyAt := rfl
@[simp] theorem State.updCtx_power10 (s : State) (c k : Nat) (f : Ctx → Ctx) : (s.updCtx c k f).power10 = s.power10 := rfl
@[simp] theorem State.updCtx_units (s : State) (c k : Nat) (f : Ctx → Ctx) : (s.updCtx c k f).units = s.units := rfl
@[simp] theorem State.updCtx_dispHalt (s : State) (c k : Nat) (f : Ctx → Ctx) : (s.updCtx c k f).dispHalt = s.dispHalt := rfl
@[simp] theorem State.updCtx_bufs (s : State) (c k : Nat) (f : Ctx → Ctx) : (s.updCtx c k f).bufs = s.bufs := rfl

/-! ## Panels -/

@[simp] theorem State.updPanel_variant (s : State) (pid : Nat) (f : Panel → Panel) : (s.updPanel pid f).variant = s.variant := rfl
@[simp] theorem State.updPanel_power (s : State) (pid : Nat) (f : Panel → Panel) : (s.updPanel pid f).power = s.power := rfl
@[simp] theorem State.updPanel_scyc (s : State) (pid : Nat) (f : Panel → Panel) : (s.updPanel pid f).scyc = s.scyc := rfl
@[simp] theorem State.updPanel_agenda (s : State) (pid : Nat) (f : Panel → Panel) : (s.updPanel pid f).agenda = s.agenda := rfl
@[simp] theorem State.updPanel_pend (s : State) (pid : Nat) (f : Panel → Panel) : (s.updPanel pid f).pend = s.pend := rfl
@[simp] theorem State.updPanel_links (s : State) (pid : Nat) (f : Panel → Panel) : (s.updPanel pid f).links = s.links := rfl
@[simp] theorem State.updPanel_cur (s : State) (pid : Nat) (f : Panel → Panel) : (s.updPanel pid f).cur = s.cur := rfl
@[simp] theorem State.updPanel_free (s : State) (pid : Nat) (f : Panel → Panel) : (s.updPanel pid f).free = s.free := rfl
@[simp] theorem State.updPanel_cores (s : State) (pid : Nat) (f : Panel → Panel) : (s.updPanel pid f).cores = s.cores := rfl
@[simp] theorem State.updPanel_nextPid (s : State) (pid : Nat) (f : Panel → Panel) : (s.updPanel pid f).nextPid = s.nextPid := rfl
@[simp] theorem State.updPanel_hbm (s : State) (pid : Nat) (f : Panel → Panel) : (s.updPanel pid f).hbm = s.hbm := rfl
@[simp] theorem State.updPanel_hbmPoison (s : State) (pid : Nat) (f : Panel → Panel) : (s.updPanel pid f).hbmPoison = s.hbmPoison := rfl
@[simp] theorem State.updPanel_hbmUndef (s : State) (pid : Nat) (f : Panel → Panel) : (s.updPanel pid f).hbmUndef = s.hbmUndef := rfl
@[simp] theorem State.updPanel_hbmFaulty (s : State) (pid : Nat) (f : Panel → Panel) : (s.updPanel pid f).hbmFaulty = s.hbmFaulty := rfl
@[simp] theorem State.updPanel_ls (s : State) (pid : Nat) (f : Panel → Panel) : (s.updPanel pid f).ls = s.ls := rfl
@[simp] theorem State.updPanel_lsPoison (s : State) (pid : Nat) (f : Panel → Panel) : (s.updPanel pid f).lsPoison = s.lsPoison := rfl
@[simp] theorem State.updPanel_second (s : State) (pid : Nat) (f : Panel → Panel) : (s.updPanel pid f).second = s.second := rfl
@[simp] theorem State.updPanel_secondPoison (s : State) (pid : Nat) (f : Panel → Panel) : (s.updPanel pid f).secondPoison = s.secondPoison := rfl
@[simp] theorem State.updPanel_nv (s : State) (pid : Nat) (f : Panel → Panel) : (s.updPanel pid f).nv = s.nv := rfl
@[simp] theorem State.updPanel_ctl (s : State) (pid : Nat) (f : Panel → Panel) : (s.updPanel pid f).ctl = s.ctl := rfl
@[simp] theorem State.updPanel_live (s : State) (pid : Nat) (f : Panel → Panel) : (s.updPanel pid f).live = s.live := rfl
@[simp] theorem State.updPanel_launch (s : State) (pid : Nat) (f : Panel → Panel) : (s.updPanel pid f).launch = s.launch := rfl
@[simp] theorem State.updPanel_tenkey (s : State) (pid : Nat) (f : Panel → Panel) : (s.updPanel pid f).tenkey = s.tenkey := rfl
@[simp] theorem State.updPanel_launchFull (s : State) (pid : Nat) (f : Panel → Panel) : (s.updPanel pid f).launchFull = s.launchFull := rfl
@[simp] theorem State.updPanel_events (s : State) (pid : Nat) (f : Panel → Panel) : (s.updPanel pid f).events = s.events := rfl
@[simp] theorem State.updPanel_failrec (s : State) (pid : Nat) (f : Panel → Panel) : (s.updPanel pid f).failrec = s.failrec := rfl
@[simp] theorem State.updPanel_faq (s : State) (pid : Nat) (f : Panel → Panel) : (s.updPanel pid f).faq = s.faq := rfl
@[simp] theorem State.updPanel_frq (s : State) (pid : Nat) (f : Panel → Panel) : (s.updPanel pid f).frq = s.frq := rfl
@[simp] theorem State.updPanel_out (s : State) (pid : Nat) (f : Panel → Panel) : (s.updPanel pid f).out = s.out := rfl
@[simp] theorem State.updPanel_epochs (s : State) (pid : Nat) (f : Panel → Panel) : (s.updPanel pid f).epochs = s.epochs := rfl
@[simp] theorem State.updPanel_spans (s : State) (pid : Nat) (f : Panel → Panel) : (s.updPanel pid f).spans = s.spans := rfl
@[simp] theorem State.updPanel_walks (s : State) (pid : Nat) (f : Panel → Panel) : (s.updPanel pid f).walks = s.walks := rfl
@[simp] theorem State.updPanel_shoots (s : State) (pid : Nat) (f : Panel → Panel) : (s.updPanel pid f).shoots = s.shoots := rfl
@[simp] theorem State.updPanel_reqs (s : State) (pid : Nat) (f : Panel → Panel) : (s.updPanel pid f).reqs = s.reqs := rfl
@[simp] theorem State.updPanel_nextId (s : State) (pid : Nat) (f : Panel → Panel) : (s.updPanel pid f).nextId = s.nextId := rfl
@[simp] theorem State.updPanel_pchs (s : State) (pid : Nat) (f : Panel → Panel) : (s.updPanel pid f).pchs = s.pchs := rfl
@[simp] theorem State.updPanel_tests (s : State) (pid : Nat) (f : Panel → Panel) : (s.updPanel pid f).tests = s.tests := rfl
@[simp] theorem State.updPanel_copies (s : State) (pid : Nat) (f : Panel → Panel) : (s.updPanel pid f).copies = s.copies := rfl
@[simp] theorem State.updPanel_wbq (s : State) (pid : Nat) (f : Panel → Panel) : (s.updPanel pid f).wbq = s.wbq := rfl
@[simp] theorem State.updPanel_uq (s : State) (pid : Nat) (f : Panel → Panel) : (s.updPanel pid f).uq = s.uq := rfl
@[simp] theorem State.updPanel_hostq (s : State) (pid : Nat) (f : Panel → Panel) : (s.updPanel pid f).hostq = s.hostq := rfl
@[simp] theorem State.updPanel_dqueues (s : State) (pid : Nat) (f : Panel → Panel) : (s.updPanel pid f).dqueues = s.dqueues := rfl
@[simp] theorem State.updPanel_pages (s : State) (pid : Nat) (f : Panel → Panel) : (s.updPanel pid f).pages = s.pages := rfl
@[simp] theorem State.updPanel_chans (s : State) (pid : Nat) (f : Panel → Panel) : (s.updPanel pid f).chans = s.chans := rfl
@[simp] theorem State.updPanel_queueReqs (s : State) (pid : Nat) (f : Panel → Panel) : (s.updPanel pid f).queueReqs = s.queueReqs := rfl
@[simp] theorem State.updPanel_runs (s : State) (pid : Nat) (f : Panel → Panel) : (s.updPanel pid f).runs = s.runs := rfl
@[simp] theorem State.updPanel_pass (s : State) (pid : Nat) (f : Panel → Panel) : (s.updPanel pid f).pass = s.pass := rfl
@[simp] theorem State.updPanel_saved (s : State) (pid : Nat) (f : Panel → Panel) : (s.updPanel pid f).saved = s.saved := rfl
@[simp] theorem State.updPanel_linklat (s : State) (pid : Nat) (f : Panel → Panel) : (s.updPanel pid f).linklat = s.linklat := rfl
@[simp] theorem State.updPanel_portUpAt (s : State) (pid : Nat) (f : Panel → Panel) : (s.updPanel pid f).portUpAt = s.portUpAt := rfl
@[simp] theorem State.updPanel_portDownAt (s : State) (pid : Nat) (f : Panel → Panel) : (s.updPanel pid f).portDownAt = s.portDownAt := rfl
@[simp] theorem State.updPanel_drift (s : State) (pid : Nat) (f : Panel → Panel) : (s.updPanel pid f).drift = s.drift := rfl
@[simp] theorem State.updPanel_farLat (s : State) (pid : Nat) (f : Panel → Panel) : (s.updPanel pid f).farLat = s.farLat := rfl
@[simp] theorem State.updPanel_awayBusy (s : State) (pid : Nat) (f : Panel → Panel) : (s.updPanel pid f).awayBusy = s.awayBusy := rfl
@[simp] theorem State.updPanel_refSilent (s : State) (pid : Nat) (f : Panel → Panel) : (s.updPanel pid f).refSilent = s.refSilent := rfl
@[simp] theorem State.updPanel_hedgeLoaded (s : State) (pid : Nat) (f : Panel → Panel) : (s.updPanel pid f).hedgeLoaded = s.hedgeLoaded := rfl
@[simp] theorem State.updPanel_markerFrom (s : State) (pid : Nat) (f : Panel → Panel) : (s.updPanel pid f).markerFrom = s.markerFrom := rfl
@[simp] theorem State.updPanel_admitFrom (s : State) (pid : Nat) (f : Panel → Panel) : (s.updPanel pid f).admitFrom = s.admitFrom := rfl
@[simp] theorem State.updPanel_evict (s : State) (pid : Nat) (f : Panel → Panel) : (s.updPanel pid f).evict = s.evict := rfl
@[simp] theorem State.updPanel_partChange (s : State) (pid : Nat) (f : Panel → Panel) : (s.updPanel pid f).partChange = s.partChange := rfl
@[simp] theorem State.updPanel_olds (s : State) (pid : Nat) (f : Panel → Panel) : (s.updPanel pid f).olds = s.olds := rfl
@[simp] theorem State.updPanel_fwEntry (s : State) (pid : Nat) (f : Panel → Panel) : (s.updPanel pid f).fwEntry = s.fwEntry := rfl
@[simp] theorem State.updPanel_attM (s : State) (pid : Nat) (f : Panel → Panel) : (s.updPanel pid f).attM = s.attM := rfl
@[simp] theorem State.updPanel_attLog (s : State) (pid : Nat) (f : Panel → Panel) : (s.updPanel pid f).attLog = s.attLog := rfl
@[simp] theorem State.updPanel_attBuf (s : State) (pid : Nat) (f : Panel → Panel) : (s.updPanel pid f).attBuf = s.attBuf := rfl
@[simp] theorem State.updPanel_fdutyAt (s : State) (pid : Nat) (f : Panel → Panel) : (s.updPanel pid f).fdutyAt = s.fdutyAt := rfl
@[simp] theorem State.updPanel_power10 (s : State) (pid : Nat) (f : Panel → Panel) : (s.updPanel pid f).power10 = s.power10 := rfl
@[simp] theorem State.updPanel_units (s : State) (pid : Nat) (f : Panel → Panel) : (s.updPanel pid f).units = s.units := rfl
@[simp] theorem State.updPanel_dispHalt (s : State) (pid : Nat) (f : Panel → Panel) : (s.updPanel pid f).dispHalt = s.dispHalt := rfl
@[simp] theorem State.updPanel_bufs (s : State) (pid : Nat) (f : Panel → Panel) : (s.updPanel pid f).bufs = s.bufs := rfl

/-! ## Control registers -/

@[simp] theorem State.ctlSet_variant (s : State) (off : Nat) (v : Word) : (s.ctlSet off v).variant = s.variant := rfl
@[simp] theorem State.ctlSet_power (s : State) (off : Nat) (v : Word) : (s.ctlSet off v).power = s.power := rfl
@[simp] theorem State.ctlSet_scyc (s : State) (off : Nat) (v : Word) : (s.ctlSet off v).scyc = s.scyc := rfl
@[simp] theorem State.ctlSet_agenda (s : State) (off : Nat) (v : Word) : (s.ctlSet off v).agenda = s.agenda := rfl
@[simp] theorem State.ctlSet_pend (s : State) (off : Nat) (v : Word) : (s.ctlSet off v).pend = s.pend := rfl
@[simp] theorem State.ctlSet_links (s : State) (off : Nat) (v : Word) : (s.ctlSet off v).links = s.links := rfl
@[simp] theorem State.ctlSet_cur (s : State) (off : Nat) (v : Word) : (s.ctlSet off v).cur = s.cur := rfl
@[simp] theorem State.ctlSet_free (s : State) (off : Nat) (v : Word) : (s.ctlSet off v).free = s.free := rfl
@[simp] theorem State.ctlSet_cores (s : State) (off : Nat) (v : Word) : (s.ctlSet off v).cores = s.cores := rfl
@[simp] theorem State.ctlSet_panels (s : State) (off : Nat) (v : Word) : (s.ctlSet off v).panels = s.panels := rfl
@[simp] theorem State.ctlSet_nextPid (s : State) (off : Nat) (v : Word) : (s.ctlSet off v).nextPid = s.nextPid := rfl
@[simp] theorem State.ctlSet_hbm (s : State) (off : Nat) (v : Word) : (s.ctlSet off v).hbm = s.hbm := rfl
@[simp] theorem State.ctlSet_hbmPoison (s : State) (off : Nat) (v : Word) : (s.ctlSet off v).hbmPoison = s.hbmPoison := rfl
@[simp] theorem State.ctlSet_hbmUndef (s : State) (off : Nat) (v : Word) : (s.ctlSet off v).hbmUndef = s.hbmUndef := rfl
@[simp] theorem State.ctlSet_hbmFaulty (s : State) (off : Nat) (v : Word) : (s.ctlSet off v).hbmFaulty = s.hbmFaulty := rfl
@[simp] theorem State.ctlSet_ls (s : State) (off : Nat) (v : Word) : (s.ctlSet off v).ls = s.ls := rfl
@[simp] theorem State.ctlSet_lsPoison (s : State) (off : Nat) (v : Word) : (s.ctlSet off v).lsPoison = s.lsPoison := rfl
@[simp] theorem State.ctlSet_second (s : State) (off : Nat) (v : Word) : (s.ctlSet off v).second = s.second := rfl
@[simp] theorem State.ctlSet_secondPoison (s : State) (off : Nat) (v : Word) : (s.ctlSet off v).secondPoison = s.secondPoison := rfl
@[simp] theorem State.ctlSet_nv (s : State) (off : Nat) (v : Word) : (s.ctlSet off v).nv = s.nv := rfl
@[simp] theorem State.ctlSet_live (s : State) (off : Nat) (v : Word) : (s.ctlSet off v).live = s.live := rfl
@[simp] theorem State.ctlSet_launch (s : State) (off : Nat) (v : Word) : (s.ctlSet off v).launch = s.launch := rfl
@[simp] theorem State.ctlSet_tenkey (s : State) (off : Nat) (v : Word) : (s.ctlSet off v).tenkey = s.tenkey := rfl
@[simp] theorem State.ctlSet_launchFull (s : State) (off : Nat) (v : Word) : (s.ctlSet off v).launchFull = s.launchFull := rfl
@[simp] theorem State.ctlSet_events (s : State) (off : Nat) (v : Word) : (s.ctlSet off v).events = s.events := rfl
@[simp] theorem State.ctlSet_failrec (s : State) (off : Nat) (v : Word) : (s.ctlSet off v).failrec = s.failrec := rfl
@[simp] theorem State.ctlSet_faq (s : State) (off : Nat) (v : Word) : (s.ctlSet off v).faq = s.faq := rfl
@[simp] theorem State.ctlSet_frq (s : State) (off : Nat) (v : Word) : (s.ctlSet off v).frq = s.frq := rfl
@[simp] theorem State.ctlSet_out (s : State) (off : Nat) (v : Word) : (s.ctlSet off v).out = s.out := rfl
@[simp] theorem State.ctlSet_epochs (s : State) (off : Nat) (v : Word) : (s.ctlSet off v).epochs = s.epochs := rfl
@[simp] theorem State.ctlSet_spans (s : State) (off : Nat) (v : Word) : (s.ctlSet off v).spans = s.spans := rfl
@[simp] theorem State.ctlSet_walks (s : State) (off : Nat) (v : Word) : (s.ctlSet off v).walks = s.walks := rfl
@[simp] theorem State.ctlSet_shoots (s : State) (off : Nat) (v : Word) : (s.ctlSet off v).shoots = s.shoots := rfl
@[simp] theorem State.ctlSet_reqs (s : State) (off : Nat) (v : Word) : (s.ctlSet off v).reqs = s.reqs := rfl
@[simp] theorem State.ctlSet_nextId (s : State) (off : Nat) (v : Word) : (s.ctlSet off v).nextId = s.nextId := rfl
@[simp] theorem State.ctlSet_pchs (s : State) (off : Nat) (v : Word) : (s.ctlSet off v).pchs = s.pchs := rfl
@[simp] theorem State.ctlSet_tests (s : State) (off : Nat) (v : Word) : (s.ctlSet off v).tests = s.tests := rfl
@[simp] theorem State.ctlSet_copies (s : State) (off : Nat) (v : Word) : (s.ctlSet off v).copies = s.copies := rfl
@[simp] theorem State.ctlSet_wbq (s : State) (off : Nat) (v : Word) : (s.ctlSet off v).wbq = s.wbq := rfl
@[simp] theorem State.ctlSet_uq (s : State) (off : Nat) (v : Word) : (s.ctlSet off v).uq = s.uq := rfl
@[simp] theorem State.ctlSet_hostq (s : State) (off : Nat) (v : Word) : (s.ctlSet off v).hostq = s.hostq := rfl
@[simp] theorem State.ctlSet_dqueues (s : State) (off : Nat) (v : Word) : (s.ctlSet off v).dqueues = s.dqueues := rfl
@[simp] theorem State.ctlSet_pages (s : State) (off : Nat) (v : Word) : (s.ctlSet off v).pages = s.pages := rfl
@[simp] theorem State.ctlSet_chans (s : State) (off : Nat) (v : Word) : (s.ctlSet off v).chans = s.chans := rfl
@[simp] theorem State.ctlSet_queueReqs (s : State) (off : Nat) (v : Word) : (s.ctlSet off v).queueReqs = s.queueReqs := rfl
@[simp] theorem State.ctlSet_runs (s : State) (off : Nat) (v : Word) : (s.ctlSet off v).runs = s.runs := rfl
@[simp] theorem State.ctlSet_pass (s : State) (off : Nat) (v : Word) : (s.ctlSet off v).pass = s.pass := rfl
@[simp] theorem State.ctlSet_saved (s : State) (off : Nat) (v : Word) : (s.ctlSet off v).saved = s.saved := rfl
@[simp] theorem State.ctlSet_linklat (s : State) (off : Nat) (v : Word) : (s.ctlSet off v).linklat = s.linklat := rfl
@[simp] theorem State.ctlSet_portUpAt (s : State) (off : Nat) (v : Word) : (s.ctlSet off v).portUpAt = s.portUpAt := rfl
@[simp] theorem State.ctlSet_portDownAt (s : State) (off : Nat) (v : Word) : (s.ctlSet off v).portDownAt = s.portDownAt := rfl
@[simp] theorem State.ctlSet_drift (s : State) (off : Nat) (v : Word) : (s.ctlSet off v).drift = s.drift := rfl
@[simp] theorem State.ctlSet_farLat (s : State) (off : Nat) (v : Word) : (s.ctlSet off v).farLat = s.farLat := rfl
@[simp] theorem State.ctlSet_awayBusy (s : State) (off : Nat) (v : Word) : (s.ctlSet off v).awayBusy = s.awayBusy := rfl
@[simp] theorem State.ctlSet_refSilent (s : State) (off : Nat) (v : Word) : (s.ctlSet off v).refSilent = s.refSilent := rfl
@[simp] theorem State.ctlSet_hedgeLoaded (s : State) (off : Nat) (v : Word) : (s.ctlSet off v).hedgeLoaded = s.hedgeLoaded := rfl
@[simp] theorem State.ctlSet_markerFrom (s : State) (off : Nat) (v : Word) : (s.ctlSet off v).markerFrom = s.markerFrom := rfl
@[simp] theorem State.ctlSet_admitFrom (s : State) (off : Nat) (v : Word) : (s.ctlSet off v).admitFrom = s.admitFrom := rfl
@[simp] theorem State.ctlSet_evict (s : State) (off : Nat) (v : Word) : (s.ctlSet off v).evict = s.evict := rfl
@[simp] theorem State.ctlSet_partChange (s : State) (off : Nat) (v : Word) : (s.ctlSet off v).partChange = s.partChange := rfl
@[simp] theorem State.ctlSet_olds (s : State) (off : Nat) (v : Word) : (s.ctlSet off v).olds = s.olds := rfl
@[simp] theorem State.ctlSet_fwEntry (s : State) (off : Nat) (v : Word) : (s.ctlSet off v).fwEntry = s.fwEntry := rfl
@[simp] theorem State.ctlSet_attM (s : State) (off : Nat) (v : Word) : (s.ctlSet off v).attM = s.attM := rfl
@[simp] theorem State.ctlSet_attLog (s : State) (off : Nat) (v : Word) : (s.ctlSet off v).attLog = s.attLog := rfl
@[simp] theorem State.ctlSet_attBuf (s : State) (off : Nat) (v : Word) : (s.ctlSet off v).attBuf = s.attBuf := rfl
@[simp] theorem State.ctlSet_fdutyAt (s : State) (off : Nat) (v : Word) : (s.ctlSet off v).fdutyAt = s.fdutyAt := rfl
@[simp] theorem State.ctlSet_power10 (s : State) (off : Nat) (v : Word) : (s.ctlSet off v).power10 = s.power10 := rfl
@[simp] theorem State.ctlSet_units (s : State) (off : Nat) (v : Word) : (s.ctlSet off v).units = s.units := rfl
@[simp] theorem State.ctlSet_dispHalt (s : State) (off : Nat) (v : Word) : (s.ctlSet off v).dispHalt = s.dispHalt := rfl
@[simp] theorem State.ctlSet_bufs (s : State) (off : Nat) (v : Word) : (s.ctlSet off v).bufs = s.bufs := rfl

/-! ## Fields of control registers -/

@[simp] theorem State.ctlSetFld_variant (s : State) (off lo n v : Nat) : (s.ctlSetFld off lo n v).variant = s.variant := rfl
@[simp] theorem State.ctlSetFld_power (s : State) (off lo n v : Nat) : (s.ctlSetFld off lo n v).power = s.power := rfl
@[simp] theorem State.ctlSetFld_scyc (s : State) (off lo n v : Nat) : (s.ctlSetFld off lo n v).scyc = s.scyc := rfl
@[simp] theorem State.ctlSetFld_agenda (s : State) (off lo n v : Nat) : (s.ctlSetFld off lo n v).agenda = s.agenda := rfl
@[simp] theorem State.ctlSetFld_pend (s : State) (off lo n v : Nat) : (s.ctlSetFld off lo n v).pend = s.pend := rfl
@[simp] theorem State.ctlSetFld_links (s : State) (off lo n v : Nat) : (s.ctlSetFld off lo n v).links = s.links := rfl
@[simp] theorem State.ctlSetFld_cur (s : State) (off lo n v : Nat) : (s.ctlSetFld off lo n v).cur = s.cur := rfl
@[simp] theorem State.ctlSetFld_free (s : State) (off lo n v : Nat) : (s.ctlSetFld off lo n v).free = s.free := rfl
@[simp] theorem State.ctlSetFld_cores (s : State) (off lo n v : Nat) : (s.ctlSetFld off lo n v).cores = s.cores := rfl
@[simp] theorem State.ctlSetFld_panels (s : State) (off lo n v : Nat) : (s.ctlSetFld off lo n v).panels = s.panels := rfl
@[simp] theorem State.ctlSetFld_nextPid (s : State) (off lo n v : Nat) : (s.ctlSetFld off lo n v).nextPid = s.nextPid := rfl
@[simp] theorem State.ctlSetFld_hbm (s : State) (off lo n v : Nat) : (s.ctlSetFld off lo n v).hbm = s.hbm := rfl
@[simp] theorem State.ctlSetFld_hbmPoison (s : State) (off lo n v : Nat) : (s.ctlSetFld off lo n v).hbmPoison = s.hbmPoison := rfl
@[simp] theorem State.ctlSetFld_hbmUndef (s : State) (off lo n v : Nat) : (s.ctlSetFld off lo n v).hbmUndef = s.hbmUndef := rfl
@[simp] theorem State.ctlSetFld_hbmFaulty (s : State) (off lo n v : Nat) : (s.ctlSetFld off lo n v).hbmFaulty = s.hbmFaulty := rfl
@[simp] theorem State.ctlSetFld_ls (s : State) (off lo n v : Nat) : (s.ctlSetFld off lo n v).ls = s.ls := rfl
@[simp] theorem State.ctlSetFld_lsPoison (s : State) (off lo n v : Nat) : (s.ctlSetFld off lo n v).lsPoison = s.lsPoison := rfl
@[simp] theorem State.ctlSetFld_second (s : State) (off lo n v : Nat) : (s.ctlSetFld off lo n v).second = s.second := rfl
@[simp] theorem State.ctlSetFld_secondPoison (s : State) (off lo n v : Nat) : (s.ctlSetFld off lo n v).secondPoison = s.secondPoison := rfl
@[simp] theorem State.ctlSetFld_nv (s : State) (off lo n v : Nat) : (s.ctlSetFld off lo n v).nv = s.nv := rfl
@[simp] theorem State.ctlSetFld_live (s : State) (off lo n v : Nat) : (s.ctlSetFld off lo n v).live = s.live := rfl
@[simp] theorem State.ctlSetFld_launch (s : State) (off lo n v : Nat) : (s.ctlSetFld off lo n v).launch = s.launch := rfl
@[simp] theorem State.ctlSetFld_tenkey (s : State) (off lo n v : Nat) : (s.ctlSetFld off lo n v).tenkey = s.tenkey := rfl
@[simp] theorem State.ctlSetFld_launchFull (s : State) (off lo n v : Nat) : (s.ctlSetFld off lo n v).launchFull = s.launchFull := rfl
@[simp] theorem State.ctlSetFld_events (s : State) (off lo n v : Nat) : (s.ctlSetFld off lo n v).events = s.events := rfl
@[simp] theorem State.ctlSetFld_failrec (s : State) (off lo n v : Nat) : (s.ctlSetFld off lo n v).failrec = s.failrec := rfl
@[simp] theorem State.ctlSetFld_faq (s : State) (off lo n v : Nat) : (s.ctlSetFld off lo n v).faq = s.faq := rfl
@[simp] theorem State.ctlSetFld_frq (s : State) (off lo n v : Nat) : (s.ctlSetFld off lo n v).frq = s.frq := rfl
@[simp] theorem State.ctlSetFld_out (s : State) (off lo n v : Nat) : (s.ctlSetFld off lo n v).out = s.out := rfl
@[simp] theorem State.ctlSetFld_epochs (s : State) (off lo n v : Nat) : (s.ctlSetFld off lo n v).epochs = s.epochs := rfl
@[simp] theorem State.ctlSetFld_spans (s : State) (off lo n v : Nat) : (s.ctlSetFld off lo n v).spans = s.spans := rfl
@[simp] theorem State.ctlSetFld_walks (s : State) (off lo n v : Nat) : (s.ctlSetFld off lo n v).walks = s.walks := rfl
@[simp] theorem State.ctlSetFld_shoots (s : State) (off lo n v : Nat) : (s.ctlSetFld off lo n v).shoots = s.shoots := rfl
@[simp] theorem State.ctlSetFld_reqs (s : State) (off lo n v : Nat) : (s.ctlSetFld off lo n v).reqs = s.reqs := rfl
@[simp] theorem State.ctlSetFld_nextId (s : State) (off lo n v : Nat) : (s.ctlSetFld off lo n v).nextId = s.nextId := rfl
@[simp] theorem State.ctlSetFld_pchs (s : State) (off lo n v : Nat) : (s.ctlSetFld off lo n v).pchs = s.pchs := rfl
@[simp] theorem State.ctlSetFld_tests (s : State) (off lo n v : Nat) : (s.ctlSetFld off lo n v).tests = s.tests := rfl
@[simp] theorem State.ctlSetFld_copies (s : State) (off lo n v : Nat) : (s.ctlSetFld off lo n v).copies = s.copies := rfl
@[simp] theorem State.ctlSetFld_wbq (s : State) (off lo n v : Nat) : (s.ctlSetFld off lo n v).wbq = s.wbq := rfl
@[simp] theorem State.ctlSetFld_uq (s : State) (off lo n v : Nat) : (s.ctlSetFld off lo n v).uq = s.uq := rfl
@[simp] theorem State.ctlSetFld_hostq (s : State) (off lo n v : Nat) : (s.ctlSetFld off lo n v).hostq = s.hostq := rfl
@[simp] theorem State.ctlSetFld_dqueues (s : State) (off lo n v : Nat) : (s.ctlSetFld off lo n v).dqueues = s.dqueues := rfl
@[simp] theorem State.ctlSetFld_pages (s : State) (off lo n v : Nat) : (s.ctlSetFld off lo n v).pages = s.pages := rfl
@[simp] theorem State.ctlSetFld_chans (s : State) (off lo n v : Nat) : (s.ctlSetFld off lo n v).chans = s.chans := rfl
@[simp] theorem State.ctlSetFld_queueReqs (s : State) (off lo n v : Nat) : (s.ctlSetFld off lo n v).queueReqs = s.queueReqs := rfl
@[simp] theorem State.ctlSetFld_runs (s : State) (off lo n v : Nat) : (s.ctlSetFld off lo n v).runs = s.runs := rfl
@[simp] theorem State.ctlSetFld_pass (s : State) (off lo n v : Nat) : (s.ctlSetFld off lo n v).pass = s.pass := rfl
@[simp] theorem State.ctlSetFld_saved (s : State) (off lo n v : Nat) : (s.ctlSetFld off lo n v).saved = s.saved := rfl
@[simp] theorem State.ctlSetFld_linklat (s : State) (off lo n v : Nat) : (s.ctlSetFld off lo n v).linklat = s.linklat := rfl
@[simp] theorem State.ctlSetFld_portUpAt (s : State) (off lo n v : Nat) : (s.ctlSetFld off lo n v).portUpAt = s.portUpAt := rfl
@[simp] theorem State.ctlSetFld_portDownAt (s : State) (off lo n v : Nat) : (s.ctlSetFld off lo n v).portDownAt = s.portDownAt := rfl
@[simp] theorem State.ctlSetFld_drift (s : State) (off lo n v : Nat) : (s.ctlSetFld off lo n v).drift = s.drift := rfl
@[simp] theorem State.ctlSetFld_farLat (s : State) (off lo n v : Nat) : (s.ctlSetFld off lo n v).farLat = s.farLat := rfl
@[simp] theorem State.ctlSetFld_awayBusy (s : State) (off lo n v : Nat) : (s.ctlSetFld off lo n v).awayBusy = s.awayBusy := rfl
@[simp] theorem State.ctlSetFld_refSilent (s : State) (off lo n v : Nat) : (s.ctlSetFld off lo n v).refSilent = s.refSilent := rfl
@[simp] theorem State.ctlSetFld_hedgeLoaded (s : State) (off lo n v : Nat) : (s.ctlSetFld off lo n v).hedgeLoaded = s.hedgeLoaded := rfl
@[simp] theorem State.ctlSetFld_markerFrom (s : State) (off lo n v : Nat) : (s.ctlSetFld off lo n v).markerFrom = s.markerFrom := rfl
@[simp] theorem State.ctlSetFld_admitFrom (s : State) (off lo n v : Nat) : (s.ctlSetFld off lo n v).admitFrom = s.admitFrom := rfl
@[simp] theorem State.ctlSetFld_evict (s : State) (off lo n v : Nat) : (s.ctlSetFld off lo n v).evict = s.evict := rfl
@[simp] theorem State.ctlSetFld_partChange (s : State) (off lo n v : Nat) : (s.ctlSetFld off lo n v).partChange = s.partChange := rfl
@[simp] theorem State.ctlSetFld_olds (s : State) (off lo n v : Nat) : (s.ctlSetFld off lo n v).olds = s.olds := rfl
@[simp] theorem State.ctlSetFld_fwEntry (s : State) (off lo n v : Nat) : (s.ctlSetFld off lo n v).fwEntry = s.fwEntry := rfl
@[simp] theorem State.ctlSetFld_attM (s : State) (off lo n v : Nat) : (s.ctlSetFld off lo n v).attM = s.attM := rfl
@[simp] theorem State.ctlSetFld_attLog (s : State) (off lo n v : Nat) : (s.ctlSetFld off lo n v).attLog = s.attLog := rfl
@[simp] theorem State.ctlSetFld_attBuf (s : State) (off lo n v : Nat) : (s.ctlSetFld off lo n v).attBuf = s.attBuf := rfl
@[simp] theorem State.ctlSetFld_fdutyAt (s : State) (off lo n v : Nat) : (s.ctlSetFld off lo n v).fdutyAt = s.fdutyAt := rfl
@[simp] theorem State.ctlSetFld_power10 (s : State) (off lo n v : Nat) : (s.ctlSetFld off lo n v).power10 = s.power10 := rfl
@[simp] theorem State.ctlSetFld_units (s : State) (off lo n v : Nat) : (s.ctlSetFld off lo n v).units = s.units := rfl
@[simp] theorem State.ctlSetFld_dispHalt (s : State) (off lo n v : Nat) : (s.ctlSetFld off lo n v).dispHalt = s.dispHalt := rfl
@[simp] theorem State.ctlSetFld_bufs (s : State) (off lo n v : Nat) : (s.ctlSetFld off lo n v).bufs = s.bufs := rfl

/-! ## What leaves the package -/

@[simp] theorem State.send_variant (s : State) (o : Output) : (s.send o).variant = s.variant := rfl
@[simp] theorem State.send_power (s : State) (o : Output) : (s.send o).power = s.power := rfl
@[simp] theorem State.send_scyc (s : State) (o : Output) : (s.send o).scyc = s.scyc := rfl
@[simp] theorem State.send_agenda (s : State) (o : Output) : (s.send o).agenda = s.agenda := rfl
@[simp] theorem State.send_pend (s : State) (o : Output) : (s.send o).pend = s.pend := rfl
@[simp] theorem State.send_links (s : State) (o : Output) : (s.send o).links = s.links := rfl
@[simp] theorem State.send_cur (s : State) (o : Output) : (s.send o).cur = s.cur := rfl
@[simp] theorem State.send_free (s : State) (o : Output) : (s.send o).free = s.free := rfl
@[simp] theorem State.send_cores (s : State) (o : Output) : (s.send o).cores = s.cores := rfl
@[simp] theorem State.send_panels (s : State) (o : Output) : (s.send o).panels = s.panels := rfl
@[simp] theorem State.send_nextPid (s : State) (o : Output) : (s.send o).nextPid = s.nextPid := rfl
@[simp] theorem State.send_hbm (s : State) (o : Output) : (s.send o).hbm = s.hbm := rfl
@[simp] theorem State.send_hbmPoison (s : State) (o : Output) : (s.send o).hbmPoison = s.hbmPoison := rfl
@[simp] theorem State.send_hbmUndef (s : State) (o : Output) : (s.send o).hbmUndef = s.hbmUndef := rfl
@[simp] theorem State.send_hbmFaulty (s : State) (o : Output) : (s.send o).hbmFaulty = s.hbmFaulty := rfl
@[simp] theorem State.send_ls (s : State) (o : Output) : (s.send o).ls = s.ls := rfl
@[simp] theorem State.send_lsPoison (s : State) (o : Output) : (s.send o).lsPoison = s.lsPoison := rfl
@[simp] theorem State.send_second (s : State) (o : Output) : (s.send o).second = s.second := rfl
@[simp] theorem State.send_secondPoison (s : State) (o : Output) : (s.send o).secondPoison = s.secondPoison := rfl
@[simp] theorem State.send_nv (s : State) (o : Output) : (s.send o).nv = s.nv := rfl
@[simp] theorem State.send_ctl (s : State) (o : Output) : (s.send o).ctl = s.ctl := rfl
@[simp] theorem State.send_live (s : State) (o : Output) : (s.send o).live = s.live := rfl
@[simp] theorem State.send_launch (s : State) (o : Output) : (s.send o).launch = s.launch := rfl
@[simp] theorem State.send_tenkey (s : State) (o : Output) : (s.send o).tenkey = s.tenkey := rfl
@[simp] theorem State.send_launchFull (s : State) (o : Output) : (s.send o).launchFull = s.launchFull := rfl
@[simp] theorem State.send_events (s : State) (o : Output) : (s.send o).events = s.events := rfl
@[simp] theorem State.send_failrec (s : State) (o : Output) : (s.send o).failrec = s.failrec := rfl
@[simp] theorem State.send_faq (s : State) (o : Output) : (s.send o).faq = s.faq := rfl
@[simp] theorem State.send_frq (s : State) (o : Output) : (s.send o).frq = s.frq := rfl
@[simp] theorem State.send_epochs (s : State) (o : Output) : (s.send o).epochs = s.epochs := rfl
@[simp] theorem State.send_spans (s : State) (o : Output) : (s.send o).spans = s.spans := rfl
@[simp] theorem State.send_walks (s : State) (o : Output) : (s.send o).walks = s.walks := rfl
@[simp] theorem State.send_shoots (s : State) (o : Output) : (s.send o).shoots = s.shoots := rfl
@[simp] theorem State.send_reqs (s : State) (o : Output) : (s.send o).reqs = s.reqs := rfl
@[simp] theorem State.send_nextId (s : State) (o : Output) : (s.send o).nextId = s.nextId := rfl
@[simp] theorem State.send_pchs (s : State) (o : Output) : (s.send o).pchs = s.pchs := rfl
@[simp] theorem State.send_tests (s : State) (o : Output) : (s.send o).tests = s.tests := rfl
@[simp] theorem State.send_copies (s : State) (o : Output) : (s.send o).copies = s.copies := rfl
@[simp] theorem State.send_wbq (s : State) (o : Output) : (s.send o).wbq = s.wbq := rfl
@[simp] theorem State.send_uq (s : State) (o : Output) : (s.send o).uq = s.uq := rfl
@[simp] theorem State.send_hostq (s : State) (o : Output) : (s.send o).hostq = s.hostq := rfl
@[simp] theorem State.send_dqueues (s : State) (o : Output) : (s.send o).dqueues = s.dqueues := rfl
@[simp] theorem State.send_pages (s : State) (o : Output) : (s.send o).pages = s.pages := rfl
@[simp] theorem State.send_chans (s : State) (o : Output) : (s.send o).chans = s.chans := rfl
@[simp] theorem State.send_queueReqs (s : State) (o : Output) : (s.send o).queueReqs = s.queueReqs := rfl
@[simp] theorem State.send_runs (s : State) (o : Output) : (s.send o).runs = s.runs := rfl
@[simp] theorem State.send_pass (s : State) (o : Output) : (s.send o).pass = s.pass := rfl
@[simp] theorem State.send_saved (s : State) (o : Output) : (s.send o).saved = s.saved := rfl
@[simp] theorem State.send_linklat (s : State) (o : Output) : (s.send o).linklat = s.linklat := rfl
@[simp] theorem State.send_portUpAt (s : State) (o : Output) : (s.send o).portUpAt = s.portUpAt := rfl
@[simp] theorem State.send_portDownAt (s : State) (o : Output) : (s.send o).portDownAt = s.portDownAt := rfl
@[simp] theorem State.send_drift (s : State) (o : Output) : (s.send o).drift = s.drift := rfl
@[simp] theorem State.send_farLat (s : State) (o : Output) : (s.send o).farLat = s.farLat := rfl
@[simp] theorem State.send_awayBusy (s : State) (o : Output) : (s.send o).awayBusy = s.awayBusy := rfl
@[simp] theorem State.send_refSilent (s : State) (o : Output) : (s.send o).refSilent = s.refSilent := rfl
@[simp] theorem State.send_hedgeLoaded (s : State) (o : Output) : (s.send o).hedgeLoaded = s.hedgeLoaded := rfl
@[simp] theorem State.send_markerFrom (s : State) (o : Output) : (s.send o).markerFrom = s.markerFrom := rfl
@[simp] theorem State.send_admitFrom (s : State) (o : Output) : (s.send o).admitFrom = s.admitFrom := rfl
@[simp] theorem State.send_evict (s : State) (o : Output) : (s.send o).evict = s.evict := rfl
@[simp] theorem State.send_partChange (s : State) (o : Output) : (s.send o).partChange = s.partChange := rfl
@[simp] theorem State.send_olds (s : State) (o : Output) : (s.send o).olds = s.olds := rfl
@[simp] theorem State.send_fwEntry (s : State) (o : Output) : (s.send o).fwEntry = s.fwEntry := rfl
@[simp] theorem State.send_attM (s : State) (o : Output) : (s.send o).attM = s.attM := rfl
@[simp] theorem State.send_attLog (s : State) (o : Output) : (s.send o).attLog = s.attLog := rfl
@[simp] theorem State.send_attBuf (s : State) (o : Output) : (s.send o).attBuf = s.attBuf := rfl
@[simp] theorem State.send_fdutyAt (s : State) (o : Output) : (s.send o).fdutyAt = s.fdutyAt := rfl
@[simp] theorem State.send_power10 (s : State) (o : Output) : (s.send o).power10 = s.power10 := rfl
@[simp] theorem State.send_units (s : State) (o : Output) : (s.send o).units = s.units := rfl
@[simp] theorem State.send_dispHalt (s : State) (o : Output) : (s.send o).dispHalt = s.dispHalt := rfl
@[simp] theorem State.send_bufs (s : State) (o : Output) : (s.send o).bufs = s.bufs := rfl

/-! ## The agenda -/

@[simp] theorem State.schedI_variant (s : State) (clk : Clk) (due : Nat) (i : Instr) : (s.schedI clk due i).variant = s.variant := rfl
@[simp] theorem State.schedI_power (s : State) (clk : Clk) (due : Nat) (i : Instr) : (s.schedI clk due i).power = s.power := rfl
@[simp] theorem State.schedI_scyc (s : State) (clk : Clk) (due : Nat) (i : Instr) : (s.schedI clk due i).scyc = s.scyc := rfl
@[simp] theorem State.schedI_pend (s : State) (clk : Clk) (due : Nat) (i : Instr) : (s.schedI clk due i).pend = s.pend := rfl
@[simp] theorem State.schedI_links (s : State) (clk : Clk) (due : Nat) (i : Instr) : (s.schedI clk due i).links = s.links := rfl
@[simp] theorem State.schedI_cur (s : State) (clk : Clk) (due : Nat) (i : Instr) : (s.schedI clk due i).cur = s.cur := rfl
@[simp] theorem State.schedI_free (s : State) (clk : Clk) (due : Nat) (i : Instr) : (s.schedI clk due i).free = s.free := rfl
@[simp] theorem State.schedI_cores (s : State) (clk : Clk) (due : Nat) (i : Instr) : (s.schedI clk due i).cores = s.cores := rfl
@[simp] theorem State.schedI_panels (s : State) (clk : Clk) (due : Nat) (i : Instr) : (s.schedI clk due i).panels = s.panels := rfl
@[simp] theorem State.schedI_nextPid (s : State) (clk : Clk) (due : Nat) (i : Instr) : (s.schedI clk due i).nextPid = s.nextPid := rfl
@[simp] theorem State.schedI_hbm (s : State) (clk : Clk) (due : Nat) (i : Instr) : (s.schedI clk due i).hbm = s.hbm := rfl
@[simp] theorem State.schedI_hbmPoison (s : State) (clk : Clk) (due : Nat) (i : Instr) : (s.schedI clk due i).hbmPoison = s.hbmPoison := rfl
@[simp] theorem State.schedI_hbmUndef (s : State) (clk : Clk) (due : Nat) (i : Instr) : (s.schedI clk due i).hbmUndef = s.hbmUndef := rfl
@[simp] theorem State.schedI_hbmFaulty (s : State) (clk : Clk) (due : Nat) (i : Instr) : (s.schedI clk due i).hbmFaulty = s.hbmFaulty := rfl
@[simp] theorem State.schedI_ls (s : State) (clk : Clk) (due : Nat) (i : Instr) : (s.schedI clk due i).ls = s.ls := rfl
@[simp] theorem State.schedI_lsPoison (s : State) (clk : Clk) (due : Nat) (i : Instr) : (s.schedI clk due i).lsPoison = s.lsPoison := rfl
@[simp] theorem State.schedI_second (s : State) (clk : Clk) (due : Nat) (i : Instr) : (s.schedI clk due i).second = s.second := rfl
@[simp] theorem State.schedI_secondPoison (s : State) (clk : Clk) (due : Nat) (i : Instr) : (s.schedI clk due i).secondPoison = s.secondPoison := rfl
@[simp] theorem State.schedI_nv (s : State) (clk : Clk) (due : Nat) (i : Instr) : (s.schedI clk due i).nv = s.nv := rfl
@[simp] theorem State.schedI_ctl (s : State) (clk : Clk) (due : Nat) (i : Instr) : (s.schedI clk due i).ctl = s.ctl := rfl
@[simp] theorem State.schedI_live (s : State) (clk : Clk) (due : Nat) (i : Instr) : (s.schedI clk due i).live = s.live := rfl
@[simp] theorem State.schedI_launch (s : State) (clk : Clk) (due : Nat) (i : Instr) : (s.schedI clk due i).launch = s.launch := rfl
@[simp] theorem State.schedI_tenkey (s : State) (clk : Clk) (due : Nat) (i : Instr) : (s.schedI clk due i).tenkey = s.tenkey := rfl
@[simp] theorem State.schedI_launchFull (s : State) (clk : Clk) (due : Nat) (i : Instr) : (s.schedI clk due i).launchFull = s.launchFull := rfl
@[simp] theorem State.schedI_events (s : State) (clk : Clk) (due : Nat) (i : Instr) : (s.schedI clk due i).events = s.events := rfl
@[simp] theorem State.schedI_failrec (s : State) (clk : Clk) (due : Nat) (i : Instr) : (s.schedI clk due i).failrec = s.failrec := rfl
@[simp] theorem State.schedI_faq (s : State) (clk : Clk) (due : Nat) (i : Instr) : (s.schedI clk due i).faq = s.faq := rfl
@[simp] theorem State.schedI_frq (s : State) (clk : Clk) (due : Nat) (i : Instr) : (s.schedI clk due i).frq = s.frq := rfl
@[simp] theorem State.schedI_out (s : State) (clk : Clk) (due : Nat) (i : Instr) : (s.schedI clk due i).out = s.out := rfl
@[simp] theorem State.schedI_epochs (s : State) (clk : Clk) (due : Nat) (i : Instr) : (s.schedI clk due i).epochs = s.epochs := rfl
@[simp] theorem State.schedI_spans (s : State) (clk : Clk) (due : Nat) (i : Instr) : (s.schedI clk due i).spans = s.spans := rfl
@[simp] theorem State.schedI_walks (s : State) (clk : Clk) (due : Nat) (i : Instr) : (s.schedI clk due i).walks = s.walks := rfl
@[simp] theorem State.schedI_shoots (s : State) (clk : Clk) (due : Nat) (i : Instr) : (s.schedI clk due i).shoots = s.shoots := rfl
@[simp] theorem State.schedI_reqs (s : State) (clk : Clk) (due : Nat) (i : Instr) : (s.schedI clk due i).reqs = s.reqs := rfl
@[simp] theorem State.schedI_nextId (s : State) (clk : Clk) (due : Nat) (i : Instr) : (s.schedI clk due i).nextId = s.nextId := rfl
@[simp] theorem State.schedI_pchs (s : State) (clk : Clk) (due : Nat) (i : Instr) : (s.schedI clk due i).pchs = s.pchs := rfl
@[simp] theorem State.schedI_tests (s : State) (clk : Clk) (due : Nat) (i : Instr) : (s.schedI clk due i).tests = s.tests := rfl
@[simp] theorem State.schedI_copies (s : State) (clk : Clk) (due : Nat) (i : Instr) : (s.schedI clk due i).copies = s.copies := rfl
@[simp] theorem State.schedI_wbq (s : State) (clk : Clk) (due : Nat) (i : Instr) : (s.schedI clk due i).wbq = s.wbq := rfl
@[simp] theorem State.schedI_uq (s : State) (clk : Clk) (due : Nat) (i : Instr) : (s.schedI clk due i).uq = s.uq := rfl
@[simp] theorem State.schedI_hostq (s : State) (clk : Clk) (due : Nat) (i : Instr) : (s.schedI clk due i).hostq = s.hostq := rfl
@[simp] theorem State.schedI_dqueues (s : State) (clk : Clk) (due : Nat) (i : Instr) : (s.schedI clk due i).dqueues = s.dqueues := rfl
@[simp] theorem State.schedI_pages (s : State) (clk : Clk) (due : Nat) (i : Instr) : (s.schedI clk due i).pages = s.pages := rfl
@[simp] theorem State.schedI_chans (s : State) (clk : Clk) (due : Nat) (i : Instr) : (s.schedI clk due i).chans = s.chans := rfl
@[simp] theorem State.schedI_queueReqs (s : State) (clk : Clk) (due : Nat) (i : Instr) : (s.schedI clk due i).queueReqs = s.queueReqs := rfl
@[simp] theorem State.schedI_runs (s : State) (clk : Clk) (due : Nat) (i : Instr) : (s.schedI clk due i).runs = s.runs := rfl
@[simp] theorem State.schedI_pass (s : State) (clk : Clk) (due : Nat) (i : Instr) : (s.schedI clk due i).pass = s.pass := rfl
@[simp] theorem State.schedI_saved (s : State) (clk : Clk) (due : Nat) (i : Instr) : (s.schedI clk due i).saved = s.saved := rfl
@[simp] theorem State.schedI_linklat (s : State) (clk : Clk) (due : Nat) (i : Instr) : (s.schedI clk due i).linklat = s.linklat := rfl
@[simp] theorem State.schedI_portUpAt (s : State) (clk : Clk) (due : Nat) (i : Instr) : (s.schedI clk due i).portUpAt = s.portUpAt := rfl
@[simp] theorem State.schedI_portDownAt (s : State) (clk : Clk) (due : Nat) (i : Instr) : (s.schedI clk due i).portDownAt = s.portDownAt := rfl
@[simp] theorem State.schedI_drift (s : State) (clk : Clk) (due : Nat) (i : Instr) : (s.schedI clk due i).drift = s.drift := rfl
@[simp] theorem State.schedI_farLat (s : State) (clk : Clk) (due : Nat) (i : Instr) : (s.schedI clk due i).farLat = s.farLat := rfl
@[simp] theorem State.schedI_awayBusy (s : State) (clk : Clk) (due : Nat) (i : Instr) : (s.schedI clk due i).awayBusy = s.awayBusy := rfl
@[simp] theorem State.schedI_refSilent (s : State) (clk : Clk) (due : Nat) (i : Instr) : (s.schedI clk due i).refSilent = s.refSilent := rfl
@[simp] theorem State.schedI_hedgeLoaded (s : State) (clk : Clk) (due : Nat) (i : Instr) : (s.schedI clk due i).hedgeLoaded = s.hedgeLoaded := rfl
@[simp] theorem State.schedI_markerFrom (s : State) (clk : Clk) (due : Nat) (i : Instr) : (s.schedI clk due i).markerFrom = s.markerFrom := rfl
@[simp] theorem State.schedI_admitFrom (s : State) (clk : Clk) (due : Nat) (i : Instr) : (s.schedI clk due i).admitFrom = s.admitFrom := rfl
@[simp] theorem State.schedI_evict (s : State) (clk : Clk) (due : Nat) (i : Instr) : (s.schedI clk due i).evict = s.evict := rfl
@[simp] theorem State.schedI_partChange (s : State) (clk : Clk) (due : Nat) (i : Instr) : (s.schedI clk due i).partChange = s.partChange := rfl
@[simp] theorem State.schedI_olds (s : State) (clk : Clk) (due : Nat) (i : Instr) : (s.schedI clk due i).olds = s.olds := rfl
@[simp] theorem State.schedI_fwEntry (s : State) (clk : Clk) (due : Nat) (i : Instr) : (s.schedI clk due i).fwEntry = s.fwEntry := rfl
@[simp] theorem State.schedI_attM (s : State) (clk : Clk) (due : Nat) (i : Instr) : (s.schedI clk due i).attM = s.attM := rfl
@[simp] theorem State.schedI_attLog (s : State) (clk : Clk) (due : Nat) (i : Instr) : (s.schedI clk due i).attLog = s.attLog := rfl
@[simp] theorem State.schedI_attBuf (s : State) (clk : Clk) (due : Nat) (i : Instr) : (s.schedI clk due i).attBuf = s.attBuf := rfl
@[simp] theorem State.schedI_fdutyAt (s : State) (clk : Clk) (due : Nat) (i : Instr) : (s.schedI clk due i).fdutyAt = s.fdutyAt := rfl
@[simp] theorem State.schedI_power10 (s : State) (clk : Clk) (due : Nat) (i : Instr) : (s.schedI clk due i).power10 = s.power10 := rfl
@[simp] theorem State.schedI_units (s : State) (clk : Clk) (due : Nat) (i : Instr) : (s.schedI clk due i).units = s.units := rfl
@[simp] theorem State.schedI_dispHalt (s : State) (clk : Clk) (due : Nat) (i : Instr) : (s.schedI clk due i).dispHalt = s.dispHalt := rfl
@[simp] theorem State.schedI_bufs (s : State) (clk : Clk) (due : Nat) (i : Instr) : (s.schedI clk due i).bufs = s.bufs := rfl

/-! ## Copies -/

@[simp] theorem State.updCopy_variant (s : State) (id : Nat) (f : CopyRun → CopyRun) : (s.updCopy id f).variant = s.variant := rfl
@[simp] theorem State.updCopy_power (s : State) (id : Nat) (f : CopyRun → CopyRun) : (s.updCopy id f).power = s.power := rfl
@[simp] theorem State.updCopy_scyc (s : State) (id : Nat) (f : CopyRun → CopyRun) : (s.updCopy id f).scyc = s.scyc := rfl
@[simp] theorem State.updCopy_agenda (s : State) (id : Nat) (f : CopyRun → CopyRun) : (s.updCopy id f).agenda = s.agenda := rfl
@[simp] theorem State.updCopy_pend (s : State) (id : Nat) (f : CopyRun → CopyRun) : (s.updCopy id f).pend = s.pend := rfl
@[simp] theorem State.updCopy_links (s : State) (id : Nat) (f : CopyRun → CopyRun) : (s.updCopy id f).links = s.links := rfl
@[simp] theorem State.updCopy_cur (s : State) (id : Nat) (f : CopyRun → CopyRun) : (s.updCopy id f).cur = s.cur := rfl
@[simp] theorem State.updCopy_free (s : State) (id : Nat) (f : CopyRun → CopyRun) : (s.updCopy id f).free = s.free := rfl
@[simp] theorem State.updCopy_cores (s : State) (id : Nat) (f : CopyRun → CopyRun) : (s.updCopy id f).cores = s.cores := rfl
@[simp] theorem State.updCopy_panels (s : State) (id : Nat) (f : CopyRun → CopyRun) : (s.updCopy id f).panels = s.panels := rfl
@[simp] theorem State.updCopy_nextPid (s : State) (id : Nat) (f : CopyRun → CopyRun) : (s.updCopy id f).nextPid = s.nextPid := rfl
@[simp] theorem State.updCopy_hbm (s : State) (id : Nat) (f : CopyRun → CopyRun) : (s.updCopy id f).hbm = s.hbm := rfl
@[simp] theorem State.updCopy_hbmPoison (s : State) (id : Nat) (f : CopyRun → CopyRun) : (s.updCopy id f).hbmPoison = s.hbmPoison := rfl
@[simp] theorem State.updCopy_hbmUndef (s : State) (id : Nat) (f : CopyRun → CopyRun) : (s.updCopy id f).hbmUndef = s.hbmUndef := rfl
@[simp] theorem State.updCopy_hbmFaulty (s : State) (id : Nat) (f : CopyRun → CopyRun) : (s.updCopy id f).hbmFaulty = s.hbmFaulty := rfl
@[simp] theorem State.updCopy_ls (s : State) (id : Nat) (f : CopyRun → CopyRun) : (s.updCopy id f).ls = s.ls := rfl
@[simp] theorem State.updCopy_lsPoison (s : State) (id : Nat) (f : CopyRun → CopyRun) : (s.updCopy id f).lsPoison = s.lsPoison := rfl
@[simp] theorem State.updCopy_second (s : State) (id : Nat) (f : CopyRun → CopyRun) : (s.updCopy id f).second = s.second := rfl
@[simp] theorem State.updCopy_secondPoison (s : State) (id : Nat) (f : CopyRun → CopyRun) : (s.updCopy id f).secondPoison = s.secondPoison := rfl
@[simp] theorem State.updCopy_nv (s : State) (id : Nat) (f : CopyRun → CopyRun) : (s.updCopy id f).nv = s.nv := rfl
@[simp] theorem State.updCopy_ctl (s : State) (id : Nat) (f : CopyRun → CopyRun) : (s.updCopy id f).ctl = s.ctl := rfl
@[simp] theorem State.updCopy_live (s : State) (id : Nat) (f : CopyRun → CopyRun) : (s.updCopy id f).live = s.live := rfl
@[simp] theorem State.updCopy_launch (s : State) (id : Nat) (f : CopyRun → CopyRun) : (s.updCopy id f).launch = s.launch := rfl
@[simp] theorem State.updCopy_tenkey (s : State) (id : Nat) (f : CopyRun → CopyRun) : (s.updCopy id f).tenkey = s.tenkey := rfl
@[simp] theorem State.updCopy_launchFull (s : State) (id : Nat) (f : CopyRun → CopyRun) : (s.updCopy id f).launchFull = s.launchFull := rfl
@[simp] theorem State.updCopy_events (s : State) (id : Nat) (f : CopyRun → CopyRun) : (s.updCopy id f).events = s.events := rfl
@[simp] theorem State.updCopy_failrec (s : State) (id : Nat) (f : CopyRun → CopyRun) : (s.updCopy id f).failrec = s.failrec := rfl
@[simp] theorem State.updCopy_faq (s : State) (id : Nat) (f : CopyRun → CopyRun) : (s.updCopy id f).faq = s.faq := rfl
@[simp] theorem State.updCopy_frq (s : State) (id : Nat) (f : CopyRun → CopyRun) : (s.updCopy id f).frq = s.frq := rfl
@[simp] theorem State.updCopy_out (s : State) (id : Nat) (f : CopyRun → CopyRun) : (s.updCopy id f).out = s.out := rfl
@[simp] theorem State.updCopy_epochs (s : State) (id : Nat) (f : CopyRun → CopyRun) : (s.updCopy id f).epochs = s.epochs := rfl
@[simp] theorem State.updCopy_spans (s : State) (id : Nat) (f : CopyRun → CopyRun) : (s.updCopy id f).spans = s.spans := rfl
@[simp] theorem State.updCopy_walks (s : State) (id : Nat) (f : CopyRun → CopyRun) : (s.updCopy id f).walks = s.walks := rfl
@[simp] theorem State.updCopy_shoots (s : State) (id : Nat) (f : CopyRun → CopyRun) : (s.updCopy id f).shoots = s.shoots := rfl
@[simp] theorem State.updCopy_reqs (s : State) (id : Nat) (f : CopyRun → CopyRun) : (s.updCopy id f).reqs = s.reqs := rfl
@[simp] theorem State.updCopy_nextId (s : State) (id : Nat) (f : CopyRun → CopyRun) : (s.updCopy id f).nextId = s.nextId := rfl
@[simp] theorem State.updCopy_pchs (s : State) (id : Nat) (f : CopyRun → CopyRun) : (s.updCopy id f).pchs = s.pchs := rfl
@[simp] theorem State.updCopy_tests (s : State) (id : Nat) (f : CopyRun → CopyRun) : (s.updCopy id f).tests = s.tests := rfl
@[simp] theorem State.updCopy_wbq (s : State) (id : Nat) (f : CopyRun → CopyRun) : (s.updCopy id f).wbq = s.wbq := rfl
@[simp] theorem State.updCopy_uq (s : State) (id : Nat) (f : CopyRun → CopyRun) : (s.updCopy id f).uq = s.uq := rfl
@[simp] theorem State.updCopy_hostq (s : State) (id : Nat) (f : CopyRun → CopyRun) : (s.updCopy id f).hostq = s.hostq := rfl
@[simp] theorem State.updCopy_dqueues (s : State) (id : Nat) (f : CopyRun → CopyRun) : (s.updCopy id f).dqueues = s.dqueues := rfl
@[simp] theorem State.updCopy_pages (s : State) (id : Nat) (f : CopyRun → CopyRun) : (s.updCopy id f).pages = s.pages := rfl
@[simp] theorem State.updCopy_chans (s : State) (id : Nat) (f : CopyRun → CopyRun) : (s.updCopy id f).chans = s.chans := rfl
@[simp] theorem State.updCopy_queueReqs (s : State) (id : Nat) (f : CopyRun → CopyRun) : (s.updCopy id f).queueReqs = s.queueReqs := rfl
@[simp] theorem State.updCopy_runs (s : State) (id : Nat) (f : CopyRun → CopyRun) : (s.updCopy id f).runs = s.runs := rfl
@[simp] theorem State.updCopy_pass (s : State) (id : Nat) (f : CopyRun → CopyRun) : (s.updCopy id f).pass = s.pass := rfl
@[simp] theorem State.updCopy_saved (s : State) (id : Nat) (f : CopyRun → CopyRun) : (s.updCopy id f).saved = s.saved := rfl
@[simp] theorem State.updCopy_linklat (s : State) (id : Nat) (f : CopyRun → CopyRun) : (s.updCopy id f).linklat = s.linklat := rfl
@[simp] theorem State.updCopy_portUpAt (s : State) (id : Nat) (f : CopyRun → CopyRun) : (s.updCopy id f).portUpAt = s.portUpAt := rfl
@[simp] theorem State.updCopy_portDownAt (s : State) (id : Nat) (f : CopyRun → CopyRun) : (s.updCopy id f).portDownAt = s.portDownAt := rfl
@[simp] theorem State.updCopy_drift (s : State) (id : Nat) (f : CopyRun → CopyRun) : (s.updCopy id f).drift = s.drift := rfl
@[simp] theorem State.updCopy_farLat (s : State) (id : Nat) (f : CopyRun → CopyRun) : (s.updCopy id f).farLat = s.farLat := rfl
@[simp] theorem State.updCopy_awayBusy (s : State) (id : Nat) (f : CopyRun → CopyRun) : (s.updCopy id f).awayBusy = s.awayBusy := rfl
@[simp] theorem State.updCopy_refSilent (s : State) (id : Nat) (f : CopyRun → CopyRun) : (s.updCopy id f).refSilent = s.refSilent := rfl
@[simp] theorem State.updCopy_hedgeLoaded (s : State) (id : Nat) (f : CopyRun → CopyRun) : (s.updCopy id f).hedgeLoaded = s.hedgeLoaded := rfl
@[simp] theorem State.updCopy_markerFrom (s : State) (id : Nat) (f : CopyRun → CopyRun) : (s.updCopy id f).markerFrom = s.markerFrom := rfl
@[simp] theorem State.updCopy_admitFrom (s : State) (id : Nat) (f : CopyRun → CopyRun) : (s.updCopy id f).admitFrom = s.admitFrom := rfl
@[simp] theorem State.updCopy_evict (s : State) (id : Nat) (f : CopyRun → CopyRun) : (s.updCopy id f).evict = s.evict := rfl
@[simp] theorem State.updCopy_partChange (s : State) (id : Nat) (f : CopyRun → CopyRun) : (s.updCopy id f).partChange = s.partChange := rfl
@[simp] theorem State.updCopy_olds (s : State) (id : Nat) (f : CopyRun → CopyRun) : (s.updCopy id f).olds = s.olds := rfl
@[simp] theorem State.updCopy_fwEntry (s : State) (id : Nat) (f : CopyRun → CopyRun) : (s.updCopy id f).fwEntry = s.fwEntry := rfl
@[simp] theorem State.updCopy_attM (s : State) (id : Nat) (f : CopyRun → CopyRun) : (s.updCopy id f).attM = s.attM := rfl
@[simp] theorem State.updCopy_attLog (s : State) (id : Nat) (f : CopyRun → CopyRun) : (s.updCopy id f).attLog = s.attLog := rfl
@[simp] theorem State.updCopy_attBuf (s : State) (id : Nat) (f : CopyRun → CopyRun) : (s.updCopy id f).attBuf = s.attBuf := rfl
@[simp] theorem State.updCopy_fdutyAt (s : State) (id : Nat) (f : CopyRun → CopyRun) : (s.updCopy id f).fdutyAt = s.fdutyAt := rfl
@[simp] theorem State.updCopy_power10 (s : State) (id : Nat) (f : CopyRun → CopyRun) : (s.updCopy id f).power10 = s.power10 := rfl
@[simp] theorem State.updCopy_units (s : State) (id : Nat) (f : CopyRun → CopyRun) : (s.updCopy id f).units = s.units := rfl
@[simp] theorem State.updCopy_dispHalt (s : State) (id : Nat) (f : CopyRun → CopyRun) : (s.updCopy id f).dispHalt = s.dispHalt := rfl
@[simp] theorem State.updCopy_bufs (s : State) (id : Nat) (f : CopyRun → CopyRun) : (s.updCopy id f).bufs = s.bufs := rfl

/-! ## Runs -/

@[simp] theorem State.updRun_variant (s : State) (id : Nat) (f : Run → Run) : (s.updRun id f).variant = s.variant := rfl
@[simp] theorem State.updRun_power (s : State) (id : Nat) (f : Run → Run) : (s.updRun id f).power = s.power := rfl
@[simp] theorem State.updRun_scyc (s : State) (id : Nat) (f : Run → Run) : (s.updRun id f).scyc = s.scyc := rfl
@[simp] theorem State.updRun_agenda (s : State) (id : Nat) (f : Run → Run) : (s.updRun id f).agenda = s.agenda := rfl
@[simp] theorem State.updRun_pend (s : State) (id : Nat) (f : Run → Run) : (s.updRun id f).pend = s.pend := rfl
@[simp] theorem State.updRun_links (s : State) (id : Nat) (f : Run → Run) : (s.updRun id f).links = s.links := rfl
@[simp] theorem State.updRun_cur (s : State) (id : Nat) (f : Run → Run) : (s.updRun id f).cur = s.cur := rfl
@[simp] theorem State.updRun_free (s : State) (id : Nat) (f : Run → Run) : (s.updRun id f).free = s.free := rfl
@[simp] theorem State.updRun_cores (s : State) (id : Nat) (f : Run → Run) : (s.updRun id f).cores = s.cores := rfl
@[simp] theorem State.updRun_panels (s : State) (id : Nat) (f : Run → Run) : (s.updRun id f).panels = s.panels := rfl
@[simp] theorem State.updRun_nextPid (s : State) (id : Nat) (f : Run → Run) : (s.updRun id f).nextPid = s.nextPid := rfl
@[simp] theorem State.updRun_hbm (s : State) (id : Nat) (f : Run → Run) : (s.updRun id f).hbm = s.hbm := rfl
@[simp] theorem State.updRun_hbmPoison (s : State) (id : Nat) (f : Run → Run) : (s.updRun id f).hbmPoison = s.hbmPoison := rfl
@[simp] theorem State.updRun_hbmUndef (s : State) (id : Nat) (f : Run → Run) : (s.updRun id f).hbmUndef = s.hbmUndef := rfl
@[simp] theorem State.updRun_hbmFaulty (s : State) (id : Nat) (f : Run → Run) : (s.updRun id f).hbmFaulty = s.hbmFaulty := rfl
@[simp] theorem State.updRun_ls (s : State) (id : Nat) (f : Run → Run) : (s.updRun id f).ls = s.ls := rfl
@[simp] theorem State.updRun_lsPoison (s : State) (id : Nat) (f : Run → Run) : (s.updRun id f).lsPoison = s.lsPoison := rfl
@[simp] theorem State.updRun_second (s : State) (id : Nat) (f : Run → Run) : (s.updRun id f).second = s.second := rfl
@[simp] theorem State.updRun_secondPoison (s : State) (id : Nat) (f : Run → Run) : (s.updRun id f).secondPoison = s.secondPoison := rfl
@[simp] theorem State.updRun_nv (s : State) (id : Nat) (f : Run → Run) : (s.updRun id f).nv = s.nv := rfl
@[simp] theorem State.updRun_ctl (s : State) (id : Nat) (f : Run → Run) : (s.updRun id f).ctl = s.ctl := rfl
@[simp] theorem State.updRun_live (s : State) (id : Nat) (f : Run → Run) : (s.updRun id f).live = s.live := rfl
@[simp] theorem State.updRun_launch (s : State) (id : Nat) (f : Run → Run) : (s.updRun id f).launch = s.launch := rfl
@[simp] theorem State.updRun_tenkey (s : State) (id : Nat) (f : Run → Run) : (s.updRun id f).tenkey = s.tenkey := rfl
@[simp] theorem State.updRun_launchFull (s : State) (id : Nat) (f : Run → Run) : (s.updRun id f).launchFull = s.launchFull := rfl
@[simp] theorem State.updRun_events (s : State) (id : Nat) (f : Run → Run) : (s.updRun id f).events = s.events := rfl
@[simp] theorem State.updRun_failrec (s : State) (id : Nat) (f : Run → Run) : (s.updRun id f).failrec = s.failrec := rfl
@[simp] theorem State.updRun_faq (s : State) (id : Nat) (f : Run → Run) : (s.updRun id f).faq = s.faq := rfl
@[simp] theorem State.updRun_frq (s : State) (id : Nat) (f : Run → Run) : (s.updRun id f).frq = s.frq := rfl
@[simp] theorem State.updRun_out (s : State) (id : Nat) (f : Run → Run) : (s.updRun id f).out = s.out := rfl
@[simp] theorem State.updRun_epochs (s : State) (id : Nat) (f : Run → Run) : (s.updRun id f).epochs = s.epochs := rfl
@[simp] theorem State.updRun_spans (s : State) (id : Nat) (f : Run → Run) : (s.updRun id f).spans = s.spans := rfl
@[simp] theorem State.updRun_walks (s : State) (id : Nat) (f : Run → Run) : (s.updRun id f).walks = s.walks := rfl
@[simp] theorem State.updRun_shoots (s : State) (id : Nat) (f : Run → Run) : (s.updRun id f).shoots = s.shoots := rfl
@[simp] theorem State.updRun_reqs (s : State) (id : Nat) (f : Run → Run) : (s.updRun id f).reqs = s.reqs := rfl
@[simp] theorem State.updRun_nextId (s : State) (id : Nat) (f : Run → Run) : (s.updRun id f).nextId = s.nextId := rfl
@[simp] theorem State.updRun_pchs (s : State) (id : Nat) (f : Run → Run) : (s.updRun id f).pchs = s.pchs := rfl
@[simp] theorem State.updRun_tests (s : State) (id : Nat) (f : Run → Run) : (s.updRun id f).tests = s.tests := rfl
@[simp] theorem State.updRun_copies (s : State) (id : Nat) (f : Run → Run) : (s.updRun id f).copies = s.copies := rfl
@[simp] theorem State.updRun_wbq (s : State) (id : Nat) (f : Run → Run) : (s.updRun id f).wbq = s.wbq := rfl
@[simp] theorem State.updRun_uq (s : State) (id : Nat) (f : Run → Run) : (s.updRun id f).uq = s.uq := rfl
@[simp] theorem State.updRun_hostq (s : State) (id : Nat) (f : Run → Run) : (s.updRun id f).hostq = s.hostq := rfl
@[simp] theorem State.updRun_dqueues (s : State) (id : Nat) (f : Run → Run) : (s.updRun id f).dqueues = s.dqueues := rfl
@[simp] theorem State.updRun_pages (s : State) (id : Nat) (f : Run → Run) : (s.updRun id f).pages = s.pages := rfl
@[simp] theorem State.updRun_chans (s : State) (id : Nat) (f : Run → Run) : (s.updRun id f).chans = s.chans := rfl
@[simp] theorem State.updRun_queueReqs (s : State) (id : Nat) (f : Run → Run) : (s.updRun id f).queueReqs = s.queueReqs := rfl
@[simp] theorem State.updRun_pass (s : State) (id : Nat) (f : Run → Run) : (s.updRun id f).pass = s.pass := rfl
@[simp] theorem State.updRun_saved (s : State) (id : Nat) (f : Run → Run) : (s.updRun id f).saved = s.saved := rfl
@[simp] theorem State.updRun_linklat (s : State) (id : Nat) (f : Run → Run) : (s.updRun id f).linklat = s.linklat := rfl
@[simp] theorem State.updRun_portUpAt (s : State) (id : Nat) (f : Run → Run) : (s.updRun id f).portUpAt = s.portUpAt := rfl
@[simp] theorem State.updRun_portDownAt (s : State) (id : Nat) (f : Run → Run) : (s.updRun id f).portDownAt = s.portDownAt := rfl
@[simp] theorem State.updRun_drift (s : State) (id : Nat) (f : Run → Run) : (s.updRun id f).drift = s.drift := rfl
@[simp] theorem State.updRun_farLat (s : State) (id : Nat) (f : Run → Run) : (s.updRun id f).farLat = s.farLat := rfl
@[simp] theorem State.updRun_awayBusy (s : State) (id : Nat) (f : Run → Run) : (s.updRun id f).awayBusy = s.awayBusy := rfl
@[simp] theorem State.updRun_refSilent (s : State) (id : Nat) (f : Run → Run) : (s.updRun id f).refSilent = s.refSilent := rfl
@[simp] theorem State.updRun_hedgeLoaded (s : State) (id : Nat) (f : Run → Run) : (s.updRun id f).hedgeLoaded = s.hedgeLoaded := rfl
@[simp] theorem State.updRun_markerFrom (s : State) (id : Nat) (f : Run → Run) : (s.updRun id f).markerFrom = s.markerFrom := rfl
@[simp] theorem State.updRun_admitFrom (s : State) (id : Nat) (f : Run → Run) : (s.updRun id f).admitFrom = s.admitFrom := rfl
@[simp] theorem State.updRun_evict (s : State) (id : Nat) (f : Run → Run) : (s.updRun id f).evict = s.evict := rfl
@[simp] theorem State.updRun_partChange (s : State) (id : Nat) (f : Run → Run) : (s.updRun id f).partChange = s.partChange := rfl
@[simp] theorem State.updRun_olds (s : State) (id : Nat) (f : Run → Run) : (s.updRun id f).olds = s.olds := rfl
@[simp] theorem State.updRun_fwEntry (s : State) (id : Nat) (f : Run → Run) : (s.updRun id f).fwEntry = s.fwEntry := rfl
@[simp] theorem State.updRun_attM (s : State) (id : Nat) (f : Run → Run) : (s.updRun id f).attM = s.attM := rfl
@[simp] theorem State.updRun_attLog (s : State) (id : Nat) (f : Run → Run) : (s.updRun id f).attLog = s.attLog := rfl
@[simp] theorem State.updRun_attBuf (s : State) (id : Nat) (f : Run → Run) : (s.updRun id f).attBuf = s.attBuf := rfl
@[simp] theorem State.updRun_fdutyAt (s : State) (id : Nat) (f : Run → Run) : (s.updRun id f).fdutyAt = s.fdutyAt := rfl
@[simp] theorem State.updRun_power10 (s : State) (id : Nat) (f : Run → Run) : (s.updRun id f).power10 = s.power10 := rfl
@[simp] theorem State.updRun_units (s : State) (id : Nat) (f : Run → Run) : (s.updRun id f).units = s.units := rfl
@[simp] theorem State.updRun_dispHalt (s : State) (id : Nat) (f : Run → Run) : (s.updRun id f).dispHalt = s.dispHalt := rfl
@[simp] theorem State.updRun_bufs (s : State) (id : Nat) (f : Run → Run) : (s.updRun id f).bufs = s.bufs := rfl

/-! ## The bundle in hand -/

@[simp] theorem State.plus_variant (s : State) (l : List Pend) : (s.plus l).variant = s.variant := rfl
@[simp] theorem State.plus_power (s : State) (l : List Pend) : (s.plus l).power = s.power := rfl
@[simp] theorem State.plus_scyc (s : State) (l : List Pend) : (s.plus l).scyc = s.scyc := rfl
@[simp] theorem State.plus_agenda (s : State) (l : List Pend) : (s.plus l).agenda = s.agenda := rfl
@[simp] theorem State.plus_pend (s : State) (l : List Pend) : (s.plus l).pend = s.pend := rfl
@[simp] theorem State.plus_links (s : State) (l : List Pend) : (s.plus l).links = s.links := rfl
@[simp] theorem State.plus_free (s : State) (l : List Pend) : (s.plus l).free = s.free := rfl
@[simp] theorem State.plus_cores (s : State) (l : List Pend) : (s.plus l).cores = s.cores := rfl
@[simp] theorem State.plus_panels (s : State) (l : List Pend) : (s.plus l).panels = s.panels := rfl
@[simp] theorem State.plus_nextPid (s : State) (l : List Pend) : (s.plus l).nextPid = s.nextPid := rfl
@[simp] theorem State.plus_hbm (s : State) (l : List Pend) : (s.plus l).hbm = s.hbm := rfl
@[simp] theorem State.plus_hbmPoison (s : State) (l : List Pend) : (s.plus l).hbmPoison = s.hbmPoison := rfl
@[simp] theorem State.plus_hbmUndef (s : State) (l : List Pend) : (s.plus l).hbmUndef = s.hbmUndef := rfl
@[simp] theorem State.plus_hbmFaulty (s : State) (l : List Pend) : (s.plus l).hbmFaulty = s.hbmFaulty := rfl
@[simp] theorem State.plus_ls (s : State) (l : List Pend) : (s.plus l).ls = s.ls := rfl
@[simp] theorem State.plus_lsPoison (s : State) (l : List Pend) : (s.plus l).lsPoison = s.lsPoison := rfl
@[simp] theorem State.plus_second (s : State) (l : List Pend) : (s.plus l).second = s.second := rfl
@[simp] theorem State.plus_secondPoison (s : State) (l : List Pend) : (s.plus l).secondPoison = s.secondPoison := rfl
@[simp] theorem State.plus_nv (s : State) (l : List Pend) : (s.plus l).nv = s.nv := rfl
@[simp] theorem State.plus_ctl (s : State) (l : List Pend) : (s.plus l).ctl = s.ctl := rfl
@[simp] theorem State.plus_live (s : State) (l : List Pend) : (s.plus l).live = s.live := rfl
@[simp] theorem State.plus_launch (s : State) (l : List Pend) : (s.plus l).launch = s.launch := rfl
@[simp] theorem State.plus_tenkey (s : State) (l : List Pend) : (s.plus l).tenkey = s.tenkey := rfl
@[simp] theorem State.plus_launchFull (s : State) (l : List Pend) : (s.plus l).launchFull = s.launchFull := rfl
@[simp] theorem State.plus_events (s : State) (l : List Pend) : (s.plus l).events = s.events := rfl
@[simp] theorem State.plus_failrec (s : State) (l : List Pend) : (s.plus l).failrec = s.failrec := rfl
@[simp] theorem State.plus_faq (s : State) (l : List Pend) : (s.plus l).faq = s.faq := rfl
@[simp] theorem State.plus_frq (s : State) (l : List Pend) : (s.plus l).frq = s.frq := rfl
@[simp] theorem State.plus_out (s : State) (l : List Pend) : (s.plus l).out = s.out := rfl
@[simp] theorem State.plus_epochs (s : State) (l : List Pend) : (s.plus l).epochs = s.epochs := rfl
@[simp] theorem State.plus_spans (s : State) (l : List Pend) : (s.plus l).spans = s.spans := rfl
@[simp] theorem State.plus_walks (s : State) (l : List Pend) : (s.plus l).walks = s.walks := rfl
@[simp] theorem State.plus_shoots (s : State) (l : List Pend) : (s.plus l).shoots = s.shoots := rfl
@[simp] theorem State.plus_reqs (s : State) (l : List Pend) : (s.plus l).reqs = s.reqs := rfl
@[simp] theorem State.plus_nextId (s : State) (l : List Pend) : (s.plus l).nextId = s.nextId := rfl
@[simp] theorem State.plus_pchs (s : State) (l : List Pend) : (s.plus l).pchs = s.pchs := rfl
@[simp] theorem State.plus_tests (s : State) (l : List Pend) : (s.plus l).tests = s.tests := rfl
@[simp] theorem State.plus_copies (s : State) (l : List Pend) : (s.plus l).copies = s.copies := rfl
@[simp] theorem State.plus_wbq (s : State) (l : List Pend) : (s.plus l).wbq = s.wbq := rfl
@[simp] theorem State.plus_uq (s : State) (l : List Pend) : (s.plus l).uq = s.uq := rfl
@[simp] theorem State.plus_hostq (s : State) (l : List Pend) : (s.plus l).hostq = s.hostq := rfl
@[simp] theorem State.plus_dqueues (s : State) (l : List Pend) : (s.plus l).dqueues = s.dqueues := rfl
@[simp] theorem State.plus_pages (s : State) (l : List Pend) : (s.plus l).pages = s.pages := rfl
@[simp] theorem State.plus_chans (s : State) (l : List Pend) : (s.plus l).chans = s.chans := rfl
@[simp] theorem State.plus_queueReqs (s : State) (l : List Pend) : (s.plus l).queueReqs = s.queueReqs := rfl
@[simp] theorem State.plus_runs (s : State) (l : List Pend) : (s.plus l).runs = s.runs := rfl
@[simp] theorem State.plus_pass (s : State) (l : List Pend) : (s.plus l).pass = s.pass := rfl
@[simp] theorem State.plus_saved (s : State) (l : List Pend) : (s.plus l).saved = s.saved := rfl
@[simp] theorem State.plus_linklat (s : State) (l : List Pend) : (s.plus l).linklat = s.linklat := rfl
@[simp] theorem State.plus_portUpAt (s : State) (l : List Pend) : (s.plus l).portUpAt = s.portUpAt := rfl
@[simp] theorem State.plus_portDownAt (s : State) (l : List Pend) : (s.plus l).portDownAt = s.portDownAt := rfl
@[simp] theorem State.plus_drift (s : State) (l : List Pend) : (s.plus l).drift = s.drift := rfl
@[simp] theorem State.plus_farLat (s : State) (l : List Pend) : (s.plus l).farLat = s.farLat := rfl
@[simp] theorem State.plus_awayBusy (s : State) (l : List Pend) : (s.plus l).awayBusy = s.awayBusy := rfl
@[simp] theorem State.plus_refSilent (s : State) (l : List Pend) : (s.plus l).refSilent = s.refSilent := rfl
@[simp] theorem State.plus_hedgeLoaded (s : State) (l : List Pend) : (s.plus l).hedgeLoaded = s.hedgeLoaded := rfl
@[simp] theorem State.plus_markerFrom (s : State) (l : List Pend) : (s.plus l).markerFrom = s.markerFrom := rfl
@[simp] theorem State.plus_admitFrom (s : State) (l : List Pend) : (s.plus l).admitFrom = s.admitFrom := rfl
@[simp] theorem State.plus_evict (s : State) (l : List Pend) : (s.plus l).evict = s.evict := rfl
@[simp] theorem State.plus_partChange (s : State) (l : List Pend) : (s.plus l).partChange = s.partChange := rfl
@[simp] theorem State.plus_olds (s : State) (l : List Pend) : (s.plus l).olds = s.olds := rfl
@[simp] theorem State.plus_fwEntry (s : State) (l : List Pend) : (s.plus l).fwEntry = s.fwEntry := rfl
@[simp] theorem State.plus_attM (s : State) (l : List Pend) : (s.plus l).attM = s.attM := rfl
@[simp] theorem State.plus_attLog (s : State) (l : List Pend) : (s.plus l).attLog = s.attLog := rfl
@[simp] theorem State.plus_attBuf (s : State) (l : List Pend) : (s.plus l).attBuf = s.attBuf := rfl
@[simp] theorem State.plus_fdutyAt (s : State) (l : List Pend) : (s.plus l).fdutyAt = s.fdutyAt := rfl
@[simp] theorem State.plus_power10 (s : State) (l : List Pend) : (s.plus l).power10 = s.power10 := rfl
@[simp] theorem State.plus_units (s : State) (l : List Pend) : (s.plus l).units = s.units := rfl
@[simp] theorem State.plus_dispHalt (s : State) (l : List Pend) : (s.plus l).dispHalt = s.dispHalt := rfl
@[simp] theorem State.plus_bufs (s : State) (l : List Pend) : (s.plus l).bufs = s.bufs := rfl

end Sys2Proof.Machine
end

