-- ==== Sys2Proof/Laws/Control.lean ====
section
/-!
SUPPORT. Control registers and their fields: a read after a write of a whole register or of a field (R350).
-/
namespace Sys2Proof.Machine

theorem State.ctlGet_ctlSet (s : State) (off o : Nat) (v : Word) : (s.ctlSet off v).ctlGet o = if o = off then v else s.ctlGet o := by
  unfold State.ctlGet State.ctlSet
  rw [spGet_put]
  by_cases h : o = off
  · subst h
    by_cases hv : v = ctlReset s.variant o <;> simp [hv]
  · simp [h]

@[simp] theorem State.ctlGet_ctlSet_same (s : State) (off : Nat) (v : Word) : (s.ctlSet off v).ctlGet off = v := by
  simp [State.ctlGet_ctlSet]

theorem State.ctlGet_ctlSet_ne (s : State) {off o : Nat} (v : Word) (h : o ≠ off) : (s.ctlSet off v).ctlGet o = s.ctlGet o := by
  simp [State.ctlGet_ctlSet, h]

theorem fld_lt (w lo n : Nat) : fld w lo n < 2 ^ n := Nat.mod_lt _ (Nat.two_pow_pos _)

theorem fld_testBit (w lo n j : Nat) : (fld w lo n).testBit j = (decide (j < n) && w.testBit (lo + j)) := by
  unfold fld
  rw [Nat.testBit_mod_two_pow, Nat.testBit_div_two_pow, Nat.add_comm]

/-- A word split at a field. -/
theorem fld_split (w lo n : Nat) : w = w / 2 ^ (lo + n) * 2 ^ (lo + n) + fld w lo n * 2 ^ lo + w % 2 ^ lo := by
  unfold fld
  have h1 := Nat.div_add_mod w (2 ^ lo)
  have h2 := Nat.div_add_mod (w / 2 ^ lo) (2 ^ n)
  rw [Nat.div_div_eq_div_mul, ← Nat.pow_add] at h2
  have h3 := congrArg (· * 2 ^ lo) h2
  simp only [Nat.add_mul] at h3
  rw [Nat.pow_add] at h3 ⊢
  rw [Nat.mul_comm (2 ^ n), Nat.mul_assoc, Nat.mul_comm (2 ^ n)] at h3
  rw [Nat.mul_comm (2 ^ lo)] at h1
  omega

theorem setFld_toNat (w : Word) (lo n v : Nat) (h : lo + n ≤ 64) : (setFld w lo n v).toNat =
    w.toNat / 2 ^ (lo + n) * 2 ^ (lo + n) + v % 2 ^ n * 2 ^ lo + w.toNat % 2 ^ lo := by
  unfold setFld
  have h1 := fld_split w.toNat lo n
  have hw : w.toNat / 2 ^ (lo + n) < 2 ^ (64 - (lo + n)) := by
    rw [Nat.div_lt_iff_lt_mul (Nat.two_pow_pos _), ← Nat.pow_add]
    have : 64 - (lo + n) + (lo + n) = 64 := by omega
    rw [this]; exact w.isLt
  have hv : v % 2 ^ n < 2 ^ n := Nat.mod_lt _ (Nat.two_pow_pos _)
  have hm : w.toNat % 2 ^ lo < 2 ^ lo := Nat.mod_lt _ (Nat.two_pow_pos _)
  have e : w.toNat - fld w.toNat lo n * 2 ^ lo + v % 2 ^ n * 2 ^ lo =
      w.toNat / 2 ^ (lo + n) * 2 ^ (lo + n) + v % 2 ^ n * 2 ^ lo + w.toNat % 2 ^ lo := by
    generalize w.toNat / 2 ^ (lo + n) * 2 ^ (lo + n) = x at *
    generalize fld w.toNat lo n * 2 ^ lo = y at *
    omega
  rw [e, BitVec.toNat_ofNat, Nat.mod_eq_of_lt]
  have hlo : (v % 2 ^ n + 1) * 2 ^ lo ≤ 2 ^ n * 2 ^ lo := Nat.mul_le_mul_right _ hv
  have hhi : (w.toNat / 2 ^ (lo + n) + 1) * 2 ^ (lo + n) ≤ 2 ^ (64 - (lo + n)) * 2 ^ (lo + n) := Nat.mul_le_mul_right _ hw
  rw [← Nat.pow_add] at hlo hhi
  have e2 : 64 - (lo + n) + (lo + n) = 64 := by omega
  rw [e2] at hhi
  rw [Nat.add_mul, Nat.one_mul] at hlo hhi
  rw [Nat.add_comm n lo] at hlo
  omega

/-- Bit j of a word in which a field has been set. -/
theorem setFld_getLsbD (w : Word) (lo n v j : Nat) (h : lo + n ≤ 64) :
    (setFld w lo n v).getLsbD j = if lo ≤ j ∧ j < lo + n then v.testBit (j - lo) else w.getLsbD j := by
  have hv : v % 2 ^ n < 2 ^ n := Nat.mod_lt _ (Nat.two_pow_pos _)
  have hm : w.toNat % 2 ^ lo < 2 ^ lo := Nat.mod_lt _ (Nat.two_pow_pos _)
  have hlo : (v % 2 ^ n) * 2 ^ lo + w.toNat % 2 ^ lo < 2 ^ (lo + n) := by
    have := Nat.mul_le_mul_right (2 ^ lo) (show v % 2 ^ n + 1 ≤ 2 ^ n from hv)
    rw [Nat.add_mul, Nat.one_mul] at this
    rw [Nat.pow_add, Nat.mul_comm (2 ^ lo)]; omega
  rw [BitVec.getLsbD, setFld_toNat w lo n v h, Nat.add_assoc, Nat.mul_comm _ (2 ^ (lo + n)), Nat.testBit_two_pow_mul_add _ hlo]
  by_cases h1 : j < lo + n
  · rw [if_pos h1, Nat.mul_comm, Nat.testBit_two_pow_mul_add _ hm]
    by_cases h2 : j < lo
    · rw [if_pos h2, if_neg (by omega), Nat.testBit_mod_two_pow]; simp [h2, BitVec.getLsbD]
    · rw [if_neg h2, if_pos (by omega), Nat.testBit_mod_two_pow]; simp; omega
  · rw [if_neg h1, if_neg (by omega), Nat.testBit_div_two_pow, BitVec.getLsbD]
    congr 1; omega

/-- A field read back after it has been set. -/
theorem fld_setFld_same (w : Word) (lo n v : Nat) (h : lo + n ≤ 64) : fld (setFld w lo n v).toNat lo n = v % 2 ^ n := by
  apply Nat.eq_of_testBit_eq
  intro j
  rw [fld_testBit, Nat.testBit_mod_two_pow]
  by_cases hj : j < n
  · have := setFld_getLsbD w lo n v (lo + j) h
    rw [BitVec.getLsbD] at this
    rw [this, if_pos (by omega)]; simp [hj]
  · simp [hj]

/-- A field that lies apart from the one that is set keeps its value. -/
theorem fld_setFld_apart (w : Word) (lo n v a m : Nat) (h : lo + n ≤ 64) (hd : a + m ≤ lo ∨ lo + n ≤ a) :
    fld (setFld w lo n v).toNat a m = fld w.toNat a m := by
  apply Nat.eq_of_testBit_eq
  intro j
  rw [fld_testBit, fld_testBit]
  by_cases hj : j < m
  · have := setFld_getLsbD w lo n v (a + j) h
    rw [if_neg (by omega)] at this
    simp only [BitVec.getLsbD] at this
    rw [this]
  · simp [hj]

theorem State.ctlFld_set_same (s : State) (off lo n v : Nat) (h : lo + n ≤ 64) : (s.ctlSetFld off lo n v).ctlFld off lo n = v % 2 ^ n := by
  rw [State.ctlFld, State.ctlSetFld, State.ctlGet_ctlSet_same, fld_setFld_same _ _ _ _ h]

theorem State.ctlFld_set_apart (s : State) (off lo n v a m : Nat) (h : lo + n ≤ 64) (hd : a + m ≤ lo ∨ lo + n ≤ a) :
    (s.ctlSetFld off lo n v).ctlFld off a m = s.ctlFld off a m := by
  rw [State.ctlFld, State.ctlSetFld, State.ctlGet_ctlSet_same, fld_setFld_apart _ _ _ _ _ _ h hd]; rfl

theorem State.ctlFld_set_ne (s : State) {off o : Nat} (lo n v a m : Nat) (h : o ≠ off) :
    (s.ctlSetFld off lo n v).ctlFld o a m = s.ctlFld o a m := by
  rw [State.ctlFld, State.ctlSetFld, State.ctlGet_ctlSet_ne _ _ h]; rfl

theorem State.setsField (s : State) (off lo n v : Nat) (h : lo + n ≤ 64) : SetsField s (s.ctlSetFld off lo n v) off lo n v := by
  refine ⟨fun j _ => ?_, fun o ho => State.ctlGet_ctlSet_ne s _ ho⟩
  rw [State.ctlSetFld, State.ctlGet_ctlSet_same, setFld_getLsbD _ _ _ _ _ h]

theorem State.onlyCtl_set (s : State) (off lo n v : Nat) : OnlyCtl s (s.ctlSetFld off lo n v) := rfl

end Sys2Proof.Machine
end

