-- ==== Sys2Proof/Laws/Memory.lean ====
section
/-!
SUPPORT. Every operation over the memories keeps them in their canonical form; State.reset has it.
-/
namespace Sys2Proof.Machine

theorem Memory.wf_iff (s : State) : Memory.wf s = true ↔
    spWf none s.hbm = true ∧ spWf none s.hbmPoison = true ∧ spWf 0 s.ls = true ∧ spWf false s.lsPoison = true ∧
    spWf 0 s.second = true ∧ spWf false s.secondPoison = true ∧ spWf 0 s.nv = true ∧ spWf 0 s.launch = true ∧ spWf 0 s.tenkey = true ∧
    spWf false s.hbmFaulty = true ∧ spWf 0 s.attBuf = true ∧ s.olds.all OldMap.memWf = true ∧ (s.cores.all fun e => e.2.memWf) = true := by
  simp only [Memory.wf, Bool.and_eq_true, and_assoc]

/-- A change that leaves the memories alone. -/
theorem Memory.wf_same {s t : State} (hs : Memory.wf s = true) (h1 : t.hbm = s.hbm) (h2 : t.hbmPoison = s.hbmPoison) (h3 : t.ls = s.ls)
    (h4 : t.lsPoison = s.lsPoison) (h5 : t.second = s.second) (h6 : t.secondPoison = s.secondPoison) (h7 : t.nv = s.nv)
    (h8 : t.launch = s.launch) (h9 : t.tenkey = s.tenkey) (h10 : t.hbmFaulty = s.hbmFaulty) (h11 : t.attBuf = s.attBuf) (h12 : t.olds = s.olds)
    (h13 : t.cores = s.cores) : Memory.wf t = true := by
  simpa only [Memory.wf, h1, h2, h3, h4, h5, h6, h7, h8, h9, h10, h11, h12, h13] using hs

theorem Memory.wf_reset : Memory.wf State.reset = true := rfl

/-! ## HBM4E -/

theorem Memory.wf_hbmSet (s : State) (a : Nat) (b : Byte) (h : Memory.wf s = true) : Memory.wf (s.hbmSet a b) = true := by
  rw [Memory.wf_iff] at h ⊢
  exact ⟨spWf_put _ _ _ _ h.1, h.2⟩

theorem Memory.wf_hbmSetTag (s : State) (a : Nat) (b : Bool) (h : Memory.wf s = true) : Memory.wf (s.hbmSetTag a b) = true := by
  rw [Memory.wf_iff] at h ⊢
  exact ⟨h.1, spWf_put _ _ _ _ h.2.1, h.2.2⟩

theorem Memory.wf_hbmPut (s : State) (a : Nat) (ks : List Bool) (bs : List Byte) (h : Memory.wf s = true) :
    Memory.wf (s.hbmPut a ks bs) = true := by
  induction ks generalizing s a bs with
  | nil => simpa [State.hbmPut] using h
  | cons k ks ih =>
    cases bs with
    | nil => simpa [State.hbmPut] using h
    | cons b bs =>
      cases k
      · exact ih _ _ _ h
      · exact ih _ _ _ (Memory.wf_hbmSet s a b h)

theorem Memory.wf_faqLog (s : State) (part cls : Nat) (place : Option Nat) (paddr : Nat) (ten : Option Nat) (h : Memory.wf s = true) :
    Memory.wf (s.faqLog part cls place paddr ten) = true := h

theorem Memory.wf_setFaulty (s : State) (a : Nat) (b : Bool) (h : Memory.wf s = true) :
    Memory.wf { s with hbmFaulty := spPut false s.hbmFaulty a b } = true := by
  rw [Memory.wf_iff] at h ⊢
  obtain ⟨h1, h2, h3, h4, h5, h6, h7, h8, h9, h10, h11⟩ := h
  exact ⟨h1, h2, h3, h4, h5, h6, h7, h8, h9, spWf_put _ _ _ _ h10, h11⟩

theorem Memory.wf_lineFault (s : State) (a : Nat) (d : BitVec 512) (ce : Bool) (h : Memory.wf s = true) :
    Memory.wf (s.lineFault a d ce) = true := by
  unfold State.lineFault
  dsimp only
  split
  · split
    · exact h
    · exact Memory.wf_setFaulty _ _ _ h
  · exact Memory.wf_hbmSetTag _ _ _ (Memory.wf_hbmPut _ _ _ _ (Memory.wf_setFaulty _ _ _ h))

theorem Memory.wf_readLine (s : State) (part a : Nat) (ten : Option Nat) (h : Memory.wf s = true) :
    Memory.wf (s.readLine part a ten).1 = true := by
  unfold State.readLine
  dsimp only
  split
  · exact h
  · split <;> exact h

theorem Memory.wf_writeLine (s : State) (part a : Nat) (mask : BitVec 64) (l : Line) (ten : Option Nat) (h : Memory.wf s = true) :
    Memory.wf (s.writeLine part a mask l ten) = true := by
  unfold State.writeLine
  split
  · exact h
  · apply Memory.wf_hbmSetTag
    apply Memory.wf_setFaulty
    apply Memory.wf_hbmPut
    split
    · exact h
    · split
      · exact h
      · split <;> exact h

theorem Memory.wf_makeUndef (s : State) (lo hi : Nat) (b : Option BankId) (h : Memory.wf s = true) :
    Memory.wf (s.makeUndef lo hi b) = true := by
  rw [Memory.wf_iff] at h ⊢
  obtain ⟨h1, h2, h3, h4, h5, h6, h7, h8, h9, h10, h11⟩ := h
  exact ⟨spWf_filter _ _ _ h1, spWf_filter _ _ _ h2, h3, h4, h5, h6, h7, h8, h9, spWf_filter _ _ _ h10, h11⟩

theorem Memory.wf_clearHbm (s : State) (lo n : Nat) (h : Memory.wf s = true) : Memory.wf (s.clearHbm lo n) = true := by
  rw [Memory.wf_iff] at h ⊢
  obtain ⟨h1, h2, h3, h4, h5, h6, h7, h8, h9, h10, h11⟩ := h
  exact ⟨spWf_filter _ _ _ h1, spWf_filter _ _ _ h2, h3, h4, h5, h6, h7, h8, h9, spWf_filter _ _ _ h10, h11⟩

/-- A fold of steps that each keep the form keeps it. -/
theorem Memory.wf_foldl {α : Type} (f : State → α → State) (hf : ∀ s x, Memory.wf s = true → Memory.wf (f s x) = true) (l : List α)
    (s : State) (h : Memory.wf s = true) : Memory.wf (l.foldl f s) = true := by
  induction l generalizing s with
  | nil => exact h
  | cons x l ih => exact ih _ (hf s x h)

theorem Memory.wf_lineKept (t s : State) (a : Nat) (h : Memory.wf t = true) : Memory.wf (t.lineKept s a) = true :=
  Memory.wf_setFaulty _ _ _ (Memory.wf_hbmSetTag _ _ _ (Memory.wf_hbmPut _ _ _ _ h))

theorem Memory.wf_putPieces (s : State) (base : Nat) (ps : List (Nat × List Byte)) (h : Memory.wf s = true) :
    Memory.wf (ps.foldl (fun s x => s.hbmBytesPut (base + x.1) x.2) s) = true :=
  Memory.wf_foldl _ (fun s _ h => Memory.wf_hbmPut s _ _ _ h) _ _ h

theorem Memory.wf_putTags (s : State) (f : Nat × Bool → Nat) (l : Sparse Bool) (h : Memory.wf s = true) :
    Memory.wf (l.foldl (fun s e => s.hbmSetTag (f e) true) s) = true :=
  Memory.wf_foldl _ (fun s _ h => Memory.wf_hbmSetTag s _ _ h) _ _ h

theorem Memory.wf_keepLines (t s : State) (part : Nat → Nat) (ten : Option Nat) (l : List Nat) (h : Memory.wf t = true) :
    Memory.wf (l.foldl (fun t a => (t.lineKept s a).faqLog (part a) 3 (some a) a ten) t) = true :=
  Memory.wf_foldl _ (fun t a h => Memory.wf_faqLog _ _ _ _ _ _ (Memory.wf_lineKept t s a h)) _ _ h

theorem Memory.wf_writeImage (s : State) (v : Saved) (core : Nat) (slot : Nat × Nat) (h : Memory.wf s = true) :
    Memory.wf (s.writeImage v core slot) = true := by
  unfold State.writeImage
  have h1 := Memory.wf_putTags _ (fun e => s.slotAddr slot + 0x100000 + 64 * e.1) (s.core core).spPoison
    (Memory.wf_putPieces _ (s.slotAddr slot) (imagePieces s v core (s.core core)) (Memory.wf_clearHbm s (s.slotAddr slot) (2 ^ 21) h))
  dsimp only at h1 ⊢
  generalize imagePieces s v core (s.core core) = ps at h1 ⊢
  split
  · exact Memory.wf_keepLines _ s (fun a => (s.partOfAddr a).getD 0) _ _ h1
  · exact h1

/-! ## The memories of a core -/

theorem CoreSt.memWf_iff (c : CoreSt) : c.memWf = true ↔ spWf 0 c.sp = true ∧ spWf false c.spPoison = true ∧ spWf 0 c.istore = true := by
  simp only [CoreSt.memWf, Bool.and_eq_true, and_assoc]

theorem CoreSt.memWf_spWrite (c : CoreSt) (a : Nat) (bs : List Byte) (m : Bool) (h : c.memWf = true) : (c.spWrite a bs m).memWf = true := by
  rw [CoreSt.memWf_iff] at h ⊢
  refine ⟨spWf_putBytes _ _ _ h.1, ?_, h.2.2⟩
  unfold CoreSt.spWrite
  dsimp only
  split
  · exact spWf_put _ _ _ _ h.2.1
  · split
    · exact spWf_put _ _ _ _ h.2.1
    · exact h.2.1

theorem CoreSt.memWf_loadOverlay (c : CoreSt) (slot : Nat) (code : List Byte) (image : BitVec 32) (n : Nat) (h : c.memWf = true) :
    (c.loadOverlay slot code image n).memWf = true := by
  rw [CoreSt.memWf_iff] at h ⊢
  exact ⟨h.1, h.2.1, spWf_putBytes _ _ _ h.2.2⟩

theorem CoreSt.memWf_idle : CoreSt.idle.memWf = true := rfl

/-- A core of a package whose memories are in form. -/
theorem Memory.wf_core (s : State) (c : Nat) (h : Memory.wf s = true) : (s.core c).memWf = true := by
  rw [Memory.wf_iff] at h
  obtain ⟨-, -, -, -, -, -, -, -, -, -, -, -, h⟩ := h
  unfold State.core
  generalize s.cores = l at h
  induction l with
  | nil => rfl
  | cons e l ih =>
    obtain ⟨j, x⟩ := e
    simp only [List.all_cons, Bool.and_eq_true] at h
    unfold spGet
    split
    · exact h.1
    · exact ih h.2

/-- A core put in the place of another. -/
theorem Memory.wf_setCore (s : State) (c : Nat) (x : CoreSt) (hx : x.memWf = true) (h : Memory.wf s = true) :
    Memory.wf (s.setCore c x) = true := by
  rw [Memory.wf_iff] at h ⊢
  obtain ⟨h1, h2, h3, h4, h5, h6, h7, h8, h9, h10, h11, h12, h13⟩ := h
  refine ⟨h1, h2, h3, h4, h5, h6, h7, h8, h9, h10, h11, h12, ?_⟩
  rw [List.all_eq_true] at h13 ⊢
  intro e he
  unfold State.setCore spPut at he
  dsimp only at he
  split at he
  · exact h13 e (mem_erase he).1
  · rcases mem_insert he with rfl | he
    · exact hx
    · exact h13 e (mem_erase he).1

theorem Memory.wf_updCore (s : State) (c : Nat) (f : CoreSt → CoreSt) (hf : ∀ x, x.memWf = true → (f x).memWf = true)
    (h : Memory.wf s = true) : Memory.wf (s.updCore c f) = true :=
  Memory.wf_setCore s c _ (hf _ (Memory.wf_core s c h)) h

theorem Memory.wf_updCtx (s : State) (c k : Nat) (f : Ctx → Ctx) (h : Memory.wf s = true) : Memory.wf (s.updCtx c k f) = true :=
  Memory.wf_updCore s c _ (fun _ hx => hx) h

/-! ## The latent store and the second tier -/

theorem Memory.wf_lsWrite (s : State) (p : LsAddr) (mask : List Bool) (bs : List Byte) (m : Bool) (h : Memory.wf s = true) :
    Memory.wf (s.lsWrite p mask bs m) = true := by
  rw [Memory.wf_iff] at h ⊢
  refine ⟨h.1, h.2.1, spWf_putMasked _ _ _ _ h.2.2.1, ?_, h.2.2.2.2⟩
  unfold State.lsWrite
  dsimp only
  split
  · exact spWf_put _ _ _ _ h.2.2.2.1
  · split
    · exact spWf_put _ _ _ _ h.2.2.2.1
    · exact h.2.2.2.1

theorem Memory.wf_setQueueDesc (s : State) (q n : Nat) (h : Memory.wf s = true) : Memory.wf (s.setQueueDesc q n) = true := by
  rw [Memory.wf_iff] at h ⊢
  exact ⟨h.1, h.2.1, spWf_putBytes _ _ _ h.2.2.1, h.2.2.2⟩

theorem Memory.wf_secondPut (s : State) (a : Nat) (l : Line) (h : Memory.wf s = true) : Memory.wf (s.secondPut a l) = true := by
  rw [Memory.wf_iff] at h ⊢
  exact ⟨h.1, h.2.1, h.2.2.1, h.2.2.2.1, spWf_putBytes _ _ _ h.2.2.2.2.1, spWf_put _ _ _ _ h.2.2.2.2.2.1, h.2.2.2.2.2.2⟩

theorem Memory.wf_queueTake (s : State) (q : Nat) (h : Memory.wf s = true) : Memory.wf (s.queueTake q).1 = true :=
  Memory.wf_setQueueDesc s q _ h

theorem Memory.wf_popWaiter (s : State) (q : Nat) (h : Memory.wf s = true) : Memory.wf (s.popWaiter q).1 = true := by
  unfold State.popWaiter
  dsimp only
  split <;> exact Memory.wf_setQueueDesc s q _ h

theorem Memory.wf_addWaiter (s : State) (q w : Nat) (h : Memory.wf s = true) : Memory.wf (s.addWaiter q w) = true := by
  unfold State.addWaiter
  dsimp only
  split
  · exact Memory.wf_setQueueDesc _ q _ (Memory.wf_updCtx _ _ _ _ h)
  · exact Memory.wf_setQueueDesc _ q _ h

theorem Memory.wf_setWaiters (s : State) (q : Nat) (l : List Nat) (h : Memory.wf s = true) : Memory.wf (s.setWaiters q l) = true :=
  Memory.wf_foldl _ (fun s w h => Memory.wf_addWaiter s q w h) _ _ (Memory.wf_setQueueDesc s q _ h)

theorem Memory.wf_dropWaiter (s : State) (c k : Nat) (h : Memory.wf s = true) : Memory.wf (s.dropWaiter c k) = true := by
  unfold State.dropWaiter
  split
  · split
    · exact Memory.wf_setWaiters _ _ _ h
    · exact h
  · exact h

theorem Memory.wf_lsBytes (s : State) (a : Nat) (bs : List Byte) (h : Memory.wf s = true) :
    Memory.wf { s with ls := putBytes s.ls a bs } = true := by
  rw [Memory.wf_iff] at h ⊢
  exact ⟨h.1, h.2.1, spWf_putBytes _ _ _ h.2.2.1, h.2.2.2⟩

theorem Memory.wf_queueEnq (s : State) (q : Nat) (x : Word) (h : Memory.wf s = true) : Memory.wf (s.queueEnq q x).1 = true := by
  unfold State.queueEnq
  dsimp only
  split
  · exact h
  · split
    · apply Memory.wf_updCtx
      apply Memory.wf_queueTake
      apply Memory.wf_popWaiter
      apply Memory.wf_setQueueDesc
      exact Memory.wf_lsBytes s _ _ h
    · apply Memory.wf_setQueueDesc
      exact Memory.wf_lsBytes s _ _ h

theorem Memory.wf_queueOp (s : State) (op : QOp) (q c k : Nat) (h : Memory.wf s = true) : Memory.wf (s.queueOp op q c k).1 = true := by
  cases op with
  | init t => exact Memory.wf_setQueueDesc s q _ h
  | enq x => exact Memory.wf_queueEnq s q x h
  | deq =>
    unfold State.queueOp
    dsimp only
    split
    · exact Memory.wf_queueTake s q h
    · exact Memory.wf_addWaiter s q _ h
  | try_ p =>
    unfold State.queueOp
    dsimp only
    split
    · exact h
    · exact Memory.wf_queueTake s q h
  | len => exact h

/-! ## The memory writes that fall due -/

theorem CoreSt.memWf_slotNext (c : CoreSt) (n : Nat) (h : c.memWf = true) : (c.slotNext n).memWf = true := by
  unfold CoreSt.slotNext
  split <;> exact h

theorem Memory.wf_landLine (s : State) (c a : Nat) (bs : List Byte) (m : Bool) (k : LandKind) (h : Memory.wf s = true) :
    Memory.wf (s.landLine c a bs m k) = true := by
  unfold State.landLine
  split
  · exact h
  · refine Memory.wf_updCore _ _ _ (fun x hx => ?_) (by cases k <;> exact h)
    have h1 := fun at_ => CoreSt.memWf_spWrite x at_ bs m hx
    cases k
    case recv => exact CoreSt.memWf_slotNext _ _ (h1 _)
    all_goals exact h1 _

theorem Memory.wf_then (s : State) (p : Pend) (n : Nat) (late : Bool) (a : Act) (h : Memory.wf s = true) :
    Memory.wf (s.then_ p n late a) = true := h

theorem Memory.wf_spWrite (s : State) (c a : Nat) (bs : List Byte) (m : Bool) (h : Memory.wf s = true) :
    Memory.wf (s.updCore c fun x => x.spWrite a bs m) = true :=
  Memory.wf_updCore _ _ _ (fun x hx => CoreSt.memWf_spWrite x a bs m hx) h

theorem Memory.wf_freeDone (s : State) (run n : Nat) (h : Memory.wf s = true) : Memory.wf (s.freeDone run n) = true := h

theorem Memory.wf_writeAct (s : State) (p : Pend) (h : Memory.wf s = true) : Memory.wf (s.writeAct p) = true := by
  unfold State.writeAct
  split
  · exact Memory.wf_spWrite _ _ _ _ _ h
  · refine Memory.wf_updCore _ _ _ (fun x hx => ?_) h
    split
    · exact CoreSt.memWf_spWrite x _ _ _ hx
    · rw [CoreSt.memWf_iff] at hx ⊢
      exact ⟨spWf_putMasked _ _ _ _ hx.1, hx.2⟩
  · have h1 : ∀ (b : Bool) (a : Nat) (bs : List Byte), Memory.wf (if b then s.ownCore p fun c => c.spWrite a bs false else s) = true := by
      intro b a bs
      split
      · exact Memory.wf_spWrite _ _ _ _ _ h
      · exact h
    dsimp only
    split
    · exact h1 _ _ _
    · exact Memory.wf_then _ _ _ _ _ (h1 _ _ _)
  · exact Memory.wf_spWrite _ _ _ _ _ h
  · exact Memory.wf_landLine _ _ _ _ _ _ h
  · exact Memory.wf_lsWrite _ _ _ _ _ h
  · dsimp only
    split
    · exact Memory.wf_lsWrite _ _ _ _ _ h
    · exact Memory.wf_freeDone _ _ _ (Memory.wf_lsWrite _ _ _ _ _ h)
  · apply Memory.wf_then
    split
    · exact h
    · exact Memory.wf_lsWrite _ _ _ _ _ h
  · exact h

end Sys2Proof.Machine
end

