-- ==== Sys2Proof/Laws/Ops.lean ====
section
/-!
SUPPORT. What the shared operations do, once each: cores and contexts, the register files, the bundle in hand, the gates of a slot word.
-/
namespace Sys2Proof.Machine

/-! ## Cores and contexts -/

theorem State.core_setCore (s : State) (c d : Nat) (x : CoreSt) : (s.setCore c x).core d = if d = c then x else s.core d :=
  spGet_put _ _ _ _ _

theorem State.core_updCore (s : State) (c d : Nat) (f : CoreSt → CoreSt) :
    (s.updCore c f).core d = if d = c then f (s.core c) else s.core d := spGet_put _ _ _ _ _

theorem CoreSt.ctx_updCtx (c : CoreSt) (k j : Nat) (f : Ctx → Ctx) : (c.updCtx k f).ctx j = if j = k then f (c.ctx k) else c.ctx j :=
  spGet_put _ _ _ _ _

theorem State.core_updCtx (s : State) (c k d : Nat) (f : Ctx → Ctx) :
    (s.updCtx c k f).core d = if d = c then (s.core c).updCtx k f else s.core d := spGet_put _ _ _ _ _

theorem State.ctx_updCtx (s : State) (c k d j : Nat) (f : Ctx → Ctx) :
    (s.updCtx c k f).ctx d j = if d = c ∧ j = k then f (s.ctx c k) else s.ctx d j := by
  unfold State.ctx
  rw [State.core_updCtx]
  by_cases h : d = c
  · subst h; by_cases h1 : j = k <;> simp [CoreSt.ctx_updCtx, h1]
  · simp [h]

theorem State.ctx_updCtx_same (s : State) (c k : Nat) (f : Ctx → Ctx) : (s.updCtx c k f).ctx c k = f (s.ctx c k) := by
  simp [State.ctx_updCtx]

theorem State.ctx_updCtx_ne (s : State) {c k d j : Nat} (f : Ctx → Ctx) (h : (d, j) ≠ (c, k)) : (s.updCtx c k f).ctx d j = s.ctx d j := by
  have h1 : ¬(d = c ∧ j = k) := fun e => h (by rw [e.1, e.2])
  simp [State.ctx_updCtx, h1]

/-! ## Registers (Table 7.1) -/

@[simp] theorem Ctx.rdS_zero (c : Ctx) : c.rdS 0 = 0 := by simp [Ctx.rdS]

@[simp] theorem Ctx.wrS_zero (c : Ctx) (v : Word) (m : Bool) : c.wrS 0 v m = c := by simp [Ctx.wrS]

theorem Ctx.rdS_wrS (c : Ctx) (r q : BitVec 5) (v : Word) (m : Bool) :
    (c.wrS r v m).rdS q = if q = r ∧ r ≠ 0 then v else c.rdS q := by
  unfold Ctx.rdS Ctx.wrS
  by_cases hr : r = 0
  · simp only [hr, if_true, ne_eq, not_true_eq_false, and_false, if_false]
  · by_cases hq : q = 0
    · simp only [hq, if_true, if_neg (fun e : (0 : BitVec 5) = r ∧ r ≠ 0 => e.2 e.1.symm)]
    · by_cases h : q = r
      · rw [if_neg hq, if_neg hr, if_pos ⟨h, hr⟩, h]
        exact spGet_put_same ..
      · simp only [if_neg hq, if_neg hr, h, false_and, if_false]
        exact spGet_put_ne _ _ _ fun e => h (BitVec.eq_of_toNat_eq e)

@[simp] theorem Ctx.rdQ_zero (c : Ctx) : c.rdQ 0 = true := by simp [Ctx.rdQ]

@[simp] theorem Ctx.wrQ_zero (c : Ctx) (v : Bool) : c.wrQ 0 v = c := by simp [Ctx.wrQ]

theorem getLsbD_setBit {w : Nat} (x : BitVec w) (i j : Nat) (v : Bool) (hi : i < w) :
    (setBit x i v).getLsbD j = if j = i then v else x.getLsbD j := by
  have h2 : (BitVec.ofNat w (2 ^ i)).getLsbD j = (decide (j < w) && decide (j = i)) := by
    rw [BitVec.getLsbD_ofNat, Nat.testBit_two_pow]
    by_cases h : j = i
    · subst h; rfl
    · have e1 : decide (j = i) = false := decide_eq_false h
      have e2 : decide (i = j) = false := decide_eq_false fun e => h e.symm
      rw [e1, e2]
  unfold setBit
  generalize BitVec.ofNat w (2 ^ i) = m at h2
  have hx : x.getLsbD j = true → j < w := BitVec.lt_of_getLsbD
  cases v <;> by_cases h : j = i <;> simp_all

theorem Ctx.rdQ_wrQ (c : Ctx) (q r : BitVec 3) (v : Bool) (hq : q ≠ 0) : (c.wrQ q v).rdQ r = if r = q then v else c.rdQ r := by
  unfold Ctx.rdQ Ctx.wrQ
  by_cases hr : r = 0
  · simp only [hr, if_true, if_neg hq.symm]
  · have hw : q.toNat < 8 := q.isLt
    by_cases h : r = q
    · simp only [h, if_neg hq, getLsbD_setBit _ _ _ _ hw, if_true]
    · have e : r.toNat ≠ q.toNat := fun e => h (BitVec.eq_of_toNat_eq e)
      simp only [if_neg hr, if_neg hq, getLsbD_setBit _ _ _ _ hw, if_neg e, if_neg h]

theorem Ctx.rdH_wrH (c : Ctx) (h k : BitVec 4) (v : Handle) : (c.wrH h v).rdH k = if k = h then v else c.rdH k := by
  by_cases e : k = h
  · simp [Ctx.rdH, Ctx.wrH, e]
  · simp [Ctx.rdH, Ctx.wrH, e, spGet_put_ne _ _ _ (fun x => e (BitVec.eq_of_toNat_eq x))]

theorem CoreSt.rdB_wrB (c : CoreSt) (b d : BitVec 3) (v : BitVec 20) : (c.wrB b v).rdB d = if d = b then v else c.rdB d := by
  by_cases e : d = b
  · simp [CoreSt.rdB, CoreSt.wrB, e]
  · simp [CoreSt.rdB, CoreSt.wrB, e, spGet_put_ne _ _ _ (fun x => e (BitVec.eq_of_toNat_eq x))]

@[simp] theorem CoreSt.rdM_zero (c : CoreSt) (cl : Nat) : c.rdM cl 0 = BitVec.allOnes 16 := by simp [CoreSt.rdM]

@[simp] theorem CoreSt.wrM_zero (c : CoreSt) (cl : Nat) (v : BitVec 16) : c.wrM cl 0 v = c := by simp [CoreSt.wrM]

/-! ## The bundle in hand -/

theorem SameBut.refl (s : State) : SameBut s s := rfl

theorem SameBut.trans {s t u : State} (h : SameBut s t) (g : SameBut t u) : SameBut s u :=
  (congrArg (fun x : State => { x with cur := s.cur }) g).trans h

theorem State.plus_plus (s : State) (l m : List Pend) : (s.plus l).plus m = s.plus (l ++ m) := by
  simp [State.plus]

@[simp] theorem State.plus_nil (s : State) : s.plus [] = s := by simp [State.plus]

theorem State.emit_plus (s : State) (off : Nat) (a : Act) : s.emit off a = s.plus [s.due off a] := rfl

theorem State.emitLate_plus (s : State) (off : Nat) (a : Act) : s.emitLate off a = s.plus [s.dueLate off a] := rfl

theorem State.emitS_plus (s : State) (off : Nat) (d : BitVec 5) (v : Word) : s.emitS off d v = s.plus [s.result off d v] := rfl

@[simp] theorem State.due_plus (s : State) (l : List Pend) (off : Nat) (a : Act) : (s.plus l).due off a = s.due off a := rfl

@[simp] theorem State.rdS_plus (s : State) (l : List Pend) (r : BitVec 5) : (s.plus l).rdS r = s.rdS r := rfl

@[simp] theorem State.me_plus (s : State) (l : List Pend) : (s.plus l).me = s.me := rfl

@[simp] theorem State.myCtx_plus (s : State) (l : List Pend) : (s.plus l).myCtx = s.myCtx := rfl

theorem State.trap_same (s : State) (k : TrapKind) : SameBut s (s.trap k) := rfl

theorem State.emit_same (s : State) (off : Nat) (a : Act) : SameBut s (s.emit off a) := rfl

/-! ## Gates of a slot word (R105, R127, R133, R186) -/

theorem State.useS_clean (s : State) (l : List (BitVec 5)) (h : ∀ r ∈ l, r = 0 ∨ spGet false s.myCtx.mark r.toNat = false) :
    s.useS l = s := by
  induction l with
  | nil => rfl
  | cons r rs ih =>
    have h1 : ¬(r ≠ 0 ∧ spGet false s.myCtx.mark r.toNat = true) := by
      rcases h r (by simp) with e | e <;> simp [e]
    rw [State.useS, if_neg h1]
    exact ih fun x hx => h x (by simp [hx])

theorem State.useS_same (s : State) (l : List (BitVec 5)) : SameBut s (s.useS l) := by
  induction l generalizing s with
  | nil => rfl
  | cons r rs ih =>
    unfold State.useS
    split
    · exact SameBut.trans (State.trap_same s _) (ih _)
    · exact ih s

theorem State.slotOp_ready (s : State) (p : BitVec 3) (l : List (BitVec 5)) (body : State → State) (h : Ready s p l) :
    s.slotOp p l body = body s := by simp [State.slotOp, h.1, State.useS_clean s l h.2]

theorem State.slotOp_off (s : State) (p : BitVec 3) (l : List (BitVec 5)) (body : State → State) (h : s.rdQ p = false) :
    s.slotOp p l body = s := by simp [State.slotOp, h]

theorem State.slotOp_same (s : State) (p : BitVec 3) (l : List (BitVec 5)) (body : State → State) (h : ∀ t, SameBut t (body t)) :
    SameBut s (s.slotOp p l body) := by
  unfold State.slotOp
  split
  · exact SameBut.trans (State.useS_same s l) (h _)
  · rfl

theorem State.holderOp_holder (s : State) (body : State → State) (h : s.isHolder = true) : s.holderOp body = body s := by
  simp [State.holderOp, h]

theorem State.holderOp_other (s : State) (body : State → State) (h : s.isHolder = false) : s.holderOp body = s.trap (.illegal 10 0) := by
  simp [State.holderOp, h]

theorem State.holderOp_same (s : State) (body : State → State) (h : SameBut s (body s)) : SameBut s (s.holderOp body) := by
  unfold State.holderOp
  split
  · exact h
  · rfl

theorem State.privOp_fw (s : State) (p : BitVec 3) (l : List (BitVec 5)) (body : State → State) (h : Ready s p l) (hf : s.isFw = true) :
    s.privOp p l body = body s := by simp [State.privOp, State.slotOp_ready s p l _ h, hf]

/-- Outside the firmware a privileged word finds PRIV, after the traps that its operands give it (R185). -/
theorem State.privOp_other (s : State) (p : BitVec 3) (l : List (BitVec 5)) (body : State → State) (h : Ready s p l)
    (hf : s.isFw = false) : s.privOp p l body = (s.checksOf (body s)).trap .priv := by
  simp [State.privOp, State.slotOp_ready s p l _ h, hf]

/-- Where the word finds no trap of its own, PRIV alone. -/
theorem State.privOp_clean (s : State) (p : BitVec 3) (l : List (BitVec 5)) (body : State → State) (h : Ready s p l)
    (hf : s.isFw = false) (hb : s.checksOf (body s) = s) : s.privOp p l body = s.trap .priv := by
  rw [State.privOp_other s p l body h hf, hb]

/-! ## The order of traps (R185) -/

theorem firstTrap_none (l : List TrapCand) : firstTrap l = none ↔ l = [] := by
  cases l with
  | nil => simp [firstTrap]
  | cons t ts => simp only [firstTrap]; split <;> (try split) <;> simp

theorem firstTrap_mem (l : List TrapCand) (t : TrapCand) (h : firstTrap l = some t) : t ∈ l := by
  induction l generalizing t with
  | nil => simp [firstTrap] at h
  | cons x xs ih =>
    simp only [firstTrap] at h
    split at h
    · simp at h; simp [h]
    · rename_i u hu
      split at h <;> simp at h
      · subst h; simp [ih u hu]
      · simp [h]

theorem firstTrap_least (l : List TrapCand) (t u : TrapCand) (h : firstTrap l = some t) (hu : u ∈ l) : t.key ≤ u.key := by
  induction l generalizing t with
  | nil => simp at hu
  | cons x xs ih =>
    simp only [firstTrap] at h
    split at h
    · rename_i hn
      rw [(firstTrap_none xs).mp hn] at hu
      simp at h hu; subst h; subst hu; exact Nat.le_refl _
    · rename_i v hv
      rcases List.mem_cons.mp hu with rfl | hm
      · split at h <;> simp at h <;> subst h <;> omega
      · have := ih v hv hm
        split at h <;> simp at h <;> subst h <;> omega

end Sys2Proof.Machine
end

