-- ==== Sys2Proof/Laws/PerInstr.lean ====
section
/-!
SUPPORT. The opcode of every slot word: its word has 32 bits, and bits 31 to 26 hold an opcode of its slot class (Table 8.3).
-/
namespace Sys2Proof.Laws

/-- The slot word of an instruction has 32 bits and an opcode of its class in its six top bits. -/
def Opcode.Statement (i : Instr) : Prop :=
  ∀ c w, i.cls = some c → i.wordNat = some w → w < 2 ^ 32 ∧ w / 2 ^ 26 ∈ opsOf c

/-- The fields of a word add up. -/
theorem asm_add (op : Nat) (fs : List (Nat × Nat)) : asm op fs = op * 2 ^ 26 + asm 0 fs := by
  unfold asm
  suffices h : ∀ a b : Nat, fs.foldl (fun n f => n + f.1 * 2 ^ f.2) (a + b) = a + fs.foldl (fun n f => n + f.1 * 2 ^ f.2) b by
    have h0 := h (op * 2 ^ 26) 0
    rw [Nat.add_zero] at h0
    exact h0.trans (congrArg _ rfl)
  induction fs with
  | nil => intro a b; rfl
  | cons f fs ih => intro a b; simp only [List.foldl_cons, Nat.add_assoc, ih]

/-- A word without fields. -/
theorem asm_nil : asm 0 [] ≤ 0 := Nat.le_refl 0

/-- A field of at most m at bit k. -/
theorem asm_cons {f m k n : Nat} {fs : List (Nat × Nat)} (hf : f ≤ m) (hn : asm 0 fs ≤ n) : asm 0 ((f, k) :: fs) ≤ m * 2 ^ k + n := by
  have h : asm 0 ((f, k) :: fs) = f * 2 ^ k + asm 0 fs := by
    have h2 : ∀ a b : Nat, fs.foldl (fun n f => n + f.1 * 2 ^ f.2) (a + b) = a + fs.foldl (fun n f => n + f.1 * 2 ^ f.2) b := by
      clear hn
      induction fs with
      | nil => intro a b; rfl
      | cons f fs ih => intro a b; simp only [List.foldl_cons, Nat.add_assoc, ih]
    simpa [asm, Nat.add_comm] using h2 (f * 2 ^ k) 0
  exact h ▸ Nat.add_le_add (Nat.mul_le_mul_right _ hf) hn

/-- The opcode of a word is what it is assembled with, if its fields stay below bit 26. -/
theorem opcode_of {i : Instr} {k : Cls} {op n : Nat} {fs : List (Nat × Nat)} (hk : i.cls = some k)
    (hi : i.wordNat = some (asm op fs)) (hop : op < 64) (hm : op ∈ opsOf k) (hf : asm 0 fs ≤ n) (hn : n < 2 ^ 26) :
    Opcode.Statement i := by
  intro c w hc hw
  rw [hk, Option.some.injEq] at hc
  rw [hi, Option.some.injEq, asm_add] at hw
  subst hc hw
  exact ⟨by omega, by rwa [show (op * 2 ^ 26 + asm 0 fs) / 2 ^ 26 = op by omega]⟩

/-- An instruction without a slot word. -/
theorem opcode_none {i : Instr} (hi : i.wordNat = none) : Opcode.Statement i := by
  intro c w _ hw
  rw [hi] at hw
  cases hw

theorem bits_le {n : Nat} (b : BitVec n) : b.toNat ≤ 2 ^ n - 1 := Nat.le_sub_one_of_lt b.isLt
theorem half_le {n : Nat} (h : n ≤ 7) : n / 2 ≤ 3 := by omega
theorem odd_le (n : Nat) : n % 2 ≤ 1 := by omega
theorem bit_le (e : Ext) : Ext.bit e ≤ 1 := by cases e <;> simp [Ext.bit]
theorem kind_le (b : Base) : b.kind ≤ 1 := by cases b <;> simp [Base.kind]
theorem num_le (b : Base) : b.num ≤ 31 := by cases b <;> simp only [Base.num] <;> omega
theorem sz_le (z : Sz) : z.code ≤ 3 := by cases z <;> decide
theorem aw_le (z : Aw) : z.code ≤ 1 := by cases z <;> decide
theorem laneTy_le (t : LaneTy) : t.code ≤ 7 := by cases t <;> decide
theorem scalarCc_le (c : ScalarCc) : c.code ≤ 7 := by cases c <;> decide
theorem vecCc_le (c : VecCc) : c.code ≤ 7 := by cases c <;> decide
theorem scope_le (c : Scope) : c.code ≤ 7 := by cases c <;> decide
theorem mmaForm_le (f : MmaForm) : f.code ≤ 7 := by cases f <;> decide
theorem acrdFmt_le (f : AcrdFmt) : f.code ≤ 7 := by cases f <;> decide
theorem elemCode_le (c : ElemCode) : c.code ≤ 7 := by cases c <;> decide
theorem rm_le (r : Rm) : r.code ≤ 3 := by cases r <;> decide
theorem ovf_le (o : Ovf) : o.code ≤ 1 := by cases o <;> decide
theorem bool_le (b : Bool) : b.toNat ≤ 1 := by cases b <;> decide

theorem Opcode.add (x0 : BitVec 3) (x1 : BitVec 5) (x2 : BitVec 5) (x3 : BitVec 5) : Opcode.Statement (.add x0 x1 x2 x3) :=
  opcode_of rfl rfl (by decide) (by decide) (asm_cons (bits_le x0) (asm_cons (bits_le x1) (asm_cons (bits_le x2) (asm_cons (bits_le x3) asm_nil)))) (by decide)
theorem Opcode.sub (x0 : BitVec 3) (x1 : BitVec 5) (x2 : BitVec 5) (x3 : BitVec 5) : Opcode.Statement (.sub x0 x1 x2 x3) :=
  opcode_of rfl rfl (by decide) (by decide) (asm_cons (bits_le x0) (asm_cons (bits_le x1) (asm_cons (bits_le x2) (asm_cons (bits_le x3) asm_nil)))) (by decide)
theorem Opcode.and (x0 : BitVec 3) (x1 : BitVec 5) (x2 : BitVec 5) (x3 : BitVec 5) : Opcode.Statement (.and x0 x1 x2 x3) :=
  opcode_of rfl rfl (by decide) (by decide) (asm_cons (bits_le x0) (asm_cons (bits_le x1) (asm_cons (bits_le x2) (asm_cons (bits_le x3) asm_nil)))) (by decide)
theorem Opcode.or (x0 : BitVec 3) (x1 : BitVec 5) (x2 : BitVec 5) (x3 : BitVec 5) : Opcode.Statement (.or x0 x1 x2 x3) :=
  opcode_of rfl rfl (by decide) (by decide) (asm_cons (bits_le x0) (asm_cons (bits_le x1) (asm_cons (bits_le x2) (asm_cons (bits_le x3) asm_nil)))) (by decide)
theorem Opcode.xor (x0 : BitVec 3) (x1 : BitVec 5) (x2 : BitVec 5) (x3 : BitVec 5) : Opcode.Statement (.xor x0 x1 x2 x3) :=
  opcode_of rfl rfl (by decide) (by decide) (asm_cons (bits_le x0) (asm_cons (bits_le x1) (asm_cons (bits_le x2) (asm_cons (bits_le x3) asm_nil)))) (by decide)
theorem Opcode.shl (x0 : BitVec 3) (x1 : BitVec 5) (x2 : BitVec 5) (x3 : BitVec 5) : Opcode.Statement (.shl x0 x1 x2 x3) :=
  opcode_of rfl rfl (by decide) (by decide) (asm_cons (bits_le x0) (asm_cons (bits_le x1) (asm_cons (bits_le x2) (asm_cons (bits_le x3) asm_nil)))) (by decide)
theorem Opcode.shr (x0 : BitVec 3) (x1 : BitVec 5) (x2 : BitVec 5) (x3 : BitVec 5) : Opcode.Statement (.shr x0 x1 x2 x3) :=
  opcode_of rfl rfl (by decide) (by decide) (asm_cons (bits_le x0) (asm_cons (bits_le x1) (asm_cons (bits_le x2) (asm_cons (bits_le x3) asm_nil)))) (by decide)
theorem Opcode.sar (x0 : BitVec 3) (x1 : BitVec 5) (x2 : BitVec 5) (x3 : BitVec 5) : Opcode.Statement (.sar x0 x1 x2 x3) :=
  opcode_of rfl rfl (by decide) (by decide) (asm_cons (bits_le x0) (asm_cons (bits_le x1) (asm_cons (bits_le x2) (asm_cons (bits_le x3) asm_nil)))) (by decide)
theorem Opcode.mul (x0 : BitVec 3) (x1 : BitVec 5) (x2 : BitVec 5) (x3 : BitVec 5) : Opcode.Statement (.mul x0 x1 x2 x3) :=
  opcode_of rfl rfl (by decide) (by decide) (asm_cons (bits_le x0) (asm_cons (bits_le x1) (asm_cons (bits_le x2) (asm_cons (bits_le x3) asm_nil)))) (by decide)
theorem Opcode.mulh (x0 : BitVec 3) (x1 : BitVec 5) (x2 : BitVec 5) (x3 : BitVec 5) : Opcode.Statement (.mulh x0 x1 x2 x3) :=
  opcode_of rfl rfl (by decide) (by decide) (asm_cons (bits_le x0) (asm_cons (bits_le x1) (asm_cons (bits_le x2) (asm_cons (bits_le x3) asm_nil)))) (by decide)
theorem Opcode.mulhn (x0 : BitVec 3) (x1 : BitVec 5) (x2 : BitVec 5) (x3 : BitVec 5) : Opcode.Statement (.mulhn x0 x1 x2 x3) :=
  opcode_of rfl rfl (by decide) (by decide) (asm_cons (bits_le x0) (asm_cons (bits_le x1) (asm_cons (bits_le x2) (asm_cons (bits_le x3) asm_nil)))) (by decide)
theorem Opcode.div (x0 : BitVec 3) (x1 : BitVec 5) (x2 : BitVec 5) (x3 : BitVec 5) : Opcode.Statement (.div x0 x1 x2 x3) :=
  opcode_of rfl rfl (by decide) (by decide) (asm_cons (bits_le x0) (asm_cons (bits_le x1) (asm_cons (bits_le x2) (asm_cons (bits_le x3) asm_nil)))) (by decide)
theorem Opcode.divn (x0 : BitVec 3) (x1 : BitVec 5) (x2 : BitVec 5) (x3 : BitVec 5) : Opcode.Statement (.divn x0 x1 x2 x3) :=
  opcode_of rfl rfl (by decide) (by decide) (asm_cons (bits_le x0) (asm_cons (bits_le x1) (asm_cons (bits_le x2) (asm_cons (bits_le x3) asm_nil)))) (by decide)
theorem Opcode.rem (x0 : BitVec 3) (x1 : BitVec 5) (x2 : BitVec 5) (x3 : BitVec 5) : Opcode.Statement (.rem x0 x1 x2 x3) :=
  opcode_of rfl rfl (by decide) (by decide) (asm_cons (bits_le x0) (asm_cons (bits_le x1) (asm_cons (bits_le x2) (asm_cons (bits_le x3) asm_nil)))) (by decide)
theorem Opcode.remn (x0 : BitVec 3) (x1 : BitVec 5) (x2 : BitVec 5) (x3 : BitVec 5) : Opcode.Statement (.remn x0 x1 x2 x3) :=
  opcode_of rfl rfl (by decide) (by decide) (asm_cons (bits_le x0) (asm_cons (bits_le x1) (asm_cons (bits_le x2) (asm_cons (bits_le x3) asm_nil)))) (by decide)
theorem Opcode.min (x0 : BitVec 3) (x1 : BitVec 5) (x2 : BitVec 5) (x3 : BitVec 5) : Opcode.Statement (.min x0 x1 x2 x3) :=
  opcode_of rfl rfl (by decide) (by decide) (asm_cons (bits_le x0) (asm_cons (bits_le x1) (asm_cons (bits_le x2) (asm_cons (bits_le x3) asm_nil)))) (by decide)
theorem Opcode.max (x0 : BitVec 3) (x1 : BitVec 5) (x2 : BitVec 5) (x3 : BitVec 5) : Opcode.Statement (.max x0 x1 x2 x3) :=
  opcode_of rfl rfl (by decide) (by decide) (asm_cons (bits_le x0) (asm_cons (bits_le x1) (asm_cons (bits_le x2) (asm_cons (bits_le x3) asm_nil)))) (by decide)
theorem Opcode.minn (x0 : BitVec 3) (x1 : BitVec 5) (x2 : BitVec 5) (x3 : BitVec 5) : Opcode.Statement (.minn x0 x1 x2 x3) :=
  opcode_of rfl rfl (by decide) (by decide) (asm_cons (bits_le x0) (asm_cons (bits_le x1) (asm_cons (bits_le x2) (asm_cons (bits_le x3) asm_nil)))) (by decide)
theorem Opcode.maxn (x0 : BitVec 3) (x1 : BitVec 5) (x2 : BitVec 5) (x3 : BitVec 5) : Opcode.Statement (.maxn x0 x1 x2 x3) :=
  opcode_of rfl rfl (by decide) (by decide) (asm_cons (bits_le x0) (asm_cons (bits_le x1) (asm_cons (bits_le x2) (asm_cons (bits_le x3) asm_nil)))) (by decide)
theorem Opcode.clz (x0 : BitVec 3) (x1 : BitVec 5) (x2 : BitVec 5) : Opcode.Statement (.clz x0 x1 x2) :=
  opcode_of rfl rfl (by decide) (by decide) (asm_cons (bits_le x0) (asm_cons (bits_le x1) (asm_cons (bits_le x2) asm_nil))) (by decide)
theorem Opcode.popc (x0 : BitVec 3) (x1 : BitVec 5) (x2 : BitVec 5) : Opcode.Statement (.popc x0 x1 x2) :=
  opcode_of rfl rfl (by decide) (by decide) (asm_cons (bits_le x0) (asm_cons (bits_le x1) (asm_cons (bits_le x2) asm_nil))) (by decide)
theorem Opcode.mov (x0 : BitVec 3) (x1 : BitVec 5) (x2 : BitVec 5) : Opcode.Statement (.mov x0 x1 x2) :=
  opcode_of rfl rfl (by decide) (by decide) (asm_cons (bits_le x0) (asm_cons (bits_le x1) (asm_cons (bits_le x2) asm_nil))) (by decide)
theorem Opcode.movToB (x0 : BitVec 3) (x1 : BitVec 3) (x2 : BitVec 5) : Opcode.Statement (.movToB x0 x1 x2) :=
  opcode_of rfl rfl (by decide) (by decide) (asm_cons (bits_le x0) (asm_cons (bits_le x1) (asm_cons (bits_le x2) (asm_cons (Nat.le_refl 1) asm_nil)))) (by decide)
theorem Opcode.movFromB (x0 : BitVec 3) (x1 : BitVec 5) (x2 : BitVec 3) : Opcode.Statement (.movFromB x0 x1 x2) :=
  opcode_of rfl rfl (by decide) (by decide) (asm_cons (bits_le x0) (asm_cons (bits_le x1) (asm_cons (bits_le x2) (asm_cons (Nat.le_refl 2) asm_nil)))) (by decide)
theorem Opcode.cmp (x0 : BitVec 3) (x1 : BitVec 3) (x2 : BitVec 5) (x3 : BitVec 5) (x4 : ScalarCc) : Opcode.Statement (.cmp x0 x1 x2 x3 x4) :=
  opcode_of rfl rfl (by decide) (by decide) (asm_cons (bits_le x0) (asm_cons (bits_le x1) (asm_cons (bits_le x2) (asm_cons (bits_le x3) (asm_cons (scalarCc_le x4) asm_nil))))) (by decide)
theorem Opcode.sel (x0 : BitVec 3) (x1 : BitVec 5) (x2 : BitVec 5) (x3 : BitVec 5) (x4 : BitVec 3) : Opcode.Statement (.sel x0 x1 x2 x3 x4) :=
  opcode_of rfl rfl (by decide) (by decide) (asm_cons (bits_le x0) (asm_cons (bits_le x1) (asm_cons (bits_le x2) (asm_cons (bits_le x3) (asm_cons (bits_le x4) asm_nil))))) (by decide)
theorem Opcode.bfx (x0 : BitVec 3) (x1 : BitVec 5) (x2 : BitVec 5) (x3 : BitVec 6) (x4 : BitVec 6) : Opcode.Statement (.bfx x0 x1 x2 x3 x4) :=
  opcode_of rfl rfl (by decide) (by decide) (asm_cons (bits_le x0) (asm_cons (bits_le x1) (asm_cons (bits_le x2) (asm_cons (bits_le x3) (asm_cons (bits_le x4) asm_nil))))) (by decide)
theorem Opcode.bfi (x0 : BitVec 3) (x1 : BitVec 5) (x2 : BitVec 5) (x3 : BitVec 6) (x4 : BitVec 6) : Opcode.Statement (.bfi x0 x1 x2 x3 x4) :=
  opcode_of rfl rfl (by decide) (by decide) (asm_cons (bits_le x0) (asm_cons (bits_le x1) (asm_cons (bits_le x2) (asm_cons (bits_le x3) (asm_cons (bits_le x4) asm_nil))))) (by decide)
theorem Opcode.pand (x0 : BitVec 3) (x1 : BitVec 3) (x2 : BitVec 3) (x3 : BitVec 3) : Opcode.Statement (.pand x0 x1 x2 x3) :=
  opcode_of rfl rfl (by decide) (by decide) (asm_cons (bits_le x0) (asm_cons (bits_le x1) (asm_cons (bits_le x2) (asm_cons (bits_le x3) asm_nil)))) (by decide)
theorem Opcode.por (x0 : BitVec 3) (x1 : BitVec 3) (x2 : BitVec 3) (x3 : BitVec 3) : Opcode.Statement (.por x0 x1 x2 x3) :=
  opcode_of rfl rfl (by decide) (by decide) (asm_cons (bits_le x0) (asm_cons (bits_le x1) (asm_cons (bits_le x2) (asm_cons (bits_le x3) asm_nil)))) (by decide)
theorem Opcode.pxor (x0 : BitVec 3) (x1 : BitVec 3) (x2 : BitVec 3) (x3 : BitVec 3) : Opcode.Statement (.pxor x0 x1 x2 x3) :=
  opcode_of rfl rfl (by decide) (by decide) (asm_cons (bits_le x0) (asm_cons (bits_le x1) (asm_cons (bits_le x2) (asm_cons (bits_le x3) asm_nil)))) (by decide)
theorem Opcode.pnot (x0 : BitVec 3) (x1 : BitVec 3) (x2 : BitVec 3) : Opcode.Statement (.pnot x0 x1 x2) :=
  opcode_of rfl rfl (by decide) (by decide) (asm_cons (bits_le x0) (asm_cons (bits_le x1) (asm_cons (bits_le x2) asm_nil))) (by decide)
theorem Opcode.addi (x0 : BitVec 3) (x1 : Ext) (x2 : BitVec 5) (x3 : BitVec 5) (x4 : BitVec 12) : Opcode.Statement (.addi x0 x1 x2 x3 x4) :=
  opcode_of rfl rfl (by decide) (by decide) (asm_cons (bits_le x0) (asm_cons (bit_le x1) (asm_cons (bits_le x2) (asm_cons (bits_le x3) (asm_cons (bits_le x4) asm_nil))))) (by decide)
theorem Opcode.andi (x0 : BitVec 3) (x1 : Ext) (x2 : BitVec 5) (x3 : BitVec 5) (x4 : BitVec 12) : Opcode.Statement (.andi x0 x1 x2 x3 x4) :=
  opcode_of rfl rfl (by decide) (by decide) (asm_cons (bits_le x0) (asm_cons (bit_le x1) (asm_cons (bits_le x2) (asm_cons (bits_le x3) (asm_cons (bits_le x4) asm_nil))))) (by decide)
theorem Opcode.ori (x0 : BitVec 3) (x1 : Ext) (x2 : BitVec 5) (x3 : BitVec 5) (x4 : BitVec 12) : Opcode.Statement (.ori x0 x1 x2 x3 x4) :=
  opcode_of rfl rfl (by decide) (by decide) (asm_cons (bits_le x0) (asm_cons (bit_le x1) (asm_cons (bits_le x2) (asm_cons (bits_le x3) (asm_cons (bits_le x4) asm_nil))))) (by decide)
theorem Opcode.xori (x0 : BitVec 3) (x1 : Ext) (x2 : BitVec 5) (x3 : BitVec 5) (x4 : BitVec 12) : Opcode.Statement (.xori x0 x1 x2 x3 x4) :=
  opcode_of rfl rfl (by decide) (by decide) (asm_cons (bits_le x0) (asm_cons (bit_le x1) (asm_cons (bits_le x2) (asm_cons (bits_le x3) (asm_cons (bits_le x4) asm_nil))))) (by decide)
theorem Opcode.shli (x0 : BitVec 3) (x1 : BitVec 5) (x2 : BitVec 5) (x3 : BitVec 6) : Opcode.Statement (.shli x0 x1 x2 x3) :=
  opcode_of rfl rfl (by decide) (by decide) (asm_cons (bits_le x0) (asm_cons (bits_le x1) (asm_cons (bits_le x2) (asm_cons (bits_le x3) asm_nil)))) (by decide)
theorem Opcode.shri (x0 : BitVec 3) (x1 : BitVec 5) (x2 : BitVec 5) (x3 : BitVec 6) : Opcode.Statement (.shri x0 x1 x2 x3) :=
  opcode_of rfl rfl (by decide) (by decide) (asm_cons (bits_le x0) (asm_cons (bits_le x1) (asm_cons (bits_le x2) (asm_cons (bits_le x3) asm_nil)))) (by decide)
theorem Opcode.sari (x0 : BitVec 3) (x1 : BitVec 5) (x2 : BitVec 5) (x3 : BitVec 6) : Opcode.Statement (.sari x0 x1 x2 x3) :=
  opcode_of rfl rfl (by decide) (by decide) (asm_cons (bits_le x0) (asm_cons (bits_le x1) (asm_cons (bits_le x2) (asm_cons (bits_le x3) asm_nil)))) (by decide)
theorem Opcode.li (x0 : BitVec 3) (x1 : Ext) (x2 : BitVec 5) (x3 : BitVec 17) : Opcode.Statement (.li x0 x1 x2 x3) :=
  opcode_of rfl rfl (by decide) (by decide) (asm_cons (bits_le x0) (asm_cons (bit_le x1) (asm_cons (bits_le x2) (asm_cons (bits_le x3) asm_nil)))) (by decide)
theorem Opcode.lih (x0 : BitVec 3) (x1 : BitVec 5) (x2 : BitVec 16) : Opcode.Statement (.lih x0 x1 x2) :=
  opcode_of rfl rfl (by decide) (by decide) (asm_cons (bits_le x0) (asm_cons (bits_le x1) (asm_cons (bits_le x2) asm_nil))) (by decide)
theorem Opcode.getsr (x0 : BitVec 3) (x1 : BitVec 5) (x2 : BitVec 10) : Opcode.Statement (.getsr x0 x1 x2) :=
  opcode_of rfl rfl (by decide) (by decide) (asm_cons (bits_le x0) (asm_cons (bits_le x1) (asm_cons (bits_le x2) asm_nil))) (by decide)
theorem Opcode.setsr (x0 : BitVec 3) (x1 : BitVec 5) (x2 : BitVec 10) : Opcode.Statement (.setsr x0 x1 x2) :=
  opcode_of rfl rfl (by decide) (by decide) (asm_cons (bits_le x0) (asm_cons (bits_le x1) (asm_cons (bits_le x2) asm_nil))) (by decide)
theorem Opcode.spill (x0 : BitVec 3) (x1 : BitVec 5) (x2 : BitVec 6) : Opcode.Statement (.spill x0 x1 x2) :=
  opcode_of rfl rfl (by decide) (by decide) (asm_cons (bits_le x0) (asm_cons (bits_le x1) (asm_cons (bits_le x2) asm_nil))) (by decide)
theorem Opcode.fill (x0 : BitVec 3) (x1 : BitVec 5) (x2 : BitVec 6) : Opcode.Statement (.fill x0 x1 x2) :=
  opcode_of rfl rfl (by decide) (by decide) (asm_cons (bits_le x0) (asm_cons (bits_le x1) (asm_cons (bits_le x2) asm_nil))) (by decide)
theorem Opcode.br (x0 : BitVec 3) (x1 : Ext) (x2 : Bool) (x3 : BitVec 21) : Opcode.Statement (.br x0 x1 x2 x3) :=
  opcode_of rfl rfl (by decide) (by decide) (asm_cons (bits_le x0) (asm_cons (bit_le x1) (asm_cons (bool_le x2) (asm_cons (bits_le x3) asm_nil)))) (by decide)
theorem Opcode.jmp (x0 : BitVec 3) (x1 : BitVec 14) : Opcode.Statement (.jmp x0 x1) :=
  opcode_of rfl rfl (by decide) (by decide) (asm_cons (bits_le x0) (asm_cons (bits_le x1) asm_nil)) (by decide)
theorem Opcode.jmpr (x0 : BitVec 3) (x1 : BitVec 5) : Opcode.Statement (.jmpr x0 x1) :=
  opcode_of rfl rfl (by decide) (by decide) (asm_cons (bits_le x0) (asm_cons (bits_le x1) asm_nil)) (by decide)
theorem Opcode.call (x0 : BitVec 3) (x1 : Ext) (x2 : BitVec 5) (x3 : BitVec 17) : Opcode.Statement (.call x0 x1 x2 x3) :=
  opcode_of rfl rfl (by decide) (by decide) (asm_cons (bits_le x0) (asm_cons (bit_le x1) (asm_cons (bits_le x2) (asm_cons (bits_le x3) asm_nil)))) (by decide)
theorem Opcode.ret (x0 : BitVec 3) (x1 : BitVec 5) : Opcode.Statement (.ret x0 x1) :=
  opcode_of rfl rfl (by decide) (by decide) (asm_cons (bits_le x0) (asm_cons (bits_le x1) asm_nil)) (by decide)
theorem Opcode.lpset (x0 : BitVec 3) (x1 : BitVec 5) (x2 : BitVec 4) : Opcode.Statement (.lpset x0 x1 x2) :=
  opcode_of rfl rfl (by decide) (by decide) (asm_cons (bits_le x0) (asm_cons (bits_le x1) (asm_cons (bits_le x2) asm_nil))) (by decide)
theorem Opcode.loop (x0 : BitVec 3) (x1 : Ext) (x2 : BitVec 21) : Opcode.Statement (.loop x0 x1 x2) :=
  opcode_of rfl rfl (by decide) (by decide) (asm_cons (bits_le x0) (asm_cons (bit_le x1) (asm_cons (bits_le x2) asm_nil))) (by decide)
theorem Opcode.endStrand : Opcode.Statement (.endStrand) :=
  opcode_of rfl rfl (by decide) (by decide) asm_nil (by decide)
theorem Opcode.bar : Opcode.Statement (.bar) :=
  opcode_of rfl rfl (by decide) (by decide) asm_nil (by decide)
theorem Opcode.trap (x0 : BitVec 16) : Opcode.Statement (.trap x0) :=
  opcode_of rfl rfl (by decide) (by decide) (asm_cons (bits_le x0) asm_nil) (by decide)
theorem Opcode.eret : Opcode.Statement (.eret) :=
  opcode_of rfl rfl (by decide) (by decide) asm_nil (by decide)
theorem Opcode.fence (x0 : BitVec 5) (x1 : Scope) : Opcode.Statement (.fence x0 x1) :=
  opcode_of rfl rfl (by decide) (by decide) (asm_cons (bits_le x0) (asm_cons (scope_le x1) asm_nil)) (by decide)
theorem Opcode.drift (x0 : BitVec 5) (x1 : BitVec 5) : Opcode.Statement (.drift x0 x1) :=
  opcode_of rfl rfl (by decide) (by decide) (asm_cons (bits_le x0) (asm_cons (bits_le x1) asm_nil)) (by decide)
theorem Opcode.idle (x0 : BitVec 8) : Opcode.Statement (.idle x0) := opcode_none rfl
theorem Opcode.lds (x0 : BitVec 3) (x1 : Ext) (x2 : BitVec 5) (x3 : Base) (x4 : Sz) (x5 : BitVec 8) : Opcode.Statement (.lds x0 x1 x2 x3 x4 x5) :=
  opcode_of rfl rfl (by decide) (by decide) (asm_cons (bits_le x0) (asm_cons (bit_le x1) (asm_cons (bits_le x2) (asm_cons (kind_le x3) (asm_cons (num_le x3) (asm_cons (sz_le x4) (asm_cons (bits_le x5) asm_nil))))))) (by decide)
theorem Opcode.ldsIndexed (x0 : BitVec 3) (x1 : BitVec 5) (x2 : Base) (x3 : Sz) (x4 : BitVec 5) : Opcode.Statement (.ldsIndexed x0 x1 x2 x3 x4) :=
  opcode_of rfl rfl (by decide) (by decide) (asm_cons (bits_le x0) (asm_cons (bits_le x1) (asm_cons (kind_le x2) (asm_cons (num_le x2) (asm_cons (sz_le x3) (asm_cons (bits_le x4) (asm_cons (Nat.le_refl 1) asm_nil))))))) (by decide)
theorem Opcode.sts (x0 : BitVec 3) (x1 : Ext) (x2 : BitVec 5) (x3 : Base) (x4 : Sz) (x5 : BitVec 8) : Opcode.Statement (.sts x0 x1 x2 x3 x4 x5) :=
  opcode_of rfl rfl (by decide) (by decide) (asm_cons (bits_le x0) (asm_cons (bit_le x1) (asm_cons (bits_le x2) (asm_cons (kind_le x3) (asm_cons (num_le x3) (asm_cons (sz_le x4) (asm_cons (bits_le x5) asm_nil))))))) (by decide)
theorem Opcode.stsIndexed (x0 : BitVec 3) (x1 : BitVec 5) (x2 : Base) (x3 : Sz) (x4 : BitVec 5) : Opcode.Statement (.stsIndexed x0 x1 x2 x3 x4) :=
  opcode_of rfl rfl (by decide) (by decide) (asm_cons (bits_le x0) (asm_cons (bits_le x1) (asm_cons (kind_le x2) (asm_cons (num_le x2) (asm_cons (sz_le x3) (asm_cons (bits_le x4) (asm_cons (Nat.le_refl 1) asm_nil))))))) (by decide)
theorem Opcode.ldl (x0 : BitVec 3) (x1 : Ext) (x2 : BitVec 5) (x3 : BitVec 4) (x4 : Sz) (x5 : BitVec 8) : Opcode.Statement (.ldl x0 x1 x2 x3 x4 x5) :=
  opcode_of rfl rfl (by decide) (by decide) (asm_cons (bits_le x0) (asm_cons (bit_le x1) (asm_cons (bits_le x2) (asm_cons (bits_le x3) (asm_cons (sz_le x4) (asm_cons (bits_le x5) asm_nil)))))) (by decide)
theorem Opcode.ldlIndexed (x0 : BitVec 3) (x1 : BitVec 5) (x2 : BitVec 4) (x3 : Sz) (x4 : BitVec 5) : Opcode.Statement (.ldlIndexed x0 x1 x2 x3 x4) :=
  opcode_of rfl rfl (by decide) (by decide) (asm_cons (bits_le x0) (asm_cons (bits_le x1) (asm_cons (bits_le x2) (asm_cons (sz_le x3) (asm_cons (bits_le x4) (asm_cons (Nat.le_refl 1) asm_nil)))))) (by decide)
theorem Opcode.stl (x0 : BitVec 3) (x1 : Ext) (x2 : BitVec 5) (x3 : BitVec 4) (x4 : Sz) (x5 : BitVec 8) : Opcode.Statement (.stl x0 x1 x2 x3 x4 x5) :=
  opcode_of rfl rfl (by decide) (by decide) (asm_cons (bits_le x0) (asm_cons (bit_le x1) (asm_cons (bits_le x2) (asm_cons (bits_le x3) (asm_cons (sz_le x4) (asm_cons (bits_le x5) asm_nil)))))) (by decide)
theorem Opcode.stlIndexed (x0 : BitVec 3) (x1 : BitVec 5) (x2 : BitVec 4) (x3 : Sz) (x4 : BitVec 5) : Opcode.Statement (.stlIndexed x0 x1 x2 x3 x4) :=
  opcode_of rfl rfl (by decide) (by decide) (asm_cons (bits_le x0) (asm_cons (bits_le x1) (asm_cons (bits_le x2) (asm_cons (sz_le x3) (asm_cons (bits_le x4) (asm_cons (Nat.le_refl 1) asm_nil)))))) (by decide)
theorem Opcode.xlat (x0 : BitVec 3) (x1 : BitVec 4) (x2 : BitVec 5) (x3 : BitVec 5) : Opcode.Statement (.xlat x0 x1 x2 x3) :=
  opcode_of rfl rfl (by decide) (by decide) (asm_cons (bits_le x0) (asm_cons (bits_le x1) (asm_cons (bits_le x2) (asm_cons (bits_le x3) asm_nil)))) (by decide)
theorem Opcode.hchk (x0 : BitVec 3) (x1 : BitVec 5) (x2 : BitVec 4) (x3 : BitVec 3) : Opcode.Statement (.hchk x0 x1 x2 x3) :=
  opcode_of rfl rfl (by decide) (by decide) (asm_cons (bits_le x0) (asm_cons (bits_le x1) (asm_cons (bits_le x2) (asm_cons (bits_le x3) asm_nil)))) (by decide)
theorem Opcode.hinv (x0 : BitVec 3) (x1 : BitVec 5) (x2 : BitVec 5) : Opcode.Statement (.hinv x0 x1 x2) :=
  opcode_of rfl rfl (by decide) (by decide) (asm_cons (bits_le x0) (asm_cons (bits_le x1) (asm_cons (bits_le x2) asm_nil))) (by decide)
theorem Opcode.aadd (x0 : BitVec 3) (x1 : BitVec 5) (x2 : BitVec 4) (x3 : BitVec 5) (x4 : BitVec 5) (x5 : Aw) : Opcode.Statement (.aadd x0 x1 x2 x3 x4 x5) :=
  opcode_of rfl rfl (by decide) (by decide) (asm_cons (bits_le x0) (asm_cons (bits_le x1) (asm_cons (bits_le x2) (asm_cons (bits_le x3) (asm_cons (bits_le x4) (asm_cons (aw_le x5) asm_nil)))))) (by decide)
theorem Opcode.amin (x0 : BitVec 3) (x1 : BitVec 5) (x2 : BitVec 4) (x3 : BitVec 5) (x4 : BitVec 5) (x5 : Aw) : Opcode.Statement (.amin x0 x1 x2 x3 x4 x5) :=
  opcode_of rfl rfl (by decide) (by decide) (asm_cons (bits_le x0) (asm_cons (bits_le x1) (asm_cons (bits_le x2) (asm_cons (bits_le x3) (asm_cons (bits_le x4) (asm_cons (aw_le x5) asm_nil)))))) (by decide)
theorem Opcode.amax (x0 : BitVec 3) (x1 : BitVec 5) (x2 : BitVec 4) (x3 : BitVec 5) (x4 : BitVec 5) (x5 : Aw) : Opcode.Statement (.amax x0 x1 x2 x3 x4 x5) :=
  opcode_of rfl rfl (by decide) (by decide) (asm_cons (bits_le x0) (asm_cons (bits_le x1) (asm_cons (bits_le x2) (asm_cons (bits_le x3) (asm_cons (bits_le x4) (asm_cons (aw_le x5) asm_nil)))))) (by decide)
theorem Opcode.aminn (x0 : BitVec 3) (x1 : BitVec 5) (x2 : BitVec 4) (x3 : BitVec 5) (x4 : BitVec 5) (x5 : Aw) : Opcode.Statement (.aminn x0 x1 x2 x3 x4 x5) :=
  opcode_of rfl rfl (by decide) (by decide) (asm_cons (bits_le x0) (asm_cons (bits_le x1) (asm_cons (bits_le x2) (asm_cons (bits_le x3) (asm_cons (bits_le x4) (asm_cons (aw_le x5) asm_nil)))))) (by decide)
theorem Opcode.amaxn (x0 : BitVec 3) (x1 : BitVec 5) (x2 : BitVec 4) (x3 : BitVec 5) (x4 : BitVec 5) (x5 : Aw) : Opcode.Statement (.amaxn x0 x1 x2 x3 x4 x5) :=
  opcode_of rfl rfl (by decide) (by decide) (asm_cons (bits_le x0) (asm_cons (bits_le x1) (asm_cons (bits_le x2) (asm_cons (bits_le x3) (asm_cons (bits_le x4) (asm_cons (aw_le x5) asm_nil)))))) (by decide)
theorem Opcode.aand (x0 : BitVec 3) (x1 : BitVec 5) (x2 : BitVec 4) (x3 : BitVec 5) (x4 : BitVec 5) (x5 : Aw) : Opcode.Statement (.aand x0 x1 x2 x3 x4 x5) :=
  opcode_of rfl rfl (by decide) (by decide) (asm_cons (bits_le x0) (asm_cons (bits_le x1) (asm_cons (bits_le x2) (asm_cons (bits_le x3) (asm_cons (bits_le x4) (asm_cons (aw_le x5) asm_nil)))))) (by decide)
theorem Opcode.aor (x0 : BitVec 3) (x1 : BitVec 5) (x2 : BitVec 4) (x3 : BitVec 5) (x4 : BitVec 5) (x5 : Aw) : Opcode.Statement (.aor x0 x1 x2 x3 x4 x5) :=
  opcode_of rfl rfl (by decide) (by decide) (asm_cons (bits_le x0) (asm_cons (bits_le x1) (asm_cons (bits_le x2) (asm_cons (bits_le x3) (asm_cons (bits_le x4) (asm_cons (aw_le x5) asm_nil)))))) (by decide)
theorem Opcode.axor (x0 : BitVec 3) (x1 : BitVec 5) (x2 : BitVec 4) (x3 : BitVec 5) (x4 : BitVec 5) (x5 : Aw) : Opcode.Statement (.axor x0 x1 x2 x3 x4 x5) :=
  opcode_of rfl rfl (by decide) (by decide) (asm_cons (bits_le x0) (asm_cons (bits_le x1) (asm_cons (bits_le x2) (asm_cons (bits_le x3) (asm_cons (bits_le x4) (asm_cons (aw_le x5) asm_nil)))))) (by decide)
theorem Opcode.aswp (x0 : BitVec 3) (x1 : BitVec 5) (x2 : BitVec 4) (x3 : BitVec 5) (x4 : BitVec 5) (x5 : Aw) : Opcode.Statement (.aswp x0 x1 x2 x3 x4 x5) :=
  opcode_of rfl rfl (by decide) (by decide) (asm_cons (bits_le x0) (asm_cons (bits_le x1) (asm_cons (bits_le x2) (asm_cons (bits_le x3) (asm_cons (bits_le x4) (asm_cons (aw_le x5) asm_nil)))))) (by decide)
theorem Opcode.acas (x0 : BitVec 3) (x1 : BitVec 5) (x2 : BitVec 4) (x3 : BitVec 5) (x4 : BitVec 5) (x5 : Aw) : Opcode.Statement (.acas x0 x1 x2 x3 x4 x5) :=
  opcode_of rfl rfl (by decide) (by decide) (asm_cons (bits_le x0) (asm_cons (bits_le x1) (asm_cons (bits_le x2) (asm_cons (bits_le x3) (asm_cons (bits_le x4) (asm_cons (aw_le x5) asm_nil)))))) (by decide)
theorem Opcode.qinit (x0 : BitVec 3) (x1 : BitVec 5) (x2 : BitVec 5) : Opcode.Statement (.qinit x0 x1 x2) :=
  opcode_of rfl rfl (by decide) (by decide) (asm_cons (bits_le x0) (asm_cons (bits_le x1) (asm_cons (bits_le x2) asm_nil))) (by decide)
theorem Opcode.qenq (x0 : BitVec 3) (x1 : BitVec 5) (x2 : BitVec 5) (x3 : BitVec 5) : Opcode.Statement (.qenq x0 x1 x2 x3) :=
  opcode_of rfl rfl (by decide) (by decide) (asm_cons (bits_le x0) (asm_cons (bits_le x1) (asm_cons (bits_le x2) (asm_cons (bits_le x3) asm_nil)))) (by decide)
theorem Opcode.qdeq (x0 : BitVec 3) (x1 : BitVec 5) (x2 : BitVec 5) : Opcode.Statement (.qdeq x0 x1 x2) :=
  opcode_of rfl rfl (by decide) (by decide) (asm_cons (bits_le x0) (asm_cons (bits_le x1) (asm_cons (bits_le x2) asm_nil))) (by decide)
theorem Opcode.qtry (x0 : BitVec 3) (x1 : BitVec 5) (x2 : BitVec 5) (x3 : BitVec 3) : Opcode.Statement (.qtry x0 x1 x2 x3) :=
  opcode_of rfl rfl (by decide) (by decide) (asm_cons (bits_le x0) (asm_cons (bits_le x1) (asm_cons (bits_le x2) (asm_cons (bits_le x3) asm_nil)))) (by decide)
theorem Opcode.qlen (x0 : BitVec 3) (x1 : BitVec 5) (x2 : BitVec 5) : Opcode.Statement (.qlen x0 x1 x2) :=
  opcode_of rfl rfl (by decide) (by decide) (asm_cons (bits_le x0) (asm_cons (bits_le x1) (asm_cons (bits_le x2) asm_nil))) (by decide)
theorem Opcode.rld (x0 : BitVec 3) (x1 : Ext) (x2 : BitVec 5) (x3 : BitVec 5) (x4 : BitVec 5) (x5 : Sz) (x6 : BitVec 5) : Opcode.Statement (.rld x0 x1 x2 x3 x4 x5 x6) :=
  opcode_of rfl rfl (by decide) (by decide) (asm_cons (bits_le x0) (asm_cons (bit_le x1) (asm_cons (bits_le x2) (asm_cons (bits_le x3) (asm_cons (bits_le x4) (asm_cons (sz_le x5) (asm_cons (bits_le x6) asm_nil))))))) (by decide)
theorem Opcode.rst (x0 : BitVec 3) (x1 : Ext) (x2 : BitVec 5) (x3 : BitVec 5) (x4 : BitVec 5) (x5 : Sz) (x6 : BitVec 5) : Opcode.Statement (.rst x0 x1 x2 x3 x4 x5 x6) :=
  opcode_of rfl rfl (by decide) (by decide) (asm_cons (bits_le x0) (asm_cons (bit_le x1) (asm_cons (bits_le x2) (asm_cons (bits_le x3) (asm_cons (bits_le x4) (asm_cons (sz_le x5) (asm_cons (bits_le x6) asm_nil))))))) (by decide)
theorem Opcode.vld (x0 : BitVec 3) (x1 : Ext) (x2 : BitVec 5) (x3 : Base) (x4 : BitVec 8) (x5 : BitVec 3) : Opcode.Statement (.vld x0 x1 x2 x3 x4 x5) :=
  opcode_of rfl rfl (by decide) (by decide) (asm_cons (bits_le x0) (asm_cons (bit_le x1) (asm_cons (bits_le x2) (asm_cons (kind_le x3) (asm_cons (num_le x3) (asm_cons (bits_le x4) (asm_cons (bits_le x5) asm_nil))))))) (by decide)
theorem Opcode.vst (x0 : BitVec 3) (x1 : Ext) (x2 : BitVec 5) (x3 : Base) (x4 : BitVec 8) (x5 : BitVec 3) : Opcode.Statement (.vst x0 x1 x2 x3 x4 x5) :=
  opcode_of rfl rfl (by decide) (by decide) (asm_cons (bits_le x0) (asm_cons (bit_le x1) (asm_cons (bits_le x2) (asm_cons (kind_le x3) (asm_cons (num_le x3) (asm_cons (bits_le x4) (asm_cons (bits_le x5) asm_nil))))))) (by decide)
theorem Opcode.vlds (x0 : BitVec 3) (x1 : Ext) (x2 : BitVec 5) (x3 : BitVec 5) (x4 : BitVec 5) (x5 : BitVec 3) : Opcode.Statement (.vlds x0 x1 x2 x3 x4 x5) :=
  opcode_of rfl rfl (by decide) (by decide) (asm_cons (bits_le x0) (asm_cons (bit_le x1) (asm_cons (bits_le x2) (asm_cons (bits_le x3) (asm_cons (bits_le x4) (asm_cons (bits_le x5) asm_nil)))))) (by decide)
theorem Opcode.vldx (x0 : BitVec 3) (x1 : Ext) (x2 : BitVec 5) (x3 : BitVec 5) (x4 : BitVec 5) (x5 : BitVec 3) : Opcode.Statement (.vldx x0 x1 x2 x3 x4 x5) :=
  opcode_of rfl rfl (by decide) (by decide) (asm_cons (bits_le x0) (asm_cons (bit_le x1) (asm_cons (bits_le x2) (asm_cons (bits_le x3) (asm_cons (bits_le x4) (asm_cons (bits_le x5) asm_nil)))))) (by decide)
theorem Opcode.vstx (x0 : BitVec 3) (x1 : Ext) (x2 : BitVec 5) (x3 : BitVec 5) (x4 : BitVec 5) (x5 : BitVec 3) : Opcode.Statement (.vstx x0 x1 x2 x3 x4 x5) :=
  opcode_of rfl rfl (by decide) (by decide) (asm_cons (bits_le x0) (asm_cons (bit_le x1) (asm_cons (bits_le x2) (asm_cons (bits_le x3) (asm_cons (bits_le x4) (asm_cons (bits_le x5) asm_nil)))))) (by decide)
theorem Opcode.vldl (x0 : BitVec 3) (x1 : Ext) (x2 : BitVec 5) (x3 : BitVec 4) (x4 : BitVec 8) (x5 : BitVec 3) : Opcode.Statement (.vldl x0 x1 x2 x3 x4 x5) :=
  opcode_of rfl rfl (by decide) (by decide) (asm_cons (bits_le x0) (asm_cons (bit_le x1) (asm_cons (bits_le x2) (asm_cons (bits_le x3) (asm_cons (bits_le x4) (asm_cons (bits_le x5) asm_nil)))))) (by decide)
theorem Opcode.vstl (x0 : BitVec 3) (x1 : Ext) (x2 : BitVec 5) (x3 : BitVec 4) (x4 : BitVec 8) (x5 : BitVec 3) : Opcode.Statement (.vstl x0 x1 x2 x3 x4 x5) :=
  opcode_of rfl rfl (by decide) (by decide) (asm_cons (bits_le x0) (asm_cons (bit_le x1) (asm_cons (bits_le x2) (asm_cons (bits_le x3) (asm_cons (bits_le x4) (asm_cons (bits_le x5) asm_nil)))))) (by decide)
theorem Opcode.vadd (x0 : BitVec 3) (x1 : Ext) (x2 : BitVec 5) (x3 : BitVec 5) (x4 : BitVec 5) (x5 : LaneTy) (x6 : BitVec 3) : Opcode.Statement (.vadd x0 x1 x2 x3 x4 x5 x6) :=
  opcode_of rfl rfl (by decide) (by decide) (asm_cons (bits_le x0) (asm_cons (bit_le x1) (asm_cons (bits_le x2) (asm_cons (bits_le x3) (asm_cons (bits_le x4) (asm_cons (laneTy_le x5) (asm_cons (bits_le x6) asm_nil))))))) (by decide)
theorem Opcode.vsub (x0 : BitVec 3) (x1 : Ext) (x2 : BitVec 5) (x3 : BitVec 5) (x4 : BitVec 5) (x5 : LaneTy) (x6 : BitVec 3) : Opcode.Statement (.vsub x0 x1 x2 x3 x4 x5 x6) :=
  opcode_of rfl rfl (by decide) (by decide) (asm_cons (bits_le x0) (asm_cons (bit_le x1) (asm_cons (bits_le x2) (asm_cons (bits_le x3) (asm_cons (bits_le x4) (asm_cons (laneTy_le x5) (asm_cons (bits_le x6) asm_nil))))))) (by decide)
theorem Opcode.vmul (x0 : BitVec 3) (x1 : Ext) (x2 : BitVec 5) (x3 : BitVec 5) (x4 : BitVec 5) (x5 : LaneTy) (x6 : BitVec 3) : Opcode.Statement (.vmul x0 x1 x2 x3 x4 x5 x6) :=
  opcode_of rfl rfl (by decide) (by decide) (asm_cons (bits_le x0) (asm_cons (bit_le x1) (asm_cons (bits_le x2) (asm_cons (bits_le x3) (asm_cons (bits_le x4) (asm_cons (laneTy_le x5) (asm_cons (bits_le x6) asm_nil))))))) (by decide)
theorem Opcode.vfma (x0 : BitVec 3) (x1 : Ext) (x2 : BitVec 5) (x3 : BitVec 5) (x4 : BitVec 5) (x5 : LaneTy) (x6 : BitVec 3) : Opcode.Statement (.vfma x0 x1 x2 x3 x4 x5 x6) :=
  opcode_of rfl rfl (by decide) (by decide) (asm_cons (bits_le x0) (asm_cons (bit_le x1) (asm_cons (bits_le x2) (asm_cons (bits_le x3) (asm_cons (bits_le x4) (asm_cons (laneTy_le x5) (asm_cons (bits_le x6) asm_nil))))))) (by decide)
theorem Opcode.vfms (x0 : BitVec 3) (x1 : Ext) (x2 : BitVec 5) (x3 : BitVec 5) (x4 : BitVec 5) (x5 : LaneTy) (x6 : BitVec 3) : Opcode.Statement (.vfms x0 x1 x2 x3 x4 x5 x6) :=
  opcode_of rfl rfl (by decide) (by decide) (asm_cons (bits_le x0) (asm_cons (bit_le x1) (asm_cons (bits_le x2) (asm_cons (bits_le x3) (asm_cons (bits_le x4) (asm_cons (laneTy_le x5) (asm_cons (bits_le x6) asm_nil))))))) (by decide)
theorem Opcode.vmin (x0 : BitVec 3) (x1 : Ext) (x2 : BitVec 5) (x3 : BitVec 5) (x4 : BitVec 5) (x5 : LaneTy) (x6 : BitVec 3) : Opcode.Statement (.vmin x0 x1 x2 x3 x4 x5 x6) :=
  opcode_of rfl rfl (by decide) (by decide) (asm_cons (bits_le x0) (asm_cons (bit_le x1) (asm_cons (bits_le x2) (asm_cons (bits_le x3) (asm_cons (bits_le x4) (asm_cons (laneTy_le x5) (asm_cons (bits_le x6) asm_nil))))))) (by decide)
theorem Opcode.vmax (x0 : BitVec 3) (x1 : Ext) (x2 : BitVec 5) (x3 : BitVec 5) (x4 : BitVec 5) (x5 : LaneTy) (x6 : BitVec 3) : Opcode.Statement (.vmax x0 x1 x2 x3 x4 x5 x6) :=
  opcode_of rfl rfl (by decide) (by decide) (asm_cons (bits_le x0) (asm_cons (bit_le x1) (asm_cons (bits_le x2) (asm_cons (bits_le x3) (asm_cons (bits_le x4) (asm_cons (laneTy_le x5) (asm_cons (bits_le x6) asm_nil))))))) (by decide)
theorem Opcode.vabs (x0 : BitVec 3) (x1 : Ext) (x2 : BitVec 5) (x3 : BitVec 5) (x4 : LaneTy) (x5 : BitVec 3) : Opcode.Statement (.vabs x0 x1 x2 x3 x4 x5) :=
  opcode_of rfl rfl (by decide) (by decide) (asm_cons (bits_le x0) (asm_cons (bit_le x1) (asm_cons (bits_le x2) (asm_cons (bits_le x3) (asm_cons (laneTy_le x4) (asm_cons (bits_le x5) asm_nil)))))) (by decide)
theorem Opcode.vneg (x0 : BitVec 3) (x1 : Ext) (x2 : BitVec 5) (x3 : BitVec 5) (x4 : LaneTy) (x5 : BitVec 3) : Opcode.Statement (.vneg x0 x1 x2 x3 x4 x5) :=
  opcode_of rfl rfl (by decide) (by decide) (asm_cons (bits_le x0) (asm_cons (bit_le x1) (asm_cons (bits_le x2) (asm_cons (bits_le x3) (asm_cons (laneTy_le x4) (asm_cons (bits_le x5) asm_nil)))))) (by decide)
theorem Opcode.vdiv (x0 : BitVec 3) (x1 : Ext) (x2 : BitVec 5) (x3 : BitVec 5) (x4 : BitVec 5) (x5 : LaneTy) (x6 : BitVec 3) : Opcode.Statement (.vdiv x0 x1 x2 x3 x4 x5 x6) :=
  opcode_of rfl rfl (by decide) (by decide) (asm_cons (bits_le x0) (asm_cons (bit_le x1) (asm_cons (bits_le x2) (asm_cons (bits_le x3) (asm_cons (bits_le x4) (asm_cons (laneTy_le x5) (asm_cons (bits_le x6) asm_nil))))))) (by decide)
theorem Opcode.vsqrt (x0 : BitVec 3) (x1 : Ext) (x2 : BitVec 5) (x3 : BitVec 5) (x4 : LaneTy) (x5 : BitVec 3) : Opcode.Statement (.vsqrt x0 x1 x2 x3 x4 x5) :=
  opcode_of rfl rfl (by decide) (by decide) (asm_cons (bits_le x0) (asm_cons (bit_le x1) (asm_cons (bits_le x2) (asm_cons (bits_le x3) (asm_cons (laneTy_le x4) (asm_cons (bits_le x5) asm_nil)))))) (by decide)
theorem Opcode.vsqrtPv (x0 : BitVec 3) (x1 : Ext) (x2 : BitVec 5) (x3 : BitVec 5) (x4 : LaneTy) (x5 : BitVec 3) : Opcode.Statement (.vsqrtPv x0 x1 x2 x3 x4 x5) :=
  opcode_of rfl rfl (by decide) (by decide) (asm_cons (bits_le x0) (asm_cons (bit_le x1) (asm_cons (bits_le x2) (asm_cons (bits_le x3) (asm_cons (laneTy_le x4) (asm_cons (bits_le x5) (asm_cons (Nat.le_refl 1) asm_nil))))))) (by decide)
theorem Opcode.vrcp (x0 : BitVec 3) (x1 : Ext) (x2 : BitVec 5) (x3 : BitVec 5) (x4 : LaneTy) (x5 : BitVec 3) : Opcode.Statement (.vrcp x0 x1 x2 x3 x4 x5) :=
  opcode_of rfl rfl (by decide) (by decide) (asm_cons (bits_le x0) (asm_cons (bit_le x1) (asm_cons (bits_le x2) (asm_cons (bits_le x3) (asm_cons (laneTy_le x4) (asm_cons (bits_le x5) asm_nil)))))) (by decide)
theorem Opcode.vrsq (x0 : BitVec 3) (x1 : Ext) (x2 : BitVec 5) (x3 : BitVec 5) (x4 : LaneTy) (x5 : BitVec 3) : Opcode.Statement (.vrsq x0 x1 x2 x3 x4 x5) :=
  opcode_of rfl rfl (by decide) (by decide) (asm_cons (bits_le x0) (asm_cons (bit_le x1) (asm_cons (bits_le x2) (asm_cons (bits_le x3) (asm_cons (laneTy_le x4) (asm_cons (bits_le x5) asm_nil)))))) (by decide)
theorem Opcode.vexp2 (x0 : BitVec 3) (x1 : Ext) (x2 : BitVec 5) (x3 : BitVec 5) (x4 : LaneTy) (x5 : BitVec 3) : Opcode.Statement (.vexp2 x0 x1 x2 x3 x4 x5) :=
  opcode_of rfl rfl (by decide) (by decide) (asm_cons (bits_le x0) (asm_cons (bit_le x1) (asm_cons (bits_le x2) (asm_cons (bits_le x3) (asm_cons (laneTy_le x4) (asm_cons (bits_le x5) asm_nil)))))) (by decide)
theorem Opcode.vlog2 (x0 : BitVec 3) (x1 : Ext) (x2 : BitVec 5) (x3 : BitVec 5) (x4 : LaneTy) (x5 : BitVec 3) : Opcode.Statement (.vlog2 x0 x1 x2 x3 x4 x5) :=
  opcode_of rfl rfl (by decide) (by decide) (asm_cons (bits_le x0) (asm_cons (bit_le x1) (asm_cons (bits_le x2) (asm_cons (bits_le x3) (asm_cons (laneTy_le x4) (asm_cons (bits_le x5) asm_nil)))))) (by decide)
theorem Opcode.vsinpi (x0 : BitVec 3) (x1 : Ext) (x2 : BitVec 5) (x3 : BitVec 5) (x4 : LaneTy) (x5 : BitVec 3) : Opcode.Statement (.vsinpi x0 x1 x2 x3 x4 x5) :=
  opcode_of rfl rfl (by decide) (by decide) (asm_cons (bits_le x0) (asm_cons (bit_le x1) (asm_cons (bits_le x2) (asm_cons (bits_le x3) (asm_cons (laneTy_le x4) (asm_cons (bits_le x5) asm_nil)))))) (by decide)
theorem Opcode.vcospi (x0 : BitVec 3) (x1 : Ext) (x2 : BitVec 5) (x3 : BitVec 5) (x4 : LaneTy) (x5 : BitVec 3) : Opcode.Statement (.vcospi x0 x1 x2 x3 x4 x5) :=
  opcode_of rfl rfl (by decide) (by decide) (asm_cons (bits_le x0) (asm_cons (bit_le x1) (asm_cons (bits_le x2) (asm_cons (bits_le x3) (asm_cons (laneTy_le x4) (asm_cons (bits_le x5) asm_nil)))))) (by decide)
theorem Opcode.vcmp (x0 : BitVec 3) (x1 : Ext) (x2 : BitVec 3) (x3 : VecCc) (x4 : BitVec 5) (x5 : BitVec 5) (x6 : LaneTy) (x7 : BitVec 3) : Opcode.Statement (.vcmp x0 x1 x2 x3 x4 x5 x6 x7) :=
  opcode_of rfl rfl (by decide) (by decide) (asm_cons (bits_le x0) (asm_cons (bit_le x1) (asm_cons (bits_le x2) (asm_cons (half_le (vecCc_le x3)) (asm_cons (odd_le x3.code) (asm_cons (bits_le x4) (asm_cons (bits_le x5) (asm_cons (laneTy_le x6) (asm_cons (bits_le x7) asm_nil))))))))) (by decide)
theorem Opcode.vsel (x0 : BitVec 3) (x1 : Ext) (x2 : BitVec 5) (x3 : BitVec 5) (x4 : BitVec 5) (x5 : BitVec 3) : Opcode.Statement (.vsel x0 x1 x2 x3 x4 x5) :=
  opcode_of rfl rfl (by decide) (by decide) (asm_cons (bits_le x0) (asm_cons (bit_le x1) (asm_cons (bits_le x2) (asm_cons (bits_le x3) (asm_cons (bits_le x4) (asm_cons (bits_le x5) asm_nil)))))) (by decide)
theorem Opcode.vand (x0 : BitVec 3) (x1 : Ext) (x2 : BitVec 5) (x3 : BitVec 5) (x4 : BitVec 5) (x5 : BitVec 3) : Opcode.Statement (.vand x0 x1 x2 x3 x4 x5) :=
  opcode_of rfl rfl (by decide) (by decide) (asm_cons (bits_le x0) (asm_cons (bit_le x1) (asm_cons (bits_le x2) (asm_cons (bits_le x3) (asm_cons (bits_le x4) (asm_cons (bits_le x5) asm_nil)))))) (by decide)
theorem Opcode.vor (x0 : BitVec 3) (x1 : Ext) (x2 : BitVec 5) (x3 : BitVec 5) (x4 : BitVec 5) (x5 : BitVec 3) : Opcode.Statement (.vor x0 x1 x2 x3 x4 x5) :=
  opcode_of rfl rfl (by decide) (by decide) (asm_cons (bits_le x0) (asm_cons (bit_le x1) (asm_cons (bits_le x2) (asm_cons (bits_le x3) (asm_cons (bits_le x4) (asm_cons (bits_le x5) asm_nil)))))) (by decide)
theorem Opcode.vxor (x0 : BitVec 3) (x1 : Ext) (x2 : BitVec 5) (x3 : BitVec 5) (x4 : BitVec 5) (x5 : BitVec 3) : Opcode.Statement (.vxor x0 x1 x2 x3 x4 x5) :=
  opcode_of rfl rfl (by decide) (by decide) (asm_cons (bits_le x0) (asm_cons (bit_le x1) (asm_cons (bits_le x2) (asm_cons (bits_le x3) (asm_cons (bits_le x4) (asm_cons (bits_le x5) asm_nil)))))) (by decide)
theorem Opcode.vnot (x0 : BitVec 3) (x1 : Ext) (x2 : BitVec 5) (x3 : BitVec 5) (x4 : BitVec 3) : Opcode.Statement (.vnot x0 x1 x2 x3 x4) :=
  opcode_of rfl rfl (by decide) (by decide) (asm_cons (bits_le x0) (asm_cons (bit_le x1) (asm_cons (bits_le x2) (asm_cons (bits_le x3) (asm_cons (bits_le x4) asm_nil))))) (by decide)
theorem Opcode.vshl (x0 : BitVec 3) (x1 : Ext) (x2 : BitVec 5) (x3 : BitVec 5) (x4 : BitVec 5) (x5 : LaneTy) (x6 : BitVec 3) : Opcode.Statement (.vshl x0 x1 x2 x3 x4 x5 x6) :=
  opcode_of rfl rfl (by decide) (by decide) (asm_cons (bits_le x0) (asm_cons (bit_le x1) (asm_cons (bits_le x2) (asm_cons (bits_le x3) (asm_cons (bits_le x4) (asm_cons (laneTy_le x5) (asm_cons (bits_le x6) asm_nil))))))) (by decide)
theorem Opcode.vshr (x0 : BitVec 3) (x1 : Ext) (x2 : BitVec 5) (x3 : BitVec 5) (x4 : BitVec 5) (x5 : LaneTy) (x6 : BitVec 3) : Opcode.Statement (.vshr x0 x1 x2 x3 x4 x5 x6) :=
  opcode_of rfl rfl (by decide) (by decide) (asm_cons (bits_le x0) (asm_cons (bit_le x1) (asm_cons (bits_le x2) (asm_cons (bits_le x3) (asm_cons (bits_le x4) (asm_cons (laneTy_le x5) (asm_cons (bits_le x6) asm_nil))))))) (by decide)
theorem Opcode.vsar (x0 : BitVec 3) (x1 : Ext) (x2 : BitVec 5) (x3 : BitVec 5) (x4 : BitVec 5) (x5 : LaneTy) (x6 : BitVec 3) : Opcode.Statement (.vsar x0 x1 x2 x3 x4 x5 x6) :=
  opcode_of rfl rfl (by decide) (by decide) (asm_cons (bits_le x0) (asm_cons (bit_le x1) (asm_cons (bits_le x2) (asm_cons (bits_le x3) (asm_cons (bits_le x4) (asm_cons (laneTy_le x5) (asm_cons (bits_le x6) asm_nil))))))) (by decide)
theorem Opcode.mand (x0 : BitVec 3) (x1 : Ext) (x2 : BitVec 3) (x3 : BitVec 3) (x4 : BitVec 3) : Opcode.Statement (.mand x0 x1 x2 x3 x4) :=
  opcode_of rfl rfl (by decide) (by decide) (asm_cons (bits_le x0) (asm_cons (bit_le x1) (asm_cons (bits_le x2) (asm_cons (bits_le x3) (asm_cons (bits_le x4) asm_nil))))) (by decide)
theorem Opcode.mor (x0 : BitVec 3) (x1 : Ext) (x2 : BitVec 3) (x3 : BitVec 3) (x4 : BitVec 3) : Opcode.Statement (.mor x0 x1 x2 x3 x4) :=
  opcode_of rfl rfl (by decide) (by decide) (asm_cons (bits_le x0) (asm_cons (bit_le x1) (asm_cons (bits_le x2) (asm_cons (bits_le x3) (asm_cons (bits_le x4) asm_nil))))) (by decide)
theorem Opcode.mnot (x0 : BitVec 3) (x1 : Ext) (x2 : BitVec 3) (x3 : BitVec 3) : Opcode.Statement (.mnot x0 x1 x2 x3) :=
  opcode_of rfl rfl (by decide) (by decide) (asm_cons (bits_le x0) (asm_cons (bit_le x1) (asm_cons (bits_le x2) (asm_cons (bits_le x3) asm_nil)))) (by decide)
theorem Opcode.vpopm (x0 : BitVec 3) (x1 : Ext) (x2 : BitVec 5) (x3 : BitVec 3) : Opcode.Statement (.vpopm x0 x1 x2 x3) :=
  opcode_of rfl rfl (by decide) (by decide) (asm_cons (bits_le x0) (asm_cons (bit_le x1) (asm_cons (bits_le x2) (asm_cons (bits_le x3) asm_nil)))) (by decide)
theorem Opcode.vcvt (x0 : BitVec 3) (x1 : Ext) (x2 : BitVec 5) (x3 : BitVec 5) (x4 : LaneTy) (x5 : LaneTy) (x6 : BitVec 3) : Opcode.Statement (.vcvt x0 x1 x2 x3 x4 x5 x6) :=
  opcode_of rfl rfl (by decide) (by decide) (asm_cons (bits_le x0) (asm_cons (bit_le x1) (asm_cons (bits_le x2) (asm_cons (bits_le x3) (asm_cons (laneTy_le x4) (asm_cons (laneTy_le x5) (asm_cons (bits_le x6) asm_nil))))))) (by decide)
theorem Opcode.vqnt (x0 : BitVec 3) (x1 : Ext) (x2 : BitVec 5) (x3 : BitVec 5) (x4 : ElemCode) (x5 : LaneTy) : Opcode.Statement (.vqnt x0 x1 x2 x3 x4 x5) :=
  opcode_of rfl rfl (by decide) (by decide) (asm_cons (bits_le x0) (asm_cons (bit_le x1) (asm_cons (bits_le x2) (asm_cons (bits_le x3) (asm_cons (elemCode_le x4) (asm_cons (laneTy_le x5) asm_nil)))))) (by decide)
theorem Opcode.vdqnt (x0 : BitVec 3) (x1 : Ext) (x2 : BitVec 5) (x3 : BitVec 5) (x4 : ElemCode) (x5 : LaneTy) : Opcode.Statement (.vdqnt x0 x1 x2 x3 x4 x5) :=
  opcode_of rfl rfl (by decide) (by decide) (asm_cons (bits_le x0) (asm_cons (bit_le x1) (asm_cons (bits_le x2) (asm_cons (bits_le x3) (asm_cons (elemCode_le x4) (asm_cons (laneTy_le x5) asm_nil)))))) (by decide)
theorem Opcode.vpack (x0 : BitVec 3) (x1 : Ext) (x2 : BitVec 5) (x3 : BitVec 5) (x4 : BitVec 5) (x5 : LaneTy) (x6 : BitVec 3) : Opcode.Statement (.vpack x0 x1 x2 x3 x4 x5 x6) :=
  opcode_of rfl rfl (by decide) (by decide) (asm_cons (bits_le x0) (asm_cons (bit_le x1) (asm_cons (bits_le x2) (asm_cons (bits_le x3) (asm_cons (bits_le x4) (asm_cons (laneTy_le x5) (asm_cons (bits_le x6) asm_nil))))))) (by decide)
theorem Opcode.vunpk (x0 : BitVec 3) (x1 : Ext) (x2 : BitVec 5) (x3 : BitVec 5) (x4 : Bool) (x5 : LaneTy) (x6 : BitVec 3) : Opcode.Statement (.vunpk x0 x1 x2 x3 x4 x5 x6) :=
  opcode_of rfl rfl (by decide) (by decide) (asm_cons (bits_le x0) (asm_cons (bit_le x1) (asm_cons (bits_le x2) (asm_cons (bits_le x3) (asm_cons (bool_le x4) (asm_cons (laneTy_le x5) (asm_cons (bits_le x6) asm_nil))))))) (by decide)
theorem Opcode.vperm (x0 : BitVec 3) (x1 : Ext) (x2 : BitVec 5) (x3 : BitVec 5) (x4 : BitVec 5) (x5 : BitVec 3) : Opcode.Statement (.vperm x0 x1 x2 x3 x4 x5) :=
  opcode_of rfl rfl (by decide) (by decide) (asm_cons (bits_le x0) (asm_cons (bit_le x1) (asm_cons (bits_le x2) (asm_cons (bits_le x3) (asm_cons (bits_le x4) (asm_cons (bits_le x5) asm_nil)))))) (by decide)
theorem Opcode.vbcast (x0 : BitVec 3) (x1 : Ext) (x2 : BitVec 5) (x3 : BitVec 5) (x4 : BitVec 3) : Opcode.Statement (.vbcast x0 x1 x2 x3 x4) :=
  opcode_of rfl rfl (by decide) (by decide) (asm_cons (bits_le x0) (asm_cons (bit_le x1) (asm_cons (bits_le x2) (asm_cons (bits_le x3) (asm_cons (bits_le x4) asm_nil))))) (by decide)
theorem Opcode.vext (x0 : BitVec 3) (x1 : Ext) (x2 : BitVec 5) (x3 : BitVec 5) (x4 : BitVec 4) : Opcode.Statement (.vext x0 x1 x2 x3 x4) :=
  opcode_of rfl rfl (by decide) (by decide) (asm_cons (bits_le x0) (asm_cons (bit_le x1) (asm_cons (bits_le x2) (asm_cons (bits_le x3) (asm_cons (bits_le x4) asm_nil))))) (by decide)
theorem Opcode.vins (x0 : BitVec 3) (x1 : Ext) (x2 : BitVec 5) (x3 : BitVec 5) (x4 : BitVec 4) : Opcode.Statement (.vins x0 x1 x2 x3 x4) :=
  opcode_of rfl rfl (by decide) (by decide) (asm_cons (bits_le x0) (asm_cons (bit_le x1) (asm_cons (bits_le x2) (asm_cons (bits_le x3) (asm_cons (bits_le x4) asm_nil))))) (by decide)
theorem Opcode.vrsum (x0 : BitVec 3) (x1 : Ext) (x2 : BitVec 5) (x3 : BitVec 5) (x4 : LaneTy) (x5 : BitVec 3) : Opcode.Statement (.vrsum x0 x1 x2 x3 x4 x5) :=
  opcode_of rfl rfl (by decide) (by decide) (asm_cons (bits_le x0) (asm_cons (bit_le x1) (asm_cons (bits_le x2) (asm_cons (bits_le x3) (asm_cons (laneTy_le x4) (asm_cons (bits_le x5) asm_nil)))))) (by decide)
theorem Opcode.vrmax (x0 : BitVec 3) (x1 : Ext) (x2 : BitVec 5) (x3 : BitVec 5) (x4 : LaneTy) (x5 : BitVec 3) : Opcode.Statement (.vrmax x0 x1 x2 x3 x4 x5) :=
  opcode_of rfl rfl (by decide) (by decide) (asm_cons (bits_le x0) (asm_cons (bit_le x1) (asm_cons (bits_le x2) (asm_cons (bits_le x3) (asm_cons (laneTy_le x4) (asm_cons (bits_le x5) asm_nil)))))) (by decide)
theorem Opcode.vrmin (x0 : BitVec 3) (x1 : Ext) (x2 : BitVec 5) (x3 : BitVec 5) (x4 : LaneTy) (x5 : BitVec 3) : Opcode.Statement (.vrmin x0 x1 x2 x3 x4 x5) :=
  opcode_of rfl rfl (by decide) (by decide) (asm_cons (bits_le x0) (asm_cons (bit_le x1) (asm_cons (bits_le x2) (asm_cons (bits_le x3) (asm_cons (laneTy_le x4) (asm_cons (bits_le x5) asm_nil)))))) (by decide)
theorem Opcode.vdot (x0 : BitVec 3) (x1 : Ext) (x2 : BitVec 5) (x3 : BitVec 5) (x4 : BitVec 5) (x5 : LaneTy) (x6 : BitVec 3) : Opcode.Statement (.vdot x0 x1 x2 x3 x4 x5 x6) :=
  opcode_of rfl rfl (by decide) (by decide) (asm_cons (bits_le x0) (asm_cons (bit_le x1) (asm_cons (bits_le x2) (asm_cons (bits_le x3) (asm_cons (bits_le x4) (asm_cons (laneTy_le x5) (asm_cons (bits_le x6) asm_nil))))))) (by decide)
theorem Opcode.vdelta (x0 : BitVec 3) (x1 : Ext) (x2 : BitVec 5) (x3 : BitVec 5) (x4 : BitVec 5) (x5 : LaneTy) (x6 : BitVec 3) : Opcode.Statement (.vdelta x0 x1 x2 x3 x4 x5 x6) :=
  opcode_of rfl rfl (by decide) (by decide) (asm_cons (bits_le x0) (asm_cons (bit_le x1) (asm_cons (bits_le x2) (asm_cons (bits_le x3) (asm_cons (bits_le x4) (asm_cons (laneTy_le x5) (asm_cons (bits_le x6) asm_nil))))))) (by decide)
theorem Opcode.vrnd (x0 : BitVec 3) (x1 : Ext) (x2 : BitVec 5) (x3 : BitVec 3) : Opcode.Statement (.vrnd x0 x1 x2 x3) :=
  opcode_of rfl rfl (by decide) (by decide) (asm_cons (bits_le x0) (asm_cons (bit_le x1) (asm_cons (bits_le x2) (asm_cons (bits_le x3) asm_nil)))) (by decide)
theorem Opcode.vgauss (x0 : BitVec 3) (x1 : Ext) (x2 : BitVec 5) (x3 : BitVec 3) : Opcode.Statement (.vgauss x0 x1 x2 x3) :=
  opcode_of rfl rfl (by decide) (by decide) (asm_cons (bits_le x0) (asm_cons (bit_le x1) (asm_cons (bits_le x2) (asm_cons (bits_le x3) asm_nil)))) (by decide)
theorem Opcode.xcp (x0 : BitVec 3) (x1 : Ext) (x2 : BitVec 5) (x3 : BitVec 5) (x4 : BitVec 3) (x5 : BitVec 3) : Opcode.Statement (.xcp x0 x1 x2 x3 x4 x5) :=
  opcode_of rfl rfl (by decide) (by decide) (asm_cons (bits_le x0) (asm_cons (bit_le x1) (asm_cons (bits_le x2) (asm_cons (bits_le x3) (asm_cons (bits_le x4) (asm_cons (bits_le x5) asm_nil)))))) (by decide)
theorem Opcode.xbc (x0 : BitVec 3) (x1 : Ext) (x2 : BitVec 5) (x3 : BitVec 5) (x4 : BitVec 3) (x5 : BitVec 3) : Opcode.Statement (.xbc x0 x1 x2 x3 x4 x5) :=
  opcode_of rfl rfl (by decide) (by decide) (asm_cons (bits_le x0) (asm_cons (bit_le x1) (asm_cons (bits_le x2) (asm_cons (bits_le x3) (asm_cons (bits_le x4) (asm_cons (bits_le x5) asm_nil)))))) (by decide)
theorem Opcode.tld (x0 : BitVec 3) (x1 : Ext) (x2 : BitVec 4) (x3 : Base) (x4 : BitVec 5) (x5 : BitVec 7) : Opcode.Statement (.tld x0 x1 x2 x3 x4 x5) :=
  opcode_of rfl rfl (by decide) (by decide) (asm_cons (bits_le x0) (asm_cons (bit_le x1) (asm_cons (bits_le x2) (asm_cons (kind_le x3) (asm_cons (num_le x3) (asm_cons (bits_le x4) (asm_cons (bits_le x5) asm_nil))))))) (by decide)
theorem Opcode.tst (x0 : BitVec 3) (x1 : Ext) (x2 : BitVec 4) (x3 : Base) (x4 : BitVec 5) (x5 : BitVec 7) : Opcode.Statement (.tst x0 x1 x2 x3 x4 x5) :=
  opcode_of rfl rfl (by decide) (by decide) (asm_cons (bits_le x0) (asm_cons (bit_le x1) (asm_cons (bits_le x2) (asm_cons (kind_le x3) (asm_cons (num_le x3) (asm_cons (bits_le x4) (asm_cons (bits_le x5) asm_nil))))))) (by decide)
theorem Opcode.tldl (x0 : BitVec 3) (x1 : Ext) (x2 : BitVec 4) (x3 : BitVec 4) (x4 : BitVec 13) : Opcode.Statement (.tldl x0 x1 x2 x3 x4) :=
  opcode_of rfl rfl (by decide) (by decide) (asm_cons (bits_le x0) (asm_cons (bit_le x1) (asm_cons (bits_le x2) (asm_cons (bits_le x3) (asm_cons (bits_le x4) asm_nil))))) (by decide)
theorem Opcode.tldlIndexed (x0 : BitVec 3) (x1 : BitVec 4) (x2 : BitVec 4) (x3 : BitVec 5) : Opcode.Statement (.tldlIndexed x0 x1 x2 x3) :=
  opcode_of rfl rfl (by decide) (by decide) (asm_cons (bits_le x0) (asm_cons (bits_le x1) (asm_cons (bits_le x2) (asm_cons (bits_le x3) (asm_cons (Nat.le_refl 1) asm_nil))))) (by decide)
theorem Opcode.tstl (x0 : BitVec 3) (x1 : Ext) (x2 : BitVec 4) (x3 : BitVec 4) (x4 : BitVec 13) : Opcode.Statement (.tstl x0 x1 x2 x3 x4) :=
  opcode_of rfl rfl (by decide) (by decide) (asm_cons (bits_le x0) (asm_cons (bit_le x1) (asm_cons (bits_le x2) (asm_cons (bits_le x3) (asm_cons (bits_le x4) asm_nil))))) (by decide)
theorem Opcode.tstlIndexed (x0 : BitVec 3) (x1 : BitVec 4) (x2 : BitVec 4) (x3 : BitVec 5) : Opcode.Statement (.tstlIndexed x0 x1 x2 x3) :=
  opcode_of rfl rfl (by decide) (by decide) (asm_cons (bits_le x0) (asm_cons (bits_le x1) (asm_cons (bits_le x2) (asm_cons (bits_le x3) (asm_cons (Nat.le_refl 1) asm_nil))))) (by decide)
theorem Opcode.tzero (x0 : BitVec 3) (x1 : BitVec 4) : Opcode.Statement (.tzero x0 x1) :=
  opcode_of rfl rfl (by decide) (by decide) (asm_cons (bits_le x0) (asm_cons (bits_le x1) asm_nil)) (by decide)
theorem Opcode.ttr (x0 : BitVec 3) (x1 : BitVec 4) (x2 : BitVec 4) : Opcode.Statement (.ttr x0 x1 x2) :=
  opcode_of rfl rfl (by decide) (by decide) (asm_cons (bits_le x0) (asm_cons (bits_le x1) (asm_cons (bits_le x2) asm_nil))) (by decide)
theorem Opcode.tcp (x0 : BitVec 3) (x1 : BitVec 4) (x2 : BitVec 4) : Opcode.Statement (.tcp x0 x1 x2) :=
  opcode_of rfl rfl (by decide) (by decide) (asm_cons (bits_le x0) (asm_cons (bits_le x1) (asm_cons (bits_le x2) asm_nil))) (by decide)
theorem Opcode.latch (x0 : BitVec 3) (x1 : BitVec 2) (x2 : BitVec 4) : Opcode.Statement (.latch x0 x1 x2) :=
  opcode_of rfl rfl (by decide) (by decide) (asm_cons (bits_le x0) (asm_cons (bits_le x1) (asm_cons (bits_le x2) asm_nil))) (by decide)
theorem Opcode.mma (x0 : BitVec 3) (x1 : BitVec 2) (x2 : BitVec 4) (x3 : BitVec 2) (x4 : MmaForm) : Opcode.Statement (.mma x0 x1 x2 x3 x4) :=
  opcode_of rfl rfl (by decide) (by decide) (asm_cons (bits_le x0) (asm_cons (bits_le x1) (asm_cons (bits_le x2) (asm_cons (bits_le x3) (asm_cons (mmaForm_le x4) asm_nil))))) (by decide)
theorem Opcode.mmaCl (x0 : BitVec 3) (x1 : BitVec 2) (x2 : BitVec 4) (x3 : BitVec 2) (x4 : MmaForm) : Opcode.Statement (.mmaCl x0 x1 x2 x3 x4) :=
  opcode_of rfl rfl (by decide) (by decide) (asm_cons (bits_le x0) (asm_cons (bits_le x1) (asm_cons (bits_le x2) (asm_cons (bits_le x3) (asm_cons (mmaForm_le x4) (asm_cons (Nat.le_refl 1) asm_nil)))))) (by decide)
theorem Opcode.acz (x0 : BitVec 3) (x1 : Ext) (x2 : BitVec 2) (x3 : BitVec 12) : Opcode.Statement (.acz x0 x1 x2 x3) :=
  opcode_of rfl rfl (by decide) (by decide) (asm_cons (bits_le x0) (asm_cons (bit_le x1) (asm_cons (bits_le x2) (asm_cons (bits_le x3) asm_nil)))) (by decide)
theorem Opcode.acrd (x0 : BitVec 3) (x1 : BitVec 4) (x2 : BitVec 2) (x3 : AcrdFmt) (x4 : Rm) (x5 : Ovf) (x6 : Bool) : Opcode.Statement (.acrd x0 x1 x2 x3 x4 x5 x6) :=
  opcode_of rfl rfl (by decide) (by decide) (asm_cons (bits_le x0) (asm_cons (bits_le x1) (asm_cons (bits_le x2) (asm_cons (acrdFmt_le x3) (asm_cons (rm_le x4) (asm_cons (ovf_le x5) (asm_cons (bool_le x6) asm_nil))))))) (by decide)
theorem Opcode.acadd (x0 : BitVec 3) (x1 : BitVec 2) (x2 : BitVec 2) : Opcode.Statement (.acadd x0 x1 x2) :=
  opcode_of rfl rfl (by decide) (by decide) (asm_cons (bits_le x0) (asm_cons (bits_le x1) (asm_cons (bits_le x2) asm_nil))) (by decide)
theorem Opcode.acwr (x0 : BitVec 3) (x1 : BitVec 2) (x2 : BitVec 4) : Opcode.Statement (.acwr x0 x1 x2) :=
  opcode_of rfl rfl (by decide) (by decide) (asm_cons (bits_le x0) (asm_cons (bits_le x1) (asm_cons (bits_le x2) asm_nil))) (by decide)
theorem Opcode.acsave (x0 : BitVec 3) (x1 : Ext) (x2 : BitVec 2) (x3 : Base) (x4 : BitVec 7) : Opcode.Statement (.acsave x0 x1 x2 x3 x4) :=
  opcode_of rfl rfl (by decide) (by decide) (asm_cons (bits_le x0) (asm_cons (bit_le x1) (asm_cons (bits_le x2) (asm_cons (kind_le x3) (asm_cons (num_le x3) (asm_cons (bits_le x4) asm_nil)))))) (by decide)
theorem Opcode.acrest (x0 : BitVec 3) (x1 : Ext) (x2 : BitVec 2) (x3 : Base) (x4 : BitVec 7) : Opcode.Statement (.acrest x0 x1 x2 x3 x4) :=
  opcode_of rfl rfl (by decide) (by decide) (asm_cons (bits_le x0) (asm_cons (bit_le x1) (asm_cons (bits_le x2) (asm_cons (kind_le x3) (asm_cons (num_le x3) (asm_cons (bits_le x4) asm_nil)))))) (by decide)
theorem Opcode.mstat (x0 : BitVec 3) (x1 : BitVec 5) : Opcode.Statement (.mstat x0 x1) :=
  opcode_of rfl rfl (by decide) (by decide) (asm_cons (bits_le x0) (asm_cons (bits_le x1) asm_nil)) (by decide)
theorem Opcode.stage (x0 : BitVec 3) : Opcode.Statement (.stage x0) :=
  opcode_of rfl rfl (by decide) (by decide) (asm_cons (bits_le x0) asm_nil) (by decide)
theorem Opcode.cpy (x0 : BitVec 3) (x1 : Ext) (x2 : Base) (x3 : BitVec 11) : Opcode.Statement (.cpy x0 x1 x2 x3) :=
  opcode_of rfl rfl (by decide) (by decide) (asm_cons (bits_le x0) (asm_cons (bit_le x1) (asm_cons (kind_le x2) (asm_cons (num_le x2) (asm_cons (bits_le x3) asm_nil))))) (by decide)
theorem Opcode.discard (x0 : BitVec 3) (x1 : BitVec 4) (x2 : BitVec 5) (x3 : BitVec 5) : Opcode.Statement (.discard x0 x1 x2 x3) :=
  opcode_of rfl rfl (by decide) (by decide) (asm_cons (bits_le x0) (asm_cons (bits_le x1) (asm_cons (bits_le x2) (asm_cons (bits_le x3) asm_nil)))) (by decide)
theorem Opcode.pgreq (x0 : BitVec 3) (x1 : BitVec 5) (x2 : BitVec 4) (x3 : BitVec 5) : Opcode.Statement (.pgreq x0 x1 x2 x3) :=
  opcode_of rfl rfl (by decide) (by decide) (asm_cons (bits_le x0) (asm_cons (bits_le x1) (asm_cons (bits_le x2) (asm_cons (bits_le x3) asm_nil)))) (by decide)
theorem Opcode.sqld (x0 : BitVec 3) (x1 : Ext) (x2 : Base) (x3 : BitVec 11) : Opcode.Statement (.sqld x0 x1 x2 x3) :=
  opcode_of rfl rfl (by decide) (by decide) (asm_cons (bits_le x0) (asm_cons (bit_le x1) (asm_cons (kind_le x2) (asm_cons (num_le x2) (asm_cons (bits_le x3) asm_nil))))) (by decide)
theorem Opcode.sqpsh (x0 : BitVec 3) (x1 : BitVec 5) : Opcode.Statement (.sqpsh x0 x1) :=
  opcode_of rfl rfl (by decide) (by decide) (asm_cons (bits_le x0) (asm_cons (bits_le x1) asm_nil)) (by decide)
theorem Opcode.sqclr (x0 : BitVec 3) : Opcode.Statement (.sqclr x0) :=
  opcode_of rfl rfl (by decide) (by decide) (asm_cons (bits_le x0) asm_nil) (by decide)
theorem Opcode.send (x0 : BitVec 3) (x1 : BitVec 5) (x2 : BitVec 5) (x3 : BitVec 5) (x4 : BitVec 3) : Opcode.Statement (.send x0 x1 x2 x3 x4) :=
  opcode_of rfl rfl (by decide) (by decide) (asm_cons (bits_le x0) (asm_cons (bits_le x1) (asm_cons (bits_le x2) (asm_cons (bits_le x3) (asm_cons (bits_le x4) asm_nil))))) (by decide)
theorem Opcode.recv (x0 : BitVec 3) (x1 : BitVec 5) (x2 : BitVec 5) (x3 : BitVec 5) (x4 : BitVec 3) : Opcode.Statement (.recv x0 x1 x2 x3 x4) :=
  opcode_of rfl rfl (by decide) (by decide) (asm_cons (bits_le x0) (asm_cons (bits_le x1) (asm_cons (bits_le x2) (asm_cons (bits_le x3) (asm_cons (bits_le x4) asm_nil))))) (by decide)
theorem Opcode.nred (x0 : BitVec 3) (x1 : BitVec 2) (x2 : BitVec 5) (x3 : BitVec 7) : Opcode.Statement (.nred x0 x1 x2 x3) :=
  opcode_of rfl rfl (by decide) (by decide) (asm_cons (bits_le x0) (asm_cons (bits_le x1) (asm_cons (bits_le x2) (asm_cons (bits_le x3) asm_nil)))) (by decide)
theorem Opcode.nbc (x0 : BitVec 3) (x1 : BitVec 5) (x2 : BitVec 5) (x3 : BitVec 5) (x4 : BitVec 7) : Opcode.Statement (.nbc x0 x1 x2 x3 x4) :=
  opcode_of rfl rfl (by decide) (by decide) (asm_cons (bits_le x0) (asm_cons (bits_le x1) (asm_cons (bits_le x2) (asm_cons (bits_le x3) (asm_cons (bits_le x4) asm_nil))))) (by decide)
theorem Opcode.rqseed (x0 : BitVec 3) (x1 : BitVec 5) : Opcode.Statement (.rqseed x0 x1) :=
  opcode_of rfl rfl (by decide) (by decide) (asm_cons (bits_le x0) (asm_cons (bits_le x1) asm_nil)) (by decide)
theorem Opcode.rqpos (x0 : BitVec 3) (x1 : BitVec 5) : Opcode.Statement (.rqpos x0 x1) :=
  opcode_of rfl rfl (by decide) (by decide) (asm_cons (bits_le x0) (asm_cons (bits_le x1) asm_nil)) (by decide)
theorem Opcode.controlRegisterWrite (x0 : Bool) (x1 : Nat) (x2 : BitVec 64) : Opcode.Statement (.controlRegisterWrite x0 x1 x2) := opcode_none rfl
theorem Opcode.ethcntClear (x0 : Nat) : Opcode.Statement (.ethcntClear x0) := opcode_none rfl
theorem Opcode.hostMemoryWrite (x0 : Nat) (x1 : List (BitVec 8)) : Opcode.Statement (.hostMemoryWrite x0 x1) := opcode_none rfl
theorem Opcode.hostMemoryRead (x0 : Nat) (x1 : Nat) : Opcode.Statement (.hostMemoryRead x0 x1) := opcode_none rfl
theorem Opcode.commit (x0 : Nat) : Opcode.Statement (.commit x0) := opcode_none rfl
theorem Opcode.slotTableSwitch (x0 : Nat) : Opcode.Statement (.slotTableSwitch x0) := opcode_none rfl
theorem Opcode.maintenanceSlot (x0 : Nat) (x1 : Nat) : Opcode.Statement (.maintenanceSlot x0 x1) := opcode_none rfl
theorem Opcode.perBankRefreshDue (x0 : Nat) (x1 : Nat) : Opcode.Statement (.perBankRefreshDue x0 x1) := opcode_none rfl
theorem Opcode.refreshManagementDue (x0 : Nat) (x1 : Nat) (x2 : Nat) : Opcode.Statement (.refreshManagementDue x0 x1 x2) := opcode_none rfl
theorem Opcode.test (x0 : Nat) : Opcode.Statement (.test x0) := opcode_none rfl
theorem Opcode.faqpop (x0 : Nat) : Opcode.Statement (.faqpop x0) := opcode_none rfl
theorem Opcode.faultAddressEntry (x0 : Nat) (x1 : BitVec 128) : Opcode.Statement (.faultAddressEntry x0 x1) := opcode_none rfl
theorem Opcode.hbmAccessPerform (x0 : Nat) : Opcode.Statement (.hbmAccessPerform x0) := opcode_none rfl
theorem Opcode.hbmReadDeliver (x0 : Nat) : Opcode.Statement (.hbmReadDeliver x0) := opcode_none rfl
theorem Opcode.cxldown (x0 : Nat) : Opcode.Statement (.cxldown x0) := opcode_none rfl
theorem Opcode.retrain (x0 : Nat) (x1 : Bool) : Opcode.Statement (.retrain x0 x1) := opcode_none rfl
theorem Opcode.evictionComplete (x0 : Bool) : Opcode.Statement (.evictionComplete x0) := opcode_none rfl
theorem Opcode.spanWalkComplete (x0 : Nat) (x1 : Nat) (x2 : Nat) : Opcode.Statement (.spanWalkComplete x0 x1 x2) := opcode_none rfl
theorem Opcode.sdctlGo (x0 : Nat) : Opcode.Statement (.sdctlGo x0) := opcode_none rfl
theorem Opcode.shootdownRevoke (x0 : Nat) : Opcode.Statement (.shootdownRevoke x0) := opcode_none rfl
theorem Opcode.prefetchReadPresent (x0 : Nat) : Opcode.Statement (.prefetchReadPresent x0) := opcode_none rfl
theorem Opcode.copyEntryStart (x0 : Nat) : Opcode.Statement (.copyEntryStart x0) := opcode_none rfl
theorem Opcode.copyLineTransfer (x0 : Nat) (x1 : Nat) : Opcode.Statement (.copyLineTransfer x0 x1) := opcode_none rfl
theorem Opcode.writebackPresent (x0 : Nat) (x1 : Nat) : Opcode.Statement (.writebackPresent x0 x1) := opcode_none rfl
theorem Opcode.writebackRetry (x0 : Nat) : Opcode.Statement (.writebackRetry x0) := opcode_none rfl
theorem Opcode.lateWarning (x0 : Nat) : Opcode.Statement (.lateWarning x0) := opcode_none rfl
theorem Opcode.untimedRequestServe (x0 : Nat) : Opcode.Statement (.untimedRequestServe x0) := opcode_none rfl
theorem Opcode.pgreqComplete (x0 : Nat) (x1 : Bool) : Opcode.Statement (.pgreqComplete x0 x1) := opcode_none rfl
theorem Opcode.queueOperation (x0 : Nat) : Opcode.Statement (.queueOperation x0) := opcode_none rfl
theorem Opcode.contextWake (x0 : Nat) (x1 : Nat) : Opcode.Statement (.contextWake x0 x1) := opcode_none rfl
theorem Opcode.contextSwitch (x0 : Nat) (x1 : Nat) : Opcode.Statement (.contextSwitch x0 x1) := opcode_none rfl
theorem Opcode.randomQueueRefill (x0 : Nat) : Opcode.Statement (.randomQueueRefill x0) := opcode_none rfl
theorem Opcode.rcinvGo (x0 : Nat) : Opcode.Statement (.rcinvGo x0) := opcode_none rfl
theorem Opcode.rcInvalidateEffect (x0 : Nat) : Opcode.Statement (.rcInvalidateEffect x0) := opcode_none rfl
theorem Opcode.barrierRelease (x0 : Nat) : Opcode.Statement (.barrierRelease x0) := opcode_none rfl
theorem Opcode.fenceDrainDone (x0 : Nat) (x1 : Nat) : Opcode.Statement (.fenceDrainDone x0 x1) := opcode_none rfl
theorem Opcode.launchRecordTake (x0 : Nat) : Opcode.Statement (.launchRecordTake x0) := opcode_none rfl
theorem Opcode.ethLaunchFrame (x0 : Nat) (x1 : List (BitVec 8)) : Opcode.Statement (.ethLaunchFrame x0 x1) := opcode_none rfl
theorem Opcode.evtpop (x0 : Nat) : Opcode.Statement (.evtpop x0) := opcode_none rfl
theorem Opcode.cancel (x0 : Nat) : Opcode.Statement (.cancel x0) := opcode_none rfl
theorem Opcode.flush (x0 : Nat) : Opcode.Statement (.flush x0) := opcode_none rfl
theorem Opcode.runStart (x0 : Nat) : Opcode.Statement (.runStart x0) := opcode_none rfl
theorem Opcode.stepBegin (x0 : Nat) : Opcode.Statement (.stepBegin x0) := opcode_none rfl
theorem Opcode.nodeComplete (x0 : Nat) (x1 : Nat) : Opcode.Statement (.nodeComplete x0 x1) := opcode_none rfl
theorem Opcode.reuseGateDecision (x0 : Nat) (x1 : Nat) : Opcode.Statement (.reuseGateDecision x0 x1) := opcode_none rfl
theorem Opcode.signalNode (x0 : Nat) (x1 : Nat) : Opcode.Statement (.signalNode x0 x1) := opcode_none rfl
theorem Opcode.runRetire (x0 : Nat) : Opcode.Statement (.runRetire x0) := opcode_none rfl
theorem Opcode.overlayLoad (x0 : Nat) : Opcode.Statement (.overlayLoad x0) := opcode_none rfl
theorem Opcode.panelStart (x0 : Nat) : Opcode.Statement (.panelStart x0) := opcode_none rfl
theorem Opcode.coreFree (x0 : Nat) : Opcode.Statement (.coreFree x0) := opcode_none rfl
theorem Opcode.preemptSave (x0 : Nat) : Opcode.Statement (.preemptSave x0) := opcode_none rfl
theorem Opcode.saveComplete (x0 : Nat) (x1 : Nat) : Opcode.Statement (.saveComplete x0 x1) := opcode_none rfl
theorem Opcode.panelResume (x0 : Nat) : Opcode.Statement (.panelResume x0) := opcode_none rfl
theorem Opcode.startMarker (x0 : Nat) (x1 : BitVec 64) : Opcode.Statement (.startMarker x0 x1) := opcode_none rfl
theorem Opcode.syncMarker (x0 : Nat) (x1 : BitVec 32) : Opcode.Statement (.syncMarker x0 x1) := opcode_none rfl
theorem Opcode.syncloss (x0 : Bool) : Opcode.Statement (.syncloss x0) := opcode_none rfl
theorem Opcode.linkTraining (x0 : Nat) (x1 : Nat) (x2 : Nat) : Opcode.Statement (.linkTraining x0 x1 x2) := opcode_none rfl
theorem Opcode.gramerLinkDown (x0 : Nat) : Opcode.Statement (.gramerLinkDown x0) := opcode_none rfl
theorem Opcode.freezeBegin (x0 : Nat) : Opcode.Statement (.freezeBegin x0) := opcode_none rfl
theorem Opcode.freezeEnd (x0 : Nat) : Opcode.Statement (.freezeEnd x0) := opcode_none rfl
theorem Opcode.powerIntervalEnd (x0 : BitVec 32) : Opcode.Statement (.powerIntervalEnd x0) := opcode_none rfl
theorem Opcode.temperatureSample (x0 : BitVec 8) : Opcode.Statement (.temperatureSample x0) := opcode_none rfl
theorem Opcode.hardwareFaultDetect (x0 : Nat) (x1 : Nat) (x2 : Option Nat) (x3 : BitVec 32) : Opcode.Statement (.hardwareFaultDetect x0 x1 x2 x3) := opcode_none rfl
theorem Opcode.faultReportEntry (x0 : BitVec 128) : Opcode.Statement (.faultReportEntry x0) := opcode_none rfl
theorem Opcode.illegalBundle (x0 : Nat) (x1 : BitVec 13) (x2 : BitVec 32) : Opcode.Statement (.illegalBundle x0 x1 x2) := opcode_none rfl
theorem Opcode.park (x0 : Nat) (x1 : Bool) : Opcode.Statement (.park x0 x1) := opcode_none rfl
theorem Opcode.fundamentalReset : Opcode.Statement (.fundamentalReset) := opcode_none rfl
theorem Opcode.bootctlGo : Opcode.Statement (.bootctlGo) := opcode_none rfl
theorem Opcode.bootVerifyDone : Opcode.Statement (.bootVerifyDone) := opcode_none rfl
theorem Opcode.bootctlRestart : Opcode.Statement (.bootctlRestart) := opcode_none rfl
theorem Opcode.ready : Opcode.Statement (.ready) := opcode_none rfl
theorem Opcode.attctlGo : Opcode.Statement (.attctlGo) := opcode_none rfl
theorem Opcode.attestReportComplete : Opcode.Statement (.attestReportComplete) := opcode_none rfl
theorem Opcode.evctlGo : Opcode.Statement (.evctlGo) := opcode_none rfl
theorem Opcode.panelPlace : Opcode.Statement (.panelPlace) := opcode_none rfl
theorem Opcode.syncctlStart : Opcode.Statement (.syncctlStart) := opcode_none rfl
theorem Opcode.frqpop : Opcode.Statement (.frqpop) := opcode_none rfl
theorem Opcode.partctlGo : Opcode.Statement (.partctlGo) := opcode_none rfl
theorem Opcode.partitionChange : Opcode.Statement (.partitionChange) := opcode_none rfl

end Sys2Proof.Laws
end

