-- ==== Sys2Proof/Tests/Slice0.lean ====
section
/-!
SUPPORT. Tests of the model: ill-formed terms, words written out from the encoding tables, one step of a family, and for every statement
with hypotheses a state that meets them, clause by clause.
-/
namespace Sys2Proof.Tests

open Sys2Proof Sys2Proof.Machine

/-! ## Well-formed terms and decoding -/

/-- The word decodes to the instruction (L = 0, so LEND is not read). -/
def decodes (c : Cls) (x : BitVec 32 × Instr) : Bool :=
  match decodeSlot c x.1 0 with
  | .ok i => decide (i = x.2)
  | .error _ => false

/-- Decode refuses the word with that cause. -/
def refuses (c : Cls) (w : BitVec 32) (lend : BitVec 8) (k : IllCause) : Bool :=
  match decodeSlot c w lend with
  | .ok _ => false
  | .error x => decide (x = k)

/-- One ill-formed term for each check of `Instr.wf`: LEND bits, a type without the operation, a condition without the type, a pair
without a conversion, an odd register, a form without classical order, a half of a format with one. -/
theorem test_ill_formed :
    ([.vlds 0 (some 8) 1 2 3 0, .vdiv 0 none 1 2 3 .i32 0, .vshl 0 none 1 2 3 .f32 0, .vcmp 0 none 1 .lt 2 3 .i16x2 0,
      .vcmp 0 none 1 .un 2 3 .i32 0, .vcvt 0 none 1 2 .i16x2 .f32 0, .vqnt 0 none 1 3 .f8e4 .f32, .vdqnt 0 none 1 2 .f8e4 .f32,
      .vpack 0 none 1 2 3 .f32 0, .vunpk 0 none 1 2 true .i32 0, .vdelta 0 none 1 2 3 .i32 0, .vqnt 0 none 1 2 .i8 .i32,
      .mmaCl 0 0 0 0 .sp, .acrd 0 1 0 .bf16 .rne .sat true] : List Instr).all (fun i => !i.wf) = true := by decide

/-- Reserved encodings: an opcode, a field bit, a type code, a form code, an extension of a word that takes none. -/
theorem test_reserved :
    refuses .s 0x78000000 0 .opcode = true ∧ refuses .s 0x00000001 0 .field = true ∧ refuses .v 0x20000070 0 .field = true ∧
    refuses .x 0x20000E00 0 .field = true ∧ refuses .s 0x00400000 0 .lend = true ∧ refuses .s 0x60400000 1 .lend = true ∧
    refuses .v 0x20400000 0x08 .field = true ∧ refuses .m 0x00010000 0 .opcode = false := by decide

/-- LEND widens the immediate of an extended word (R128). -/
theorem test_decode_extended :
    (match decodeSlot .s 0x80420FFF#32 0x80 with | .ok i => decide (i = .addi 0 (some 0x80) 1 0 0xFFF) | _ => false) = true := by decide

/-! Every row of the opcode table that is a slot word: opcode and fixed bits from Tables 8.6 to 8.10, operands in the fields of Table 8.4,
codes from Table 8.5. -/

theorem test_decode_s1 : (
   [(0x03170A80#32, .add 6 11 16 21), (0x049D3C00#32, .sub 1 14 19 24), (0x0A236D80#32, .and 4 17 22 27),
    (0x0FA99F00#32, .or 7 20 25 30), (0x112FC080#32, .xor 2 23 28 1), (0x16B5F200#32, .shl 5 26 31 4),
    (0x18BA2380#32, .shr 1 29 2 7), (0x1D825500#32, .sar 3 1 5 10), (0x23068680#32, .mul 6 3 8 13),
    (0x248CB800#32, .mulh 1 6 11 16), (0x2A12E980#32, .mulhn 4 9 14 19), (0x2F991B00#32, .div 7 12 17 22),
    (0x311F4C80#32, .divn 2 15 20 25), (0x36A57E00#32, .rem 5 18 23 28), (0x38ABAF80#32, .remn 1 21 26 31),
    (0x3DB1D100#32, .min 3 24 29 2), (0x43361280#32, .max 6 27 1 5), (0x44BC3400#32, .minn 1 30 3 8),
    (0x4A026580#32, .maxn 4 1 6 11), (0x4F889000#32, .clz 7 4 9)] :
    List (BitVec 32 × Instr)).all (decodes .s) = true := by decide

theorem test_decode_s2 : (
   [(0x510EC000#32, .popc 2 7 12), (0x5694F000#32, .mov 5 10 15), (0x548B2001#32, .movToB 1 5 18),
    (0x55A05002#32, .movFromB 3 16 5), (0x5B078E80#32, .cmp 6 3 24 29 .eq), (0x5CADB085#32, .sel 1 22 27 1 5),
    (0x6233E8E8#32, .bfx 4 25 30 35 40), (0x67B819AB#32, .bfi 7 28 1 38 43), (0x690E4080#32, .pand 2 7 4 1),
    (0x6E847200#32, .por 5 2 7 4), (0x708A2380#32, .pxor 1 5 2 7), (0x75825000#32, .pnot 3 1 5),
    (0x831708B4#32, .addi 6 none 11 16 2228), (0x849D38B5#32, .andi 1 none 14 19 2229),
    (0x8A2368B6#32, .ori 4 none 17 22 2230), (0x8FA998B7#32, .xori 7 none 20 25 2231), (0x912FC001#32, .shli 2 23 28 1),
    (0x96B5F004#32, .shri 5 26 31 4), (0x98BA2007#32, .sari 1 29 2 7), (0x9D830096#32, .li 3 none 1 65686)] :
    List (BitVec 32 × Instr)).all (decodes .s) = true := by decide

theorem test_decode_s3 : (
   [(0xA3068097#32, .lih 6 3 32919), (0xA88C0298#32, .getsr 1 6 664), (0xAE009299#32, .setsr 4 9 665),
    (0xB380C011#32, .spill 7 12 17), (0xB51E0014#32, .fill 2 15 20), (0xC2B00077#32, .br 5 none true 1048695),
    (0xC48081E0#32, .jmp 1 8312), (0xC9818000#32, .jmpr 3 24), (0xCF37009F#32, .call 6 none 27 65695),
    (0xD081E000#32, .ret 1 30), (0xD6001006#32, .lpset 4 1 6), (0xDB90007D#32, .loop 7 none 1048701),
    (0xDC000000#32, .endStrand), (0xE0000000#32, .bar), (0xE400805B#32, .trap 32859), (0xE8000000#32, .eret),
    (0xEC1C0000#32, .fence 14 .strand), (0xF0236000#32, .drift 17 22)] :
    List (BitVec 32 × Instr)).all (decodes .s) = true := by decide

theorem test_decode_m1 : (
   [(0x03B9262A#32, .lds 7 none 28 (.b 4) .d 42), (0x013E3920#32, .ldsIndexed 2 31 (.s 7) .b 4),
    (0x0685322C#32, .sts 5 none 2 (.b 6) .h 44), (0x048A4D50#32, .stsIndexed 1 5 (.s 9) .w 10),
    (0x09906E53#32, .ldl 3 none 8 13 .d 83), (0x0B1609A8#32, .ldlIndexed 6 11 1 .b 21),
    (0x0C9C1A55#32, .stl 1 none 14 3 .h 85), (0x0E2235D8#32, .stlIndexed 4 17 6 .w 27), (0x13899F00#32, .xlat 7 4 25 30),
    (0x152EC001#32, .hchk 2 23 12 1), (0x1A81AF80#32, .hinv 5 26 31), (0x20BA4760#32, .aadd 1 29 2 7 12 .w),
    (0x2582AA7C#32, .amin 3 1 5 10 15 .d), (0x2B070D90#32, .amax 6 3 8 13 18 .w), (0x2C8D70AC#32, .aminn 1 6 11 16 21 .d),
    (0x3213D3C0#32, .amaxn 4 9 14 19 24 .w), (0x379836DC#32, .aand 7 12 1 22 27 .d), (0x391E99F0#32, .aor 2 15 4 25 30 .w),
    (0x3EA4FC0C#32, .axor 5 18 7 28 1 .d), (0x40AB5F20#32, .aswp 1 21 10 31 4 .w)] :
    List (BitVec 32 × Instr)).all (decodes .m) = true := by decide

theorem test_decode_m2 : (
   [(0x45B1A23C#32, .acas 3 24 13 2 7 .d), (0x5301B080#32, .qinit 6 27 1), (0x54BC3400#32, .qenq 1 30 3 8),
    (0x5A026000#32, .qdeq 4 1 6), (0x5F889006#32, .qtry 7 4 9 6), (0x610EC000#32, .qlen 2 7 12),
    (0x6A94FA39#32, .rld 5 none 10 15 20 .h 25), (0x6C9B2BDC#32, .rst 1 none 13 18 23 .w 28)] :
    List (BitVec 32 × Instr)).all (decodes .m) = true := by decide

theorem test_decode_v1 : (
   [(0x01A12232#32, .vld 3 none 16 (.b 4) 70 2), (0x07267A3D#32, .vst 6 none 19 (.s 15) 71 5),
    (0x08ADB08A#32, .vlds 1 none 22 27 1 5), (0x0E33E182#32, .vldx 4 none 25 30 3 1), (0x13B81306#32, .vstx 7 none 28 1 6 3),
    (0x153E2386#32, .vldl 2 none 31 4 112 6), (0x1A843B89#32, .vstl 5 none 2 7 113 1),
    (0x208AA7B8#32, .vadd 1 none 5 10 15 .i32 4), (0x2590D94E#32, .vsub 3 none 8 13 18 .n32 7),
    (0x2B170AD4#32, .vmul 6 none 11 16 21 .i16x2 2), (0x2C9D3C6A#32, .vfma 1 none 14 19 24 .i8x4 5),
    (0x32236D82#32, .vfms 4 none 17 22 27 .f32 1), (0x37A99F16#32, .vmin 7 none 20 25 30 .bf16x2 3),
    (0x392FC0AC#32, .vmax 2 none 23 28 1 .f16x2 6), (0x3EB5F038#32, .vabs 5 none 26 31 .i32 4),
    (0x40BA204E#32, .vneg 1 none 29 2 .n32 7), (0x4582551E#32, .vdiv 3 none 1 5 10 .bf16x2 7),
    (0x4B06802A#32, .vsqrt 6 none 3 8 .f16x2 5), (0x488CB003#32, .vsqrtPv 1 none 6 11 .f32 1),
    (0x4E12E016#32, .vrcp 4 none 9 14 .bf16x2 3)] :
    List (BitVec 32 × Instr)).all (decodes .v) = true := by decide

theorem test_decode_v2 : (
   [(0x5399102C#32, .vrsq 7 none 12 17 .f16x2 6), (0x551F4002#32, .vexp2 2 none 15 20 .f32 1),
    (0x5AA57018#32, .vlog2 5 none 18 23 .bf16x2 4), (0x5CABA02E#32, .vsinpi 1 none 21 26 .f16x2 7),
    (0x61B1D004#32, .vcospi 3 none 24 29 .f32 2), (0x671C12C5#32, .vcmp 6 none 3 .ge 1 5 .n32 2),
    (0x68BC340A#32, .vsel 1 none 30 3 8 5), (0x6E026582#32, .vand 4 none 1 6 11 1), (0x73889706#32, .vor 7 none 4 9 14 3),
    (0x750EC88C#32, .vxor 2 none 7 12 17 6), (0x7A94F008#32, .vnot 5 none 10 15 4),
    (0x7C9B2BD8#32, .vshl 1 none 13 18 23 .i16x2 4), (0x81A15D6E#32, .vshr 3 none 16 21 26 .i8x4 7),
    (0x87278EB4#32, .vsar 6 none 19 24 29 .i32 2), (0x888C3080#32, .mand 1 none 6 3 1), (0x8E026180#32, .mor 4 none 1 6 3),
    (0x93881000#32, .mnot 7 none 4 1), (0x953E4000#32, .vpopm 2 none 31 4), (0x9A847038#32, .vcvt 5 none 2 7 .f32 .i32 4),
    (0x9C88A080#32, .vqnt 1 none 4 10 .f8e5 .f32)] :
    List (BitVec 32 × Instr)).all (decodes .v) = true := by decide

theorem test_decode_v3 : (
   [(0xA190C110#32, .vdqnt 3 none 8 12 .i8 .bf16x2), (0xA7170A94#32, .vpack 6 none 11 16 21 .bf16x2 2),
    (0xA89D30A2#32, .vunpk 1 none 14 19 true .f16x2 1), (0xAE236D82#32, .vperm 4 none 17 22 27 1),
    (0xB3A9900C#32, .vbcast 7 none 20 25 6), (0xB52FC080#32, .vext 2 none 23 28 1), (0xBAB5F200#32, .vins 5 none 26 31 4),
    (0xC0BA201E#32, .vrsum 1 none 29 2 .bf16x2 7), (0xC5825024#32, .vrmax 3 none 1 5 .f16x2 2),
    (0xCB06803A#32, .vrmin 6 none 3 8 .i32 5), (0xCC8CB84A#32, .vdot 1 none 6 11 16 .n32 5),
    (0xD212E982#32, .vdelta 4 none 9 14 19 .f32 1), (0xDB980002#32, .vrnd 7 none 12 1), (0xDD1E0008#32, .vgauss 2 none 15 4),
    (0xE2A57202#32, .xcp 5 none 18 23 4 1), (0xE4ABA388#32, .xbc 1 none 21 26 7 4)] :
    List (BitVec 32 × Instr)).all (decodes .v) = true := by decide

theorem test_decode_x1 : (
   [(0x01A24EE3#32, .tld 3 none 8 (.b 4) 29 99), (0x072CB0E4#32, .tst 6 none 11 (.s 11) 1 100),
    (0x08B8D125#32, .tldl 1 none 14 3 4389), (0x0A05AB00#32, .tldlIndexed 4 1 6 11), (0x0F925127#32, .tstl 7 none 4 9 4391),
    (0x0D1F3100#32, .tstlIndexed 2 7 12 17), (0x12A80000#32, .tzero 5 10), (0x14B48000#32, .ttr 1 13 2),
    (0x19854000#32, .tcp 3 1 5), (0x1F320000#32, .latch 6 3 8), (0x20A2DC00#32, .mma 1 2 11 1 .sp),
    (0x2213B900#32, .mmaCl 4 1 14 3 .i8), (0x2790090A#32, .acz 7 none 1 2314),
    (0x293D4200#32, .acrd 2 15 1 .f32 .rne .sat true), (0x2EA30000#32, .acadd 5 2 3), (0x30928000#32, .acwr 1 1 10),
    (0x3592604E#32, .acsave 3 none 1 (.b 6) 78), (0x3B30704F#32, .acrest 6 none 3 (.s 7) 79), (0x3C9C0000#32, .mstat 1 14)] :
    List (BitVec 32 × Instr)).all (decodes .x) = true := by decide

theorem test_decode_e1 : (
   [(0x02000000#32, .stage 4), (0x07811CED#32, .cpy 7 none (.b 3) 1261), (0x090FC080#32, .discard 2 7 28 1),
    (0x0EB4F200#32, .pgreq 5 26 15 4), (0x10806CF0#32, .sqld 1 none (.s 13) 1264), (0x15820000#32, .sqpsh 3 1),
    (0x1B000000#32, .sqclr 6), (0x208CB805#32, .send 1 6 11 16 5), (0x2612E981#32, .recv 4 9 14 19 1),
    (0x2B83107F#32, .nred 7 1 17 127), (0x2D1F4CA5#32, .nbc 2 15 20 25 37), (0x32A40000#32, .rqseed 5 18),
    (0x34AA0000#32, .rqpos 1 21)] :
    List (BitVec 32 × Instr)).all (decodes .e) = true := by decide

/-! ## The manual's own examples -/

/-- Words that the manual gives as encoding examples (08 to 12, 17). -/
theorem test_words_of_the_manual :
    ([(0x58041106#32, .cmp 0 2 1 2 .ltn), (0x2C061100#32, .div 0 3 1 2), (0xA8080001#32, .getsr 0 4 1), (0xE4000042#32, .trap 0x42),
      (0xAC0050A0#32, .setsr 0 5 0xA0), (0x9C0A0040#32, .li 0 none 5 64), (0xF0085000#32, .drift 4 5),
      (0xC1A0000A#32, .br 3 none true 10)] : List (BitVec 32 × Instr)).all
      (decodes .s) = true ∧
    ([(0x000C2410#32, .lds 0 none 6 (.s 4) .w 16), (0x08101610#32, .ldl 0 none 8 2 .d 16), (0x1004A580#32, .xlat 0 2 10 11),
      (0x200A6638#32, .aadd 0 5 3 6 7 .w)] : List (BitVec 32 × Instr)).all (decodes .m) = true ∧
    ([(0x48063001#32, .vsqrtPv 0 none 3 3 .f32 0), (0x64124280#32, .vcmp 0 none 2 .lt 4 5 .f32 0), (0xCC041080#32, .vdot 0 none 2 1 1 .f32 0),
      (0xAC062000#32, .vperm 0 none 3 2 0 0), (0x500A3000#32, .vrsq 0 none 5 3 .f32 0), (0x280C1280#32, .vmul 0 none 6 1 5 .f32 0)] :
      List (BitVec 32 × Instr)).all (decodes .v) = true ∧
    ([(0x04006000#32, .cpy 0 none (.s 12) 0), (0x24085301#32, .recv 0 4 5 6 1), (0x20085301#32, .send 0 4 5 6 1)] :
      List (BitVec 32 × Instr)).all (decodes .e) = true ∧
    ([(0x00045000#32, .tld 0 none 1 (.s 5) 0 0), (0x1C004000#32, .latch 0 0 1), (0x24100008#32, .acz 0 none 1 8), (0x2C010000#32, .acadd 0 0 1),
      (0x30218000#32, .acwr 0 2 6)] : List (BitVec 32 × Instr)).all (decodes .x) = true := by decide

/-- 02: the element 0xF6 under the descriptor 0x8202 is -30, and 0x4C under 0x7C00 is 6. -/
theorem test_block_elements_of_the_manual :
    Machine.Num.eqv (blockValue 0xF6 0x8202) (.fin (-30) 0) = true ∧ Machine.Num.eqv (blockValue 0x4C 0x7C00) (.fin 6 0) = true := by decide +kernel

/-- Table 2.11: 6.0, -2.5, 3·2^-102, 2^-101 and 12.0 offered to an element with anchor 4. -/
theorem test_accumulator_of_the_manual :
    ([Machine.Num.fin 6 0, .fin (-5) (-1), .fin 3 (-102), .fin 1 (-101), .fin 12 0].foldl (fun x t => xaAdd x t 4) Xa.zero) =
      ⟨0x00000038000000000000000000000001, .finite, false, true, 5⟩ := by decide +kernel

/-- 03: address 0x1234_5678 of a package of one partition: stack 7, pseudo-channel 12, bank 2, row 12, column 1, line 1. -/
theorem test_place_of_the_manual : State.reset.placeOf 0x12345678 = (⟨7, 12, 2⟩, 12, 1, 1) := by decide +kernel

/-- A page-table entry: V, W, RES and BK of a frame. -/
def pte (frame : Nat) (res bk : Bool) : BitVec 128 :=
  BitVec.ofNat 128 (3 + 8 * res.toNat + 16 * bk.toNat + 2 ^ 16 * frame + (if bk then 2 ^ 80 * 0x10000000 else 0))

/-- The leaf block of 04's example. -/
def leafOfManual : List (BitVec 128) :=
  List.replicate 8 0 ++ [pte 0x123400 true false, pte 0x123401 true false, pte 0x123402 true false, pte 0x123403 true false,
    pte 0x123404 false true, pte 0x123405 false true, 0, pte 0x129000 true false] ++ List.replicate 48 0

/-- 04: tenant 3, va 0x40_0A08_0000, eight pages, of which the last breaks contiguity. -/
theorem test_span_of_the_manual :
    (let h := xlatSpan { State.reset with live := [(offTroot 0 3, some 1)] } 3 (fun g => if g = 0x10028 then some leafOfManual else none)
        0x400A080000 8
     h.v = true ∧ h.hst = 1 ∧ h.npgm1 = 6 ∧ h.pbase = 0x123400 ∧ h.valid = 0x3F ∧ h.res = 0x0F ∧ h.w = true ∧ h.sp = false ∧
       h.vbase = 0x400A08 ∧ h.ten = 3) := by decide +kernel

/-- 11: VDOT of 7.0 and fifteen ones by itself is 64.0, its inverse square root 0.125, and 7.0 by that 0.875. -/
theorem test_unit_length_of_the_manual :
    vecSum ((Machine.Num.fin 49 0) :: List.replicate 15 (.fin 1 0)) .rne = (0x42800000, ⟨false, false, false⟩) ∧
    roundTo fp32 .rne .sat (Machine.Num.mul (fp32.decode 0x40E00000) (fp32.decode 0x3E000000)) = (0x3F600000, ⟨false, false, false⟩) := by decide +kernel
/-! ## States for the witnesses -/

/-- A holder with its bundle in hand: context 0 of core 0, in the panel of `onePanel`, cluster 0. -/
def holder : State :=
  let s := State.reset.withStrand false
  { s with cur := { Issue.none with clk := .panel 0, clusters := [0], pops := [0] } }

/-- Context 1 of core 0, which is neither the holder nor the firmware context. -/
def helper : State := { holder with cur := { holder.cur with ctx := 1 } }

/-- The firmware context. -/
def fw : State := { holder with cur := { holder.cur with ctx := 3, clk := .scyc } }

/-- The issuing context with scalar registers set. -/
def regs (s : State) (l : List (Nat × Word)) : State :=
  s.updCtx s.cur.core s.cur.ctx fun x => l.foldl (fun x r => x.wrS (BitVec.ofNat 5 r.1) r.2 false) x

/-- The issuing context with handle register 2 set. -/
def withH (s : State) (h : Handle) : State := s.updCtx s.cur.core s.cur.ctx fun x => x.wrH 2 h

/-- A handle of two pages of the latent store, readable and writable, both resident. -/
def span : Handle := { Handle.zero with v := true, w := true, sp := true, npgm1 := 1, valid := 3, res := 3 }

/-- The bundle in hand, at another cycle. -/
def at_ (s : State) (t : Nat) : State := { s with cur := { s.cur with t := t } }

/-! ## Scalar words -/

theorem wit_IntegerOperations : Ready (regs holder [(1, 64), (2, 63)]) 0 [1, 2] ∧ Ready (regs helper [(1, 5)]) 0 [1] := by decide

/-- A divisor of 0; -2^63 by -1; -7 by 2. -/
theorem wit_DivisionResults :
    (∃ s : State, Ready s 0 [1, 2] ∧ s.rdS 2 = 0) ∧ (∃ s : State, Ready s 0 [1, 2] ∧ (s.rdS 1).toInt = -(2 ^ 63) ∧ (s.rdS 2).toInt = -1) ∧
    (∃ s : State, Ready s 0 [1, 2] ∧ s.rdS 2 ≠ 0 ∧ ¬((s.rdS 1).toInt = -(2 ^ 63) ∧ (s.rdS 2).toInt = -1)) :=
  ⟨⟨regs holder [(1, 5)], by decide⟩, ⟨regs holder [(1, 0x8000000000000000), (2, 0xFFFFFFFFFFFFFFFF)], by decide⟩,
    ⟨regs holder [(1, 0xFFFFFFFFFFFFFFF9), (2, 2)], by decide⟩⟩

/-- A field that ends at bit 63, one that passes it, and words with an extension. -/
theorem wit_BitFields :
    Ready (regs holder [(1, 7)]) 0 [1, 2] ∧ (60#6).toNat + ((3#6).toNat + 1) ≤ 64 ∧ (60#6).toNat + ((4#6).toNat + 1) > 64 ∧
    (0x60400000#32).toNat / 2 ^ 26 = 0x18 ∧ (0x64400000#32).toNat / 2 ^ 26 = 0x19 ∧ (0x64400000#32).getLsbD 22 = true := by decide

theorem wit_MovesAndPredicates :
    Ready (regs helper [(1, 5), (2, 6)]) 0 [1, 2] ∧ HReady (regs holder [(1, 0xFFFFF)]) 0 [1] ∧ HReady holder 0 [] ∧ Ready helper 0 [] ∧
    Ready (regs helper [(4, 9)]) 0 [4] := by decide

/-- SCYC; a tile control of the holder; CTLADDR of the firmware; LPCTL and MSTAT written; a number without a register; SCYC written; an
element width that is reserved; rows of 1,056 bits; rotation 9; truncation 5; SPCFG with a live cell; CTLDATA written. -/
theorem wit_SpecialRegisters :
    (Ready helper 0 [] ∧ srKnown 0 = true ∧ holderSr 0 = false) ∧ (holderSr 0x5F = true ∧ holder.isHolder = true) ∧
    (srKnown 0xA1 = true ∧ fw.isFw = true) ∧
    (srWritable 8 = true ∧ holderSr 8 = false ∧ srRefuse (regs helper [(1, 3)]) 8 3 = none) ∧
    (srWritable 10 = true ∧ holderSr 10 = true ∧ srRefuse holder 10 1 = none) ∧
    (srKnown 0x47 = false ∧ srKnown 0x46 = true ∧ srWritable 0x46 = false ∧ helper.isFw = false) ∧
    (((5 : Word).extractLsb' 0 3).toNat > 4 ∧ (0x200000 : Word).extractLsb' 21 43 ≠ 0) ∧
    ((((0x8000 : Word).extractLsb' 10 10).toNat + 1) * 2 ^ (5 - ((0x8000 : Word).extractLsb' 0 3).toNat) > 1024) ∧
    ((0x900000000 : Word).extractLsb' 32 4).toNat > 8 ∧
    (∃ s : State, Ready s 0 [1] ∧ s.isHolder = true ∧ ((s.rdS 1).extractLsb' 0 3).toNat > 4) ∧
    (∃ s : State, Ready s 0 [1] ∧ s.isHolder = true ∧ s.me.anyCell = true) ∧
    (Ready (regs fw [(1, 5)]) 0 [1] ∧ srWritable 0xA1 = true ∧ holderSr 0xA1 = false ∧ srRefuse (regs fw [(1, 5)]) 0xA1 5 = none) :=
  ⟨by decide, by decide, by decide, by decide, by decide, by decide, by decide, by decide, by decide, ⟨regs holder [(1, 5)], by decide⟩,
    ⟨holder.updCtx 0 1 fun x => { x with spill := [(0, 0)] }, by decide⟩, by decide⟩

/-- SPILL with a group of cells reserved and without one; FILL of a live slot and of an empty one. -/
theorem wit_SpillAndFill :
    (∃ (s : State) (c : BitVec 16), Ready s 0 [1] ∧ s.slotCell 0 = some c) ∧ (∃ s : State, Ready s 0 [1] ∧ s.slotCell 0 = none) ∧
    (∃ s : State, Ready s 0 [] ∧ spGet 0xFFFF s.myCtx.spill 63 ≠ 0xFFFF) ∧ (Ready helper 0 [] ∧ spGet 0xFFFF helper.myCtx.spill 63 = 0xFFFF) :=
  ⟨⟨regs (holder.updCore 0 fun c => { c with spcfg := 1 }) [(1, 5)], 0, by decide +kernel⟩, ⟨regs holder [(1, 5)], by decide⟩,
    ⟨helper.updCtx 0 1 fun x => { x with spill := [(63, 0x8000)] }, by decide⟩, by decide⟩

/-- The largest address, an address above it, an odd one, and a predicate that reads 0. -/
theorem wit_Transfers :
    (∃ s : State, Ready s 0 [1] ∧ (s.rdS 1).extractLsb' 16 48 = 0 ∧ (s.rdS 1).extractLsb' 0 2 = 0) ∧
    (∃ s : State, Ready s 0 [1] ∧ (s.rdS 1).extractLsb' 16 48 ≠ 0) ∧ (∃ s : State, Ready s 0 [1] ∧ (s.rdS 1).extractLsb' 0 2 ≠ 0) ∧
    holder.rdQ 1 = false :=
  ⟨⟨regs holder [(1, 0xFFFC)], by decide⟩, ⟨regs holder [(1, 0x10000)], by decide⟩, ⟨regs holder [(1, 0xFFFD)], by decide⟩, by decide⟩

theorem wit_Loops :
    helper.isHolder = false ∧ Ready (regs holder [(1, 3)]) 0 [1] ∧ holder.isHolder = true ∧ (8#4).toNat ≤ 8 ∧ (9#4).toNat ≥ 9 ∧
    (∃ s : State, s.myCtx.nrot ≠ 0 ∧ s.isHolder = false) ∧ (∃ s : State, s.myCtx.nrot ≠ 0 ∧ s.isHolder = true ∧ Ready s 0 []) ∧
    helper.myCtx.nrot = 0 ∧ Ready helper 0 [] :=
  ⟨by decide, by decide, by decide, by decide, by decide, ⟨helper.updCtx 0 1 fun x => { x with nrot := 2 }, by decide⟩,
    ⟨holder.updCtx 0 0 fun x => { x with nrot := 8 }, by decide⟩, by decide, by decide⟩

theorem wit_StrandControl :
    holder.isHolder = true ∧ helper.isHolder = false ∧ fw.isFw = true ∧ (fw.gramer ≠ 0 ∧ Ready fw 0 [1]) ∧
    (helper.gramer ≠ 0 ∧ helper.isFw = false ∧ Ready helper 0 [1]) ∧ (∃ s : State, s.isFw = false ∧ s.gramer = 0 ∧ Ready s 0 [1]) :=
  ⟨by decide, by decide, by decide, by decide, by decide, ⟨{ helper with variant := .d8e }, by decide⟩⟩

/-! ## Memory, queue and engine words -/

/-- A store of the last byte of line 1 by context 1 of core 0, on its way. -/
def storing : Pend := ⟨.panel 0, 1, false, { Own.none 0 with ctx := 1 }, .spStore 127 [5]⟩

/-- No earlier store to a line and one; the last byte of the scratchpad, one past it, and a half word at an odd address; with an index register too. -/
theorem wit_ScratchpadAccess :
    (∃ s : State, BaseOk s (.s 1) ∧ Ready s 0 [1, 2] ∧ (s.baseVal (.s 1) + extended (255#8) none * 1).toNat = 0x4FFFE) ∧
    (∃ s : State, Ready s 0 [1, 2] ∧ (s.baseVal (.s 1) + extended (1#8) none * 1).toNat = 0x50000) ∧
    (∃ s : State, Ready s 0 [1, 2] ∧ (s.baseVal (.s 1) + s.rdS 2).toNat = 0x4FFFF) ∧
    (∃ s : State, Ready s 0 [1, 2] ∧ (s.baseVal (.s 1) + s.rdS 2).toNat % 2 ≠ 0) ∧ BaseOk holder (.b 7) ∧
    (∀ l, holder.spBusy 0 l = false) ∧ ∃ s : State, Ready s 0 [1, 2] ∧ (s.baseVal (.s 1) + s.rdS 2).toNat = 64 ∧ s.spBusy 0 1 = true :=
  ⟨⟨regs helper [(1, 0x4FFFF)], by decide⟩, ⟨regs helper [(1, 0x4FFFF)], by decide⟩,
    ⟨regs helper [(1, 0x4FFF0), (2, 15)], by decide⟩, ⟨regs helper [(1, 1)], by decide⟩, by decide, fun _ => rfl,
    ⟨{ regs helper [(1, 64)] with pend := [storing] }, by decide⟩⟩

/-- The last bytes of a span, at the phase of their line; for a read, then for a write; then off it, in the holder and elsewhere. -/
theorem wit_LatentStoreAccess :
    (∃ s : State, Ready s 0 [1, 2] ∧ (s.rdS 1).toNat % 8 = 0 ∧ HandleOk (s.rdH 2) (s.rdS 1).toNat 8 false true ∧
      LsOpen s (handlePlace (s.rdH 2) (s.rdS 1).toNat) false) ∧
    (∃ s : State, Ready s 0 [1, 2] ∧ HandleOk (s.rdH 2) (s.rdS 1).toNat 8 true true ∧
      LsOpen s (handlePlace (s.rdH 2) (s.rdS 1).toNat) true) ∧
    (∃ s : State, Ready s 0 [] ∧ HandleOk (s.rdH 2) (extended (127#8) none * 8).toNat 8 false true ∧
      LsOpen s (handlePlace (s.rdH 2) (extended (127#8) none * 8).toNat) false) ∧
    (∃ s : State, Ready s 0 [1] ∧ HandleOk (s.rdH 2) (extended (0#8) none * 8).toNat 8 true true ∧
      LsOpen s (handlePlace (s.rdH 2) (extended (0#8) none * 8).toNat) true) ∧
    (∃ s : State, Ready s 0 [1, 2] ∧ (s.rdS 1).toNat % 8 = 0 ∧ HandleOk (s.rdH 2) (s.rdS 1).toNat 8 true true ∧ s.isHolder = true ∧
      OffPhase s (handlePlace (s.rdH 2) (s.rdS 1).toNat) false ∧ OffPhase s (handlePlace (s.rdH 2) (s.rdS 1).toNat) true) ∧
    (∃ s : State, Ready s 0 [1, 2] ∧ HandleOk (s.rdH 2) 8 8 true true ∧ s.isHolder = false ∧
      OffPhase s (handlePlace (s.rdH 2) 8) false) ∧
    (∃ s : State, Ready s 0 [1, 2] ∧ HandleOk (s.rdH 2) 0x1FFF8 8 true true ∧ s.isHolder = false ∧
      OffPhase s (handlePlace (s.rdH 2) 0x1FFF8) true) :=
  ⟨⟨at_ (regs (withH holder span) [(1, 0x1FFF8)]) 127, by decide⟩, ⟨at_ (regs (withH holder span) [(1, 0x1FFF8)]) 63, by decide⟩,
    ⟨at_ (withH holder span) 15, by decide⟩, ⟨at_ (withH holder span) 64, by decide⟩,
    ⟨at_ (regs (withH holder span) [(1, 0x1FFF8)]) 1, by decide⟩, ⟨{ withH helper span with scyc := 1 }, by decide⟩,
    ⟨{ withH helper span with scyc := 1 }, by decide⟩⟩

/-- Each row of Table 4.4, then ALIGN. -/
theorem wit_HandleCheckOrder :
    (∃ s : State, Ready s 0 [1, 2] ∧ (s.rdH 2).v = false) ∧
    (∃ s : State, Ready s 0 [1, 2] ∧ (s.rdH 2).v = true ∧ (s.rdS 1).toNat + 4 > ((s.rdH 2).npgm1.toNat + 1) * 65536) ∧
    (∃ s : State, Ready s 0 [1, 2] ∧ (s.rdH 2).v = true ∧ (s.rdS 1).toNat + 4 ≤ ((s.rdH 2).npgm1.toNat + 1) * 65536 ∧
      (s.rdH 2).valid.getLsbD ((s.rdS 1).toNat / 65536) = false) ∧
    (∃ s : State, Ready s 0 [1, 2] ∧ (s.rdH 2).valid.getLsbD ((s.rdS 1).toNat / 65536) = true ∧ (s.rdH 2).w = false ∧ (s.rdH 2).sp = false) ∧
    (∃ s : State, Ready s 0 [1, 2] ∧ HandleOk (s.rdH 2) (s.rdS 1).toNat 4 true true ∧ (s.rdS 1).toNat % 4 ≠ 0) :=
  ⟨⟨holder, by decide⟩, ⟨regs (withH holder span) [(1, 0x1FFFD)], by decide⟩,
    ⟨regs (withH holder { span with valid := 1 }) [(1, 0x10000)], by decide⟩,
    ⟨withH holder { span with w := false, sp := false }, by decide⟩, ⟨regs (withH holder span) [(1, 2)], by decide⟩⟩

/-- An atomic at its phase, and off it in the holder and elsewhere. -/
theorem wit_AtomicIssue :
    (∃ s : State, Ready s 0 [1, 2, 3] ∧ (s.rdS 1).toNat % 4 = 0 ∧ HandleOk (s.rdH 2) (s.rdS 1).toNat 4 true true ∧
      AtomicOpen s (handlePlace (s.rdH 2) (s.rdS 1).toNat)) ∧
    (∃ s : State, Ready s 0 [1, 2, 3] ∧ (s.rdS 1).toNat % 4 = 0 ∧ HandleOk (s.rdH 2) (s.rdS 1).toNat 4 true true ∧ s.isHolder = true ∧
      OffPhase s (handlePlace (s.rdH 2) (s.rdS 1).toNat) true) ∧
    (∃ s : State, Ready s 0 [1, 2, 3] ∧ (s.rdS 1).toNat % 4 = 0 ∧ HandleOk (s.rdH 2) (s.rdS 1).toNat 4 true true ∧ s.isHolder = false ∧
      OffPhase s (handlePlace (s.rdH 2) (s.rdS 1).toNat) true) :=
  ⟨⟨at_ (regs (withH holder span) [(1, 0x1FFFC)]) 63, by decide⟩, ⟨at_ (regs (withH holder span) [(1, 0x1FFFC)]) 1, by decide⟩,
    ⟨{ regs (withH helper span) [(1, 0x1FFFC)] with scyc := 1 }, by decide⟩⟩

theorem wit_AtomicPerforms :
    ∃ (s : State) (q : Pend), q.act = .lsAtomic ⟨0, 4⟩ .cas (8 * awBytes .w) 1 0xFFFFFFFF ⟨0, 5⟩ ∧ s.lsTag ⟨0, 4⟩ = false ∧
      State.lsTag { s with lsPoison := [(0, true)] } ⟨0, 4⟩ = true :=
  ⟨State.reset, ⟨.scyc, 20, false, Own.none 0, .lsAtomic ⟨0, 4⟩ .cas 32 1 0xFFFFFFFF ⟨0, 5⟩⟩, rfl, by decide, by decide⟩

theorem wit_HandleWords :
    Ready holder 0 [1, 2] ∧ Ready holder 0 [] ∧ (fw.isFw = true ∧ Ready fw 0 [1, 2] ∧ (fw.rdS 1).extractLsb' 48 16 = 0) ∧
    (∃ s : State, s.isFw = true ∧ (s.rdS 2).extractLsb' 26 6 = 0 ∧ (s.rdS 2).extractLsb' 38 26 = 0 ∧ s.shootBlocks (s.rdS 2) = [0] ∧
      (∀ j ∈ s.shootBlocks (s.rdS 2), (s.ctlGet (offSdctl j)).getLsbD 1 = false)) ∧
    (∃ s : State, s.isFw = true ∧ s.shootBlocks (s.rdS 2) = [0] ∧ (s.ctlGet (offSdctl 0)).getLsbD 1 = true) ∧
    (∃ s : State, Ready s 0 [1, 2] ∧ (s.rdS 1).extractLsb' 48 16 ≠ 0) ∧ (∃ s : State, Ready s 0 [1, 2] ∧ (s.rdS 2).extractLsb' 26 6 ≠ 0) ∧
    (∃ s : State, Ready s 0 [1, 2] ∧ (s.rdS 2).extractLsb' 38 26 ≠ 0) ∧ (helper.isFw = false ∧ Ready helper 0 [1, 2] ∧
      ∀ j ∈ helper.shootBlocks (helper.rdS 2), absentBlock helper.variant (offPart j) = false) ∧
    (∃ s : State, s.isFw = true ∧ Ready s 0 [1, 2] ∧ (s.rdS 1).extractLsb' 48 16 = 0 ∧ (s.rdS 2).extractLsb' 26 6 = 0 ∧
      (s.rdS 2).extractLsb' 38 26 = 0 ∧ ∃ j ∈ s.shootBlocks (s.rdS 2), absentBlock s.variant (offPart j) = true) :=
  ⟨by decide, by decide, by decide, ⟨regs fw [(2, 0x2000000000)], by decide⟩, ⟨(regs fw [(2, 0x2000000000)]).ctlSet (offSdctl 0) 2, by decide⟩,
    ⟨regs helper [(1, 0x1000000000000)], by decide⟩, ⟨regs helper [(2, 0x4000000)], by decide⟩, ⟨regs helper [(2, 0x4000000000)], by decide⟩, by decide,
    ⟨{ (regs fw [(2, 0x100000000)]).ctlSet (offTencfg 1) 0x1009 with variant := .d8h }, by decide⟩⟩

/-- Queue 2,047 in the holder, queue 0 elsewhere; queue 2,048; tenant 16. -/
theorem wit_QueueWords :
    (∃ s : State, (s.rdS 1).toNat = 2047 ∧ s.isHolder = true ∧ Ready s 0 [1, 2] ∧ (s.rdS 2).toNat < 16) ∧
    (∃ s : State, (s.rdS 1).toNat < 2048 ∧ s.isHolder = false ∧ Ready s 0 [1, 2] ∧ (s.rdS 2).toNat = 15) ∧
    (∃ s : State, (s.rdS 1).toNat ≥ 2048 ∧ Ready s 0 [1, 2]) ∧ (∃ s : State, Ready s 0 [1, 2] ∧ (s.rdS 2).toNat ≥ 16) :=
  ⟨⟨regs holder [(1, 2047), (2, 15)], by decide⟩, ⟨regs fw [(2, 15)], by decide⟩, ⟨regs holder [(1, 2048)], by decide⟩, ⟨regs holder [(2, 16)], by decide⟩⟩

/-- STAGE on rank 0 and on another; a CPY descriptor in the last 32 bytes of the scratchpad, off its alignment, and past the end; DISCARD of
no bytes, of a span's last byte, without a handle; PGREQ of a page in the span, past it, and unmapped; SQLD; RQPOS of 46 bits and more. -/
theorem wit_EngineWords :
    (HReady holder 0 [] ∧ holder.myCtx.rank = 0) ∧ (∃ s : State, HReady s 0 [] ∧ s.myCtx.rank ≠ 0) ∧
    (∃ s : State, Ready s 0 [1] ∧ (s.baseVal (.s 1) + extended (0#11) none * 32).toNat = 0x4FFE0) ∧
    (∃ s : State, Ready s 0 [1] ∧ (s.baseVal (.s 1) + extended (0#11) none * 32).toNat % 32 ≠ 0) ∧
    (∃ s : State, Ready s 0 [1] ∧ (s.baseVal (.s 1) + extended (0#11) none * 32).toNat = 0x50000) ∧
    (Ready helper 0 [1, 2] ∧ (helper.rdS 2).toNat = 0) ∧
    (∃ s : State, Ready s 0 [1, 2] ∧ (s.rdS 2).toNat ≠ 0 ∧ HandleOk (s.rdH 2) (s.rdS 1).toNat (s.rdS 2).toNat true false) ∧
    (∃ s : State, Ready s 0 [1, 2] ∧ (s.rdS 2).toNat ≠ 0 ∧ (s.rdH 2).v = false) ∧
    (∃ s : State, Ready s 0 [1] ∧ (s.rdH 2).v = true ∧ (s.rdS 1).toNat ≤ (s.rdH 2).npgm1.toNat ∧ (s.rdH 2).valid.getLsbD (s.rdS 1).toNat = true) ∧
    (∃ s : State, Ready s 0 [1] ∧ (s.rdH 2).v = true ∧ (s.rdS 1).toNat > (s.rdH 2).npgm1.toNat) ∧
    (∃ s : State, Ready s 0 [1] ∧ (s.rdS 1).toNat ≤ (s.rdH 2).npgm1.toNat ∧ (s.rdH 2).valid.getLsbD (s.rdS 1).toNat = false) ∧
    (∃ s : State, HReady s 0 [1] ∧ (s.baseVal (.s 1) + extended (0#11) none * 64).toNat = 0x4FFC0) ∧
    (∃ s : State, HReady s 0 [1] ∧ (s.rdS 1).extractLsb' 46 18 = 0) ∧ (∃ s : State, HReady s 0 [1] ∧ (s.rdS 1).extractLsb' 46 18 ≠ 0) :=
  ⟨by decide, ⟨holder.updCtx 0 0 fun x => { x with rank := 1 }, by decide⟩, ⟨regs helper [(1, 0x4FFE0)], by decide⟩,
    ⟨regs helper [(1, 1)], by decide⟩, ⟨regs helper [(1, 0x50000)], by decide⟩, by decide,
    ⟨regs (withH helper { span with sp := false }) [(1, 0x1FFFF), (2, 1)], by decide⟩, ⟨regs helper [(2, 1)], by decide⟩,
    ⟨regs (withH helper span) [(1, 1)], by decide⟩, ⟨regs (withH helper span) [(1, 2)], by decide⟩,
    ⟨regs (withH helper { span with valid := 1 }) [(1, 1)], by decide⟩, ⟨regs holder [(1, 0x4FFC0)], by decide⟩,
    ⟨regs holder [(1, 0x3FFFFFFFFFFF)], by decide⟩, ⟨regs holder [(1, 0x400000000000)], by decide⟩⟩

/-- A panel of two ranks on this package and one on another. -/
def trio : Panel := { onePanel with ranks := [⟨0, 0, 0⟩, ⟨0, 1, 1⟩, ⟨1, 2, 2⟩] }

/-- The holder in that panel. -/
def holder3 : State := { holder with panels := [trio] }

theorem wit_RemoteWords :
    (∃ s pn, s.myPanel = some pn ∧ Ready s 0 [1, 2, 3] ∧ pn.rankAt s.cur.core = some (⟨0, 0, 0⟩, 0) ∧
      pn.rank? (s.rdS 1).toNat = some ⟨0, 1, 1⟩ ∧ pn.here = 0 ∧ (s.rdS 2).toNat = 0x4FFF8) ∧
    (∃ s : State, Ready s 0 [1, 2, 3] ∧ (s.rdS 1).toNat = 0 ∧ (s.rdS 2).toNat = 64 ∧ s.spBusy 0 1 = true) ∧
    (∃ s pn, s.myPanel = some pn ∧ Ready s 0 [1, 2, 3] ∧ (s.rdS 2).toNat % 8 ≠ 0) ∧
    (∃ s pn, s.myPanel = some pn ∧ Ready s 0 [1, 2, 3] ∧ pn.rank? (s.rdS 1).toNat = some ⟨1, 2, 2⟩ ∧ pn.here ≠ 1) :=
  ⟨⟨regs holder3 [(1, 1), (2, 0x4FFF8)], trio, by decide⟩, ⟨{ regs helper [(2, 64)] with pend := [storing] }, by decide⟩, ⟨regs holder3 [(1, 1), (2, 4)], trio, by decide⟩,
    ⟨regs holder3 [(1, 2)], trio, by decide⟩⟩

/-- A SEND that ends with the scratchpad, one while another is under way, one off its alignment, one past the end. -/
theorem wit_SendAndReceive :
    (∃ s : State, HReady s 0 [1, 2, 3] ∧ s.myPanel = some trio ∧ trio.rankAt s.cur.core = some (⟨0, 0, 0⟩, 0) ∧
      trio.rank? ((s.rdS 2).extractLsb' 0 16).toNat = some ⟨0, 1, 1⟩ ∧ (s.rdS 2).extractLsb' 21 43 = 0 ∧ (s.rdS 3).toNat = 4096 ∧
      s.portOk trio ⟨0, 1, 1⟩ 0 = true ∧ (s.rdS 1).toNat % 64 = 0 ∧ (s.rdS 1).toNat + 64 * 4096 = 0x50000 ∧
      s.me.units.sendEnd ≤ s.cur.t) ∧
    (∃ s : State, HReady s 0 [1, 2, 3] ∧ (s.rdS 3).toNat = 1 ∧ s.me.units.sendEnd > s.cur.t) ∧
    (∃ s : State, HReady s 0 [1, 2, 3] ∧ (s.rdS 1).toNat % 64 ≠ 0) ∧
    (∃ s : State, HReady s 0 [1, 2, 3] ∧ (s.rdS 3).toNat = 4096 ∧ (s.rdS 1).toNat % 64 = 0 ∧ (s.rdS 1).toNat + 64 * 4096 > 0x50000) :=
  ⟨⟨regs holder3 [(1, 0x10000), (2, 1), (3, 4096)], by decide⟩,
    ⟨(regs holder3 [(2, 1), (3, 1)]).updCore 0 fun c => { c with units := { c.units with sendEnd := 1 } }, by decide⟩,
    ⟨regs holder3 [(1, 32), (2, 1), (3, 1)], by decide⟩, ⟨regs holder3 [(1, 0x10040), (2, 1), (3, 4096)], by decide⟩⟩

/-- What a collective of the holder in a panel over a group meets: its root's package, and whether its core is the root's. -/
abbrev Joins (s : State) (pn : Panel) (g : Group) (here root : Bool) : Prop :=
  s.myPanel = some pn ∧ pn.group? (s.rdS 2).toNat 2 = some g ∧ (s.rdS 2).toNat < 2 ^ 16 ∧ HReady s 0 [1, 2, 3] ∧
  (g.root.pkg = pn.here ↔ here = true) ∧ (g.root.core = s.cur.core ↔ root = true)

/-- The panel of `holder`'s core at rank 1, with rank 0 on another package. -/
def away : Panel := { onePanel with ranks := [⟨1, 4, 4⟩, ⟨0, 0, 0⟩, ⟨0, 1, 1⟩] }

/-- A group of two ranks, from its root, from its other member, and from a member whose root is on another package, each with a line that
ends with the scratchpad; a spilled accumulator; a collective under way; a start off its alignment, and one line too many; a group past the
last rank; no line, and 4,097. -/
theorem wit_Collectives :
    (∃ s g, Joins s trio g true true ∧ s.me.units.collEnd ≤ s.cur.t ∧ s.me.accSpilled 0 = false ∧ (s.rdS 3).toNat = 4096 ∧
      (s.rdS 1).toNat % 64 = 0 ∧ (s.rdS 1).toNat + 64 * 4096 = 0x50000) ∧
    (∃ s g, Joins s trio g true false ∧ s.me.units.collEnd ≤ s.cur.t ∧ s.me.accSpilled 0 = false ∧ (s.rdS 3).toNat = 1 ∧
      (s.rdS 1).toNat + 64 = 0x50000) ∧
    (∃ s g, Joins s away g false false ∧ s.me.units.collEnd ≤ s.cur.t ∧ s.me.accSpilled 0 = false ∧ (s.rdS 3).toNat = 1 ∧
      (s.rdS 1).toNat + 64 = 0x50000) ∧
    (∃ s g, Joins s trio g true true ∧ s.me.accSpilled 0 = true) ∧
    (∃ s g, Joins s trio g true true ∧ s.me.accSpilled 0 = false ∧ s.me.units.collEnd > s.cur.t ∧ (s.rdS 3).toNat = 1) ∧
    (∃ s g, Joins s trio g true true ∧ (s.rdS 3).toNat = 4096 ∧ (s.rdS 1).toNat % 64 ≠ 0) ∧
    (∃ s g, Joins s trio g true true ∧ (s.rdS 3).toNat = 4096 ∧ (s.rdS 1).toNat + 64 * 4096 = 0x50040) ∧
    (∃ s : State, s.myPanel = some trio ∧ HReady s 0 [1, 2, 3] ∧ (s.rdS 3).toNat = 1 ∧ (s.rdS 2).toNat + 2 = trio.ranks.length + 1) ∧
    (∃ s : State, s.myPanel = some trio ∧ HReady s 0 [1, 2, 3] ∧ (s.rdS 3).toNat = 0) ∧
    (∃ s : State, s.myPanel = some trio ∧ HReady s 0 [1, 2, 3] ∧ (s.rdS 3).toNat = 4097) :=
  let two : Group := ⟨⟨0, 0, 0⟩, [⟨0, 0, 0⟩, ⟨0, 1, 1⟩]⟩
  ⟨⟨regs holder3 [(1, 0x10000), (3, 4096)], two, by decide⟩,
    ⟨regs holder3 [(1, 0x4FFC0), (2, 1), (3, 1)], ⟨⟨0, 1, 1⟩, [⟨0, 1, 1⟩, ⟨1, 2, 2⟩]⟩, by decide⟩,
    ⟨regs { holder with panels := [away] } [(1, 0x4FFC0), (3, 1)], ⟨⟨1, 4, 4⟩, [⟨1, 4, 4⟩, ⟨0, 0, 0⟩]⟩, by decide⟩,
    ⟨holder3.updCtx 0 1 fun x => { x with spill := [(0, 0)] }, two, by decide⟩,
    ⟨(regs holder3 [(3, 1)]).updCore 0 fun c => { c with units := { c.units with collEnd := 1 } }, two, by decide⟩,
    ⟨regs holder3 [(1, 32), (3, 4096)], two, by decide⟩, ⟨regs holder3 [(1, 0x10040), (3, 4096)], two, by decide⟩,
    ⟨regs holder3 [(2, 2), (3, 1)], by decide⟩, ⟨holder3, by decide⟩, ⟨regs holder3 [(3, 4097)], by decide⟩⟩

/-! ## Vector words -/

/-- The last line of the scratchpad, a line off its alignment and one past the end; lanes at a stride and by an index register, the last in
bounds; the last line of a span, read and written. -/
theorem wit_VectorMemory :
    (∃ s : State, VReady s 0 [1] [2] ∧ (s.baseVal (.s 1) + extended (1#8) none * 64).toNat = 0x4FFC0) ∧
    (∃ s : State, VReady s 0 [1] [2] ∧ s.cur.clusters = [0] ∧ (s.baseVal (.s 1) + extended (0#8) none * 64).toNat % 64 ≠ 0) ∧
    (∃ s : State, VReady s 0 [1] [2] ∧ s.cur.clusters = [0] ∧ (s.baseVal (.s 1) + extended (1#8) none * 64).toNat = 0x50000) ∧
    (∃ s : State, VReady s 0 [1, 2] [] ∧ ∀ c ∈ s.cur.clusters, ∀ j < 16, (s.rdM c 0).getLsbD j = true →
      (s.rdS 1 + s.rdS 2 * BitVec.ofNat 64 j).toNat % 4 = 0 ∧ (s.rdS 1 + s.rdS 2 * BitVec.ofNat 64 j).toNat + 4 ≤ 0x50000) ∧
    (∃ s : State, VReady s 0 [1] [2, 3] ∧ ∀ c ∈ s.cur.clusters, ∀ j < 16, (s.rdM c 0).getLsbD j = true →
      (s.rdS 1 + (lane (s.rdV c 2) j).zeroExtend 64).toNat % 4 = 0 ∧
      (s.rdS 1 + (lane (s.rdV c 2) j).zeroExtend 64).toNat + 4 ≤ 0x50000) ∧
    (∃ s : State, VReady s 0 [] [] ∧ HandleOk (s.rdH 2) (extended (127#8) none * 64).toNat 64 false true ∧
      LsOpen s (handlePlace (s.rdH 2) (extended (127#8) none * 64).toNat) false) ∧
    (∃ s : State, VReady s 0 [] [1] ∧ HandleOk (s.rdH 2) (extended (0#8) none * 64).toNat 64 true true ∧
      LsOpen s (handlePlace (s.rdH 2) (extended (0#8) none * 64).toNat) true) ∧
    (∃ s : State, VReady s 0 [] [1] ∧ s.cur.clusters = [0] ∧ HandleOk (s.rdH 2) (extended (0#8) none * 64).toNat 64 true true ∧
      OffPhase s (handlePlace (s.rdH 2) (extended (0#8) none * 64).toNat) false ∧
      OffPhase s (handlePlace (s.rdH 2) (extended (0#8) none * 64).toNat) true) :=
  ⟨⟨regs holder [(1, 0x4FF80)], by decide⟩, ⟨regs holder [(1, 1)], by decide⟩, ⟨regs holder [(1, 0x4FFC0)], by decide⟩,
    ⟨regs holder [(1, 0x4FFC0), (2, 4)], by decide⟩, ⟨regs holder [(1, 0x4FFFC)], by decide +kernel⟩,
    ⟨at_ (withH holder span) 127, by decide⟩, ⟨at_ (withH holder span) 64, by decide⟩, ⟨at_ (withH holder span) 1, by decide⟩⟩

theorem wit_VectorIntegers : VReady holder 0 [] [1, 2, 3] ∧ LaneTy.isFloat .n32 = false := by decide

theorem wit_VectorFloats : VReady holder 0 [] [1, 2, 3] ∧ LaneTy.isFloat .bf16x2 = true := by decide

theorem wit_VectorLogic :
    VReady holder 0 [] [1, 2] ∧ LaneTy.cmpOk .n32 = true ∧ VecCc.okFor .ge .n32 = true ∧ VecCc.okFor .ord .f32 = true ∧
    VReady holder 0 [] [] := by decide

theorem wit_VectorConversions :
    VReady holder 0 [] [31, 31 + 1] ∧ cvtPair .i16x2 .f16x2 = true ∧ LaneTy.isPacked .i8x4 = true ∧ LaneTy.isFloat .f32 = true := by decide

/-- Eight vectors held for the random words, and none. -/
theorem wit_VectorMovement :
    VReady holder 0 [1] [2] ∧ VReady holder 0 [] [] ∧ holder.cur.pops.length ≤ holder.me.rq.held ∧ holder.me.vMarked 7 31 = false ∧
    (∃ s : State, VReady s 0 [] [] ∧ s.cur.clusters = [0] ∧ s.cur.pops.length > s.me.rq.held) :=
  ⟨by decide, by decide, by decide, by decide, ⟨holder.updCore 0 fun c => { c with rq := RandQ.zero }, by decide⟩⟩

theorem wit_VectorReductions :
    VReady holder 0 [] [1, 2] ∧ LaneTy.isFloat .i8x4 = false ∧ LaneTy.isFloat .f16x2 = true := by decide

/-! ## Matrix words -/

/-- The holder with tile control 3 set for a whole tile of 64 rows of 16-bit elements. -/
def tiled : State := holder.updCore 0 fun c => { c with tc := [(2, 0xFDFA), (3, 0xFDF9)] }

/-- A tile that ends with the scratchpad; the tile engine in use; a marked row; an address off its alignment; one row too far; streams of a
latent-store tile at its phase; a second row marked; a stride off its alignment; an atomic, and a store, of the same bundle; a stream of a marked
row. -/
theorem wit_TileMoves :
    (∃ s : State, HReady s 0 [0, 1] ∧ (s.baseVal (.s 1) + extended (0#7) none * 128).toNat % 64 = 0 ∧
      (s.baseVal (.s 1) + extended (0#7) none * 128).toNat + 63 * 128 + 128 = 0x50000 ∧ s.me.units.tileEnd ≤ s.unitNow ∧
      (s.me.tile 5).marked 0 = false ∧ (s.me.tile 5).marked 1 = false) ∧
    (∃ s : State, HReady s 0 [0, 1] ∧ s.me.units.tileEnd > s.unitNow) ∧ (∃ s : State, HReady s 0 [0, 1] ∧ (s.me.tile 5).marked 0 = true) ∧
    (∃ s : State, HReady s 0 [0, 1] ∧ (s.baseVal (.s 1) + extended (0#7) none * 128).toNat % 64 ≠ 0) ∧
    (∃ s : State, HReady s 0 [0, 1] ∧ (s.baseVal (.s 1) + extended (0#7) none * 128).toNat % 64 = 0 ∧
      (s.baseVal (.s 1) + extended (0#7) none * 128).toNat + 63 * 128 + 128 > 0x50000) ∧
    (∃ s : State, HReady s 0 [] ∧ extended (0#13) none * 64 = s.rdS 1 ∧ HandleOk (s.rdH 2) 0 8192 false true ∧
      LsOpen s (handlePlace (s.rdH 2) 0) false) ∧
    (∃ s : State, HReady s 0 [1] ∧ HandleOk (s.rdH 2) (s.rdS 1).toNat 8192 true true ∧
      LsOpen s (handlePlace (s.rdH 2) (s.rdS 1).toNat) true ∧ (s.me.tile 5).marked 0 = false ∧ s.cur.slot ≠ 2) ∧
    (∃ s : State, HReady s 0 [0, 1] ∧ (s.me.tile 5).marked 0 = false ∧ (s.me.tile 5).marked 1 = true) ∧
    (∃ s : State, HReady s 0 [1, 2] ∧ (s.baseVal (.s 1) + extended (0#7) none * 128).toNat % 64 = 0 ∧ (s.rdS 2).toNat % 64 ≠ 0) ∧
    (∃ (s : State) (q : Pend), HReady s 0 [] ∧ HandleOk (s.rdH 2) 0 8192 false true ∧ LsOpen s (handlePlace (s.rdH 2) 0) false ∧ s.cur.out = [q] ∧
      q.own.slot = 2 ∧ q.act = .lsAtomic ⟨0, 4⟩ .add 32 1 0 ⟨0, 5⟩) ∧
    (∃ (s : State) (q : Pend), HReady s 0 [1] ∧ HandleOk (s.rdH 2) (s.rdS 1).toNat 8192 true true ∧
      LsOpen s (handlePlace (s.rdH 2) (s.rdS 1).toNat) true ∧ s.cur.out = [q] ∧ q.own.slot = 2 ∧ q.act = .lsStore ⟨0, 4⟩ [true] [5]) ∧
    (∃ s : State, HReady s 0 [1] ∧ HandleOk (s.rdH 2) (s.rdS 1).toNat 8192 true true ∧
      LsOpen s (handlePlace (s.rdH 2) (s.rdS 1).toNat) true ∧ (s.me.tile 5).marked 0 = true) :=
  ⟨⟨regs holder [(1, 0x4E000)], by decide⟩, ⟨holder.updCore 0 fun c => { c with units := { c.units with tileEnd := 1 } }, by decide⟩,
    ⟨holder.updCore 0 fun c => { c with t := [(5, ⟨[], 1⟩)] }, by decide⟩, ⟨regs holder [(1, 1)], by decide⟩,
    ⟨regs holder [(1, 0x4E040)], by decide⟩, ⟨withH holder span, by decide⟩,
    ⟨at_ (regs (withH holder span) [(1, 0x2000)]) 64, by decide⟩,
    ⟨holder.updCore 0 fun c => { c with t := [(5, ⟨[], 2⟩)] }, by decide⟩, ⟨regs holder [(2, 32)], by decide⟩,
    ⟨let s := withH holder span
      let q : Pend := ⟨.panel 0, 20, false, { Own.none 0 with slot := 2 }, .lsAtomic ⟨0, 4⟩ .add 32 1 0 ⟨0, 5⟩⟩
      { s with cur := { s.cur with out := [q] } }, _, by decide, by decide, by decide, rfl, rfl, rfl⟩,
    ⟨let s := at_ (regs (withH holder span) [(1, 0x2000)]) 64
      let q : Pend := ⟨.panel 0, 84, false, { Own.none 0 with slot := 2 }, .lsStore ⟨0, 4⟩ [true] [5]⟩
      { s with cur := { s.cur with out := [q] } }, _, by decide, by decide, by decide, rfl, rfl, rfl⟩,
    ⟨(at_ (regs (withH holder span) [(1, 0x2000)]) 64).updCore 0 fun c => { c with t := [(5, ⟨[], 1⟩)] }, by decide⟩⟩

/-- Tile controls of 16-bit and of 32-bit elements; kinds that LATCH accepts and refuses; a latched tile without marks; a marked row; block
descriptors missing in the scale queue. -/
theorem wit_TileWords :
    HReady tiled 0 [] ∧ tcEw (tiled.me.tcReg 3) = 1 ∧ tcEw (tiled.me.tcReg 4) ≠ 1 ∧ latchKind (tiled.me.tcReg 4) = false ∧
    latchKind (tiled.me.tcReg 3) = true ∧
    (let r := latchPair tiled.me 3 0 ⟨true, [], tiled.me.tcReg 3, []⟩; r.1.poison = none ∧ r.1.short = false) ∧
    (∃ s : State, latchKind (s.me.tcReg 3) = true ∧ (latchPair s.me 3 0 ⟨true, [], s.me.tcReg 3, []⟩).1.poison = some (3, 1)) ∧
    (∃ s : State, latchKind (s.me.tcReg 2) = true ∧
      (let r := latchPair s.me 2 0 ⟨true, [], s.me.tcReg 2, []⟩; r.1.poison = none ∧ r.1.short = true)) :=
  ⟨by decide, by decide, by decide, by decide, by decide, by decide,
    ⟨tiled.updCore 0 fun c => { c with t := [(3, ⟨[], 2⟩)] }, by decide⟩,
    ⟨tiled.updCore 0 fun c => { c with tc := [(2, 0x10FDFA)] }, by decide⟩⟩

/-- A holder whose latch 0 holds a tile of 16-bit elements of the kind of tile 3. -/
def latched : State := tiled.updCore 0 fun c => { c with latch := [(0, ⟨true, [], 0xFDF9, []⟩)] }

/-- Its MMA in classical order. -/
def latchedRun : MmaRun :=
  { n := 0, t := 3, form := .bf16, cl := true, latch := latched.me.latchN 0, latch2 := latched.me.latchN 1,
    tca := latched.me.tcReg 3, tcb := latched.me.tcReg 4, anchor := 0, trunc := 0, rowsA := [], rowsB := [], descs := [], part := none }

theorem wit_MatrixMultiply :
    HReady latched 0 [] ∧
    (let x := latched.me; formOk .bf16 3 0 (x.tcReg 3) (x.tcReg 4) (x.latchN 0) (x.latchN 1) = true ∧
      formOk .bf16 4 0 (x.tcReg 4) (x.tcReg 5) (x.latchN 0) (x.latchN 1) = false) ∧
    latched.me.accSpilled 0 = false ∧ latched.me.units.arrayEnd ≤ latched.unitNow ∧
    (∃ s : State, HReady s 0 [] ∧ s.me.accSpilled 0 = true ∧
      formOk .bf16 3 0 (s.me.tcReg 3) (s.me.tcReg 4) (s.me.latchN 0) (s.me.latchN 1) = true) ∧
    (∃ s : State, HReady s 0 [] ∧ s.me.accSpilled 0 = false ∧ s.me.units.arrayEnd > s.unitNow ∧
      formOk .bf16 3 0 (s.me.tcReg 3) (s.me.tcReg 4) (s.me.latchN 0) (s.me.latchN 1) = true) ∧
    (let r := mmaPair latched.me 0 latchedRun
     r.1.poison = none ∧ r.1.short = false) ∧
    (∃ s : State, HReady s 0 [] ∧ (mmaPair s.me 0 latchedRun).1.poison = some (3, 1)) :=
  ⟨by decide, by decide, by decide, by decide,
    ⟨latched.updCtx 0 1 fun x => { x with spill := [(0, 0)] }, by decide⟩,
    ⟨latched.updCore 0 fun c => { c with units := { c.units with arrayEnd := 1 } }, by decide⟩, by decide,
    ⟨latched.updCore 0 fun c => { c with t := [(3, ⟨[], 2⟩)] }, by decide⟩⟩

/-- The anchors 2,047 and 2,048; an accumulator with a spilled cell; tiles of 16-bit, of 32-bit and of 8-bit elements; the firmware
context at the highest address, and another context. -/
theorem wit_AccumulatorWords :
    HReady holder 0 [] ∧ (extended (2047#12) none).toInt = 2047 ∧ (extended (2048#12) (some 0)).toInt = 2048 ∧
    holder.me.accSpilled 0 = false ∧ (∃ s : State, HReady s 0 [] ∧ s.me.accSpilled 0 = true) ∧
    (tcEw (tiled.me.tcReg 3) = 1 ∧ tcEw (tiled.me.tcReg 4) = 0 ∧ tcEw (tiled.me.tcReg 2) > 1 ∧
      ∀ t < 16, ∀ r < 64, (tiled.me.tile t).marked r = false) ∧
    (∃ s : State, s.isFw = true ∧ Ready s 0 [1] ∧ (s.rdS 1 + extended (0#7) none * 128).toNat % 64 = 0 ∧
      (s.rdS 1 + extended (0#7) none * 128).toNat + 0x20000 = 0x50000 ∧ s.me.units.tileEnd ≤ s.unitNow) ∧
    (holder.isFw = false ∧ holder.rdQ 0 = true) ∧ (helper.isFw = false ∧ helper.isHolder = false) ∧
    (∃ s : State, s.isFw = false ∧ s.isHolder = true ∧ Ready s 0 [1] ∧ (s.rdS 1 + extended (0#7) none * 128).toNat % 64 ≠ 0) :=
  ⟨by decide, by decide, by decide, by decide, ⟨holder.updCtx 0 1 fun x => { x with spill := [(0, 0)] }, by decide⟩, by decide,
    ⟨regs fw [(1, 0x30000)], by decide⟩, by decide, by decide, ⟨regs holder [(1, 1)], by decide⟩⟩

/-! ## Rules for every word of a bundle -/

theorem wit_WordsOnlyAsk : Instr.cls (.add 0 1 2 3) = some .s ∧ ∃ i, i = Instr.idle 255 := ⟨by decide, _, rfl⟩

theorem wit_PredicateOff :
    Instr.cls (.vadd 1 none 1 2 3 .f32 0) = some .v ∧ holder.rdQ (Instr.pred (.vadd 1 none 1 2 3 .f32 0)) = false ∧
    helper.rdQ (Instr.pred (.jmp 7 0)) = false ∧
    (0xDC800000#32).toNat / 2 ^ 26 = 0x37 ∧ (0xDC800000#32).extractLsb' 23 3 ≠ 0 := by decide

theorem wit_HolderWords :
    helper.isHolder = false ∧ Instr.cls (.vabs 0 none 1 2 .f32 0) = some .v ∧ Instr.cls (.mstat 0 1) = some .x ∧ helper.isFw = false ∧
    holderSr 0x50 = true ∧ holderSr 0x5F = true ∧ holderSr 13 = true := by decide

/-- The outcome is a next state. -/
def goesOn (o : Host.Outcome State Fault Refusal) : Bool :=
  match o with
  | .next _ => true
  | .fault _ => false
  | .refused _ => false

theorem wit_PoisonedSource :
    ∃ s : State, 31 ∈ Instr.sreads (.add 0 1 2 31) ∧ spGet false s.myCtx.mark 31 = true ∧ s.rdQ (Instr.pred (.add 0 1 2 31)) = true ∧
      goesOn (exec (.add 0 1 2 31) s) = true :=
  ⟨helper.updCtx 0 1 fun x => { x with mark := [(31, true)] }, by decide⟩

/-! ## What falls due -/

theorem wit_RegisterWrites :
    (∃ p : Pend, p.act = .wS 0 31 5 true) ∧ (∃ p : Pend, p.act = .wS 0 0 5 false) ∧ (∃ p : Pend, p.act = .wQ 0 7 true) ∧
    (∃ p : Pend, p.act = .wH 0 15 span) ∧ ∃ p : Pend, p.act = .wB 7 0xFFFFF :=
  ⟨⟨holder.due 1 _, rfl⟩, ⟨holder.due 1 _, rfl⟩, ⟨holder.due 1 _, rfl⟩, ⟨holder.due 1 _, rfl⟩, ⟨holder.due 1 _, rfl⟩⟩

theorem wit_HolderRegisterWrites :
    (∃ p : Pend, p.act = .wV 7 31 0x8001 5 false) ∧ (∃ p : Pend, p.act = .wM 7 7 0) ∧ (∃ p : Pend, p.act = .wFlag 11 1) ∧
    (∃ p : Pend, p.act = .wFlag 10 2) ∧ (∃ p : Pend, p.act = .wClear 11 1) ∧ (∃ p : Pend, p.act = .wClear 10 1) ∧
    (∃ p : Pend, p.act = .wClear 12 1) ∧ (∃ p : Pend, p.act = .wAcc 3 Acc.zero) ∧ (∃ p : Pend, p.act = .wTile 15 Tile.zero) ∧
    ∃ p : Pend, p.act = .wLatch 3 Latch.empty :=
  ⟨⟨holder.due 4 _, rfl⟩, ⟨holder.due 1 _, rfl⟩, ⟨holder.due 1 _, rfl⟩, ⟨holder.due 1 _, rfl⟩, ⟨holder.due 1 _, rfl⟩,
    ⟨holder.due 1 _, rfl⟩, ⟨holder.due 1 _, rfl⟩, ⟨holder.due 1 _, rfl⟩, ⟨holder.due 1 _, rfl⟩, ⟨holder.due 1 _, rfl⟩⟩

theorem wit_ScratchpadPerforms :
    (∃ p : Pend, p.act = .spStore 0x4FFFF [5]) ∧ (∃ p : Pend, p.act = .spLoad 0x4FFF8 8 ⟨0, 5⟩) ∧
    ∃ (p : Pend) (bs : List Byte), p.act = .spStore 0x4FFC0 bs ∧ bs.length = 64 :=
  ⟨⟨holder.due 1 _, rfl⟩, ⟨holder.due 1 _, rfl⟩, ⟨holder.due 1 (.spStore 0x4FFC0 (List.replicate 64 5)), _, rfl, rfl⟩⟩

theorem wit_LatentStorePerforms :
    ∃ p : Pend, p.act = .lsStore ⟨1, 0x7FFFFFFF⟩ [true] [5] ∧ [true].length = [5].length := ⟨holder.due 20 _, rfl, rfl⟩

/-! ## Bundles, traps and the return from one -/

/-- A bundle with a trap, and with one of TRAP; one held; one that commits, before each of the three ends of a transfer, with an ERET, and with an END. -/
theorem wit_BundleCommits :
    (∃ (s : State) (tr : TrapCand), chosenTrap (s.allTraps []) = some tr ∧ tr.kind.code ≠ 14) ∧
    (∃ (s : State) (tr : TrapCand), chosenTrap (s.allTraps []) = some tr ∧ tr.kind = .soft 5) ∧
    (∃ s : State, chosenTrap (s.allTraps []) = none ∧ s.cur.hold = true) ∧
    (∃ s : State, chosenTrap (s.allTraps []) = none ∧ s.cur.hold = false ∧ s.sqOverflow = none ∧ s.cur.soft = none ∧
      (∀ x ∈ s.cur.out, x.due ≠ s.cur.t) ∧ s.cur.out ≠ [] ∧ s.cur.eret = false ∧ s.cur.ended = true ∧
      (s.ctx s.cur.core s.cur.ctx).delay = .none) ∧
    (∃ s : State, s.cur.eret = true ∧ s.sqOverflow = none) ∧
    (∃ s : State, (s.ctx s.cur.core s.cur.ctx).delay = .target 0xFFFC) ∧ ∃ s : State, (s.ctx s.cur.core s.cur.ctx).delay = .fall :=
  ⟨⟨holder.trap .priv, ⟨.priv, 10, 1, 0, 0⟩, by decide⟩, ⟨holder.trap (.soft 5), _, rfl, rfl⟩, ⟨{ holder with cur := { holder.cur with hold := true } }, by decide⟩,
    ⟨let s := holder.emit 1 .stage; { s with cur := { s.cur with ended := true } }, by decide⟩,
    ⟨{ fw with cur := { fw.cur with eret := true } }, by decide⟩,
    ⟨helper.updCtx 0 1 fun x => { x with delay := .target 0xFFFC }, by decide⟩,
    ⟨helper.updCtx 0 1 fun x => { x with delay := .fall }, by decide⟩⟩

theorem wit_TenantTrapEntry :
    isFwCtx 0 0 = false ∧ (0 : Nat) < 4 ∧ holder.panelOn 0 = some onePanel ∧ onePanel.st = .running ∧
    isFwCtx 0 3 = true ∧ isFwCtx 1 3 = false := by decide

theorem wit_FirmwareTrapEntry :
    ∃ s : State, (s.ctx 0 3).inHandler = false ∧ s.ctlFld offFaultctl 16 1 = 1 ∧ (s.ctx 0 3).wait = .none :=
  ⟨fw.ctlSet offFaultctl 0x1C000, by decide⟩

/-! ## Decoding and stepping -/

theorem wit_DecodeOfEncode :
    Instr.cls (.acas 7 31 15 31 31 .d) = some .m ∧ Instr.wf (.acas 7 31 15 31 31 .d) = true ∧
    Instr.cls (.vcmp 7 (some 7) 7 .ord 31 31 .f32 7) = some .v ∧ Instr.wf (.vcmp 7 (some 7) 7 .ord 31 31 .f32 7) = true := by decide

theorem wit_EncodeOfDecode :
    decodes .s (0x03FFFF80#32, .add 7 31 31 31) = false ∧ decodes .s (0x03BFFF80#32, .add 7 31 31 31) = true ∧
    (∃ i, decodeSlot .e 0x04400000#32 0xFF = .ok i) := ⟨by decide, by decide, _, rfl⟩

/-- The last eight bytes of overlay slot 0 hold a header and an ADD. -/
theorem wit_EncodedBundleFetched :
    ∃ (c : CoreSt) (x : Ctx), Instr.cls (.add 0 1 2 3) = some .s ∧ Instr.wf (.add 0 1 2 3) = true ∧ x.delay = .none ∧
      overlayValid c x.pc.toNat = true ∧ x.pc.toNat % 0x4000 + 8 = 0x4000 ∧
      bytesAt c.istore x.pc.toNat 8 = (encode (.add 0 1 2 3)).flatMap (fun w => natLe 4 w.toNat) :=
  ⟨{ CoreSt.idle with
      istore := putBytes [] 0x3FF8 ((encode (.add 0 1 2 3)).flatMap fun w => natLe 4 w.toNat), ovtag := [(0, 0x10000000000)] },
    { Ctx.idle with pc := 0x3FF8 }, by decide⟩

/-- A state whose next step issues ADD s1, s2, s3 in the holder. -/
def fetching : State := State.reset.withFetchWord 32 0x00022180

/-- Nothing comes before the issue, and the bundle at the PC is found. -/
def issues (s : State) : Bool :=
  s.power && (s.nextEntry false).isNone && s.nextEvent.isNone && decide (s.nextIssue = some (0, 0))

theorem wit_StepRunsDecoded :
    issues fetching = true ∧
    (match bundleAt (fetching.core 0) (fetching.ctx 0 0) with
      | .ok [(_, i)] 1 8 => decide (i = .add 0 1 2 3) && goesOn (exec i fetching)
      | _ => false) = true := by decide

/-- A word with an opcode that is not listed; a PC in a slot that is not loaded. -/
theorem wit_IllegalBundleTraps :
    issues (State.reset.withFetchWord 32 0xF4000000) = true ∧
    (let s := State.reset.withFetchWord 32 0xF4000000
     match bundleAt (s.core 0) (s.ctx 0 0) with | .bad 0 _ _ => true | _ => false) = true ∧
    overlayValid CoreSt.idle Ctx.idle.pc.toNat = false := by decide

/-- The reset state with one entry of the agenda, due. -/
def listed (e : Input) : State := { State.reset with agenda := [⟨.scyc, 0, e⟩] }

/-- Nothing comes before the queue engines in this state. -/
abbrev Quiet (s : State) : Prop :=
  s.power = true ∧ s.nextEntry false = none ∧ s.nextEvent = none ∧ s.nextIssue = none ∧ s.nextTrap = none

/-- A step of the part from the agenda and an input, each of those that take place at once and of those that come late; a step of the part
due by itself; a trap found; a queue operation that arrives; nothing but the passage of time. -/
theorem wit_StepOrder :
    (listed (.instr .frqpop)).nextEntry false = some ⟨.scyc, 0, .instr .frqpop⟩ ∧ Instr.isStep .frqpop = true ∧
    (listed (.devicePoison 64)).nextEntry false = some ⟨.scyc, 0, .devicePoison 64⟩ ∧
    (∃ s : State, s.power = true ∧ s.nextEntry false = none ∧ s.nextEvent.isSome = true) ∧
    (∃ s : State, s.power = true ∧ s.nextEntry false = none ∧ s.nextEvent = none ∧ s.nextIssue = none ∧ s.nextTrap = some (0, 0)) ∧
    (∃ s : State, Quiet s ∧ s.queueDue = true) ∧
    (Quiet (listed (.instr (.hostMemoryRead 0 8))) ∧ (listed (.instr (.hostMemoryRead 0 8))).queueDue = false ∧
      (listed (.instr (.hostMemoryRead 0 8))).nextEntry true = some ⟨.scyc, 0, .instr (.hostMemoryRead 0 8)⟩) ∧
    (Quiet (listed (.hostCtlRead 0 8)) ∧ (listed (.hostCtlRead 0 8)).queueDue = false ∧
      (listed (.hostCtlRead 0 8)).nextEntry true = some ⟨.scyc, 0, .hostCtlRead 0 8⟩) ∧
    (Quiet State.reset ∧ State.reset.queueDue = false ∧ State.reset.nextEntry true = none) :=
  ⟨by decide, by decide, by decide, ⟨State.reset.ctlSet (offMemctl 0) 2, by decide⟩,
    ⟨holder.updCtx 0 0 fun x => { x with st := .trapped, cands := [⟨.priv, 10, 1, 0, 0⟩] }, by decide⟩,
    ⟨{ State.reset with pend := [⟨.scyc, 0, false, Own.none 0, .qArrive .len 5 9⟩] }, by decide⟩, by decide, by decide, by decide⟩


/-! ## One step -/

/-- An ADD issues in the holder: the PC moves past its bundle, and the write of s1 is due one cycle later (R116, R162). -/
theorem test_step_add :
    (match step fetching with
     | .next t => decide ((t.ctx 0 0).pc = 8) && t.pend.any (fun p => decide (p.act = .wS 0 1 0 false) && decide (p.due = 1))
     | _ => false) = true := by decide

/-- A step at a package without power stops (R330). -/
theorem test_step_power_off : (match step { State.reset with power := false } with | .fault .powerOff => true | _ => false) = true := by decide

/-- A run of one node, nothing of it done. -/
def oneRun : Run :=
  { id := 0, tenant := 0, part := 0, rec_ := [], reply := none, precs := [], scheds := [], bind := [], nodes := [], edges := [], nstep := 1,
    step := 0, rowRead := true, k := [], gslot := [], prog := [], cancel := none, patid := 0, image := 0 }

/-! ## The steps of the part -/

/-- A control register of the reset state set. -/
def ctlIs (off : Nat) (v : Word) : State := State.reset.ctlSet off v

/-- Reset, and an image under check whose first bytes are not those of an image; an image that no check refuses, if the vendor's key, which
is free (log 12), signs it; the firmware context halted; attestation idle, under way, and at its last key. -/
theorem wit_BootSteps :
    State.reset.bootState = 0 ∧ ((ctlIs offBootstat 2).bootState ≠ 0 ∧ (ctlIs offBootstat 2).bootState ≠ 3) ∧
    ((ctlIs offBootstat 1).bootState = 1 ∧ (ctlIs offBootstat 1).imageRefusal = some 1) ∧
    (∃ s : State, s.bootState = 1 ∧ (lmsVerify Config.vendorKey (bytesAt s.ls s.imageSigned lmsSigLen) (bytesAt s.ls 0 s.imageSigned) = true →
      s.imageRefusal = none)) ∧
    (ctlIs offBootstat 4).bootState = 4 ∧ (ctlIs offAttctl 2).ctlFld offAttctl 1 1 = 1 ∧ (ctlIs offAttctl 2).keyIndex < 32768 ∧
    State.reset.ctlFld offAttctl 1 1 = 0 ∧ (0 : Nat) ≠ offAttctl :=
  ⟨by decide, by decide, by decide,
    ⟨{ ctlIs offBootstat 1 with ls := putBytes [] 0 [0x57, 0x46, 0x57, 0x01, 0, 0, 0, 0, 4] }, by decide, fun h => by
      have h0 : bytesAt (putBytes ([] : Sparse Byte) 0 [0x57, 0x46, 0x57, 0x01, 0, 0, 0, 0, 4]) 0 4 = [0x57#8, 0x46#8, 0x57#8, 0x01#8] := by decide
      have h1 : State.imageLengthBad { ctlIs offBootstat 1 with ls := putBytes [] 0 [0x57, 0x46, 0x57, 0x01, 0, 0, 0, 0, 4] } = false := by decide
      have h2 : ¬(State.imageField { ctlIs offBootstat 1 with ls := putBytes [] 0 [0x57, 0x46, 0x57, 0x01, 0, 0, 0, 0, 4] } 4 4
          < natAt (ctlIs offBootstat 1).nv 0 4) := by decide
      simp only [State.imageRefusal, h0, h1, h, h2]
      decide⟩,
    by decide, by decide, by decide, by decide, by decide⟩

/-- An offset off 8 bytes, and one of a block that the variant lacks; a run that waits, without one; queues with 256 entries. -/
theorem wit_ControlSteps :
    (∃ v : Variant, 4 % 8 ≠ 0 ∧ absentBlock v 0x43000 = true) ∧ (15 < 16 ∧ 0xF8 < 0x100 ∧ 0xF8 % 8 = 0) ∧
    (0x10000 ≤ 0x102F8 ∧ 0x102F8 < 0x10300) ∧
    ((399 : BitVec 64).toNat % 4096 < 400 ∧ 400 ≤ (2200 : BitVec 64).toNat % 4096 ∧ (2200 : BitVec 64).toNat % 4096 = tdp .d8 ∧
      (2201 : BitVec 64).toNat % 4096 > tdp .d8) ∧
    (∃ s : State, s.frq.length < 256 ∧ (s.faqOf 3).length < 256) ∧ (∃ s : State, s.frq.length ≥ 256) ∧
    (∃ s : State, (s.faqOf 3).length ≥ 256) ∧ (∃ s : State, s.activeRun 0 = none ∧ ∀ r ∈ s.runs, r.id < s.nextId) ∧
    (∃ (s : State) (r : Run), s.activeRun 0 = some r ∧ r.cancel = none ∧ s.runs = [r] ∧ r.id < s.nextId) :=
  ⟨⟨.d8e, by decide, by decide⟩, by decide, by decide, by decide, ⟨State.reset, by decide, by decide⟩,
    ⟨{ State.reset with frq := List.replicate 256 1 }, by decide +kernel⟩,
    ⟨{ State.reset with faq := [(3, List.replicate 256 1)] }, by decide +kernel⟩, ⟨State.reset, by decide⟩,
    ⟨{ State.reset with runs := [oneRun] }, oneRun, by decide, by decide, rfl, by decide⟩⟩

/-- A state with CXL decoder 0 set to 1 GiB at port 0, and the eviction of page 0 to the first page of the second tier asked for. -/
def evicting : State :=
  ((State.reset.ctlSet (offCxldec 0) (BitVec.ofNat 64 (9 + 2 ^ 32))).ctlSet offEvdst (BitVec.ofNat 64 secondBase)).ctlSet (offCxlpst 0) 1

/-- A launch of a cached node in a run of tenant 0. -/
def cachedRun : Run := { oneRun with prog := [⟨0, .launched, true, some 0, false, []⟩] }

/-- A copy of two lines from the scratchpad of core 0 to that of core 1, in the panel of `onePanel`, that starts now. -/
def oneCopy : CopyRun :=
  { id := 7, pid := some 0, node := none, idx := 0, hor := 0,
    e := { stg := 0, chan := 0, rate := 0, srck := 2, dstk := 0, rbm := false, sh := 0, dh := 0, dgrp := 0, lines := 2, delay := 0,
           dmask := 2, portc := 0, soff := 0, doff := 0, rbma := 0 },
    ap := 0, own := Own.none 0, timed := true, cpy := false, tenant := 0, fw := false, sH := Handle.zero, dH := Handle.zero, opened := true,
    rel := some 0, start := some 0, begun := true, started := false, sent := 0, revS := false, revD := false, nreq := 0, tried := 0,
    staged := [], moved := [], flags := [], written := 0, failed := 0, poisoned := false, done := false }

/-- The panel saved, and its image complete or not. -/
def savedAs (cores : List CoreSt) (complete : List Nat) : Saved :=
  { panel := { onePanel with st := .saved, pcyc := 5 }, cores := cores, pend := [], links := [], copies := [], slots := [(0, 0)], epoch := 0,
    complete := complete, late := [] }

/-- A copy of one panel that uses an access processor, a packet of it on a link, and rows of a collective of it on their way. -/
theorem wit_FaultClasses :
    (holder.panelOn 0 = some onePanel ∧ (holder.core onePanel.firstCore).panel = some onePanel.pid) ∧
    (∀ p ∈ State.reset.panels, State.reset.packetOn p 5 = false) ∧
    (∃ s : State, s.panels.filter (fun p => s.packetOn p 5) = [onePanel] ∧ (s.core onePanel.firstCore).panel = some onePanel.pid) ∧
    (∃ s : State, s.panels.filter (fun p => s.packetOn p (2 ^ 17)) = [onePanel] ∧ (s.core onePanel.firstCore).panel = some onePanel.pid) ∧
    (∃ s : State, s.pend.any (fun x => x.own.core == 0 && decide (x.due ≤ s.now x.clk) && (match x.act with | .wMma _ => true | _ => false)) = true) ∧
    (State.reset.panel? 5 = none ∧ ∀ v ∈ State.reset.saved, v.panel.pid ≠ 5) ∧ holder.panel? 0 = some onePanel ∧
    (∃ s : State, s.panels.filter (fun p => s.copies.any fun c => c.pid == some p.pid && c.ap == 3 && !c.done) = [onePanel]) ∧
    (State.reset.panels.filter (fun p => p.st == .running || p.st == .placed) = [] ∧
      holder.panels.filter (fun p => p.st == .running || p.st == .placed) = [onePanel] ∧ State.reset.frq.length + 1 ≤ 256 ∧
      State.reset.msixMasked 17 = true) ∧
    (∃ (s : State) (v : Saved), s.panel? 0 = none ∧ (s.saved.find? fun v => v.panel.pid == 0) = some v ∧
      (s.core v.panel.firstCore).panel ≠ some v.panel.pid) :=
  ⟨by decide, by decide,
    ⟨{ holder with links := [{ clk := .panel 0, due := 0, link := 5, rank := 0, own := Own.none 0, arr := 0 }] }, by decide⟩,
    ⟨{ holder with pend := [⟨.panel 0, 3, false, Own.none 0, .land 0 0 [] false .bc⟩] }, by decide⟩,
    ⟨{ holder with pend := [⟨.panel 0, 0, false, Own.none 0, .wMma latchedRun⟩] }, by decide⟩, by decide, by decide,
    ⟨{ holder with copies := [{ oneCopy with ap := 3 }] }, by decide⟩, by decide, ⟨{ State.reset with saved := [savedAs [] []] }, _, rfl, rfl, by decide⟩⟩

theorem wit_FaultAndPartitionSteps :
    (ctlIs offPartctl 2).ctlFld offPartctl 1 1 = 1 ∧
    (∃ s : State, s.ctlFld offPartctl 1 1 = 0 ∧ s.partCheck = some (2, 0)) ∧
    (State.reset.ctlFld offPartctl 1 1 = 0 ∧ State.reset.partCheck = none ∧ State.reset.partChange = none) ∧
    (∃ (s : State) (c : PartChange), s.partChange = some c ∧ c.rho ≠ s.scyc) ∧
    (∃ (s : State) (c : PartChange), s.partChange = some c ∧ c.rho = s.scyc ∧ s.hostq = [] ∧ c.quarters = [3] ∧ ∀ j ∈ c.after, j < 4) ∧
    (∃ (s : State) (c : PartChange), s.partChange = some c ∧ c.rho = s.scyc ∧ s.hostq ≠ []) ∧
    (ctlIs (offSdctl 3) 2).ctlFld (offSdctl 3) 1 1 = 1 ∧ State.reset.ctlFld (offSdctl 3) 1 1 = 0 ∧
    (∀ w ∈ State.reset.shoots, ¬(partMask w.parts = 5 ∧ w.rho = State.reset.scyc ∧ w.drain = none)) ∧
    (∃ (s : State) (w : Shoot), (s.shoots.find? fun w => partMask w.parts == 5 && w.rho == s.scyc && w.drain.isNone) = some w ∧
      w.tenants.Nodup ∧ 15 ∈ w.tenants) ∧
    (ctlIs (offRcinv 3) 0x40).ctlFld (offRcinv 3) 6 1 = 1 ∧ State.reset.ctlFld (offRcinv 3) 6 1 = 0 ∧
    ((ctlIs (offRccfg 0) 0x10000).ctlFld (offRccfg 0) 16 1 = 1 ∧ State.reset.ctlFld (offRccfg 0) 16 1 = 0) ∧
    (∃ (s : State) (r : Run) (x : NodeRun), s.runs = [r] ∧ r.part = 0 ∧ invMatches (s.ctlGet (offRcinv 0)).toNat r.tenant r.patid = true ∧
      x ∈ r.prog ∧ x.launched = true ∧ x.cached = true) ∧
    (3 < State.reset.cxl ∧ 4 ≥ State.reset.cxl) ∧ (ctlIs offEvctl 2).ctlFld offEvctl 1 1 = 1 ∧ ({ State.reset with variant := .d8e } : State).cxl = 0 ∧
    (let src := fun (s : State) => s.ctlFld offEvsrc 16 32
     let srcOk := fun (s : State) => src s * 65536 < hbmSize s.variant ∧ (s.partOfAddr (src s * 65536)).isSome = true
     (∃ s : State, ¬srcOk s ∧ s.ctlFld offEvctl 1 1 = 0 ∧ s.cxl ≠ 0) ∧
     (srcOk State.reset ∧ State.reset.cxlPort (State.reset.ctlFld offEvdst 16 32) = none) ∧
     (∃ s : State, srcOk s ∧ s.cxlPort (s.ctlFld offEvdst 16 32) = some 0 ∧ s.cxlUp 0 = false) ∧
     (srcOk evicting ∧ evicting.cxlPort (evicting.ctlFld offEvdst 16 32) = some 0 ∧ evicting.cxlUp 0 = true)) ∧
    (State.reset.evict = none ∧ ∀ e, State.reset.evict = some e → State.reset.cxlPort e.dst ≠ some 3) ∧
    (∃ (s : State) (e : Evict), s.evict = some e ∧ e.line ≠ 1024 ∧ s.cxlPort e.dst = some 0) ∧
    (∃ (s : State) (e : Evict), s.evict = some e ∧ e.line = 1024) :=
  ⟨by decide, ⟨State.reset.ctlSet (offMemil 1) 1, by decide +kernel⟩, by decide,
    ⟨{ State.reset with partChange := some ⟨1, [3], [3], [3]⟩ }, ⟨1, [3], [3], [3]⟩, rfl, by decide⟩,
    ⟨{ State.reset with partChange := some ⟨0, [3], [3], [3]⟩ }, ⟨0, [3], [3], [3]⟩, rfl, rfl, rfl, rfl, by decide⟩,
    ⟨{ State.reset with partChange := some ⟨0, [3], [3], [3]⟩, hostq := [⟨3, false, 63, [], 1, false, 0⟩] }, ⟨0, [3], [3], [3]⟩, rfl, rfl, by decide⟩,
    by decide, by decide, by decide,
    ⟨{ State.reset with shoots := [⟨[0, 2], [4, 15], false, 0, 0, 0, none⟩] }, ⟨[0, 2], [4, 15], false, 0, 0, 0, none⟩, by decide⟩,
    by decide, by decide, by decide,
    ⟨{ ctlIs (offRcinv 0) 0x20 with runs := [cachedRun] }, cachedRun, _, rfl, rfl, by decide, List.mem_singleton.mpr rfl, rfl, rfl⟩,
    by decide, by decide, by decide,
    ⟨⟨State.reset.ctlSet offEvsrc (BitVec.ofNat 64 0x6000000000), by decide⟩, by decide,
      ⟨evicting.ctlSet (offCxlpst 0) 0, by decide⟩, by decide⟩,
    ⟨rfl, by intro e h; cases h⟩,
    ⟨{ evicting with evict := some ⟨7, 5, 0x10000000, false, 1023, true⟩ }, ⟨7, 5, 0x10000000, false, 1023, true⟩, rfl, by decide⟩,
    ⟨{ State.reset with evict := some ⟨7, 5, 6, true, 1024, false⟩ }, ⟨7, 5, 6, true, 1024, false⟩, rfl, rfl⟩⟩

/-! ## Memory and copies -/

/-- A request for a unit of HBM4E. -/
def oneReq : HbmReq :=
  { id := 7, part := 0, pch := 0, bank := 0, who := 0, ap := 0, chan := 0, asked := 0, present := 0, sigma := some 0, addr := 128, write := true,
    mask := 1, l0 := ⟨5, false, false⟩, l1 := ⟨0, false, false⟩, use := .copyRead 9 0 1, performed := false }

/-- The same as a read. -/
def oneRead : HbmReq := { oneReq with write := false }

/-- The reset state with one request. -/
def asks (r : HbmReq) : State := { State.reset with reqs := [r] }

/-- That request performs next. -/
abbrev Performs (s : State) (r : HbmReq) : Prop := (s.reqs.find? fun r => r.id == 7 && !r.performed) = some r

/-- BUSY and not; a command due, and too many; a bank parked, and a selection that names none; a test at its last row, and before it. -/
theorem wit_MemorySteps_0 :
    (ctlIs (offMemctl 3) 2).ctlFld (offMemctl 3) 1 1 = 1 ∧ State.reset.ctlFld (offMemctl 3) 1 1 = 0 ∧
    ((ctlIs (offMemctl 3) 2).partIdle 3 = true ∧ (ctlIs (offMemctl 3) 2).scyc % 320 = 0) ∧ (1 : Nat) % 320 ≠ 0 ∧
    (∃ s : State, s.partIdle 0 = false) ∧
    (∃ s : State, (match (s.pch 5).due.find? fun d => d.1 with | some d => some d | none => (s.pch 5).due.head?) = some (true, 4)) ∧
    (State.reset.pch 5).due.length < 2 ∧
    (∃ s : State, (s.pch 5).due.length ≥ 2 ∧ (∀ g ∈ (s.pch 5).taken, g ≤ s.scyc) ∧ s.scyc < 5 ∧ s.slotCode 0 (slotAt 5) < 16 ∧ s.reqs = []) ∧
    ((State.reset.pch 5).due = [] ∧ (State.reset.tests.find? fun x => x.1 == 0 && pchOf x.2.1 == 5) = none) ∧
    (∃ s : State, (s.pch 5).due = [] ∧ (s.tests.find? fun x => x.1 == 3 && pchOf x.2.1 == 5) = some (3, ⟨0, 5, 1⟩, 16383, true)) ∧
    (∃ s : State, (s.pch 5).due = [] ∧ (s.tests.find? fun x => x.1 == 3 && pchOf x.2.1 == 5) = some (3, ⟨0, 5, 1⟩, 16382, false)) ∧
    (State.reset.parkedBank 0 = none ∧ State.reset.ctlFld (offParksel 0) 3 7 < 96 ∧ ∀ t ∈ State.reset.tests, t.1 ≠ 0) ∧
    (∃ s : State, s.parkedBank 0 = some ⟨1, 2, 3⟩ ∧ ∀ t ∈ s.tests, t.1 ≠ 0) ∧ (∃ s : State, ∃ t ∈ s.tests, t.1 = 0) ∧
    (ctlIs (offParksel 0) 768).ctlFld (offParksel 0) 3 7 ≥ 96 :=
  ⟨by decide, by decide, by decide, by decide, ⟨asks oneReq, by decide +kernel⟩,
    ⟨{ State.reset with pchs := [(5, ⟨[], [(false, 3), (true, 4)], 0, []⟩)] }, by decide⟩, by decide,
    ⟨{ State.reset with pchs := [(5, ⟨[], [(false, 3), (true, 4)], 0, []⟩)], live := [(offMemslot 0 0, some 0)] }, by decide +kernel⟩, by decide,
    ⟨{ State.reset with tests := [(3, ⟨0, 5, 1⟩, 16383, true)] }, by decide⟩, ⟨{ State.reset with tests := [(3, ⟨0, 5, 1⟩, 16382, false)] }, by decide⟩,
    by decide, ⟨ctlIs (offParksel 0) 0x10C11, by decide⟩,
    ⟨{ State.reset with tests := [(0, ⟨0, 5, 1⟩, 0, false)] }, _, List.mem_singleton.mpr rfl, rfl⟩, by decide⟩

/-- Nothing to perform or deliver; a write that is dropped, one to a parked bank, one of the last byte of a line, a read; data that come back
to a copy, to the host and to the eviction, and to none of them. -/
theorem wit_MemorySteps_1 :
    ((∀ r ∈ State.reset.reqs, r.id = 7 → r.performed = true) ∧ ∀ r ∈ State.reset.reqs, r.id ≠ 7) ∧
    (∃ (s : State) (r : HbmReq), Performs s r ∧ r.use = .dropped) ∧
    (∃ (s : State) (r : HbmReq), Performs s r ∧ r.use ≠ .dropped ∧ s.parked r = true ∧ r.write = true) ∧
    (∃ (s : State) (r : HbmReq), Performs s r ∧ r.use ≠ .dropped ∧ s.parked r = true ∧ r.write = false) ∧
    (∃ (s : State) (r : HbmReq), Performs s r ∧ r.use ≠ .dropped ∧ s.parked r = false ∧ r.write = true ∧ r.addr % 128 = 0 ∧
      r.half false = BitVec.allOnes 64 ∧ r.half true = BitVec.allOnes 64) ∧
    (∃ (s : State) (r : HbmReq), Performs s r ∧ r.use ≠ .dropped ∧ s.parked r = false ∧ r.write = false ∧ s.copy? 9 = none ∧ r.half false ≠ 0) ∧
    (∃ (s : State) (r : HbmReq), (s.reqs.find? fun r => r.id == 7) = some r ∧ r.use = .copyRead 9 0 1) ∧
    (∃ (s : State) (r : HbmReq) (h : HostAcc), (s.reqs.find? fun r => r.id == 7) = some r ∧ r.use = .host 3 ∧ s.hostq = [h] ∧ h.id = 3 ∧
      r.write = false ∧ h.write = false ∧ h.left = min h.left (128 - h.addr % 128)) ∧
    (∃ (s : State) (r : HbmReq) (h : HostAcc), (s.reqs.find? fun r => r.id == 7) = some r ∧ r.use = .host 3 ∧ s.hostq = [h] ∧ h.id = 3 ∧
      r.write = false ∧ h.write = false ∧ h.left > min h.left (128 - h.addr % 128)) ∧
    (∃ (s : State) (r : HbmReq) (e : Evict), (s.reqs.find? fun r => r.id == 7) = some r ∧ r.use = .evict 3 ∧ s.evict = some e ∧ e.id = 3) ∧
    (∃ (s : State) (r : HbmReq), (s.reqs.find? fun r => r.id == 7) = some r ∧ r.use = .copyWrite 9 0 1) ∧
    (oneReq.use ≠ .dropped ∧ (asks oneReq).mapOf oneReq = none ∧ (asks oneRead).mapOf oneRead = none) ∧
    (∃ (s : State) (r : HbmReq), Performs s r ∧ r.use ≠ .dropped ∧ s.parked r = false ∧ (s.mapOf r).isSome = true) :=
  ⟨by decide, ⟨asks { oneReq with use := .dropped }, _, rfl, rfl⟩,
    ⟨{ ctlIs (offParksel 0) 0x10000 with reqs := [{ oneReq with addr := 0 }] }, { oneReq with addr := 0 }, by decide +kernel⟩,
    ⟨{ ctlIs (offParksel 0) 0x10000 with reqs := [{ oneRead with addr := 0 }] }, { oneRead with addr := 0 }, by decide +kernel⟩,
    ⟨asks { oneReq with mask := BitVec.allOnes 128 }, { oneReq with mask := BitVec.allOnes 128 }, by decide +kernel⟩,
    ⟨asks oneRead, oneRead, by decide +kernel⟩, ⟨asks oneRead, oneRead, by decide +kernel⟩,
    ⟨{ asks { oneRead with use := .host 3 } with hostq := [⟨3, false, 127, [], 1, true, 0⟩] }, _, _, rfl, rfl, rfl, by decide⟩,
    ⟨{ asks { oneRead with use := .host 3 } with hostq := [⟨3, false, 127, [], 2, true, 0⟩] }, _, _, rfl, rfl, rfl, by decide⟩,
    ⟨{ asks { oneRead with use := .evict 3 } with evict := some ⟨3, 0, 0x10000000, false, 1023, true⟩ }, _, _, rfl, rfl, rfl, rfl⟩,
    ⟨asks { oneReq with use := .copyWrite 9 0 1 }, _, rfl, rfl⟩, by decide,
    ⟨{ asks { oneReq with use := .host 3 } with olds := [⟨4, [0], [], [], [], [], []⟩] }, { oneReq with use := .host 3 }, by decide +kernel⟩⟩

/-- A walk, and none; the last byte of HBM4E and of latent store 0 that the host reaches, and one past it; an accepted access that goes on, in
HBM4E and in a latent store. -/
theorem wit_MemorySteps_2 :
    (∃ (s : State) (w : Walk), (s.walks.find? fun w => w.die == 1 && w.space == 16 && w.group == 3) = some w ∧ w.pin = true) ∧
    (∀ w ∈ State.reset.walks, ¬(w.die = 1 ∧ w.space = 16 ∧ w.group = 3)) ∧
    ((∀ i < [(5 : Byte)].length, (ctlIs offBootstat 0x80).barPlace (0x5FFFFFFFFF + i) ≠ .none) ∧ ∀ i < 1, State.reset.barPlace (0x605FFFFFFF + i) ≠ .none) ∧
    (State.reset.barPlace 0x6060000000 = .none ∧ State.reset.barPlace 0x5FFFFFFFFF = .none) ∧
    (∃ (s : State) (h : HostAcc), s.hostq = [h] ∧ h.asked = false ∧ h.left ≠ 0 ∧ s.barPlace h.addr = .hbm 63) ∧
    (∃ (s : State) (h : HostAcc), s.hostq = [h] ∧ h.asked = false ∧ h.left ≠ 0 ∧ s.barPlace h.addr = .ls ⟨0, 63⟩ ∧ h.write = true) ∧
    (∃ (s : State) (h : HostAcc), s.hostq = [h] ∧ h.asked = false ∧ h.left ≠ 0 ∧ s.barPlace h.addr = .ls ⟨0, 63⟩ ∧ h.write = false ∧
      h.left = min h.left (64 - 63 % 64)) :=
  ⟨⟨{ State.reset with walks := [⟨1, 16, 3, true⟩] }, ⟨1, 16, 3, true⟩, by decide⟩, by decide, by decide, by decide,
    ⟨{ ctlIs offBootstat 0x80 with hostq := [⟨3, false, 63, [], 1, false, 0⟩] }, _, rfl, by decide⟩,
    ⟨{ State.reset with hostq := [⟨3, true, 0x600000003F, [5], 1, false, 0⟩] }, _, rfl, by decide⟩,
    ⟨{ State.reset with hostq := [⟨3, false, 0x600000003F, [], 1, false, 0⟩] }, _, rfl, by decide⟩⟩

/-- The same from HBM4E through a handle, and to HBM4E with a line on its way; from the latent store, untimed. -/
def readCopy : CopyRun := { oneCopy with e := { oneCopy.e with srck := 0 }, sH := { span with sp := false } }
def writeCopy : CopyRun := { oneCopy with e := { oneCopy.e with dstk := 2 }, dH := { span with sp := false }, moved := [(1, some ⟨5, false, false⟩)] }
def lsCopy : CopyRun := { oneCopy with e := { oneCopy.e with srck := 1 }, sH := span, timed := false }

/-- The holder's state with one copy. -/
def copying (r : CopyRun) : State := { holder with copies := [r] }

/-- A page request of access processor 2, of a page with a place in the second tier. -/
def onePage : PageReq :=
  { id := 7, ap := 2, core := 32, ctx := 0, tenant := 0, fw := false, vpage := 0, frame := 0, bk := true, back := 0x10000000, own := Own.none 32,
    started := true, revoked := false, down := false, line := 512, asked := false }

/-- A write-back that waits in access processor 0. -/
def waiting (s : State) : State := { s with wbq := [oneReq] }

/-- The core's context 1 blocked. -/
def blocked (w : Wait) : State := holder.updCtx 0 1 fun x => { x with st := .blocked, wait := w }

/-- A queue operation of the firmware context on its way. -/
def queueing (op : QOp) : State := { fw with queueReqs := [⟨7, 5, op, 9, 0, 3, Own.none 0⟩] }

/-- Queue 5 with a count. -/
def counted (s : State) (n : Nat) : State := s.setQueueDesc 5 (1 + 2 ^ 23 * n)

/-- A read to be presented: with nothing of the copy left to read, with a page that gives none, in a channel that has no room, with a full
staging buffer, refused by its memory controller, and admitted. -/
theorem wit_CopySteps_0 :
    State.reset.copy? 7 = none ∧ { readCopy with sH := Handle.zero }.nextRead = none ∧
    (copying oneCopy).wantsRead oneCopy = false ∧
    (∃ s : State, s.readRoom 0 0 = false) ∧
    (∃ s : State, s.copy? 7 = some readCopy ∧ readCopy.nextRead = some 0 ∧ s.wantsRead readCopy = true ∧ s.readRoom 0 0 = true ∧
      s.stagingUsed 0 + readCopy.unitLines 0 > 16384) ∧
    (∃ s : State, s.copy? 7 = some readCopy ∧ s.wantsRead readCopy = true ∧ s.readRoom 0 0 = true ∧ s.stagingUsed 0 + readCopy.unitLines 0 ≤ 16384 ∧
      s.admitAt ((s.partOfAddr (readCopy.srcAddr 0)).getD 0) (pchOf (s.placeOf (readCopy.srcAddr 0)).1) (s.placeOf (readCopy.srcAddr 0)).1.bank
        readCopy.who = none) ∧
    (∃ s : State, s.copy? 7 = some { readCopy with fw := true } ∧ s.wantsRead { readCopy with fw := true } = true ∧ s.readRoom 0 0 = true ∧
      s.stagingUsed 0 + readCopy.unitLines 0 ≤ 16384 ∧
      (s.admitAt ((s.partOfAddr (readCopy.srcAddr 0)).getD 0) (pchOf (s.placeOf (readCopy.srcAddr 0)).1) (s.placeOf (readCopy.srcAddr 0)).1.bank
        0x11).isSome = true) :=
  ⟨by decide, by decide +kernel, by decide +kernel, ⟨{ State.reset with units := [(0, 2)] }, by decide⟩,
    ⟨{ copying readCopy with reqs := [{ oneRead with use := .copyRead 7 0 16384 }] }, by decide +kernel⟩,
    ⟨copying readCopy, by decide +kernel⟩, ⟨copying { readCopy with fw := true }, by decide +kernel⟩⟩

/-- An entry that starts, whose channel is free and whose channel is held; one that does not; a line that moves, and lines that do not; a
write-back that waits behind another, for its channel, for its controller, and one that is admitted; retries; late warnings. -/
theorem wit_CopySteps_1 :
    ((copying oneCopy).copy? 7 = some oneCopy ∧ (copying oneCopy).copyPanel oneCopy = some onePanel ∧ oneCopy.live 0 = true ∧
      oneCopy.started = false ∧ oneCopy.start = some onePanel.pcyc ∧ (copying oneCopy).chanHeld oneCopy 0 = false ∧ oneCopy.cpy = false ∧
      oneCopy.sent = 0 ∧ (oneCopy.linesAt (oneCopy.readAt 0) 0).contains 0 = true ∧ oneCopy.e.srck = 2 ∧ oneCopy.e.dstk = 0) ∧
    (∃ s : State, s.copy? 7 = some oneCopy ∧ s.copyPanel oneCopy = some onePanel ∧ s.chanHeld oneCopy 0 = true) ∧
    (∃ s : State, s.copy? 7 = some oneCopy ∧ s.copyPanel oneCopy = none) ∧
    (oneCopy.sent ≠ 1 ∧ spGet none oneCopy.moved 0 = none) ∧
    (∃ s : State, s.copy? 7 = some writeCopy ∧ spGet none writeCopy.moved 1 = some ⟨5, false, false⟩ ∧ s.unitsOf 0 0 ≥ 2) ∧
    (∃ s : State, s.copy? 7 = some writeCopy ∧ s.unitsOf 0 0 < 2 ∧ s.wbq = [] ∧ s.admitAt 0 0 0 0 = none) ∧
    (∃ s : State, s.copy? 7 = some { writeCopy with fw := true } ∧ s.wbq = [] ∧ (s.admitAt 0 0 0 0x11).isSome = true) ∧
    (∃ (s : State) (q : HbmReq), s.heldBack q = true) ∧ (∀ r ∈ State.reset.wbq, r.id ≠ 7) ∧
    (∃ (s : State) (r : HbmReq), s.wbq.find? (fun r => r.id == 7) = some r ∧ s.admitAt r.part r.pch r.bank r.who ≠ none) ∧
    (∃ s : State, s.wbq.find? (fun r => r.id == 7) = some oneReq ∧ s.admitAt oneReq.part oneReq.pch oneReq.bank oneReq.who = none) ∧
    ((copying oneCopy).panel? 0 = some onePanel ∧ onePanel.hedge = false ∧ ∀ w ∈ onePanel.frz, w.stop ≠ none) ∧
    (∃ (s : State) (p : Panel), s.copy? 7 = some oneCopy ∧ s.panel? 0 = some p ∧ p.st = .running ∧ p.hedge = true) :=
  ⟨by decide +kernel, ⟨{ copying oneCopy with chans := [(0, 0, 0, 5)] }, by decide⟩,
    ⟨{ State.reset with copies := [oneCopy] }, by decide⟩, by decide, ⟨{ copying writeCopy with units := [(0, 2)] }, by decide +kernel⟩,
    ⟨copying writeCopy, by decide +kernel⟩, ⟨copying { writeCopy with fw := true }, by decide +kernel⟩,
    ⟨{ State.reset with wbq := [oneReq] }, oneReq, by decide⟩, by decide,
    ⟨{ State.reset with wbq := [{ oneReq with who := 0x11 }] }, { oneReq with who := 0x11 }, by decide +kernel⟩,
    ⟨waiting (ctlIs (offMemctl 0) 2), by decide +kernel⟩, by decide,
    ⟨{ copying oneCopy with panels := [{ onePanel with hedge := true }] }, { onePanel with hedge := true }, by decide⟩⟩

/-- A delivery queue that is empty, with a page, with a copy that begins, with one that goes on and one that ends; page copies that are over,
revoked, and behind another. -/
theorem wit_CopySteps_2 :
    State.reset.dqueue 15 = [] ∧ (∃ s : State, s.dqueue 2 = [.page 7]) ∧
    (∃ (s : State) (r : CopyRun), s.dqueue 0 = [.cpy 7] ∧ s.copy? 7 = some r ∧ r.begun = false) ∧
    (∃ s : State, s.dqueue 0 = [.cpy 7] ∧ s.copy? 7 = some lsCopy ∧ lsCopy.begun = true ∧ (∀ p, lsCopy.pid.bind s.panel? = some p → p.frozen = false) ∧
      lsCopy.sent ≥ lsCopy.nreq ∧ lsCopy.nreq < lsCopy.e.lines ∧ lsCopy.node = none ∧ lsCopy.srcState lsCopy.nreq = 0 ∧ lsCopy.e.srck = 1 ∧
      lsCopy.e.dstk = 0 ∧ s.lsTag (handlePlace lsCopy.sH (lsCopy.e.soff + 64 * lsCopy.nreq)) = false) ∧
    (∃ (s : State) (r : CopyRun), s.dqueue 0 = [.cpy 7] ∧ s.copy? 7 = some r ∧ r.begun = true ∧ (∀ p, r.pid.bind s.panel? = some p → p.frozen = false) ∧
      r.sent ≥ r.nreq ∧ r.nreq ≥ r.e.lines + r.mapLines * r.cores.length) ∧
    (∀ g ∈ State.reset.pages, g.id = 7 → g.over = false) ∧
    (∃ s : State, (s.pages.find? fun g => g.id == 7 && g.over) = some onePage ∧ onePage.revoked = false ∧
      ∀ o ∈ s.pages, o.ap = onePage.ap → o.started = true → 7 ≤ o.id) ∧
    (∃ (s : State) (g : PageReq), (s.pages.find? fun g => g.id == 7 && g.over) = some g ∧ g.revoked = true) ∧
    (∃ s : State, (s.pages.find? fun g => g.id == 7 && g.over) = some onePage ∧ ∃ o ∈ s.pages, o.ap = onePage.ap ∧ o.started = true ∧ o.id < 7) :=
  ⟨by decide, ⟨{ State.reset with dqueues := [(2, [.page 7])] }, by decide⟩,
    ⟨{ copying { lsCopy with begun := false } with dqueues := [(0, [.cpy 7])] }, { lsCopy with begun := false }, by decide⟩,
    ⟨{ copying lsCopy with dqueues := [(0, [.cpy 7])] }, by decide, by decide, rfl, by intro p h; cases h; rfl, by decide⟩,
    ⟨{ copying { lsCopy with nreq := 2, sent := 2 } with dqueues := [(0, [.cpy 7])] }, { lsCopy with nreq := 2, sent := 2 }, by decide, by decide, rfl,
      by intro p h; cases h; rfl, by decide⟩, by decide,
    ⟨{ evicting with pages := [onePage] }, by decide⟩, ⟨{ evicting with pages := [{ onePage with line := 0, revoked := true }] }, _, rfl, rfl⟩,
    ⟨{ State.reset with pages := [{ onePage with id := 6, line := 5 }, onePage] }, by decide⟩⟩

/-- Queue operations and what they wait for; contexts that wake, switch and are refilled. -/
theorem wit_CopySteps_3 :
    (∃ (s : State) (r : QueueReq), (s.queueReqs.find? fun r => r.id == 7) = some r ∧ s.storesDue r.core r.ctx r.own.issue = true) ∧
    (∃ (s : State) (r : QueueReq), (s.queueReqs.find? fun r => r.id == 7) = some r ∧ s.storesDue r.core r.ctx r.own.issue = false ∧
      queueTrap s r.op r.q (s.ctx r.core r.ctx).tenant (isFwCtx r.core r.ctx) = some 1) ∧
    (∃ (s : State) (r : QueueReq), (s.queueReqs.find? fun r => r.id == 7) = some r ∧ s.storesDue r.core r.ctx r.own.issue = false ∧
      queueTrap s r.op r.q (s.ctx r.core r.ctx).tenant (isFwCtx r.core r.ctx) = none ∧ r.op = .len ∧ r.rd ≠ 0) ∧
    (∃ (s : State) (r : QueueReq), (s.queueReqs.find? fun r => r.id == 7) = some r ∧ s.storesDue r.core r.ctx r.own.issue = false ∧
      queueTrap s r.op r.q (s.ctx r.core r.ctx).tenant (isFwCtx r.core r.ctx) = none ∧ r.op = .try_ 7 ∧ descCount (s.queueDesc r.q) = 0) ∧
    (∃ (s : State) (r : QueueReq), (s.queueReqs.find? fun r => r.id == 7) = some r ∧ s.storesDue r.core r.ctx r.own.issue = false ∧
      queueTrap s r.op r.q (s.ctx r.core r.ctx).tenant (isFwCtx r.core r.ctx) = none ∧ r.op = .deq ∧ descCount (s.queueDesc r.q) = 0) ∧
    ((holder.ctx 0 1).st ≠ .blocked ∧ ((blocked (.qgot 5 9 true)).ctx 0 1).st = .blocked ∧
      ((blocked (.qgot 5 9 true)).ctx 0 1).wait = .qgot 5 9 true) ∧
    (holder.core 0).panel.isSome = true ∧ (∃ s : State, (s.ctx 0 1).st = .ready) ∧
    (∃ s : State, (s.core 0).panel.isSome = true ∧ (s.core 0).rq.held < 8) ∧ (State.reset.core 5).panel.isNone = true :=
  ⟨⟨{ queueing .len with queueReqs := [⟨7, 5, .len, 9, 0, 3, { Own.none 0 with ctx := 3, issue := 5 }⟩],
                          pend := [⟨.scyc, 9, false, { Own.none 0 with ctx := 3, issue := 4 }, .lsStore ⟨0, 0⟩ [true] [5]⟩] }, _, rfl, by decide⟩,
    ⟨queueing .len, _, rfl, by decide +kernel⟩, ⟨counted (queueing .len) 3, _, rfl, by decide +kernel⟩,
    ⟨counted (queueing (.try_ 7)) 0, _, rfl, by decide +kernel⟩, ⟨counted (queueing .deq) 0, _, rfl, by decide +kernel⟩, by decide, by decide,
    ⟨holder.updCtx 0 1 fun x => { x with st := .ready }, by decide⟩,
    ⟨holder.updCore 0 fun c => { c with rq := { c.rq with held := 7 } }, by decide⟩, by decide⟩

/-! ## Launching, placing and the hedge -/

/-- READY, with tenant 0 enabled in partition 0, and its record in the launch window. -/
def ready (rec_ : List Byte) : State :=
  { (ctlIs offBootstat 0x80).ctlSet (offTencfg 0) 0x2001 with launch := putBytes [] 0 rec_, tenkey := putBytes [] 0 [7] }

/-- A record of version 1 for tenant 0, with an image at virtual address 0 and one step. -/
def oneRec : List Byte := [1, 0] ++ List.replicate 30 0 ++ [1] ++ List.replicate 223 0

/-- A launch frame from Ethernet: its header with the address of port 3, the record, and its authentication. -/
def oneFrame (auth : Bool) : List Byte :=
  let p := [1, 0, 1, 0, 9] ++ List.replicate 7 0 ++ oneRec
  natBe 6 (Config.portMac 3).toNat ++ List.replicate 6 0 ++ [0x88, 0xB5] ++ p ++ (if auth then hmacSha256 (7 :: List.replicate 31 0) p else List.replicate 32 0)

/-- An image with a pattern of one node of kind SIGNAL and the code of overlay 0. -/
def oneImage : List Byte :=
  [0x48, 0x58, 0x49, 1, 1, 0, 2, 0, 9, 0, 0, 0, 0, 0, 0, 0, 64] ++ List.replicate 47 0
    ++ [4, 0, 0, 0, 96, 0, 0, 0, 128] ++ List.replicate 23 0 ++ [1, 0, 0, 0, 4, 0, 0, 0, 224] ++ List.replicate 23 0
    ++ [1] ++ List.replicate 31 0 ++ [2] ++ List.replicate 63 0 ++ [5, 6, 7, 8]

/-- Memory with bytes at address 0, which tenant 0 finds at virtual address 0 through a span that die 0 caches. -/
def mapped (s : State) (bs : List Byte) : State :=
  { s with
    hbm := putBytes [] 0 bs |>.map (fun e => (e.1, some e.2)), live := [(offTroot 0 0, some 1)],
    spans := [(0, [⟨0, 0, 9 :: List.replicate 63 0, false⟩])] }

/-- The record in tenant 0's run queue. -/
def queued (s : State) : State := { s.setQueueDesc 496 (1 + 2 ^ 23) with bufs := [(0, some ⟨oneRec, none, 0⟩)] }

/-- What RUN_START finds for tenant 0: no image, a code of refusal, or a run to start. -/
def startFinds (s : State) : Option (Option Nat) :=
  match s.takeRun 0 with
  | none => some (some 0)
  | some (s1, b) =>
    let l := s1.loadRun 0 b.rec_
    match l.2 with
    | none => none
    | some y =>
      let g := l.1.formBindings 0 b.rec_
      some (g.1.runCode (recPart b.rec_) b.rec_ y g.2)

/-- A node of a kind. -/
def oneNode (kind : Nat) (gated : Bool) : Node :=
  { kind := kind, gated := gated, trset := false, trunc := 0, npred := 0, tile := 0, gbind := 0, gcol := 0, psec := 3, csec := 0xFFFF,
    ibind := 0, ilines := 0, olines := 0, ifmt := 0, ioff := 0, value := 5, rmap := 0, period := 0, kbound := 0, thresh := 0 }

/-- A panel record of one rank on core 0, with overlay 0 in slot 0. -/
def onePanelRec : PanelRec :=
  { sec := 3, help := 0, erchk := false, hedge := false, ovl := [0, 0, 0, 0], ovmask := 1, ranks := [(0, 0, 0)], hpcs := [] }

/-- A state with one run of one node at some point. -/
def running (k : Nat) (gated : Bool) (st : NodeSt) : State :=
  { State.reset with
    runs := [{ oneRun with nodes := [oneNode k gated], prog := [⟨0, st, false, some 0, false, []⟩], precs := [onePanelRec], gslot := [0xFFFF], rec_ := oneRec }] }

/-- The same before its step's row is read. -/
def atRow (s : State) : State := { s with runs := s.runs.map fun r => { r with rowRead := false, prog := [], rec_ := List.replicate 256 0 } }

/-- The panel of node 0 placed on core 0. -/
def placed : Panel := { onePanel with st := .placed, ovmask := 1, ovl := [0, 0, 0, 0], image := 9 }

/-- Placed, with the image mapped, and its overlay still to be loaded. -/
def loading : State := { mapped (running 0 false .launched) oneImage with panels := [placed] }

/-- Placed, with nothing to wait for. -/
def starting : State := { running 0 false .launched with panels := [{ placed with ovmask := 0 }] }

/-- A saved panel that may be placed again. -/
def resuming : State := { running 0 false .launched with saved := [savedAs [CoreSt.idle] [0]] }

/-- The panel on its core, at some point of its life. -/
def onCore (p : Panel) : State := { holder with panels := [p] }

/-- What PANEL_PLACE finds first in partition 0. -/
def placeFinds (s : State) : Option Task :=
  match s.candidates 0 with
  | [] => none
  | c :: _ => (s.run? c.run).bind fun r => (s.placement r.part c.rec_ []).map fun _ => c.task

/-- The code of the overlay that OVERLAY_LOAD reads. -/
def loadFinds (s : State) (p : Panel) : Option (List Byte) :=
  (s.run? p.run).bind fun r => (s.nextOverlay p).bind fun ci =>
    (thenRead (s.readImage r.tenant (recImage r.rec_)) fun s1 im => match im.codeSec (nth 0 p.ovl ci.2) with
      | some k => s1.readSec r.tenant im k | none => (s1, none)).2

theorem wit_DispatchSteps_0 :
    State.reset.takesRecords = false ∧ (ready []).takesRecords = true ∧ 15 < 16 ∧
    (∃ s : State, s.takesRecords = true ∧ s.ringFull 0 = true) ∧
    ((ready []).ringFull 0 = false ∧ (ready []).arrivalCode 0 (bytesAt (ready []).launch 0 256) = some 1) ∧
    (ready oneRec).arrivalCode 0 (bytesAt (ready oneRec).launch 0 256) = none ∧
    (framePayload [] = none ∧ (framePayload (oneFrame false)).isSome = true) ∧
    (framePayload (oneFrame false)).any (fun p => !(ctlIs offBootstat 0x80).frameOk p) = true := by
  refine ⟨by decide, by decide, by decide, ⟨{ ready [] with events := [(0, List.replicate 64 1)] }, by decide +kernel⟩, ?_⟩
  decide +kernel

/-- A frame whose authentication is right. -/
theorem wit_DispatchSteps_1 : (framePayload (oneFrame true)).any (fun p => (ready []).frameOk p) = true := by decide +kernel

/-- Both frames are addressed to port 3; an empty one is not, unless that port has the address 0. -/
theorem wit_DispatchSteps_6 (auth : Bool) :
    frameTo 3 (oneFrame auth) = true ∧ (Config.portMac 3 ≠ 0 → frameTo 3 [] = false) := by
  have h : ∀ n v, beNat (natBe n v) = v % 256 ^ n := by
    intro n
    simp only [beNat, natBe, List.foldl_reverse]
    induction n with
    | zero => intro v; simp [natLe, Nat.mod_one]
    | succ n ih =>
      intro v
      simp only [natLe, List.foldr_cons, ih, BitVec.toNat_ofNat]
      rw [show 256 ^ (n + 1) = 256 * 256 ^ n from Nat.mul_comm _ _, Nat.mod_mul]
      omega
  constructor
  · have e : (oneFrame auth).take 6 = natBe 6 (Config.portMac 3).toNat := by cases auth <;> rfl
    have lt : (Config.portMac 3).toNat < 256 ^ 6 := by have := (Config.portMac 3).isLt; omega
    rw [frameTo, e, h, Nat.mod_eq_of_lt lt]
    exact beq_self_eq_true _
  · intro hn
    exact beq_false_of_ne fun e => hn (BitVec.eq_of_toNat_eq e.symm)

/-- A tenant with a run; one whose record names no image, one that is refused (a pattern with a node of a kind that is reserved), one that
starts. -/
theorem wit_DispatchSteps_2 :
    (∃ r ∈ (running 0 false .waiting).runs, r.tenant = 0) ∧ (queued (ready [])).dispHalt = false ∧ (∀ r ∈ (queued (ready [])).runs, r.tenant ≠ 0) ∧
    startFinds (queued (ready [])) = none ∧ startFinds (mapped (queued (ready [])) (oneImage.set 160 3)) = some (some 8) ∧
    startFinds (mapped (queued (ready [])) oneImage) = some none ∧ State.reset.liveRun 7 = none := by decide +kernel

/-- The rows and nodes of a run: a row read; a row that is read, and one that is not; nodes that complete, signal, and pass the gate. -/
theorem wit_DispatchSteps_3 :
    (∃ (s : State) (r : Run), s.liveRun 0 = some r ∧ (∀ q ∈ s.runs, q.id = 0 → q = r) ∧ r.rowRead = true) ∧
    (∃ (s : State) (r : Run), s.liveRun 0 = some r ∧ (∀ q ∈ s.runs, q.id = 0 → q = r) ∧ r.rowRead = false ∧ r.step < r.nstep ∧ r.nodes ≠ [] ∧
      (s.vaRead r.tenant (recStepVa r.rec_ + 256 * r.step) 256).2.isSome = true) ∧
    (∃ (s : State) (r : Run), s.liveRun 0 = some r ∧ r.rowRead = false ∧ r.step < r.nstep ∧
      (s.vaRead r.tenant (recStepVa r.rec_ + 256 * r.step) 256).2 = none) ∧
    (∃ (s : State) (r : Run) (x : NodeRun), s.liveRun 0 = some r ∧ r.prog[0]? = some x ∧ r.nodes[0]? = some (oneNode 0 false) ∧
      x.st = .finished ∧ (x.pid.any s.panelDone) = true ∧ ∀ k ∈ s.otherPkgs r (oneNode 0 false), k ∈ x.others) ∧
    (∃ (s : State) (r : Run) (x : NodeRun), s.liveRun 0 = some r ∧ r.prog[0]? = some x ∧ r.nodes[0]? = some (oneNode 1 false) ∧
      x.st = .running ∧ s.copyNodeDone 0 0 = true) ∧
    (∃ (s : State) (r : Run) (x : NodeRun), s.liveRun 0 = some r ∧ r.prog[0]? = some x ∧ r.nodes[0]? = some (oneNode 2 false) ∧
      x.st = .ready ∧ s.ringFull r.tenant = false ∧ ∀ i < 0, r.signalReady i = false) ∧
    (∃ (s : State) (r : Run) (x : NodeRun), s.liveRun 0 = some r ∧ r.prog[0]? = some x ∧ r.nodes[0]? = some (oneNode 0 true) ∧
      x.st = .ready ∧ s.slotOk r (nth 0xFFFF r.gslot 0) = false) ∧
    (∃ (s : State) (r : Run) (x : NodeRun), s.liveRun 0 = some r ∧ r.prog[0]? = some x ∧ r.nodes[0]? = some (oneNode 0 true) ∧
      x.st = .ready ∧ s.slotOk r (nth 0xFFFF r.gslot 0) = true ∧ inRefresh (oneNode 0 true) r.step = true) :=
  ⟨⟨running 0 false .ready, _, rfl, by decide +kernel⟩, ⟨mapped (atRow (running 0 false .ready)) [], _, rfl, by decide +kernel⟩,
    ⟨atRow (running 0 false .ready), _, rfl, by decide +kernel⟩, ⟨running 0 false .finished, _, _, rfl, rfl, by decide +kernel⟩,
    ⟨running 1 false .running, _, _, rfl, rfl, by decide +kernel⟩, ⟨running 2 false .ready, _, _, rfl, rfl, by decide +kernel⟩,
    ⟨running 0 true .ready, _, _, rfl, rfl, by decide +kernel⟩,
    ⟨let s := (running 0 true .ready).ctlSet (offRcten 0 0) 0x10000
     { s with runs := s.runs.map fun r => { r with gslot := [0] } }, _, _, rfl, rfl, by decide +kernel⟩⟩

/-- A gated node that may be skipped, at step 1: the slot's header matches, and both inputs are lines of zeros. -/
def gateNode : Node := { oneNode 0 true with kbound := 2, thresh := 0x3F800000, ibind := 1 }

/-- Its run; `last` is the LAST of the header in slot 0. -/
def gateRun (last : Byte) : State :=
  let s := ((running 0 true .ready).ctlSet (offRcten 0 0) 0x10000).ctlSet (offRchbase 0) 1
  { s with
    ls := [(65536, 3), (65536 + 12, last)],
    runs := s.runs.map fun r => { r with gslot := [0], nodes := [gateNode], step := 1, bind := [(1, span)] } }

/-- What the gate finds for it: the header matches, and both inputs can be read and are near. -/
def gateFinds (s : State) : Bool × Bool :=
  match s.liveRun 0 with
  | none => (false, false)
  | some r =>
    let u := s.updRun 0 fun q => { q with bind := spPut Handle.zero r.bind 0 (s.slotHandle r 0) }
    let now := u.spanLines r.tenant span 1 0
    let kept := now.1.spanLines r.tenant (s.slotHandle r 0) 1 0
    (headerMatches r 0 gateNode (s.rcHeader r.part 0) && s.slotOk r 0 && !inRefresh gateNode r.step,
      match now.2, kept.2 with
      | some c, some w => let d := inputDelta 0 c w; !d.isNan && !(fp32.decode 0x3F800000).lt d
      | _, _ => false)

/-- A node to skip, and one to compute; a record whose host writes have not performed. -/
theorem wit_DispatchSteps_7 :
    gateFinds (gateRun 0) = (true, true) ∧ (gateFinds (gateRun 7)).1 = false ∧
    (∃ s : State, (s.hostq.any fun h => h.write && decide (h.id < 9)) = true) :=
  ⟨by decide +kernel, by decide +kernel, ⟨{ State.reset with hostq := [⟨3, true, 63, [5], 1, false, 0⟩] }, by decide⟩⟩

/-- A run that goes on and one that has ended; a node and a saved panel to place; an overlay to load; a panel that waits, and one that
starts. -/
theorem wit_DispatchSteps_4 :
    (∃ (s : State) (r : Run), (s.runs.find? fun r => r.id == 0) = some r ∧ s.mayRetire r = none) ∧
    (∃ (s : State) (r : Run), (s.runs.find? fun r => r.id == 0) = some r ∧ s.mayRetire r = some (1, 2, 0)) ∧
    (∃ s : State, s.dispHalt = true) ∧
    placeFinds (running 0 false .ready) = some (.node 0) ∧ (running 0 false .ready).dispHalt = false ∧
    (placeFinds resuming = some (.resume 0) ∧ (resuming.saved.find? fun v => v.panel.pid == 0).isSome = true) ∧
    (loading.panel? 0 = some placed ∧ placed.st = .placed ∧ loading.dispHalt = false ∧ (loading.core 0).panel = none ∧
      loading.nextOverlay placed = some (0, 0) ∧ loadFinds loading placed = some [5, 6, 7, 8]) ∧
    (loading.startsNow placed = false ∧ (onCore onePanel).panel? 0 = some onePanel ∧ onePanel.st ≠ .placed) ∧
    (∃ p : Panel, starting.panel? 0 = some p ∧ starting.startsNow p = true ∧ (starting.run? p.run).isSome = true ∧ p.hedge = false ∧
      starting.powerFreezes { p with startS := starting.scyc } (starting.scyc / 1024) = false ∧ p.frz = [] ∧ starting.copies = [] ∧ starting.pend = [] ∧ (p.mine.map fun x => x.1.core).Nodup) :=
  ⟨⟨running 0 false .ready, _, rfl, by decide⟩, ⟨{ State.reset with runs := [{ oneRun with step := 1, rowRead := false }] }, _, rfl, by decide⟩,
    ⟨{ State.reset with dispHalt := true }, rfl⟩, by decide +kernel, rfl, by decide +kernel, by decide +kernel, by decide,
    ⟨_, rfl, by decide⟩⟩

/-- A core free and one that is not; a panel at P, and one that is not; a core whose image is written last; a barrier not released and one
released; a fence with a write due, and one without. -/
theorem wit_DispatchSteps_5 :
    ((onCore onePanel).panelOn 0 = some onePanel ∧ (onCore onePanel).nextFree ≠ some 0) ∧
    (∃ s : State, (s.panelOn 0).isSome = true ∧ s.nextFree = some 0) ∧
    (onePanel.atP = false ∧ ∃ p : Panel, (onCore p).panel? 0 = some p ∧ p.atP = true) ∧
    (∃ (s : State) (p : Panel) (v : Saved), s.panel? 0 = some p ∧ (s.saved.find? fun v => v.panel.pid == 0) = some v ∧ 0 ∈ p.cores ∧
      p.st = .saved ∧ 0 ∉ v.complete ∧ s.drained 0 = true ∧ s.settled v = true ∧ (s.core 0).panel = some 0 ∧ v.complete.length + 1 = v.cores.length) ∧
    (∃ (s : State) (p : Panel), s.panel? 0 = some p ∧ s.barReleaseAt p = some (0, 16) ∧ p.pcyc < 16) ∧
    (∃ (s : State) (p : Panel), s.panel? 0 = some p ∧ s.barReleaseAt p = some (0, 16) ∧ 16 ≤ p.pcyc) ∧
    (∃ s : State, (s.ctx 0 1).wait = .fence 4 9 2 ∧ s.coveredDue 0 1 2 4 = false) ∧
    (∃ s : State, (s.ctx 0 1).wait = .fence 2 9 2 ∧ s.coveredDue 0 1 2 2 = true) := by
  refine ⟨by decide, ⟨onCore { onePanel with st := .failed }, by decide⟩,
    ⟨by decide, { onePanel with frozen := true, preempt := some 1, pcyc := 1 }, by decide⟩,
    ⟨{ onCore { onePanel with st := .saved } with saved := [savedAs [CoreSt.idle] []] }, _, _, rfl, rfl, by decide⟩,
    ⟨(onCore { onePanel with arrivals := [⟨0, 0, 0⟩] }).updCtx 0 0 fun x => { x with wait := .bar }, _, rfl, by decide⟩,
    ⟨(onCore { onePanel with arrivals := [⟨0, 0, 0⟩], pcyc := 16 }).updCtx 0 0 fun x => { x with wait := .bar }, _, rfl, by decide⟩,
    ⟨holder.updCtx 0 1 fun x => { x with wait := .fence 4 9 2 }, by decide⟩,
    ⟨{ (onCore { onePanel with pcyc := 3 }).updCtx 0 1 fun x => { x with wait := .fence 2 9 2 } with
        pend := [⟨.panel 0, 9, false, ⟨0, 1, 0, 0, 0, 1⟩, .spStore 0 [5]⟩] }, by decide⟩⟩

/-- The last Gramer port and one past it; a package alone, a root of two and a package that follows; a start marker that it takes, one it does
not, and one after LOST; a sync marker on REFPORT, and on another port. -/
theorem wit_HedgeSteps :
    (31 < State.reset.gramer ∧ 32 ≥ State.reset.gramer ∧ 2049 > 2048) ∧ (State.reset.scyc % 175000 = 0 ∧ 1 % 175000 ≠ 0) ∧ State.reset.npkg = 1 ∧ ((ctlIs offSyncctl 0x202).npkg ≠ 1 ∧ (ctlIs offSyncctl 0x202).isRoot = true) ∧
    ((ctlIs offSyncctl 0x200).npkg ≠ 1 ∧ (ctlIs offSyncctl 0x200).isRoot = false ∧ (ctlIs offSyncctl 0x200).hedgeLoaded = false) ∧
    (∃ s : State, s.npkg ≠ 1 ∧ s.isRoot = false ∧ s.hedgeLoaded = true) ∧ State.reset.portUp 3 = false ∧
    (∃ s : State, s.portUp 31 = true ∧ s.isRoot = false ∧ s.npkg ≠ 1 ∧ s.lowerMarker 31 = false ∧ s.hedgeLoaded = false) ∧
    (∃ s : State, s.portUp 31 = true ∧ s.isRoot = false ∧ s.npkg ≠ 1 ∧ s.lowerMarker 31 = false ∧ s.hedgeLoaded = true ∧
      (spGet 0 s.drift 0).getLsbD 39 = true) ∧
    (∃ s : State, s.portUp 31 = true ∧ s.isRoot = false ∧ s.npkg ≥ 2 ∧ s.hedgeLoaded = true ∧ fld (spGet 0 s.drift 0).toNat 32 5 = 31) ∧
    (∃ s : State, fld (spGet 0 s.drift 0).toNat 32 5 ≠ 31) ∧ (∀ p ∈ State.reset.panels, p.hedge = false) ∧
    (holder.panel? 0 = some onePanel ∧ onePanel.st = .running ∧ placed.st ≠ .running ∧ placed.st ≠ .ended ∧ placed.st = .placed) ∧ (State.reset.scyc % 8192 = 0 ∧ 1 % 8192 ≠ 0) ∧ State.reset.power10.length ≤ 10 ∧
    ((120#8).toNat ≥ 120 ∧ (119#8).toNat < 120 ∧ (105#8).toNat ≥ State.reset.ctlFld offTemp 16 8 ∧ State.reset.hot = false ∧
      (94#8).toNat < State.reset.ctlFld offTemp 16 8 ∧ (94#8).toNat < State.reset.ctlFld offTemp 8 8) :=
  ⟨by decide, by decide, by decide, by decide, by decide, ⟨{ ctlIs offSyncctl 0x200 with hedgeLoaded := true }, by decide⟩, by decide,
    ⟨{ ctlIs offSyncctl 0x200 with linklat := [(31, 0x10020)] }, by decide⟩,
    ⟨{ ctlIs offSyncctl 0x200 with linklat := [(31, 0x10020)], hedgeLoaded := true, drift := [(0, 0x8000000000)] }, by decide⟩,
    ⟨{ ctlIs offSyncctl 0x200 with linklat := [(31, 0x10020)], hedgeLoaded := true, drift := [(0, 0x1F00000000)] }, by decide⟩,
    ⟨State.reset, by decide⟩, by decide, by decide, by decide, by decide, by decide⟩

/-! ## What holds of every step -/

theorem wit_NothingStops : State.reset.power = true ∧ ∃ s : State, s.power = false ∧ ∀ x ∈ s.agenda, x.ev = .instr .fundamentalReset → s.schedDue x = false :=
  ⟨rfl, { State.reset with power := false }, rfl, by decide⟩

theorem wit_ScheduleCountKept : goesOn (exec (.add 0 1 2 3) holder) = true ∧ Instr.add 0 1 2 3 ≠ .fundamentalReset ∧
    ∀ port v, Instr.add 0 1 2 3 ≠ .startMarker port v := ⟨by decide, by decide, by intro _ _ h; cases h⟩

theorem wit_MemoryStaysCanonical : Memory.wf fetching = true ∧ goesOn (step fetching) = true := by decide

end Sys2Proof.Tests
end

section
/-!
PROOF. The order of what happens in a cycle (log 5): one equation of `nextWith` for each thing that may come next, what the step makes of an
entry of the agenda, and the order of a step.
-/
namespace Sys2Proof.Machine

variable {s : State} {ex : Instr → State → Out} {x : Sched}

/-! ## An entry of the agenda -/

theorem State.takeEntry_of_isStep {i : Instr} (hx : x.ev = .instr i) (hi : Instr.isStep i = true) :
    s.takeEntry ex x = ex i { s with agenda := s.agenda.erase x } := by
  simp [State.takeEntry, hx, hi]

theorem State.takeEntry_of_input (hx : ∀ i, x.ev ≠ .instr i) :
    s.takeEntry ex x = .next (({ s with agenda := s.agenda.erase x } : State).input x.ev) := by
  unfold State.takeEntry
  split
  next i h => exact absurd h (hx i)
  next => rfl

/-! ## What happens next, in order -/

theorem nextWith_of_entry (h : s.nextEntry false = some x) : nextWith ex s = s.takeEntry ex x := by
  simp only [nextWith, h]

section NoEntry

variable (hentry : s.nextEntry false = none)
include hentry

theorem nextWith_of_event {i : Instr} (h : s.nextEvent = some i) : nextWith ex s = ex i s := by
  simp only [nextWith, hentry, h]

variable (hevent : s.nextEvent = none)
include hevent

/-- R116: the bundle of the context that is next to issue comes before the traps found. -/
theorem nextWith_of_issue {c k : Nat} (h : s.nextIssue = some (c, k)) : nextWith ex s = s.issueWith ex c k := by
  simp only [nextWith, hentry, hevent, h]

variable (hissue : s.nextIssue = none)
include hissue

theorem nextWith_of_trap {c k : Nat} (h : s.nextTrap = some (c, k)) :
    nextWith ex s = .next (s.takeFirst c k (s.ctx c k).cands) := by
  simp only [nextWith, hentry, hevent, hissue, h]

variable (htrap : s.nextTrap = none)
include htrap

theorem nextWith_of_queueDue (h : s.queueDue = true) : nextWith ex s = .next s.queuePhase := by
  simp only [nextWith, hentry, hevent, hissue, htrap, h, if_true]

variable (hqueue : s.queueDue = false)
include hqueue

theorem nextWith_of_lateEntry (h : s.nextEntry true = some x) : nextWith ex s = s.takeEntry ex x := by
  simp only [nextWith, hentry, hevent, hissue, htrap, hqueue, h, Bool.false_eq_true, if_false]

theorem nextWith_of_noLateEntry (h : s.nextEntry true = none) : nextWith ex s = .next s.tick := by
  simp only [nextWith, hentry, hevent, hissue, htrap, hqueue, h, Bool.false_eq_true, if_false]

end NoEntry

/-! ## One step of a powered machine -/

section Powered

variable (hpower : s.power = true)
include hpower

/-- With power, a step is what happens next, after which no bundle is in hand. -/
theorem step_of_nextWith {o : Out} (h : nextWith exec s = o) : step s = settle o := by
  simp only [step, stepWith, hpower, if_true, h]

/-- An entry that is taken: a step of the part runs by its meaning, an input by its effect. -/
theorem step_of_takeEntry (h : nextWith exec s = s.takeEntry exec x) :
    (∀ i, x.ev = .instr i → Instr.isStep i = true → step s = settle (exec i { s with agenda := s.agenda.erase x })) ∧
    ((∀ i, x.ev ≠ .instr i) →
      step s = .next { ({ s with agenda := s.agenda.erase x } : State).input x.ev with cur := .none }) :=
  ⟨fun _ hx hi => step_of_nextWith hpower (h.trans (State.takeEntry_of_isStep hx hi)),
    fun hx => step_of_nextWith hpower (h.trans (State.takeEntry_of_input hx))⟩

end Powered

/-- Settles O49: each alternative is the equation of `nextWith` for what comes next, settled. -/
theorem stepOrder : Obligations.StepOrder := by
  intro s hpower
  refine ⟨fun x hx => ?entry, fun hentry => ⟨fun i hi => ?event, fun hevent hissue => ⟨fun c k hck => ?trap, fun htrap =>
    ⟨fun hqueue => ?queue, fun hqueue => ⟨fun x hx => ?late, fun hlate => ?tick⟩⟩⟩⟩⟩
  case entry => exact step_of_takeEntry hpower (nextWith_of_entry hx)
  case event => exact step_of_nextWith hpower (nextWith_of_event hentry hi)
  case trap => exact step_of_nextWith hpower (nextWith_of_trap hentry hevent hissue hck)
  case queue => exact step_of_nextWith hpower (nextWith_of_queueDue hentry hevent hissue htrap hqueue)
  case late => exact step_of_takeEntry hpower (nextWith_of_lateEntry hentry hevent hissue htrap hqueue hx)
  case tick => exact step_of_nextWith hpower (nextWith_of_noLateEntry hentry hevent hissue htrap hqueue hlate)

end Sys2Proof.Machine
end

section
/-!
PROOF. The memory controllers (03): the slot table, refresh and the slots that maintenance takes, the self-test, parking.
-/
namespace Sys2Proof.Machine

variable {s : State} {part pc : Nat}

/-! ## What leaves all but the control space alone -/

theorem OnlyCtl.trans {s t u : State} (h : OnlyCtl s t) (g : OnlyCtl t u) : OnlyCtl s u :=
  (congrArg (fun x : State => { x with ctl := s.ctl }) g).trans h

/-! ## The slot table (R41) -/

theorem State.slotCheck_lt (s : State) (j : Nat) : s.slotCheck j < 4 := by
  unfold State.slotCheck
  dsimp only
  split
  · omega
  · split
    · omega
    · split <;> omega

theorem commit_busy (hbusy : s.ctlFld (offMemctl part) 1 1 = 1) : Stays (.commit part) s :=
  congrArg Host.Outcome.next (if_pos hbusy)

/-- The registers after a check that is not ignored. -/
def State.committed (s : State) (part : Nat) : State :=
  let s1 := s.ctlSetFld (offMemctl part) 2 2 (s.slotCheck part)
  if s.slotCheck part = 0 then s1.ctlSetFld (offMemctl part) 1 1 1 else s1

theorem exec_commit_idle (hidle : s.ctlFld (offMemctl part) 1 1 = 0) : exec (.commit part) s = .next (s.committed part) := by
  change execCommit part s = _
  rw [execCommit, if_neg (by omega)]
  rfl

/-- The check's result stands in CSTAT, and BUSY tells whether a switch is due. -/
theorem commit_idle (hidle : s.ctlFld (offMemctl part) 1 1 = 0) : Does (.commit part) s fun t => OnlyCtl s t ∧
    t.ctlFld (offMemctl part) 2 2 = s.slotCheck part ∧ (∀ o, o ≠ offMemctl part → t.ctlGet o = s.ctlGet o) ∧
    t.ctlFld (offMemctl part) 1 1 = (if s.slotCheck part = 0 then 1 else 0) := by
  have hlt := s.slotCheck_lt part
  refine ⟨_, exec_commit_idle hidle, ?_⟩
  dsimp only [State.committed]
  by_cases hc : s.slotCheck part = 0
  · rw [if_pos hc, if_pos hc]
    refine ⟨OnlyCtl.trans (State.onlyCtl_set ..) (State.onlyCtl_set ..), ?_, fun o ho => ?_, ?_⟩
    · rw [State.ctlFld_set_apart _ _ _ _ _ _ _ (by omega) (by omega), State.ctlFld_set_same _ _ _ _ _ (by omega), hc, Nat.zero_mod]
    · rw [State.ctlSetFld, State.ctlGet_ctlSet_ne _ _ ho, State.ctlSetFld, State.ctlGet_ctlSet_ne _ _ ho]
    · exact State.ctlFld_set_same _ _ _ _ _ (by omega)
  · rw [if_neg hc, if_neg hc]
    refine ⟨State.onlyCtl_set .., ?_, fun o ho => State.ctlGet_ctlSet_ne _ _ ho, ?_⟩
    · rw [State.ctlFld_set_same _ _ _ _ _ (by omega)]
      exact Nat.mod_eq_of_lt hlt
    · rw [State.ctlFld_set_apart _ _ _ _ _ _ _ (by omega) (by omega), hidle]

theorem State.liveWord_setLive (s : State) (off o : Nat) (w : Word) :
    (s.setLive off w).liveWord o = if o = off then w else s.liveWord o := by
  unfold State.liveWord State.setLive
  rw [spGet_put]
  by_cases h : o = off
  · subst h
    by_cases hw : w = ctlReset s.variant o <;> simp [hw]
  · simp [h]

theorem offMemslot_inj {j i k : Nat} : offMemslot j i = offMemslot j k ↔ i = k := by
  unfold offMemslot
  omega

/-- The shadow words of some slots copied to the live table. -/
def State.copySlots (s : State) (part : Nat) (l : List Nat) : State :=
  l.foldl (fun s i => s.setLive (offMemslot part i) (s.ctlGet (offMemslot part i))) s

theorem State.copySlots_eq (s : State) (part : Nat) (l : List Nat) : ∃ m, s.copySlots part l = { s with live := m } := by
  induction l generalizing s with
  | nil => exact ⟨s.live, rfl⟩
  | cons i l ih =>
    obtain ⟨m, hm⟩ := ih (s.setLive (offMemslot part i) (s.ctlGet (offMemslot part i)))
    exact ⟨m, hm⟩

theorem State.liveWord_copySlots (s : State) (part : Nat) (l : List Nat) (n : Nat) :
    (s.copySlots part l).liveWord (offMemslot part n) =
      if n ∈ l then s.ctlGet (offMemslot part n) else s.liveWord (offMemslot part n) := by
  induction l generalizing s with
  | nil => simp [State.copySlots]
  | cons i l ih =>
    refine (ih (s.setLive (offMemslot part i) (s.ctlGet (offMemslot part i)))).trans ?_
    rw [State.liveWord_setLive]
    change (if n ∈ l then s.ctlGet (offMemslot part n) else _) = _
    by_cases hi : n = i
    · subst hi
      simp
    · simp [offMemslot_inj, hi]

theorem exec_slotTableSwitch_due (hbusy : s.ctlFld (offMemctl part) 1 1 = 1) (hidle : s.partIdle part = true)
    (hcyc : s.scyc % 320 = 0) :
    exec (.slotTableSwitch part) s = .next ((s.ctlSetFld (offMemctl part) 1 1 0).copySlots part (List.range 8)) := by
  change execSlotTableSwitch part s = _
  rw [execSlotTableSwitch, if_pos ⟨hbusy, hidle, hcyc⟩]
  rfl

theorem slotCode_copySlots (s : State) (part n : Nat) (hn : n < 64) :
    (s.copySlots part (List.range 8)).slotCode part n = fld (s.ctlGet (offMemslot part (n / 8))).toNat (8 * (n % 8)) 8 := by
  have hmem : n / 8 ∈ List.range 8 := List.mem_range.2 (by omega)
  rw [State.slotCode, State.liveWord_copySlots, if_pos hmem]

theorem slotTableSwitch_due (hbusy : s.ctlFld (offMemctl part) 1 1 = 1) (hidle : s.partIdle part = true) (hcyc : s.scyc % 320 = 0) :
    Does (.slotTableSwitch part) s fun t => { t with ctl := s.ctl, live := s.live } = s ∧ SetsField s t (offMemctl part) 1 1 0 ∧
      ∀ n < 64, t.slotCode part n = fld (s.ctlGet (offMemslot part (n / 8))).toNat (8 * (n % 8)) 8 := by
  have hset := s.setsField (offMemctl part) 1 1 0 (by omega)
  have hcode := fun n => slotCode_copySlots (s.ctlSetFld (offMemctl part) 1 1 0) part n
  refine ⟨_, exec_slotTableSwitch_due hbusy hidle hcyc, ?_⟩
  obtain ⟨m, hm⟩ := (s.ctlSetFld (offMemctl part) 1 1 0).copySlots_eq part (List.range 8)
  rw [hm] at hcode ⊢
  refine ⟨rfl, hset, fun n hn => ?_⟩
  have hoff : offMemslot part (n / 8) ≠ offMemctl part := by unfold offMemslot offMemctl; omega
  rw [hcode n hn, hset.2 _ hoff]

theorem slotTableSwitch_early (h : s.ctlFld (offMemctl part) 1 1 = 0 ∨ s.partIdle part = false ∨ s.scyc % 320 ≠ 0) :
    Stays (.slotTableSwitch part) s := by
  refine congrArg Host.Outcome.next (if_neg fun ⟨hbusy, hidle, hcyc⟩ => ?_)
  rcases h with h | h | h
  · omega
  · rw [h] at hidle; cases hidle
  · exact h hcyc

/-! ## Slots taken for maintenance (R43) -/

theorem State.pch_setPch (s : State) (c d : Nat) (x : PchSt) : (s.setPch c x).pch d = if d = c then x else s.pch d :=
  spGet_put _ _ _ _ _

@[simp] theorem State.pch_setPch_same (s : State) (c : Nat) (x : PchSt) : (s.setPch c x).pch c = x := spGet_put_same _ _ _ _

/-- The least element of a rising list with a property is the one that is found. -/
theorem find?_of_least {l : List Nat} {p : Nat → Bool} {g : Nat} (hl : l.Pairwise (· < ·)) (hg : g ∈ l) (hp : p g = true)
    (hleast : ∀ h ∈ l, p h = true → g ≤ h) : l.find? p = some g := by
  induction l with
  | nil => cases hg
  | cons x l ih =>
    obtain ⟨hx, hl⟩ := List.pairwise_cons.1 hl
    rcases List.mem_cons.1 hg with rfl | hg
    · simp [hp]
    · have hpx : ¬p x = true := fun h => absurd (hleast x (List.mem_cons_self ..) h) (by have := hx g hg; omega)
      rw [List.find?_cons_of_neg hpx]
      exact ih hl hg fun h hh => hleast h (List.mem_cons_of_mem _ hh)

/-- A tenant slot of the frame ahead that no admitted request of a pseudo-channel holds. -/
def State.SlotAhead (s : State) (part pc g : Nat) : Prop :=
  s.scyc < g ∧ g % 5 = 0 ∧ g ≤ 5 * (s.scyc / 5 + 64) ∧ s.slotCode part (slotAt g) < 16 ∧
    ∀ r ∈ s.reqs, r.pch = pc → r.sigma ≠ some (g : Int)

/-- The 64 slot starts that follow this cycle. -/
def State.slotsAhead (s : State) : List Nat := (List.range 64).map fun i => 5 * (s.scyc / 5 + 1 + i)

/-- A slot start suits maintenance of a pseudo-channel. -/
def State.slotOpen (s : State) (part pc g : Nat) : Bool :=
  decide (s.slotCode part (slotAt g) < 16) && s.reqs.all fun r => r.pch != pc || r.sigma != some (g : Int)

theorem State.mem_slotsAhead {g : Nat} : g ∈ s.slotsAhead ↔ s.scyc < g ∧ g % 5 = 0 ∧ g ≤ 5 * (s.scyc / 5 + 64) := by
  simp only [State.slotsAhead, List.mem_map, List.mem_range]
  constructor
  · rintro ⟨i, hi, rfl⟩
    omega
  · rintro ⟨h1, h2, h3⟩
    exact ⟨g / 5 - (s.scyc / 5 + 1), by omega, by omega⟩

theorem State.slotAhead_iff {g : Nat} : s.SlotAhead part pc g ↔ g ∈ s.slotsAhead ∧ s.slotOpen part pc g = true := by
  simp only [State.SlotAhead, State.mem_slotsAhead, State.slotOpen, Bool.and_eq_true, decide_eq_true_eq, List.all_eq_true,
    Bool.or_eq_true, bne_iff_ne, and_assoc, ne_eq, Decidable.imp_iff_not_or]

theorem State.slotsAhead_rising (s : State) : s.slotsAhead.Pairwise (· < ·) :=
  List.pairwise_map.2 (List.pairwise_lt_range.imp fun h => by omega)

theorem State.takeSlot_eq (s : State) (part pc : Nat) : s.takeSlot part pc =
    if (s.pch pc).due.length > 2 ∧ !(s.pch pc).taken.any (fun g => decide (g > s.scyc)) then
      (s.slotsAhead.find? (s.slotOpen part pc)).elim s fun g => s.setPch pc { s.pch pc with taken := [g] }
    else s := by
  unfold State.takeSlot
  dsimp only
  split
  · split
    next g hg => rw [show s.slotsAhead.find? (s.slotOpen part pc) = some g from hg]; rfl
    next hn => rw [show s.slotsAhead.find? (s.slotOpen part pc) = none from hn]; rfl
  · rfl

theorem State.takeSlot_kept (h : (s.pch pc).due.length ≤ 2 ∨ ∃ g ∈ (s.pch pc).taken, g > s.scyc) : s.takeSlot part pc = s := by
  rw [State.takeSlot_eq]
  refine if_neg fun ⟨hlen, hnone⟩ => ?_
  rcases h with h | ⟨g, hg, hlt⟩
  · omega
  · simp only [Bool.not_eq_true', List.any_eq_false, decide_eq_true_eq] at hnone
    exact hnone g hg hlt

theorem State.takeSlot_full (h : ∀ g, ¬s.SlotAhead part pc g) : s.takeSlot part pc = s := by
  have hnone : s.slotsAhead.find? (s.slotOpen part pc) = none :=
    List.find?_eq_none.2 fun g hg hopen => h g (State.slotAhead_iff.2 ⟨hg, hopen⟩)
  rw [State.takeSlot_eq, hnone]
  exact ite_self s

theorem State.takeSlot_first {g : Nat} (hlen : (s.pch pc).due.length > 2) (htaken : ∀ g ∈ (s.pch pc).taken, g ≤ s.scyc)
    (hg : s.SlotAhead part pc g) (hleast : ∀ h, s.SlotAhead part pc h → g ≤ h) :
    s.takeSlot part pc = s.setPch pc { s.pch pc with taken := [g] } := by
  obtain ⟨hmem, hopen⟩ := State.slotAhead_iff.1 hg
  have hfind : s.slotsAhead.find? (s.slotOpen part pc) = some g :=
    find?_of_least s.slotsAhead_rising hmem hopen fun h hm ho => hleast h (State.slotAhead_iff.2 ⟨hm, ho⟩)
  have hnone : (!(s.pch pc).taken.any fun g => decide (g > s.scyc)) = true := by
    simpa using htaken
  rw [State.takeSlot_eq, if_pos ⟨hlen, hnone⟩, hfind]
  rfl

/-- A slot taken changes the slots of its pseudo-channel alone. -/
theorem State.takeSlot_frame (s : State) (part pc : Nat) : { s.takeSlot part pc with pchs := s.pchs } = s ∧
    { (s.takeSlot part pc).pch pc with taken := (s.pch pc).taken } = s.pch pc ∧ ∀ c, c ≠ pc → (s.takeSlot part pc).pch c = s.pch c := by
  rw [State.takeSlot_eq]
  split
  · cases s.slotsAhead.find? (s.slotOpen part pc) with
    | none => exact ⟨rfl, rfl, fun _ _ => rfl⟩
    | some g =>
      refine ⟨rfl, ?_, fun c hc => ?_⟩
      · rw [Option.elim_some, State.pch_setPch_same]
      · rw [Option.elim_some, State.pch_setPch, if_neg hc]
  · exact ⟨rfl, rfl, fun _ _ => rfl⟩

/-! ## Refresh commands (R42, R43) -/

/-- A maintenance command that has become due, with the next bank to refresh. -/
def State.putDue (s : State) (pc : Nat) (first : Bool × Nat) (next : Nat) : State :=
  s.setPch pc { s.pch pc with due := (s.pch pc).due ++ [first], nextBank := next }

theorem exec_refreshDue {i : Instr} {first : Bool × Nat} {next : Nat}
    (h : (i = .perBankRefreshDue part pc ∧ first = (false, (s.pch pc).nextBank) ∧ next = ((s.pch pc).nextBank + 1) % 32) ∨
      ∃ bank, i = .refreshManagementDue part pc bank ∧ first = (true, bank) ∧ next = (s.pch pc).nextBank) :
    exec i s = .next ((s.putDue pc first next).takeSlot part pc) := by
  rcases h with ⟨rfl, rfl, rfl⟩ | ⟨bank, rfl, rfl, rfl⟩ <;> rfl

/-- A command due waits, and where two wait before it a slot of the frame is taken for them. -/
theorem refreshDue_waits {i : Instr} {first : Bool × Nat} {next : Nat}
    (hi : exec i s = .next ((s.putDue pc first next).takeSlot part pc)) :
    Does i s fun t => { t with pchs := s.pchs } = s ∧ (t.pch pc).due = (s.pch pc).due ++ [first] ∧ (t.pch pc).nextBank = next ∧
      (t.pch pc).acts = (s.pch pc).acts ∧ (∀ c, c ≠ pc → t.pch c = s.pch c) ∧
      ((s.pch pc).due.length < 2 ∨ (∃ g ∈ (s.pch pc).taken, g > s.scyc) → (t.pch pc).taken = (s.pch pc).taken) ∧
      ((s.pch pc).due.length ≥ 2 → (∀ g ∈ (s.pch pc).taken, g ≤ s.scyc) →
        (∀ g, s.SlotAhead part pc g → (∀ h, s.SlotAhead part pc h → g ≤ h) → (t.pch pc).taken = [g]) ∧
        ((∀ g, ¬s.SlotAhead part pc g) → (t.pch pc).taken = (s.pch pc).taken)) := by
  let u := s.putDue pc first next
  have hu : u.pch pc = { s.pch pc with due := (s.pch pc).due ++ [first], nextBank := next } := State.pch_setPch_same ..
  have hlen : (u.pch pc).due.length = (s.pch pc).due.length + 1 := by rw [hu]; exact List.length_append
  have htaken : (u.pch pc).taken = (s.pch pc).taken := by rw [hu]
  obtain ⟨hframe, hpch, hother⟩ := u.takeSlot_frame part pc
  refine ⟨_, hi, congrArg (fun t : State => { t with pchs := s.pchs }) hframe, ?_, ?_, ?_, fun c hc => ?_, fun h => ?_,
    fun h2 hold => ⟨fun g hg hleast => ?_, fun hfull => ?_⟩⟩
  · exact (congrArg PchSt.due hpch).trans (by rw [hu])
  · exact (congrArg PchSt.nextBank hpch).trans (by rw [hu])
  · exact (congrArg PchSt.acts hpch).trans (by rw [hu])
  · exact (hother c hc).trans ((State.pch_setPch s pc c _).trans (if_neg hc))
  · rw [State.takeSlot_kept (s := u) (h.imp (by omega) (by rw [htaken]; exact id)), htaken]
  · rw [State.takeSlot_first (s := u) (by omega) (by rw [htaken]; exact hold) hg hleast, State.pch_setPch_same]
  · rw [State.takeSlot_full (s := u) hfull, htaken]

/-! ## Maintenance slots (R43, R48) -/

/-- What a maintenance slot of a pseudo-channel serves first. -/
def PchSt.firstDue (x : PchSt) : Option (Bool × Nat) := (x.due.find? fun d => d.1).or x.due.head?

/-- The maintenance state after a command is served in this cycle. -/
def State.serveDue (s : State) (part pc : Nat) (d : Bool × Nat) : State :=
  let x := s.pch pc
  s.setPch pc { x with
    due := x.due.erase d
    acts := spPut 0 x.acts d.2 (spGet 0 x.acts d.2 - s.ctlFld (offRmctl part) (if d.1 then 20 else 10) 10)
    taken := x.taken.filter fun g => decide (g > s.scyc) }

theorem exec_maintenanceSlot (s : State) (part pc : Nat) :
    exec (.maintenanceSlot part pc) s = .next ((s.pch pc).firstDue.elim (s.testStep part pc) (s.serveDue part pc)) := by
  change execMaintenanceSlot part pc s = _
  simp only [execMaintenanceSlot, PchSt.firstDue]
  cases (s.pch pc).due.find? (fun d => d.1) with
  | some d => rfl
  | none => cases (s.pch pc).due.head? <;> rfl

/-- A command served leaves its queue and lowers the activation count of its bank. -/
theorem maintenanceSlot_command {d : Bool × Nat} (hd : (s.pch pc).firstDue = some d) :
    Does (.maintenanceSlot part pc) s fun t => { t with pchs := s.pchs } = s ∧
      (t.pch pc).due = (s.pch pc).due.erase d ∧ (t.pch pc).nextBank = (s.pch pc).nextBank ∧ (∀ c, c ≠ pc → t.pch c = s.pch c) ∧
      (∀ b, spGet 0 (t.pch pc).acts b = if b = d.2 then
        spGet 0 (s.pch pc).acts b - s.ctlFld (offRmctl part) (if d.1 then 20 else 10) 10 else spGet 0 (s.pch pc).acts b) := by
  refine ⟨s.serveDue part pc d, by rw [exec_maintenanceSlot, hd]; rfl, rfl, ?_, ?_, fun c hc => ?_, fun b => ?_⟩
  · rw [State.serveDue, State.pch_setPch_same]
  · rw [State.serveDue, State.pch_setPch_same]
  · rw [State.serveDue, State.pch_setPch, if_neg hc]
  · rw [State.serveDue, State.pch_setPch_same, spGet_put]
    by_cases hb : b = d.2
    · rw [if_pos hb, if_pos hb, hb]
    · rw [if_neg hb, if_neg hb]

theorem PchSt.firstDue_nil {x : PchSt} (h : x.due = []) : x.firstDue = none := by
  simp [PchSt.firstDue, h]

theorem exec_maintenanceSlot_idle (hdue : (s.pch pc).due = []) : exec (.maintenanceSlot part pc) s = .next (s.testStep part pc) := by
  rw [exec_maintenanceSlot, PchSt.firstDue_nil hdue]
  rfl

theorem maintenanceSlot_stays (hdue : (s.pch pc).due = [])
    (htest : (s.tests.find? fun x => x.1 == part && pchOf x.2.1 == pc) = none) : Stays (.maintenanceSlot part pc) s := by
  rw [Stays, exec_maintenanceSlot_idle hdue, State.testStep, htest]

/-- A fault-address entry is planned for this cycle; it names its class. -/
theorem State.faqLog_eq (s : State) (part cls : Nat) (place : Option Nat) (paddr : Nat) (ten : Option Nat) :
    ∃ e : BitVec 128, e.extractLsb' 1 4 = BitVec.ofNat 4 cls ∧
      s.faqLog part cls place paddr ten = { s with agenda := s.plan s.scyc (.faultAddressEntry part e) } := by
  refine ⟨_, ?_, rfl⟩
  apply BitVec.eq_of_toNat_eq
  rw [BitVec.extractLsb'_toNat, BitVec.toNat_ofNat, BitVec.toNat_ofNat, Nat.shiftRight_eq_div_pow]
  omega

/-- A row tested is logged if it fails. -/
theorem State.testStep_eq {j : Nat} {b : BankId} {row : Nat} {bad : Bool}
    (h : (s.tests.find? fun x => x.1 == part && pchOf x.2.1 == pc) = some (j, b, row, bad)) :
    ∃ (a : List Sched) (f : Bool), (bad = true → f = true) ∧ s.testStep part pc =
      if row + 1 = 16384 then
        ({ s with agenda := a, tests := s.tests.filter fun x => x.1 != part } : State).setTstat part (if f then 3 else 2)
      else { s with agenda := a, tests := (s.tests.filter fun x => x.1 != part) ++ [(part, b, row + 1, f)] } := by
  have hj : j = part := by
    have := List.find?_some h
    simp only [Bool.and_eq_true, beq_iff_eq] at this
    exact this.1
  subst hj
  unfold State.testStep
  simp only [h]
  cases Config.rowFails s.scyc row with
  | false => exact ⟨s.agenda, bad, id, rfl⟩
  | true =>
    obtain ⟨e, -, he⟩ := s.faqLog_eq j 4 (some (s.rowAddr j b row)) (s.rowAddr j b row) none
    simp only [if_true, Bool.true_or, he]
    exact ⟨_, true, fun _ => rfl, rfl⟩

theorem State.tstat_setTstat (s : State) (j v : Nat) : (s.setTstat j v).ctlFld (offParksel j) 18 2 = v % 4 :=
  State.ctlFld_set_same _ _ _ _ _ (by omega)

theorem maintenanceSlot_test {j : Nat} {b : BankId} {row : Nat} {bad : Bool} (hdue : (s.pch pc).due = [])
    (htest : (s.tests.find? fun x => x.1 == part && pchOf x.2.1 == pc) = some (j, b, row, bad)) :
    Does (.maintenanceSlot part pc) s fun t => { t with tests := s.tests, agenda := s.agenda, ctl := s.ctl } = s ∧
      (row + 1 ≠ 16384 → t.ctl = s.ctl ∧ ∃ f, (bad = true → f = true) ∧
        t.tests = (s.tests.filter fun x => x.1 != part) ++ [(part, b, row + 1, f)]) ∧
      (row + 1 = 16384 → t.tests = (s.tests.filter fun x => x.1 != part) ∧
        (t.ctlFld (offParksel part) 18 2 = 2 ∨ t.ctlFld (offParksel part) 18 2 = 3) ∧
        (bad = true → t.ctlFld (offParksel part) 18 2 = 3)) := by
  obtain ⟨a, f, hf, hstep⟩ := State.testStep_eq htest
  refine ⟨_, exec_maintenanceSlot_idle hdue, ?_⟩
  rw [hstep]
  by_cases hrow : row + 1 = 16384
  · rw [if_pos hrow]
    refine ⟨rfl, fun h => absurd hrow h, fun _ => ⟨rfl, ?_, fun hbad => ?_⟩⟩
    · rw [State.tstat_setTstat]
      cases f <;> simp
    · rw [State.tstat_setTstat, hf hbad]
      rfl
  · rw [if_neg hrow]
    exact ⟨rfl, fun _ => ⟨rfl, f, hf, rfl⟩, fun h => absurd h hrow⟩

/-! ## Parking and self-test (R47, R48) -/

theorem test_stays (h : s.parkedBank part = none ∨ ∃ x ∈ s.tests, x.1 = part) : Stays (.test part) s := by
  change execTest part s = _
  unfold execTest
  rcases hb : s.parkedBank part with _ | b
  · rfl
  · have hany : (s.tests.any fun t => t.1 == part) = true := by
      obtain h | ⟨x, hx, he⟩ := h
      · rw [hb] at h
        cases h
      · exact List.any_eq_true.2 ⟨x, hx, beq_iff_eq.2 he⟩
    simp only [hany, if_true]

theorem tests_any_false (h : ∀ t ∈ s.tests, t.1 ≠ part) : (s.tests.any fun t => t.1 == part) = false := by
  simpa [List.any_eq_false] using h

/-- A read of a map from which entries have been taken by their keys. -/
theorem spGet_filter {α : Type} (d : α) (m : Sparse α) (p : Nat → Bool) (k : Nat) :
    spGet d (m.filter fun e => p e.1) k = if p k then spGet d m k else d := by
  induction m with
  | nil => simp
  | cons e m ih =>
    obtain ⟨j, v⟩ := e
    by_cases hj : p j = true
    · rw [List.filter_cons_of_pos (p := fun e : Nat × α => p e.1) hj]
      by_cases hk : j = k
      · subst hk; simp [spGet, hj]
      · simp [spGet, hk, ih]
    · rw [List.filter_cons_of_neg (p := fun e : Nat × α => p e.1) hj, ih]
      by_cases hk : j = k
      · subst hk; simp [hj]
      · simp [spGet, hk]

/-- The state with a self-test of a bank begun, its contents lost. -/
def State.testBegun (s : State) (part : Nat) (b : BankId) : State :=
  let r := s.partRange part
  { s.makeUndef r.1 (r.1 + r.2) (some b) with tests := s.tests ++ [(part, b, 0, false)] }

theorem exec_test {b : BankId} (hb : s.parkedBank part = some b) (hnone : ∀ t ∈ s.tests, t.1 ≠ part) :
    exec (.test part) s = .next ((s.testBegun part b).setTstat part 1) := by
  change execTest part s = _
  unfold execTest
  simp only [hb, tests_any_false hnone, Bool.false_eq_true, if_false]
  rfl

/-- The bytes of the bank are gone. -/
theorem State.hbm_testBegun (s : State) (part : Nat) (b : BankId) (a : Nat) : spGet none (s.testBegun part b).hbm a =
    if (s.partRange part).1 ≤ a ∧ a < (s.partRange part).1 + (s.partRange part).2 ∧ (s.placeOf a).1 = b
      then none else spGet none s.hbm a := by
  have hkept := spGet_filter none s.hbm (fun a => !(decide ((s.partRange part).1 ≤ a) &&
    decide (a < (s.partRange part).1 + (s.partRange part).2) && ((s.placeOf a).1 == b))) a
  refine hkept.trans ?_
  by_cases hgone : (s.partRange part).1 ≤ a ∧ a < (s.partRange part).1 + (s.partRange part).2 ∧ (s.placeOf a).1 = b
  · rw [if_pos hgone]
    simp [hgone]
  · rw [if_neg hgone, if_pos]
    rw [Bool.not_eq_true', ← Bool.not_eq_true]
    simpa [and_assoc] using hgone

theorem test_begins {b : BankId} (hb : s.parkedBank part = some b) (hnone : ∀ t ∈ s.tests, t.1 ≠ part) :
    Does (.test part) s fun t =>
      { t with tests := s.tests, ctl := s.ctl, hbm := s.hbm, hbmPoison := s.hbmPoison, hbmFaulty := s.hbmFaulty,
               hbmUndef := s.hbmUndef, free := s.free } = s ∧
      t.tests = s.tests ++ [(part, b, 0, false)] ∧ SetsField s t (offParksel part) 18 2 1 ∧
      (∀ a, spGet none t.hbm a = if (s.partRange part).1 ≤ a ∧ a < (s.partRange part).1 + (s.partRange part).2 ∧ (s.placeOf a).1 = b
        then none else spGet none s.hbm a) := by
  have hbytes := s.hbm_testBegun part b
  have hbegun : ∃ m p f l n, s.testBegun part b = { s with
      hbm := m, hbmPoison := p, hbmFaulty := f, hbmUndef := l, free := n, tests := s.tests ++ [(part, b, 0, false)] } := ⟨_, _, _, _, _, rfl⟩
  refine ⟨_, exec_test hb hnone, ?_⟩
  generalize s.testBegun part b = u at hbytes hbegun
  obtain ⟨m, p, f, l, n, rfl⟩ := hbegun
  exact ⟨rfl, rfl, State.setsField _ (offParksel part) 18 2 1 (by omega), hbytes⟩

theorem exec_park_on (hsel : s.ctlFld (offParksel part) 3 7 < 96) :
    exec (.park part true) s = .next (s.ctlSetFld (offParksel part) 16 1 1) := by
  change execPark part true s = _
  unfold execPark
  exact congrArg Host.Outcome.next (if_neg (Nat.not_le.2 hsel))

theorem park_none (hsel : s.ctlFld (offParksel part) 3 7 ≥ 96) : Stays (.park part true) s := by
  change execPark part true s = _
  unfold execPark
  exact congrArg Host.Outcome.next (if_pos hsel)

theorem park_on (hsel : s.ctlFld (offParksel part) 3 7 < 96) :
    Does (.park part true) s fun t => OnlyCtl s t ∧ SetsField s t (offParksel part) 16 1 1 :=
  ⟨_, exec_park_on hsel, State.onlyCtl_set .., State.setsField _ _ _ _ _ (by omega)⟩

theorem exec_park_off (s : State) (part : Nat) :
    exec (.park part false) s = .next ((s.ctlSetFld (offParksel part) 16 1 0).stopTest part) := rfl

theorem State.stopTest_none (hnone : ∀ t ∈ s.tests, t.1 ≠ part) : s.stopTest part = s := by
  rw [State.stopTest, tests_any_false hnone]
  rfl

/-- A running test stops with TSTAT 3; nothing but the tests and TSTAT changes. -/
theorem State.stopTest_some (h : ∃ t ∈ s.tests, t.1 = part) : (s.stopTest part).ctlFld (offParksel part) 18 2 = 3 ∧
    (s.stopTest part).ctlFld (offParksel part) 16 1 = s.ctlFld (offParksel part) 16 1 ∧
    ∃ c, s.stopTest part = { s with ctl := c, tests := s.tests.filter fun t => t.1 != part } := by
  obtain ⟨t, ht, he⟩ := h
  have hany : (s.tests.any fun t => t.1 == part) = true := List.any_eq_true.2 ⟨t, ht, beq_iff_eq.2 he⟩
  rw [State.stopTest, if_pos hany]
  exact ⟨State.tstat_setTstat .., State.ctlFld_set_apart _ _ _ _ _ _ _ (by omega) (by omega), _, rfl⟩

theorem park_off (hnone : ∀ t ∈ s.tests, t.1 ≠ part) :
    Does (.park part false) s fun t => OnlyCtl s t ∧ SetsField s t (offParksel part) 16 1 0 :=
  ⟨_, (exec_park_off s part).trans (congrArg _ (State.stopTest_none hnone)), State.onlyCtl_set .., State.setsField _ _ _ _ _ (by omega)⟩

theorem park_off_stopsTest (h : ∃ t ∈ s.tests, t.1 = part) :
    Does (.park part false) s fun t => { t with ctl := s.ctl, tests := s.tests } = s ∧
      t.ctlFld (offParksel part) 16 1 = 0 ∧ t.ctlFld (offParksel part) 18 2 = 3 ∧ t.tests = s.tests.filter fun x => x.1 != part := by
  have hoff : (s.ctlSetFld (offParksel part) 16 1 0).ctlFld (offParksel part) 16 1 = 0 := State.ctlFld_set_same _ _ _ _ _ (by omega)
  have hset : ∃ c, s.ctlSetFld (offParksel part) 16 1 0 = { s with ctl := c } := ⟨_, rfl⟩
  refine ⟨_, exec_park_off s part, ?_⟩
  generalize s.ctlSetFld (offParksel part) 16 1 0 = u at hoff hset
  obtain ⟨c, rfl⟩ := hset
  obtain ⟨hstat, hpark, c', hstop⟩ := State.stopTest_some (s := { s with ctl := c }) h
  refine ⟨?_, hpark.trans hoff, hstat, ?_⟩ <;> rw [hstop]

end Sys2Proof.Machine
end

section
/-!
PROOF. HBM4E as bytes and poison tags: what a write of bytes, of a line under a mask and of a unit leaves in it, and what a read logs (R44).
-/
namespace Sys2Proof.Machine

variable {s t : State}

/-! ## Changes of main memory alone -/

/-- From s to t only main memory and the entries still to be written change. -/
abbrev OnlyHbm (s t : State) : Prop := ∃ a m p f, t = { s with agenda := a, hbm := m, hbmPoison := p, hbmFaulty := f }

theorem OnlyHbm.refl (s : State) : OnlyHbm s s := ⟨_, _, _, _, rfl⟩

theorem OnlyHbm.trans {u : State} (h : OnlyHbm s t) (g : OnlyHbm t u) : OnlyHbm s u := by
  obtain ⟨a, m, p, f, rfl⟩ := h
  obtain ⟨a, m, p, f, rfl⟩ := g
  exact ⟨a, m, p, f, rfl⟩

/-- Where contents are undefined does not depend on the contents. -/
theorem OnlyHbm.undefAt (h : OnlyHbm s t) (a : Nat) : t.undefAt a = s.undefAt a := by
  obtain ⟨_, _, _, _, rfl⟩ := h
  rfl

/-! ## Bytes -/

theorem State.hbmByte_congr {a : Nat} (hundef : t.undefAt a = s.undefAt a) (hbm : spGet none t.hbm a = spGet none s.hbm a) :
    t.hbmByte a = s.hbmByte a := by
  unfold State.hbmByte
  rw [hundef, hbm]

theorem State.onlyHbm_hbmSet (s : State) (a : Nat) (b : Byte) : OnlyHbm s (s.hbmSet a b) := ⟨_, _, _, _, rfl⟩

theorem State.hbmByte_hbmSet (s : State) (a x : Nat) (b : Byte) : (s.hbmSet a b).hbmByte x = if x = a then b else s.hbmByte x := by
  have hundef := (s.onlyHbm_hbmSet a b).undefAt x
  by_cases hx : x = a
  · subst hx
    rw [if_pos rfl, State.hbmByte, hundef, State.hbmSet, spGet_put_same]
    cases s.undefAt x with
    | some n => rfl
    | none =>
      by_cases hb : b = 0
      · subst hb
        rfl
      · rw [beq_eq_false_iff_ne.2 hb]
        rfl
  · rw [if_neg hx]
    exact State.hbmByte_congr hundef (spGet_put_ne _ _ _ hx)

theorem State.onlyHbm_hbmPut (s : State) (a : Nat) (ks : List Bool) (bs : List Byte) : OnlyHbm s (s.hbmPut a ks bs) := by
  induction ks generalizing s a bs with
  | nil => exact OnlyHbm.refl s
  | cons k ks ih =>
    cases bs with
    | nil => exact OnlyHbm.refl s
    | cons b bs =>
      cases k
      · exact ih s _ bs
      · exact (s.onlyHbm_hbmSet a b).trans (ih _ _ bs)

/-- Bytes before a store of bytes stand. -/
theorem State.hbmByte_hbmPut_below (s : State) {a x : Nat} (ks : List Bool) (bs : List Byte) (hx : x < a) :
    (s.hbmPut a ks bs).hbmByte x = s.hbmByte x := by
  induction ks generalizing s a bs with
  | nil => rfl
  | cons k ks ih =>
    cases bs with
    | nil => rfl
    | cons b bs =>
      rw [State.hbmPut, ih _ _ (by omega)]
      cases k
      · rfl
      · exact (s.hbmByte_hbmSet a x b).trans (if_neg (by omega))

/-- Byte i of a store under a mask. -/
theorem State.hbmByte_hbmPut (s : State) (a i : Nat) (ks : List Bool) (bs : List Byte) : (s.hbmPut a ks bs).hbmByte (a + i) =
    if ks.getD i false = true ∧ i < bs.length then bs.getD i 0 else s.hbmByte (a + i) := by
  induction ks generalizing s a i bs with
  | nil => simp [State.hbmPut]
  | cons k ks ih =>
    cases bs with
    | nil => simp [State.hbmPut]
    | cons b bs =>
      rw [State.hbmPut]
      cases i with
      | zero =>
        rw [State.hbmByte_hbmPut_below _ _ _ (by omega)]
        cases k <;> simp [State.hbmByte_hbmSet]
      | succ i =>
        rw [show a + (i + 1) = a + 1 + i by omega, ih]
        cases k <;> simp [State.hbmByte_hbmSet, show a + 1 + i ≠ a by omega]

@[simp] theorem State.hbmByte_setFaulty (s : State) (f : Sparse Bool) (x : Nat) :
    ({ s with hbmFaulty := f } : State).hbmByte x = s.hbmByte x := rfl

@[simp] theorem State.hbmByte_hbmSetTag (s : State) (a x : Nat) (b : Bool) : (s.hbmSetTag a b).hbmByte x = s.hbmByte x := rfl

/-! ## Poison tags -/

theorem State.onlyHbm_hbmSetTag (s : State) (a : Nat) (b : Bool) : OnlyHbm s (s.hbmSetTag a b) := ⟨_, _, _, _, rfl⟩

theorem State.hbmTag_hbmSetTag_same (s : State) {a x : Nat} (b : Bool) (h : x / 64 = a / 64) (hu : s.undefAt x = s.undefAt a) :
    (s.hbmSetTag a b).hbmTag x = b := by
  rw [State.hbmTag, (s.onlyHbm_hbmSetTag a b).undefAt, hu, State.hbmSetTag, h, spGet_put_same]
  cases s.undefAt a with
  | some n => rfl
  | none => cases b <;> rfl

theorem State.hbmTag_hbmSetTag_ne (s : State) {a x : Nat} (b : Bool) (h : x / 64 ≠ a / 64) : (s.hbmSetTag a b).hbmTag x = s.hbmTag x := by
  rw [State.hbmTag, (s.onlyHbm_hbmSetTag a b).undefAt, State.hbmSetTag, spGet_put_ne _ _ _ h]
  rfl

theorem State.hbmTag_congr {a : Nat} (hundef : t.undefAt a = s.undefAt a) (htag : t.hbmPoison = s.hbmPoison) : t.hbmTag a = s.hbmTag a := by
  unfold State.hbmTag
  rw [hundef, htag]

theorem State.hbmPoison_hbmPut (s : State) (a : Nat) (ks : List Bool) (bs : List Byte) :
    (s.hbmPut a ks bs).hbmPoison = s.hbmPoison := by
  induction ks generalizing s a bs with
  | nil => rfl
  | cons k ks ih =>
    cases bs with
    | nil => rfl
    | cons b bs =>
      cases k
      · exact ih s _ bs
      · exact ih (s.hbmSet a b) _ bs

/-! ## Lines (R44) -/

/-- From s to t, entries are planned after those of the agenda, and nothing else changes. -/
abbrev Logs (s t : State) : Prop := ∃ l, t = { s with agenda := s.agenda ++ l }

theorem Logs.refl (s : State) : Logs s s := ⟨[], by rw [List.append_nil]⟩

theorem Logs.trans {u : State} (h : Logs s t) (g : Logs t u) : Logs s u := by
  obtain ⟨l, rfl⟩ := h
  obtain ⟨m, rfl⟩ := g
  exact ⟨l ++ m, by rw [List.append_assoc]⟩

theorem Logs.onlyHbm (h : Logs s t) : OnlyHbm s t := by
  obtain ⟨l, rfl⟩ := h
  exact ⟨_, _, _, _, rfl⟩

theorem State.logs_faqLog (s : State) (part cls : Nat) (place : Option Nat) (paddr : Nat) (ten : Option Nat) :
    Logs s (s.faqLog part cls place paddr ten) := ⟨_, rfl⟩

/-- Memory reads the same after an entry has been planned. -/
theorem Logs.hbmBytes (h : Logs s t) (a n : Nat) : t.hbmBytes a n = s.hbmBytes a n := by
  obtain ⟨l, rfl⟩ := h
  rfl

theorem Logs.hbmTag (h : Logs s t) (a : Nat) : t.hbmTag a = s.hbmTag a := by
  obtain ⟨l, rfl⟩ := h
  rfl

theorem Logs.hbmByte (h : Logs s t) (a : Nat) : t.hbmByte a = s.hbmByte a := by
  obtain ⟨l, rfl⟩ := h
  rfl

theorem State.readLine_line (s : State) (part a : Nat) (ten : Option Nat) :
    (s.readLine part a ten).2 = ⟨lineOf (s.hbmBytes a 64), s.hbmTag a, false⟩ := rfl

theorem State.logs_readLine (s : State) (part a : Nat) (ten : Option Nat) : Logs s (s.readLine part a ten).1 := by
  unfold State.readLine
  dsimp only
  split
  · exact s.logs_faqLog ..
  · split
    · exact s.logs_faqLog ..
    · exact Logs.refl s

/-- What a write of a line logs before it. -/
def State.writeNotes (s : State) (part addr : Nat) (mask : BitVec 64) (ten : Option Nat) : State :=
  if mask = BitVec.allOnes 64 then s else if s.hbmTag addr then s.faqLog part 2 (some addr) addr ten
    else if s.hbmCe addr then s.faqLog part 0 (some addr) addr ten else s

theorem State.logs_writeNotes (s : State) (part addr : Nat) (mask : BitVec 64) (ten : Option Nat) :
    Logs s (s.writeNotes part addr mask ten) := by
  unfold State.writeNotes
  split
  · exact Logs.refl s
  · split
    · exact s.logs_faqLog ..
    · split
      · exact s.logs_faqLog ..
      · exact Logs.refl s

/-- The line's bytes put under the mask, and its code written anew. -/
def State.linePut (s : State) (addr : Nat) (mask : BitVec 64) (l : Line) : State :=
  let t := s.hbmPut addr ((List.range 64).map fun i => mask.getLsbD i) (lineBytes l.data)
  { t with hbmFaulty := spPut false t.hbmFaulty (addr / 64) false }

theorem State.writeLine_eq (s : State) (part addr : Nat) (mask : BitVec 64) (l : Line) (ten : Option Nat) (hm : mask ≠ 0) :
    s.writeLine part addr mask l ten =
      ((s.writeNotes part addr mask ten).linePut addr mask l).hbmSetTag addr (l.poison || (mask != BitVec.allOnes 64 && s.hbmTag addr)) := by
  rw [State.writeLine, if_neg hm]
  dsimp only [State.linePut, State.writeNotes]
  simp only [beq_iff_eq]
  rfl

theorem State.writeLine_zero (s : State) (part addr : Nat) (l : Line) (ten : Option Nat) : s.writeLine part addr 0 l ten = s := rfl

theorem State.onlyHbm_linePut (s : State) (addr : Nat) (mask : BitVec 64) (l : Line) : OnlyHbm s (s.linePut addr mask l) := by
  obtain ⟨a, m, p, f, h⟩ := s.onlyHbm_hbmPut addr ((List.range 64).map fun i => mask.getLsbD i) (lineBytes l.data)
  rw [State.linePut, h]
  exact ⟨_, _, _, _, rfl⟩

theorem State.onlyHbm_writeLine (s : State) (part addr : Nat) (mask : BitVec 64) (l : Line) (ten : Option Nat) :
    OnlyHbm s (s.writeLine part addr mask l ten) := by
  by_cases hm : mask = 0
  · rw [hm]
    exact OnlyHbm.refl s
  · rw [State.writeLine_eq _ _ _ _ _ _ hm]
    exact ((s.logs_writeNotes ..).onlyHbm.trans (State.onlyHbm_linePut ..)).trans (State.onlyHbm_hbmSetTag ..)

theorem natLe_length (n v : Nat) : (natLe n v).length = n := by
  induction n generalizing v with
  | zero => rfl
  | succ n ih => rw [natLe, List.length_cons, ih]

theorem natLe_getD (n v i : Nat) (h : i < n) : (natLe n v).getD i 0 = BitVec.ofNat 8 (v / 256 ^ i) := by
  induction n generalizing v i with
  | zero => omega
  | succ n ih =>
    cases i with
    | zero => simp [natLe]
    | succ i =>
      rw [natLe, List.getD_cons_succ, ih _ _ (by omega), Nat.div_div_eq_div_mul, Nat.pow_succ, Nat.mul_comm]

theorem lineBytes_getD (d : BitVec 512) (i : Nat) (h : i < 64) : (lineBytes d).getD i 0 = d.extractLsb' (8 * i) 8 := by
  rw [lineBytes, natLe_getD _ _ _ h]
  apply BitVec.eq_of_toNat_eq
  rw [BitVec.extractLsb'_toNat, BitVec.toNat_ofNat, Nat.shiftRight_eq_div_pow, Nat.pow_mul]

theorem lineBytes_length (d : BitVec 512) : (lineBytes d).length = 64 := natLe_length ..

theorem State.hbmByte_linePut (s : State) (addr i : Nat) (mask : BitVec 64) (l : Line) : (s.linePut addr mask l).hbmByte (addr + i) =
    if mask.getLsbD i then l.data.extractLsb' (8 * i) 8 else s.hbmByte (addr + i) := by
  rw [State.linePut, State.hbmByte_setFaulty, State.hbmByte_hbmPut]
  by_cases hi : i < 64
  · simp [List.getD_eq_getElem?_getD, hi, lineBytes_length, ← lineBytes_getD]
  · simp [List.getD_eq_getElem?_getD, hi, lineBytes_length, BitVec.getLsbD_of_ge mask i (by omega)]

/-- Byte i of a line written under a mask. -/
theorem State.hbmByte_writeLine (s : State) (part addr i : Nat) (mask : BitVec 64) (l : Line) (ten : Option Nat) :
    (s.writeLine part addr mask l ten).hbmByte (addr + i) =
      if mask.getLsbD i then l.data.extractLsb' (8 * i) 8 else s.hbmByte (addr + i) := by
  by_cases hm : mask = 0
  · rw [hm, State.writeLine_zero, if_neg (by simp)]
  · rw [State.writeLine_eq _ _ _ _ _ _ hm, State.hbmByte_hbmSetTag, State.hbmByte_linePut, (s.logs_writeNotes part addr mask ten).hbmByte]

theorem State.hbmByte_writeLine_below (s : State) {part addr x : Nat} (mask : BitVec 64) (l : Line) (ten : Option Nat) (hx : x < addr) :
    (s.writeLine part addr mask l ten).hbmByte x = s.hbmByte x := by
  by_cases hm : mask = 0
  · rw [hm, State.writeLine_zero]
  · rw [State.writeLine_eq _ _ _ _ _ _ hm, State.hbmByte_hbmSetTag, State.linePut, State.hbmByte_setFaulty,
      State.hbmByte_hbmPut_below _ _ _ hx, (s.logs_writeNotes part addr mask ten).hbmByte]

theorem State.hbmPoison_linePut (s : State) (addr : Nat) (mask : BitVec 64) (l : Line) : (s.linePut addr mask l).hbmPoison = s.hbmPoison :=
  State.hbmPoison_hbmPut ..

/-- A line written whole has the tag of what is written. -/
theorem State.hbmTag_writeLine_whole (s : State) (part addr : Nat) (l : Line) (ten : Option Nat) :
    (s.writeLine part addr (BitVec.allOnes 64) l ten).hbmTag addr = l.poison := by
  rw [State.writeLine_eq _ _ _ _ _ _ (by decide), State.hbmTag_hbmSetTag_same _ _ rfl rfl]
  simp

/-- A write leaves the tags of other lines. -/
theorem State.hbmTag_writeLine_ne (s : State) {part addr x : Nat} (mask : BitVec 64) (l : Line) (ten : Option Nat) (hx : x / 64 ≠ addr / 64) :
    (s.writeLine part addr mask l ten).hbmTag x = s.hbmTag x := by
  by_cases hm : mask = 0
  · rw [hm, State.writeLine_zero]
  · rw [State.writeLine_eq _ _ _ _ _ _ hm, State.hbmTag_hbmSetTag_ne _ _ hx]
    exact State.hbmTag_congr (((s.logs_writeNotes ..).onlyHbm.trans (State.onlyHbm_linePut ..)).undefAt x)
      ((State.hbmPoison_linePut ..).trans (by obtain ⟨l, hl⟩ := s.logs_writeNotes part addr mask ten; rw [hl]))

/-! ## Units (R40, R44) -/

theorem HbmReq.half_low (r : HbmReq) {i : Nat} (h : i < 64) : (r.half false).getLsbD i = r.mask.getLsbD i := by
  simp [HbmReq.half, h]

theorem HbmReq.half_high (r : HbmReq) {i : Nat} (h : i < 64) : (r.half true).getLsbD i = r.mask.getLsbD (64 + i) := by
  simp [HbmReq.half, h]

theorem State.onlyHbm_writeUnit (s : State) (r : HbmReq) : OnlyHbm s (s.writeUnit r) :=
  (s.onlyHbm_writeLine ..).trans (State.onlyHbm_writeLine ..)

/-- A unit written holds the bytes of its lines where its mask is set. -/
theorem State.hbmByte_writeUnit (s : State) (r : HbmReq) {i : Nat} (hi : i < 128) : (s.writeUnit r).hbmByte (r.addr + i) =
    if r.mask.getLsbD i then (if i < 64 then r.l0.data.extractLsb' (8 * i) 8 else r.l1.data.extractLsb' (8 * (i - 64)) 8)
    else s.hbmByte (r.addr + i) := by
  unfold State.writeUnit
  dsimp only
  by_cases hlow : i < 64
  · rw [State.hbmByte_writeLine_below _ _ _ _ (by omega), State.hbmByte_writeLine, HbmReq.half_low r hlow, if_pos hlow]
  · obtain ⟨k, rfl⟩ : ∃ k, i = 64 + k := ⟨i - 64, by omega⟩
    have hsame := s.hbmByte_writeLine r.part r.addr (64 + k) (r.half false) r.l0 (whoTenant r.who)
    rw [BitVec.getLsbD_of_ge _ _ (by omega), if_neg Bool.false_ne_true] at hsame
    rw [← Nat.add_assoc, State.hbmByte_writeLine, HbmReq.half_high r (by omega), Nat.add_assoc, hsame, if_neg hlow, Nat.add_sub_cancel_left]

theorem State.hbmByte_writeUnit_out (s : State) (r : HbmReq) {x : Nat} (hx : x < r.addr ∨ r.addr + 128 ≤ x) :
    (s.writeUnit r).hbmByte x = s.hbmByte x := by
  unfold State.writeUnit
  dsimp only
  rcases hx with hx | hx
  · rw [State.hbmByte_writeLine_below _ _ _ _ (by omega), State.hbmByte_writeLine_below _ _ _ _ hx]
  · obtain ⟨k, rfl⟩ : ∃ k, x = r.addr + (128 + k) := ⟨x - r.addr - 128, by omega⟩
    have hlow := s.hbmByte_writeLine r.part r.addr (128 + k) (r.half false) r.l0 (whoTenant r.who)
    have hhigh := (s.writeLine r.part r.addr (r.half false) r.l0 (whoTenant r.who)).hbmByte_writeLine r.part (r.addr + 64) (64 + k)
      (r.half true) r.l1 (whoTenant r.who)
    rw [BitVec.getLsbD_of_ge _ _ (by omega), if_neg Bool.false_ne_true] at hlow hhigh
    rw [show r.addr + (128 + k) = r.addr + 64 + (64 + k) by omega] at hlow ⊢
    rw [hhigh, hlow]

/-- A unit at its boundary takes the tags of the lines that are written whole. -/
theorem State.hbmTag_writeUnit_low (s : State) (r : HbmReq) (hfull : r.half false = BitVec.allOnes 64) :
    (s.writeUnit r).hbmTag r.addr = r.l0.poison := by
  unfold State.writeUnit
  dsimp only
  rw [State.hbmTag_writeLine_ne _ _ _ _ (by omega), hfull, State.hbmTag_writeLine_whole]

theorem State.hbmTag_writeUnit_high (s : State) (r : HbmReq) (hfull : r.half true = BitVec.allOnes 64) :
    (s.writeUnit r).hbmTag (r.addr + 64) = r.l1.poison := by
  unfold State.writeUnit
  dsimp only
  rw [hfull, State.hbmTag_writeLine_whole]

/-- A line is read where the mask asks for it. -/
theorem State.logs_readLine_if (s : State) (part a : Nat) (ten : Option Nat) (c : Prop) [Decidable c] (l : Line) :
    Logs s (if c then (s, l) else s.readLine part a ten).1 := by
  split
  · exact Logs.refl s
  · exact s.logs_readLine part a ten

theorem State.logs_readUnit (s : State) (r : HbmReq) : Logs s (s.readUnit r).1 :=
  (s.logs_readLine_if r.part r.addr (whoTenant r.who) (r.half false = 0) r.l0).trans (State.logs_readLine_if ..)

theorem State.readUnit_low (s : State) (r : HbmReq) (h : r.half false ≠ 0) :
    (s.readUnit r).2.1 = ⟨lineOf (s.hbmBytes r.addr 64), s.hbmTag r.addr, false⟩ := by
  simp only [State.readUnit, if_neg h, State.readLine_line]

theorem State.readUnit_high (s : State) (r : HbmReq) (h : r.half true ≠ 0) :
    (s.readUnit r).2.2 = ⟨lineOf (s.hbmBytes (r.addr + 64) 64), s.hbmTag (r.addr + 64), false⟩ := by
  have hlog := s.logs_readLine r.part r.addr (whoTenant r.who)
  simp only [State.readUnit, if_neg h, State.readLine_line]
  split
  · rfl
  · rw [hlog.hbmBytes, hlog.hbmTag]

end Sys2Proof.Machine
end

section
/-!
PROOF. How an access of HBM4E performs (R39, R40, R44, R47, R77): what is written or read, under the mapping that the access goes by, and what
follows it.
-/
namespace Sys2Proof.Machine

variable {s t : State} {r : HbmReq} {id : Nat}

/-! ## What follows a write -/

/-- From s to t, a copy, a page copy or a host access has gone on. -/
abbrev GoesOn (s t : State) : Prop := ∃ l cs vs ps hs os,
  t = { s with agenda := s.agenda ++ l, copies := cs, saved := vs, pages := ps, hostq := hs, out := os }

theorem GoesOn.refl (s : State) : GoesOn s s := ⟨[], _, _, _, _, _, by rw [List.append_nil]⟩

theorem State.hostDone_eq (s : State) (n : Nat) (bs : List Byte) : ∃ hs os, s.hostDone n bs = { s with hostq := hs, out := os } := by
  unfold State.hostDone
  split
  · exact ⟨_, _, rfl⟩
  · dsimp only
    split
    · split <;> exact ⟨_, _, rfl⟩
    · exact ⟨_, _, rfl⟩

theorem State.goesOn_hostDone (s : State) (n : Nat) (bs : List Byte) : GoesOn s (s.hostDone n bs) := by
  obtain ⟨hs, os, h⟩ := s.hostDone_eq n bs
  exact ⟨[], _, _, _, _, _, by rw [h, List.append_nil]⟩

theorem State.goesOn_linesDone (s : State) (run n : Nat) (poison : Bool) : GoesOn s (s.linesDone run n poison) :=
  ⟨[], _, _, _, _, _, by rw [List.append_nil]; rfl⟩

/-- Poison of a line that the device reported is logged, line by line. -/
theorem State.logs_if (s : State) (b : Bool) (part cls : Nat) (place : Option Nat) (paddr : Nat) (ten : Option Nat) :
    Logs s (if b then s.faqLog part cls place paddr ten else s) := by
  cases b
  · exact Logs.refl s
  · exact s.logs_faqLog ..

theorem State.goesOn_pageWrote (s : State) (r : HbmReq) (id : Nat) : GoesOn s (s.pageWrote r id) := by
  unfold State.pageWrote
  split
  · exact GoesOn.refl s
  next g _ =>
    obtain ⟨l, hl⟩ := (s.logs_if (r.l0.poison && !g.down) r.part 5 (some (r.addr + 0)) (g.back * 65536 + 128 * g.line + 0) (whoTenant r.who)).trans
      (State.logs_if _ (r.l1.poison && !g.down) r.part 5 (some (r.addr + 64)) (g.back * 65536 + 128 * g.line + 64) (whoTenant r.who))
    simp only [hl]
    exact ⟨l, _, _, _, _, _, rfl⟩

theorem State.goesOn_afterWrite (s : State) (r : HbmReq) : GoesOn s (s.afterWrite r) := by
  unfold State.afterWrite
  split
  · exact s.goesOn_linesDone ..
  · exact s.goesOn_pageWrote ..
  · split
    · split
      · exact s.goesOn_hostDone ..
      · exact GoesOn.refl s
    · exact GoesOn.refl s
  · exact GoesOn.refl s

/-! ## Lines read before that follow a write (R77) -/

/-- A change of requests keeps their numbers and what has performed. -/
abbrev KeepsPerformed (g : HbmReq → HbmReq) : Prop := ∀ q, (g q).id = q.id ∧ (g q).performed = q.performed

/-- From s to t, lines that copies and requests hold have changed. -/
abbrev Forwards (s t : State) : Prop := ∃ cs g, KeepsPerformed g ∧ t = { s with copies := cs, reqs := s.reqs.map g }

theorem Forwards.refl (s : State) : Forwards s s := ⟨s.copies, fun q => q, fun _ => ⟨rfl, rfl⟩, by rw [List.map_id']⟩

theorem Forwards.trans {u : State} (h : Forwards s t) (k : Forwards t u) : Forwards s u := by
  obtain ⟨cs, g, hg, rfl⟩ := h
  obtain ⟨cs', g', hg', rfl⟩ := k
  refine ⟨cs', g' ∘ g, fun q => ⟨(hg' _).1.trans (hg q).1, (hg' _).2.trans (hg q).2⟩, ?_⟩
  rw [List.map_map]

theorem keeps_ite {c : Prop} [Decidable c] {a b q : HbmReq} (ha : a.id = q.id ∧ a.performed = q.performed)
    (hb : b.id = q.id ∧ b.performed = q.performed) :
    (if c then a else b).id = q.id ∧ (if c then a else b).performed = q.performed := by
  by_cases h : c
  · rwa [if_pos h]
  · rwa [if_neg h]

theorem State.forwards_forward (s : State) (pid : Option Nat) (a : Nat) (l : Line) : Forwards s (s.forward pid a l) := by
  refine ⟨_, _, fun q => ?_, rfl⟩
  dsimp only
  split
  · exact keeps_ite (keeps_ite ⟨rfl, rfl⟩ ⟨rfl, rfl⟩) ⟨rfl, rfl⟩
  · exact ⟨rfl, rfl⟩

/-- A half of a unit is sent on where the write concerns it. -/
theorem State.forwards_half (s : State) (m : BitVec 64) (pid : Option Nat) (a : Nat) (l : Line) :
    Forwards s (if m = 0 then s else s.forward pid a l) := by
  split
  · exact Forwards.refl s
  · exact s.forwards_forward ..

theorem State.forwards_forwardUnit (s : State) (r : HbmReq) : Forwards s (s.forwardUnit r) := by
  unfold State.forwardUnit
  split
  · exact Forwards.refl s
  · exact (s.forwards_half ..).trans (State.forwards_half ..)

/-! ## Requests that have performed -/

/-- The request of a number has performed. -/
abbrev Performed (id : Nat) (t : State) : Prop := ∀ q ∈ t.reqs, q.id = id → q.performed = true

/-- A request that performs keeps its place, with the lines that it leaves or finds. -/
theorem State.mem_setPerformed {l : Line × Line} {q : HbmReq} (hq : q ∈ (s.setPerformed id l).reqs) (hid : q.id = id) :
    q.performed = true ∧ q.l0 = l.1 ∧ q.l1 = l.2 := by
  obtain ⟨p, -, rfl⟩ := List.mem_map.1 hq
  by_cases hp : p.id = id
  · rw [if_pos hp]
    exact ⟨rfl, rfl, rfl⟩
  · rw [if_neg hp] at hid
    exact absurd hid hp

theorem State.performed_setPerformed (s : State) (id : Nat) (l : Line × Line) : Performed id (s.setPerformed id l) :=
  fun _ hq hid => (State.mem_setPerformed hq hid).1

theorem Performed.goesOn (h : Performed id s) (g : GoesOn s t) : Performed id t := by
  obtain ⟨_, _, _, _, _, _, rfl⟩ := g
  exact h

theorem Performed.forwards (h : Performed id s) (g : Forwards s t) : Performed id t := by
  obtain ⟨_, g, hg, rfl⟩ := g
  intro q hq hid
  obtain ⟨p, hp, rfl⟩ := List.mem_map.1 hq
  exact (hg p).2.trans (h p hp ((hg p).1.symm.trans hid))

/-! ## The access itself -/

/-- The bank of a unit is parked under the mapping in force. -/
def State.parkedHere (s : State) (r : HbmReq) : Bool := s.parkedBank r.part == some (s.placeOf r.addr).1

/-- An access under the mapping in force. -/
def State.performHere (s : State) (r : HbmReq) : State × Line × Line :=
  if s.parkedHere r then
    let a := r.addr + (if r.half false = 0 then 64 else 0)
    (s.faqLog r.part 3 (some a) a (whoTenant r.who), if r.write then (r.l0, r.l1) else s.parkedUnit r)
  else if r.write then (s.writeUnit r, r.l0, r.l1)
  else s.readUnit r

theorem State.performUnit_eq (s : State) (r : HbmReq) : s.performUnit r = s.onMap r fun s => s.performHere r := rfl

theorem State.performUnit_now (h : s.mapOf r = none) : s.performUnit r = s.performHere r := by
  rw [State.performUnit_eq, State.onMap, h]

theorem State.performUnit_old {o : OldMap} (h : s.mapOf r = some o) :
    s.performUnit r = (((s.under o).performHere r).1.backFrom s o, ((s.under o).performHere r).2) := by
  rw [State.performUnit_eq, State.onMap, h]

theorem State.parked_now (h : s.mapOf r = none) : s.parkedHere r = s.parked r := by
  rw [State.parkedHere, State.parked, State.reqPlace, h]

theorem State.parked_old {o : OldMap} (h : s.mapOf r = some o) : (s.under o).parkedHere r = s.parked r := by
  rw [State.parked, State.reqPlace, h]
  rfl

/-- A parked bank takes no write, and its contents are read as poisoned; the entry of class PARKED is planned for this cycle. -/
theorem State.performHere_parked (h : s.parkedHere r = true) : ∃ e : BitVec 128, e.extractLsb' 1 4 = 3#4 ∧
    s.performHere r = ({ s with agenda := s.plan s.scyc (.faultAddressEntry r.part e) },
      if r.write then (r.l0, r.l1) else s.parkedUnit r) := by
  obtain ⟨e, hcls, he⟩ := s.faqLog_eq r.part 3 (some (r.addr + (if r.half false = 0 then 64 else 0)))
    (r.addr + (if r.half false = 0 then 64 else 0)) (whoTenant r.who)
  refine ⟨e, hcls, ?_⟩
  rw [State.performHere, if_pos h]
  dsimp only
  rw [he]

theorem State.performHere_write (h : s.parkedHere r = false) (hw : r.write = true) : s.performHere r = (s.writeUnit r, r.l0, r.l1) := by
  rw [State.performHere, h, hw]
  rfl

theorem State.performHere_read (h : s.parkedHere r = false) (hw : r.write = false) : s.performHere r = s.readUnit r := by
  rw [State.performHere, h, hw]
  rfl

theorem State.onlyHbm_performHere (s : State) (r : HbmReq) : OnlyHbm s (s.performHere r).1 := by
  cases hp : s.parkedHere r
  · cases hw : r.write
    · rw [State.performHere_read hp hw]
      exact (s.logs_readUnit r).onlyHbm
    · rw [State.performHere_write hp hw]
      exact s.onlyHbm_writeUnit r
  · obtain ⟨e, -, he⟩ := State.performHere_parked hp
    rw [he]
    exact ⟨_, _, _, _, rfl⟩

/-! ## An access by an earlier mapping (R355) -/

/-- A change of what earlier mappings hold keeps which of them an access goes by. -/
theorem find?_olds (l : List OldMap) (f : OldMap → OldMap) (id quarter : Nat) (hf : ∀ o, (f o).before = o.before ∧ (f o).quarters = o.quarters) :
    (l.map f).find? (fun o => decide (id < o.before) && o.quarters.contains quarter) =
      (l.find? fun o => decide (id < o.before) && o.quarters.contains quarter).map f := by
  rw [List.find?_map]
  congr 2
  funext o
  simp only [Function.comp, (hf o).1, (hf o).2]

/-- What an earlier mapping holds changed as the access leaves it. -/
def OldMap.left (q : OldMap) (t : State) (o : OldMap) : OldMap :=
  if q.before = o.before then { q with hbm := t.hbm, poison := t.hbmPoison, faulty := t.hbmFaulty } else q

theorem OldMap.left_same (q : OldMap) (t : State) (o : OldMap) :
    (q.left t o).before = q.before ∧ (q.left t o).quarters = q.quarters := by
  unfold OldMap.left
  by_cases h : q.before = o.before
  · rw [if_pos h]
    exact ⟨rfl, rfl⟩
  · rw [if_neg h]
    exact ⟨rfl, rfl⟩

theorem State.mapOf_olds (s : State) (r : HbmReq) (t : State) (o : OldMap) (a : List Sched) :
    (({ s with agenda := a, olds := s.olds.map (·.left t o) } : State).mapOf r).isSome = (s.mapOf r).isSome := by
  unfold State.mapOf
  split
  · rw [find?_olds _ _ _ _ fun q => q.left_same t o, Option.isSome_map]
  · rfl

theorem OnlyHbm.backFrom {o : OldMap} (h : OnlyHbm (s.under o) t) :
    t.backFrom s o = { s with agenda := t.agenda, olds := s.olds.map (·.left t o) } := by
  obtain ⟨_, _, _, _, rfl⟩ := h
  rfl

/-- An access by an earlier mapping changes that mapping's contents and the agenda. -/
theorem State.performUnit_old_eq {o : OldMap} (h : s.mapOf r = some o) : ∃ a os,
    (s.performUnit r).1 = { s with agenda := a, olds := os } ∧ (({ s with agenda := a, olds := os } : State).mapOf r).isSome = true := by
  refine ⟨((s.under o).performHere r).1.agenda, s.olds.map (·.left ((s.under o).performHere r).1 o), ?_, ?_⟩
  · rw [State.performUnit_old h]
    exact (State.onlyHbm_performHere ..).backFrom
  · rw [State.mapOf_olds, h]
    rfl

/-- A parked bank leaves main memory as it is. -/
theorem State.performUnit_parked (h : s.parked r = true) : ∃ (e : BitVec 128) (os : List OldMap), e.extractLsb' 1 4 = 3#4 ∧
    (s.performUnit r).1 = { s with agenda := s.plan s.scyc (.faultAddressEntry r.part e), olds := os } ∧
    (s.mapOf r = none → os = s.olds ∧ (r.write = false → (s.performUnit r).2 = s.parkedUnit r)) := by
  cases hm : s.mapOf r with
  | none =>
    obtain ⟨e, hcls, he⟩ := State.performHere_parked ((State.parked_now hm).trans h)
    rw [State.performUnit_now hm, he]
    exact ⟨e, s.olds, hcls, rfl, fun _ => ⟨rfl, fun hw => by rw [hw]; rfl⟩⟩
  | some o =>
    obtain ⟨e, hcls, he⟩ := State.performHere_parked ((State.parked_old hm).trans h)
    rw [State.performUnit_old hm, (State.onlyHbm_performHere ..).backFrom, he]
    exact ⟨e, _, hcls, rfl, fun hn => nomatch hn⟩

end Sys2Proof.Machine
end

section
/-!
PROOF. HBM_ACCESS_PERFORM and HBM_READ_DELIVER (R39, R40, R44, R47, R52): what each leaves of the package.
-/
namespace Sys2Proof.Machine

variable {s t : State} {r : HbmReq} {id : Nat}

/-! ## An access performs -/

/-- The request that performs next has a number. -/
abbrev ToPerform (s : State) (id : Nat) (r : HbmReq) : Prop := (s.reqs.find? fun r => r.id == id && !r.performed) = some r

theorem perform_stays (h : ∀ r ∈ s.reqs, r.id = id → r.performed = true) : Stays (.hbmAccessPerform id) s := by
  have hnone : (s.reqs.find? fun r => r.id == id && !r.performed) = none := by
    simpa using h
  change execHbmAccessPerform id s = _
  rw [execHbmAccessPerform, hnone]

/-- The package after an access has performed that DISCARD has not cancelled. -/
def State.afterPerform (s : State) (id : Nat) (r : HbmReq) : State :=
  let x := s.performUnit r
  if s.parked r then (if r.write then (x.1.setPerformed id x.2).afterWrite r else x.1.setPerformed id x.2)
  else if r.write then ((x.1.setPerformed id x.2).forwardUnit r).afterWrite r
  else x.1.setPerformed id (s.cpyRead r x.2)

theorem exec_perform (hr : ToPerform s id r) : exec (.hbmAccessPerform id) s =
    .next (if r.use = .dropped then s.setPerformed id (r.l0, r.l1) else s.afterPerform id r) := by
  change execHbmAccessPerform id s = _
  rw [execHbmAccessPerform, hr]
  rfl

theorem perform_dropped (hr : ToPerform s id r) (huse : r.use = .dropped) :
    Does (.hbmAccessPerform id) s fun t => { t with reqs := s.reqs } = s ∧ Performed id t :=
  ⟨s.setPerformed id (r.l0, r.l1), (exec_perform hr).trans (by rw [if_pos huse]), rfl, State.performed_setPerformed _ _ _⟩

theorem exec_perform_kept (hr : ToPerform s id r) (huse : r.use ≠ .dropped) :
    exec (.hbmAccessPerform id) s = .next (s.afterPerform id r) :=
  (exec_perform hr).trans (by rw [if_neg huse])

theorem State.afterPerform_parkedWrite (hp : s.parked r = true) (hw : r.write = true) :
    s.afterPerform id r = ((s.performUnit r).1.setPerformed id (s.performUnit r).2).afterWrite r := by
  simp only [State.afterPerform, hp, hw, if_true]

theorem State.afterPerform_parkedRead (hp : s.parked r = true) (hw : r.write = false) :
    s.afterPerform id r = (s.performUnit r).1.setPerformed id (s.performUnit r).2 := by
  simp only [State.afterPerform, hp, hw, if_true, Bool.false_eq_true, if_false]

theorem State.afterPerform_write (hp : s.parked r = false) (hw : r.write = true) :
    s.afterPerform id r = (((s.performUnit r).1.setPerformed id (s.performUnit r).2).forwardUnit r).afterWrite r := by
  simp only [State.afterPerform, hp, hw, if_true, Bool.false_eq_true, if_false]

theorem State.afterPerform_read (hp : s.parked r = false) (hw : r.write = false) :
    s.afterPerform id r = (s.performUnit r).1.setPerformed id (s.cpyRead r (s.performUnit r).2) := by
  simp only [State.afterPerform, hp, hw, Bool.false_eq_true, if_false]

/-- A parked bank changes no memory: the access is logged, and what waits for it goes on. -/
theorem perform_parked (hr : ToPerform s id r) (huse : r.use ≠ .dropped) (hp : s.parked r = true) :
    Does (.hbmAccessPerform id) s fun t => t.hbm = s.hbm ∧ t.hbmPoison = s.hbmPoison ∧
      t.ls = s.ls ∧ Performed id t ∧ (∃ e l, t.agenda = s.plan s.scyc (.faultAddressEntry r.part e) ++ l ∧ e.extractLsb' 1 4 = 3#4) ∧
      (r.write = false → s.mapOf r = none → { t with reqs := s.reqs, agenda := s.agenda } = s ∧ ∀ q ∈ t.reqs, q.id = id →
        q.l0 = ⟨lineOf (s.hbmBytes r.addr 64), true, false⟩ ∧ q.l1 = ⟨lineOf (s.hbmBytes (r.addr + 64) 64), true, false⟩) := by
  refine ⟨_, exec_perform_kept hr huse, ?_⟩
  obtain ⟨e, os, hcls, heq, hnow⟩ := State.performUnit_parked hp
  cases hw : r.write with
  | true =>
    rw [State.afterPerform_parkedWrite hp hw]
    generalize (s.performUnit r).2 = l
    rw [heq]
    have hgoes := State.goesOn_afterWrite (State.setPerformed { s with agenda := s.plan s.scyc (.faultAddressEntry r.part e), olds := os } id l) r
    have hdone := (State.performed_setPerformed { s with agenda := s.plan s.scyc (.faultAddressEntry r.part e), olds := os } id l).goesOn hgoes
    obtain ⟨l, _, _, _, _, _, ht⟩ := hgoes
    rw [ht] at hdone ⊢
    exact ⟨rfl, rfl, rfl, hdone, ⟨e, l, rfl, hcls⟩, fun h => nomatch h⟩
  | false =>
    rw [State.afterPerform_parkedRead hp hw, heq]
    refine ⟨rfl, rfl, rfl, State.performed_setPerformed _ _ _, ⟨e, [], (List.append_nil _).symm, hcls⟩, fun _ hm => ?_⟩
    obtain ⟨rfl, hlines⟩ := hnow hm
    rw [hlines hw]
    exact ⟨rfl, fun q hq hid => (State.mem_setPerformed hq hid).2⟩

/-- An access by the mapping before a partition change leaves the memory of today. -/
theorem perform_old {o : OldMap} (hr : ToPerform s id r) (huse : r.use ≠ .dropped) (hp : s.parked r = false) (hm : s.mapOf r = some o) :
    Does (.hbmAccessPerform id) s fun t =>
      t.hbm = s.hbm ∧ t.hbmPoison = s.hbmPoison ∧ t.live = s.live ∧ t.ls = s.ls ∧ Performed id t := by
  refine ⟨_, exec_perform_kept hr huse, ?_⟩
  obtain ⟨a, os, heq, hmap⟩ := State.performUnit_old_eq hm
  cases hw : r.write with
  | true =>
    rw [State.afterPerform_write hp hw]
    generalize (s.performUnit r).2 = l
    rw [heq]
    generalize hu : State.setPerformed { s with agenda := a, olds := os } id l = u
    have hdone : Performed id u := hu ▸ State.performed_setPerformed _ _ _
    have hfwd : u.forwardUnit r = u := by
      rw [State.forwardUnit, if_pos (hu ▸ hmap)]
    have hgoes := u.goesOn_afterWrite r
    rw [hfwd]
    have hdone' := hdone.goesOn hgoes
    obtain ⟨_, _, _, _, _, _, ht⟩ := hgoes
    rw [ht, ← hu] at hdone' ⊢
    exact ⟨rfl, rfl, rfl, rfl, hdone'⟩
  | false =>
    rw [State.afterPerform_read hp hw, heq]
    exact ⟨rfl, rfl, rfl, rfl, State.performed_setPerformed _ _ _⟩

/-- Main memory reads the same after what follows a write. -/
theorem GoesOn.memory (h : GoesOn s t) : t.hbmByte = s.hbmByte ∧ t.hbmTag = s.hbmTag ∧ t.ls = s.ls ∧ t.cores = s.cores := by
  obtain ⟨_, _, _, _, _, _, rfl⟩ := h
  exact ⟨rfl, rfl, rfl, rfl⟩

theorem Forwards.memory (h : Forwards s t) : t.hbmByte = s.hbmByte ∧ t.hbmTag = s.hbmTag ∧ t.ls = s.ls ∧ t.cores = s.cores := by
  obtain ⟨_, _, -, rfl⟩ := h
  exact ⟨rfl, rfl, rfl, rfl⟩

/-- A write leaves in memory what the unit's write leaves. -/
theorem perform_write_memory (hr : ToPerform s id r) (huse : r.use ≠ .dropped) (hp : s.parked r = false) (hm : s.mapOf r = none)
    (hw : r.write = true) : Does (.hbmAccessPerform id) s fun t =>
      t.hbmByte = (s.writeUnit r).hbmByte ∧ t.hbmTag = (s.writeUnit r).hbmTag ∧ t.ls = s.ls ∧ t.cores = s.cores ∧ Performed id t := by
  refine ⟨_, exec_perform_kept hr huse, ?_⟩
  rw [State.afterPerform_write hp hw, State.performUnit_now hm, State.performHere_write ((State.parked_now hm).trans hp) hw]
  have hsame : (s.writeUnit r).ls = s.ls ∧ (s.writeUnit r).cores = s.cores := by
    obtain ⟨_, _, _, _, h⟩ := s.onlyHbm_writeUnit r
    rw [h]
    exact ⟨rfl, rfl⟩
  generalize s.writeUnit r = u at hsame ⊢
  dsimp only
  have hdone := u.performed_setPerformed id (r.l0, r.l1)
  have hfwd := (u.setPerformed id (r.l0, r.l1)).forwards_forwardUnit r
  have hgoes := ((u.setPerformed id (r.l0, r.l1)).forwardUnit r).goesOn_afterWrite r
  obtain ⟨hbyte, htag, hls, hcores⟩ := hgoes.memory
  obtain ⟨hbyte', htag', hls', hcores'⟩ := hfwd.memory
  rw [hbyte, hbyte', htag, htag', hls, hls', hcores, hcores']
  exact ⟨rfl, rfl, hsame.1, hsame.2, (hdone.forwards hfwd).goesOn hgoes⟩

theorem perform_write (hr : ToPerform s id r) (huse : r.use ≠ .dropped) (hp : s.parked r = false) (hm : s.mapOf r = none)
    (hw : r.write = true) : Does (.hbmAccessPerform id) s fun t =>
      (∀ i < 128, t.hbmByte (r.addr + i) = if r.mask.getLsbD i then
        (if i < 64 then r.l0.data.extractLsb' (8 * i) 8 else r.l1.data.extractLsb' (8 * (i - 64)) 8) else s.hbmByte (r.addr + i)) ∧
      (∀ a, a < r.addr ∨ r.addr + 128 ≤ a → t.hbmByte a = s.hbmByte a) ∧ t.ls = s.ls ∧ t.cores = s.cores ∧ Performed id t ∧
      (r.addr % 128 = 0 → (r.half false = BitVec.allOnes 64 → t.hbmTag r.addr = r.l0.poison) ∧
        (r.half true = BitVec.allOnes 64 → t.hbmTag (r.addr + 64) = r.l1.poison)) := by
  obtain ⟨t, hexec, hbyte, htag, hls, hcores, hdone⟩ := perform_write_memory hr huse hp hm hw
  refine ⟨t, hexec, fun i hi => ?_, fun a ha => ?_, hls, hcores, hdone, fun _ => ⟨fun h => ?_, fun h => ?_⟩⟩
  · rw [hbyte, State.hbmByte_writeUnit s r hi]
  · rw [hbyte, State.hbmByte_writeUnit_out s r ha]
  · rw [htag, State.hbmTag_writeUnit_low s r h]
  · rw [htag, State.hbmTag_writeUnit_high s r h]

/-- A read that is no timed CPY's finds memory alone. -/
theorem State.cpyRead_plain (l : Line × Line)
    (h : ∀ run i n c, r.use = .copyRead run i n → s.copy? run = some c → (c.timed && c.cpy) = false) : s.cpyRead r l = l := by
  unfold State.cpyRead
  split
  next run i n huse =>
    split
    next c hc => rw [h run i n c huse hc, if_neg Bool.false_ne_true]
    next => rfl
  next => rfl

theorem perform_read (hr : ToPerform s id r) (huse : r.use ≠ .dropped) (hp : s.parked r = false) (hm : s.mapOf r = none)
    (hw : r.write = false) : Does (.hbmAccessPerform id) s fun t =>
      { t with reqs := s.reqs, agenda := s.agenda } = s ∧ Performed id t ∧
      ((∀ run i n c, r.use = .copyRead run i n → s.copy? run = some c → (c.timed && c.cpy) = false) → ∀ q ∈ t.reqs, q.id = id →
        (r.half false ≠ 0 → q.l0 = ⟨lineOf (s.hbmBytes r.addr 64), s.hbmTag r.addr, false⟩) ∧
        (r.half true ≠ 0 → q.l1 = ⟨lineOf (s.hbmBytes (r.addr + 64) 64), s.hbmTag (r.addr + 64), false⟩)) := by
  refine ⟨_, exec_perform_kept hr huse, ?_⟩
  rw [State.afterPerform_read hp hw, State.performUnit_now hm, State.performHere_read ((State.parked_now hm).trans hp) hw]
  have hlow := s.readUnit_low r
  have hhigh := s.readUnit_high r
  obtain ⟨l, hl⟩ := s.logs_readUnit r
  rw [hl]
  refine ⟨rfl, State.performed_setPerformed _ _ _, fun hplain q hq hid => ?_⟩
  rw [State.cpyRead_plain _ hplain] at hq
  obtain ⟨-, h0, h1⟩ := State.mem_setPerformed hq hid
  exact ⟨fun h => h0.trans (hlow h), fun h => h1.trans (hhigh h)⟩

/-! ## What a read has found is delivered -/

/-- The oldest request of a number. -/
abbrev ToDeliver (s : State) (id : Nat) (r : HbmReq) : Prop := (s.reqs.find? fun r => r.id == id) = some r

theorem deliver_stays (h : ∀ r ∈ s.reqs, r.id ≠ id) : Stays (.hbmReadDeliver id) s := by
  have hnone : (s.reqs.find? fun r => r.id == id) = none := by
    simpa using h
  change execHbmReadDeliver id s = _
  rw [execHbmReadDeliver, hnone]

/-- The package without the requests of a number. -/
def State.delivered (s : State) (id : Nat) : State := { s with reqs := s.reqs.filter fun q => q.id != id }

theorem exec_deliver_copyRead {run i n : Nat} (hr : ToDeliver s id r) (huse : r.use = .copyRead run i n) :
    exec (.hbmReadDeliver id) s = .next ((s.delivered id).stageLines run i n r) := by
  change execHbmReadDeliver id s = _
  simp only [execHbmReadDeliver, hr, huse]
  rfl

theorem deliver_copyRead {run i n : Nat} (hr : ToDeliver s id r) (huse : r.use = .copyRead run i n) :
    Does (.hbmReadDeliver id) s fun t =>
      { t with reqs := s.reqs, copies := s.copies, saved := s.saved } = s ∧ t.reqs = (s.reqs.filter fun q => q.id != id) ∧
      ∀ c ∈ t.copies, c.id = run → spGet none c.staged i = some (if r.half false = 0 then r.l1 else r.l0) ∧
        (n = 2 → spGet none c.staged (i + 1) = some r.l1) := by
  refine ⟨_, exec_deliver_copyRead hr huse, rfl, rfl, fun c hc hid => ?_⟩
  obtain ⟨d, -, rfl⟩ := List.mem_map.1 hc
  by_cases hd : d.id = run
  · dsimp only
    rw [if_pos hd]
    by_cases hn : n = 2
    · simp only [hn, if_true, spGet_put_same, implies_true, and_true]
      rw [spGet_put_ne _ _ _ (by omega), spGet_put_same]
    · simp only [hn, if_false, spGet_put_same, false_implies, and_true]
  · dsimp only at hid
    rw [if_neg hd] at hid
    exact absurd hid hd

theorem exec_deliver_host {k : Nat} {h : HostAcc} {hs : List HostAcc} (hr : ToDeliver s id r) (huse : r.use = .host k)
    (hq : s.hostq = h :: hs) (hid : h.id = k) (hw : r.write = false) : exec (.hbmReadDeliver id) s =
      .next ((s.delivered id).hostDone h.inUnit (((lineBytes r.l0.data ++ lineBytes r.l1.data).drop (h.addr % 128)).take h.inUnit)) := by
  change execHbmReadDeliver id s = _
  have hmine : ¬(r.write = true ∨ h.id ≠ k) := by simp [hw, hid]
  simp only [execHbmReadDeliver, hr, huse]
  split
  next g gs hg =>
    obtain ⟨rfl, rfl⟩ := List.cons.inj (hq.symm.trans hg)
    rw [if_neg hmine]
    rfl
  next hnil => exact absurd (hq.symm.trans hnil) (List.cons_ne_nil _ _)

/-- A read of the host that has found its next bytes: it is finished, or goes on after them. -/
theorem State.hostDone_read {h : HostAcc} {hs : List HostAcc} {n : Nat} (bs : List Byte) (hq : s.hostq = h :: hs) (hw : h.write = false)
    (hn : n ≤ h.left) : s.hostDone n bs = if h.left = n then { s with hostq := hs, out := s.out ++ [.readData (h.bytes ++ bs)] }
      else { s with hostq := { h with addr := h.addr + n, bytes := h.bytes ++ bs, left := h.left - n, asked := false } :: hs } := by
  have hiff : h.left - n = 0 ↔ h.left = n := by omega
  simp only [State.hostDone, hq, hw, Bool.false_eq_true, if_false, hiff]
  rfl

theorem deliver_host {k : Nat} {h : HostAcc} {hs : List HostAcc} (hr : ToDeliver s id r) (huse : r.use = .host k)
    (hq : s.hostq = h :: hs) (hid : h.id = k) (hw : r.write = false) (hread : h.write = false) :
    let rest := s.reqs.filter fun q => q.id != id
    let n := min h.left (128 - h.addr % 128)
    let bs := h.bytes ++ ((lineBytes r.l0.data ++ lineBytes r.l1.data).drop (h.addr % 128)).take n
    exec (.hbmReadDeliver id) s = .next (if h.left = n then { s with reqs := rest, hostq := hs, out := s.out ++ [.readData bs] }
      else { s with reqs := rest, hostq := { h with addr := h.addr + n, bytes := bs, left := h.left - n, asked := false } :: hs }) := by
  intro rest n bs
  rw [exec_deliver_host hr huse hq hid hw]
  exact congrArg Host.Outcome.next (State.hostDone_read (s := s.delivered id) _ hq hread (Nat.min_le_left ..))

/-- A line of an eviction written to the second tier. -/
theorem State.evictLine_eq {e : Evict} (l : Line) (he : s.evict = some e) : s.evictLine e.id l = { s with
    second := putBytes s.second (e.dst * 65536 + 64 * e.line) (lineBytes l.data)
    secondPoison := spPut false s.secondPoison ((e.dst * 65536 + 64 * e.line) / 64) l.poison
    out := s.out ++ [.cxlWrite (e.dst * 65536 + 64 * e.line) l]
    evict := some { e with line := e.line + 1, asked := false, poisoned := e.poisoned || l.poison } } := by
  simp only [State.evictLine, he, ne_eq, not_true_eq_false, if_false]
  rfl

theorem exec_deliver_evict {k : Nat} (hr : ToDeliver s id r) (huse : r.use = .evict k) :
    exec (.hbmReadDeliver id) s = .next ((s.delivered id).evictLine k (if r.half false = 0 then r.l1 else r.l0)) := by
  change execHbmReadDeliver id s = _
  simp only [execHbmReadDeliver, hr, huse]
  rfl

/-- A line of the second tier that has been written. -/
theorem bytesAt_putLine (m : Sparse Byte) (a : Nat) (d : BitVec 512) : bytesAt (putBytes m a (lineBytes d)) a 64 = natLe 64 d.toNat := by
  have h := bytesAt_putBytes m a (lineBytes d)
  rwa [lineBytes_length] at h

theorem deliver_evict {k : Nat} {e : Evict} (hr : ToDeliver s id r) (huse : r.use = .evict k) (he : s.evict = some e) (hk : e.id = k) :
    Does (.hbmReadDeliver id) s fun t =>
      { t with reqs := s.reqs, second := s.second, secondPoison := s.secondPoison, out := s.out, evict := s.evict } = s ∧
      t.reqs = (s.reqs.filter fun q => q.id != id) ∧
      let first := if r.half false = 0 then r.l1 else r.l0
      let a := e.dst * 65536 + 64 * e.line
      bytesAt t.second a 64 = natLe 64 first.data.toNat ∧ spGet false t.secondPoison (a / 64) = first.poison ∧
      (∀ x, x < a ∨ a + 64 ≤ x → spGet 0 t.second x = spGet 0 s.second x) ∧ t.out = s.out ++ [.cxlWrite a first] ∧
      t.evict = some { e with line := e.line + 1, asked := false, poisoned := e.poisoned || first.poison } := by
  subst hk
  refine ⟨_, exec_deliver_evict hr huse, ?_⟩
  rw [State.evictLine_eq (s := s.delivered id) _ he]
  refine ⟨rfl, rfl, bytesAt_putLine .., spGet_put_same .., fun x hx => ?_, rfl, rfl⟩
  exact spGet_putBytes_out _ _ _ _ (by rwa [lineBytes_length])

/-- Any other access is done with. -/
theorem deliver_other (hr : ToDeliver s id r) (hcopy : ∀ run i n, r.use ≠ .copyRead run i n) (hevict : ∀ k, r.use ≠ .evict k)
    (hhost : (∃ k, r.use = .host k) → r.write = true) : exec (.hbmReadDeliver id) s = .next (s.delivered id) := by
  change execHbmReadDeliver id s = _
  cases huse : r.use with
  | copyRead run i n => exact absurd huse (hcopy run i n)
  | evict k => exact absurd huse (hevict k)
  | host k =>
    have hw := hhost ⟨k, huse⟩
    cases hq : s.hostq <;> simp [execHbmReadDeliver, hr, huse, hq, hw, State.delivered]
  | _ => simp only [execHbmReadDeliver, hr, huse, State.delivered]

end Sys2Proof.Machine
end

section
/-!
PROOF. Span walks (R56) and host accesses (R278, R356).
-/
namespace Sys2Proof.Machine

variable {s t : State}

/-! ## Span walks (R56) -/

theorem State.logs_noteRead (s : State) (a : Nat) (ten : Option Nat) : Logs s (s.noteRead a ten) := by
  unfold State.noteRead
  dsimp only
  split
  · exact s.logs_faqLog ..
  · exact s.logs_readLine ..

theorem State.logs_walkNotes (s : State) (space group : Nat) : Logs s (s.walkNotes space group) := by
  unfold State.walkNotes
  generalize s.walkLines space group = l
  induction l generalizing s with
  | nil => exact Logs.refl s
  | cons a l ih => exact (s.logs_noteRead a _).trans (ih _)

/-- A leaf block is read where it is not cached. -/
def State.walkRead (s : State) (die space group : Nat) : State :=
  if (s.spanFind die space group).isSome then s else s.walkNotes space group

theorem State.logs_walkRead (s : State) (die space group : Nat) : Logs s (s.walkRead die space group) := by
  unfold State.walkRead
  split
  · exact Logs.refl s
  · exact s.logs_walkNotes ..

theorem State.spansOf_setSpans (s : State) (die d : Nat) (l : List SpanEnt) :
    (s.setSpans die l).spansOf d = if d = die then l else s.spansOf d := spGet_put _ _ _ _ _

/-- The entry that stands in a die's span cache after a leaf block has been entered. -/
def State.spanEntry (s : State) (die space group : Nat) (pin : Bool) : SpanEnt :=
  ⟨space, group, (s.spanFind die space group).elim (s.leafAt (s.walkLeaf space group)) (·.leaf),
    pin || (s.spanFind die space group).elim false (·.pinned)⟩

theorem State.spanFill_eq (s : State) (die space group : Nat) (pin : Bool) :
    ∃ l, s.spanFill die space group pin = s.setSpans die (s.spanEntry die space group pin :: l) := by
  unfold State.spanFill State.spanEntry
  cases s.spanFind die space group <;> exact ⟨_, rfl⟩

theorem State.spanFind_spanFill (s : State) (die space group : Nat) (pin : Bool) :
    (s.spanFill die space group pin).spanFind die space group = some (s.spanEntry die space group pin) := by
  obtain ⟨l, hl⟩ := s.spanFill_eq die space group pin
  rw [hl, State.spanFind, State.spansOf_setSpans, if_pos rfl]
  exact List.find?_cons_of_pos (by simp [State.spanEntry])

/-- A walk of a space's group in a die's span cache. -/
def Walk.isFor (die space group : Nat) (w : Walk) : Bool := w.die == die && w.space == space && w.group == group

theorem Walk.isFor_iff {die space group : Nat} {w : Walk} :
    w.isFor die space group = true ↔ w.die = die ∧ w.space = space ∧ w.group = group := by
  simp [Walk.isFor, and_assoc]

theorem exec_spanWalk {die space group : Nat} {w : Walk} (hw : s.walks.find? (Walk.isFor die space group) = some w) :
    exec (.spanWalkComplete die space group) s =
      .next ((({ s with walks := s.walks.filter fun w => !w.isFor die space group } : State).walkRead die space group).spanFill
        die space group w.pin) := by
  change execSpanWalkComplete die space group s = _
  unfold execSpanWalkComplete
  split
  next hn => exact absurd (hw.symm.trans hn) (Option.some_ne_none w)
  next v hv =>
    cases hw.symm.trans hv
    rfl

theorem spanWalk_completes {die space group : Nat} {w : Walk} (hw : s.walks.find? (Walk.isFor die space group) = some w) :
    Does (.spanWalkComplete die space group) s fun t => { t with walks := s.walks, spans := s.spans, agenda := s.agenda } = s ∧
      (∃ l, t.agenda = s.agenda ++ l) ∧
      (∀ v, v ∈ t.walks ↔ v ∈ s.walks ∧ ¬(v.die = die ∧ v.space = space ∧ v.group = group)) ∧
      (∀ d, d ≠ die → t.spansOf d = s.spansOf d) ∧
      t.spanFind die space group = some (s.spanEntry die space group w.pin) := by
  refine ⟨_, exec_spanWalk hw, ?_⟩
  obtain ⟨l, hl⟩ := State.logs_walkRead { s with walks := s.walks.filter fun w => !w.isFor die space group } die space group
  rw [hl]
  have hfind := State.spanFind_spanFill
    { s with walks := s.walks.filter fun w => !w.isFor die space group, agenda := s.agenda ++ l } die space group w.pin
  obtain ⟨es, hes⟩ := State.spanFill_eq
    { s with walks := s.walks.filter fun w => !w.isFor die space group, agenda := s.agenda ++ l } die space group w.pin
  refine ⟨?_, ⟨l, ?_⟩, fun v => ?_, fun d hd => ?_, hfind⟩ <;> dsimp only <;> rw [hes]
  · rfl
  · rfl
  · rw [← Walk.isFor_iff, Bool.not_eq_true, ← Bool.not_eq_true']
    exact List.mem_filter
  · rw [State.spansOf_setSpans, if_neg hd]
    rfl

theorem spanWalk_stays {die space group : Nat} (h : ∀ w ∈ s.walks, ¬(w.die = die ∧ w.space = space ∧ w.group = group)) :
    Stays (.spanWalkComplete die space group) s := by
  have hnone : s.walks.find? (Walk.isFor die space group) = none :=
    List.find?_eq_none.2 fun w hw hfor => h w hw (Walk.isFor_iff.1 hfor)
  change execSpanWalkComplete die space group s = _
  unfold execSpanWalkComplete
  split
  next => rfl
  next w hw => exact absurd (hnone.symm.trans hw) (Option.some_ne_none w).symm

/-! ## Host accesses (R278, R356) -/

theorem State.barOk_iff {addr n : Nat} : s.barOk addr n = true ↔ ∀ i < n, s.barPlace (addr + i) ≠ .none := by
  simp [State.barOk]

theorem State.accept_ok {addr n : Nat} (write : Bool) (bs : List Byte) (h : ∀ i < n, s.barPlace (addr + i) ≠ .none) :
    s.accept write addr n bs =
      { s with hostq := s.hostq ++ [⟨s.nextId, write, addr, bs, n, false, s.scyc⟩], nextId := s.nextId + 1 } := by
  rw [State.accept, if_pos (State.barOk_iff.2 h)]

theorem State.accept_none {addr n i : Nat} (write : Bool) (bs : List Byte) (hi : i < n) (h : s.barPlace (addr + i) = .none) :
    s.accept write addr n bs = s.send .unsupported := by
  rw [State.accept, if_neg fun hok => State.barOk_iff.1 hok i hi h]

section Oldest

variable {h : HostAcc} {hs : List HostAcc} (hq : s.hostq = h :: hs) (hasked : h.asked = false) (hleft : h.left ≠ 0)
include hq hasked hleft

theorem State.hostMove_hbm {a : Nat} (hp : s.barPlace h.addr = .hbm a) :
    s.hostMove = ({ s with hostq := { h with asked := true } :: hs } : State).askFree (s.hostUnit h a) := by
  unfold State.hostMove
  split
  next hn => exact absurd (hq.symm.trans hn) (List.cons_ne_nil _ _)
  next g gs hg =>
    obtain ⟨rfl, rfl⟩ := List.cons.inj (hq.symm.trans hg)
    rw [hasked, if_neg Bool.false_ne_true, if_neg hleft, hp]

/-- The first access asks for one unit of HBM4E, in a host slot. -/
theorem State.hostMove_asks {a : Nat} (hp : s.barPlace h.addr = .hbm a) :
    ∃ q, q.who = 0x11 ∧ q.id = s.nextId ∧ q.addr = a / 128 * 128 ∧ q.write = h.write ∧ q.use = .host h.id ∧
      s.hostMove = { s with hostq := { h with asked := true } :: hs, uq := s.uq ++ [q], nextId := s.nextId + 1 } :=
  ⟨{ s.hostUnit h a with id := s.nextId }, rfl, rfl, rfl, rfl, rfl, State.hostMove_hbm hq hasked hleft hp⟩

theorem State.hostMove_ls {p : LsAddr} (hp : s.barPlace h.addr = .ls p) : s.hostMove =
    let n := min h.left (64 - p.byte % 64)
    if h.write = true ∧ s.nearWrite p = true then s
    else if h.write = true then
      ({ s with pend := s.pend ++ [⟨.scyc, s.scyc, false, Own.none (128 * p.die),
        .lsStore p (List.replicate n true) (h.bytes.take n)⟩] } : State).hostDone n []
    else s.hostDone n (s.lsBytes p n) := by
  unfold State.hostMove
  split
  next hn => exact absurd (hq.symm.trans hn) (List.cons_ne_nil _ _)
  next g gs hg =>
    obtain ⟨rfl, rfl⟩ := List.cons.inj (hq.symm.trans hg)
    rw [hasked, if_neg Bool.false_ne_true, if_neg hleft, hp]

/-- The write of a line waits for the near port of its bank. -/
theorem State.hostMove_waits {p : LsAddr} (hp : s.barPlace h.addr = .ls p) (hw : h.write = true) (hnear : s.nearWrite p = true) :
    s.hostMove = s := by
  rw [State.hostMove_ls hq hasked hleft hp]
  exact if_pos ⟨hw, hnear⟩

theorem State.hostMove_stores {p : LsAddr} (hp : s.barPlace h.addr = .ls p) (hw : h.write = true) (hnear : s.nearWrite p = false) :
    let n := min h.left (64 - p.byte % 64)
    s.hostMove.pend = s.pend ++ [⟨.scyc, s.scyc, false, Own.none (128 * p.die), .lsStore p (List.replicate n true) (h.bytes.take n)⟩] := by
  intro n
  rw [State.hostMove_ls hq hasked hleft hp]
  dsimp only
  rw [if_neg (by simp [hnear]), if_pos hw]
  obtain ⟨hs, os, hdone⟩ := State.hostDone_eq { s with pend := s.pend ++ [⟨.scyc, s.scyc, false, Own.none (128 * p.die),
    .lsStore p (List.replicate n true) (h.bytes.take n)⟩] } n []
  exact congrArg State.pend hdone

theorem State.hostMove_reads {p : LsAddr} (hp : s.barPlace h.addr = .ls p) (hw : h.write = false)
    (hlast : h.left = min h.left (64 - p.byte % 64)) : s.hostMove =
      { s with hostq := hs, out := s.out ++ [.readData (h.bytes ++ bytesAt s.ls p.key (min h.left (64 - p.byte % 64)))] } := by
  rw [State.hostMove_ls hq hasked hleft hp]
  dsimp only
  rw [hw, if_neg (by simp), if_neg Bool.false_ne_true, State.hostDone_read _ hq hw (Nat.min_le_left ..), if_pos hlast]
  rfl

end Oldest

end Sys2Proof.Machine
end

section
/-!
PROOF. The steps of the memory controllers and of the host's accesses, together (03, R278, R356).
-/
namespace Sys2Proof.Machine

/-- The choice as R43 words it: the oldest refresh-management command, else the oldest refresh. -/
theorem PchSt.firstDue_of_match {x : PchSt} {d : Bool × Nat}
    (h : (match x.due.find? fun d => d.1 with | some d => some d | none => x.due.head?) = some d) : x.firstDue = some d := by
  unfold PchSt.firstDue
  revert h
  cases x.due.find? fun d => d.1 <;> exact id

/-- Settles O53: each clause is the rule of its step, by the case that the clause names. -/
theorem memorySteps : Obligations.MemorySteps := by
  intro s
  refine ⟨fun _ => commit_busy, fun _ => commit_idle, fun _ => slotTableSwitch_due, fun _ => slotTableSwitch_early,
    fun _ _ _ _ _ h => refreshDue_waits (exec_refreshDue h), fun _ _ _ h => maintenanceSlot_command (PchSt.firstDue_of_match h),
    fun _ _ => maintenanceSlot_stays, fun _ _ _ _ _ _ => maintenanceSlot_test, fun _ => test_stays, fun _ _ => test_begins,
    fun _ => park_on, fun _ => park_none, fun _ => park_off, fun _ => park_off_stopsTest, fun _ => perform_stays,
    fun id r hr => ?perform, fun _ => deliver_stays, fun id r hr => ?deliver, fun die space group w hw => ?walk,
    fun _ _ _ => spanWalk_stays, fun addr bs h => ?write, fun addr bs i hi h => ?writeNone, fun addr n h => ?read,
    fun addr n i hi h => ?readNone, fun h hs hq hasked hleft => ?move⟩
  case perform =>
    exact ⟨perform_dropped hr, perform_parked hr, fun huse hp o => perform_old hr huse hp, perform_write hr, perform_read hr⟩
  case deliver =>
    exact ⟨fun run i n => deliver_copyRead hr, fun k h hs => deliver_host hr, fun k e => deliver_evict hr, deliver_other hr⟩
  case walk =>
    obtain ⟨t, hexec, hframe, hlog, hwalks, hother, hfind⟩ := spanWalk_completes hw
    refine ⟨t, hexec, hframe, hlog, hwalks, hother, _, hfind, fun hpin => ?_, ?_⟩
    · simp [State.spanEntry, hpin]
    · unfold State.spanEntry
      cases s.spanFind die space group <;> rfl
  case write => exact congrArg Host.Outcome.next (State.accept_ok true bs h)
  case writeNone => exact congrArg Host.Outcome.next (State.accept_none true bs hi h)
  case read => exact congrArg Host.Outcome.next (State.accept_ok false [] h)
  case readNone => exact congrArg Host.Outcome.next (State.accept_none false [] hi h)
  case move =>
    refine ⟨fun a => State.hostMove_asks hq hasked hleft, fun p hp => ⟨?_, ?_, ?_⟩⟩
    · exact State.hostMove_waits hq hasked hleft hp
    · exact State.hostMove_stores hq hasked hleft hp
    · exact State.hostMove_reads hq hasked hleft hp

end Sys2Proof.Machine
end

section
/-!
PROOF. The handle check (04 R59, Table 4.4): the trap of each failing row, what passes every row, and what an indexed access of the latent
store makes of it.
-/
namespace Sys2Proof.Machine

/-! ## The pages of an access -/

theorem spanBit_of_lt {m : BitVec 64} {i : Nat} (hi : i < 64) : spanBit m i = m.getLsbD i := by simp [spanBit, hi]

/-- A page below the span's count is one of the bitmap's 64. -/
theorem spanPage_lt {g : BitVec 6} {b : Nat} (hb : b < (g.toNat + 1) * 65536) : b / 65536 < 64 := by
  have := g.isLt
  omega

theorem pagesOk_iff {m : BitVec 64} {o n : Nat} (hn : 0 < n) :
    pagesOk m o n = true ↔ ∀ i, o / 65536 ≤ i → i ≤ (o + n - 1) / 65536 → spanBit m i = true := by
  have hle : o / 65536 ≤ (o + n - 1) / 65536 := Nat.div_le_div_right (by omega)
  simp only [pagesOk, List.all_eq_true, List.mem_range]
  constructor
  · intro hall i hlo hhi
    simpa [Nat.add_sub_cancel' hlo] using hall (i - o / 65536) (by omega)
  · exact fun hall k hk => hall _ (by omega) (by omega)

/-- An access that ends in the page in which it begins needs that page alone. -/
theorem pagesOk_onePage {m : BitVec 64} {o n : Nat} (h : (o + n - 1) / 65536 = o / 65536) : pagesOk m o n = spanBit m (o / 65536) := by
  simp [pagesOk, h]

theorem szBytes_pos (z : Sz) : 0 < z.bytes := by cases z <;> decide

/-- An aligned access of a size of Table 8.5 stays in one page. -/
theorem lastPage_of_aligned {z : Sz} {o : Nat} (ho : o % z.bytes = 0) : (o + z.bytes - 1) / 65536 = o / 65536 := by
  cases z <;> simp only [Sz.bytes] at ho ⊢ <;> omega

/-! ## The rows of Table 4.4 -/

section Rows

variable {h : BitVec 4} {x : Handle} {o n : Nat} {wr lsp : Bool}

theorem handleCheck_of_not_v (hv : x.v = false) : handleCheck h x o n wr lsp = some (.handle h x.hst (BitVec.ofNat 64 o)) := by
  simp [handleCheck, hv]

theorem handleCheck_of_pastSpan (hv : x.v = true) (ho : o + n > (x.npgm1.toNat + 1) * 65536) :
    handleCheck h x o n wr lsp = some (.range (BitVec.ofNat 64 o) (some h)) := by
  simp [handleCheck, hv, ho]

/-- Within the span, the three rows left all raise HANDLE. -/
theorem handleCheck_inSpan (hv : x.v = true) (ho : o + n ≤ (x.npgm1.toNat + 1) * 65536) :
    handleCheck h x o n wr lsp =
      if pagesOk x.valid o n = true ∧ (wr = true → x.w = true) ∧ x.sp = lsp then none
      else some (.handle h x.hst (BitVec.ofNat 64 o)) := by
  have hin : ¬(o + n > (x.npgm1.toNat + 1) * 65536) := Nat.not_lt.2 ho
  by_cases hp : pagesOk x.valid o n = true
  case neg => simp [handleCheck, hv, hin, hp]
  by_cases hw : wr = true → x.w = true
  case neg =>
    obtain ⟨hwr, hw⟩ := Classical.not_imp.1 hw
    simp [handleCheck, hv, hin, hp, hwr, hw]
  by_cases hs : x.sp = lsp
  case neg => simp [handleCheck, hv, hin, hs]
  rw [if_pos ⟨hp, hw, hs⟩]
  simpa [handleCheck, hv, hin, hp, hs] using hw

theorem handleCheck_of_page (hv : x.v = true) (ho : o + n ≤ (x.npgm1.toNat + 1) * 65536) (hp : pagesOk x.valid o n = false) :
    handleCheck h x o n wr lsp = some (.handle h x.hst (BitVec.ofNat 64 o)) := by
  simp [handleCheck_inSpan hv ho, hp]

theorem handleCheck_of_readOnly (hv : x.v = true) (ho : o + n ≤ (x.npgm1.toNat + 1) * 65536) (hw : x.w = false) :
    handleCheck h x o n true lsp = some (.handle h x.hst (BitVec.ofNat 64 o)) := by
  simp [handleCheck_inSpan hv ho, hw]

theorem handleCheck_of_space (hv : x.v = true) (ho : o + n ≤ (x.npgm1.toNat + 1) * 65536) (hs : x.sp ≠ lsp) :
    handleCheck h x o n wr lsp = some (.handle h x.hst (BitVec.ofNat 64 o)) := by
  simp [handleCheck_inSpan hv ho, hs]

theorem handleCheck_of_ok (hn : 0 < n) (hok : HandleOk x o n wr lsp) : handleCheck h x o n wr lsp = none := by
  obtain ⟨hv, ho, hvalid, hw, hs⟩ := hok
  have hpages : pagesOk x.valid o n = true := (pagesOk_iff hn).2 fun i hlo hhi => by
    have hi : i < 64 := Nat.lt_of_le_of_lt hhi (spanPage_lt (g := x.npgm1) (by omega))
    rw [spanBit_of_lt hi]
    exact hvalid i hi hlo hhi
  rw [handleCheck_inSpan hv ho, if_pos ⟨hpages, hw, hs⟩]

/-- The check looks at W for a write alone, so that a handle that a write may use is one that a read may use. -/
theorem HandleOk.of_write (hok : HandleOk x o n true lsp) (wr : Bool) : HandleOk x o n wr lsp := by
  obtain ⟨hv, ho, hvalid, hw, hs⟩ := hok
  exact ⟨hv, ho, hvalid, fun _ => hw rfl, hs⟩

end Rows

/-! ## Accesses of the latent store through a handle -/

section Access

variable {s : State} {p : BitVec 3} {d x : BitVec 5} {h : BitVec 4} {z : Sz} {o : Word} {n align : Nat} {wr lsp : Bool} {k : TrapKind}
  {ok : LsAddr → State → State}

theorem State.handleOp_of_check (hc : handleCheck h (s.rdH h) o.toNat n wr lsp = some k) : s.handleOp h o n align wr lsp ok = s.trap k := by
  simp [State.handleOp, hc]

theorem State.handleOp_unaligned (hc : handleCheck h (s.rdH h) o.toNat n wr lsp = none) (ho : o.toNat % align ≠ 0) :
    s.handleOp h o n align wr lsp ok = s.trap (.align o (some h)) := by
  simp [State.handleOp, hc, ho]

theorem exec_ldlIndexed (hr : Ready s p [x]) : exec (.ldlIndexed p d h z x) s = .next (s.ldlAt d h (s.rdS x) z.bytes) :=
  congrArg Host.Outcome.next (State.slotOp_ready s p [x] _ hr)

theorem exec_stlIndexed (hr : Ready s p [d, x]) : exec (.stlIndexed p d h z x) s = .next (s.stlAt d h (s.rdS x) z.bytes) :=
  congrArg Host.Outcome.next (State.slotOp_ready s p [d, x] _ hr)

/-- The sources of the store hold that of the load. -/
theorem Ready.index (hr : Ready s p [d, x]) : Ready s p [x] := ⟨hr.1, fun r hmem => hr.2 r (List.mem_cons_of_mem d hmem)⟩

theorem ldlIndexed_traps_check (hr : Ready s p [x]) (hc : handleCheck h (s.rdH h) (s.rdS x).toNat z.bytes false true = some k) :
    Traps (.ldlIndexed p d h z x) s k :=
  (exec_ldlIndexed hr).trans (congrArg Host.Outcome.next (State.handleOp_of_check hc))

theorem stlIndexed_traps_check (hr : Ready s p [d, x]) (hc : handleCheck h (s.rdH h) (s.rdS x).toNat z.bytes true true = some k) :
    Traps (.stlIndexed p d h z x) s k :=
  (exec_stlIndexed hr).trans (congrArg Host.Outcome.next (State.handleOp_of_check hc))

/-- A row that fails for reads and writes alike is the trap of the load and of the store. -/
theorem indexed_traps_check (hr : Ready s p [d, x])
    (hc : ∀ wr, handleCheck h (s.rdH h) (s.rdS x).toNat z.bytes wr true = some k) :
    Traps (.ldlIndexed p d h z x) s k ∧ Traps (.stlIndexed p d h z x) s k :=
  ⟨ldlIndexed_traps_check hr.index (hc false), stlIndexed_traps_check hr (hc true)⟩

theorem indexed_traps_unaligned (hr : Ready s p [d, x])
    (hc : ∀ wr, handleCheck h (s.rdH h) (s.rdS x).toNat z.bytes wr true = none) (ho : (s.rdS x).toNat % z.bytes ≠ 0) :
    Traps (.ldlIndexed p d h z x) s (.align (s.rdS x) (some h)) ∧ Traps (.stlIndexed p d h z x) s (.align (s.rdS x) (some h)) :=
  ⟨(exec_ldlIndexed hr.index).trans (congrArg Host.Outcome.next (State.handleOp_unaligned (hc false) ho)),
    (exec_stlIndexed hr).trans (congrArg Host.Outcome.next (State.handleOp_unaligned (hc true) ho))⟩

end Access

/-- Settles O12: each clause is a row of the check, in the order of Table 4.4, and the last is ALIGN. -/
theorem handleCheckOrder : Obligations.HandleCheckOrder := by
  intro s p d x h z hr o y bad
  have hoff : BitVec.ofNat 64 o = s.rdS x := by simp [o]
  have hbad : some (.handle h y.hst (BitVec.ofNat 64 o)) = some bad := by rw [hoff]
  refine ⟨fun hv => ?notV, fun hv ho => ?pastSpan, fun hv ho halign => ⟨fun hp => ?page, fun _ => ⟨fun hw => ?readOnly, fun hs => ?space⟩⟩,
    fun hok halign => ?align⟩
  case notV => exact indexed_traps_check hr fun _ => (handleCheck_of_not_v hv).trans hbad
  case pastSpan => exact indexed_traps_check hr fun _ => (handleCheck_of_pastSpan hv ho).trans (by rw [hoff])
  case page =>
    have hpage : pagesOk y.valid o z.bytes = false := by
      have hlt : o / 65536 < 64 := spanPage_lt (g := y.npgm1) (by have := szBytes_pos z; omega)
      rw [pagesOk_onePage (lastPage_of_aligned halign), spanBit_of_lt hlt, hp]
    exact indexed_traps_check hr fun _ => (handleCheck_of_page hv ho hpage).trans hbad
  case readOnly => exact stlIndexed_traps_check hr ((handleCheck_of_readOnly hv ho hw).trans hbad)
  case space => exact indexed_traps_check hr fun _ => (handleCheck_of_space hv ho (by simp [y, hs])).trans hbad
  case align => exact indexed_traps_unaligned hr (fun wr => handleCheck_of_ok (szBytes_pos z) (hok.of_write wr)) halign

end Sys2Proof.Machine
end

section
/-!
PROOF. The words of the holder (07 R105): outside it each of them raises ILLEGAL with cause HOLDER, whatever its predicate.
-/
namespace Sys2Proof.Machine

variable {i : Instr} {s : State}

/-! ## What the words of the V and X slots are -/

/-- R213: whatever it computes, a word of a V slot runs through `State.vec`. -/
theorem exec_vWord (h : i.cls = some .v) (s : State) : ∃ p ss vs body, exec i s = s.vec p ss vs body := by
  cases i <;> cases h
  all_goals exact ⟨_, _, _, _, rfl⟩

/-- R243: a word of the X slot but ACSAVE and ACREST runs through `State.xOp`. -/
theorem exec_xWord (h : i.cls = some .x) (hsave : isAccSave i = false) (s : State) :
    ∃ p srcs body, exec i s = s.xOp p srcs body := by
  cases i <;> cases h
  case acsave => cases hsave
  case acrest => cases hsave
  all_goals exact ⟨_, _, _, rfl⟩

/-- R265: ACSAVE and ACREST run through `State.xPriv`. -/
theorem exec_accSave (hsave : isAccSave i = true) (s : State) : ∃ p base body, exec i s = s.xPriv p base body := by
  cases i <;> cases hsave
  all_goals exact ⟨_, _, _, rfl⟩

/-! ## The gate of a word of the holder -/

/-- A base operand in a b register is the holder's. -/
theorem State.baseOp_b (r : BitVec 3) (body : State → State) : s.baseOp (.b r) body = s.holderOp body := rfl

section Other

variable (hother : s.isHolder = false)
include hother

theorem traps_of_holderOp {body : State → State} (hi : exec i s = .next (s.holderOp body)) : Traps i s (.illegal 10 0) :=
  hi.trans (congrArg Host.Outcome.next (State.holderOp_other s body hother))

theorem traps_of_baseOp_b {r : BitVec 3} {body : State → State} (hi : exec i s = .next (s.baseOp (.b r) body)) :
    Traps i s (.illegal 10 0) :=
  traps_of_holderOp hother (hi.trans (congrArg Host.Outcome.next (State.baseOp_b r body)))

/-- Outside the firmware context too, a privileged X word finds HOLDER before PRIV (log 18). -/
theorem State.xPriv_other (hfw : s.isFw = false) (p : BitVec 3) (base : Base) (body : State → State) :
    s.xPriv p base body = .next (s.trap (.illegal 10 0)) := by
  simp [State.xPriv, hother, hfw]

theorem getsr_traps_holder {n : BitVec 10} (hn : holderSr n.toNat = true) (p : BitVec 3) (d : BitVec 5) :
    Traps (.getsr p d n) s (.illegal 10 0) :=
  congrArg Host.Outcome.next (if_pos (by simp [hn, hother]))

theorem setsr_traps_holder {n : BitVec 10} (hn : holderSr n.toNat = true) (p : BitVec 3) (a : BitVec 5) :
    Traps (.setsr p a n) s (.illegal 10 0) :=
  congrArg Host.Outcome.next (if_pos (by simp [hn, hother]))

theorem vWord_traps_holder (h : i.cls = some .v) : Traps i s (.illegal 10 0) := by
  obtain ⟨p, ss, vs, body, hi⟩ := exec_vWord h s
  exact traps_of_holderOp hother hi

theorem xWord_traps_holder (h : i.cls = some .x) (hexempt : s.isFw = false ∨ isAccSave i = false) : Traps i s (.illegal 10 0) := by
  cases hsave : isAccSave i with
  | false =>
    obtain ⟨p, srcs, body, hi⟩ := exec_xWord h hsave s
    exact traps_of_holderOp hother hi
  | true =>
    have hfw : s.isFw = false := hexempt.resolve_right (by simp [hsave])
    obtain ⟨p, base, body, hi⟩ := exec_accSave hsave s
    exact hi.trans (State.xPriv_other hother hfw p base body)

end Other

/-- Settles O34: each word is gated by the holder before its predicate, its slot's meaning or its operands are looked at. -/
theorem holderWords : Obligations.HolderWords := by
  intro s hother
  refine ⟨fun i => vWord_traps_holder hother, fun i => xWord_traps_holder hother, fun p a b c f n m e base o => ?engine,
    fun p r e d x z o q => ?base, fun p d n hn => ?special⟩
  case engine => and_intros <;> exact traps_of_holderOp hother rfl
  case base => and_intros <;> exact traps_of_baseOp_b hother rfl
  case special => exact ⟨getsr_traps_holder hother hn p d, setsr_traps_holder hother hn p d⟩

end Sys2Proof.Machine
end

section
/-!
PROOF. The integer words (09 R163, R164): a word with two sources, or one and an immediate, asks for one write of its function's value, and
the functions are those of Table 9.1.
-/
namespace Sys2Proof.Machine

variable {s : State} {i : Instr} {p : BitVec 3} {d a b : BitVec 5} {off : Nat}

/-! ## The words -/

/-- A word that acts only by its gate asks for what its body asks for. -/
theorem emits_of_slotOp {srcs : List (BitVec 5)} {body : State → State} {l : List Pend} (hr : Ready s p srcs)
    (hi : exec i s = .next (s.slotOp p srcs body)) (hb : body s = s.plus l) : Emits i s l := by
  rw [Emits, hi, State.slotOp_ready s p srcs body hr, hb]

/-- So does one that only traps. -/
theorem traps_of_slotOp {srcs : List (BitVec 5)} {body : State → State} {k : TrapKind} (hr : Ready s p srcs)
    (hi : exec i s = .next (s.slotOp p srcs body)) (hb : body s = s.trap k) : Traps i s k := by
  rw [Traps, hi, State.slotOp_ready s p srcs body hr, hb]

theorem emits_of_alu {f : Word → Word → Word} {v : Word} (hr : Ready s p [a, b]) (hi : exec i s = s.alu p d a b off f)
    (hv : f (s.rdS a) (s.rdS b) = v) : Emits i s [s.result off d v] :=
  emits_of_slotOp hr hi (by rw [hv]; rfl)

theorem emits_of_aluI {f : Word → Word → Word} {w v : Word} (hr : Ready s p [a]) (hi : exec i s = s.aluI p d a w f)
    (hv : f (s.rdS a) w = v) : Emits i s [s.result 1 d v] :=
  emits_of_slotOp hr hi (by rw [hv]; rfl)

/-! ## The functions of Table 9.1 -/

theorem mul_eq_low (x y : Word) : x * y = (x.zeroExtend 128 * y.zeroExtend 128).extractLsb' 0 64 := by
  apply BitVec.eq_of_toNat_eq
  simp [Nat.mod_mod_of_dvd]

theorem mulhnW_eq_high (x y : Word) : mulhnW x y = (x.zeroExtend 128 * y.zeroExtend 128).extractLsb' 64 64 := by
  have hxy : x.toNat * y.toNat < 2 ^ 64 * 2 ^ 64 := Nat.mul_lt_mul'' x.isLt y.isLt
  apply BitVec.eq_of_toNat_eq
  simp [mulhnW, Nat.shiftRight_eq_div_pow]
  omega

/-- The signed product in 128 bits is exact. -/
theorem signExtend_mul (x y : Word) : x.signExtend 128 * y.signExtend 128 = BitVec.ofInt 128 (x.toInt * y.toInt) :=
  (BitVec.ofInt_mul ..).symm

theorem extractHigh_ofInt (k : Int) : (BitVec.ofInt 128 k).extractLsb' 64 64 = BitVec.ofInt 64 (k / 2 ^ 64) := by
  apply BitVec.eq_of_toNat_eq
  simp only [BitVec.extractLsb'_toNat, BitVec.toNat_ofInt, Nat.shiftRight_eq_div_pow]
  omega

theorem mulhW_eq_high (x y : Word) : mulhW x y = (x.signExtend 128 * y.signExtend 128).extractLsb' 64 64 := by
  rw [signExtend_mul, extractHigh_ofInt, mulhW]

/-- Two conditions make the same choice where the choice matters. -/
theorem ite_eq_ite_of_imp {α : Type} {c e : Prop} [Decidable c] [Decidable e] {x y : α} (hce : e → c) (heq : c → ¬e → x = y) :
    (if c then x else y) = if e then x else y := by
  by_cases he : e
  · rw [if_pos he, if_pos (hce he)]
  · by_cases hc : c
    · rw [heq hc he, ite_self, ite_self]
    · rw [if_neg he, if_neg hc]

theorem eq_of_toInt_le {x y : Word} (hle : x.toInt ≤ y.toInt) (hlt : ¬x.toInt < y.toInt) : x = y :=
  BitVec.eq_of_toInt_eq (Int.le_antisymm hle (Int.not_lt.1 hlt))

theorem eq_of_toNat_le {x y : Word} (hle : x.toNat ≤ y.toNat) (hlt : ¬x.toNat < y.toNat) : x = y :=
  BitVec.eq_of_toNat_eq (Nat.le_antisymm hle (Nat.not_lt.1 hlt))

theorem minW_eq (x y : Word) : minW x y = if x.toInt < y.toInt then x else y := by
  simp only [minW, BitVec.sle_iff_toInt_le]
  exact ite_eq_ite_of_imp Int.le_of_lt eq_of_toInt_le

theorem maxW_eq (x y : Word) : maxW x y = if x.toInt < y.toInt then y else x := by
  simp only [maxW, BitVec.sle_iff_toInt_le]
  exact ite_eq_ite_of_imp Int.le_of_lt fun hle hlt => (eq_of_toInt_le hle hlt).symm

theorem minnW_eq (x y : Word) : minnW x y = if x.toNat < y.toNat then x else y := by
  simp only [minnW, BitVec.ule_iff_toNat_le]
  exact ite_eq_ite_of_imp Nat.le_of_lt eq_of_toNat_le

theorem maxnW_eq (x y : Word) : maxnW x y = if x.toNat < y.toNat then y else x := by
  simp only [maxnW, BitVec.ule_iff_toNat_le]
  exact ite_eq_ite_of_imp Nat.le_of_lt fun hle hlt => (eq_of_toNat_le hle hlt).symm

/-! ## Immediates (R128, R163) -/

theorem sext_toNat {n : Nat} (x : BitVec n) (hn : 0 < n) : sext n x.toNat = x.toInt := by
  have hpow : 2 ^ n = 2 * 2 ^ (n - 1) := by rw [← Nat.pow_add_one', Nat.sub_add_cancel hn]
  rw [sext, Nat.mod_eq_of_lt x.isLt, BitVec.toInt_eq_toNat_cond]
  push_cast
  exact ite_congr (by rw [hpow]; simp) (fun _ => rfl) fun _ => rfl

theorem append_toNat {n w : Nat} (l : BitVec n) (k : BitVec w) : (l ++ k).toNat = l.toNat * 2 ^ w + k.toNat := by
  rw [BitVec.toNat_append, ← Nat.shiftLeft_add_eq_or_of_lt k.isLt, Nat.shiftLeft_eq]

/-- The eight LEND bits stand above the field's own. -/
theorem immWord_eq_extended {w : Nat} (k : BitVec w) (e : Ext) : immWord k e = extended k e := by
  cases e with
  | none => rfl
  | some l =>
    have hint : extInt k (some l) = (l ++ k).toInt := by
      rw [extInt, ← append_toNat, Nat.add_comm w 8, sext_toNat _ (by omega)]
    rw [immWord, hint]
    rfl

/-- An amount of six bits is below 64. -/
theorem shift_immediate (x : Word) (n : BitVec 6) : shlW x (n.zeroExtend 64) = x <<< n.toNat ∧ shrW x (n.zeroExtend 64) = x >>> n.toNat ∧
    sarW x (n.zeroExtend 64) = x.sshiftRight n.toNat := by
  have hn : (n.zeroExtend 64).toNat = n.toNat := BitVec.toNat_setWidth_of_le (by omega)
  have hlt : ¬n.toNat ≥ 64 := Nat.not_le.2 n.isLt
  simp only [shlW, shrW, sarW, hn, if_neg hlt, and_self]

/-- Settles O1: each word runs one function of its sources, which is that of Table 9.1. -/
theorem integerOperations : Obligations.IntegerOperations := by
  refine ⟨fun s p d a b hr => ?register, fun s p e d a k hr => ?immediate, fun s p d a n hr => ?shift⟩
  case register =>
    refine ⟨?_, ?_, ?_, ?_, ?_, ?_, ?_, ?_, emits_of_alu hr rfl (mul_eq_low ..), emits_of_alu hr rfl (mulhW_eq_high ..),
      emits_of_alu hr rfl (mulhnW_eq_high ..), emits_of_alu hr rfl (minW_eq ..), emits_of_alu hr rfl (maxW_eq ..),
      emits_of_alu hr rfl (minnW_eq ..), emits_of_alu hr rfl (maxnW_eq ..), fun i hi => ?division⟩
    case division =>
      simp only [List.mem_cons, List.not_mem_nil, or_false] at hi
      rcases hi with rfl | rfl | rfl | rfl <;> exact ⟨_, emits_of_alu hr rfl rfl⟩
    all_goals exact emits_of_alu hr rfl rfl
  case immediate => and_intros <;> exact emits_of_aluI hr rfl (by rw [immWord_eq_extended])
  case shift =>
    obtain ⟨hshl, hshr, hsar⟩ := shift_immediate (s.rdS a) n
    exact ⟨emits_of_aluI hr rfl hshl, emits_of_aluI hr rfl hshr, emits_of_aluI hr rfl hsar⟩

/-! ## Division (R164) -/

/-- -2^63 by -1. -/
theorem division_overflow {x y : Word} (hx : x.toInt = -(2 ^ 63)) (hy : y.toInt = -1) :
    divW x y = 0x8000_0000_0000_0000 ∧ remW x y = 0 := by
  obtain rfl : x = 0x8000_0000_0000_0000 := BitVec.eq_of_toInt_eq (hx.trans (by decide))
  obtain rfl : y = 0xFFFF_FFFF_FFFF_FFFF := BitVec.eq_of_toInt_eq (hy.trans (by decide))
  decide

theorem divW_toInt {x y : Word} (hy : y ≠ 0) (hover : ¬(x.toInt = -(2 ^ 63) ∧ y.toInt = -1)) :
    (divW x y).toInt = x.toInt.tdiv y.toInt := by
  have hne : x ≠ BitVec.intMin 64 ∨ y ≠ -1#64 := by
    by_cases hx : x = BitVec.intMin 64
    · exact .inr fun hneg => hover ⟨by rw [hx]; decide, by rw [hneg]; decide⟩
    · exact .inl hx
  rw [divW, if_neg hy, BitVec.toInt_ofInt, ← BitVec.toInt_sdiv, BitVec.toInt_sdiv_of_ne_or_ne x y hne]

theorem remW_toInt {x y : Word} (hy : y ≠ 0) : (remW x y).toInt = x.toInt.tmod y.toInt := by
  rw [remW, if_neg hy, ← BitVec.toInt_srem, BitVec.ofInt_toInt]

/-- Settles O2: the four functions by the case of the divisor. -/
theorem divisionResults : Obligations.DivisionResults := by
  refine ⟨rfl, fun s p d a b hr => ?_⟩
  refine ⟨divW _ _, remW _ _, divnW _ _, remnW _ _, emits_of_alu hr rfl rfl, emits_of_alu hr rfl rfl, emits_of_alu hr rfl rfl,
    emits_of_alu hr rfl rfl, fun hy => ?zero, division_overflow, fun hy hover => ?signed, fun hy => ?unsigned⟩
  case zero =>
    rw [hy]
    exact ⟨rfl, rfl, rfl, rfl⟩
  case signed =>
    refine ⟨divW_toInt hy hover, remW_toInt hy, ?_⟩
    rw [divW_toInt hy hover, remW_toInt hy]
    exact (Int.tdiv_mul_add_tmod ..).symm
  case unsigned =>
    rw [divnW, remnW, if_neg hy, if_neg hy]
    exact ⟨BitVec.toNat_udiv, BitVec.toNat_umod⟩

end Sys2Proof.Machine
end

section
/-!
PROOF. The bit counts and the bit fields (09 R165).
-/
namespace Sys2Proof.Machine

/-! ## Counts -/

/-- The zero bits above the highest one bit of a word; all 64 for 0. -/
def leadingZeros (x : Word) : Nat := if x = 0 then 64 else 63 - log2 x.toNat

theorem clzW_eq (x : Word) : clzW x = BitVec.ofNat 64 (leadingZeros x) := by
  unfold clzW leadingZeros
  split <;> rfl

theorem leadingZeros_le (x : Word) : leadingZeros x ≤ 64 := by
  unfold leadingZeros
  split <;> omega

/-- A word other than 0 has its highest one bit where its zeros end. -/
theorem leadingZeros_add_log2 {x : Word} (hx : x ≠ 0) : leadingZeros x + Nat.log2 x.toNat = 63 := by
  have hlt : Nat.log2 x.toNat < 64 := (Nat.log2_lt (BitVec.toNat_ne.1 hx)).2 x.isLt
  rw [leadingZeros, if_neg hx, log2]
  omega

theorem getLsbD_of_leadingZeros {x : Word} {j : Nat} (h : 64 - leadingZeros x ≤ j) : x.getLsbD j = false := by
  by_cases hx : x = 0
  · rw [hx]
    exact BitVec.getLsbD_zero
  · have hsum := leadingZeros_add_log2 hx
    have hpow : 2 ^ (Nat.log2 x.toNat + 1) ≤ 2 ^ j := Nat.pow_le_pow_right (by decide) (by omega)
    exact Nat.testBit_lt_two_pow (Nat.lt_of_lt_of_le Nat.lt_log2_self hpow)

theorem getLsbD_leadingZeros {x : Word} (h : leadingZeros x < 64) : x.getLsbD (63 - leadingZeros x) = true := by
  have hx : x ≠ 0 := by
    rintro rfl
    exact absurd h (by decide)
  rw [← leadingZeros_add_log2 hx, Nat.add_sub_cancel_left]
  exact Nat.testBit_log2 (BitVec.toNat_ne.1 hx)

/-- Halving a number shifts its bits: one is counted, the others are those of the half. -/
theorem popc_eq (n x : Nat) : popc n x = ((List.range n).filter fun j => x.testBit j).length := by
  induction n generalizing x with
  | zero => rfl
  | succ n ih =>
    have hhalf : (fun j => x.testBit j) ∘ Nat.succ = fun j => (x / 2).testBit j := funext fun j => Nat.testBit_succ x j
    rw [popc, ih, List.range_succ_eq_map, List.filter_cons, List.filter_map, hhalf, Nat.testBit_zero]
    rcases Nat.mod_two_eq_zero_or_one x with h | h <;> simp [h, Nat.add_comm]

/-! ## Fields -/

/-- A field of a word, zero-extended. -/
theorem field_getLsbD {x : Word} {pos len : Nat} (h : pos + len ≤ 64) (j : Nat) :
    (BitVec.ofNat 64 (fld x.toNat pos len)).getLsbD j = (decide (j < len) && x.getLsbD (pos + j)) := by
  rw [BitVec.getLsbD_ofNat, fld_testBit]
  by_cases hj : j < len
  · have hlt : j < 64 := by omega
    simp [hj, hlt, BitVec.getLsbD]
  · simp [hj]

/-- The bit-field words carry no displacement, so that one with L = 1 is refused. -/
theorem decodeSlot_bitField {w : BitVec 32} (lend : BitVec 8) (hop : w.toNat / 2 ^ 26 = 0x18 ∨ w.toNat / 2 ^ 26 = 0x19)
    (hl : w.getLsbD 22 = true) : decodeSlot .s w lend = .error .lend := by
  have hbit : bt w.toNat 22 = true := by
    simpa [bt, fld, BitVec.getLsbD, Nat.testBit_eq_decide_div_mod_eq] using hl
  rw [decodeSlot, hbit]
  rcases hop with h | h <;> rw [h] <;> rfl

variable {s : State} {p : BitVec 3} {d a : BitVec 5} {n pos : BitVec 6}

theorem bfx_field (hr : Ready s p [a]) (h : pos.toNat + (n.toNat + 1) ≤ 64) :
    Emits (.bfx p d a n pos) s [s.result 1 d (BitVec.ofNat 64 (fld (s.rdS a).toNat pos.toNat (n.toNat + 1)))] :=
  emits_of_slotOp hr rfl (if_neg (Nat.not_lt.2 h))

theorem bfi_field (hr : Ready s p [a, d]) (h : pos.toNat + (n.toNat + 1) ≤ 64) :
    Emits (.bfi p d a n pos) s [s.result 1 d (insertField (s.rdS d) (s.rdS a) pos.toNat (n.toNat + 1))] :=
  emits_of_slotOp hr rfl (if_neg (Nat.not_lt.2 h))

/-- Settles O3: the counts and fields bit by bit, IMMVAL as the branch of a field past bit 63. -/
theorem bitFields : Obligations.BitFields := by
  refine ⟨fun s p d a hr => ?clz, fun s p d a hr => ?popc, fun s p d a n pos hr => ⟨fun h => ?bfx, fun h => ?bfxPast⟩,
    fun s p d a n pos hr => ⟨fun h => ?bfi, fun h => ?bfiPast⟩, fun w lend => decodeSlot_bitField lend, rfl, rfl, rfl, rfl⟩
  case clz =>
    exact ⟨leadingZeros (s.rdS a), emits_of_slotOp hr rfl (by rw [clzW_eq]; rfl), leadingZeros_le _,
      fun j _ => getLsbD_of_leadingZeros, getLsbD_leadingZeros⟩
  case popc => exact emits_of_slotOp hr rfl (by rw [popc_eq]; rfl)
  case bfx => exact ⟨_, bfx_field hr h, field_getLsbD h⟩
  case bfxPast => exact traps_of_slotOp hr rfl (if_pos h)
  case bfi => exact ⟨_, bfi_field hr h, fun j _ => setFld_getLsbD _ _ _ _ j h⟩
  case bfiPast => exact traps_of_slotOp hr rfl (if_pos h)

end Sys2Proof.Machine
end

section
/-!
PROOF. Moves, constants, comparison, selection and the predicate words (09 R166 to R169).
-/
namespace Sys2Proof.Machine

variable {s : State} {i : Instr} {p : BitVec 3} {srcs : List (BitVec 5)}

/-- A word of the holder that acts only by its gates asks for what its body asks for. -/
theorem emits_of_holderOp {body : State → State} {l : List Pend} (hr : HReady s p srcs)
    (hi : exec i s = .next (s.holderOp fun s => s.slotOp p srcs body)) (hb : body s = s.plus l) : Emits i s l :=
  emits_of_slotOp hr.2 (hi.trans (congrArg Host.Outcome.next (State.holderOp_holder s _ hr.1))) hb

/-- CMP's condition, as a relation of the two sources. -/
theorem scalarCc_holds_iff (cc : ScalarCc) (x y : Word) : cc.holds x y = true ↔ match cc with
    | .eq => x = y
    | .ne => x ≠ y
    | .lt => x.toInt < y.toInt
    | .le => x.toInt ≤ y.toInt
    | .gt => x.toInt > y.toInt
    | .ge => x.toInt ≥ y.toInt
    | .ltn => x.toNat < y.toNat
    | .len => x.toNat ≤ y.toNat := by
  cases cc with
  | eq => exact beq_iff_eq
  | ne => exact bne_iff_ne
  | lt => exact BitVec.slt_iff_toInt_lt
  | le => exact BitVec.sle_iff_toInt_le
  | gt => exact BitVec.slt_iff_toInt_lt
  | ge => exact BitVec.sle_iff_toInt_le
  | ltn => exact BitVec.ult_iff_toNat_lt
  | len => exact BitVec.ule_iff_toNat_le

/-- Settles O4: each word is its gate and one write. -/
theorem movesAndPredicates : Obligations.MovesAndPredicates := by
  refine ⟨fun s p d a b q hr => ⟨?sel, fun cc => ?cmp⟩, fun s p d a hr => ?mov, fun s p b r hr => ?toBase, fun s p b r hr => ?fromBase,
    fun s p d a b hr => ?predicates, fun s p e d k hr => ?constant, fun s p d k hr => ?shiftedConstant⟩
  case sel => exact emits_of_slotOp hr rfl rfl
  case cmp =>
    refine ⟨cc.holds (s.rdS a) (s.rdS b), emits_of_slotOp hr rfl rfl, ?_⟩
    cases cc <;> exact scalarCc_holds_iff ..
  case mov => exact emits_of_slotOp hr rfl rfl
  case toBase => exact emits_of_holderOp hr rfl (by rw [← BitVec.setWidth_eq_extractLsb' (by omega)]; rfl)
  case fromBase => exact emits_of_holderOp hr rfl rfl
  case predicates => and_intros <;> exact emits_of_slotOp hr rfl rfl
  case constant => exact emits_of_slotOp hr rfl (by rw [immWord_eq_extended]; rfl)
  case shiftedConstant => exact emits_of_slotOp hr rfl rfl

end Sys2Proof.Machine
end

section
/-!
PROOF. The special registers (09 R170, 07 R106, R113, R115): a word passes the gates of its number, SETSR those of its value too, and then acts.
-/
namespace Sys2Proof.Machine

/-! ## Fields of a word -/

theorem extract_toNat (x : Word) (lo n : Nat) : (x.extractLsb' lo n).toNat = fld x.toNat lo n := by
  rw [BitVec.extractLsb'_toNat, Nat.shiftRight_eq_div_pow, fld]

/-- Bits from bit 21 up make a value of 2^21 or more. -/
theorem not_lt_of_extract {x : Word} (h : x.extractLsb' 21 43 ≠ 0) : ¬x.toNat < 2 ^ 21 := by
  intro hlt
  refine h (BitVec.eq_of_toNat_eq ?_)
  rw [extract_toNat, fld, Nat.div_eq_of_lt hlt]
  rfl

/-- The element width of a defined code. -/
theorem ewBits_eq : ∀ k ≤ 4, ewBits k = 2 ^ (5 - k) := by decide

/-- R106: an undefined code, a reserved bit, or rows above 1,024 bits. -/
theorem tcOk_false {x : Word} (h : (x.extractLsb' 0 3).toNat > 4 ∨ x.extractLsb' 21 43 ≠ 0 ∨
    ((x.extractLsb' 10 10).toNat + 1) * 2 ^ (5 - (x.extractLsb' 0 3).toNat) > 1024) : tcOk x = false := by
  rw [extract_toNat, extract_toNat] at h
  simp only [tcOk, Bool.and_eq_false_iff, decide_eq_false_iff_not]
  by_cases hcode : tcEw x ≤ 4
  case neg => exact .inl (.inl (.inr hcode))
  rcases h with h | h | h
  · exact absurd h (Nat.not_lt.2 hcode)
  · exact .inl (.inl (.inl (not_lt_of_extract h)))
  · rw [tcRlen, ewBits_eq _ hcode]
    exact .inr (Nat.not_le.2 h)

section Access

variable {s : State} {p : BitVec 3} {d a : BitVec 5} {n : BitVec 10} {v : Word}

/-! ## The values that a number refuses -/

theorem srRefuse_tile (hlo : 0x50 ≤ n.toNat) (hhi : n.toNat < 0x60) (hv : tcOk v = false) : srRefuse s n.toNat v = some 16 := by
  rw [srRefuse, if_neg (by omega), if_neg (by omega), if_neg (by omega), if_pos ⟨hlo, hhi, by rw [hv]; rfl⟩]

theorem srRefuse_rotation (hv : (v.extractLsb' 32 4).toNat > 8) : srRefuse s 8 v = some 15 := by
  rw [extract_toNat] at hv
  exact if_pos ⟨rfl, hv⟩

theorem srRefuse_truncation (hv : (v.extractLsb' 0 3).toNat > 4) : srRefuse s 9 v = some 15 := by
  rw [extract_toNat] at hv
  rw [srRefuse, if_neg (by omega), if_pos ⟨rfl, hv⟩]

theorem srRefuse_spilled (hc : s.me.anyCell = true) : srRefuse s 13 v = some 18 := by
  rw [srRefuse, if_neg (by omega), if_neg (by omega), if_pos ⟨rfl, hc⟩]

/-! ## The gates -/

theorem isCtl_iff : (n.toNat == 0xA0 || n.toNat == 0xA1) = true ↔ n = 0xA0 ∨ n = 0xA1 := by
  simp [BitVec.toNat_eq]

theorem ctlGate_open (h : n = 0xA0 ∨ n = 0xA1 → s.isFw = true) : ¬((n.toNat == 0xA0 || n.toNat == 0xA1) && !s.isFw) = true := by
  rw [Bool.and_eq_true, isCtl_iff]
  rintro ⟨hn, hfw⟩
  simp [h hn] at hfw

theorem ctlGate_shut (h : n = 0xA0 ∨ n = 0xA1) (hfw : s.isFw = false) :
    ((n.toNat == 0xA0 || n.toNat == 0xA1) && !s.isFw) = true := by
  rw [Bool.and_eq_true, isCtl_iff]
  exact ⟨h, by simp [hfw]⟩

/-- What GETSR does past the gates of the holder and of its predicate. -/
def State.getsrBody (d : BitVec 5) (n : BitVec 10) (s : State) : State :=
  if !srKnown n.toNat then s.trap (.illegal 13 0)
  else if (n.toNat == 0xA0 || n.toNat == 0xA1) && !s.isFw then s.trap .priv
  else s.emitS 1 d (srRead s n.toNat)

/-- What SETSR does with an accepted value. -/
def State.srSet (a : BitVec 5) (n : BitVec 10) (s : State) : State :=
  if n.toNat = 10 ∨ n.toNat = 11 ∨ n.toNat = 12 then s.emit 1 (.wClear n.toNat (s.rdS a))
  else if n.toNat = 0xA1 then (s.emit 1 (.wSr s.cur.ctx n.toNat (s.rdS a))).issueAfter 2
  else s.emit 1 (.wSr s.cur.ctx n.toNat (s.rdS a))

theorem State.srSet_of_ne_ctldata (hn : n ≠ 0xA1) : s.srSet a n = s.plus [s.due 1 (if n = 10 ∨ n = 11 ∨ n = 12 then
    .wClear n.toNat (s.rdS a) else .wSr s.cur.ctx n.toNat (s.rdS a))] := by
  have hclear : (n.toNat = 10 ∨ n.toNat = 11 ∨ n.toNat = 12) = (n = 10 ∨ n = 11 ∨ n = 12) := by simp [BitVec.toNat_eq]
  have hctl : n.toNat ≠ 0xA1 := fun h => hn (BitVec.eq_of_toNat_eq h)
  simp only [State.srSet, hclear, if_neg hctl]
  split <;> rfl

/-- A write through CTLDATA holds the context (log 15). -/
theorem State.srSet_ctldata (hn : n = 0xA1) :
    s.srSet a n = (s.plus [s.due 1 (.wSr s.cur.ctx n.toNat (s.rdS a))]).issueAfter 2 := by
  subst hn
  rfl

/-- What SETSR does past the gates of the holder and of its predicate. -/
def State.setsrBody (a : BitVec 5) (n : BitVec 10) (s : State) : State :=
  if !srKnown n.toNat then s.trap (.illegal 13 0)
  else if !srWritable n.toNat then s.trap (.illegal 14 0)
  else if (n.toNat == 0xA0 || n.toNat == 0xA1) && !s.isFw then s.trap .priv
  else (srRefuse s n.toNat (s.rdS a)).elim (s.srSet a n) fun c => s.trap (.illegal c 0)

variable (hholder : holderSr n.toNat = true → s.isHolder = true)
include hholder

theorem holderGate_open : ¬(holderSr n.toNat && !s.isHolder) = true := by
  rw [Bool.and_eq_true]
  rintro ⟨hn, hother⟩
  simp [hholder hn] at hother

theorem exec_getsr (p : BitVec 3) (d : BitVec 5) : exec (.getsr p d n) s = .next (s.slotOp p [] (State.getsrBody d n)) :=
  congrArg Host.Outcome.next (if_neg (holderGate_open hholder))

theorem exec_setsr (p : BitVec 3) (a : BitVec 5) : exec (.setsr p a n) s = .next (s.slotOp p [a] (State.setsrBody a n)) := by
  refine congrArg Host.Outcome.next ((if_neg (holderGate_open hholder)).trans ?_)
  congr 1
  funext t
  unfold State.setsrBody
  cases srRefuse t n.toNat (t.rdS a) <;> rfl

/-! ## What the words do -/

theorem getsr_reads (hr : Ready s p []) (hk : srKnown n.toNat = true) (hfw : n = 0xA0 ∨ n = 0xA1 → s.isFw = true) :
    Emits (.getsr p d n) s [s.result 1 d (srRead s n.toNat)] :=
  emits_of_slotOp hr (exec_getsr hholder p d) (by rw [State.getsrBody, hk, if_neg (by decide), if_neg (ctlGate_open hfw)]; rfl)

theorem getsr_unknown (hr : Ready s p []) (hk : srKnown n.toNat = false) : Traps (.getsr p d n) s (.illegal 13 0) :=
  traps_of_slotOp hr (exec_getsr hholder p d) (by rw [State.getsrBody, hk]; rfl)

theorem getsr_priv (hr : Ready s p []) (hn : n = 0xA0 ∨ n = 0xA1) (hfw : s.isFw = false) : Traps (.getsr p d n) s .priv := by
  have hk : srKnown n.toNat = true := by rcases hn with rfl | rfl <;> rfl
  refine traps_of_slotOp hr (exec_getsr hholder p d) ?_
  rw [State.getsrBody, hk, if_neg (by decide), if_pos (ctlGate_shut hn hfw)]

variable (hr : Ready s p [a])
include hr

theorem setsr_unknown (hk : srKnown n.toNat = false) : Traps (.setsr p a n) s (.illegal 13 0) :=
  traps_of_slotOp hr (exec_setsr hholder p a) (by rw [State.setsrBody, hk]; rfl)

theorem setsr_readOnly (hk : srKnown n.toNat = true) (hw : srWritable n.toNat = false) : Traps (.setsr p a n) s (.illegal 14 0) :=
  traps_of_slotOp hr (exec_setsr hholder p a) (by rw [State.setsrBody, hk, hw]; rfl)

theorem setsr_priv (hn : n = 0xA0 ∨ n = 0xA1) (hfw : s.isFw = false) : Traps (.setsr p a n) s .priv := by
  have hkw : srKnown n.toNat = true ∧ srWritable n.toNat = true := by rcases hn with rfl | rfl <;> exact ⟨rfl, rfl⟩
  refine traps_of_slotOp hr (exec_setsr hholder p a) ?_
  rw [State.setsrBody, hkw.1, hkw.2, if_neg (by decide), if_neg (by decide), if_pos (ctlGate_shut hn hfw)]

/-- Past the gates, the value decides. -/
theorem exec_setsr_open (hk : srKnown n.toNat = true) (hw : srWritable n.toNat = true) (hfw : n = 0xA0 ∨ n = 0xA1 → s.isFw = true) :
    exec (.setsr p a n) s = .next ((srRefuse s n.toNat (s.rdS a)).elim (s.srSet a n) fun c => s.trap (.illegal c 0)) := by
  rw [exec_setsr hholder, State.slotOp_ready s p [a] _ hr, State.setsrBody, hk, hw, if_neg (by decide), if_neg (by decide),
    if_neg (ctlGate_open hfw)]

theorem setsr_refused {c : Nat} (hk : srKnown n.toNat = true) (hw : srWritable n.toNat = true)
    (hfw : n = 0xA0 ∨ n = 0xA1 → s.isFw = true) (hv : srRefuse s n.toNat (s.rdS a) = some c) :
    Traps (.setsr p a n) s (.illegal c 0) := by
  rw [Traps, exec_setsr_open hholder hr hk hw hfw, hv]
  rfl

end Access

/-- Settles O5: each clause is the gate that it names, passed or not, and a refused value is that of its number. -/
theorem specialRegisters : Obligations.SpecialRegisters := by
  refine ⟨fun s p d n hr hk hholder hfw => getsr_reads hholder hr hk hfw,
    fun s p a n hr hk hw hholder hfw hv => ⟨fun hn => ?written, fun hn => ?throughCtl⟩, fun s p a n hr hholder => ?refused⟩
  case written =>
    rw [Emits, exec_setsr_open hholder hr hk hw hfw, hv, Option.elim_none, State.srSet_of_ne_ctldata hn]
  case throughCtl =>
    have hexec := exec_setsr_open hholder hr hk hw hfw
    rw [hv, Option.elim_none, State.srSet_ctldata hn] at hexec
    exact hexec
  have hr0 : Ready s p [] := ⟨hr.1, by simp⟩
  refine ⟨fun hk => ⟨getsr_unknown hholder hr0 hk, setsr_unknown hholder hr hk⟩, setsr_readOnly hholder hr,
    fun hn hfw => ⟨getsr_priv hholder hr0 hn hfw, setsr_priv hholder hr hn hfw⟩, fun hlo hhi hv => ?tile, fun hn hv => ?rotation,
    fun hn hv => ?truncation, fun hn hc => ?spilled⟩
  case tile =>
    refine setsr_refused hholder hr (by simp [srKnown, hlo, hhi]) (by simp [srWritable, hlo, hhi]) ?_
      (srRefuse_tile hlo hhi (tcOk_false hv))
    rintro (rfl | rfl) <;> exact absurd hhi (by decide)
  case rotation =>
    subst hn
    exact setsr_refused hholder hr rfl rfl (fun h => absurd h (by decide)) (srRefuse_rotation hv)
  case truncation =>
    subst hn
    exact setsr_refused hholder hr rfl rfl (fun h => absurd h (by decide)) (srRefuse_truncation hv)
  case spilled =>
    subst hn
    exact setsr_refused hholder hr rfl rfl (fun h => absurd h (by decide)) (srRefuse_spilled hc)

end Sys2Proof.Machine
end

section
/-!
PROOF. Spilling and filling (09 R171): the cell of a slot, or NOSPILL without one.
-/
namespace Sys2Proof.Machine

variable {s : State} {p : BitVec 3} {d a : BitVec 5} {k : BitVec 6}

theorem spill_stores {c : BitVec 16} (hr : Ready s p [a]) (hc : s.slotCell k.toNat = some c) :
    Emits (.spill p a k) s [s.due 6 (.wSpill s.cur.ctx k.toNat c (s.rdS a))] :=
  emits_of_slotOp hr rfl (by rw [hc]; rfl)

theorem spill_noCell (hr : Ready s p [a]) (hc : s.slotCell k.toNat = none) : Traps (.spill p a k) s (.illegal 17 0) :=
  traps_of_slotOp hr rfl (by rw [hc])

/-- Settles O6: SPILL by the cell that the slot has or gets, FILL by the cell that it has. -/
theorem spillAndFill : Obligations.SpillAndFill :=
  ⟨fun _ _ _ _ hr => ⟨fun _ => spill_stores hr, spill_noCell hr⟩,
    fun _ _ _ _ hr => ⟨fun hc => emits_of_slotOp hr rfl (if_neg hc), fun hc => traps_of_slotOp hr rfl (if_pos hc)⟩⟩

end Sys2Proof.Machine
end

section
/-!
PROOF. Transfers and counted loops (09 R172, R174, R175): where control goes after the delay bundle, and what LPSET and LOOP ask for.
-/
namespace Sys2Proof.Machine

/-! ## Targets -/

theorem extractLow_ofInt (k : Int) : (BitVec.ofInt 64 k).extractLsb' 0 16 <<< 2 = BitVec.ofInt 16 (4 * k) := by
  apply BitVec.eq_of_toNat_eq
  simp only [BitVec.toNat_shiftLeft, BitVec.extractLsb'_toNat, BitVec.toNat_ofInt, Nat.shiftRight_zero, Nat.shiftLeft_eq]
  omega

theorem relTarget_eq {w : Nat} (s : State) (o : BitVec w) (e : Ext) :
    relTarget s o e = s.cur.baddr + ((extended o e).extractLsb' 0 16 <<< 2) := by
  rw [relTarget, ← immWord_eq_extended, immWord, word, extractLow_ofInt]

/-- The address of a bundle: 16 bits, a multiple of 4. -/
theorem isAddress_iff (x : Word) :
    (x.extractLsb' 16 48 = 0 ∧ x.extractLsb' 0 2 = 0) ↔ ¬(x.toNat ≥ 2 ^ 16 ∨ x.toNat % 4 ≠ 0) := by
  have := x.isLt
  simp only [BitVec.toNat_eq, extract_toNat, fld, BitVec.ofNat_eq_ofNat, BitVec.toNat_ofNat, Nat.zero_mod, Nat.pow_zero, Nat.div_one]
  omega

/-! ## Transfers -/

section Transfer

variable {s : State} {p : BitVec 3} {a : BitVec 5}

/-- With its predicate on, a jump through a register looks at the address. -/
theorem State.jumpReg_ready (hr : Ready s p [a]) : s.jumpReg p a =
    if (s.rdS a).toNat ≥ 2 ^ 16 ∨ (s.rdS a).toNat % 4 ≠ 0 then (s.goto .fall).trap (.illegal 20 0)
    else s.goto (.target ((s.rdS a).extractLsb' 0 16)) := by
  have hready : Ready (s.goto .fall) p [a] := hr
  rw [State.jumpReg, State.slotOp_ready _ _ _ _ hready, ← BitVec.setWidth_eq_extractLsb' (by omega)]
  rfl

theorem State.jumpReg_address (hr : Ready s p [a]) (h : (s.rdS a).extractLsb' 16 48 = 0 ∧ (s.rdS a).extractLsb' 0 2 = 0) :
    s.jumpReg p a = s.goto (.target ((s.rdS a).extractLsb' 0 16)) := by
  rw [State.jumpReg_ready hr, if_neg ((isAddress_iff _).1 h)]

theorem State.jumpReg_immval (hr : Ready s p [a]) (h : ¬((s.rdS a).extractLsb' 16 48 = 0 ∧ (s.rdS a).extractLsb' 0 2 = 0)) :
    s.jumpReg p a = (s.goto .fall).trap (.illegal 20 0) := by
  rw [State.jumpReg_ready hr, if_pos (Decidable.not_not.1 (mt (isAddress_iff _).2 h))]

theorem State.jumpReg_off (hp : s.rdQ p = false) : s.jumpReg p a = s.goto .fall := State.slotOp_off (s.goto .fall) p [a] _ hp

end Transfer

/-- Settles O7: each transfer with its predicate on and off, its target as the address that Table 9.3 gives. -/
theorem transfers : Obligations.Transfers := by
  refine ⟨fun s q e n o => ?br, fun _ _ _ => rfl, fun s p a hr => ⟨fun hhi hlo => ?target, fun h => ?immval⟩, fun s p a hp => ?off,
    fun s p e d o => ?call⟩
  case br =>
    rw [← relTarget_eq]
    refine congrArg (fun x => Host.Outcome.next (s.goto x)) ?_
    cases s.rdQ q <;> cases n <;> rfl
  case target => and_intros <;> exact congrArg Host.Outcome.next (State.jumpReg_address hr ⟨hhi, hlo⟩)
  case immval => and_intros <;> exact congrArg Host.Outcome.next (State.jumpReg_immval hr h)
  case off => and_intros <;> exact congrArg Host.Outcome.next (State.jumpReg_off hp)
  case call =>
    rw [← relTarget_eq]
    rfl

/-! ## Loops -/

section Loop

variable {s : State} {p : BitVec 3} {a : BitVec 5} {n : BitVec 4} {e : Ext} {o : BitVec 21}

/-- Actions asked for one after another are those of their list. -/
theorem State.foldl_emit (l : List Nat) (off : Nat) (f : Nat → Act) (s : State) :
    l.foldl (fun t j => t.emit off (f j)) s = s.plus (l.map fun j => s.due off (f j)) := by
  induction l generalizing s with
  | nil => exact s.plus_nil.symm
  | cons j l ih =>
    rw [List.foldl_cons, ih, State.emit_plus, State.plus_plus]
    rfl

/-- One rotation of the first bases: each receives the next one's value, the last that of b0. -/
def State.rotation (s : State) (nrot : Nat) : List Pend :=
  if nrot > 1 then
    (List.range nrot).map fun j => s.due 1 (.wB (BitVec.ofNat 3 j) (s.me.rdB (BitVec.ofNat 3 (if j + 1 = nrot then 0 else j + 1))))
  else []

theorem State.rotate_eq (s : State) (nrot : Nat) : s.rotate nrot = s.plus (s.rotation nrot) := by
  unfold State.rotate State.rotation
  split
  · rw [State.foldl_emit]
    refine congrArg s.plus (List.map_congr_left fun j hj => ?_)
    have hlt := List.mem_range.1 hj
    have hnext : (j + 1) % nrot = if j + 1 = nrot then 0 else j + 1 := by
      split
      next h => rw [h, Nat.mod_self]
      next h => exact Nat.mod_eq_of_lt (by omega)
    rw [hnext]
  · exact s.plus_nil.symm

/-- The count after a pass (R175): it stays 0 at 0. -/
theorem countDown_eq (x : BitVec 32) : (if x = 0 then 0 else x - 1) = BitVec.ofNat 32 (x.toNat - 1) := by
  split
  next h => rw [h]; rfl
  next h => bv_omega

theorem bne_eq_decide_ne {α : Type} [DecidableEq α] (x y : α) : (x != y) = decide (x ≠ y) := by
  rw [Bool.eq_iff_iff, bne_iff_ne, decide_eq_true_iff]

/-- Passes remain when the count is not 0. -/
theorem countDown_bne (x : BitVec 32) : (BitVec.ofNat 32 (x.toNat - 1) != 0) = decide (x.toNat - 1 ≠ 0) := by
  have hlt : x.toNat - 1 < 2 ^ 32 := by omega
  rw [bne_eq_decide_ne, decide_eq_decide, ne_eq, BitVec.toNat_eq, BitVec.toNat_ofNat, Nat.mod_eq_of_lt hlt]
  rfl

/-- LPSET and LOOP with a rotation are the holder's. -/
theorem rotationGate_open (h : n = 0 ∨ s.isHolder = true) : ¬(n ≠ 0 ∧ (!s.isHolder) = true) := by
  rintro ⟨hn, hother⟩
  simp [h.resolve_left hn] at hother

theorem lpset_sets (hr : Ready s p [a]) (hgate : n = 0 ∨ s.isHolder = true) (hn : n.toNat ≤ 8) :
    Emits (.lpset p a n) s
      [s.due 1 (.wLp s.cur.ctx ((s.rdS a).extractLsb' 0 32) n),
        s.due 1 (.wQ s.cur.ctx 4 (decide ((s.rdS a).extractLsb' 0 32 ≠ 0))),
        s.due 1 (.wQ s.cur.ctx 5 false), s.due 1 (.wQ s.cur.ctx 6 false), s.due 1 (.wQ s.cur.ctx 7 false)] := by
  refine emits_of_slotOp hr (congrArg Host.Outcome.next (if_neg (rotationGate_open hgate))) ((if_neg (Nat.not_lt.2 hn)).trans ?_)
  simp only [State.emit_plus, State.plus_plus, State.due_plus, BitVec.setWidth_eq_extractLsb' (show 32 ≤ 64 by omega),
    bne_eq_decide_ne]
  rfl

/-- What LOOP asks for (R175). -/
def State.loopActs (s : State) : List Pend :=
  let n := s.myCtx.count.toNat - 1
  let k := s.cur.ctx
  [s.due 1 (.wLp k (BitVec.ofNat 32 n) s.myCtx.nrot)] ++ s.rotation s.myCtx.nrot.toNat ++
    [s.due 1 (.wQ k 4 (decide (n ≠ 0))), s.due 1 (.wQ k 5 (s.myCtx.rdQ 4)), s.due 1 (.wQ k 6 (s.myCtx.rdQ 5)),
      s.due 1 (.wQ k 7 (s.myCtx.rdQ 6))]

theorem exec_loop (hr : Ready s p []) (hgate : s.myCtx.nrot = 0 ∨ s.isHolder = true) : exec (.loop p e o) s =
    .next ((s.plus s.loopActs).goto
      (if s.myCtx.count.toNat - 1 ≠ 0 ∨ s.myCtx.rdQ 4 = true ∨ s.myCtx.rdQ 5 = true ∨ s.myCtx.rdQ 6 = true then .target (relTarget s o e)
        else .fall)) := by
  have hready : Ready (s.goto .fall) p [] := hr
  refine congrArg Host.Outcome.next ((if_neg (rotationGate_open hgate)).trans ((State.slotOp_ready _ _ _ _ hready).trans ?_))
  rw [apply_ite (State.goto _)]
  simp only [countDown_eq, countDown_bne, State.rotate_eq, State.emit_plus, State.plus_plus, State.due_plus, Bool.or_eq_true,
    decide_eq_true_eq, or_assoc, List.append_assoc, State.loopActs]
  exact ite_congr rfl (fun _ => rfl) fun _ => rfl

end Loop

/-- Settles O8: -/
theorem loops : Obligations.Loops := by
  refine ⟨fun s p a n => ⟨fun hn hother => ?lpsetHolder, fun hgate hr => ⟨fun hn => ?lpset, fun hn => ?lpsetImmval⟩⟩,
    fun s p e o => ⟨fun hn hother => ?loopHolder, fun hgate hr => ?loop⟩⟩
  case lpsetHolder => exact congrArg Host.Outcome.next (if_pos ⟨hn, by simp [hother]⟩)
  case lpset => exact lpset_sets hr hgate hn
  case lpsetImmval =>
    exact traps_of_slotOp hr (congrArg Host.Outcome.next (if_neg (rotationGate_open hgate))) (if_pos hn)
  case loopHolder => exact congrArg Host.Outcome.next (if_pos ⟨hn, by simp [hother]⟩)
  case loop =>
    dsimp only
    rw [← relTarget_eq]
    refine (exec_loop hr hgate).trans ?_
    simp only [decide_eq_true_eq]
    rfl

end Sys2Proof.Machine
end

section
/-!
PROOF. Due writes of scalar registers, predicates, handles and base registers (Table 7.1, 09 R162): the register written, and all that stands.
-/
namespace Sys2Proof.Machine

/-! ## One register of a context -/

theorem Ctx.mark_wrS (c : Ctx) (r q : BitVec 5) (v : Word) (m : Bool) :
    spGet false (c.wrS r v m).mark q.toNat = if q = r ∧ r ≠ 0 then m else spGet false c.mark q.toNat := by
  unfold Ctx.wrS
  by_cases hr : r = 0
  · rw [if_pos hr, if_neg fun h => h.2 hr]
  · rw [if_neg hr]
    by_cases hq : q = r
    · rw [if_pos ⟨hq, hr⟩, hq]
      exact spGet_put_same ..
    · rw [if_neg fun h => hq h.1]
      exact spGet_put_ne _ _ _ fun h => hq (BitVec.eq_of_toNat_eq h)

theorem Ctx.wrS_frame (c : Ctx) (r : BitVec 5) (v : Word) (m : Bool) : { c.wrS r v m with s := c.s, mark := c.mark } = c := by
  unfold Ctx.wrS
  split <;> rfl

theorem Ctx.wrQ_frame (c : Ctx) (q : BitVec 3) (v : Bool) : { c.wrQ q v with q := c.q } = c := by
  unfold Ctx.wrQ
  split <;> rfl

theorem Ctx.rdQ_wrQ_ne (c : Ctx) {q r : BitVec 3} (v : Bool) (h : r ≠ q) : (c.wrQ q v).rdQ r = c.rdQ r := by
  by_cases hq : q = 0
  · rw [hq, Ctx.wrQ_zero]
  · rw [Ctx.rdQ_wrQ c q r v hq, if_neg h]

/-! ## What a change of one context or core leaves alone -/

theorem State.updCore_package (s : State) (c : Nat) (f : CoreSt → CoreSt) : { s.updCore c f with cores := s.cores } = s := rfl

theorem State.updCtx_package (s : State) (c k : Nat) (f : Ctx → Ctx) : { s.updCtx c k f with cores := s.cores } = s :=
  s.updCore_package c _

theorem State.updCtx_others (s : State) (c k : Nat) (f : Ctx → Ctx) :
    (∀ d j, (d, j) ≠ (c, k) → (s.updCtx c k f).ctx d j = s.ctx d j) ∧ (∀ d, d ≠ c → (s.updCtx c k f).core d = s.core d) ∧
      { (s.updCtx c k f).core c with ctxs := (s.core c).ctxs } = s.core c := by
  refine ⟨fun d j => State.ctx_updCtx_ne s f, fun d hd => ?_, ?_⟩
  · rw [State.core_updCtx, if_neg hd]
  · rw [State.core_updCtx, if_pos rfl]
    rfl

section RegAct

variable {s : State} {p : Pend}

theorem State.regAct_wS {k : Nat} {r : BitVec 5} {v : Word} {m : Bool} (h : p.act = .wS k r v m) :
    s.regAct p = s.updCtx p.own.core k fun x => x.wrS r v m := by
  rw [State.regAct, h]

theorem State.regAct_wQ {k : Nat} {q : BitVec 3} {v : Bool} (h : p.act = .wQ k q v) :
    s.regAct p = s.updCtx p.own.core k fun x => x.wrQ q v := by
  rw [State.regAct, h]

theorem State.regAct_wH {k : Nat} {r : BitVec 4} {v : Handle} (h : p.act = .wH k r v) :
    s.regAct p = s.updCtx p.own.core k fun x => x.wrH r v := by
  rw [State.regAct, h]

theorem State.regAct_wB {b : BitVec 3} {v : BitVec 20} (h : p.act = .wB b v) :
    s.regAct p = s.updCore p.own.core fun x => x.wrB b v := by
  rw [State.regAct, h]
  rfl

end RegAct

/-- Settles O36: each write is the update of its register file in one context or core, whose rules say the rest. -/
theorem registerWrites : Obligations.RegisterWrites := by
  refine fun s p => ⟨fun k r v m h => ?scalar, fun k q v h => ?predicate, fun k r v h => ?handle, fun b v h => ?base⟩
  case scalar =>
    rw [State.regAct_wS h]
    refine ⟨State.updCtx_package s p.own.core k _, fun hr c j => ?discarded, fun hr => ?written, fun r' hr' => ?kept, ?frame,
      State.updCtx_others s p.own.core k _⟩
    case discarded =>
      rw [State.ctx_updCtx, hr, Ctx.wrS_zero]
      split
      next hcj => rw [hcj.1, hcj.2]
      next => rfl
    all_goals rw [State.ctx_updCtx_same]
    case written => rw [Ctx.rdS_wrS, Ctx.mark_wrS, if_pos ⟨rfl, hr⟩, if_pos ⟨rfl, hr⟩]; exact ⟨rfl, rfl⟩
    case kept =>
      have hne : ¬(r' = r ∧ r ≠ 0) := fun e => hr' e.1
      rw [Ctx.rdS_wrS, Ctx.mark_wrS, if_neg hne, if_neg hne]
      exact ⟨rfl, rfl⟩
    case frame => exact Ctx.wrS_frame ..
  case predicate =>
    rw [State.regAct_wQ h]
    refine ⟨State.updCtx_package s p.own.core k _, Ctx.rdQ_zero _, fun hq => ?written, fun q' hq' => ?kept, ?frame,
      State.updCtx_others s p.own.core k _⟩
    all_goals rw [State.ctx_updCtx_same]
    case written => rw [Ctx.rdQ_wrQ _ _ _ _ hq, if_pos rfl]
    case kept => exact Ctx.rdQ_wrQ_ne _ _ hq'
    case frame => exact Ctx.wrQ_frame ..
  case handle =>
    rw [State.regAct_wH h]
    refine ⟨State.updCtx_package s p.own.core k _, ?written, fun r' hr' => ?kept, ?frame,
      State.updCtx_others s p.own.core k _⟩
    all_goals rw [State.ctx_updCtx_same]
    case written => rw [Ctx.rdH_wrH, if_pos rfl]
    case kept => rw [Ctx.rdH_wrH, if_neg hr']
    case frame => rfl
  case base =>
    rw [State.regAct_wB h]
    refine ⟨State.updCore_package s p.own.core _, ?written, fun b' hb' => ?kept, ?frame, fun c hc => ?other⟩
    case other => rw [State.core_updCore, if_neg hc]
    all_goals rw [State.core_updCore, if_pos rfl]
    case written => rw [CoreSt.rdB_wrB, if_pos rfl]
    case kept => rw [CoreSt.rdB_wrB, if_neg hb']
    case frame => rfl

end Sys2Proof.Machine
end

section
/-!
PROOF. Words of the encoding tables decode (08 Tables 8.4 to 8.10).
-/
namespace Sys2Proof.Machine

/-- Settles O43: the decoder runs on each word. -/
theorem wordsDecode : Obligations.WordsDecode := by
  unfold Obligations.WordsDecode
  and_intros <;> rfl

end Sys2Proof.Machine
end

section
/-!
PROOF. The words of the V slots (11 R213 to R218): what such a word asks for in its executing clusters, and the trap that it raises in the
only one.
-/
namespace Sys2Proof.Machine

variable {s : State} {i : Instr} {p : BitVec 3} {ss vs : List (BitVec 5)} {body : Nat → State → State} {f : Nat → List Pend} {c : Nat}

/-! ## The bundle in hand, from cluster to cluster -/

/-- The bundle in hand as a cluster's word leaves it: its slot, and the actions asked for so far. -/
def State.asked (s : State) (slot : Nat) (l : List Pend) : State :=
  { s with cur := { s.cur with slot := slot, out := s.cur.out ++ l } }

theorem State.asked_nil (s : State) : s.asked s.cur.slot [] = s := by simp [State.asked]

theorem State.inCluster_plus (s : State) (c : Nat) (l : List Pend) : (s.inCluster c).plus l = s.asked (5 + c) l := rfl

theorem State.asked_plus (s : State) (k : Nat) (l m : List Pend) : (s.asked k l).plus m = s.asked k (l ++ m) := by
  simp [State.asked, State.plus]

theorem State.useV_clean {r : BitVec 5} (h : s.me.vMarked c r = false) : s.useV c r = s := by simp [State.useV, h]

/-- R218: unmarked sources raise no POISON. -/
theorem State.foldl_useV_clean (h : ∀ v ∈ vs, s.me.vMarked c v = false) : vs.foldl (fun s r => s.useV c r) s = s := by
  induction vs with
  | nil => rfl
  | cons v vs ih =>
    rw [List.foldl_cons, State.useV_clean (h v List.mem_cons_self)]
    exact ih fun u hu => h u (List.mem_cons_of_mem v hu)

theorem State.onCluster_asked (h : ∀ v ∈ vs, s.me.vMarked c v = false) (k : Nat) (l : List Pend) :
    (s.asked k l).onCluster vs body c = body c ((s.inCluster c).plus l) :=
  congrArg (body c) (State.foldl_useV_clean (s := (s.inCluster c).plus l) h)

/-- The clusters act one after the other, each after the actions of those before it. -/
theorem State.foldl_onCluster {cs : List Nat} (hclean : ∀ c ∈ cs, ∀ v ∈ vs, s.me.vMarked c v = false)
    (hbody : ∀ c ∈ cs, ∀ l, body c ((s.inCluster c).plus l) = ((s.inCluster c).plus l).plus (f c)) (k : Nat) (l : List Pend) :
    cs.foldl (fun s c => s.onCluster vs body c) (s.asked k l) = s.asked (cs.foldl (fun _ c => 5 + c) k) (l ++ cs.flatMap f) := by
  induction cs generalizing k l with
  | nil => rw [List.flatMap_nil, List.append_nil]; rfl
  | cons c cs ih =>
    have hstep : (s.asked k l).onCluster vs body c = s.asked (5 + c) (l ++ f c) := by
      rw [State.onCluster_asked (hclean c List.mem_cons_self), hbody c List.mem_cons_self, State.inCluster_plus, State.asked_plus]
    rw [List.foldl_cons, hstep, ih (fun d hd => hclean d (List.mem_cons_of_mem c hd)) fun d hd => hbody d (List.mem_cons_of_mem c hd),
      List.foldl_cons, List.flatMap_cons, List.append_assoc]

/-! ## Words -/

theorem State.vec_ready (hr : VReady s p ss vs) :
    s.vec p ss vs body = .next (s.cur.clusters.foldl (fun s c => s.onCluster vs body c) s) := by
  rw [State.vec, State.holderOp_holder s _ hr.1.1, State.slotOp_ready s p ss _ hr.1.2]

/-- A word asks, in each executing cluster, for what its part there asks for. -/
theorem vEmits_of_vec (hr : VReady s p ss vs) (hi : exec i s = s.vec p ss vs body)
    (hbody : ∀ c ∈ s.cur.clusters, ∀ l, body c ((s.inCluster c).plus l) = ((s.inCluster c).plus l).plus (f c)) : VEmits i s f := by
  have hfold := State.foldl_onCluster hr.2 hbody s.cur.slot []
  rw [State.asked_nil] at hfold
  rw [VEmits, hi, State.vec_ready hr, hfold]
  rfl

/-- A word of one cluster raises the trap that its part there raises. -/
theorem traps_of_vec {k : TrapKind} (hr : VReady s p ss vs) (hc : s.cur.clusters = [c])
    (hi : exec i (s.inCluster c) = (s.inCluster c).vec p ss vs body) (hbody : body c (s.inCluster c) = (s.inCluster c).trap k) :
    Traps i (s.inCluster c) k := by
  have hclean : ∀ v ∈ vs, (s.inCluster c).me.vMarked c v = false := hr.2 c (by rw [hc]; exact List.mem_cons_self)
  have hone : (s.inCluster c).onCluster vs body c = body c (s.inCluster c) :=
    congrArg (body c) (State.foldl_useV_clean (s := s.inCluster c) hclean)
  have hcs : (s.inCluster c).cur.clusters = [c] := hc
  rw [Traps, hi, State.vec_ready (s := s.inCluster c) hr, hcs, List.foldl_cons, List.foldl_nil, hone, hbody]

theorem State.flagV_plus (s : State) (off bits : Nat) :
    s.flagV off bits = s.plus (if bits = 0 then [] else [s.due off (.wFlag 11 (BitVec.ofNat 64 bits))]) := by
  unfold State.flagV
  split
  · rw [State.plus_nil]
  · rfl

/-- A result with its flags. -/
theorem State.emitV_flagV (s : State) (c off bits : Nat) (v : BitVec 5) (mask : BitVec 16) (x : BitVec 512) (l : List Pend) :
    (((s.inCluster c).plus l).emitV off c v mask x).flagV off bits =
      ((s.inCluster c).plus l).plus (s.vResult c off v mask x :: s.vFlags c off bits) := by
  rw [State.flagV_plus, State.emitV, State.emit_plus, State.plus_plus]
  rfl

end Sys2Proof.Machine
end

section
/-!
PROOF. Elements and lanes (11 R214, R215): those of a vector that is put together from a list, and what an element-wise word computes.
-/
namespace Sys2Proof.Machine

/-! ## Vectors from lists -/

theorem packBits_lt (w : Nat) (l : List Nat) : packBits w l < 2 ^ (w * l.length) := by
  induction l with
  | nil => exact Nat.one_pos
  | cons x xs ih =>
    have hx : x % 2 ^ w < 2 ^ w := Nat.mod_lt _ (Nat.two_pow_pos w)
    calc packBits w (x :: xs) < 2 ^ w + 2 ^ w * packBits w xs := Nat.add_lt_add_right hx _
      _ = 2 ^ w * (packBits w xs + 1) := by rw [Nat.mul_succ, Nat.add_comm]
      _ ≤ 2 ^ w * 2 ^ (w * xs.length) := Nat.mul_le_mul_left _ ih
      _ = 2 ^ (w * (x :: xs).length) := by rw [← Nat.pow_add, List.length_cons, Nat.mul_succ, Nat.add_comm]

/-- Digit k of the packed number is element k of the list. -/
theorem packBits_digit (w : Nat) (l : List Nat) (k : Nat) : packBits w l / 2 ^ (w * k) % 2 ^ w = l.getD k 0 % 2 ^ w := by
  induction l generalizing k with
  | nil => simp [packBits]
  | cons x xs ih =>
    cases k with
    | zero => simp [packBits]
    | succ k =>
      have hrest : packBits w (x :: xs) / 2 ^ w = packBits w xs := by
        rw [packBits, Nat.add_mul_div_left _ _ (Nat.two_pow_pos w), Nat.div_eq_of_lt (Nat.mod_lt _ (Nat.two_pow_pos w)), Nat.zero_add]
      rw [Nat.mul_succ, Nat.add_comm, Nat.pow_add, ← Nat.div_div_eq_div_mul, hrest, ih, List.getD_cons_succ]

theorem elemAt_eq (w : Nat) (x : BitVec 512) (k : Nat) : elemAt w x k = x.toNat / 2 ^ (w * k) % 2 ^ w := by
  rw [elemAt, BitVec.extractLsb'_toNat, Nat.shiftRight_eq_div_pow]

theorem elemAt_lt (w : Nat) (x : BitVec 512) (k : Nat) : elemAt w x k < 2 ^ w := BitVec.isLt _

theorem toNat_ofNat_packBits {n w : Nat} {l : List Nat} (hl : w * l.length ≤ n) :
    (BitVec.ofNat n (packBits w l)).toNat = packBits w l :=
  Nat.mod_eq_of_lt (Nat.lt_of_lt_of_le (packBits_lt w l) (Nat.pow_le_pow_right Nat.two_pos hl))

theorem elemAt_ofElems {w : Nat} {l : List Nat} (hl : w * l.length ≤ 512) (k : Nat) : elemAt w (ofElems w l) k = l.getD k 0 % 2 ^ w := by
  rw [elemAt_eq, ofElems, toNat_ofNat_packBits hl, packBits_digit]

theorem getD_map_range {n k : Nat} (f : Nat → Nat) (h : k < n) : ((List.range n).map f).getD k 0 = f k := by simp [h]

/-- Element k of the vector whose elements a function gives. -/
theorem elemAt_ofElems_range {w k : Nat} (f : Nat → Nat) (hk : k < 512 / w) :
    elemAt w (ofElems w ((List.range (512 / w)).map f)) k = f k % 2 ^ w := by
  rw [elemAt_ofElems (by rw [List.length_map, List.length_range]; exact Nat.mul_div_le 512 w), getD_map_range f hk]

/-- A lane is an element of 32 bits. -/
theorem lane_ofLanes {l : List Nat} (hl : l.length ≤ 16) (j : Nat) : lane (ofLanes l) j = BitVec.ofNat 32 (l.getD j 0) :=
  BitVec.eq_of_toNat_eq (elemAt_ofElems (w := 32) (by omega) j)

theorem lane_ofLanes_range {j : Nat} (f : Nat → Nat) (hj : j < 16) :
    lane (ofLanes ((List.range 16).map f)) j = BitVec.ofNat 32 (f j) := by
  rw [lane_ofLanes (by simp), getD_map_range f hj]

theorem lane_ofLanes_replicate {j : Nat} (x : Nat) (hj : j < 16) : lane (ofLanes (List.replicate 16 x)) j = BitVec.ofNat 32 x := by
  rw [lane_ofLanes (by simp), List.getD_eq_getElem?_getD, List.getElem?_replicate, if_pos hj, Option.getD_some]

theorem lane_blend (mask : BitVec 16) (x y : BitVec 512) {j : Nat} (hj : j < 16) :
    lane (blend mask x y) j = if mask.getLsbD j then lane x j else lane y j := by
  rw [blend, lane_ofLanes_range _ hj]
  split <;> simp

/-! ## Element-wise words -/

theorem testBit_foldl_or {α : Type} (g : α → Nat) (l : List α) (a j : Nat) :
    (l.foldl (fun a x => a ||| g x) a).testBit j = true ↔ a.testBit j = true ∨ ∃ x ∈ l, (g x).testBit j = true := by
  induction l generalizing a with
  | nil => simp
  | cons x xs ih => simp only [List.foldl_cons, ih, Nat.testBit_or, Bool.or_eq_true, List.mem_cons, exists_eq_or_imp, or_assoc]

theorem mem_zipIdx_map_range {α : Type} {n : Nat} {f : Nat → α} {x : α × Nat} :
    x ∈ ((List.range n).map f).zipIdx ↔ x.2 < n ∧ x.1 = f x.2 := by
  rw [List.mem_zipIdx_iff_getElem?, List.getElem?_map]
  by_cases h : x.2 < n
  · simp [h, eq_comm]
  · simp [h]

/-- R217: the flags are those of the unmasked elements. -/
theorem mapElems_flags (w : Nat) (mask : BitVec 16) (srcs : List (BitVec 512)) (fn : List Nat → Nat × Nat) (j : Nat) :
    (mapElems w mask srcs fn).2.testBit j = true ↔
      ∃ k < 512 / w, mask.getLsbD (w * k / 32) = true ∧ (fn (srcs.map fun x => elemAt w x k)).2.testBit j = true := by
  rw [mapElems, testBit_foldl_or, Nat.zero_testBit]
  simp only [Bool.false_eq_true, false_or, List.mem_filter, mem_zipIdx_map_range]
  constructor
  · rintro ⟨x, ⟨⟨hlt, hx⟩, hmask⟩, hbit⟩
    exact ⟨x.2, hlt, hmask, hx ▸ hbit⟩
  · rintro ⟨k, hlt, hmask, hbit⟩
    exact ⟨(_, k), ⟨⟨hlt, rfl⟩, hmask⟩, hbit⟩

theorem mapElems_elemAt {w k : Nat} (mask : BitVec 16) (srcs : List (BitVec 512)) (fn : List Nat → Nat × Nat) (hk : k < 512 / w) :
    elemAt w (mapElems w mask srcs fn).1 k = (fn (srcs.map fun x => elemAt w x k)).1 % 2 ^ w := by
  rw [mapElems, List.map_map]
  exact elemAt_ofElems_range _ hk

/-- What a function of its sources' codes gives for each element, an element-wise word computes. -/
theorem elementWise_of {s : State} {i : Instr} {p m : BitVec 3} {v : BitVec 5} {srcs : List (BitVec 5)} {w off : Nat}
    {fn : List Nat → Nat × Nat} {g : Nat → Nat → Nat × Nat} (hr : VReady s p [] srcs)
    (hi : exec i s = s.elementwise p v srcs w m off fn)
    (hfn : ∀ c k, fn (srcs.map fun r => elemAt w (s.rdV c r) k) = g c k) : ElementWise i s v m off w g := by
  have hmap : ∀ c k, fn ((srcs.map (s.rdV c)).map fun x => elemAt w x k) = g c k := fun c k => by
    rw [List.map_map]
    exact hfn c k
  refine ⟨fun c => (mapElems w (s.rdM c m) (srcs.map (s.rdV c)) fn).1, fun c => (mapElems w (s.rdM c m) (srcs.map (s.rdV c)) fn).2,
    vEmits_of_vec hr hi fun c _ l => State.emitV_flagV .., fun c k hk => ?_, fun c j => ?_⟩
  · rw [mapElems_elemAt _ _ _ hk, hmap]
  · simp only [mapElems_flags, hmap]

end Sys2Proof.Machine
end

section
/-!
PROOF. Integer arithmetic and shifts on elements (11 R216, R223, R229): the model computes on the integers of the codes and wraps, which is
arithmetic on the bits.
-/
namespace Sys2Proof.Machine

variable {t : LaneTy} {w : Nat}

/-! ## Codes and their integers -/

theorem laneW_pos (t : LaneTy) : 0 < laneW t := by cases t <;> decide

theorem wrapTo_eq (w : Nat) (k : Int) : wrapTo w k = (BitVec.ofInt w k).toNat := by
  rw [wrapTo, BitVec.toNat_ofInt]
  push_cast
  rfl

theorem intOf_toNat (x : BitVec (laneW t)) : intOf t x.toNat = if t = .n32 then (x.toNat : Int) else x.toInt := by
  rw [intOf, sext_toNat x (laneW_pos t)]

/-- Wrapped, the integer of a code is the code, signed or not. -/
theorem ofInt_intOf (x : BitVec (laneW t)) : BitVec.ofInt (laneW t) (intOf t x.toNat) = x := by
  rw [intOf_toNat]
  split
  · rw [BitVec.ofInt_natCast, BitVec.ofNat_toNat, BitVec.setWidth_eq]
  · exact BitVec.ofInt_toInt

theorem intOf_negate (x : BitVec (laneW t)) : BitVec.ofInt (laneW t) (-intOf t x.toNat) = -x := by rw [BitVec.ofInt_neg, ofInt_intOf]

theorem elemOp_int (ht : t.isFloat = false) (rm : Rm) (f : List Num → Num × Nat) (g : List Int → Int) :
    elemOp t rm f g = intOp t g := by
  simp [elemOp, ht]

/-- The latency of an addition or comparison of integers. -/
theorem addLat_int (ht : t.isFloat = false) : addLat t = 2 := by simp [addLat, ht]

section Words

variable {s : State} {i : Instr} {p m : BitVec 3} {v a b : BitVec 5} {off : Nat} {rm : Rm}

/-- A word of two sources wraps its function's integer. -/
theorem elementWise_int_two (ht : t.isFloat = false) {h : List Num → Num × Nat} {f : Int → Int → Int}
    {z : BitVec (laneW t) → BitVec (laneW t) → BitVec (laneW t)} (hr : VReady s p [] [a, b])
    (hi : exec i s = s.elementwise p v [a, b] (laneW t) m off (elemOp t rm h (i2 f)))
    (hz : ∀ x y : BitVec (laneW t), BitVec.ofInt (laneW t) (f (intOf t x.toNat) (intOf t y.toNat)) = z x y) :
    ElementWise i s v m off (laneW t) fun c k => ((z (s.elt t c a k) (s.elt t c b k)).toNat, 0) :=
  elementWise_of hr hi fun c k => by
    rw [elemOp_int ht, ← hz, ← wrapTo_eq]
    rfl

/-- So does one that reads its destination as well. -/
theorem elementWise_int_three (ht : t.isFloat = false) {h : List Num → Num × Nat} {f : Int → Int → Int → Int}
    {z : BitVec (laneW t) → BitVec (laneW t) → BitVec (laneW t) → BitVec (laneW t)} (hr : VReady s p [] [a, b, v])
    (hi : exec i s = s.elementwise p v [a, b, v] (laneW t) m off (elemOp t rm h (i3 f)))
    (hz : ∀ x y d : BitVec (laneW t), BitVec.ofInt (laneW t) (f (intOf t x.toNat) (intOf t y.toNat) (intOf t d.toNat)) = z x y d) :
    ElementWise i s v m off (laneW t) fun c k => ((z (s.elt t c a k) (s.elt t c b k) (s.elt t c v k)).toNat, 0) :=
  elementWise_of hr hi fun c k => by
    rw [elemOp_int ht, ← hz, ← wrapTo_eq]
    rfl

end Words

/-! ## Choices -/

/-- The order of the elements of an integer type. -/
theorem intOf_lt (x y : BitVec (laneW t)) :
    decide (intOf t x.toNat < intOf t y.toNat) = if t = .n32 then decide (x.toNat < y.toNat) else decide (x.toInt < y.toInt) := by
  rw [intOf_toNat, intOf_toNat]
  split
  · exact decide_eq_decide.2 Int.ofNat_lt
  · rfl

theorem minMax_int (ht : t.isFloat = false) (isMax : Bool) (x y : BitVec (laneW t)) :
    minMax t isMax [x.toNat, y.toNat] = ((if (if isMax then decide (intOf t x.toNat < intOf t y.toNat)
      else decide (intOf t y.toNat < intOf t x.toNat)) then y else x).toNat, 0) := by
  simp only [minMax, ht, Bool.false_eq_true, if_false, apply_ite BitVec.toNat]

theorem intOf_natAbs (x : BitVec (laneW t)) :
    BitVec.ofInt (laneW t) ((intOf t x.toNat).natAbs : Int) = if x.toInt < 0 ∧ t ≠ .n32 then -x else x := by
  have hneg : intOf t x.toNat < 0 ↔ x.toInt < 0 ∧ t ≠ .n32 := by
    rw [intOf_toNat]
    by_cases h : t = .n32
    · simp [h]
    · simp [h]
  by_cases h : intOf t x.toNat < 0
  · rw [if_pos (hneg.1 h), Int.ofNat_natAbs_of_nonpos (Int.le_of_lt h), intOf_negate]
  · rw [if_neg (mt hneg.2 h), Int.natAbs_of_nonneg (Int.not_lt.1 h), ofInt_intOf]

theorem signOp_int (ht : t.isFloat = false) (neg : Bool) (x : BitVec (laneW t)) :
    signOp t neg [x.toNat] = ((BitVec.ofInt (laneW t) (if neg then -intOf t x.toNat else ((intOf t x.toNat).natAbs : Int))).toNat, 0) := by
  rw [← wrapTo_eq]
  simp only [signOp, ht, Bool.false_eq_true, if_false]
  rfl

/-! ## Shifts -/

theorem shiftOp_shl (x y : BitVec w) :
    shiftOp w (fun x n => x * 2 ^ n) [x.toNat, y.toNat] = ((if y.toNat ≥ w then 0 else x <<< y.toNat).toNat, 0) := by
  simp only [shiftOp, Prod.mk.injEq, and_true]
  split
  next h => rw [Nat.min_eq_right h, Nat.mul_mod_left]; rfl
  next h => rw [Nat.min_eq_left (by omega), BitVec.toNat_shiftLeft, Nat.shiftLeft_eq]

theorem shiftOp_shr (x y : BitVec w) :
    shiftOp w (fun x n => x / 2 ^ n) [x.toNat, y.toNat] = ((if y.toNat ≥ w then 0 else x >>> y.toNat).toNat, 0) := by
  simp only [shiftOp, Prod.mk.injEq, and_true]
  split
  next h => rw [Nat.min_eq_right h, Nat.div_eq_of_lt x.isLt]; simp
  next h =>
    rw [Nat.min_eq_left (by omega), BitVec.toNat_ushiftRight, Nat.shiftRight_eq_div_pow,
      Nat.mod_eq_of_lt (Nat.lt_of_le_of_lt (Nat.div_le_self ..) x.isLt)]

/-- Shifted by its whole width, a code is its sign in every bit. -/
theorem sshiftRight_width (x : BitVec w) : x.sshiftRight w = if x.msb then BitVec.allOnes w else 0 := by
  apply BitVec.eq_of_getLsbD_eq
  intro j hj
  rw [BitVec.getLsbD_sshiftRight]
  cases hx : x.msb <;> simp [hj, Nat.not_le.2 hj]

theorem shiftOp_sar (hw : 0 < w) (x y : BitVec w) :
    shiftOp w (fun x n => wrapTo w (sext w x / 2 ^ n)) [x.toNat, y.toNat] =
      ((if y.toNat ≥ w then (if x.msb then BitVec.allOnes w else 0) else x.sshiftRight y.toNat).toNat, 0) := by
  have hshift : ∀ n, wrapTo w (sext w x.toNat / 2 ^ n) % 2 ^ w = (x.sshiftRight n).toNat := fun n => by
    rw [wrapTo_eq, sext_toNat x hw, BitVec.sshiftRight_eq, Int.shiftRight_eq_div_pow, Nat.mod_eq_of_lt (BitVec.isLt _)]
    push_cast
    rfl
  simp only [shiftOp, hshift, Prod.mk.injEq, and_true]
  split
  next h => rw [Nat.min_eq_right h, sshiftRight_width]
  next h => rw [Nat.min_eq_left (by omega)]

/-- Settles O22: each word runs one function of its elements' codes, which is that of the bits. -/
theorem vectorIntegers : Obligations.VectorIntegers := by
  intro s p e v a b t m ht w x y d less
  have hlat : addLat t = 2 := addLat_int ht
  refine ⟨fun hr => ⟨?add, ?sub, ?mul, ?min, ?max, ?shl, ?shr, ?sar⟩, fun hr => ⟨?fma, ?fms⟩, fun hr => ⟨?abs, ?neg⟩⟩
  case add =>
    exact elementWise_int_two ht (z := (· + ·)) hr (by rw [← hlat]; rfl) fun x y => by rw [BitVec.ofInt_add, ofInt_intOf, ofInt_intOf]
  case sub =>
    refine elementWise_int_two ht (z := (· - ·)) hr (by rw [← hlat]; rfl) fun x y => ?_
    rw [Int.sub_eq_add_neg, BitVec.ofInt_add, intOf_negate, ofInt_intOf, BitVec.sub_eq_add_neg]
  case mul => exact elementWise_int_two ht (z := (· * ·)) hr rfl fun x y => by rw [BitVec.ofInt_mul, ofInt_intOf, ofInt_intOf]
  case fma =>
    refine elementWise_int_three ht (z := fun x y d => d + x * y) hr rfl fun x y d => ?_
    rw [BitVec.ofInt_add, BitVec.ofInt_mul, ofInt_intOf, ofInt_intOf, ofInt_intOf]
  case fms =>
    refine elementWise_int_three ht (z := fun x y d => d - x * y) hr rfl fun x y d => ?_
    rw [Int.sub_eq_add_neg, BitVec.ofInt_add, BitVec.ofInt_neg, BitVec.ofInt_mul, ofInt_intOf, ofInt_intOf, ofInt_intOf,
      BitVec.sub_eq_add_neg]
  case min =>
    refine elementWise_of hr (by rw [← hlat]; rfl) fun c k => (minMax_int ht false (x c k) (y c k)).trans ?_
    simp only [intOf_lt]
    rfl
  case max =>
    refine elementWise_of hr (by rw [← hlat]; rfl) fun c k => (minMax_int ht true (x c k) (y c k)).trans ?_
    simp only [intOf_lt]
    rfl
  case shl => exact elementWise_of hr rfl fun c k => shiftOp_shl (x c k) (y c k)
  case shr => exact elementWise_of hr rfl fun c k => shiftOp_shr (x c k) (y c k)
  case sar => exact elementWise_of hr rfl fun c k => shiftOp_sar (laneW_pos t) (x c k) (y c k)
  case abs =>
    refine elementWise_of hr rfl fun c k => (signOp_int ht false (x c k)).trans ?_
    rw [← intOf_natAbs]
    rfl
  case neg =>
    refine elementWise_of hr rfl fun c k => (signOp_int ht true (x c k)).trans ?_
    rw [← intOf_negate]
    rfl

end Sys2Proof.Machine
end

section
/-!
PROOF. Floating arithmetic on elements (11 R216, R217, R223 to R226): one rounding of an exact value, with the flags of the value and of the
rounding; the words that choose bits.
-/
namespace Sys2Proof.Machine

variable {s : State} {i : Instr} {p m : BitVec 3} {e : Ext} {v a b : BitVec 5} {t : LaneTy} {off : Nat}

/-! ## One rounding -/

/-- A result of one element with the NV that it raises. -/
theorem fltOp_nvIf (t : LaneTy) (e : Ext) {g : List Num → Num × Nat} {xs : List Nat} {z : Num} {nv : Bool}
    (h : g (xs.map (laneFmt t).decode) = (z, nvIf nv)) : fltOp t (extRm e) g xs = rounded t e z nv := by
  simp only [fltOp, rounded, h, nvIf, Nat.or_comm]

/-- A result with flags of its own. -/
theorem fltOp_flags (t : LaneTy) (e : Ext) (g : List Num → Num × Nat) (xs : List Nat) :
    fltOp t (extRm e) g xs =
      let q := g (xs.map (laneFmt t).decode)
      let r := rounded t e q.1 false
      (r.1, r.2 ||| q.2) := by
  simp [fltOp, rounded, Nat.or_comm]

theorem elemOp_flt (ht : t.isFloat = true) (rm : Rm) (f : List Num → Num × Nat) (g : List Int → Int) :
    elemOp t rm f g = fltOp t rm f := by
  simp [elemOp, ht]

theorem addLat_flt (ht : t.isFloat = true) : addLat t = 4 := by simp [addLat, ht]

/-- NV arises where a NaN does, of operands that are none. -/
def arises (z : Num) (l : List Num) : Bool := z.isNan && l.all fun u => !u.isNan

theorem addNv_eq (rm : Rm) (x y : Num) :
    addNv rm x y = (Num.add (rm == .rdn) x y, nvIf (arises (Num.add (rm == .rdn) x y) [x, y])) := by
  simp [addNv, arises, Bool.and_assoc]

theorem mulNv_eq (x y : Num) : mulNv x y = (x.mul y, nvIf (arises (x.mul y) [x, y])) := by
  simp [mulNv, arises, Bool.and_assoc]

theorem isNan_negate (x : Num) : x.negate.isNan = x.isNan := by cases x <;> rfl

theorem nvIf_or (x y : Bool) : nvIf x ||| nvIf y = nvIf (x || y) := by cases x <;> cases y <;> rfl

/-- A word that rounds one exact value of its elements, with the NV that it raises. -/
theorem elementWise_rounded {srcs : List (BitVec 5)} {fn : List Nat → Nat × Nat} {g : List Num → Num × Nat} {z : Nat → Nat → Num}
    {nv : Nat → Nat → Bool} (hr : VReady s p [] srcs) (hi : exec i s = s.elementwise p v srcs (laneW t) m off fn)
    (hfn : fn = fltOp t (extRm e) g) (hg : ∀ c k, g (srcs.map fun r => s.num t c r k) = (z c k, nvIf (nv c k))) :
    ElementWise i s v m off (laneW t) fun c k => rounded t e (z c k) (nv c k) :=
  elementWise_of hr hi fun c k => by
    rw [hfn]
    exact fltOp_nvIf t e (by rw [List.map_map]; exact hg c k)

/-! ## Addition, multiplication and both -/

theorem subNv_eq (rm : Rm) (x y : Num) :
    addNv rm x y.negate = (Num.add (rm == .rdn) x y.negate, nvIf (arises (Num.add (rm == .rdn) x y.negate) [x, y])) := by
  simp [addNv_eq, arises, isNan_negate]

/-- The product and the sum may each raise NV. -/
theorem fmaNv_eq (rm : Rm) (neg : Bool) (x y d : Num) :
    fmaNv rm neg x y d =
      let q := x.mul y
      let z := Num.add (rm == .rdn) d (if neg then q.negate else q)
      (z, nvIf (arises q [x, y] || arises z [d, q])) := by
  cases neg with
  | false => simp [fmaNv, mulNv_eq, addNv_eq, nvIf_or]
  | true => simp [fmaNv, mulNv_eq, subNv_eq, nvIf_or]

/-! ## Words that choose bits -/

theorem minMax_flt (ht : t.isFloat = true) (isMax : Bool) (x y : Nat) :
    minMax t isMax [x, y] =
      (if ((laneFmt t).decode x).isNan || ((laneFmt t).decode y).isNan then (laneFmt t).nanCode
       else if (if isMax then ((laneFmt t).decode x).lt0 ((laneFmt t).decode y) else ((laneFmt t).decode y).lt0 ((laneFmt t).decode x))
         then y else x, 0) := by
  simp only [minMax, ht, if_true]
  split <;> rfl

theorem laneFmt_bits (ht : t.isFloat = true) : (laneFmt t).bits = laneW t := by
  revert ht
  cases t <;> decide

/-- A change of the sign bit, as an addition. -/
theorem flipSign {n x : Nat} (hn : 0 < n) (hx : x < 2 ^ n) :
    x % 2 ^ (n - 1) + (if !decide (x ≥ 2 ^ (n - 1)) then 2 ^ (n - 1) else 0) = (x + 2 ^ (n - 1)) % 2 ^ n := by
  have hpow : 2 ^ n = 2 * 2 ^ (n - 1) := by rw [← Nat.pow_add_one', Nat.sub_add_cancel hn]
  rw [hpow] at hx ⊢
  generalize 2 ^ (n - 1) = h at hx ⊢
  by_cases hle : h ≤ x
  · have hmod : x % h = x - h := by rw [Nat.mod_eq_sub_mod hle, Nat.mod_eq_of_lt (by omega)]
    have hwrap : (x + h) % (2 * h) = x - h := by rw [Nat.mod_eq_sub_mod (by omega), Nat.mod_eq_of_lt (by omega)]; omega
    simp [hle, hmod, hwrap]
  · rw [Nat.mod_eq_of_lt (by omega), Nat.mod_eq_of_lt (by omega)]
    simp [hle]

theorem signOp_abs_flt (ht : t.isFloat = true) (x : Nat) :
    signOp t false [x] = (if ((laneFmt t).decode x).isNan then (laneFmt t).nanCode else x % 2 ^ (laneW t - 1), 0) := by
  simp only [signOp, ht, if_true, laneFmt_bits ht]
  split <;> rfl

theorem signOp_neg_flt (ht : t.isFloat = true) {x : Nat} (hx : x < 2 ^ laneW t) :
    signOp t true [x] =
      (if ((laneFmt t).decode x).isNan then (laneFmt t).nanCode else (x + 2 ^ (laneW t - 1)) % 2 ^ laneW t, 0) := by
  simp only [signOp, ht, if_true, laneFmt_bits ht, Fmt.signBit, flipSign (laneW_pos t) hx]
  split <;> rfl

/-! ## Roots and special functions -/

theorem rounded_nan (t : LaneTy) (e : Ext) : rounded t e .nan false = ((laneFmt t).nanCode, 0) := by
  simp [rounded, roundTo, RFlags.bits, RFlags.none]

/-- R225: the pivot form refuses what the root proper does, and a zero. -/
theorem sqrtNv_pivot (x : Num) :
    sqrtNv true x = if x.isNan = true ∨ x.isZero = true ∨ x.neg? = true then (.nan, vsPIVOT) else ((sqrtNv false x).1, 0) := by
  cases x with
  | nan => rfl
  | zero n => rfl
  | inf n => cases n <;> rfl
  | fin n q => by_cases h : n < 0 <;> simp [sqrtNv, Num.isNan, Num.isZero, Num.neg?, h]

theorem fltOp_sqrtPv (t : LaneTy) (e : Ext) (n : Nat) :
    fltOp t (extRm e) (f1 (sqrtNv true)) [n] =
      let x := (laneFmt t).decode n
      if x.isNan ∨ x.isZero ∨ x.neg? then ((laneFmt t).nanCode, vsPIVOT) else rounded t e (sqrtNv false x).1 false := by
  rw [fltOp_flags]
  simp only [List.map_cons, List.map_nil, f1, sqrtNv_pivot]
  split
  · rw [rounded_nan, Nat.zero_or]
  · simp

theorem fltOp_special (t : LaneTy) (e : Ext) (f : Num → SfRes) (n : Nat) :
    fltOp t (extRm e) (f1 fun x => ((f x).x, nvIf (f x).nv + if (f x).dz then vsDZ else 0)) [n] =
      let r := f ((laneFmt t).decode n)
      let q := rounded t e r.x r.nv
      (q.1, q.2 ||| if r.dz then vsDZ else 0) := by
  simp only [fltOp, List.map_cons, List.map_nil, f1, rounded, Nat.or_assoc]
  rw [Nat.or_comm]
  cases (f ((laneFmt t).decode n)).nv <;> cases (f ((laneFmt t).decode n)).dz <;> rfl

theorem elementWise_special {f : Num → SfRes} (hr : VReady s p [] [a]) (hi : exec i s = s.special p e v a t m f) :
    ElementWise i s v m 8 (laneW t) fun c k =>
      let r := f (s.num t c a k)
      let q := rounded t e r.x r.nv
      (q.1, q.2 ||| if r.dz then vsDZ else 0) :=
  elementWise_of hr hi fun _ _ => fltOp_special t e f _

/-- Settles O23: each word rounds one exact value of its elements, or chooses bits of theirs. -/
theorem vectorFloats : Obligations.VectorFloats := by
  intro s p e v a b t m ht w x y d rd nan new special
  have hlat : addLat t = 4 := addLat_flt ht
  refine ⟨fun hr => ⟨?add, ?sub, ?mul, ?min, ?max, ?div⟩, fun hr => ⟨?fma, ?fms⟩,
    fun hr => ⟨?abs, ?neg, ?sqrt, ?sqrtPv, ?rcp, ?rsq, ?exp2, ?log2, ?sinpi, ?cospi⟩⟩
  case add => exact elementWise_rounded hr (by rw [← hlat]; rfl) (elemOp_flt ht ..) fun c k => addNv_eq ..
  case sub => exact elementWise_rounded hr (by rw [← hlat]; rfl) (elemOp_flt ht ..) fun c k => subNv_eq ..
  case mul => exact elementWise_rounded hr rfl (elemOp_flt ht ..) fun c k => mulNv_eq ..
  case fma => exact elementWise_rounded hr rfl (elemOp_flt ht ..) fun c k => fmaNv_eq ..
  case fms => exact elementWise_rounded hr rfl (elemOp_flt ht ..) fun c k => fmaNv_eq ..
  case min => exact elementWise_of hr (by rw [← hlat]; rfl) fun c k => minMax_flt ht false _ _
  case max => exact elementWise_of hr (by rw [← hlat]; rfl) fun c k => minMax_flt ht true _ _
  case div => exact elementWise_of hr rfl fun c k => fltOp_flags t e _ _
  case abs => exact elementWise_of hr rfl fun c k => signOp_abs_flt ht _
  case neg => exact elementWise_of hr rfl fun c k => signOp_neg_flt ht (elemAt_lt ..)
  case sqrt => exact elementWise_of hr rfl fun c k => fltOp_flags t e _ _
  case sqrtPv => exact elementWise_of hr rfl fun c k => fltOp_sqrtPv t e _
  all_goals exact elementWise_special hr rfl

end Sys2Proof.Machine
end

section
/-!
PROOF. Comparison, selection, bitwise words and mask words (11 R227 to R230).
-/
namespace Sys2Proof.Machine

/-! ## Masks -/

/-- A number from its bits, the sum of their powers of two. -/
theorem foldl_bits_lt (f : Nat → Bool) (n : Nat) : (List.range n).foldl (fun k j => k + if f j then 2 ^ j else 0) 0 < 2 ^ n := by
  induction n with
  | zero => exact Nat.one_pos
  | succ n ih =>
    have hbit : (if f n then 2 ^ n else 0) ≤ 2 ^ n := by split <;> omega
    rw [List.range_succ, List.foldl_append, List.foldl_cons, List.foldl_nil, Nat.pow_succ]
    omega

theorem testBit_foldl_bits (f : Nat → Bool) (n j : Nat) :
    ((List.range n).foldl (fun k j => k + if f j then 2 ^ j else 0) 0).testBit j = (decide (j < n) && f j) := by
  induction n with
  | zero => simp
  | succ n ih =>
    rw [List.range_succ, List.foldl_append, List.foldl_cons, List.foldl_nil]
    have hlt := foldl_bits_lt f n
    generalize (List.range n).foldl (fun k j => k + if f j then 2 ^ j else 0) 0 = x at ih hlt ⊢
    have hor : x + (if f n then 2 ^ n else 0) = (if f n then 2 ^ n else 0) ||| x := by
      have hmul := Nat.two_pow_add_eq_or_of_lt hlt 1
      rw [Nat.mul_one] at hmul
      split
      · rw [Nat.add_comm, hmul]
      · rw [Nat.add_zero, Nat.zero_or]
    rw [hor, Nat.testBit_or, ih]
    by_cases h : j = n
    · subst h
      cases hf : f j <;> simp
    · have hsucc : j < n + 1 ↔ j < n := by omega
      have hne : n ≠ j := fun e => h e.symm
      cases f n <;> simp [hsucc, hne]

theorem getLsbD_maskBits (f : Nat → Bool) {j : Nat} (hj : j < 16) : (maskBits f).getLsbD j = f j := by
  rw [maskBits, BitVec.getLsbD_ofNat, testBit_foldl_bits]
  simp [hj]

/-! ## Conditions (R227) -/

/-- The types that VCMP takes have elements of a lane. -/
theorem laneW_of_cmpOk {t : LaneTy} (h : t.cmpOk = true) : laneW t = 32 := by
  revert h
  cases t <;> decide

/-- An integer lane as its type reads it. -/
theorem intOf_lane {t : LaneTy} (h : t.cmpOk = true) (x : BitVec 32) :
    intOf t x.toNat = if t = .n32 then (x.toNat : Int) else x.toInt := by
  rw [intOf, laneW_of_cmpOk h, sext_toNat x (by decide)]

/-- The mask that VCMP writes. -/
def cmpMask (cc : VecCc) (t : LaneTy) (mask : BitVec 16) (x y : BitVec 512) : BitVec 16 :=
  maskBits fun j => mask.getLsbD j &&
    (if t = .f32 then VecCc.holdsF cc (fp32.decode (elemAt 32 x j)) (fp32.decode (elemAt 32 y j))
     else VecCc.holdsI cc (intOf t (elemAt 32 x j)) (intOf t (elemAt 32 y j)))

theorem getLsbD_cmpMask (cc : VecCc) (t : LaneTy) (mask : BitVec 16) (x y : BitVec 512) {j : Nat} (hj : j < 16) :
    (cmpMask cc t mask x y).getLsbD j = true ↔ mask.getLsbD j = true ∧
      (if t = .f32 then VecCc.holdsF cc (fp32.decode (elemAt 32 x j)) (fp32.decode (elemAt 32 y j))
       else VecCc.holdsI cc (intOf t (elemAt 32 x j)) (intOf t (elemAt 32 y j))) = true := by
  rw [cmpMask, getLsbD_maskBits _ hj, Bool.and_eq_true]

/-- Settles O24: the mask of a comparison bit by bit, a selection lane by lane, the other words on whole vectors and masks. -/
theorem vectorLogic : Obligations.VectorLogic := by
  refine ⟨fun s p e d cc a b t m hr ht hcc => ?compare, fun s p e v a b m hr => ⟨?select, ?and, ?or, ?xor⟩,
    fun s p e v a m hr => ?not, fun s p e d a b r hr => ⟨?mand, ?mor, ?mnot, ?count⟩⟩
  case compare =>
    refine ⟨fun c => cmpMask cc t (s.rdM c m) (s.rdV c a) (s.rdV c b), vEmits_of_vec hr rfl fun c _ l => rfl, fun c j hj => ?_⟩
    refine (getLsbD_cmpMask cc t _ _ _ hj).trans (and_congr_right fun _ => ?_)
    by_cases hf : t = .f32
    · rw [if_pos hf, if_pos hf]
      cases cc <;> simp [VecCc.holdsF, State.num, laneFmt, laneW]
    · rw [if_neg hf, if_neg hf]
      have hint : ∀ v : BitVec 512, intOf t (elemAt 32 v j) = if t = .n32 then ((lane v j).toNat : Int) else (lane v j).toInt :=
        fun v => intOf_lane ht (lane v j)
      rw [hint, hint]
      cases cc <;> simp [VecCc.holdsI]
  case select =>
    exact ⟨fun c => blend (s.rdM c m) (s.rdV c a) (s.rdV c b), vEmits_of_vec hr rfl fun c _ l => rfl,
      fun c j hj => lane_blend _ _ _ hj⟩
  all_goals exact vEmits_of_vec hr rfl fun c _ l => rfl

end Sys2Proof.Machine
end

section
/-!
PROOF. Conversions, block formats and the words that move lanes (11 R231 to R235, R239 to R241).
-/
namespace Sys2Proof.Machine

variable {s : State} {c : Nat}

/-! ## Block formats (R234) -/

/-- The vectors that VDQNT writes: one, or two for FP32. -/
theorem State.dequantized_plus (s : State) (c : Nat) (v : BitVec 5) (t : LaneTy) (r : List Nat × Nat) (l : List Pend) :
    (if t = .f32 then
        (((s.inCluster c).plus l).emitV 4 c v allLanes (ofElems 32 (r.1.take 16))).emitV 4 c (v + 1) allLanes (ofElems 32 (r.1.drop 16))
      else ((s.inCluster c).plus l).emitV 4 c v allLanes (ofElems 16 r.1)).flagV 4 r.2 =
    ((s.inCluster c).plus l).plus ((if t = .f32 then
        [s.vResult c 4 v (BitVec.allOnes 16) (ofElems 32 (r.1.take 16)),
          s.vResult c 4 (v + 1) (BitVec.allOnes 16) (ofElems 32 (r.1.drop 16))]
      else [s.vResult c 4 v (BitVec.allOnes 16) (ofElems 16 r.1)]) ++ s.vFlags c 4 r.2) := by
  rw [State.flagV_plus]
  split
  · rw [State.emitV, State.emitV, State.emit_plus, State.emit_plus, State.plus_plus, State.plus_plus]
    rfl
  · rw [State.emitV, State.emit_plus, State.plus_plus]
    rfl

/-- Settles O25: the element-wise words run one function of the codes, the block words one of the whole vector. -/
theorem vectorConversions : Obligations.VectorConversions := by
  intro s p e v a b st t ec hi m
  refine ⟨fun hr _ => ?convert, fun hr _ => ?pack, fun hr _ => ?unpack, fun hr _ => ?quantize, fun hr _ => ?dequantize⟩
  case quantize => exact vEmits_of_vec hr rfl fun c _ l => rfl
  case dequantize => exact vEmits_of_vec hr rfl fun c _ l => State.dequantized_plus s c v t _ l
  all_goals exact elementWise_of hr rfl fun c k => rfl

/-! ## The random-bits queue (R111) -/

theorem State.popV_held {ok : BitVec 512 → State → State} (h : s.cur.pops.length ≤ s.me.rq.held) :
    s.popV c ok = ok (s.me.rq.peek (s.cur.pops.idxOf c)) s := if_neg (Nat.not_lt.2 h)

theorem State.popV_short {ok : BitVec 512 → State → State} (h : s.cur.pops.length > s.me.rq.held) :
    s.popV c ok = s.trap (.timing 5 0) := if_pos h

/-! ## Lanes -/

/-- A scalar register's low 32 bits in every lane. -/
def broadcast (x : Word) : BitVec 512 := ofLanes (List.replicate 16 (x.toNat % 2 ^ 32))

theorem lane_broadcast (x : Word) {j : Nat} (hj : j < 16) : lane (broadcast x) j = x.extractLsb' 0 32 := by
  rw [broadcast, lane_ofLanes_replicate _ hj]
  apply BitVec.eq_of_toNat_eq
  simp

/-- The lanes of x that the lanes of y number (R235). -/
def permuted (x y : BitVec 512) : BitVec 512 := ofLanes ((lanes y).map fun i => (lane x (i % 16)).toNat)

theorem lane_permuted (x y : BitVec 512) {j : Nat} (hj : j < 16) : lane (permuted x y) j = lane x ((lane y j).toNat % 16) := by
  rw [permuted, lanes, List.map_map, lane_ofLanes_range _ hj]
  exact (BitVec.ofNat_toNat ..).trans (BitVec.setWidth_eq _)

/-- One lane of x in every lane. -/
def spread (x : BitVec 512) (c : Nat) : BitVec 512 := ofLanes (List.replicate 16 (lane x c).toNat)

theorem lane_spread (x : BitVec 512) (c : Nat) {j : Nat} (hj : j < 16) : lane (spread x c) j = lane x c := by
  rw [spread, lane_ofLanes_replicate _ hj, BitVec.ofNat_toNat, BitVec.setWidth_eq]

/-- Settles O26: each word's vector, lane by lane, and the queue held or short. -/
theorem vectorMovement : Obligations.VectorMovement := by
  refine ⟨fun s p e v a b m hr => ?permute, fun s p e v a n m hr => ⟨?broadcast, ?insert⟩, fun s p e d a n hr => ?extract,
    fun s p e v m hr => ⟨fun hheld => ?pop, fun c hc hshort => ?short⟩, fun s p e v a n m hr hclean => ⟨?copy, ?copyLane⟩⟩
  case permute =>
    exact ⟨fun c => permuted (s.rdV c a) (s.rdV c b), vEmits_of_vec hr rfl fun c _ l => rfl, fun c j hj => lane_permuted _ _ hj⟩
  case broadcast => exact ⟨broadcast (s.rdS a), vEmits_of_vec hr rfl fun c _ l => rfl, fun j hj => lane_broadcast _ hj⟩
  case insert => exact ⟨broadcast (s.rdS a), vEmits_of_vec hr rfl fun c _ l => rfl, lane_broadcast _ n.isLt⟩
  case extract => exact vEmits_of_vec hr rfl fun c _ l => rfl
  case pop =>
    exact ⟨vEmits_of_vec hr rfl fun c _ l => State.popV_held (s := (s.inCluster c).plus l) hheld,
      vEmits_of_vec hr rfl fun c _ l => State.popV_held (s := (s.inCluster c).plus l) hheld⟩
  case short =>
    exact ⟨traps_of_vec hr hc rfl (State.popV_short (s := s.inCluster c) hshort),
      traps_of_vec hr hc rfl (State.popV_short (s := s.inCluster c) hshort)⟩
  case copy =>
    refine vEmits_of_vec hr rfl fun c _ l => ?_
    simp only [State.useV_clean (s := (s.inCluster c).plus l) hclean]
    rfl
  case copyLane =>
    refine ⟨fun c => spread (s.rdV n.toNat a) c, vEmits_of_vec hr rfl fun c _ l => ?_, fun c j hj => lane_spread _ _ hj⟩
    simp only [State.useV_clean (s := (s.inCluster c).plus l) hclean]
    rfl

end Sys2Proof.Machine
end

section
/-!
PROOF. Reductions (11 R236 to R238).
-/
namespace Sys2Proof.Machine

variable {s : State} {p m : BitVec 3} {e : Ext} {v a b : BitVec 5} {t : LaneTy}

/-! ## Integer sums -/

theorem clamp_eq {lo hi : Int} (h : lo ≤ hi) (k : Int) : clamp lo hi k = max lo (min hi k) := by
  unfold clamp
  split
  · omega
  · split <;> omega

/-- R236: the sum in bounds, as its 32 bits. -/
theorem intSum_eq (t : LaneTy) (l : List Int) :
    intSum t l = if t = .n32 then (max 0 (min (2 ^ 32 - 1) l.sum)).toNat
      else (max (-(2 ^ 31)) (min (2 ^ 31 - 1) l.sum) % 2 ^ 32).toNat := by
  rw [intSum, ← List.sum_eq_foldl]
  split
  · rw [clamp_eq (by decide), wrapTo, Int.emod_eq_of_lt (by omega) (by omega)]
  · rw [clamp_eq (by decide), wrapTo]

/-! ## Words -/

theorem State.intSum_plus (s : State) (c : Nat) (v : BitVec 5) (t : LaneTy) (terms : List Int) (l : List Pend) :
    ((s.inCluster c).plus l).emitLane0 c v (intSum t terms) = ((s.inCluster c).plus l).plus
      [s.vResult c 8 v (BitVec.allOnes 16) (BitVec.ofNat 512 ((if t = .n32 then (max 0 (min (2 ^ 32 - 1) terms.sum)).toNat
        else (max (-(2 ^ 31)) (min (2 ^ 31 - 1) terms.sum) % 2 ^ 32).toNat) % 2 ^ 32))] := by
  rw [intSum_eq]
  rfl

/-- A floating sum in lane 0, with its flags. -/
theorem State.fltSum_plus (s : State) (c : Nat) (v : BitVec 5) (rm : Rm) (terms : List Num) (nv : Bool) (l : List Pend) :
    ((s.inCluster c).plus l).fltSum c v rm terms nv = ((s.inCluster c).plus l).plus
      (s.vResult c 8 v (BitVec.allOnes 16) (BitVec.ofNat 512 ((vecSum terms rm).1 % 2 ^ 32)) ::
        s.vFlags c 8 (sumFlags (vecSum terms rm).2 ||| nvIf (nv || infsMeet terms))) :=
  State.emitV_flagV ..

theorem execVrsum_int (ht : t.isFloat = false) : execVrsum p e v a t m s = s.vec p [] [a] fun c s =>
    s.emitLane0 c v (intSum t ((selElems (laneW t) (s.rdM c m) (s.rdV c a)).map (intOf t))) := by
  simp only [execVrsum, ht, Bool.false_eq_true, if_false]

theorem execVrsum_flt (ht : t.isFloat = true) : execVrsum p e v a t m s = s.vec p [] [a] fun c s =>
    s.fltSum c v (extRm e) ((selElems (laneW t) (s.rdM c m) (s.rdV c a)).map (laneFmt t).decode) false := by
  simp only [execVrsum, ht, if_true]

theorem execVdot_int (ht : t.isFloat = false) : execVdot p e v a b t m s = s.vec p [] [a, b] fun c s =>
    let xs := fun r => (selElems (laneW t) (s.rdM c m) (s.rdV c r)).map (intOf t)
    s.emitLane0 c v (intSum t (((xs a).zip (xs b)).map fun x => x.1 * x.2)) := by
  simp only [execVdot, ht, Bool.false_eq_true, if_false, List.zip_map, List.map_map]
  rfl

theorem execVdot_flt (ht : t.isFloat = true) : execVdot p e v a b t m s = s.vec p [] [a, b] fun c s =>
    let xs := fun r => (selElems (laneW t) (s.rdM c m) (s.rdV c r)).map (laneFmt t).decode
    let qs := ((xs a).zip (xs b)).map fun x => mulNv x.1 x.2
    s.fltSum c v (extRm e) (qs.map (·.1)) (qs.any fun q => q.2 != 0) := by
  simp only [execVdot, ht, if_true, List.zip_map, List.map_map]
  rfl

/-- Settles O27: a sum by the kind of its type, an extreme and a difference as they are; each in lane 0. -/
theorem vectorReductions : Obligations.VectorReductions := by
  intro s p e v a b t m lane0 sel ints nums total
  refine ⟨fun hr => ⟨fun ht => ?sumInt, fun ht => ?sumFlt, ?max, ?min⟩,
    fun hr => ⟨fun ht => ?dotInt, fun ht => ?dotFlt, fun _ => ?delta⟩⟩
  case sumInt => exact vEmits_of_vec hr (execVrsum_int ht) fun c _ l => State.intSum_plus s c v t _ l
  case dotInt => exact vEmits_of_vec hr (execVdot_int ht) fun c _ l => State.intSum_plus s c v t _ l
  case sumFlt => exact vEmits_of_vec hr (execVrsum_flt ht) fun c _ l => State.fltSum_plus s c v _ _ _ l
  case dotFlt => exact vEmits_of_vec hr (execVdot_flt ht) fun c _ l => State.fltSum_plus s c v _ _ _ l
  all_goals exact vEmits_of_vec hr rfl fun c _ l => rfl

end Sys2Proof.Machine
end

section
/-!
PROOF. The vector loads and stores (11 R219 to R222): addresses, the checks of a line, of lanes and of the latent store, and what follows
them.
-/
namespace Sys2Proof.Machine

variable {s : State} {c : Nat}

/-! ## Offsets (R128) -/

/-- A scaled offset, widened first. -/
theorem word_extInt_mul {w : Nat} (o : BitVec w) (e : Ext) (k : Nat) : word (extInt o e * k) = extended o e * BitVec.ofNat 64 k := by
  rw [← immWord_eq_extended, immWord, word, word, BitVec.ofInt_mul, BitVec.ofInt_natCast]

/-- The offset of a line from a base. -/
theorem State.baseOff_line {w : Nat} (s : State) (base : Base) (o : BitVec w) (e : Ext) :
    s.baseOff base o e 64 = s.baseVal base + extended o e * 64 := congrArg _ (word_extInt_mul o e 64)

/-- The offset of a line in a span. -/
theorem spanOff_line {w : Nat} (o : BitVec w) (e : Ext) : spanOff o e 64 = extended o e * 64 := word_extInt_mul o e 64

/-! ## Scratchpad addresses (R187, R220, R221) -/

section Scratchpad

variable {a : Word} {align n : Nat} {ok : State → State}

theorem State.spCheck_ok (halign : a.toNat % align = 0) (hrange : a.toNat + n ≤ 0x50000) : s.spCheck a align n ok = ok s := by
  have hin : ¬a.toNat + n > spSize := Nat.not_lt.2 hrange
  simp [State.spCheck, halign, hin]

theorem State.spCheck_unaligned (halign : a.toNat % align ≠ 0) : s.spCheck a align n ok = s.trap (.align a none) := if_pos halign

theorem State.spCheck_past (halign : a.toNat % align = 0) (hrange : a.toNat + n > 0x50000) :
    s.spCheck a align n ok = s.trap (.range a none) := by
  have hpast : a.toNat + n > spSize := hrange
  simp [State.spCheck, halign, hpast]

end Scratchpad

/-- The addresses of the unmasked lanes stand in words of the scratchpad. -/
def LanesOk (mask : BitVec 16) (f : Nat → Word) : Prop :=
  ∀ j < 16, mask.getLsbD j = true → (f j).toNat % 4 = 0 ∧ (f j).toNat + 4 ≤ 0x50000

theorem foldl_eq_self {α β : Type} {f : α → β → α} {l : List β} {x : α} (h : ∀ y ∈ l, f x y = x) : l.foldl f x = x := by
  induction l with
  | nil => rfl
  | cons y ys ih =>
    rw [List.foldl_cons, h y List.mem_cons_self]
    exact ih fun z hz => h z (List.mem_cons_of_mem y hz)

theorem State.laneCheck_ok {mask : BitVec 16} {f : Nat → Word} (h : LanesOk mask f) : s.laneCheck mask ((List.range 16).map f) = s := by
  refine foldl_eq_self fun x hx => ?_
  obtain ⟨hlt, hfx⟩ := mem_zipIdx_map_range.1 hx
  split
  · next hbit =>
    obtain ⟨halign, hrange⟩ := h x.2 hlt hbit
    exact State.spCheck_ok (hfx ▸ halign) (hfx ▸ hrange)
  · rfl

theorem State.laneCheck_emit {mask : BitVec 16} {f : Nat → Word} (h : LanesOk mask f) (act : Act) :
    (s.laneCheck mask ((List.range 16).map f)).emit 1 act = s.plus [s.due 1 act] := by
  rw [State.laneCheck_ok h, State.emit_plus]

theorem State.idxAddrs_eq (s : State) (c : Nat) (a b : BitVec 5) :
    s.idxAddrs c a b = (List.range 16).map fun j => s.rdS a + (lane (s.rdV c b) j).zeroExtend 64 := by
  rw [State.idxAddrs, lanes, List.map_map]
  refine List.map_congr_left fun j _ => ?_
  rw [Function.comp_apply, BitVec.ofNat_toNat]

/-! ## The latent store (R222, R89) -/

theorem State.handleOp_ok {h : BitVec 4} {o : Word} {n align : Nat} {wr lsp : Bool} {ok : LsAddr → State → State} (hn : 0 < n)
    (hok : HandleOk (s.rdH h) o.toNat n wr lsp) (halign : o.toNat % align = 0) :
    s.handleOp h o n align wr lsp ok = ok (handlePlace (s.rdH h) o.toNat) s := by
  simp [State.handleOp, handleCheck_of_ok hn hok, halign]

theorem State.lsGate_open {pl : LsAddr} {wr : Bool} {ok : State → State} (hholder : s.isHolder = true) (hopen : LsOpen s pl wr) :
    s.lsGate pl wr ok = ok s := by
  obtain ⟨hlent, huse, hphase, _⟩ := hopen
  rw [hholder, if_pos rfl, if_pos rfl] at hphase
  simp [State.lsGate, hholder, hphase, hlent, huse]

theorem State.lsGate_offPhase {pl : LsAddr} {wr : Bool} {ok : State → State} (hholder : s.isHolder = true) (hoff : OffPhase s pl wr) :
    s.lsGate pl wr ok = s.trap (.timing 0 (BitVec.ofNat 64 (pl.line % 2 ^ 25 + 2 ^ 25 * pl.die))) := by
  rw [OffPhase, hholder, if_pos rfl, if_pos rfl] at hoff
  simp [State.lsGate, hholder, hoff]

theorem State.dieOff_eq (s : State) (die near : Nat) : s.dieOff die near = if die = dieOf s.cur.core then near else near + 16 := by
  simp [State.dieOff, State.ownDie]

/-! ## Lines of the scratchpad (R219) -/

section Line

variable {p m : BitVec 3} {e : Ext} {v : BitVec 5} {base : Base} {o : BitVec 8}

theorem line_emits (halign : (s.baseVal base + extended o e * 64).toNat % 64 = 0)
    (hend : (s.baseVal base + extended o e * 64).toNat + 64 ≤ 0x50000) :
    (VReady s p base.sregs [] → VEmits (.vld p e v base o m) s fun c =>
      [(s.inCluster c).due 1 (.vLoad c v (s.rdM c m) ((s.baseVal base + extended o e * 64).toNat / 64))]) ∧
    (VReady s p base.sregs [v] → VEmits (.vst p e v base o m) s fun c =>
      [(s.inCluster c).due 1 (.vStore c ((s.baseVal base + extended o e * 64).toNat / 64) (s.rdM c m) (s.rdV c v))]) := by
  refine ⟨fun hr => vEmits_of_vec hr rfl fun c _ l => ?load, fun hr => vEmits_of_vec hr rfl fun c _ l => ?store⟩
  all_goals
    rw [State.baseOff_line]
    exact State.spCheck_ok halign hend

/-- A check that fails is the trap of the load and of the store. -/
theorem line_traps {k : TrapKind} (hc : s.cur.clusters = [c])
    (hcheck : ∀ ok, (s.inCluster c).spCheck (s.baseVal base + extended o e * 64) 64 64 ok = (s.inCluster c).trap k) :
    (VReady s p base.sregs [] → Traps (.vld p e v base o m) (s.inCluster c) k) ∧
      (VReady s p base.sregs [v] → Traps (.vst p e v base o m) (s.inCluster c) k) := by
  refine ⟨fun hr => traps_of_vec hr hc rfl ?load, fun hr => traps_of_vec hr hc rfl ?store⟩
  all_goals
    rw [State.baseOff_line]
    exact hcheck _

end Line

/-! ## Lanes of the scratchpad (R220, R221) -/

section Lanes

variable {p m : BitVec 3} {e : Ext} {v a b : BitVec 5}

theorem vlds_emits (hr : VReady s p [a, b] [])
    (hlanes : ∀ c ∈ s.cur.clusters, LanesOk (s.rdM c m) fun j => s.rdS a + s.rdS b * BitVec.ofNat 64 j) :
    VEmits (.vlds p e v a b m) s fun c =>
      let ads := (List.range 16).map fun j => (s.rdS a + s.rdS b * BitVec.ofNat 64 j).toNat
      if s.rdM c m = 0 then []
      else [(s.inCluster c).due 1 (.vGather c v (s.rdM c m) ads (laneLines (s.rdM c m) ads) 0 false)] := by
  refine vEmits_of_vec hr rfl fun c hmem l => ?_
  simp only [List.map_map]
  rw [apply_ite (State.plus _), State.plus_nil]
  exact ite_congr rfl (fun _ => State.laneCheck_ok (s := (s.inCluster c).plus l) (hlanes c hmem))
    fun _ => State.laneCheck_emit (s := (s.inCluster c).plus l) (hlanes c hmem) _

theorem indexed_emits (hlanes : ∀ c ∈ s.cur.clusters, LanesOk (s.rdM c m) fun j => s.rdS a + (lane (s.rdV c b) j).zeroExtend 64) :
    let ads := fun c => (List.range 16).map fun j => (s.rdS a + (lane (s.rdV c b) j).zeroExtend 64).toNat
    (VReady s p [a] [b] → VEmits (.vldx p e v a b m) s fun c =>
      [(s.inCluster c).due 1 (.vIdxLoad c v (s.rdM c m) (ads c) 0 0 false)]) ∧
    (VReady s p [a] [b, v] → VEmits (.vstx p e v a b m) s fun c =>
      [(s.inCluster c).due 1 (.vIdxStore c (s.rdM c m) (ads c) 0 (s.rdV c v))]) := by
  refine ⟨fun hr => vEmits_of_vec hr rfl fun c hmem l => ?load, fun hr => vEmits_of_vec hr rfl fun c hmem l => ?store⟩
  all_goals
    simp only [State.idxAddrs_eq, List.map_map]
    exact State.laneCheck_emit (s := (s.inCluster c).plus l) (hlanes c hmem) _

end Lanes

/-! ## Lines of the latent store (R222) -/

section Latent

variable {p m : BitVec 3} {e : Ext} {v : BitVec 5} {h : BitVec 4} {o : BitVec 8} {wr : Bool} {ok : LsAddr → State → State}

/-- The place of a line through a handle. -/
abbrev State.lineAt (s : State) (h : BitVec 4) (o : BitVec 8) (e : Ext) : LsAddr := handlePlace (s.rdH h) (extended o e * 64).toNat

theorem State.latentLine_open (hholder : s.isHolder = true) (halign : (extended o e * 64).toNat % 64 = 0)
    (hok : HandleOk (s.rdH h) (extended o e * 64).toNat 64 wr true) (hopen : LsOpen s (s.lineAt h o e) wr) :
    (s.handleOp h (spanOff o e 64) 64 64 wr true fun pl s => s.lsGate pl wr (ok pl)) = ok (s.lineAt h o e) s := by
  rw [spanOff_line, State.handleOp_ok (by decide) hok halign, State.lsGate_open hholder hopen]

theorem State.latentLine_offPhase (hholder : s.isHolder = true) (halign : (extended o e * 64).toNat % 64 = 0)
    (hok : HandleOk (s.rdH h) (extended o e * 64).toNat 64 wr true) (hoff : OffPhase s (s.lineAt h o e) wr) :
    (s.handleOp h (spanOff o e 64) 64 64 wr true fun pl s => s.lsGate pl wr (ok pl)) =
      s.trap (.timing 0 (BitVec.ofNat 64 ((s.lineAt h o e).line % 2 ^ 25 + 2 ^ 25 * (s.lineAt h o e).die))) := by
  rw [spanOff_line, State.handleOp_ok (by decide) hok halign, State.lsGate_offPhase hholder hoff]

theorem vldl_emits (hr : VReady s p [] []) (halign : (extended o e * 64).toNat % 64 = 0)
    (hok : HandleOk (s.rdH h) (extended o e * 64).toNat 64 false true) (hopen : LsOpen s (s.lineAt h o e) false) :
    VEmits (.vldl p e v h o m) s fun c => [(s.inCluster c).due (if (s.lineAt h o e).die = dieOf s.cur.core then 24 else 40)
      (.wV c v (s.rdM c m) (BitVec.ofNat 512 (leNat (s.lsBytes (s.lineAt h o e) 64))) (s.lsTag (s.lineAt h o e)))] :=
  vEmits_of_vec hr rfl fun c _ l => by
    rw [State.latentLine_open (s := (s.inCluster c).plus l) hr.1.1 halign hok hopen, State.dieOff_eq]
    rfl

theorem vstl_emits (hr : VReady s p [] [v]) (halign : (extended o e * 64).toNat % 64 = 0)
    (hok : HandleOk (s.rdH h) (extended o e * 64).toNat 64 true true) (hopen : LsOpen s (s.lineAt h o e) true) :
    VEmits (.vstl p e v h o m) s fun c => [(s.inCluster c).due (if (s.lineAt h o e).die = dieOf s.cur.core then 20 else 36)
      (.lsStore (s.lineAt h o e) ((List.range 64).map fun i => (s.rdM c m).getLsbD (i / 4)) (natLe 64 (s.rdV c v).toNat))] :=
  vEmits_of_vec hr rfl fun c _ l => by
    rw [State.latentLine_open (s := (s.inCluster c).plus l) hr.1.1 halign hok hopen, State.dieOff_eq]
    rfl

end Latent

/-- Settles O21: the words of lines, of lanes and of the latent store, each by the checks of its addresses. -/
theorem vectorMemory : Obligations.VectorMemory := by
  refine ⟨fun s p e v base o m halign hrange => line_emits halign (by omega),
    fun s p e v base o m c hc => ⟨fun halign => line_traps hc fun ok => State.spCheck_unaligned halign,
      fun halign hrange => line_traps hc fun ok => State.spCheck_past halign (by omega)⟩,
    fun s p e v a b m hr hlanes => vlds_emits hr hlanes, fun s p e v a b m hlanes => indexed_emits hlanes,
    fun s p e v h o m pl halign hpl => ?latent⟩
  case latent =>
    subst hpl
    refine ⟨fun hr hok hopen => vldl_emits hr halign hok hopen, fun hr hok hopen => vstl_emits hr halign hok hopen,
      fun c hc => ⟨fun hr hok hoff => ?load, fun hr hok hoff => ?store⟩⟩
    all_goals exact traps_of_vec hr hc rfl (State.latentLine_offPhase (s := s.inCluster c) hr.1.1 halign hok hoff)

end Sys2Proof.Machine
end

section
/-!
PROOF. Due writes of vector, mask, sticky-flag, accumulator, tile and latch registers (Table 7.1, 11 R215, R217, R218): the register
written, and all that stands.
-/
namespace Sys2Proof.Machine

/-! ## One register of a core -/

section Vector

variable (x : CoreSt) (cl : Nat) (r : BitVec 5) (mask : BitVec 16) (d : BitVec 512) (m : Bool)

theorem CoreSt.lane_wrV {j : Nat} (hj : j < 16) :
    lane ((x.wrV cl r mask d m).rdV cl r) j = if mask.getLsbD j then lane d j else lane (x.rdV cl r) j := by
  rw [CoreSt.wrV, CoreSt.rdV, spGet_put_same, lane_blend _ _ _ hj]
  rfl

theorem CoreSt.vMarked_wrV : (x.wrV cl r mask d m).vMarked cl r = (m || (mask != BitVec.allOnes 16 && x.vMarked cl r)) := by
  rw [CoreSt.wrV, CoreSt.vMarked, spGet_put_same, CoreSt.vMarked]
  cases m with
  | true => rw [if_pos rfl, Bool.true_or]
  | false =>
    rw [if_neg Bool.false_ne_true, Bool.false_or]
    by_cases h : mask = BitVec.allOnes 16
    · rw [if_pos h, h, bne_self_eq_false, Bool.false_and]
    · rw [if_neg h, bne_iff_ne.2 h, Bool.true_and]

theorem CoreSt.wrV_other {cl' : Nat} {r' : BitVec 5} (h : 32 * cl' + r'.toNat ≠ 32 * cl + r.toNat) :
    (x.wrV cl r mask d m).rdV cl' r' = x.rdV cl' r' ∧ (x.wrV cl r mask d m).vMarked cl' r' = x.vMarked cl' r' := by
  rw [CoreSt.wrV, CoreSt.rdV, CoreSt.vMarked, spGet_put_ne _ _ _ h, spGet_put_ne _ _ _ h]
  exact ⟨rfl, rfl⟩

theorem CoreSt.wrV_frame : { x.wrV cl r mask d m with v := x.v, vMark := x.vMark } = x := by
  rw [CoreSt.wrV]

end Vector

section Mask

variable (x : CoreSt) (cl : Nat) {r : BitVec 3} (v : BitVec 16)

theorem CoreSt.rdM_wrM (hr : r ≠ 0) : (x.wrM cl r v).rdM cl r = v := by
  rw [CoreSt.wrM, if_neg hr, CoreSt.rdM, if_neg hr, spGet_put_same]

theorem CoreSt.rdM_wrM_ne {cl' : Nat} {r' : BitVec 3} (h : 8 * cl' + r'.toNat ≠ 8 * cl + r.toNat) :
    (x.wrM cl r v).rdM cl' r' = x.rdM cl' r' := by
  unfold CoreSt.wrM
  split
  · rfl
  · rw [CoreSt.rdM, CoreSt.rdM, spGet_put_ne _ _ _ h]

theorem CoreSt.wrM_frame : { x.wrM cl r v with m := x.m } = x := by
  unfold CoreSt.wrM
  split <;> rfl

end Mask

/-! ## What falls due -/

section RegAct

variable {s : State} {p : Pend}

/-- An action that changes its own core changes neither another core nor the rest of the package. -/
theorem State.regAct_ownCore {f : CoreSt → CoreSt} (h : s.regAct p = s.ownCore p f) :
    ({ s.regAct p with cores := s.cores } = s ∧ ∀ c, c ≠ p.own.core → (s.regAct p).core c = s.core c) ∧
      (s.regAct p).core p.own.core = f (s.core p.own.core) := by
  rw [h, State.ownCore]
  refine ⟨⟨State.updCore_package s p.own.core f, fun c hc => ?_⟩, ?_⟩
  · rw [State.core_updCore, if_neg hc]
  · rw [State.core_updCore, if_pos rfl]

theorem State.regAct_wV {cl : Nat} {v : BitVec 5} {mask : BitVec 16} {d : BitVec 512} {m : Bool} (h : p.act = .wV cl v mask d m) :
    s.regAct p = s.ownCore p fun x => x.wrV cl v mask d m := by
  rw [State.regAct, h]

theorem State.regAct_wM {cl : Nat} {r : BitVec 3} {v : BitVec 16} (h : p.act = .wM cl r v) :
    s.regAct p = s.ownCore p fun x => x.wrM cl r v := by
  rw [State.regAct, h]

theorem State.regAct_wFlag {n : Nat} {b : Word} (h : p.act = .wFlag n b) : s.regAct p = s.ownCore p fun x => x.flags n (· ||| b) := by
  rw [State.regAct, h]

theorem State.regAct_wClear {n : Nat} {b : Word} (h : p.act = .wClear n b) :
    s.regAct p = s.ownCore p fun x => x.flags n (· &&& ~~~b) := by
  rw [State.regAct, h]

theorem State.regAct_wAcc {n : Nat} {a : Acc} (h : p.act = .wAcc n a) : s.regAct p = s.ownCore p fun x => x.setAcc n a := by
  rw [State.regAct, h]

theorem State.regAct_wTile {n : Nat} {t : Tile} (h : p.act = .wTile n t) : s.regAct p = s.ownCore p fun x => x.setTile n t := by
  rw [State.regAct, h]

theorem State.regAct_wLatch {n : Nat} {l : Latch} (h : p.act = .wLatch n l) :
    s.regAct p = s.ownCore p fun x => { x with latch := spPut Latch.empty x.latch n l } := by
  rw [State.regAct, h]

end RegAct

/-- Settles O37: each write is the update of its register in its own core, whose rules say the rest. -/
theorem holderRegisterWrites : Obligations.HolderRegisterWrites := by
  refine fun s p => ⟨fun cl v mask d m h => ?vector, fun cl r v h => ?mask, fun b h => ?vFlag, fun b h => ?mFlag, fun b h => ?vClear,
    fun b h => ?mClear, fun b h => ?cClear, fun n a h => ?accumulator, fun n t h => ?tile, fun n l h => ?latch⟩
  case vector =>
    obtain ⟨hrest, hcore⟩ := State.regAct_ownCore (State.regAct_wV h)
    rw [hcore]
    exact ⟨hrest, fun j hj => CoreSt.lane_wrV _ _ _ _ _ _ hj, CoreSt.vMarked_wrV .., fun cl' v' hne => CoreSt.wrV_other _ _ _ _ _ _ hne,
      CoreSt.wrV_frame ..⟩
  case mask =>
    obtain ⟨hrest, hcore⟩ := State.regAct_ownCore (State.regAct_wM h)
    rw [hcore]
    exact ⟨hrest, CoreSt.rdM_zero .., CoreSt.rdM_wrM _ _ _, fun cl' r' hne => CoreSt.rdM_wrM_ne _ _ _ hne, CoreSt.wrM_frame ..⟩
  case accumulator =>
    obtain ⟨hrest, hcore⟩ := State.regAct_ownCore (State.regAct_wAcc h)
    rw [hcore]
    exact ⟨hrest, spGet_put_same .., fun k hk => spGet_put_ne _ _ _ hk, rfl⟩
  case tile =>
    obtain ⟨hrest, hcore⟩ := State.regAct_ownCore (State.regAct_wTile h)
    rw [hcore]
    exact ⟨hrest, spGet_put_same .., fun k hk => spGet_put_ne _ _ _ hk, rfl⟩
  case latch =>
    obtain ⟨hrest, hcore⟩ := State.regAct_ownCore (State.regAct_wLatch h)
    rw [hcore]
    exact ⟨hrest, spGet_put_same .., fun k hk => spGet_put_ne _ _ _ hk, rfl⟩
  case vFlag | mFlag =>
    obtain ⟨hrest, hcore⟩ := State.regAct_ownCore (State.regAct_wFlag h)
    rw [hcore]
    exact ⟨hrest, rfl, rfl⟩
  case vClear | mClear | cClear =>
    obtain ⟨hrest, hcore⟩ := State.regAct_ownCore (State.regAct_wClear h)
    rw [hcore]
    exact ⟨hrest, rfl, rfl⟩

end Sys2Proof.Machine
end

section
/-!
PROOF. The words of the X slot (12 R243, R244): their gates, once each, and the state that such a word leaves when they are open.
-/
namespace Sys2Proof.Machine

variable {s t : State} {i : Instr} {p : BitVec 3} {srcs : List (BitVec 5)} {body ok : State → State}

/-! ## Words -/

/-- A word of the holder leaves what its body leaves. -/
theorem exec_of_xOp (hr : HReady s p srcs) (hi : exec i s = s.xOp p srcs body) (hb : body s = t) : exec i s = .next t := by
  rw [hi, State.xOp, State.holderOp_holder s _ hr.1, State.slotOp_ready s p srcs body hr.2, hb]

/-- The offset of a row of a tile from a base. -/
theorem State.baseOff_row {w : Nat} (s : State) (base : Base) (o : BitVec w) (e : Ext) :
    s.baseOff base o e 128 = s.baseVal base + extended o e * 128 := congrArg _ (word_extInt_mul o e 128)

/-! ## Units and spill cells (R244, R113) -/

section Units

variable {busyTo unit : Nat} {n : BitVec 2}

theorem State.unitGate_free (h : busyTo ≤ s.unitNow) : s.unitGate busyTo unit ok = ok s := if_neg (Nat.not_lt.2 h)

theorem State.unitGate_busy (h : busyTo > s.unitNow) : s.unitGate busyTo unit ok = s.trap (.timing 2 (BitVec.ofNat 64 unit)) := if_pos h

theorem State.spillGate_whole (h : s.me.accSpilled n.toNat = false) : s.spillGate n ok = ok s := by simp [State.spillGate, h]

theorem State.spillGate_spilled (h : s.me.accSpilled n.toNat = true) : s.spillGate n ok = s.trap (.illegal 18 0) := if_pos h

end Units

/-! ## Rows (R244, R185) -/

section Rows

variable {n r : Nat} {rows : List Nat}

theorem find_marked_none (h : ∀ r ∈ rows, (s.me.tile n).marked r = false) : (rows.find? fun r => (s.me.tile n).marked r) = none :=
  List.find?_eq_none.2 fun r hr => by simp [h r hr]

theorem State.useRows_clean (h : ∀ r ∈ rows, (s.me.tile n).marked r = false) : s.useRows n rows ok = ok s := by
  rw [State.useRows, find_marked_none h]

theorem State.useRows_marked (h : (rows.find? fun r => (s.me.tile n).marked r) = some r) :
    s.useRows n rows ok = s.trap (.poison 2 0 n r) := by
  rw [State.useRows, h]

theorem State.rowTraps_clean (h : ∀ r ∈ rows, (s.me.tile n).marked r = false) : s.rowTraps n rows = s := by
  rw [State.rowTraps, find_marked_none h]

theorem State.rowTraps_marked (h : (rows.find? fun r => (s.me.tile n).marked r) = some r) :
    s.rowTraps n rows = s.trap (.poison 2 0 n r) := by
  rw [State.rowTraps, h]

end Rows

/-! ## Row pairs (R244, R110) -/

section Pairs

variable {x : PairRead}

theorem State.pairClean_marked {q : Nat × Nat} (h : x.poison = some q) : s.pairClean x ok = s.trap (.poison 2 0 q.1 q.2) := by
  rw [State.pairClean, h]

theorem State.pairClean_clean (h : x.poison = none) : s.pairClean x ok = ok s := by rw [State.pairClean, h]

/-- What the read of a row pair asks of the scale queue: its pops, and the sticky bit of an invalid descriptor. -/
def State.popActs (s : State) (x : PairRead) : List Pend :=
  (if x.pops = 0 then [] else [s.due 0 (.sqPop x.pops)]) ++ (if x.bad then [s.due 0 (.wFlag 10 2)] else [])

theorem State.pairPops_short (h : x.short = true) : s.pairPops x ok = s.trap (.sqimbal s.me.sq.length false) := if_pos h

theorem State.pairPops_held (h : x.short = false) : s.pairPops x ok = ok (s.plus (s.popActs x)) := by
  refine (if_neg (by simp [h])).trans (congrArg ok ?_)
  rw [State.popActs, ← State.plus_plus]
  by_cases hpops : x.pops = 0 <;> cases hbad : x.bad <;> simp [hpops, State.emit_plus, msDESCBAD]

end Pairs

end Sys2Proof.Machine
end

section
/-!
PROOF. Tiles to and from the scratchpad (12 R245): the checks of a span of rows, and the tile engine that TLD and TST hold.
-/
namespace Sys2Proof.Machine

variable {s t : State} {a : Word} {st : Nat} {ok : State → State} {k : TrapKind}

/-! ## The span of a tile -/

theorem State.tileSpan_ok (halign : a.toNat % 64 = 0) (hstride : st % 64 = 0) (hend : a.toNat + 63 * st + 128 ≤ 0x50000) :
    s.tileSpan a st ok = ok s := by
  have hin : ¬a.toNat + 63 * st + 128 > spSize := Nat.not_lt.2 hend
  rw [State.tileSpan, if_neg (not_not_intro halign), if_neg (not_not_intro hstride), if_neg hin]

theorem State.tileSpan_unaligned (halign : a.toNat % 64 ≠ 0) : s.tileSpan a st ok = s.trap (.align a none) := if_pos halign

theorem State.tileSpan_stride (halign : a.toNat % 64 = 0) (hstride : st % 64 ≠ 0) :
    s.tileSpan a st ok = s.trap (.align (a + BitVec.ofNat 64 st) none) := by
  rw [State.tileSpan, if_neg (not_not_intro halign), if_pos hstride]

theorem State.tileSpan_past (halign : a.toNat % 64 = 0) (hstride : st % 64 = 0) (hend : a.toNat + 63 * st + 128 > 0x50000) :
    s.tileSpan a st ok = s.trap (.range a none) := by
  have hpast : a.toNat + 63 * st + 128 > spSize := hend
  rw [State.tileSpan, if_neg (not_not_intro halign), if_neg (not_not_intro hstride), if_pos hpast]

/-! ## The words -/

section Words

variable {p : BitVec 3} {e : Ext} {n : BitVec 4} {base : Base} {r : BitVec 5} {o : BitVec 7}
  (hr : HReady s p (r :: base.sregs)) (ha : a = s.baseVal base + extended o e * 128)
include hr ha

/-- A check of the span that fails is the trap of the load and of the store. -/
theorem tileRows_traps (hspan : ∀ ok, s.tileSpan a (s.strideOf r) ok = s.trap k) :
    Traps (.tld p e n base r o) s k ∧ Traps (.tst p e n base r o) s k := by
  rw [ha, ← State.baseOff_row] at hspan
  exact ⟨exec_of_xOp hr rfl (hspan _), exec_of_xOp hr rfl (hspan _)⟩

variable (hspan : ∀ ok, s.tileSpan a (s.strideOf r) ok = ok s)
include hspan

/-- With its span in the scratchpad, TLD goes to the tile engine. -/
theorem exec_tld (ht : (s.unitGate s.me.units.tileEnd 0 fun s₁ => (s₁.emit 1 (.tld n.toNat a.toNat (s.strideOf r) 0)).setUnits
    fun u => { u with tileEnd := s₁.unitNow + 32 }) = t) : exec (.tld p e n base r o) s = .next t := by
  rw [ha, ← State.baseOff_row] at hspan ht
  exact exec_of_xOp hr rfl ((hspan _).trans ht)

/-- TST goes to the marks of the rows that it reads first, then to the tile engine. -/
theorem exec_tst (ht : (s.useRows n.toNat [0, 1] fun s₁ => s₁.unitGate s₁.me.units.tileEnd 0 fun s₂ =>
    (s₂.emit 1 (.tst a.toNat (s.strideOf r) 0 ((s.me.tile n.toNat).row 0) ((s.me.tile n.toNat).row 1) n.toNat)).setUnits
      fun u => { u with tileEnd := s₂.unitNow + 32 }) = t) : exec (.tst p e n base r o) s = .next t := by
  rw [ha, ← State.baseOff_row] at hspan ht
  exact exec_of_xOp hr rfl ((hspan _).trans ht)

theorem tst_traps_marked {j : Nat} (hj : ([0, 1].find? fun r => (s.me.tile n.toNat).marked r) = some j) :
    Traps (.tst p e n base r o) s (.poison 2 0 n.toNat j) := exec_tst hr ha hspan (State.useRows_marked hj)

theorem tld_loads (hfree : s.me.units.tileEnd ≤ s.unitNow) : exec (.tld p e n base r o) s =
    .next ((s.plus [s.due 1 (.tld n.toNat a.toNat (s.strideOf r) 0)]).withUnits { s.cur.units with tileEnd := s.unitNow + 32 }) :=
  exec_tld hr ha hspan (State.unitGate_free hfree)

theorem tld_traps_busy (hbusy : s.me.units.tileEnd > s.unitNow) : Traps (.tld p e n base r o) s (.timing 2 0) :=
  exec_tld hr ha hspan (State.unitGate_busy hbusy)

variable (hclean : ∀ j ∈ [0, 1], (s.me.tile n.toNat).marked j = false)
include hclean

theorem tst_stores (hfree : s.me.units.tileEnd ≤ s.unitNow) : exec (.tst p e n base r o) s =
    .next ((s.plus [s.due 1 (.tst a.toNat (s.strideOf r) 0 ((s.me.tile n.toNat).row 0) ((s.me.tile n.toNat).row 1) n.toNat)]).withUnits
      { s.cur.units with tileEnd := s.unitNow + 32 }) :=
  exec_tst hr ha hspan ((State.useRows_clean hclean).trans (State.unitGate_free hfree))

theorem tst_traps_busy (hbusy : s.me.units.tileEnd > s.unitNow) : Traps (.tst p e n base r o) s (.timing 2 0) :=
  exec_tst hr ha hspan ((State.useRows_clean hclean).trans (State.unitGate_busy hbusy))

end Words

end Sys2Proof.Machine
end

section
/-!
PROOF. Tiles to and from the latent store (12 R246): line 0 at issue, the bundle of the core held for 128 cycles, and TIMING of a word of the
bundle's M slot that needs the bundle in the issue cycle (R244).
-/
namespace Sys2Proof.Machine

variable {s t : State} {wr : Bool} {q : Pend} {l r : List Pend}

/-! ## The M slot of the same bundle (R244) -/

/-- An action that a word of the M slot asks for, and that needs the bundle of the given direction in this cycle. -/
def StreamAsks (s : State) (wr : Bool) (q : Pend) : Prop :=
  q.own.slot = 2 ∧ ((∃ ls op w x y ld, q.act = .lsAtomic ls op w x y ld) ∨
    (wr = true ∧ ∃ ls m bs, q.act = .lsStore ls m bs) ∨ (wr = false ∧ q.due ≥ s.cur.t + 24 ∧ ∃ k d v m, q.act = .wS k d v m))

/-- The test of `State.streamClash`. -/
def State.streamHit (s : State) (wr : Bool) (p : Pend) : Bool :=
  p.own.slot == 2 && (match p.act with
    | .wS _ _ _ _ => !wr && decide (p.due ≥ s.cur.t + 24)
    | .lsStore _ _ _ => wr
    | .lsAtomic _ _ _ _ _ _ => true
    | _ => false)

theorem State.streamHit_iff : s.streamHit wr q = true ↔ StreamAsks s wr q := by
  unfold State.streamHit StreamAsks
  split
  next h => simp [h]
  next h => simp [h]
  next h => simp [h]
  next hload hstore hatomic =>
    refine iff_of_false (by simp) ?_
    rintro ⟨-, ⟨_, _, _, _, _, _, hact⟩ | ⟨-, _, _, _, hact⟩ | ⟨-, -, _, _, _, _, hact⟩⟩
    · exact hatomic _ _ _ _ _ _ hact
    · exact hstore _ _ _ hact
    · exact hload _ _ _ _ hact

/-- The trap that the stream gives the word of the M slot. -/
def State.clashWith (s : State) (wr : Bool) (q : Pend) : State :=
  { s with cur := { s.cur with traps := s.cur.traps ++ [q.own.cand (.timing 2 (if wr then 3 else 2))] } }

/-- R244: the first word of the M slot that needs the bundle in this cycle takes the trap. -/
theorem State.streamClash_eq (s : State) (wr : Bool) : s.streamClash wr =
    match s.cur.out.find? (s.streamHit wr) with
    | some q => s.clashWith wr q
    | none => s := rfl

theorem State.streamClash_none (h : ∀ q ∈ s.cur.out, ¬StreamAsks s wr q) : s.streamClash wr = s := by
  have hfind : s.cur.out.find? (s.streamHit wr) = none := List.find?_eq_none.2 fun q hq hhit => h q hq (State.streamHit_iff.1 hhit)
  rw [State.streamClash_eq, hfind]

theorem State.streamClash_first (hout : s.cur.out = l ++ q :: r) (hl : ∀ y ∈ l, ¬StreamAsks s wr y) (hq : StreamAsks s wr q) :
    s.streamClash wr = s.clashWith wr q := by
  have hfind : s.cur.out.find? (s.streamHit wr) = some q := by
    rw [hout]
    refine List.find?_eq_some_iff_append.2 ⟨State.streamHit_iff.2 hq, l, r, rfl, fun y hy => ?_⟩
    simpa using fun hhit => hl y hy (State.streamHit_iff.1 hhit)
  rw [State.streamClash_eq, hfind]

section Asked

variable {acts : List Pend}

/-- The stream's own actions are not of the M slot. -/
theorem State.streamClash_plus_none (hslot : s.cur.slot ≠ 2) (hacts : ∀ q ∈ acts, q.own = s.own)
    (h : ∀ q ∈ s.cur.out, ¬StreamAsks s wr q) : (s.plus acts).streamClash wr = s.plus acts := by
  refine State.streamClash_none fun q hmem hasks => ?_
  rcases List.mem_append.1 hmem with hold | hnew
  · exact h q hold hasks
  · exact hslot ((congrArg Own.slot (hacts q hnew)).symm.trans hasks.1)

theorem State.streamClash_plus_first (hout : s.cur.out = l ++ q :: r) (hl : ∀ y ∈ l, ¬StreamAsks s wr y) (hq : StreamAsks s wr q) :
    (s.plus acts).streamClash wr = (s.plus acts).clashWith wr q :=
  State.streamClash_first (r := r ++ acts) ((congrArg (· ++ acts) hout).trans (by simp)) hl hq

end Asked

theorem exists_trap_of_traps {k : TrapKind} {zs : List TrapCand} (h : t.cur.traps = (s.trap k).cur.traps ++ zs) :
    ∃ z ∈ t.cur.traps.drop s.cur.traps.length, z.kind = k := by
  obtain ⟨z, hz, hkind⟩ : ∃ z, (s.trap k).cur.traps = s.cur.traps ++ [z] ∧ z.kind = k := ⟨_, rfl, rfl⟩
  rw [h, hz, List.append_assoc, List.drop_left]
  exact ⟨z, List.mem_cons_self, hkind⟩

/-- The traps of a word stand whatever its stream's clash adds to them. -/
theorem State.traps_streamClash (s : State) (wr : Bool) : ∃ zs, (s.streamClash wr).cur.traps = s.cur.traps ++ zs := by
  rw [State.streamClash_eq]
  split
  · exact ⟨_, rfl⟩
  · exact ⟨[], (List.append_nil _).symm⟩

/-! ## The streams -/

/-- What TLDL asks for in its issue cycle: line 0, and the line after it. -/
def State.loadActs (s : State) (n h : BitVec 4) (a : Word) (pl : LsAddr) : List Pend :=
  [s.dueLate (if pl.die = dieOf s.cur.core then 24 else 40)
      (.wHalf n.toNat 0 0 (BitVec.ofNat 512 (leNat (s.lsBytes pl 64))) (s.lsTag pl) (s.lsTag pl)),
    s.due 1 (.tldl n.toNat (s.rdH h) a.toNat 1 (s.lsTag pl))]

/-- What TSTL asks for in its issue cycle. -/
def State.storeActs (s : State) (n h : BitVec 4) (a : Word) (pl : LsAddr) : List Pend :=
  [s.due (if pl.die = dieOf s.cur.core then 20 else 36) (.lsStore pl (List.replicate 64 true)
      (natLe 64 (((s.me.tile n.toNat).row 0).extractLsb' 0 512).toNat)),
    s.due 1 (.tstl n.toNat (s.rdH h) a.toNat 1)]

theorem State.own_of_mem_loadActs {n h : BitVec 4} {a : Word} {pl : LsAddr} : ∀ q ∈ s.loadActs n h a pl, q.own = s.own :=
  List.forall_mem_cons.2 ⟨rfl, List.forall_mem_singleton.2 rfl⟩

theorem State.own_of_mem_storeActs {n h : BitVec 4} {a : Word} {pl : LsAddr} : ∀ q ∈ s.storeActs n h a pl, q.own = s.own :=
  List.forall_mem_cons.2 ⟨rfl, List.forall_mem_singleton.2 rfl⟩

section Streams

variable {p : BitVec 3} {e : Ext} {n h : BitVec 4} {o : BitVec 13} {i : BitVec 5} {a : Word}

/-- The two addressing forms of TLDL. -/
theorem tldl_forms (hb : s.isHolder = true → s.tldlAt n h a = t) :
    (a = extended o e * 64 → HReady s p [] → exec (.tldl p e n h o) s = .next t) ∧
      (a = s.rdS i → HReady s p [i] → exec (.tldlIndexed p n h i) s = .next t) := by
  refine ⟨fun ha hr => exec_of_xOp hr rfl ?offset, fun ha hr => exec_of_xOp hr rfl ?index⟩
  case offset => rw [spanOff_line, ← ha, hb hr.1]
  case index => rw [← ha, hb hr.1]

/-- The two addressing forms of TSTL. -/
theorem tstl_forms (hb : s.isHolder = true → s.tstlAt n h a = t) :
    (a = extended o e * 64 → HReady s p [] → exec (.tstl p e n h o) s = .next t) ∧
      (a = s.rdS i → HReady s p [i] → exec (.tstlIndexed p n h i) s = .next t) := by
  refine ⟨fun ha hr => exec_of_xOp hr rfl ?offset, fun ha hr => exec_of_xOp hr rfl ?index⟩
  case offset => rw [spanOff_line, ← ha, hb hr.1]
  case index => rw [← ha, hb hr.1]

variable (hholder : s.isHolder = true) (halign : a.toNat % 64 = 0)

include hholder halign in
theorem State.tldlAt_open (hok : HandleOk (s.rdH h) a.toNat 8192 false true) (hopen : LsOpen s (handlePlace (s.rdH h) a.toNat) false) :
    s.tldlAt n h a = ((s.plus (s.loadActs n h a (handlePlace (s.rdH h) a.toNat))).streamClash false).setUnits
      fun u => { u with rdEnd := s.cur.t + 128 } := by
  rw [State.tldlAt, State.handleOp_ok (by decide) hok halign, State.lsGate_open hholder hopen, State.dieOff_eq]
  exact congrArg (fun x : State => (x.streamClash false).setUnits fun u => { u with rdEnd := s.cur.t + 128 }) (State.plus_plus s _ _)

include halign in
theorem State.tstlAt_handle (hok : HandleOk (s.rdH h) a.toNat 8192 true true) : s.tstlAt n h a =
    (s.rowTraps n.toNat [0]).lsGate (handlePlace (s.rdH h) a.toNat) true fun s₁ =>
      ((s₁.plus (s₁.storeActs n h a (handlePlace (s.rdH h) a.toNat))).streamClash true).setUnits
        fun u => { u with wrEnd := s₁.cur.t + 128 } := by
  rw [State.tstlAt, State.handleOp_ok (by decide) hok halign]
  refine congrArg (State.lsGate _ _ true) (funext fun s₁ => ?_)
  rw [State.dieOff_eq]
  exact congrArg (fun x : State => (x.streamClash true).setUnits fun u => { u with wrEnd := s₁.cur.t + 128 }) (State.plus_plus s₁ _ _)

include hholder halign

theorem State.tstlAt_open (hok : HandleOk (s.rdH h) a.toNat 8192 true true) (hopen : LsOpen s (handlePlace (s.rdH h) a.toNat) true)
    (hclean : (s.me.tile n.toNat).marked 0 = false) :
    s.tstlAt n h a = ((s.plus (s.storeActs n h a (handlePlace (s.rdH h) a.toNat))).streamClash true).setUnits
      fun u => { u with wrEnd := s.cur.t + 128 } := by
  rw [State.tstlAt_handle halign hok, State.rowTraps_clean (by simpa using hclean), State.lsGate_open hholder hopen]

/-- A marked row 0 is POISON beside the word's other traps (R185). -/
theorem State.tstlAt_marked (hok : HandleOk (s.rdH h) a.toNat 8192 true true) (hopen : LsOpen s (handlePlace (s.rdH h) a.toNat) true)
    (hmarked : (s.me.tile n.toNat).marked 0 = true) :
    ∃ z ∈ (s.tstlAt n h a).cur.traps.drop s.cur.traps.length, z.kind = .poison 2 0 n.toNat 0 := by
  have hfind : ([0].find? fun j => (s.me.tile n.toNat).marked j) = some 0 := List.find?_cons_of_pos hmarked
  have hpoison : (s.trap (.poison 2 0 n.toNat 0)).isHolder = true := hholder
  rw [State.tstlAt_handle halign hok, State.rowTraps_marked hfind, State.lsGate_open hpoison hopen]
  obtain ⟨zs, hzs⟩ := State.traps_streamClash
    ((s.trap (.poison 2 0 n.toNat 0)).plus ((s.trap (.poison 2 0 n.toNat 0)).storeActs n h a (handlePlace (s.rdH h) a.toNat))) true
  exact exists_trap_of_traps hzs

end Streams

/-- Settles O28: TLD and TST by the checks of their span, their rows and the tile engine; TLDL and TSTL by the first word of the M slot, if
any, that needs the bundle of their direction. -/
theorem tileMoves : Obligations.TileMoves := by
  refine ⟨fun s p e n base r o hr => ?scratchpad, fun s p e n h o i a pl halign hpl => ?latent⟩
  case scratchpad =>
    intro a st x
    refine ⟨fun halign hstride hend => ?span, fun halign => ?unaligned, fun halign hstride => ?stride, fun halign hstride hend => ?past⟩
    case unaligned => exact tileRows_traps hr rfl fun ok => State.tileSpan_unaligned halign
    case stride => exact tileRows_traps hr rfl fun ok => State.tileSpan_stride halign hstride
    case past => exact tileRows_traps hr rfl fun ok => State.tileSpan_past halign hstride hend
    case span =>
      have hspan (ok : State → State) : s.tileSpan a (s.strideOf r) ok = ok s := State.tileSpan_ok halign hstride hend
      have hclean (hrow0 : x.marked 0 = false) (hrow1 : x.marked 1 = false) : ∀ j ∈ [0, 1], (s.me.tile n.toNat).marked j = false := by
        simpa using ⟨hrow0, hrow1⟩
      refine ⟨fun hfree => ⟨tld_loads hr rfl hspan hfree, fun hrow0 hrow1 => tst_stores hr rfl hspan (hclean hrow0 hrow1) hfree⟩,
        fun hrow0 => tst_traps_marked hr rfl hspan (List.find?_cons_of_pos hrow0), fun hrow0 hrow1 => ?second,
        fun hbusy => ⟨tld_traps_busy hr rfl hspan hbusy, fun hrow0 hrow1 => tst_traps_busy hr rfl hspan (hclean hrow0 hrow1) hbusy⟩⟩
      case second =>
        have hnot : ¬x.marked 0 = true := by simp [hrow0]
        exact tst_traps_marked hr rfl hspan ((List.find?_cons_of_neg hnot).trans (List.find?_cons_of_pos hrow1))
  case latent =>
    subst hpl
    intro d near load store asks clash hslot
    refine ⟨fun hok hopen => ⟨fun hnone => ?load, fun l q r hout hl hq => ?loadClash⟩,
      fun hok hopen hclean => ⟨fun hnone => ?store, fun l q r hout hl hq => ?storeClash⟩,
      fun hok hopen hmarked => ?marked⟩
    case load =>
      refine tldl_forms fun hholder => ?_
      rw [State.tldlAt_open hholder halign hok hopen, State.streamClash_plus_none hslot State.own_of_mem_loadActs hnone]
      rfl
    case loadClash =>
      refine tldl_forms fun hholder => ?_
      rw [State.tldlAt_open hholder halign hok hopen, State.streamClash_plus_first hout hl hq]
      rfl
    case store =>
      refine tstl_forms fun hholder => ?_
      rw [State.tstlAt_open hholder halign hok hopen hclean, State.streamClash_plus_none hslot State.own_of_mem_storeActs hnone]
      rfl
    case storeClash =>
      refine tstl_forms fun hholder => ?_
      rw [State.tstlAt_open hholder halign hok hopen hclean, State.streamClash_plus_first hout hl hq]
      rfl
    case marked =>
      have hforms := tstl_forms (p := p) (e := e) (n := n) (h := h) (o := o) (i := i) (a := a) fun _ : s.isHolder = true => rfl
      exact ⟨fun ha hr => ⟨_, hforms.1 ha hr, State.tstlAt_marked hr.1 halign hok hopen hmarked⟩,
        fun ha hr => ⟨_, hforms.2 ha hr, State.tstlAt_marked hr.1 halign hok hopen hmarked⟩⟩

end Sys2Proof.Machine
end

section
/-!
PROOF. The words that clear, copy and transpose a tile (12 R247), and LATCH (R248).
-/
namespace Sys2Proof.Machine

variable {s t : State} {p : BitVec 3} {n : BitVec 2} {a : BitVec 4}

/-- LATCH's read of its first row pair, at issue. -/
def State.latchFirst (s : State) (a : BitVec 4) : PairRead × Latch :=
  latchPair s.me a.toNat 0 ⟨true, [], s.me.tcReg a.toNat, []⟩

/-- A tile of a kind that LATCH accepts goes to the checks of its first row pair. -/
theorem exec_latch (hr : HReady s p []) (hkind : latchKind (s.me.tcReg a.toNat) = true)
    (hpair : ((s.pairClean (s.latchFirst a).1 fun s₁ => s₁.pairPops (s.latchFirst a).1 fun s₂ =>
      s₂.emit 1 (.latchRd n.toNat a.toNat 1 (s.latchFirst a).2)) = t)) : exec (.latch p n a) s = .next t :=
  exec_of_xOp hr rfl ((if_neg (by simp [hkind])).trans hpair)

/-- Settles O29: each word is its check of the kind and, for LATCH, those of its first row pair. -/
theorem tileWords : Obligations.TileWords := by
  intro s p d a n hr
  refine ⟨exec_of_xOp hr rfl rfl, exec_of_xOp hr rfl rfl, fun hew => ?transposed, fun hew => ?notTransposed, fun hkind => ?otherKind,
    fun hkind => ⟨fun q hq => ?marked, fun hclean hshort => ?short, fun hclean hheld => ?latched⟩⟩
  case transposed => exact exec_of_xOp hr rfl (if_neg (not_not_intro hew))
  case notTransposed => exact exec_of_xOp hr rfl (if_pos hew)
  case otherKind => exact exec_of_xOp hr rfl (if_pos (by simp [hkind]))
  case marked => exact exec_latch hr hkind (State.pairClean_marked hq)
  case short => exact exec_latch hr hkind ((State.pairClean_clean hclean).trans (State.pairPops_short hshort))
  case latched =>
    refine exec_latch hr hkind ((State.pairClean_clean hclean).trans ((State.pairPops_held hheld).trans ?_))
    exact State.plus_plus s _ _

end Sys2Proof.Machine
end

section
/-!
PROOF. MMA (12 R249, R258): its checks in the order of R185, and the array that it holds.
-/
namespace Sys2Proof.Machine

variable {s t : State} {i : Instr} {p : BitVec 3} {c l : BitVec 2} {a : BitVec 4} {f : MmaForm} {cl : Bool}

/-- The operands of MMA are what its form requires. -/
def State.mmaOk (s : State) (a : BitVec 4) (l : BitVec 2) (f : MmaForm) : Bool :=
  formOk f a.toNat l.toNat (s.me.tcReg a.toNat) (s.me.tcReg (a.toNat + 1)) (s.me.latchN l.toNat) (s.me.latchN (l.toNat + 1))

/-- MMA's read of its first row pair, at issue. -/
def State.mmaFirst (s : State) (c : BitVec 2) (a : BitVec 4) (l : BitVec 2) (f : MmaForm) (cl : Bool) : PairRead × MmaRun :=
  mmaPair s.me 0
    { n := c.toNat, t := a.toNat, form := f, cl := cl, latch := s.me.latchN l.toNat, latch2 := s.me.latchN (l.toNat + 1),
      tca := s.me.tcReg a.toNat, tcb := s.me.tcReg (a.toNat + 1), anchor := (s.me.accum c.toNat).anchor,
      trunc := if f = .bf16 ∨ f = .f16 then s.me.mctl.toNat % 8 else 0, rowsA := [], rowsB := [], descs := [], part := none }

theorem State.mmaOp_operands (hok : s.mmaOk a l f = false) : s.mmaOp c a l f cl = s.trap (.illegal 20 0) := by
  rw [State.mmaOk] at hok
  rw [State.mmaOp, hok]
  rfl

/-- With the operands that its form requires, MMA goes to the checks of its first row pair, of its accumulator, of the array and of the
scale queue. -/
theorem State.mmaOp_checks (hok : s.mmaOk a l f = true) : s.mmaOp c a l f cl =
    s.pairClean (s.mmaFirst c a l f cl).1 fun s₁ => s₁.spillGate c fun s₂ => s₂.unitGate s₂.me.units.arrayEnd 1 fun s₃ =>
      s₃.pairPops (s.mmaFirst c a l f cl).1 fun s₄ =>
        (s₄.emit 1 (.mmaRd 1 (s.mmaFirst c a l f cl).2)).setUnits fun u => { u with arrayEnd := s₄.unitNow + (if cl then 37 else 32) } := by
  rw [State.mmaOk] at hok
  simp only [State.mmaOp, hok, Bool.not_true, Bool.false_eq_true, if_false, State.mmaFirst, fld, Nat.pow_zero, Nat.div_one, Nat.reducePow]

section Checks

variable (hok : s.mmaOk a l f = true)
include hok

theorem State.mmaOp_marked {q : Nat × Nat} (hq : (s.mmaFirst c a l f cl).1.poison = some q) :
    s.mmaOp c a l f cl = s.trap (.poison 2 0 q.1 q.2) := by
  rw [State.mmaOp_checks hok, State.pairClean_marked hq]

variable (hclean : (s.mmaFirst c a l f cl).1.poison = none)
include hclean

theorem State.mmaOp_spilled (hspill : s.me.accSpilled c.toNat = true) : s.mmaOp c a l f cl = s.trap (.illegal 18 0) := by
  rw [State.mmaOp_checks hok, State.pairClean_clean hclean, State.spillGate_spilled hspill]

variable (hwhole : s.me.accSpilled c.toNat = false)
include hwhole

theorem State.mmaOp_busy (hbusy : s.me.units.arrayEnd > s.unitNow) : s.mmaOp c a l f cl = s.trap (.timing 2 1) := by
  rw [State.mmaOp_checks hok, State.pairClean_clean hclean, State.spillGate_whole hwhole, State.unitGate_busy hbusy]
  rfl

variable (hfree : s.me.units.arrayEnd ≤ s.unitNow)
include hfree

theorem State.mmaOp_short (hshort : (s.mmaFirst c a l f cl).1.short = true) :
    s.mmaOp c a l f cl = s.trap (.sqimbal s.me.sq.length false) := by
  rw [State.mmaOp_checks hok, State.pairClean_clean hclean, State.spillGate_whole hwhole, State.unitGate_free hfree,
    State.pairPops_short hshort]

theorem State.mmaOp_runs (hheld : (s.mmaFirst c a l f cl).1.short = false) : s.mmaOp c a l f cl =
    (s.plus (s.popActs (s.mmaFirst c a l f cl).1 ++ [s.due 1 (.mmaRd 1 (s.mmaFirst c a l f cl).2)])).withUnits
      { s.cur.units with arrayEnd := s.unitNow + (if cl then 37 else 32) } := by
  rw [State.mmaOp_checks hok, State.pairClean_clean hclean, State.spillGate_whole hwhole, State.unitGate_free hfree,
    State.pairPops_held hheld, State.emit_plus, State.plus_plus]
  rfl

end Checks

/-- MMA is in classical order for the forms that have no other, MMA.CL always. -/
theorem exec_mma (hr : HReady s p [])
    (hi : (i = .mma p c a l f ∧ cl = decide (f = .t2i8 ∨ f = .sp)) ∨ (i = .mmaCl p c a l f ∧ cl = true)) :
    exec i s = .next (s.mmaOp c a l f cl) := by
  rcases hi with ⟨rfl, rfl⟩ | ⟨rfl, rfl⟩
  · refine exec_of_xOp hr rfl (congrArg (s.mmaOp c a l f) ?_)
    cases f <;> rfl
  · exact exec_of_xOp hr rfl rfl

/-- Settles O30: MMA and MMA.CL are one operation in either order, whose checks follow one another. -/
theorem matrixMultiply : Obligations.MatrixMultiply := by
  intro s p c a l f hr tca tcb l1 l2 ok run done classical
  have hmma {i cl t} (hi : (i = .mma p c a l f ∧ cl = decide classical) ∨ (i = .mmaCl p c a l f ∧ cl = true))
      (ht : s.mmaOp c a l f cl = t) : exec i s = .next t := (exec_mma hr hi).trans (congrArg Host.Outcome.next ht)
  refine ⟨fun hbad => ⟨hmma (.inl ⟨rfl, rfl⟩) (State.mmaOp_operands hbad), hmma (.inr ⟨rfl, rfl⟩) (State.mmaOp_operands hbad)⟩,
    fun i cl hi hok => ⟨fun q hq => hmma hi (State.mmaOp_marked hok hq), fun hclean => ⟨fun hspill => ?spilled, fun hwhole hbusy => ?busy,
      fun hwhole hfree => ⟨fun hshort => ?short, fun hheld => ?runs⟩⟩⟩⟩
  case spilled => exact hmma hi (State.mmaOp_spilled hok hclean hspill)
  case busy => exact hmma hi (State.mmaOp_busy hok hclean hwhole hbusy)
  case short => exact hmma hi (State.mmaOp_short hok hclean hwhole hfree hshort)
  case runs => exact hmma hi (State.mmaOp_runs hok hclean hwhole hfree hheld)

end Sys2Proof.Machine
end

section
/-!
PROOF. The words of the accumulators and MSTAT (12 R261 to R264, R266), and those of the firmware context (R265).
-/
namespace Sys2Proof.Machine

variable {s t : State} {i : Instr} {p : BitVec 3} {body : State → State}

/-! ## Anchors (R128, R261) -/

/-- A widened field of at most 56 bits is the 64-bit value of its integer. -/
theorem toInt_extended {w : Nat} (hw : w + 8 ≤ 64) (k : BitVec w) (e : Ext) : (extended k e).toInt = extInt k e := by
  cases e with
  | none => exact BitVec.toInt_signExtend_of_le (by omega)
  | some l =>
    rw [extInt, ← append_toNat, Nat.add_comm w 8, sext_toNat _ (by omega)]
    exact BitVec.toInt_signExtend_of_le (by omega)

/-- ACZ, by the integer of its field. -/
theorem exec_acz {e : Ext} {a : BitVec 2} {k : BitVec 12} (hr : HReady s p [])
    (ht : (if (extended k e).toInt < -2048 ∨ (extended k e).toInt > 2047 then s.immval
      else s.spillGate a fun s₁ => s₁.emit 1 (.wAcc a.toNat ⟨[], (extended k e).toInt⟩)) = t) : exec (.acz p e a k) s = .next t := by
  rw [toInt_extended (by omega)] at ht
  exact exec_of_xOp hr rfl ht

/-! ## Rows read from an accumulator (R262) -/

/-- Parts of a word that each ask for actions whatever was asked for before ask for them one after another. -/
theorem State.foldl_plus {α : Type} {f : State → α → State} {g : α → List Pend} (h : ∀ l x, f (s.plus l) x = (s.plus l).plus (g x))
    (xs : List α) : xs.foldl f s = s.plus (xs.flatMap g) := by
  have hfrom (l : List Pend) : xs.foldl f (s.plus l) = s.plus (l ++ xs.flatMap g) := by
    induction xs generalizing l with
    | nil => rw [List.foldl_nil, List.flatMap_nil, List.append_nil]
    | cons x xs ih => rw [List.foldl_cons, h, State.plus_plus, ih, List.flatMap_cons, List.append_assoc]
  simpa using hfrom []

theorem acrd_emits (hr : HReady s p []) (d : BitVec 4) (n : BitVec 2) (f : AcrdFmt) (r : Rm) (ov : Ovf) (hi : Bool) :
    Emits (.acrd p d n f r ov hi) s ((List.range 64).flatMap fun i =>
      s.dueLate (4 + i / 2) (.wRow d.toNat i (acrdRow f r ov hi (s.me.accum n.toNat) i) false) ::
        (if acrdFlags f hi (s.me.accum n.toNat) i = 0 then []
          else [s.due (4 + i / 2) (.wFlag 10 (BitVec.ofNat 64 (acrdFlags f hi (s.me.accum n.toNat) i)))])) := by
  refine exec_of_xOp hr rfl (State.foldl_plus (fun l i => ?_) _)
  split
  next hflags => exact if_pos hflags
  next hflags =>
    refine (if_neg hflags).trans ?_
    rw [State.emitLate_plus, State.emit_plus, State.plus_plus]
    rfl

/-! ## Codes written to an accumulator (R264) -/

/-- A map listed from a function reads as the function at the keys that are listed. -/
theorem spGet_listed {α : Type} [DecidableEq α] (d : α) (f : Nat → α) (l : List Nat) (k : Nat) :
    spGet d (l.filterMap fun j => if f j = d then none else some (j, f j)) k = if k ∈ l then f k else d := by
  induction l with
  | nil => rfl
  | cons j l ih =>
    by_cases hkey : k = j
    · subst hkey
      by_cases hval : f k = d
      · simp [hval, ih]
      · simp [hval, spGet]
    · by_cases hval : f j = d
      · simp [hval, hkey, ih]
      · simp [hval, hkey, spGet, Ne.symm hkey, ih]

theorem spGet_spBuild {α : Type} [DecidableEq α] (d : α) {n k : Nat} (hk : k < n) (f : Nat → α) : spGet d (spBuild d n f) k = f k :=
  (spGet_listed d f (List.range n) k).trans (if_pos (List.mem_range.2 hk))

theorem spGet_acwrCodes (c : CoreSt) (n : Nat) (f32 : Bool) {i j : Nat} (hi : i < 64) (hj : j < 64) :
    spGet 0 (spBuild 0 4096 fun k => acwrCode c n f32 (k / 64) (k % 64)) (64 * i + j) = acwrCode c n f32 i j := by
  rw [spGet_spBuild 0 (by omega)]
  congr 1 <;> omega

/-- ACWR of a kind that it accepts, with clean rows, comes to its accumulator's spill cells. -/
theorem exec_acwr {n : BitVec 2} {a : BitVec 4} (hr : HReady s p [])
    (hkind : tcEw (s.me.tcReg a.toNat) = 1 ∨ (tcEw (s.me.tcReg a.toNat) = 0 ∧ a.toNat % 2 = 0))
    (hfst : ∀ r < tcRows (s.me.tcReg a.toNat), (s.me.tile a.toNat).marked r = false)
    (hsnd : tcEw (s.me.tcReg a.toNat) = 0 → ∀ r < tcRows (s.me.tcReg (a.toNat + 1)), (s.me.tile (a.toNat + 1)).marked r = false)
    (ht : (s.spillGate n fun s₁ => s₁.emit 36 (.wAccTile n.toNat (tcEw (s.me.tcReg a.toNat) == 0)
      (spBuild 0 4096 fun k => acwrCode s₁.me a.toNat (tcEw (s.me.tcReg a.toNat) == 0) (k / 64) (k % 64))
      (acwrTiles s₁.me a.toNat (tcEw (s.me.tcReg a.toNat) == 0)))) = t) : exec (.acwr p n a) s = .next t := by
  refine exec_of_xOp hr rfl ((if_neg (by omega)).trans ((State.useRows_clean fun r hmem => hfst r (List.mem_range.1 hmem)).trans ?_))
  rw [← ht]
  split
  next hf32 => exact State.useRows_clean fun r hmem => hsnd (eq_of_beq hf32) r (List.mem_range.1 hmem)
  next => rfl

/-! ## The firmware context (R265) -/

/-- The two gates of ACSAVE and ACREST: the firmware context acts; in a holder PRIV follows the traps of the word's own checks
(log 18). -/
theorem exec_of_xPriv {r : BitVec 5} (hr : Ready s p [r]) (hi : exec i s = s.xPriv p (.s r) body) (hb : body s = t) :
    (s.isFw = true → exec i s = .next t) ∧
      (s.isFw = false → s.isHolder = true → exec i s = .next ((s.checksOf t).trap .priv)) := by
  refine ⟨fun hfw => ?firmware, fun hfw hholder => ?holder⟩
  case firmware =>
    rw [hi, State.xPriv, if_pos (by simp [hfw]), ← hb]
    exact congrArg Host.Outcome.next (State.privOp_fw s p _ body hr hfw)
  case holder =>
    rw [hi, State.xPriv, if_pos (by simp [hholder]), ← hb]
    exact congrArg Host.Outcome.next (State.privOp_other s p _ body hr hfw)

section Saves

variable {a : Word} {ok : State → State} {e : Ext} {n : BitVec 2} {r : BitVec 5} {o : BitVec 7}

theorem State.accSpan_ok (halign : a.toNat % 64 = 0) (hend : a.toNat + 0x20000 ≤ 0x50000) : s.accSpan a ok = ok s := by
  have hin : ¬a.toNat + 0x20000 > spSize := by rw [spSize]; omega
  rw [State.accSpan, if_neg (not_not_intro halign), if_neg hin]

theorem State.accSpan_unaligned (halign : a.toNat % 64 ≠ 0) : s.accSpan a ok = s.trap (.align a none) := if_pos halign

theorem saves_unaligned (hr : Ready s p [r]) (ha : a = s.rdS r + extended o e * 128) (halign : a.toNat % 64 ≠ 0)
    (hfw : s.isFw = false) (hholder : s.isHolder = true) :
    exec (.acsave p e n (.s r) o) s = .next ((s.trap (.align a none)).trap .priv) ∧
      exec (.acrest p e n (.s r) o) s = .next ((s.trap (.align a none)).trap .priv) := by
  have hbase : s.baseOff (.s r) o e 128 = a := (s.baseOff_row (.s r) o e).trans ha.symm
  have hspan (ok : State → State) : s.accSpan (s.baseOff (.s r) o e 128) ok = s.trap (.align a none) := by
    rw [hbase, State.accSpan_unaligned halign]
  refine ⟨(exec_of_xPriv hr rfl (t := s.trap (.align a none)) ?save).2 hfw hholder,
    (exec_of_xPriv hr rfl (t := s.trap (.align a none)) ?restore).2 hfw hholder⟩
  case save | restore => exact hspan _

variable (hr : Ready s p [r]) (ha : a = s.rdS r + extended o e * 128) (halign : a.toNat % 64 = 0) (hend : a.toNat + 0x20000 ≤ 0x50000)
  (hfree : s.me.units.tileEnd ≤ s.unitNow)
include hr ha halign hend hfree

theorem acsave_gates :
    (s.isFw = true → exec (.acsave p e n (.s r) o) s = .next ((s.plus [s.due 1 (.acsave a.toNat 0 (s.me.accum n.toNat))]).withUnits
      { s.cur.units with tileEnd := s.unitNow + 512 })) ∧
    (s.isFw = false → s.isHolder = true → Traps (.acsave p e n (.s r) o) s .priv) := by
  refine exec_of_xPriv hr rfl (t := (s.plus [s.due 1 (.acsave a.toNat 0 (s.me.accum n.toNat))]).withUnits _) ?_
  rw [s.baseOff_row, State.baseVal, ← ha, State.accSpan_ok halign hend, State.unitGate_free hfree]
  rfl

theorem acrest_gates (hwhole : s.me.accSpilled n.toNat = false) :
    (s.isFw = true → exec (.acrest p e n (.s r) o) s = .next ((s.plus [s.due 1 (.acrest n.toNat a.toNat 0 Acc.zero)]).withUnits
      { s.cur.units with tileEnd := s.unitNow + 512 })) ∧
    (s.isFw = false → s.isHolder = true → Traps (.acrest p e n (.s r) o) s .priv) := by
  refine exec_of_xPriv hr rfl (t := (s.plus [s.due 1 (.acrest n.toNat a.toNat 0 Acc.zero)]).withUnits _) ?_
  rw [s.baseOff_row, State.baseVal, ← ha, State.accSpan_ok halign hend, State.spillGate_whole hwhole, State.unitGate_free hfree]
  rfl

end Saves

/-- Settles O31: each word of the accumulators is its checks and its writes; ACSAVE and ACREST have one body in either gate of log 18. -/
theorem accumulatorWords : Obligations.AccumulatorWords := by
  refine ⟨fun s p e a k hr => ?acz, fun s p d n f r ov hi hr => acrd_emits hr d n f r ov hi, fun s p n m hr => ⟨fun hspill => ?addSpilled,
    fun hwhole => ?added⟩, fun s p n a hr => ?acwr, fun s p d hr => exec_of_xOp hr rfl (State.plus_plus s _ _), fun s p e n r o => ?saves⟩
  case acz =>
    intro n
    refine ⟨fun hlo hhi hwhole => ?cleared, fun hout => ?immval, fun hlo hhi hspill => ?spilled⟩
    case cleared => exact exec_acz hr ((if_neg (by omega)).trans (State.spillGate_whole hwhole))
    case immval => exact exec_acz hr (if_pos hout)
    case spilled => exact exec_acz hr ((if_neg (by omega)).trans (State.spillGate_spilled hspill))
  case addSpilled => exact exec_of_xOp hr rfl (State.spillGate_spilled hspill)
  case added => exact exec_of_xOp hr rfl (State.spillGate_whole hwhole)
  case acwr =>
    intro ew clean
    refine ⟨fun hkind => exec_of_xOp hr rfl (if_pos hkind), fun hkind hwhole hfst hsnd => ?written,
      fun hkind hspill hfst hsnd => exec_acwr hr hkind hfst hsnd (State.spillGate_spilled hspill)⟩
    exact ⟨_, exec_acwr hr hkind hfst hsnd (State.spillGate_whole hwhole), fun i j hi hj => spGet_acwrCodes s.me a.toNat _ hi hj⟩
  case saves =>
    intro a busy
    refine ⟨fun hfw hr halign hend hfree => ⟨?save, fun hwhole => ?restore⟩, fun hfw hholder hr =>
      ⟨fun halign => saves_unaligned hr rfl halign hfw hholder, fun halign hend hfree => ⟨?savePriv, fun hwhole => ?restorePriv⟩⟩,
      fun hfw hother => ⟨State.xPriv_other hother hfw .., State.xPriv_other hother hfw ..⟩⟩
    case save => exact (acsave_gates hr rfl halign hend hfree).1 hfw
    case restore => exact (acrest_gates hr rfl halign hend hfree hwhole).1 hfw
    case savePriv => exact (acsave_gates hr rfl halign hend hfree).2 hfw hholder
    case restorePriv => exact (acrest_gates hr rfl halign hend hfree hwhole).2 hfw hholder

end Sys2Proof.Machine
end
